-- ==== Sys2Proof/Word.lean ====
section
/-! DEFINITION. The word types of the NKZ-7040 and the two canonical maps its State is made of. -/

namespace Sys2Proof

/-- A v register, an instruction word: 32 bits (R6). -/
abbrev Word := BitVec 32

/-- An s register, a mask, a privileged register: 64 bits (R6). -/
abbrev DWord := BitVec 64

/-- The unit of memory. -/
abbrev Byte := BitVec 8

/-- A finite map as a list of pairs with rising keys. -/
abbrev AMap (α : Type) := List (Nat × α)

namespace AMap

/-- The value at a key, if the map lists the key. -/
def get? {α : Type} : AMap α → Nat → Option α
  | [], _ => none
  | (k, v) :: m, n => if k = n then some v else get? m n

/-- The map without the key. -/
def erase {α : Type} (m : AMap α) (n : Nat) : AMap α := m.filter (fun p => p.1 != n)

/-- Puts a pair before the first larger key. -/
def insertAt {α : Type} (n : Nat) (v : α) : AMap α → AMap α
  | [] => [(n, v)]
  | (k, w) :: m => if n < k then (n, v) :: (k, w) :: m else (k, w) :: insertAt n v m

/-- The map with the key's value replaced or added. -/
def set {α : Type} (m : AMap α) (n : Nat) (v : α) : AMap α := insertAt n v (erase m n)

/-- Keys strictly rise. -/
def sorted {α : Type} : AMap α → Bool
  | [] => true
  | [_] => true
  | (k, _) :: (k', w) :: m => decide (k < k') && sorted ((k', w) :: m)

end AMap

/-- A total map with a default value `d`, held sparsely: no entry equals the default, so that equal maps are equal lists. -/
abbrev SMap (α : Type) := AMap α

namespace SMap

/-- The value at a key; the default where the map lists nothing. -/
def get {α : Type} (d : α) (m : SMap α) (n : Nat) : α := (AMap.get? m n).getD d

/-- Writes one key, keeping the canonical form. -/
def put {α : Type} [DecidableEq α] (d : α) (m : SMap α) (n : Nat) (v : α) : SMap α :=
  if v = d then AMap.erase m n else AMap.set m n v

/-- The canonical form: strictly rising keys, no entry at the default. -/
def wf {α : Type} [DecidableEq α] (d : α) (m : SMap α) : Bool :=
  AMap.sorted m && m.all (fun p => p.2 != d)

end SMap

end Sys2Proof
end

