-- ==== Sys2Proof/Syntax.lean ====
section
/-! DEFINITION. The instructions and events of the NKZ-7040: one constructor per row of spec/opcode_table.json.
A lane word's fields are those of R157 and R160, a group word's those of R167 and R168; opcode and set are the constructor. -/

namespace Sys2Proof

/-- The extension word (R160). -/
structure Ext where
  /-- [31:29] operand form -/
  form : Nat
  /-- [28:26] format slot, type or size code -/
  fs : Nat
  /-- [25:20] third source -/
  c : Nat
  /-- [19] b names an s register; the release bit of a memory form -/
  bs : Bool
  /-- [18:16] sub-operation, comparison, rounding or scope -/
  subop : Nat
  /-- [15:0] immediate or offset -/
  imm : Nat
  deriving DecidableEq, Repr

/-- The fields of a lane word besides its opcode (R157); `ext` is present exactly when x = 1 (R155). -/
structure LW where
  d : Nat
  a : Nat
  b : Nat
  g : Nat
  ea : Bool
  eb : Bool
  ext : Option Ext
  deriving DecidableEq, Repr

/-- The fields of a group word besides its opcode (R167); `w1` is the literal or operand word where the form has one (R155). -/
structure GW where
  d : Nat
  a : Nat
  b : Nat
  f6 : Nat
  w1 : Option Nat
  deriving DecidableEq, Repr

/-- A register of a group that hardware spills or fills (R27): a lane's v register, or an s register. -/
inductive RegRef where
  | v (lane n : Nat)
  | s (n : Nat)
  deriving DecidableEq, Repr

/-- One lane's part of a peer's reply (R123): the peer's own fault code, or the value read. -/
inductive PeerPart where
  | ok (value : Nat)
  | failed (reason : Nat)
  deriving DecidableEq, Repr

/-- What an incoming packet asks of this device's memory (R351). -/
inductive PeerKind where
  | load | store | join (ltype : Nat) | atomic (op size : Nat)
  deriving DecidableEq, Repr

/-- An incoming Ovoft Link access (R353): physical address, length, data; the scope of its acquire or release, 0 for a relaxed one, and the instances that its party belongs to at its own device, by scope (R103, R116). -/
structure PeerReq where
  kind : PeerKind
  pa : Nat
  len : Nat
  data : List Byte
  scope : Nat := 0
  insts : List Nat := []
  deriving DecidableEq, Repr

/-- An engine context (R362): kind 1 copy, 2 chain, 3 collective; the core, or the die of a collective engine; its number. -/
structure EngId where
  kind : Nat
  home : Nat
  ctx : Nat
  deriving DecidableEq, Repr

/-- An inbound posted write at BAR2 of a function (R347, R349). -/
structure InWrite where
  fn : Nat
  off : Nat
  relaxed : Bool
  data : List Byte
  deriving DecidableEq, Repr

/-- What self-test found of one die (R326, R357 step 3). -/
structure DieCaps where
  present : Bool
  cores : Nat
  slices : Nat
  chan : Nat
  hbm : Nat
  deriving DecidableEq, Repr

/-- What power-up brings (R356, R357): the three boot images, the present units, ZS_CAPIOD, and, as the supervisor boot image starts, bytes by physical address and privileged registers (log 12). -/
structure BringUp where
  images : List (List Byte)
  dies : List DieCaps
  iod : DWord
  bytes : List (Nat × Byte)
  regs : List (Nat × DWord)
  deriving DecidableEq, Repr

/-- An access that the emulation of an optional opcode makes for a lane (R335): 64 × group + lane, the address, the bytes, what it stores; a load where it stores nothing. -/
structure EmuAcc where
  lane : Nat
  addr : Nat
  n : Nat
  data : Option (List Byte)
  deriving DecidableEq, Repr

/-- What an event acts on: the numbers that name it, and the data that an outside party or the management core brings. Each event's meaning says which of them it reads. -/
structure EvArg where
  a : Nat
  b : Nat
  c : Nat
  d : Nat
  eng : EngId
  reg : RegRef
  flag : Bool
  reason : Option Nat
  v : DWord
  bytes : List Byte
  cells : List (Nat × Nat)
  edits : List (Nat × Nat × Word)
  parts : List PeerPart
  req : Option PeerReq
  write : Option InWrite
  caps : BringUp
  accs : List EmuAcc
  deriving DecidableEq, Repr

/-- An event argument that names nothing. -/
def EvArg.none : EvArg :=
  { a := 0, b := 0, c := 0, d := 0, eng := ⟨0, 0, 0⟩, reg := .s 0, flag := false, reason := Option.none, v := 0, bytes := [], cells := [],
    edits := [], parts := [], req := Option.none, write := Option.none, caps := ⟨[], [], 0, [], []⟩, accs := [] }

/-- The instruction set, then the package's events, whose operands stand in the state's event argument. -/
inductive Instr where
  /-- NOP (R235) -/
  | nop (f : LW)
  /-- RET (R233) -/
  | ret (f : LW)
  /-- EXIT (R234) -/
  | exit (f : LW)
  /-- REGION (R235) -/
  | region (f : LW)
  /-- IFENCE (R227) -/
  | ifence (f : LW)
  /-- BKPT (R236) -/
  | bkpt (f : LW)
  /-- IADD (R177) -/
  | iadd (f : LW)
  /-- ISUB (R177) -/
  | isub (f : LW)
  /-- IMUL (R177) -/
  | imul (f : LW)
  /-- IMULH (R177) -/
  | imulh (f : LW)
  /-- IMAD (R177) -/
  | imad (f : LW)
  /-- IDIV (R178) -/
  | idiv (f : LW)
  /-- IREM (R178) -/
  | irem (f : LW)
  /-- IMIN (R177) -/
  | imin (f : LW)
  /-- IMAX (R177) -/
  | imax (f : LW)
  /-- AND (R177) -/
  | andI (f : LW)
  /-- OR (R177) -/
  | orI (f : LW)
  /-- XOR (R177) -/
  | xor (f : LW)
  /-- SHL (R177) -/
  | shl (f : LW)
  /-- SHR (R177) -/
  | shr (f : LW)
  /-- SAR (R177) -/
  | sar (f : LW)
  /-- ROL (R177) -/
  | rol (f : LW)
  /-- BFX (R179) -/
  | bfx (f : LW)
  /-- BFI (R179) -/
  | bfi (f : LW)
  /-- SEL (R182) -/
  | sel (f : LW)
  /-- ICMP (R181) -/
  | icmp (f : LW)
  /-- ISAT (R182) -/
  | isat (f : LW)
  /-- MOV (R183) -/
  | mov (f : LW)
  /-- MOVI (R183) -/
  | movi (f : LW)
  /-- MOVI_H (R183) -/
  | moviH (f : LW)
  /-- MOVS (R184) -/
  | movs (f : LW)
  /-- INEG (R180) -/
  | ineg (f : LW)
  /-- IABS (R180) -/
  | iabs (f : LW)
  /-- NOT (R180) -/
  | notI (f : LW)
  /-- POPC (R180) -/
  | popc (f : LW)
  /-- CLZ (R180) -/
  | clz (f : LW)
  /-- CTZ (R180) -/
  | ctz (f : LW)
  /-- BREV (R180) -/
  | brev (f : LW)
  /-- FALD (R262) -/
  | fald (f : LW)
  /-- FAST (R262) -/
  | fast (f : LW)
  /-- FAUPD (R264) -/
  | faupd (f : LW)
  /-- FADWD (R264) -/
  | fadwd (f : LW)
  /-- FASOLV_F (R265) -/
  | fasolvF (f : LW)
  /-- FASOLV_B (R265) -/
  | fasolvB (f : LW)
  /-- FASOLV_G (R265) -/
  | fasolvG (f : LW)
  /-- FASOLV_LOO (R265) -/
  | fasolvLoo (f : LW)
  /-- FADIAG (R265) -/
  | fadiag (f : LW)
  /-- FAMUL (R265) -/
  | famul (f : LW)
  /-- FAMUL_T (R265) -/
  | famulT (f : LW)
  /-- FADD (R186) -/
  | fadd (f : LW)
  /-- FSUB (R186) -/
  | fsub (f : LW)
  /-- FMUL (R186) -/
  | fmul (f : LW)
  /-- FFMA (R186) -/
  | ffma (f : LW)
  /-- FMIN (R187) -/
  | fmin (f : LW)
  /-- FMAX (R187) -/
  | fmax (f : LW)
  /-- FCMP (R188) -/
  | fcmp (f : LW)
  /-- FDIV (R186) -/
  | fdiv (f : LW)
  /-- FSCL (R186) -/
  | fscl (f : LW)
  /-- FABS (R189) -/
  | fabs (f : LW)
  /-- FNEG (R189) -/
  | fneg (f : LW)
  /-- FSQRT (R189) -/
  | fsqrt (f : LW)
  /-- FRCP (R189) -/
  | frcp (f : LW)
  /-- FRSQ (R189) -/
  | frsq (f : LW)
  /-- FEXP2 (R189) -/
  | fexp2 (f : LW)
  /-- FLOG2 (R189) -/
  | flog2 (f : LW)
  /-- FCLASS (R190) -/
  | fclass (f : LW)
  /-- FRND (R189) -/
  | frnd (f : LW)
  /-- FGETE (R189) -/
  | fgete (f : LW)
  /-- SIN_T (R149) -/
  | sinT (f : LW)
  /-- COS_T (R149) -/
  | cosT (f : LW)
  /-- SINCOS_T (R149) -/
  | sincosT (f : LW)
  /-- FRED_T (R150) -/
  | fredT (f : LW)
  /-- CVT (R191) -/
  | cvt (f : LW)
  /-- CVTI (R191) -/
  | cvti (f : LW)
  /-- QPACK (R194) -/
  | qpack (f : LW)
  /-- QUNPK (R195) -/
  | qunpk (f : LW)
  /-- HAD (R196) -/
  | had (f : LW)
  /-- SHFL (R199) -/
  | shfl (f : LW)
  /-- SHFL_UP (R199) -/
  | shflUp (f : LW)
  /-- SHFL_DN (R199) -/
  | shflDn (f : LW)
  /-- SHFL_X (R199) -/
  | shflX (f : LW)
  /-- SWP_PAIR (R200) -/
  | swpPair (f : LW)
  /-- PERM (R201) -/
  | perm (f : LW)
  /-- BCAST (R202) -/
  | bcast (f : LW)
  /-- REDU (R203) -/
  | redu (f : LW)
  /-- SCAN (R203) -/
  | scan (f : LW)
  /-- VOTE (R204) -/
  | vote (f : LW)
  /-- VOTE_ANY (R204) -/
  | voteAny (f : LW)
  /-- VOTE_ALL (R204) -/
  | voteAll (f : LW)
  /-- VOTE_UNI (R204) -/
  | voteUni (f : LW)
  /-- MCOUNT (R205) -/
  | mcount (f : LW)
  /-- MCOUNT_PRE (R205) -/
  | mcountPre (f : LW)
  /-- MATCH (R205) -/
  | matchI (f : LW)
  /-- LD (R213) -/
  | ld (f : LW)
  /-- ST (R213) -/
  | st (f : LW)
  /-- LDS (R214) -/
  | lds (f : LW)
  /-- STS (R214) -/
  | sts (f : LW)
  /-- LDV (R215) -/
  | ldv (f : LW)
  /-- STV (R215) -/
  | stv (f : LW)
  /-- LDJ (R216) -/
  | ldj (f : LW)
  /-- LDJ_NB (R216) -/
  | ldjNb (f : LW)
  /-- STJ (R216) -/
  | stj (f : LW)
  /-- PREF (R219) -/
  | pref (f : LW)
  /-- MKA (R217) -/
  | mka (f : LW)
  /-- SEGNO (R218) -/
  | segno (f : LW)
  /-- SEGOF (R218) -/
  | segof (f : LW)
  /-- CHKA (R220) -/
  | chka (f : LW)
  /-- LDL (R221) -/
  | ldl (f : LW)
  /-- AMO_ADD (R222) -/
  | amoAdd (f : LW)
  /-- AMO_MIN (R222) -/
  | amoMin (f : LW)
  /-- AMO_MAX (R222) -/
  | amoMax (f : LW)
  /-- AMO_AND (R222) -/
  | amoAnd (f : LW)
  /-- AMO_OR (R222) -/
  | amoOr (f : LW)
  /-- AMO_XOR (R222) -/
  | amoXor (f : LW)
  /-- AMO_XCHG (R222) -/
  | amoXchg (f : LW)
  /-- AMO_JOIN (R222) -/
  | amoJoin (f : LW)
  /-- AMOC (R223) -/
  | amoc (f : LW)
  /-- AMOF (R224) -/
  | amof (f : LW)
  /-- FENCE (R226) -/
  | fence (f : LW)
  /-- BAR (R228) -/
  | bar (f : LW)
  /-- BAR_ARRIVE (R228) -/
  | barArrive (f : LW)
  /-- BAR_WAIT (R228) -/
  | barWait (f : LW)
  /-- CBACQ (R229) -/
  | cbacq (f : LW)
  /-- CBREL (R229) -/
  | cbrel (f : LW)
  /-- WAITTL (R230) -/
  | waittl (f : LW)
  /-- BR (R231) -/
  | br (f : LW)
  /-- JMP (R231) -/
  | jmp (f : LW)
  /-- BRX (R232) -/
  | brx (f : LW)
  /-- BRX_CALL (R232) -/
  | brxCall (f : LW)
  /-- CALL (R231) -/
  | call (f : LW)
  /-- TRAPU (R236) -/
  | trapu (f : LW)
  /-- SPBIND (R239) -/
  | spbind (f : LW)
  /-- SPREL (R239) -/
  | sprel (f : LW)
  /-- MMA (R248) -/
  | mma (f : LW)
  /-- MMA_D (R249) -/
  | mmaD (f : LW)
  /-- MMAI (R250) -/
  | mmai (f : LW)
  /-- TLD (R251) -/
  | tld (f : LW)
  /-- TST (R251) -/
  | tst (f : LW)
  /-- TREAD (R252) -/
  | tread (f : LW)
  /-- TWRITE (R252) -/
  | twrite (f : LW)
  /-- OPTIONAL_OPCODE (R166) -/
  | optionalOpcode (n : Nat) (f : LW)
  /-- SADD_GR (R266) -/
  | saddGr (f : GW)
  /-- SSUB_GR (R266) -/
  | ssubGr (f : GW)
  /-- SMUL_GR (R266) -/
  | smulGr (f : GW)
  /-- SAND_GR (R266) -/
  | sandGr (f : GW)
  /-- SOR_GR (R266) -/
  | sorGr (f : GW)
  /-- SXOR_GR (R266) -/
  | sxorGr (f : GW)
  /-- SSHL_GR (R266) -/
  | sshlGr (f : GW)
  /-- SSHR_N64_GR (R266) -/
  | sshrN64Gr (f : GW)
  /-- SSHR_I64_GR (R266) -/
  | sshrI64Gr (f : GW)
  /-- SMIN_I64_GR (R266) -/
  | sminI64Gr (f : GW)
  /-- SMIN_N64_GR (R266) -/
  | sminN64Gr (f : GW)
  /-- SMAX_I64_GR (R266) -/
  | smaxI64Gr (f : GW)
  /-- SMAX_N64_GR (R266) -/
  | smaxN64Gr (f : GW)
  /-- SMOV (R266) -/
  | smov (f : GW)
  /-- SADD_GI (R266) -/
  | saddGi (f : GW)
  /-- SSUB_GI (R266) -/
  | ssubGi (f : GW)
  /-- SMUL_GI (R266) -/
  | smulGi (f : GW)
  /-- SAND_GI (R266) -/
  | sandGi (f : GW)
  /-- SOR_GI (R266) -/
  | sorGi (f : GW)
  /-- SXOR_GI (R266) -/
  | sxorGi (f : GW)
  /-- SSHL_GI (R266) -/
  | sshlGi (f : GW)
  /-- SSHR_N64_GI (R266) -/
  | sshrN64Gi (f : GW)
  /-- SSHR_I64_GI (R266) -/
  | sshrI64Gi (f : GW)
  /-- SMIN_I64_GI (R266) -/
  | sminI64Gi (f : GW)
  /-- SMIN_N64_GI (R266) -/
  | sminN64Gi (f : GW)
  /-- SMAX_I64_GI (R266) -/
  | smaxI64Gi (f : GW)
  /-- SMAX_N64_GI (R266) -/
  | smaxN64Gi (f : GW)
  /-- SMOVI_GI (R266) -/
  | smoviGi (f : GW)
  /-- SCMP_GI (R267) -/
  | scmpGi (f : GW)
  /-- SADD_GL (R266) -/
  | saddGl (f : GW)
  /-- SSUB_GL (R266) -/
  | ssubGl (f : GW)
  /-- SMUL_GL (R266) -/
  | smulGl (f : GW)
  /-- SAND_GL (R266) -/
  | sandGl (f : GW)
  /-- SOR_GL (R266) -/
  | sorGl (f : GW)
  /-- SXOR_GL (R266) -/
  | sxorGl (f : GW)
  /-- SSHL_GL (R266) -/
  | sshlGl (f : GW)
  /-- SSHR_N64_GL (R266) -/
  | sshrN64Gl (f : GW)
  /-- SSHR_I64_GL (R266) -/
  | sshrI64Gl (f : GW)
  /-- SMIN_I64_GL (R266) -/
  | sminI64Gl (f : GW)
  /-- SMIN_N64_GL (R266) -/
  | sminN64Gl (f : GW)
  /-- SMAX_I64_GL (R266) -/
  | smaxI64Gl (f : GW)
  /-- SMAX_N64_GL (R266) -/
  | smaxN64Gl (f : GW)
  /-- SMOVI_GL (R266) -/
  | smoviGl (f : GW)
  /-- SCMP_GL (R267) -/
  | scmpGl (f : GW)
  /-- SCMP_GR (R267) -/
  | scmpGr (f : GW)
  /-- SSEL (R267) -/
  | ssel (f : GW)
  /-- SLD (R269) -/
  | sld (f : GW)
  /-- SST (R269) -/
  | sst (f : GW)
  /-- SBR (R267) -/
  | sbr (f : GW)
  /-- SJMP (R268) -/
  | sjmp (f : GW)
  /-- SCALL (R268) -/
  | scall (f : GW)
  /-- SRET (R268) -/
  | sret (f : GW)
  /-- CVSET_GI (R270) -/
  | cvsetGi (f : GW)
  /-- CVSET_GL (R270) -/
  | cvsetGl (f : GW)
  /-- DQPUSH (R271) -/
  | dqpush (f : GW)
  /-- DQPOP (R271) -/
  | dqpop (f : GW)
  /-- CPY (R275) -/
  | cpy (f : GW)
  /-- CPY2D (R275) -/
  | cpy2d (f : GW)
  /-- CPYG (R275) -/
  | cpyg (f : GW)
  /-- CHAIN (R277) -/
  | chain (f : GW)
  /-- COLL (R278) -/
  | coll (f : GW)
  /-- POST (R275) -/
  | post (f : GW)
  /-- STL (R275) -/
  | stl (f : GW)
  /-- PERMIT (R279) -/
  | permit (f : GW)
  /-- PERMQ (R279) -/
  | permq (f : GW)
  /-- SPLOOP (R272) -/
  | sploop (f : GW)
  /-- SPSET (R238) -/
  | spset (f : GW)
  /-- TZERO (R253) -/
  | tzero (f : GW)
  /-- TCVT (R254) -/
  | tcvt (f : GW)
  /-- TTR (R255) -/
  | ttr (f : GW)
  /-- FAINIT (R263) -/
  | fainit (f : GW)
  /-- FASCL (R263) -/
  | fascl (f : GW)
  /-- YMSET (R256) -/
  | ymset (f : GW)
  /-- YMSET_FIRST (R256) -/
  | ymsetFirst (f : GW)
  /-- XMSET (R256) -/
  | xmset (f : GW)
  /-- XMSET_FIRST (R256) -/
  | xmsetFirst (f : GW)
  /-- WBLD (R257) -/
  | wbld (f : GW)
  /-- WBFREE (R259) -/
  | wbfree (f : GW)
  /-- SYSRD (R280) -/
  | sysrd (f : GW)
  /-- SYSWR (R280) -/
  | syswr (f : GW)
  /-- TRAP (R280) -/
  | trap (f : GW)
  /-- TLBINV (R317) -/
  | tlbinv (f : GW)
  /-- ICINV (R127) -/
  | icinv (f : GW)
  /-- BINDINV (R280) -/
  | bindinv (f : GW)
  /-- SEGREV (R69) -/
  | segrev (f : GW)
  /-- UNITSAVE (R343) -/
  | unitsave (f : GW)
  /-- UNITLOAD (R343) -/
  | unitload (f : GW)
  /-- PREEMPT (R307) -/
  | preempt (f : GW)
  /-- CANCEL (R25) -/
  | cancel (f : GW)
  /-- CNTRD (R280) -/
  | cntrd (f : GW)
  /-- CNTRD_ST (R280) -/
  | cntrdSt (f : GW)
  /-- ZEROBUF (R280) -/
  | zerobuf (f : GW)
  /-- DIECTL_READ_STATE (R359) -/
  | diectlReadState (f : GW)
  /-- DIECTL_WRITE_BACK (R360) -/
  | diectlWriteBack (f : GW)
  /-- DIECTL_SELF_REFRESH_ENTRY (R360) -/
  | diectlSelfRefreshEntry (f : GW)
  /-- DIECTL_SELF_REFRESH_EXIT (R360) -/
  | diectlSelfRefreshExit (f : GW)
  /-- DIECTL_RESET_DIE_LOGIC (R360) -/
  | diectlResetDieLogic (f : GW)
  /-- DIECTL_RETRAIN_UCIE (R360) -/
  | diectlRetrainUcie (f : GW)
  /-- QUIESCE (R358) -/
  | quiesce (f : GW)
  /-- ADMIT (R358) -/
  | admitI (f : GW)
  /-- SLUICESET (R305) -/
  | sluiceset (f : GW)
  /-- MBXBIND (R293) -/
  | mbxbind (f : GW)
  /-- ZS_QSCHED (R300) -/
  | zsQsched
  /-- ZS_FLIP_TO_HOST (R321) -/
  | zsFlipToHost
  /-- ZS_FLIP_TO_DEVICE (R321) -/
  | zsFlipToDevice
  /-- ZS_PARTAPPLY (R323) -/
  | zsPartapply
  /-- LOAD_VALUE_ARRIVAL (R44) -/
  | loadValueArrival
  /-- REGISTER_SPILL (R27) -/
  | registerSpill
  /-- REGISTER_FILL (R27) -/
  | registerFill
  /-- STREAM_FETCH (R43) -/
  | streamFetch
  /-- HOME_APPLY (R106) -/
  | homeApply
  /-- STORE_COMMIT (R107) -/
  | storeCommit
  /-- DIRECTORY_EVICTION (R318) -/
  | directoryEviction
  /-- FENCE_COMPLETION (R113) -/
  | fenceCompletion
  /-- FENCE_ROLLBACK (R114) -/
  | fenceRollback
  /-- POSTED_STORE_ACKNOWLEDGEMENT (R122) -/
  | postedStoreAcknowledgement
  /-- PEER_REPLY (R123) -/
  | peerReply
  /-- PEER_ACCESS (R353) -/
  | peerAccess
  /-- ROUTE_TIMEOUT (R353) -/
  | routeTimeout
  /-- FERRY_ROUND_START (R97) -/
  | ferryRoundStart
  /-- FERRY_CHUNK_RECEIVE (R97) -/
  | ferryChunkReceive
  /-- DOMAIN_ROUND (R101) -/
  | domainRound
  /-- REPLICATED_UPDATE (R121) -/
  | replicatedUpdate
  /-- ENGINE_COMMAND_COMPLETE (R118) -/
  | engineCommandComplete
  /-- ENGINE_COMMAND_FAULT (R274) -/
  | engineCommandFault
  /-- ENGINE_FAULT_RETRY (R361) -/
  | engineFaultRetry
  /-- SLUICE_GRANT (R304) -/
  | sluiceGrant
  /-- SLUICE_PROMOTION (R304) -/
  | sluicePromotion
  /-- MATRIX_OPERATION_COMPLETE (R244) -/
  | matrixOperationComplete
  /-- MAILBOX_FIRING (R294) -/
  | mailboxFiring
  /-- RECOVERY_QUANTUM (R300) -/
  | recoveryQuantum
  /-- BARGE_PLACEMENT (R298) -/
  | bargePlacement
  /-- IDLE_UNIT_SAVE (R299) -/
  | idleUnitSave
  /-- EFFECTIVE_PRIORITY_RAISE (R301) -/
  | effectivePriorityRaise
  /-- LEVELLING_EXCHANGE (R302) -/
  | levellingExchange
  /-- STOP_SAVE (R332) -/
  | stopSave
  /-- BINDER_RESOLUTION (R67) -/
  | binderResolution
  /-- REVOKED_SEGMENT_SERVICE (R70) -/
  | revokedSegmentService
  /-- OPTIONAL_EMULATION (R335) -/
  | optionalEmulation
  /-- SERVICE_RETURN (R333) -/
  | serviceReturn
  /-- SERVICE_ABANDON (R333) -/
  | serviceAbandon
  /-- SERVICE_ESCALATE (R333) -/
  | serviceEscalate
  /-- INBOUND_POSTED_WRITE (R349) -/
  | inboundPostedWrite
  /-- INBOUND_READ (R349) -/
  | inboundRead
  /-- CXL_MEM_REQUEST (R347) -/
  | cxlMemRequest
  /-- HOST_SNOOP (R320) -/
  | hostSnoop
  /-- HOST_WARM_RESTART (R354) -/
  | hostWarmRestart
  /-- POWER_UP (R357) -/
  | powerUp
  /-- THERMAL_LIMIT (R355) -/
  | thermalLimit
  /-- THERMAL_SHUTDOWN (R355) -/
  | thermalShutdown
  /-- BINDING_SEARCH_REPEAT (R68) -/
  | bindingSearchRepeat
  /-- BINDING_ABANDON (R68) -/
  | bindingAbandon
  /-- FAILED_CONTEXT_CLEAR (R274) -/
  | failedContextClear
  /-- OVOFT_LINK_LOSS (R102) -/
  | ovoftLinkLoss
  /-- OVOFT_LINK_RETURN (R102) -/
  | ovoftLinkReturn
  /-- HOST_LINK_RETURN (R354) -/
  | hostLinkReturn
  /-- POWER_DOWN (R355) -/
  | powerDown
  deriving DecidableEq, Repr

end Sys2Proof
end

