-- ==== Sys2Proof/WellFormed.lean ====
section
/-! DEFINITION. Well-formed instructions: every field fits its bits, the second word is present exactly where the form has one, and a selecting field holds the constructor's own code.
The register ranges, reserved fields and types that R158 to R169 and the descriptions refuse with 0x15 are tests of the machine (R170) and stand with the meanings. -/

namespace Sys2Proof

/-- The subop field, 0 without an extension (R159). -/
def LW.sub (f : LW) : Nat := match f.ext with | some e => e.subop | none => 0

/-- The extension's fields fit (R160). -/
def extFits (e : Ext) : Bool :=
  decide (e.form < 8) && decide (e.fs < 8) && decide (e.c < 64) && decide (e.subop < 8) && decide (e.imm < 65536)

/-- A lane word's fields fit (R157). -/
def lwFits (f : LW) : Bool :=
  decide (f.d < 64) && decide (f.a < 64) && decide (f.b < 64) && decide (f.g < 8) && (match f.ext with | some e => extFits e | none => true)

/-- A group word's fields fit, and it has a second word exactly when `two` (R155, R167). -/
def gwFits (two : Bool) (f : GW) : Bool :=
  decide (f.d < 64) && decide (f.a < 64) && decide (f.b < 64) && decide (f.f6 < 64) &&
    (match f.w1 with | some w => two && decide (w < 2 ^ 32) | none => !two)

/-- Well-formed: the words of `encode` exist and say this instruction. -/
def wellFormed : Instr → Bool
  | .nop f => lwFits f && f.b == 0
  | .ret f => lwFits f && f.b == 1
  | .exit f => lwFits f && f.b == 2
  | .region f => lwFits f && f.b == 3
  | .ifence f => lwFits f && f.b == 4
  | .bkpt f => lwFits f && f.b == 5
  | .iadd f => lwFits f
  | .isub f => lwFits f
  | .imul f => lwFits f
  | .imulh f => lwFits f
  | .imad f => lwFits f
  | .idiv f => lwFits f
  | .irem f => lwFits f
  | .imin f => lwFits f
  | .imax f => lwFits f
  | .andI f => lwFits f
  | .orI f => lwFits f
  | .xor f => lwFits f
  | .shl f => lwFits f
  | .shr f => lwFits f
  | .sar f => lwFits f
  | .rol f => lwFits f
  | .bfx f => lwFits f
  | .bfi f => lwFits f
  | .sel f => lwFits f
  | .icmp f => lwFits f
  | .isat f => lwFits f
  | .mov f => lwFits f
  | .movi f => lwFits f && f.sub == 0
  | .moviH f => lwFits f && f.sub == 1
  | .movs f => lwFits f
  | .ineg f => lwFits f && f.b == 0
  | .iabs f => lwFits f && f.b == 1
  | .notI f => lwFits f && f.b == 2
  | .popc f => lwFits f && f.b == 3
  | .clz f => lwFits f && f.b == 4
  | .ctz f => lwFits f && f.b == 5
  | .brev f => lwFits f && f.b == 6
  | .fald f => lwFits f
  | .fast f => lwFits f
  | .faupd f => lwFits f
  | .fadwd f => lwFits f
  | .fasolvF f => lwFits f && f.sub == 0
  | .fasolvB f => lwFits f && f.sub == 1
  | .fasolvG f => lwFits f && f.sub == 2
  | .fasolvLoo f => lwFits f && f.sub == 3
  | .fadiag f => lwFits f
  | .famul f => lwFits f && f.sub == 0
  | .famulT f => lwFits f && f.sub == 1
  | .fadd f => lwFits f
  | .fsub f => lwFits f
  | .fmul f => lwFits f
  | .ffma f => lwFits f
  | .fmin f => lwFits f
  | .fmax f => lwFits f
  | .fcmp f => lwFits f
  | .fdiv f => lwFits f
  | .fscl f => lwFits f
  | .fabs f => lwFits f && f.b == 0
  | .fneg f => lwFits f && f.b == 1
  | .fsqrt f => lwFits f && f.b == 2
  | .frcp f => lwFits f && f.b == 3
  | .frsq f => lwFits f && f.b == 4
  | .fexp2 f => lwFits f && f.b == 5
  | .flog2 f => lwFits f && f.b == 6
  | .fclass f => lwFits f && f.b == 7
  | .frnd f => lwFits f && f.b == 8
  | .fgete f => lwFits f && f.b == 9
  | .sinT f => lwFits f && f.b == 10
  | .cosT f => lwFits f && f.b == 11
  | .sincosT f => lwFits f && f.b == 12
  | .fredT f => lwFits f && f.b == 13
  | .cvt f => lwFits f
  | .cvti f => lwFits f
  | .qpack f => lwFits f
  | .qunpk f => lwFits f
  | .had f => lwFits f
  | .shfl f => lwFits f
  | .shflUp f => lwFits f
  | .shflDn f => lwFits f
  | .shflX f => lwFits f
  | .swpPair f => lwFits f
  | .perm f => lwFits f
  | .bcast f => lwFits f
  | .redu f => lwFits f
  | .scan f => lwFits f
  | .vote f => lwFits f && f.sub == 0
  | .voteAny f => lwFits f && f.sub == 1
  | .voteAll f => lwFits f && f.sub == 2
  | .voteUni f => lwFits f && f.sub == 3
  | .mcount f => lwFits f && f.sub == 0
  | .mcountPre f => lwFits f && f.sub == 1
  | .matchI f => lwFits f
  | .ld f => lwFits f
  | .st f => lwFits f
  | .lds f => lwFits f
  | .sts f => lwFits f
  | .ldv f => lwFits f
  | .stv f => lwFits f
  | .ldj f => lwFits f
  | .ldjNb f => lwFits f
  | .stj f => lwFits f
  | .pref f => lwFits f
  | .mka f => lwFits f
  | .segno f => lwFits f
  | .segof f => lwFits f
  | .chka f => lwFits f
  | .ldl f => lwFits f
  | .amoAdd f => lwFits f
  | .amoMin f => lwFits f
  | .amoMax f => lwFits f
  | .amoAnd f => lwFits f
  | .amoOr f => lwFits f
  | .amoXor f => lwFits f
  | .amoXchg f => lwFits f
  | .amoJoin f => lwFits f
  | .amoc f => lwFits f
  | .amof f => lwFits f
  | .fence f => lwFits f
  | .bar f => lwFits f && f.b == 0
  | .barArrive f => lwFits f && f.b == 1
  | .barWait f => lwFits f && f.b == 2
  | .cbacq f => lwFits f
  | .cbrel f => lwFits f
  | .waittl f => lwFits f
  | .br f => lwFits f
  | .jmp f => lwFits f
  | .brx f => lwFits f && f.sub == 0
  | .brxCall f => lwFits f && f.sub == 1
  | .call f => lwFits f
  | .trapu f => lwFits f
  | .spbind f => lwFits f
  | .sprel f => lwFits f
  | .mma f => lwFits f
  | .mmaD f => lwFits f
  | .mmai f => lwFits f
  | .tld f => lwFits f
  | .tst f => lwFits f
  | .tread f => lwFits f
  | .twrite f => lwFits f
  | .optionalOpcode n f => decide (n < 16) && lwFits f
  | .saddGr f => gwFits false f && f.f6 == 0
  | .ssubGr f => gwFits false f && f.f6 == 1
  | .smulGr f => gwFits false f && f.f6 == 2
  | .sandGr f => gwFits false f && f.f6 == 3
  | .sorGr f => gwFits false f && f.f6 == 4
  | .sxorGr f => gwFits false f && f.f6 == 5
  | .sshlGr f => gwFits false f && f.f6 == 6
  | .sshrN64Gr f => gwFits false f && f.f6 == 7
  | .sshrI64Gr f => gwFits false f && f.f6 == 8
  | .sminI64Gr f => gwFits false f && f.f6 == 9
  | .sminN64Gr f => gwFits false f && f.f6 == 10
  | .smaxI64Gr f => gwFits false f && f.f6 == 11
  | .smaxN64Gr f => gwFits false f && f.f6 == 12
  | .smov f => gwFits false f && f.f6 == 13
  | .saddGi f => gwFits false f
  | .ssubGi f => gwFits false f
  | .smulGi f => gwFits false f
  | .sandGi f => gwFits false f
  | .sorGi f => gwFits false f
  | .sxorGi f => gwFits false f
  | .sshlGi f => gwFits false f
  | .sshrN64Gi f => gwFits false f
  | .sshrI64Gi f => gwFits false f
  | .sminI64Gi f => gwFits false f
  | .sminN64Gi f => gwFits false f
  | .smaxI64Gi f => gwFits false f
  | .smaxN64Gi f => gwFits false f
  | .smoviGi f => gwFits false f
  | .scmpGi f => gwFits false f
  | .saddGl f => gwFits true f
  | .ssubGl f => gwFits true f
  | .smulGl f => gwFits true f
  | .sandGl f => gwFits true f
  | .sorGl f => gwFits true f
  | .sxorGl f => gwFits true f
  | .sshlGl f => gwFits true f
  | .sshrN64Gl f => gwFits true f
  | .sshrI64Gl f => gwFits true f
  | .sminI64Gl f => gwFits true f
  | .sminN64Gl f => gwFits true f
  | .smaxI64Gl f => gwFits true f
  | .smaxN64Gl f => gwFits true f
  | .smoviGl f => gwFits true f
  | .scmpGl f => gwFits true f
  | .scmpGr f => gwFits false f
  | .ssel f => gwFits false f
  | .sld f => gwFits false f
  | .sst f => gwFits false f
  | .sbr f => gwFits false f
  | .sjmp f => gwFits false f
  | .scall f => gwFits false f
  | .sret f => gwFits false f
  | .cvsetGi f => gwFits false f
  | .cvsetGl f => gwFits true f
  | .dqpush f => gwFits false f
  | .dqpop f => gwFits false f
  | .cpy f => gwFits true f
  | .cpy2d f => gwFits true f
  | .cpyg f => gwFits true f
  | .chain f => gwFits true f
  | .coll f => gwFits true f
  | .post f => gwFits true f
  | .stl f => gwFits true f
  | .permit f => gwFits true f
  | .permq f => gwFits true f
  | .sploop f => gwFits true f
  | .spset f => gwFits false f
  | .tzero f => gwFits false f
  | .tcvt f => gwFits false f
  | .ttr f => gwFits false f
  | .fainit f => gwFits false f
  | .fascl f => gwFits false f
  | .ymset f => gwFits false f && f.f6 == 0
  | .ymsetFirst f => gwFits false f && f.f6 == 1
  | .xmset f => gwFits false f && f.f6 == 0
  | .xmsetFirst f => gwFits false f && f.f6 == 1
  | .wbld f => gwFits false f
  | .wbfree f => gwFits false f
  | .sysrd f => gwFits false f
  | .syswr f => gwFits false f
  | .zsQsched => true
  | .zsFlipToHost => true
  | .zsFlipToDevice => true
  | .zsPartapply => true
  | .trap f => gwFits false f
  | .tlbinv f => gwFits false f
  | .icinv f => gwFits false f
  | .bindinv f => gwFits false f
  | .segrev f => gwFits false f
  | .unitsave f => gwFits false f
  | .unitload f => gwFits false f
  | .preempt f => gwFits false f
  | .cancel f => gwFits false f
  | .cntrd f => gwFits false f && decide (f.f6 < 8)
  | .cntrdSt f => gwFits false f && f.f6 / 8 == 1
  | .zerobuf f => gwFits false f
  | .diectlReadState f => gwFits false f && f.f6 == 0
  | .diectlWriteBack f => gwFits false f && f.f6 == 1
  | .diectlSelfRefreshEntry f => gwFits false f && f.f6 == 2
  | .diectlSelfRefreshExit f => gwFits false f && f.f6 == 3
  | .diectlResetDieLogic f => gwFits false f && f.f6 == 4
  | .diectlRetrainUcie f => gwFits false f && f.f6 == 5
  | .quiesce f => gwFits false f
  | .admitI f => gwFits false f
  | .sluiceset f => gwFits false f
  | .mbxbind f => gwFits false f
  | .loadValueArrival => true
  | .registerSpill => true
  | .registerFill => true
  | .streamFetch => true
  | .homeApply => true
  | .storeCommit => true
  | .directoryEviction => true
  | .fenceCompletion => true
  | .fenceRollback => true
  | .postedStoreAcknowledgement => true
  | .peerReply => true
  | .peerAccess => true
  | .routeTimeout => true
  | .ferryRoundStart => true
  | .ferryChunkReceive => true
  | .domainRound => true
  | .replicatedUpdate => true
  | .engineCommandComplete => true
  | .engineCommandFault => true
  | .engineFaultRetry => true
  | .sluiceGrant => true
  | .sluicePromotion => true
  | .matrixOperationComplete => true
  | .mailboxFiring => true
  | .recoveryQuantum => true
  | .bargePlacement => true
  | .idleUnitSave => true
  | .effectivePriorityRaise => true
  | .levellingExchange => true
  | .stopSave => true
  | .binderResolution => true
  | .revokedSegmentService => true
  | .optionalEmulation => true
  | .serviceReturn => true
  | .serviceAbandon => true
  | .serviceEscalate => true
  | .inboundPostedWrite => true
  | .inboundRead => true
  | .cxlMemRequest => true
  | .hostSnoop => true
  | .hostWarmRestart => true
  | .powerUp => true
  | .thermalLimit => true
  | .thermalShutdown => true
  | .bindingSearchRepeat => true
  | .bindingAbandon => true
  | .failedContextClear => true
  | .ovoftLinkLoss => true
  | .ovoftLinkReturn => true
  | .hostLinkReturn => true
  | .powerDown => true

end Sys2Proof
end

