-- ==== Sys2Proof/Decode.lean ====
section
/-! DEFINITION. Decoding: total on any bytes, by the opcode maps of R164 and R169; then the encoder, from the same layouts (R157, R160, R167, R168). -/

namespace Sys2Proof

/-- Why bytes decode to no instruction. -/
inductive DecodeReject where
  /-- fewer bytes than the instruction has (R155) -/
  | short
  /-- an opcode or function code that R164, R169 or the description leaves unassigned: 0x15 (R170) -/
  | unassigned
  deriving DecidableEq, Repr

/-- Bits [lo + n - 1 : lo] of a word. -/
def bits (w lo n : Nat) : Nat := w / 2 ^ lo % 2 ^ n

/-- The extension word's fields (R160). -/
def extOf (w : Nat) : Ext :=
  { form := bits w 29 3, fs := bits w 26 3, c := bits w 20 6, bs := bits w 19 1 == 1, subop := bits w 16 3, imm := bits w 0 16 }

/-- A lane word's fields (R157); the extension is read only when x = 1. -/
def lwOf (w0 w1 : Nat) : LW :=
  { d := bits w0 18 6, a := bits w0 12 6, b := bits w0 6 6, g := bits w0 3 3, ea := bits w0 2 1 == 1, eb := bits w0 1 1 == 1,
    ext := if bits w0 0 1 = 1 then some (extOf w1) else none }

/-- Which group opcodes have a second word (R155). -/
def groupTwo (op : Nat) : Bool := decide (0x40 ≤ op ∧ op ≤ 0x4F) || decide (0x1B ≤ op ∧ op ≤ 0x24)

/-- A group word's fields (R167). -/
def gwOf (w0 w1 : Nat) : GW :=
  { d := bits w0 18 6, a := bits w0 12 6, b := bits w0 6 6, f6 := bits w0 0 6,
    w1 := if groupTwo (bits w0 24 7) then some w1 else none }

/-- The length in words that the first word fixes (R155). -/
def wordCount (w0 : Nat) : Nat :=
  if bits w0 31 1 = 1 then (if groupTwo (bits w0 24 7) then 2 else 1) else if bits w0 0 1 = 1 then 2 else 1

/-- Major 0x00 selects by the b field (R164). -/
def sel00 (f : LW) : Option Instr :=
  match f.b with
  | 0 => some (.nop f)
  | 1 => some (.ret f)
  | 2 => some (.exit f)
  | 3 => some (.region f)
  | 4 => some (.ifence f)
  | 5 => some (.bkpt f)
  | _ => none

/-- Major 0x19 selects by the b field (R164). -/
def sel19 (f : LW) : Option Instr :=
  match f.b with
  | 0 => some (.ineg f)
  | 1 => some (.iabs f)
  | 2 => some (.notI f)
  | 3 => some (.popc f)
  | 4 => some (.clz f)
  | 5 => some (.ctz f)
  | 6 => some (.brev f)
  | _ => none

/-- Major 0x29 selects by the b field (R164). -/
def sel29 (f : LW) : Option Instr :=
  match f.b with
  | 0 => some (.fabs f)
  | 1 => some (.fneg f)
  | 2 => some (.fsqrt f)
  | 3 => some (.frcp f)
  | 4 => some (.frsq f)
  | 5 => some (.fexp2 f)
  | 6 => some (.flog2 f)
  | 7 => some (.fclass f)
  | 8 => some (.frnd f)
  | 9 => some (.fgete f)
  | 10 => some (.sinT f)
  | 11 => some (.cosT f)
  | 12 => some (.sincosT f)
  | 13 => some (.fredT f)
  | _ => none

/-- Major 0x5B selects by the b field (R164). -/
def sel5B (f : LW) : Option Instr :=
  match f.b with
  | 0 => some (.bar f)
  | 1 => some (.barArrive f)
  | 2 => some (.barWait f)
  | _ => none

/-- Major 0x17 selects by subop. -/
def sel17 (f : LW) : Option Instr :=
  match f.sub with
  | 0 => some (.movi f)
  | 1 => some (.moviH f)
  | _ => none

/-- Major 0x1E selects by subop. -/
def sel1E (f : LW) : Option Instr :=
  match f.sub with
  | 0 => some (.fasolvF f)
  | 1 => some (.fasolvB f)
  | 2 => some (.fasolvG f)
  | 3 => some (.fasolvLoo f)
  | _ => none

/-- Major 0x2F selects by subop. -/
def sel2F (f : LW) : Option Instr :=
  match f.sub with
  | 0 => some (.famul f)
  | 1 => some (.famulT f)
  | _ => none

/-- Major 0x39 selects by subop. -/
def sel39 (f : LW) : Option Instr :=
  match f.sub with
  | 0 => some (.vote f)
  | 1 => some (.voteAny f)
  | 2 => some (.voteAll f)
  | 3 => some (.voteUni f)
  | _ => none

/-- Major 0x3A selects by subop. -/
def sel3A (f : LW) : Option Instr :=
  match f.sub with
  | 0 => some (.mcount f)
  | 1 => some (.mcountPre f)
  | _ => none

/-- Major 0x62 selects by subop. -/
def sel62 (f : LW) : Option Instr :=
  match f.sub with
  | 0 => some (.brx f)
  | 1 => some (.brxCall f)
  | _ => none

/-- Major 0x00 selects by f6 (R169, R256, R280). -/
def gsel00 (f : GW) : Option Instr :=
  match f.f6 with
  | 0 => some (.saddGr f)
  | 1 => some (.ssubGr f)
  | 2 => some (.smulGr f)
  | 3 => some (.sandGr f)
  | 4 => some (.sorGr f)
  | 5 => some (.sxorGr f)
  | 6 => some (.sshlGr f)
  | 7 => some (.sshrN64Gr f)
  | 8 => some (.sshrI64Gr f)
  | 9 => some (.sminI64Gr f)
  | 10 => some (.sminN64Gr f)
  | 11 => some (.smaxI64Gr f)
  | 12 => some (.smaxN64Gr f)
  | 13 => some (.smov f)
  | _ => none

/-- Major 0x2B selects by f6 (R169, R256, R280). -/
def gsel2B (f : GW) : Option Instr :=
  match f.f6 with
  | 0 => some (.ymset f)
  | 1 => some (.ymsetFirst f)
  | _ => none

/-- Major 0x2C selects by f6 (R169, R256, R280). -/
def gsel2C (f : GW) : Option Instr :=
  match f.f6 with
  | 0 => some (.xmset f)
  | 1 => some (.xmsetFirst f)
  | _ => none

/-- Major 0x5D selects by f6 (R169, R256, R280). -/
def gsel5D (f : GW) : Option Instr :=
  match f.f6 with
  | 0 => some (.diectlReadState f)
  | 1 => some (.diectlWriteBack f)
  | 2 => some (.diectlSelfRefreshEntry f)
  | 3 => some (.diectlSelfRefreshExit f)
  | 4 => some (.diectlResetDieLogic f)
  | 5 => some (.diectlRetrainUcie f)
  | _ => none

/-- The lane opcode map (R164, R166). -/
def laneInstr (op : Nat) (f : LW) : Option Instr :=
  if 0x70 ≤ op then some (.optionalOpcode (op - 0x70) f) else
  match op with
  | 0x00 => sel00 f
  | 0x01 => some (.iadd f)
  | 0x02 => some (.isub f)
  | 0x03 => some (.imul f)
  | 0x04 => some (.imulh f)
  | 0x05 => some (.imad f)
  | 0x06 => some (.idiv f)
  | 0x07 => some (.irem f)
  | 0x08 => some (.imin f)
  | 0x09 => some (.imax f)
  | 0x0A => some (.andI f)
  | 0x0B => some (.orI f)
  | 0x0C => some (.xor f)
  | 0x0D => some (.shl f)
  | 0x0E => some (.shr f)
  | 0x0F => some (.sar f)
  | 0x10 => some (.rol f)
  | 0x11 => some (.bfx f)
  | 0x12 => some (.bfi f)
  | 0x13 => some (.sel f)
  | 0x14 => some (.icmp f)
  | 0x15 => some (.isat f)
  | 0x16 => some (.mov f)
  | 0x17 => sel17 f
  | 0x18 => some (.movs f)
  | 0x19 => sel19 f
  | 0x1A => some (.fald f)
  | 0x1B => some (.fast f)
  | 0x1C => some (.faupd f)
  | 0x1D => some (.fadwd f)
  | 0x1E => sel1E f
  | 0x1F => some (.fadiag f)
  | 0x20 => some (.fadd f)
  | 0x21 => some (.fsub f)
  | 0x22 => some (.fmul f)
  | 0x23 => some (.ffma f)
  | 0x24 => some (.fmin f)
  | 0x25 => some (.fmax f)
  | 0x26 => some (.fcmp f)
  | 0x27 => some (.fdiv f)
  | 0x28 => some (.fscl f)
  | 0x29 => sel29 f
  | 0x2A => some (.cvt f)
  | 0x2B => some (.cvti f)
  | 0x2C => some (.qpack f)
  | 0x2D => some (.qunpk f)
  | 0x2E => some (.had f)
  | 0x2F => sel2F f
  | 0x30 => some (.shfl f)
  | 0x31 => some (.shflUp f)
  | 0x32 => some (.shflDn f)
  | 0x33 => some (.shflX f)
  | 0x34 => some (.swpPair f)
  | 0x35 => some (.perm f)
  | 0x36 => some (.bcast f)
  | 0x37 => some (.redu f)
  | 0x38 => some (.scan f)
  | 0x39 => sel39 f
  | 0x3A => sel3A f
  | 0x3B => some (.matchI f)
  | 0x40 => some (.ld f)
  | 0x41 => some (.st f)
  | 0x42 => some (.lds f)
  | 0x43 => some (.sts f)
  | 0x44 => some (.ldv f)
  | 0x45 => some (.stv f)
  | 0x46 => some (.ldj f)
  | 0x47 => some (.ldjNb f)
  | 0x48 => some (.stj f)
  | 0x49 => some (.pref f)
  | 0x4A => some (.mka f)
  | 0x4B => some (.segno f)
  | 0x4C => some (.segof f)
  | 0x4D => some (.chka f)
  | 0x4E => some (.ldl f)
  | 0x50 => some (.amoAdd f)
  | 0x51 => some (.amoMin f)
  | 0x52 => some (.amoMax f)
  | 0x53 => some (.amoAnd f)
  | 0x54 => some (.amoOr f)
  | 0x55 => some (.amoXor f)
  | 0x56 => some (.amoXchg f)
  | 0x57 => some (.amoJoin f)
  | 0x58 => some (.amoc f)
  | 0x59 => some (.amof f)
  | 0x5A => some (.fence f)
  | 0x5B => sel5B f
  | 0x5C => some (.cbacq f)
  | 0x5D => some (.cbrel f)
  | 0x5E => some (.waittl f)
  | 0x60 => some (.br f)
  | 0x61 => some (.jmp f)
  | 0x62 => sel62 f
  | 0x63 => some (.call f)
  | 0x64 => some (.trapu f)
  | 0x65 => some (.spbind f)
  | 0x66 => some (.sprel f)
  | 0x67 => some (.mma f)
  | 0x68 => some (.mmaD f)
  | 0x69 => some (.mmai f)
  | 0x6A => some (.tld f)
  | 0x6B => some (.tst f)
  | 0x6C => some (.tread f)
  | 0x6D => some (.twrite f)
  | _ => none

/-- The group opcode map (R169). -/
def groupInstr (op : Nat) (f : GW) : Option Instr :=
  match op with
  | 0x00 => gsel00 f
  | 0x01 => some (.saddGi f)
  | 0x02 => some (.ssubGi f)
  | 0x03 => some (.smulGi f)
  | 0x04 => some (.sandGi f)
  | 0x05 => some (.sorGi f)
  | 0x06 => some (.sxorGi f)
  | 0x07 => some (.sshlGi f)
  | 0x08 => some (.sshrN64Gi f)
  | 0x09 => some (.sshrI64Gi f)
  | 0x0A => some (.sminI64Gi f)
  | 0x0B => some (.sminN64Gi f)
  | 0x0C => some (.smaxI64Gi f)
  | 0x0D => some (.smaxN64Gi f)
  | 0x0E => some (.smoviGi f)
  | 0x0F => some (.scmpGi f)
  | 0x10 => some (.scmpGr f)
  | 0x11 => some (.ssel f)
  | 0x12 => some (.sld f)
  | 0x13 => some (.sst f)
  | 0x14 => some (.sbr f)
  | 0x15 => some (.sjmp f)
  | 0x16 => some (.scall f)
  | 0x17 => some (.sret f)
  | 0x18 => some (.cvsetGi f)
  | 0x19 => some (.dqpush f)
  | 0x1A => some (.dqpop f)
  | 0x1B => some (.cpy f)
  | 0x1C => some (.cpy2d f)
  | 0x1D => some (.cpyg f)
  | 0x1E => some (.chain f)
  | 0x1F => some (.coll f)
  | 0x20 => some (.post f)
  | 0x21 => some (.stl f)
  | 0x22 => some (.permit f)
  | 0x23 => some (.permq f)
  | 0x24 => some (.sploop f)
  | 0x25 => some (.spset f)
  | 0x26 => some (.tzero f)
  | 0x27 => some (.tcvt f)
  | 0x28 => some (.ttr f)
  | 0x29 => some (.fainit f)
  | 0x2A => some (.fascl f)
  | 0x2B => gsel2B f
  | 0x2C => gsel2C f
  | 0x2D => some (.wbld f)
  | 0x2E => some (.wbfree f)
  | 0x40 => some (.cvsetGl f)
  | 0x41 => some (.saddGl f)
  | 0x42 => some (.ssubGl f)
  | 0x43 => some (.smulGl f)
  | 0x44 => some (.sandGl f)
  | 0x45 => some (.sorGl f)
  | 0x46 => some (.sxorGl f)
  | 0x47 => some (.sshlGl f)
  | 0x48 => some (.sshrN64Gl f)
  | 0x49 => some (.sshrI64Gl f)
  | 0x4A => some (.sminI64Gl f)
  | 0x4B => some (.sminN64Gl f)
  | 0x4C => some (.smaxI64Gl f)
  | 0x4D => some (.smaxN64Gl f)
  | 0x4E => some (.smoviGl f)
  | 0x4F => some (.scmpGl f)
  | 0x50 => some (.sysrd f)
  | 0x51 => some (.syswr f)
  | 0x52 => some (.trap f)
  | 0x53 => some (.tlbinv f)
  | 0x54 => some (.icinv f)
  | 0x55 => some (.bindinv f)
  | 0x56 => some (.segrev f)
  | 0x57 => some (.unitsave f)
  | 0x58 => some (.unitload f)
  | 0x59 => some (.preempt f)
  | 0x5A => some (.cancel f)
  | 0x5B => if f.f6 / 16 != 0 then none else if f.f6 / 8 = 1 then some (.cntrdSt f) else some (.cntrd f)
  | 0x5C => some (.zerobuf f)
  | 0x5D => gsel5D f
  | 0x5E => some (.quiesce f)
  | 0x5F => some (.admitI f)
  | 0x60 => some (.sluiceset f)
  | 0x61 => some (.mbxbind f)
  | _ => none

/-- The instruction of a first word and the word after it. -/
def decodeWords (w0 w1 : Nat) : Option Instr :=
  if bits w0 31 1 = 1 then groupInstr (bits w0 24 7) (gwOf w0 w1) else laneInstr (bits w0 24 7) (lwOf w0 w1)

/-- A little-endian number (R155: words are little-endian). -/
def leNat : List Byte → Nat
  | [] => 0
  | b :: bs => b.toNat + 256 * leNat bs

/-- The n bytes of a number, little-endian. -/
def leBytes : Nat → Nat → List Byte
  | 0, _ => []
  | n + 1, w => BitVec.ofNat 8 w :: leBytes n (w / 256)

/-- The instruction at the head of a byte list and its length in bytes. -/
def decode (bs : List Byte) : Except DecodeReject (Instr × Nat) :=
  if bs.length < 4 then .error .short else
  let w0 := leNat (bs.take 4)
  let n := 4 * wordCount w0
  if bs.length < n then .error .short else
  match decodeWords w0 (leNat ((bs.drop 4).take 4)) with
  | some i => .ok (i, n)
  | none => .error .unassigned

/-- Where an instruction stands in the opcode maps. -/
inductive Shape where
  | lane (op : Nat) (f : LW)
  | group (op : Nat) (f : GW)
  | event
  deriving DecidableEq, Repr

/-- The set, opcode and fields of each instruction (R164, R169); an event has no word. -/
def shape : Instr → Shape
  | .nop f => .lane 0x00 f
  | .ret f => .lane 0x00 f
  | .exit f => .lane 0x00 f
  | .region f => .lane 0x00 f
  | .ifence f => .lane 0x00 f
  | .bkpt f => .lane 0x00 f
  | .iadd f => .lane 0x01 f
  | .isub f => .lane 0x02 f
  | .imul f => .lane 0x03 f
  | .imulh f => .lane 0x04 f
  | .imad f => .lane 0x05 f
  | .idiv f => .lane 0x06 f
  | .irem f => .lane 0x07 f
  | .imin f => .lane 0x08 f
  | .imax f => .lane 0x09 f
  | .andI f => .lane 0x0A f
  | .orI f => .lane 0x0B f
  | .xor f => .lane 0x0C f
  | .shl f => .lane 0x0D f
  | .shr f => .lane 0x0E f
  | .sar f => .lane 0x0F f
  | .rol f => .lane 0x10 f
  | .bfx f => .lane 0x11 f
  | .bfi f => .lane 0x12 f
  | .sel f => .lane 0x13 f
  | .icmp f => .lane 0x14 f
  | .isat f => .lane 0x15 f
  | .mov f => .lane 0x16 f
  | .movi f => .lane 0x17 f
  | .moviH f => .lane 0x17 f
  | .movs f => .lane 0x18 f
  | .ineg f => .lane 0x19 f
  | .iabs f => .lane 0x19 f
  | .notI f => .lane 0x19 f
  | .popc f => .lane 0x19 f
  | .clz f => .lane 0x19 f
  | .ctz f => .lane 0x19 f
  | .brev f => .lane 0x19 f
  | .fald f => .lane 0x1A f
  | .fast f => .lane 0x1B f
  | .faupd f => .lane 0x1C f
  | .fadwd f => .lane 0x1D f
  | .fasolvF f => .lane 0x1E f
  | .fasolvB f => .lane 0x1E f
  | .fasolvG f => .lane 0x1E f
  | .fasolvLoo f => .lane 0x1E f
  | .fadiag f => .lane 0x1F f
  | .famul f => .lane 0x2F f
  | .famulT f => .lane 0x2F f
  | .fadd f => .lane 0x20 f
  | .fsub f => .lane 0x21 f
  | .fmul f => .lane 0x22 f
  | .ffma f => .lane 0x23 f
  | .fmin f => .lane 0x24 f
  | .fmax f => .lane 0x25 f
  | .fcmp f => .lane 0x26 f
  | .fdiv f => .lane 0x27 f
  | .fscl f => .lane 0x28 f
  | .fabs f => .lane 0x29 f
  | .fneg f => .lane 0x29 f
  | .fsqrt f => .lane 0x29 f
  | .frcp f => .lane 0x29 f
  | .frsq f => .lane 0x29 f
  | .fexp2 f => .lane 0x29 f
  | .flog2 f => .lane 0x29 f
  | .fclass f => .lane 0x29 f
  | .frnd f => .lane 0x29 f
  | .fgete f => .lane 0x29 f
  | .sinT f => .lane 0x29 f
  | .cosT f => .lane 0x29 f
  | .sincosT f => .lane 0x29 f
  | .fredT f => .lane 0x29 f
  | .cvt f => .lane 0x2A f
  | .cvti f => .lane 0x2B f
  | .qpack f => .lane 0x2C f
  | .qunpk f => .lane 0x2D f
  | .had f => .lane 0x2E f
  | .shfl f => .lane 0x30 f
  | .shflUp f => .lane 0x31 f
  | .shflDn f => .lane 0x32 f
  | .shflX f => .lane 0x33 f
  | .swpPair f => .lane 0x34 f
  | .perm f => .lane 0x35 f
  | .bcast f => .lane 0x36 f
  | .redu f => .lane 0x37 f
  | .scan f => .lane 0x38 f
  | .vote f => .lane 0x39 f
  | .voteAny f => .lane 0x39 f
  | .voteAll f => .lane 0x39 f
  | .voteUni f => .lane 0x39 f
  | .mcount f => .lane 0x3A f
  | .mcountPre f => .lane 0x3A f
  | .matchI f => .lane 0x3B f
  | .ld f => .lane 0x40 f
  | .st f => .lane 0x41 f
  | .lds f => .lane 0x42 f
  | .sts f => .lane 0x43 f
  | .ldv f => .lane 0x44 f
  | .stv f => .lane 0x45 f
  | .ldj f => .lane 0x46 f
  | .ldjNb f => .lane 0x47 f
  | .stj f => .lane 0x48 f
  | .pref f => .lane 0x49 f
  | .mka f => .lane 0x4A f
  | .segno f => .lane 0x4B f
  | .segof f => .lane 0x4C f
  | .chka f => .lane 0x4D f
  | .ldl f => .lane 0x4E f
  | .amoAdd f => .lane 0x50 f
  | .amoMin f => .lane 0x51 f
  | .amoMax f => .lane 0x52 f
  | .amoAnd f => .lane 0x53 f
  | .amoOr f => .lane 0x54 f
  | .amoXor f => .lane 0x55 f
  | .amoXchg f => .lane 0x56 f
  | .amoJoin f => .lane 0x57 f
  | .amoc f => .lane 0x58 f
  | .amof f => .lane 0x59 f
  | .fence f => .lane 0x5A f
  | .bar f => .lane 0x5B f
  | .barArrive f => .lane 0x5B f
  | .barWait f => .lane 0x5B f
  | .cbacq f => .lane 0x5C f
  | .cbrel f => .lane 0x5D f
  | .waittl f => .lane 0x5E f
  | .br f => .lane 0x60 f
  | .jmp f => .lane 0x61 f
  | .brx f => .lane 0x62 f
  | .brxCall f => .lane 0x62 f
  | .call f => .lane 0x63 f
  | .trapu f => .lane 0x64 f
  | .spbind f => .lane 0x65 f
  | .sprel f => .lane 0x66 f
  | .mma f => .lane 0x67 f
  | .mmaD f => .lane 0x68 f
  | .mmai f => .lane 0x69 f
  | .tld f => .lane 0x6A f
  | .tst f => .lane 0x6B f
  | .tread f => .lane 0x6C f
  | .twrite f => .lane 0x6D f
  | .optionalOpcode n f => .lane (0x70 + n) f
  | .saddGr f => .group 0x00 f
  | .ssubGr f => .group 0x00 f
  | .smulGr f => .group 0x00 f
  | .sandGr f => .group 0x00 f
  | .sorGr f => .group 0x00 f
  | .sxorGr f => .group 0x00 f
  | .sshlGr f => .group 0x00 f
  | .sshrN64Gr f => .group 0x00 f
  | .sshrI64Gr f => .group 0x00 f
  | .sminI64Gr f => .group 0x00 f
  | .sminN64Gr f => .group 0x00 f
  | .smaxI64Gr f => .group 0x00 f
  | .smaxN64Gr f => .group 0x00 f
  | .smov f => .group 0x00 f
  | .saddGi f => .group 0x01 f
  | .ssubGi f => .group 0x02 f
  | .smulGi f => .group 0x03 f
  | .sandGi f => .group 0x04 f
  | .sorGi f => .group 0x05 f
  | .sxorGi f => .group 0x06 f
  | .sshlGi f => .group 0x07 f
  | .sshrN64Gi f => .group 0x08 f
  | .sshrI64Gi f => .group 0x09 f
  | .sminI64Gi f => .group 0x0A f
  | .sminN64Gi f => .group 0x0B f
  | .smaxI64Gi f => .group 0x0C f
  | .smaxN64Gi f => .group 0x0D f
  | .smoviGi f => .group 0x0E f
  | .scmpGi f => .group 0x0F f
  | .saddGl f => .group 0x41 f
  | .ssubGl f => .group 0x42 f
  | .smulGl f => .group 0x43 f
  | .sandGl f => .group 0x44 f
  | .sorGl f => .group 0x45 f
  | .sxorGl f => .group 0x46 f
  | .sshlGl f => .group 0x47 f
  | .sshrN64Gl f => .group 0x48 f
  | .sshrI64Gl f => .group 0x49 f
  | .sminI64Gl f => .group 0x4A f
  | .sminN64Gl f => .group 0x4B f
  | .smaxI64Gl f => .group 0x4C f
  | .smaxN64Gl f => .group 0x4D f
  | .smoviGl f => .group 0x4E f
  | .scmpGl f => .group 0x4F f
  | .scmpGr f => .group 0x10 f
  | .ssel f => .group 0x11 f
  | .sld f => .group 0x12 f
  | .sst f => .group 0x13 f
  | .sbr f => .group 0x14 f
  | .sjmp f => .group 0x15 f
  | .scall f => .group 0x16 f
  | .sret f => .group 0x17 f
  | .cvsetGi f => .group 0x18 f
  | .cvsetGl f => .group 0x40 f
  | .dqpush f => .group 0x19 f
  | .dqpop f => .group 0x1A f
  | .cpy f => .group 0x1B f
  | .cpy2d f => .group 0x1C f
  | .cpyg f => .group 0x1D f
  | .chain f => .group 0x1E f
  | .coll f => .group 0x1F f
  | .post f => .group 0x20 f
  | .stl f => .group 0x21 f
  | .permit f => .group 0x22 f
  | .permq f => .group 0x23 f
  | .sploop f => .group 0x24 f
  | .spset f => .group 0x25 f
  | .tzero f => .group 0x26 f
  | .tcvt f => .group 0x27 f
  | .ttr f => .group 0x28 f
  | .fainit f => .group 0x29 f
  | .fascl f => .group 0x2A f
  | .ymset f => .group 0x2B f
  | .ymsetFirst f => .group 0x2B f
  | .xmset f => .group 0x2C f
  | .xmsetFirst f => .group 0x2C f
  | .wbld f => .group 0x2D f
  | .wbfree f => .group 0x2E f
  | .sysrd f => .group 0x50 f
  | .syswr f => .group 0x51 f
  | .zsQsched => .event
  | .zsFlipToHost => .event
  | .zsFlipToDevice => .event
  | .zsPartapply => .event
  | .trap f => .group 0x52 f
  | .tlbinv f => .group 0x53 f
  | .icinv f => .group 0x54 f
  | .bindinv f => .group 0x55 f
  | .segrev f => .group 0x56 f
  | .unitsave f => .group 0x57 f
  | .unitload f => .group 0x58 f
  | .preempt f => .group 0x59 f
  | .cancel f => .group 0x5A f
  | .cntrd f => .group 0x5B f
  | .cntrdSt f => .group 0x5B f
  | .zerobuf f => .group 0x5C f
  | .diectlReadState f => .group 0x5D f
  | .diectlWriteBack f => .group 0x5D f
  | .diectlSelfRefreshEntry f => .group 0x5D f
  | .diectlSelfRefreshExit f => .group 0x5D f
  | .diectlResetDieLogic f => .group 0x5D f
  | .diectlRetrainUcie f => .group 0x5D f
  | .quiesce f => .group 0x5E f
  | .admitI f => .group 0x5F f
  | .sluiceset f => .group 0x60 f
  | .mbxbind f => .group 0x61 f
  | .loadValueArrival => .event
  | .registerSpill => .event
  | .registerFill => .event
  | .streamFetch => .event
  | .homeApply => .event
  | .storeCommit => .event
  | .directoryEviction => .event
  | .fenceCompletion => .event
  | .fenceRollback => .event
  | .postedStoreAcknowledgement => .event
  | .peerReply => .event
  | .peerAccess => .event
  | .routeTimeout => .event
  | .ferryRoundStart => .event
  | .ferryChunkReceive => .event
  | .domainRound => .event
  | .replicatedUpdate => .event
  | .engineCommandComplete => .event
  | .engineCommandFault => .event
  | .engineFaultRetry => .event
  | .sluiceGrant => .event
  | .sluicePromotion => .event
  | .matrixOperationComplete => .event
  | .mailboxFiring => .event
  | .recoveryQuantum => .event
  | .bargePlacement => .event
  | .idleUnitSave => .event
  | .effectivePriorityRaise => .event
  | .levellingExchange => .event
  | .stopSave => .event
  | .binderResolution => .event
  | .revokedSegmentService => .event
  | .optionalEmulation => .event
  | .serviceReturn => .event
  | .serviceAbandon => .event
  | .serviceEscalate => .event
  | .inboundPostedWrite => .event
  | .inboundRead => .event
  | .cxlMemRequest => .event
  | .hostSnoop => .event
  | .hostWarmRestart => .event
  | .powerUp => .event
  | .thermalLimit => .event
  | .thermalShutdown => .event
  | .bindingSearchRepeat => .event
  | .bindingAbandon => .event
  | .failedContextClear => .event
  | .ovoftLinkLoss => .event
  | .ovoftLinkReturn => .event
  | .hostLinkReturn => .event
  | .powerDown => .event

/-- The extension word of its fields (R160). -/
def extWord (e : Ext) : Nat :=
  e.form * 2 ^ 29 + e.fs * 2 ^ 26 + e.c * 2 ^ 20 + (if e.bs then 2 ^ 19 else 0) + e.subop * 2 ^ 16 + e.imm

/-- The first word of a lane instruction (R157). -/
def laneWordOf (op : Nat) (f : LW) : Nat :=
  op * 2 ^ 24 + f.d * 2 ^ 18 + f.a * 2 ^ 12 + f.b * 2 ^ 6 + f.g * 2 ^ 3 + (if f.ea then 4 else 0) + (if f.eb then 2 else 0) +
    (if f.ext.isSome then 1 else 0)

/-- The first word of a group instruction (R167). -/
def groupWordOf (op : Nat) (f : GW) : Nat :=
  2 ^ 31 + op * 2 ^ 24 + f.d * 2 ^ 18 + f.a * 2 ^ 12 + f.b * 2 ^ 6 + f.f6

/-- The words of an instruction: the first, and the second where it has one; nothing for an event. -/
def encode (i : Instr) : Option (Nat × Option Nat) :=
  match shape i with
  | .lane op f => some (laneWordOf op f, f.ext.map extWord)
  | .group op f => some (groupWordOf op f, f.w1)
  | .event => none

/-- The bytes of an instruction's words. -/
def encodeBytes (i : Instr) : List Byte :=
  match encode i with
  | some (w0, some w1) => leBytes 4 w0 ++ leBytes 4 w1
  | some (w0, none) => leBytes 4 w0
  | none => []

/-- The instruction this decoder reads from a table row's bits, the bits above `nbits` zero. -/
def decodeTableWord (nbits w : Nat) : Option Instr :=
  match decode (leBytes 8 (w % 2 ^ nbits)) with
  | .ok (i, _) => some i
  | .error _ => none

end Sys2Proof
end

