-- ==== Sys2Proof/Machine/Num.lean ====
section
/-! DEFINITION. Integers as R136 lays them out: widths, sign extension, shifts and bit counts on natural numbers below 2^N. -/

namespace Sys2Proof.Machine

/-- The low n bits. -/
def low (n w : Nat) : Nat := w % 2 ^ n

/-- Bit i of a number. -/
def bitAt (w i : Nat) : Bool := w / 2 ^ i % 2 == 1

/-- An N-bit pattern as a two's complement number (R136). -/
def toInt (n w : Nat) : Int := if w % 2 ^ n < 2 ^ (n - 1) ∨ n = 0 then ((w % 2 ^ n : Nat) : Int) else ((w % 2 ^ n : Nat) : Int) - ((2 ^ n : Nat) : Int)

/-- The N-bit pattern of an integer: reduction modulo 2^N (R136). -/
def ofInt (n : Nat) (x : Int) : Nat := (x % ((2 ^ n : Nat) : Int)).toNat

/-- Sign extension of the low n bits to w bits (R22). -/
def sext (n w x : Nat) : Nat := ofInt w (toInt n x)

/-- The number of 1 bits among the low n. -/
def popc : Nat → Nat → Nat
  | 0, _ => 0
  | n + 1, w => w % 2 + popc n (w / 2)

/-- The number of leading zeros of n bits (R180). -/
def clz (n w : Nat) : Nat := if w % 2 ^ n = 0 then n else n - 1 - Nat.log2 (w % 2 ^ n)

/-- The number of trailing zeros of n bits (R180). -/
def ctz : Nat → Nat → Nat
  | 0, _ => 0
  | n + 1, w => if w % 2 = 1 then 0 else 1 + ctz n (w / 2)

/-- The n bits reversed (R180). -/
def brev : Nat → Nat → Nat
  | 0, _ => 0
  | n + 1, w => w % 2 * 2 ^ n + brev n (w / 2)

/-- An integer type (R136, R162): width and signedness. -/
structure IntTy where
  n : Nat
  sgn : Bool
  deriving DecidableEq, Repr

/-- The integer type codes (R162). -/
def intTy (code : Nat) : IntTy :=
  match code with
  | 0 => ⟨32, true⟩
  | 1 => ⟨32, false⟩
  | 2 => ⟨64, true⟩
  | 3 => ⟨64, false⟩
  | 4 => ⟨16, true⟩
  | 5 => ⟨16, false⟩
  | 6 => ⟨8, true⟩
  | _ => ⟨8, false⟩

/-- The number an operand's N bits stand for (R173). -/
def IntTy.val (t : IntTy) (w : Nat) : Int := if t.sgn then toInt t.n w else ((low t.n w : Nat) : Int)

/-- Wr(x): reduced modulo 2^N, then extended to 32 bits by the type's sign where it is narrower; a 64-bit value stays whole (R136, R174). -/
def IntTy.wr (t : IntTy) (x : Int) : Nat :=
  if t.n < 32 then (if t.sgn then sext t.n 32 (ofInt t.n x) else ofInt t.n x) else ofInt t.n x

/-- The least and the largest value of a type (R136). -/
def IntTy.least (t : IntTy) : Int := if t.sgn then -((2 ^ (t.n - 1) : Nat) : Int) else 0
def IntTy.largest (t : IntTy) : Int := if t.sgn then ((2 ^ (t.n - 1) : Nat) : Int) - 1 else ((2 ^ t.n : Nat) : Int) - 1

/-- Saturation to a type's range (R137). -/
def IntTy.clamp (t : IntTy) (x : Int) : Int := max t.least (min t.largest x)

/-- The shift result of the N bits by sh (R177); kind 0 SHL, 1 SHR, 2 SAR, 3 ROL. -/
def shiftBits (kind n w sh : Nat) : Nat :=
  let a := low n w
  match kind with
  | 0 => low n (a * 2 ^ sh)
  | 1 => a / 2 ^ sh
  | 2 => ofInt n (toInt n a / ((2 ^ sh : Nat) : Int))
  | _ => low n (a * 2 ^ sh) + a / 2 ^ (n - sh)

/-- The integer square root by bits, for roots below 2^fuel. -/
def isqrtAux : Nat → Nat → Nat → Nat
  | 0, _, r => r
  | k + 1, n, r => isqrtAux k n (if (r + 2 ^ k) * (r + 2 ^ k) ≤ n then r + 2 ^ k else r)

/-- The integer square root. -/
def isqrt (n : Nat) : Nat := isqrtAux (Nat.log2 n / 2 + 1) n 0

/-- n consecutive numbers from a start. -/
def upFrom (a n : Nat) : List Nat := (List.range n).map (a + ·)

end Sys2Proof.Machine
end

