-- ==== Sys2Proof/Machine/Float.lean ====
section
/-! DEFINITION. Floating formats, rounding and exact arithmetic (R131 to R137, R145 to R148). Values are exact dyadic numbers until the one rounding; every function answers bits and the flags it sets. -/

namespace Sys2Proof.Machine

/-- A floating format: exponent and fraction widths (R131). -/
structure Fmt where
  eb : Nat
  fb : Nat
  deriving DecidableEq, Repr

def fp32 : Fmt := ⟨8, 23⟩
def fp64 : Fmt := ⟨11, 52⟩
def fp16 : Fmt := ⟨5, 10⟩
def bf16 : Fmt := ⟨8, 7⟩

/-- The float type codes (R162). -/
def fmtOf (code : Nat) : Fmt :=
  match code with
  | 0 => fp32
  | 1 => fp64
  | 2 => fp16
  | _ => bf16

def Fmt.width (f : Fmt) : Nat := 1 + f.eb + f.fb
def Fmt.bias (f : Fmt) : Int := ((2 ^ (f.eb - 1) - 1 : Nat) : Int)
def Fmt.emax (f : Fmt) : Nat := 2 ^ f.eb - 1
/-- The exponent of the least subnormal. -/
def Fmt.quantum (f : Fmt) : Int := 1 - f.bias - (f.fb : Int)
/-- The canonical NaN (R132). -/
def Fmt.nan (f : Fmt) : Nat := f.emax * 2 ^ f.fb + 2 ^ (f.fb - 1)
def Fmt.signBit (f : Fmt) (neg : Bool) : Nat := if neg then 2 ^ (f.eb + f.fb) else 0
def Fmt.inf (f : Fmt) (neg : Bool) : Nat := f.signBit neg + f.emax * 2 ^ f.fb
def Fmt.maxFin (f : Fmt) (neg : Bool) : Nat := f.signBit neg + f.emax * 2 ^ f.fb - 1

/-- The sticky flags (R135). -/
def flInvalid : Nat := 16
def flDivZero : Nat := 8
def flOverflow : Nat := 4
def flUnderflow : Nat := 2
def flInexact : Nat := 1

/-- A floating value: a NaN (signalling or not), an infinity, or (−1)^neg × m × 2^e (R131). -/
inductive FVal where
  | nan (sig : Bool)
  | inf (neg : Bool)
  | fin (neg : Bool) (m : Nat) (e : Int)
  deriving DecidableEq, Repr

/-- The value of a bit pattern (R131, R132). -/
def Fmt.val (f : Fmt) (w : Nat) : FVal :=
  let neg := bitAt w (f.eb + f.fb)
  let e := w / 2 ^ f.fb % 2 ^ f.eb
  let fr := w % 2 ^ f.fb
  if e = f.emax then (if fr = 0 then .inf neg else .nan (fr / 2 ^ (f.fb - 1) == 0))
  else if e = 0 then .fin neg fr f.quantum
  else .fin neg (2 ^ f.fb + fr) (f.quantum + (e : Int) - 1)

/-- The flag of reading a signalling NaN (R132). -/
def FVal.sigFlag : FVal → Nat
  | .nan true => flInvalid
  | _ => 0

def FVal.isNan : FVal → Bool
  | .nan _ => true
  | _ => false

def FVal.finite : FVal → Bool
  | .fin _ _ _ => true
  | _ => false
def FVal.isZero : FVal → Bool
  | .fin _ 0 _ => true
  | _ => false

def FVal.neg : FVal → Bool
  | .nan _ => false
  | .inf n => n
  | .fin n _ _ => n

/-- The negated value. -/
def FVal.negate : FVal → FVal
  | .nan s => .nan s
  | .inf n => .inf (!n)
  | .fin n m e => .fin (!n) m e

/-- m × 2^e (more, by less than one unit, where sticky) as a multiple of 2^q in a rounding mode: the multiple, and whether it differs (R134). -/
def roundAt (mode : Nat) (neg : Bool) (m : Nat) (e : Int) (sticky : Bool) (q : Int) : Nat × Bool :=
  if q ≤ e then
    let n := m * 2 ^ (e - q).toNat
    (if sticky && ((mode == 2 && !neg) || (mode == 3 && neg)) then n + 1 else n, sticky)
  else
    let sh := (q - e).toNat
    let n := m / 2 ^ sh
    let r := m % 2 ^ sh
    let half := 2 ^ (sh - 1)
    let inex := r != 0 || sticky
    let up := match mode with
      | 0 => decide (half < r) || (r == half && (sticky || n % 2 == 1))
      | 1 => false
      | 2 => inex && !neg
      | _ => inex && neg
    (if up then n + 1 else n, inex)

/-- What an overflow delivers (R134). -/
def Fmt.overflow (f : Fmt) (mode : Nat) (sat neg : Bool) : Nat :=
  if sat || mode == 1 || (mode == 2 && neg) || (mode == 3 && !neg) then f.maxFin neg else f.inf neg

/-- Round(x, fmt, mode) of a nonzero exact value m × 2^e, with `sticky` for a value above m by less than one unit: bits and flags (R134, R135). -/
def Fmt.round (f : Fmt) (mode : Nat) (sat neg : Bool) (m : Nat) (e : Int) (sticky : Bool) : Nat × Nat :=
  if m = 0 && !sticky then (f.signBit neg, 0) else
  let (m, e) := if m = 0 then (1, e - 1) else (m, e)
  let qn : Int := (Nat.log2 m : Int) + e - (f.fb : Int)
  let q := max qn f.quantum
  let (n, inex) := roundAt mode neg m e sticky q
  let w := (q - f.quantum).toNat * 2 ^ f.fb + n
  if f.emax * 2 ^ f.fb ≤ w then (f.overflow mode sat neg, flOverflow + flInexact) else
  let n2 := (roundAt mode neg m e sticky qn).1
  let tiny := decide (qn + (f.fb : Int) + (if n2 = 2 ^ (f.fb + 1) then 1 else 0) < 1 - f.bias)
  (f.signBit neg + w, if inex then (if tiny then flUnderflow else 0) + flInexact else 0)

/-- An exact value rounded; zero keeps its sign, a NaN becomes canonical (R132, R133). -/
def Fmt.roundVal (f : Fmt) (mode : Nat) (sat : Bool) : FVal → Nat × Nat
  | .nan _ => (f.nan, 0)
  | .inf n => if sat then (f.maxFin n, flInexact) else (f.inf n, 0)
  | .fin n m e => f.round mode sat n m e false

/-- The exact product and its flags: 0 × ∞ is invalid (R186, R133). -/
def FVal.mul : FVal → FVal → FVal × Nat
  | .nan _, _ => (.nan false, 0)
  | _, .nan _ => (.nan false, 0)
  | .inf n, .inf n' => (.inf (n != n'), 0)
  | .inf n, .fin n' m _ => if m = 0 then (.nan false, flInvalid) else (.inf (n != n'), 0)
  | .fin n m _, .inf n' => if m = 0 then (.nan false, flInvalid) else (.inf (n != n'), 0)
  | .fin n m e, .fin n' m' e' => (.fin (n != n') (m * m') (e + e'), 0)

/-- The least exponent among finite terms. -/
def leastExp : List FVal → Option Int
  | [] => none
  | .fin _ 0 _ :: t => leastExp t
  | .fin _ _ e :: t => match leastExp t with | some e' => some (min e e') | none => some e
  | _ :: t => leastExp t

/-- The sum of finite terms as a multiple of 2^e0. -/
def sumAt (e0 : Int) : List FVal → Int
  | [] => 0
  | .fin n m e :: t => (if n then -((m * 2 ^ (e - e0).toNat : Nat) : Int) else ((m * 2 ^ (e - e0).toNat : Nat) : Int)) + sumAt e0 t
  | _ :: t => sumAt e0 t

/-- The exact sum with IEEE rules for infinities (R133, R145); the mode decides a zero's sign. -/
def sumVals (mode : Nat) (ts : List FVal) : FVal × Nat :=
  if ts.any FVal.isNan then (.nan false, 0) else
  let pos := ts.any (· == .inf false)
  let neg := ts.any (· == .inf true)
  if pos && neg then (.nan false, flInvalid) else if pos then (.inf false, 0) else if neg then (.inf true, 0) else
  let e0 := (leastExp ts).getD 0
  let s := sumAt e0 (ts.filter (fun t => !t.isZero))
  if s = 0 then
    (.fin (if ts.all (fun t => t.isZero && t.neg) && !ts.isEmpty then true else mode == 3) 0 0, 0)
  else (.fin (decide (s < 0)) s.natAbs e0, 0)

/-- Round(sum of the terms), with the flags of the sum and the rounding. -/
def Fmt.sum (f : Fmt) (mode : Nat) (sat : Bool) (ts : List FVal) : Nat × Nat :=
  let (v, fl) := sumVals mode ts
  let (w, fl') := f.roundVal mode sat v
  (w, fl ||| fl')

/-- The flags of reading operands (R132). -/
def sigFlags (vs : List FVal) : Nat := vs.foldl (fun a v => a ||| v.sigFlag) 0

/-- A + B, A − B, A × B, A × B + C (R186). -/
def Fmt.add (f : Fmt) (mode : Nat) (a b : Nat) : Nat × Nat :=
  let r := f.sum mode false [f.val a, f.val b]
  (r.1, r.2 ||| sigFlags [f.val a, f.val b])
def Fmt.sub (f : Fmt) (mode : Nat) (a b : Nat) : Nat × Nat :=
  let r := f.sum mode false [f.val a, (f.val b).negate]
  (r.1, r.2 ||| sigFlags [f.val a, f.val b])
def Fmt.mul (f : Fmt) (mode : Nat) (a b : Nat) : Nat × Nat :=
  let (p, fl) := (f.val a).mul (f.val b)
  let r := f.roundVal mode false p
  (r.1, r.2 ||| fl ||| sigFlags [f.val a, f.val b])
def Fmt.fma (f : Fmt) (mode : Nat) (a b c : Nat) : Nat × Nat :=
  let (p, fl) := (f.val a).mul (f.val b)
  let r := f.sum mode false [p, f.val c]
  (r.1, r.2 ||| fl ||| sigFlags [f.val a, f.val b, f.val c])

/-- The quotient of finite nonzero magnitudes with enough bits and a sticky bit. -/
def quot (fb m m' : Nat) : Nat × Int × Bool :=
  let k := Nat.log2 m' + fb + 4
  (m * 2 ^ k / m', -(k : Int), m * 2 ^ k % m' != 0)

/-- A / B (R186). -/
def Fmt.divVal (f : Fmt) (mode : Nat) (a b : FVal) : Nat × Nat :=
  match a, b with
  | .nan _, _ => (f.nan, 0)
  | _, .nan _ => (f.nan, 0)
  | .inf _, .inf _ => (f.nan, flInvalid)
  | .inf n, .fin n' _ _ => (f.inf (n != n'), 0)
  | .fin n _ _, .inf n' => (f.signBit (n != n'), 0)
  | .fin n m e, .fin n' m' e' =>
    if m' = 0 then (if m = 0 then (f.nan, flInvalid) else (f.inf (n != n'), flDivZero))
    else if m = 0 then (f.signBit (n != n'), 0)
    else
      let (q, k, st) := quot f.fb m m'
      f.round mode false (n != n') q (e - e' + k) st
def Fmt.div (f : Fmt) (mode : Nat) (a b : Nat) : Nat × Nat :=
  let r := f.divVal mode (f.val a) (f.val b)
  (r.1, r.2 ||| sigFlags [f.val a, f.val b])

/-- The root of m × 2^e, m nonzero, with a sticky bit. -/
def rootOf (fb m : Nat) (e : Int) : Nat × Int × Bool :=
  let k := 2 * (fb + 4)
  let odd := e % 2 != 0
  let n := if odd then m * 2 ^ (k + 1) else m * 2 ^ k
  let e' := if odd then e - 1 else e
  (isqrt n, (e' - (k : Int)) / 2, isqrt n * isqrt n != n)

/-- The rounded root of an exact value (R189). -/
def Fmt.sqrtVal (f : Fmt) (mode : Nat) : FVal → Nat × Nat
  | .nan _ => (f.nan, 0)
  | .inf true => (f.nan, flInvalid)
  | .inf false => (f.inf false, 0)
  | .fin n m e =>
    if m = 0 then (f.signBit n, 0) else if n then (f.nan, flInvalid) else
    let (r, e', st) := rootOf f.fb m e
    f.round mode false false r e' st
def Fmt.sqrt (f : Fmt) (mode a : Nat) : Nat × Nat :=
  let r := f.sqrtVal mode (f.val a)
  (r.1, r.2 ||| sigFlags [f.val a])

/-- 1 / A and 1 / √A (R189). -/
def Fmt.rcp (f : Fmt) (mode a : Nat) : Nat × Nat :=
  let r := f.divVal mode (.fin false 1 0) (f.val a)
  (r.1, r.2 ||| sigFlags [f.val a])
def Fmt.rsq (f : Fmt) (mode a : Nat) : Nat × Nat :=
  match f.val a with
  | .nan s => (f.nan, if s then flInvalid else 0)
  | .inf true => (f.nan, flInvalid)
  | .inf false => (0, 0)
  | .fin n m e =>
    if m = 0 then (f.inf n, flDivZero) else if n then (f.nan, flInvalid) else
    let (m', e') := if e % 2 != 0 then (2 * m, e - 1) else (m, e)
    let k := f.fb + 4 + Nat.log2 m'
    let q := 2 ^ (2 * k) / m'
    let r := isqrt q
    f.round mode false false r (-(e' / 2) - (k : Int)) (r * r * m' != 2 ^ (2 * k))

/-- A × 2^B (R186). -/
def Fmt.scl (f : Fmt) (mode a : Nat) (b : Int) : Nat × Nat :=
  match f.val a with
  | .fin n m e => if m = 0 then (f.signBit n, 0) else f.round mode false n m (e + b) false
  | v => let r := f.roundVal mode false v; (r.1, r.2 ||| sigFlags [v])

/-- Exact order of two values that are not NaNs, −0 equal to +0. -/
def FVal.le : FVal → FVal → Bool
  | .nan _, _ => false
  | _, .nan _ => false
  | .inf true, _ => true
  | _, .inf false => true
  | .inf false, _ => false
  | _, .inf true => false
  | .fin n m e, .fin n' m' e' => decide (sumAt (min e e') [.fin n m e] ≤ sumAt (min e e') [.fin n' m' e'])

/-- FMIN and FMAX of one type (R187): bits of the chosen operand. -/
def Fmt.pick (f : Fmt) (mx : Bool) (a b : Nat) : Nat × Nat :=
  let va := f.val a
  let vb := f.val b
  let fl := sigFlags [va, vb]
  if va.isNan && vb.isNan then (f.nan, fl) else if va.isNan then (b, fl) else if vb.isNan then (a, fl) else
  let aLess := if va.isZero && vb.isZero then va.neg && !vb.neg else va.le vb && !(vb.le va)
  (if mx then (if aLess then b else a) else (if aLess then a else if vb.le va && !(va.isZero && vb.isZero && !vb.neg) then b else a), fl)

/-- The comparisons eq 0, ne 1, lt 2, le 3, gt 4, ge 5 (R162, R188) with their flags. -/
def Fmt.cmp (f : Fmt) (code a b : Nat) : Bool × Nat :=
  let va := f.val a
  let vb := f.val b
  if va.isNan || vb.isNan then (code == 1, if 2 ≤ code then flInvalid else sigFlags [va, vb]) else
  let le := va.le vb
  let ge := vb.le va
  (match code with
    | 0 => le && ge
    | 1 => !(le && ge)
    | 2 => !ge
    | 3 => le
    | 4 => !le
    | _ => ge, 0)

/-- FCLASS (R190). -/
def Fmt.classMask (f : Fmt) (a : Nat) : Nat :=
  match f.val a with
  | .nan true => 256
  | .nan false => 512
  | .inf true => 1
  | .inf false => 128
  | .fin n m _ =>
    if m = 0 then (if n then 8 else 16) else if m < 2 ^ f.fb then (if n then 4 else 32) else (if n then 2 else 64)

/-- FGETE (R189) as 32 bits. -/
def Fmt.getExp (f : Fmt) (a : Nat) : Nat :=
  match f.val a with
  | .nan _ => 0x7FFFFFFF
  | .inf _ => 0x7FFFFFFF
  | .fin _ m e => if m = 0 then 0x80000000 else ofInt 32 ((Nat.log2 m : Int) + e)

/-- FRND (R189): an integral value in the mode, the sign of A kept, no inexact. -/
def Fmt.rnd (f : Fmt) (mode a : Nat) : Nat × Nat :=
  match f.val a with
  | .fin n m e => if 0 ≤ e then (a % 2 ^ f.width, 0) else ((f.round mode false n (roundAt mode n m e false 0).1 0 false).1, 0)
  | v => let r := f.roundVal mode false v; (r.1, r.2 ||| sigFlags [v])

/-- float → iN or nN (R137): clamps set invalid, a NaN gives 0. -/
def toIntTy (t : IntTy) (mode : Nat) : FVal → Int × Nat
  | .nan _ => (0, flInvalid)
  | .inf n => (if n then t.least else t.largest, flInvalid)
  | .fin n m e =>
    let (k, inex) := roundAt mode n m e false 0
    let x : Int := if n then -(k : Int) else (k : Int)
    if x < t.least ∨ t.largest < x then (t.clamp x, flInvalid) else (x, if inex then flInexact else 0)

/-- float → float (R137). A conversion to a wider format is exact, so nothing saturates there; one to its own format is no such conversion (R134; log 10). -/
def convFloat (src dst : Fmt) (mode : Nat) (sat : Bool) (w : Nat) : Nat × Nat :=
  let v := src.val w
  let wider := decide (src.eb ≤ dst.eb ∧ src.fb ≤ dst.fb ∧ src.eb + src.fb < dst.eb + dst.fb)
  let r := dst.roundVal mode (sat && !wider) v
  (r.1, r.2 ||| sigFlags [v])

/-- integer → float (R137). -/
def ofIntVal (dst : Fmt) (mode : Nat) (sat : Bool) (x : Int) : Nat × Nat :=
  dst.round mode sat (decide (x < 0)) x.natAbs 0 false

/-- FRED.T (R150) in FP32: x less the nearest integer, ties to even. -/
def fred (a : Nat) : Nat × Nat :=
  match fp32.val a with
  | .nan s => (fp32.nan, if s then flInvalid else 0)
  | .inf _ => (fp32.nan, flInvalid)
  | .fin n m e =>
    if 0 ≤ e then (fp32.signBit n, 0) else
    let k := (roundAt 0 n m e false 0).1
    let d := sumVals 0 [.fin n m e, .fin (!n) k 0]
    match d.1 with
    | .fin s m' e' => if m' = 0 then (fp32.signBit n, 0) else fp32.round 0 false s m' e' false
    | _ => (fp32.nan, 0)

/-- The lattice key of MAX.f32 (R90). -/
def f32Key (w : Nat) : Nat := if 2 ^ 31 ≤ w then 2 ^ 32 - 1 - w else w + 2 ^ 31

/-- A NaN written to a MAX.f32 cell, or used as its threshold, is first canonical (R90). -/
def f32Canon (w : Nat) : Nat := if (fp32.val w).isNan then fp32.nan else w

end Sys2Proof.Machine
end

