-- ==== Sys2Proof/Config.lean ====
section
/-! DEFINITION. What the manual leaves open: free values (constants without a body, so that no proof can use a value) and the functions of outside standards. -/

namespace Sys2Proof.Config

/-- A free 64-bit value drawn at the counter `freeCtr` of State: a value the manual leaves unspecified (log 3). -/
opaque freeWord : Nat → BitVec 64

/-- A free byte: what an overlapping or later-stored byte receives (R43, R119, R275; log 3). -/
opaque freeByte : Nat → BitVec 8

/-- The partition supervisor's reply to TRAP (R280) for a service code and an argument, drawn at the free counter: the reply is supervisor software's (log 7). -/
opaque trapReply : Nat → Nat → BitVec 64 → BitVec 64

/-- SHA-384 of a byte list (R356 names the standard and does not restate it; log 8). -/
opaque sha384 : List (BitVec 8) → BitVec 384

/-- ECDSA P-384 verification: public key, message, signature (R356; log 8). -/
opaque ecdsaP384 : List (BitVec 8) → List (BitVec 8) → List (BitVec 8) → Bool

/-- The correctly rounded result of an elementary function where the bounded interval search of Machine/Elementary.lean has not decided it (log 9); the argument is the fixed-point pair last reached. -/
opaque undecidedRound : Nat → Nat → Nat

end Sys2Proof.Config
end

