-- ==== Sys2Proof/Machine/State.lean ====
section
/-! DEFINITION. The state of the package as plain data, its value at reset, and the reasons a step can stop. -/

namespace Sys2Proof.Machine

/-- Why a step stops the machine. -/
inductive Fault where
  /-- Raised by step while no rail is powered (R355, R357): nothing executes. Safe: the hardware executes nothing either. -/
  | poweredDown
  deriving DecidableEq, Repr

/-- Why a step has no meaning. -/
inductive Refusal where
  /-- Raised only by a dispatch arm whose instruction has no meaning yet. Safe: nothing is claimed of it. -/
  | notModelled (mnemonic : String)
  /-- Raised by the meaning of a word when `cur` names no resident group, which step never lets happen (R30). Safe: the model's own misuse. -/
  | noIssuer
  deriving DecidableEq, Repr

/-- The park causes of R341. -/
inductive Park where
  | thresholdLoad | bindingEntry | convergence | leave | fullEmpty | groupWord | barrier | timeline
  deriving DecidableEq, Repr

/-- A lane's state (R29). A parked lane holds the park's argument (R341) and an auxiliary number: for a full/empty wait the awaited register (64 + n for an s register), else the address at which the lane goes on once the word completes (R288). -/
inductive LaneSt where
  | neverLaunched
  | exited
  | parked (p : Park) (arg aux : Nat)
  | subscribed
  | priv
  deriving DecidableEq, Repr

/-- A pending deferred remote fault (R124): region counter, peer address, the peer's code. -/
structure Deferred where
  ctr : Nat
  addr : Nat
  reason : Nat
  deriving DecidableEq, Repr

/-- An instruction's words as one fetch brought them, by code offset (R33, R39, R156). -/
structure TowWord where
  pc : Nat
  len : Nat
  w0 : Nat
  w1 : Nat
  deriving DecidableEq, Repr

/-- One lane (R29, R45, R48): program counter, resume point (pc, counter, depth), return-stack depth. -/
structure Lane where
  st : LaneSt
  pc : Nat
  rpc : Nat
  rctr : Nat
  rdep : Nat
  dep : Nat
  defer : Option Deferred
  /-- the place in program order of the region entry that made the resume point (R48, R49) -/
  rseq : Nat := 0
  /-- what its loop buffer holds, oldest first: 48 words at most (R33) -/
  loop : List TowWord := []
  deriving DecidableEq, Repr

/-- Atomic operations (R222 to R224). -/
inductive AtomOp where
  | add | min | max | and | or | xor | xchg | join (ltype : Nat) | cas | fadd (fmt : Nat)
  deriving DecidableEq, Repr

/-- What an outstanding producer delivers (R44). -/
inductive ProdKind where
  /-- n bytes, sign-extended or not, acquire scope (0 relaxed) (R213, R214) -/
  | load (n : Nat) (sgn : Bool) (acq : Nat)
  /-- c words to consecutive registers (R215) -/
  | block (c : Nat) (acq : Nat)
  /-- an atomic of n bytes; scope code and release bit (R222 to R225) -/
  | atomic (op : AtomOp) (n : Nat) (sgn : Bool) (scope : Nat) (rel : Bool)
  /-- a value already computed: a tile or factor read (R244) -/
  | value (wide : Bool)
  /-- an element for tile t in float format fmt, its coordinate in the part's operand (R251) -/
  | tile (t fmt : Nat)
  deriving DecidableEq, Repr

/-- One lane's part of a producer: destination, byte keys, bytes forwarded from the store buffer (R107), operand, expected value or known value, the address formed, and the peer device if the access left the package (R123). -/
structure Part where
  lane : Nat
  dest : RegRef
  keys : List Nat
  fwd : List (Option Byte)
  x : DWord
  e : DWord
  addr : Nat
  peer : Option Nat
  /-- the bytes belong to a replicated page (R121) -/
  repl : Bool := false
  /-- the other lanes whose access it is as well (R214, R269) -/
  others : List Nat := []
  /-- the lines whose scope records it meets, with their home dies (R116) -/
  recs : List (Nat × Nat) := []
  deriving DecidableEq, Repr

/-- An outstanding producer of one issue (R44); `pc` is the word after it, for a commit point's completion entry (R48). -/
structure Producer where
  kind : ProdKind
  parts : List Part
  pc : Nat
  commit : Bool
  /-- the word itself -/
  at_ : Nat := 0
  /-- its place in its group's program order; for a commit point its lanes' return-stack depths at its issue (R48) -/
  seq : Nat := 0
  deps : List (Nat × Nat) := []
  /-- the counter of the issue's region entry, once a part of the issue has made it (R48) -/
  ent : Option Nat := none
  deriving DecidableEq, Repr

/-- A lane waiting for a lattice cell (R95): destination, width of the cell, key, type, threshold. -/
structure ThrWait where
  lane : Nat
  dest : Nat
  key : Nat
  ltype : Nat
  thr : DWord
  seg : Nat
  deriving DecidableEq, Repr

/-- A store in a group's store buffer (R107): held past a fence (R113), release scope (0 plain). -/
structure BufStore where
  lane : Nat
  keys : List Nat
  bytes : List Byte
  held : Option Nat
  rel : Nat
  repl : Bool
  code : Bool
  /-- its issue's place in program order and its word (R210) -/
  seq : Nat := 0
  at_ : Nat := 0
  /-- the address formed -/
  addr : Nat := 0
  /-- the other lanes whose access it is as well (R214) -/
  others : List Nat := []
  /-- the lines whose scope records it meets, with their home dies (R116) -/
  recs : List (Nat × Nat) := []
  /-- the index of the die-TLB entry that translated it (R125, R316) -/
  tix : Option Nat := none
  deriving DecidableEq, Repr

/-- A store applied at its home and not committed (R107); `seqd` for an update of a replicated segment (R121). -/
structure PendStore where
  uid : Nat
  grp : Nat
  die : Nat
  keys : List Nat
  bytes : List Byte
  rel : Nat
  lane : Nat
  repl : Bool
  seqd : Option Nat
  port : Option Nat
  /-- the cores whose L1 has not acknowledged the update (R107, R318) -/
  unacked : List Nat := []
  /-- its lines with their home dies -/
  recs : List (Nat × Nat) := []
  /-- the host port that a CXL.mem write answers once committed (R347) -/
  cxl : Option Nat := none
  deriving DecidableEq, Repr

/-- A posted remote store not yet acknowledged (R122). -/
structure Posted where
  uid : Nat
  grp : Nat
  lane : Nat
  dev : Nat
  addr : Nat
  pa : Nat
  ctr : Nat
  bytes : List Byte
  others : List Nat := []
  /-- its place in its group's program order -/
  seq : Nat := 0
  /-- a host port's write, which the ordering point sent on (R349) -/
  port : Option Nat := none
  deriving DecidableEq, Repr

/-- A lane's registers as a fence's rollback restores them (R114). -/
structure FenceSnap where
  lane : Nat
  dep : Nat
  v : SMap Word
  m : List Nat
  deriving DecidableEq, Repr

/-- An incomplete fence of one issue (R113): its lanes, scope, the word, the lines read past it. -/
structure Fence where
  lanes : List Nat
  scope : Nat
  pc : Nat
  len : Nat
  snaps : List FenceSnap
  /-- lines read past it, by lane -/
  lines : List (Nat × Nat)
  /-- the counter of the fence's region entry (R115) -/
  ctr : Nat
  /-- lanes whose line an update has reached: they roll back (R114) -/
  hit : List Nat
  /-- its place in program order (R48) -/
  seq : Nat := 0
  deriving DecidableEq, Repr

/-- One fetched stream element: its value, or the fault its read met (R240). -/
structure Elem where
  val : Word
  code : Nat
  addr : Nat
  /-- the peer's reason, with code 0x0D (R123) -/
  reason : Nat := 0
  deriving DecidableEq, Repr

/-- A stream binding (R41, R42, R240): the register, the eight words of the pattern, position, positions recorded at region entries, fetched entries. -/
structure Binding where
  reg : Nat
  pat : List DWord
  pos : Nat
  hist : List (Nat × Nat)
  basin : List (List Elem)
  /-- the `spAt` and the `spSeq` of its sp register (R43) -/
  since : Nat
  seq : Nat := 0
  deriving DecidableEq, Repr

/-- An outstanding circular-buffer acquire (R229): header address, key of word 0, destination, side, lanes. -/
structure CbWait where
  addr : Nat
  key : Nat
  dest : Nat
  consumer : Bool
  lanes : List Nat
  /-- its place in program order -/
  seq : Nat := 0
  deriving DecidableEq, Repr

/-- A read that a word makes of a peer segment within its own step (R123): the word, what it reads, and the peer's answer once it has come. -/
structure PeerRead where
  pc : Nat
  dev : Nat
  keys : List Nat
  ans : Option PeerPart
  deriving DecidableEq, Repr

/-- A word whose issue is blocked for some of its lanes (R44): they wait, parked, each for the register its park names, and the word completes for each once that register can be read (R288); `held` are the entries the issue has popped (R42). -/
structure Blocked where
  lanes : List Nat
  pc : Nat
  w0 : Nat
  w1 : Nat
  held : List (Nat × List Elem)
  /-- of a cross-lane word, which waits as a whole: the registers it waits for, as (lane, register) (R44, R197) -/
  whole : List (Nat × Nat) := []
  deriving DecidableEq, Repr

/-- The group condition state (R267). -/
structure Cond where
  eq : Bool
  lt : Bool
  ltn : Bool
  emp : Bool
  deriving DecidableEq, Repr

/-- One group (R24, R340). -/
structure Group where
  bcast : Nat
  lanes : List Lane
  /-- v registers, key 64 × lane + n (R27) -/
  v : SMap Word
  /-- the same as the issue cycle began (R197) -/
  vOld : SMap Word
  /-- v registers marked empty (R44) -/
  ve : SMap Bool
  s : SMap DWord
  se : SMap Bool
  /-- m1 to m7 by number (R6) -/
  m : SMap DWord
  regc : Nat
  sticky : Nat
  cond : Cond
  dq : List DWord
  /-- sp0 to sp7, eight words each, key 8 × n + word (R238) -/
  sp : SMap DWord
  binds : List Binding
  acqs : List CbWait
  /-- entries of the lanes' hardware return stacks, at most 16 a lane, key 1024 × lane + depth (R45); the others stand in segment 0x03 -/
  stack : AMap DWord
  inflight : List Producer
  thr : List ThrWait
  sbuf : List BufStore
  fences : List Fence
  permit : Option (Nat × Nat)
  /-- a PERMIT waiting for leave: destination (64 for none: asked for again after a restore), amount, priority (R279, R342) -/
  permitWait : Option (Nat × Nat × Nat)
  /-- the decoded lane words of the towline, next first (R39); its other entries are those of `dq`, and a uniform decision is consumed in the step that makes it -/
  tow : List TowWord := []
  /-- the code offsets that the core's instruction buffer holds for the group (R32) -/
  ibuf : List Nat := []
  /-- words that wait for a register of some of their lanes (R44) -/
  blocked : List Blocked := []
  /-- lines of segment 0x03 that no page backs, as (lane, line) (R344) -/
  holes : List (Nat × Nat) := []
  /-- region entries and commit points issued so far (R48, R49) -/
  seq : Nat := 0
  /-- the last broadcast issue: its word, its place in program order, its lanes that have not faulted in it (R285) -/
  lastPc : Nat := 0
  lastSeq : Nat := 0
  lastLanes : List Nat := []
  /-- registers spilled to segment 0x03, keyed as v, s from 4096 on (R27, R76) -/
  spilled : SMap Bool
  /-- backing bits (R344) -/
  backing : SMap Bool
  /-- keys the group has stored to while a pattern, a binding or an engine command of it stands (R43, R119) -/
  wrote : List Nat
  /-- how many of them had been stored when each sp register was loaded (R43) -/
  spAt : SMap Nat
  /-- the place in program order of each sp register's SPSET or SPLOOP (R43) -/
  spSeq : SMap Nat := []
  /-- the reads of a peer's memory of words that wait for its bytes (R123) -/
  peerRead : List PeerRead := []
  /-- cycle of the last issue; consecutive cycles of its position in which it was ready and not chosen; raised effective priority (R301) -/
  lastIssue : Nat
  passed : Nat := 0
  raised : Bool
  deriving DecidableEq, Repr

/-- A fault met by a lane, before the stop completes the record (R329). -/
structure FaultRec where
  grp : Nat
  lane : Nat
  code : Nat
  ss : Bool
  rmt : Bool
  reason : Nat
  pc : Nat
  regc : Nat
  addr : Nat
  deriving DecidableEq, Repr

/-- A convergence register (R46): the declared set, the first signature's address, the signed (group, lane) pairs. -/
structure ConvReg where
  mask : Nat
  pc : Nat
  /-- the matrix word's two words -/
  w0 : Nat
  w1 : Nat
  sigs : List (Nat × Nat)
  deriving DecidableEq, Repr

/-- A barrier (R228): phase number, arrived (group, lane) pairs. -/
structure Barrier where
  phase : Nat
  arrived : List (Nat × Nat)
  deriving DecidableEq, Repr

/-- A factor accumulator (R260): order 0 is empty; l by key 64 × i + j, in FP32 or FP64 bits. -/
structure FactorAcc where
  n : Nat
  f64 : Bool
  l : SMap DWord
  deriving DecidableEq, Repr

/-- A weight-buffer panel (R257, R259). -/
structure Panel where
  loaded : Bool
  mode : Nat
  desc : DWord
  bytes : SMap Byte
  deriving DecidableEq, Repr

/-- An operation in the queue of its registers (R244): a matrix word with the masks read at the last signature, a heavy factor word, or (`light`) the place of another word of a tile, an accumulator or a panel that has issued behind them and is performed in its turn; its lanes. -/
structure HeavyOp where
  id : Nat
  instr : Instr
  pc : Nat
  row : DWord
  col : DWord
  k : DWord
  grp : Nat
  lanes : List (Nat × Nat)
  cv : Nat
  begun : Bool
  /-- begun under the group's held permit (R279) -/
  perm : Bool
  /-- the vectors a factor word read at its issue (R260) -/
  xs : List DWord
  ys : List DWord
  /-- the set declared when its members signed (R46, R135) -/
  mask : Nat := 0
  /-- leave has been granted (R304) -/
  leave : Bool := false
  light : Bool := false
  deriving DecidableEq, Repr

/-- Where a unit is. -/
inductive Residence where
  /-- pending in its mailbox or queued as a barge that has not started (R298) -/
  | waiting
  | resident
  /-- its image stands at a physical address, kind 1 or 2 (R339) -/
  | saved (addr kind : Nat)
  /-- stopped with no free save slot (R332) -/
  | stopped
  | done
  deriving DecidableEq, Repr

/-- One unit (R24) with the state that belongs to it (R242). -/
structure WorkUnit where
  /-- the model's own key of the unit and its storage -/
  uid : Nat
  mbx : Nat
  seq : Nat
  idx : Nat
  /-- the sixteen words of its launch record (R291) -/
  record : List DWord
  msgLen : Nat
  res : Residence
  core : Nat
  /-- a saved unit's barge is runnable (R299) -/
  runnable : Bool
  groups : List Group
  cvs : List ConvReg
  bars : List Barrier
  /-- tiles, key 4096 × tile + word (R243) -/
  tiles : SMap Word
  fas : List FactorAcc
  ym : List DWord
  xm : List DWord
  panels : List Panel
  ops : List HeavyOp
  nextOp : Nat
  /-- faults of a stop (R284), and the cycle in which the unit stopped -/
  stop : List FaultRec
  stopAt : Option Nat
  status : Nat
  /-- the unit whose UNITSAVE has stopped this one and saves it (R343) -/
  saver : Option Nat := none
  /-- the tug thread of each group while the unit is resident (R28, R343) -/
  threads : List Nat
  /-- the slot and the position of each group while the unit is resident (R26, R28) -/
  places : List (Nat × Nat) := []
  deriving DecidableEq, Repr

/-- Who waits for leave of a sluice (R304). -/
inductive Waiter where
  | heavy (uid op : Nat)
  | command (e : EngId) (num : Nat)
  | permit (uid grp : Nat)
  deriving DecidableEq, Repr

/-- A queued request: its demand, the cycle of its asking (R279, R304). -/
structure SluiceReq where
  who : Waiter
  demand : Nat
  at_ : Nat := 0
  deriving DecidableEq, Repr

/-- An instruction as one fetch brought it into an instruction cache (R127, R156): its words, the second's key. -/
structure CodeWords where
  w0 : Word
  key1 : Nat
  w1 : Word
  deriving DecidableEq, Repr

/-- One compute die: present units (R326), reset step (R360; 7 while a QUIESCE at step 0 waits for traffic to drain), sluice (R304 to R306), its counter (R4) and its second-level instruction cache (R127). -/
structure Die where
  present : Bool
  cores : Nat
  slices : Nat
  chan : Nat
  hbm : Nat
  step : Nat
  budget : Nat
  savedBudget : Nat
  held : Nat
  queues : List (List SluiceReq)
  granted : List SluiceReq
  icache : AMap CodeWords
  deriving DecidableEq, Repr

/-- A queued barge (R298). -/
structure Barge where
  uid : Nat
  prio : Nat
  pin : Bool
  deriving DecidableEq, Repr

/-- One core's queue, its neighbours' last reported depths (R302), the launch its vault last served (R87). -/
structure Core where
  queue : List Barge
  reported : List (Nat × Nat)
  vaultLaunch : Option (Nat × Nat)
  deriving DecidableEq, Repr

/-- A numbered engine command (R118, R273): its word, the values of its operands, its unit and group, progress in elements (R274). -/
structure Command where
  num : Nat
  instr : Instr
  a : DWord
  b : DWord
  e : DWord
  f : DWord
  /-- the chain's pattern, or nothing -/
  pat : List DWord
  uid : Nat
  grp : Nat
  /-- units of sluice leave still needed before it begins; 0 none -/
  demand : Nat
  prog : Nat
  /-- met a fault and waits for service (R361): code, address, suppressed -/
  stuck : Option (Nat × Nat × Bool)
  done : Bool
  code : Bool
  /-- the cycle of its convergence point, which orders commands of different contexts (R126) -/
  at_ : Nat
  /-- begun under the group's held permit (R279) -/
  perm : Bool
  /-- how many stores of its group `wrote` held when it was numbered (R119) -/
  since : Nat
  /-- offsets of the circular-buffer slots it holds as destination and as source (R83) -/
  slotD : Nat
  slotS : Nat
  /-- flags gathered so far (R273) -/
  fl : Nat
  /-- a collective member's source or a chain's descriptor, once it has been read (R276, R278) -/
  data : Option (List Byte)
  /-- its writes on their way to a peer, not acknowledged: device, address, element (R118, R274) -/
  sent : List (Nat × Nat × Nat) := []
  deriving DecidableEq, Repr

/-- An engine context (R118, R274). -/
structure Engine where
  tl : Nat
  issued : Nat
  cmds : List Command
  /-- failed state: command number, code, address, suppressed -/
  failed : Option (Nat × Nat × Nat × Bool)
  deriving DecidableEq, Repr

/-- A mailbox's hidden part (R292 to R295); its table entry stands in memory. -/
structure Mailbox where
  record : List DWord
  /-- held firings: slot of the message area and length -/
  held : List (Nat × Nat)
  next : Nat
  seq : Nat
  /-- units that wait for room in the home core's queue (R298) -/
  pending : List Nat
  /-- firings held while the home die is reset (R358) -/
  parked : List (List Byte)
  deriving DecidableEq, Repr

/-- A launch (R24, R295, R297). -/
structure Launch where
  mbx : Nat
  seq : Nat
  record : List DWord
  left : Nat
  status : Nat
  complete : Bool
  /-- cores vacated by PREEMPT, which place no barge of it again (R307) -/
  vacated : List Nat
  /-- barges sent to its remaining cores since its last PREEMPT (R307, R345) -/
  turn : Nat := 0
  deriving DecidableEq, Repr

/-- A scope record (R116): scope code and instance number. -/
structure ScopeRec where
  scope : Nat
  inst : Nat
  deriving DecidableEq, Repr

/-- A line's directory entry at its home slice, or at the IOD for host memory (R116, R318, R320): the home die, 4 for the IOD; the cores of the home die whose L1 holds it; the other dies whose L2 holds it, each with the record that L2 keeps of its own cores; the scope record. -/
structure DirEntry where
  home : Nat
  l1 : List Nat
  l2 : List (Nat × List Nat)
  scope : Option ScopeRec
  deriving DecidableEq, Repr

/-- A TLB entry of a die, or of one of its cores (R316): context, segment, page base and size, the leaf's frame and ro. -/
structure TlbEntry where
  die : Nat
  ctx : Nat
  seg : Nat
  base : Nat
  size : Nat
  frame : Nat
  ro : Bool
  /-- the page-table root that it was found from (R60) -/
  root : Nat := 0
  core : Option Nat := none
  /-- a die entry's index, which the stores that it translated carry (R125, R316) -/
  idx : Nat := 0
  deriving DecidableEq, Repr

/-- One die's part in a lattice segment's exchange (R97, R99, R102): next round; a round in progress with what it still has to send, have applied and receive; the rounds in which a die came back and a catch-up began; the replica's chunks as each begun round found them, newest first. -/
structure FerryDie where
  round : Nat
  busy : Bool
  sent : Bool
  unacked : Nat
  awaits : List Nat
  catchup : List Nat
  snaps : List (List (List Byte))
  deriving DecidableEq, Repr

/-- A lattice segment's exchange (R97, R101): the dies' parts, the domain round with its catch-up and chunks, and how many package rounds numbered with a multiple of L its domain rounds have followed. -/
structure Ferry where
  ctx : Nat
  seg : Nat
  dies : List FerryDie
  domRound : Nat
  domCatchup : Nat
  domSnaps : List (List (List Byte))
  domDone : Nat := 0
  deriving DecidableEq, Repr

/-- A chunk in transit (R97): segment, sender, receiver, round, chunk number, bytes; `last` closes the sender's round. -/
structure Chunk where
  ctx : Nat
  seg : Nat
  src : Nat
  dst : Nat
  round : Nat
  num : Nat
  bytes : List Byte
  last : Bool
  deriving DecidableEq, Repr

/-- A .segment that an image exports in its image space (R282): context, the segment number of the image's linkage copy, its load number, the position of the directive, its name, the four words of the descriptor to instantiate. -/
structure ImgExport where
  ctx : Nat
  lseg : Nat
  load : Nat
  place : Nat
  name : List Byte
  desc : List DWord
  deriving DecidableEq, Repr

/-- A member of a collective that stands on another device of the domain (R278): context, key, rank, count, operation, sE, and its source. -/
structure CollPeer where
  ctx : Nat
  key : Nat
  rank : Nat
  m : Nat
  op : Nat
  len : Nat
  data : List Byte
  deriving DecidableEq, Repr

/-- A linkage entry as its home slice finds it (R61, R66): the key of its word 0, in the lowest present die's replica of a replicated copy; whether the copy is replicated; its offset in the linkage section and its home die (R75); its line with the home of the line's directory entry. -/
structure LinkEntry where
  key : Nat
  repl : Bool
  off : Nat
  die : Nat
  line : Nat × Nat
  deriving DecidableEq, Repr

/-- A binding in progress (R66 to R68): the context, the linkage entry, the binder's group, escalation, the rules already reported for it (R63). -/
structure Binder where
  ctx : Nat
  entry : LinkEntry
  uid : Nat
  grp : Nat
  escalated : Bool
  said : List (Nat × Nat)
  deriving DecidableEq, Repr

/-- A save slot in use (R332): partition, address, unit, the first code of the stop and the record count. -/
structure Slot where
  part : Nat
  addr : Nat
  uid : Nat
  first : Nat
  nrec : Nat
  deriving DecidableEq, Repr

/-- What leaves the package or reaches the management core. -/
inductive Output where
  /-- read data returned to a host port (R349) -/
  | hostData (port : Nat) (data : List Byte)
  /-- a failing inbound read, completed with Completer Abort (R346) -/
  | hostError (port : Nat)
  /-- a posted write logged as an Advisory Non-Fatal error with its header: function, offset, length, Relaxed Ordering (R294, R346) -/
  | hostLog (port fn off len : Nat) (relaxed : Bool)
  /-- a collective member's source, for the members on other devices (R278) -/
  | collMember (ctx key rank : Nat) (data : List Byte)
  /-- a reply or acknowledgement to a peer (R353): its code, 0 for success -/
  | peerReply (dev code : Nat) (data : List Byte)
  /-- a packet of a posted store, load or atomic sent to a peer: the Ovoft Link port, address and length (R351, R353) -/
  | peerRequest (dev port pa len : Nat)
  /-- the answer of a function to a configuration request on a port (R356) -/
  | hostConfig (port fn : Nat) (data : List Byte)
  /-- the completion of a CXL.mem write (R347) -/
  | cxlDone (port : Nat)
  /-- a ferry chunk sent to the devices of an exchange set (R101) -/
  | domainChunk (ctx seg : Nat) (data : List Byte)
  /-- a report to a partition supervisor or the management core: the rule's number and an argument -/
  | report (rule arg : Nat)
  /-- a service message to the harbourmaster of a slice, die × 16 + slice (R332, R361) -/
  | service (slice : Nat) (msg : List Byte)
  /-- a message kept for an unbound supervisor mailbox (R332) -/
  | kept (part : Nat) (msg : List Byte)
  deriving DecidableEq, Repr

/-- Power (R355 to R357). -/
inductive Power where
  | off
  /-- bring-up stopped at an image's test: kind and row (R356) -/
  | recovery (kind row : Nat)
  | up
  deriving DecidableEq, Repr

/-- A write held at the package ordering point (R349); a forwarded one is a pending store of its port. -/
structure PopWrite where
  num : Nat
  w : InWrite
  deriving DecidableEq, Repr

/-- Who issues (R30): the broadcast, one slice privately, or the group word at convergence. -/
inductive Issuer where
  | broadcast
  | slice (n : Nat)
  | group
  deriving DecidableEq, Repr

/-- The issue that `exec` acts for: group, issuer, active lanes in ascending order (m0, R30), address, length in bytes and words of the instruction. -/
structure Issue where
  uid : Nat
  grp : Nat
  by_ : Issuer
  act : List Nat
  pc : Nat
  len : Nat
  w0 : Nat
  w1 : Nat
  /-- the issue goes on with a blocked word (R288); stream entries it has popped (R42); what it waits for as a whole (R197) -/
  again : Bool := false
  held : List (Nat × List Elem) := []
  whole : List (Nat × Nat) := []
  deriving DecidableEq, Repr

/-- What a position has issued in the cycle in progress (R28, R31): its place, the group, the issuer, the slices that took part. -/
structure Issued where
  core : Nat
  place : Nat × Nat
  uid : Nat
  grp : Nat
  by_ : Issuer
  slices : List Nat
  deriving DecidableEq, Repr

/-- What moves next: an event; an issue of a group's broadcast or of private lanes of a slice, `same` placing it in the cycle of the issue before it (R284); the tug fetching one lane word ahead (R39); the prefetcher filling a private lane's loop buffer (R33); a word leaving the core's instruction buffer (R32); a line of segment 0x03 losing or gaining the page behind it (R344); cycles in which nothing issues (R299); a loader that has installed an image's segments (R282); a collective's member on another device (R278); a translation leaving a TLB (R316); a core's L1, or a die's L2, evicting a line, and a core acknowledging a pending update (R318); fuses being blown, and a configuration request (R356). -/
inductive Move where
  | event (e : Instr) (arg : EvArg)
  | issue (uid grp : Nat) (lane : Option Nat) (same : Bool)
  | ahead (uid grp : Nat)
  | fill (uid grp lane : Nat)
  | drop (uid grp off : Nat)
  | backing (uid grp lane line : Nat) (present : Bool)
  | cycles (n : Nat)
  | image (xs : List ImgExport)
  | collective (p : CollPeer)
  | forget (i : Nat)
  | evict (line die : Nat) (core : Option Nat)
  | ack (j core : Nat)
  | fuse (slot : Nat) (digest : BitVec 384) (revoked : Bool) (versions : List DWord)
  | config (port fn reg : Nat)
  deriving DecidableEq, Repr

/-- The package. -/
structure State where
  /-- the model's own: what moves next, oldest first (log 2) -/
  agenda : List Move
  /-- the model's own: the issue in progress (log 2) -/
  cur : Option Issue
  /-- the model's own: the operands of the event in progress (log 2) -/
  arg : EvArg
  /-- the model's own: issue cycles counted (log 2) -/
  cycle : Nat
  /-- what has issued in the cycle in progress (R28, R31) -/
  issued : List Issued
  /-- the model's own: where free values are drawn (log 3) -/
  freeCtr : Nat
  power : Power
  /-- BAR0 word 0 (R356) -/
  bar0 : DWord
  /-- fused minimum versions of the three image kinds; key slots: SHA-384 and revocation bit (R356) -/
  fuseVersions : List DWord
  fuseKeys : List (BitVec 384 × Bool)
  mbxtab : DWord
  lvltab : DWord
  qsched : DWord
  qlist : DWord
  jobexp : DWord
  partexp : DWord
  ctxsel : DWord
  /-- registers 0x010 to 0x013 by context (R310) -/
  segbase : SMap DWord
  bindtab : SMap DWord
  namerules : SMap DWord
  ctxpart : SMap DWord
  parttab : DWord
  /-- value of the last completed SYSWR (R321) -/
  flip : DWord
  capiod : DWord
  /-- registers 0x140 to 0x142 by partition (R331) -/
  svctab : SMap DWord
  svcmbx : SMap DWord
  savepool : SMap DWord
  hostexp : DWord
  domexp : DWord
  domid : DWord
  dxtab : DWord
  routetab : DWord
  inwin : SMap DWord
  dies : List Die
  /-- memory: keys as Machine/Ops.lean lays them out (R311, R84, R55) -/
  mem : SMap Byte
  /-- directory entries by line number (key div 128) (R318) -/
  dir : AMap DirEntry
  pend : List PendStore
  nextSeq : Nat
  tlb : List TlbEntry
  /-- applied ownership, indexed as the partition table (R322); default unassigned -/
  own : SMap Byte
  /-- host-owned 64 KiB frames (R320); lines the host caches, key 2^45 × port + line; host-memory lines the device caches are those that `dir` has with home 4 -/
  bias : SMap Bool
  hostLines : SMap Bool
  cores : SMap Core
  engines : SMap Engine
  mailboxes : SMap Mailbox
  launches : List Launch
  units : AMap WorkUnit
  nextUid : Nat
  /-- queues held by the 64 recovery slots, as list positions (R300) -/
  qslots : List (Option Nat)
  binders : List Binder
  /-- exports of the images that contexts have loaded (R282) -/
  imgExports : List ImgExport
  /-- 0x0F stops: unit, group, segment, count (R70) -/
  revokedStops : List (Nat × Nat × Nat × Nat)
  /-- members of collectives that stand on other devices (R278) -/
  collPeers : List CollPeer
  /-- partitions that the management core has halted (R334) -/
  halted : List Nat
  ferries : List Ferry
  chunks : List Chunk
  posted : List Posted
  /-- devices that cannot be reached (R102) -/
  absentDevs : List Nat
  pop : List (List PopWrite)
  popNext : List Nat
  portUp : List Bool
  /-- host-kind descriptors that a warm restart of a port has cut off and nothing has rewritten since, as 2^52 × port + the descriptor's address (R354, log 63) -/
  detached : List Nat
  slots : List Slot
  out : List Output
  deriving DecidableEq, Repr

/-- A die before its self-test: nothing is reported present; the budget is that of R305. -/
def Die.init : Die :=
  { present := false, cores := 0, slices := 0, chan := 0, hbm := 0, step := 0, budget := 5200, savedBudget := 5200,
    held := 0, queues := [[], [], [], []], granted := [], icache := [] }

/-- An idle core. -/
def Core.init : Core := { queue := [], reported := [], vaultLaunch := none }

/-- An engine context at its start (R118). -/
def Engine.init : Engine := { tl := 0, issued := 0, cmds := [], failed := none }

/-- A mailbox that was never bound. -/
def Mailbox.init : Mailbox := { record := [], held := [], next := 0, seq := 0, pending := [], parked := [] }

/-- The package before power-up (R357). Values the spec does not give are those of log 4. -/
def State.reset : State :=
  { agenda := [], cur := none, arg := EvArg.none, cycle := 0, issued := [], freeCtr := 0, power := .off, bar0 := 0,
    fuseVersions := [0, 0, 0], fuseKeys := List.replicate 4 (0, false),
    mbxtab := 0, lvltab := 0, qsched := 0x800, qlist := 0, jobexp := 0, partexp := 0, ctxsel := 0,
    segbase := [], bindtab := [], namerules := [], ctxpart := [], parttab := 0, flip := 0, capiod := 0,
    svctab := [], svcmbx := [], savepool := [], hostexp := 0, domexp := 0, domid := 0, dxtab := 0, routetab := 0,
    inwin := [], dies := [Die.init, Die.init, Die.init, Die.init],
    mem := [], dir := [], pend := [], nextSeq := 0, tlb := [], own := [], bias := [], hostLines := [],
    cores := [], engines := [], mailboxes := [], launches := [], units := [], nextUid := 0,
    qslots := List.replicate 64 none, binders := [], imgExports := [], revokedStops := [], collPeers := [], halted := [], ferries := [], chunks := [], posted := [],
    absentDevs := [], pop := [[], []], popNext := [0, 0], portUp := [true, true], detached := [], slots := [], out := [] }

end Sys2Proof.Machine
end

