-- ==== Sys2Proof/Machine/Mem.lean ====
section
/-! DEFINITION. Memory as one canonical list of bytes: what an unlisted byte reads as, where each kind of storage stands in it, little-endian access, and the physical regions of R311. -/

namespace Sys2Proof.Machine

/-- What an address that lists nothing reads as: HBM is zeroed at bring-up (R357), scratch, thread-local storage and vaults before an owner reads them (R55, R87, R325); second tier and host memory by log 5. -/
def Memory.blank : Byte := 0

/-- The canonical form of memory. -/
def Memory.wf (m : SMap Byte) : Bool := SMap.wf Memory.blank m

/-- One byte. -/
def Memory.read (m : SMap Byte) (k : Nat) : Byte := SMap.get Memory.blank m k

/-- One byte written. -/
def Memory.write (m : SMap Byte) (k : Nat) (b : Byte) : SMap Byte := SMap.put Memory.blank m k b

/-- Bytes written in order at their keys. -/
def Memory.writeAll (m : SMap Byte) : List Nat → List Byte → SMap Byte
  | k :: ks, b :: bs => Memory.writeAll (Memory.write m k b) ks bs
  | _, _ => m

/-- Every byte with a key in [a, a + n) blank again. -/
def Memory.clear (m : SMap Byte) (a n : Nat) : SMap Byte := m.filter (fun p => !(decide (a ≤ p.1) && decide (p.1 < a + n)))

/-- The n bytes from a copied to b. -/
def Memory.copyRun (m : SMap Byte) (a b n : Nat) : SMap Byte :=
  (m.filter (fun p => decide (a ≤ p.1 ∧ p.1 < a + n))).foldl (fun (x : SMap Byte) p => Memory.write x (p.1 - a + b) p.2) (Memory.clear m b n)

/-- The little-endian number in n bytes from key k. -/
def State.rd (s : State) (k n : Nat) : Nat := leNat ((upFrom k n).map (Memory.read s.mem))

/-- The host's copies of the lines of [a, a + n) are invalidated (R320). -/
def unhost (m : SMap Bool) (a n : Nat) : SMap Bool := m.filter (fun p => !(decide (a / 128 ≤ p.1 % 2 ^ 45 ∧ p.1 % 2 ^ 45 < (a + n + 127) / 128)))

/-- n bytes of a number written from key k. -/
def State.wr (s : State) (k n v : Nat) : State := { s with mem := Memory.writeAll s.mem (upFrom k n) (leBytes n v), hostLines := unhost s.hostLines k n }

/-- A 64-bit word of a physical structure. -/
def State.rd8 (s : State) (k : Nat) : Nat := s.rd k 8
def State.wr8 (s : State) (k v : Nat) : State := s.wr k 8 v

/-- Vault v of the package, 4 MiB each (R84). -/
def vaultKey (v off : Nat) : Nat := 2 ^ 52 + v * 2 ^ 22 + off

/-- The storage of one unit: scratch (R55), its launch record and message (R291), each lane's part of segment 0x03 (R55). -/
def unitKey (uid : Nat) : Nat := 2 ^ 56 + uid * 2 ^ 48
def scratchKey (uid off : Nat) : Nat := unitKey uid + off
def recordKey (uid off : Nat) : Nat := unitKey uid + 2 ^ 46 + off
def localKey (uid g l off : Nat) : Nat := unitKey uid + 2 ^ 47 + (g * 64 + l) * 2 ^ 21 + off

/-- The lines of an access. -/
def linesOf (keys : List Nat) : List Nat := (keys.map (· / 128)).eraseDups

/-- Bits of a 64-bit register as a number. -/
def field (w : DWord) (lo n : Nat) : Nat := w.toNat / 2 ^ lo % 2 ^ n

/-- The die with a number. -/
def State.die (s : State) (d : Nat) : Die := s.dies.getD d Die.init
def State.setDie (s : State) (d : Nat) (x : Die) : State := { s with dies := s.dies.set d x }

/-- Present compute dies in ascending order; a die under warm reset counts (R327). -/
def State.presentDies (s : State) : List Nat := (List.range 4).filter (fun d => (s.die d).present)

/-- The capability state of a die: 0 absent, 1 present, 2 under warm reset (R326, R360). -/
def Die.state (d : Die) : Nat := if d.present then (if d.step = 0 then 1 else 2) else 0

/-- Physical memory answers: a die under reset answers with an error (R68, R350, R358), and so does host memory behind a port that is down (R354). -/
def State.reads (s : State) (pa : Nat) : Bool :=
  let r := pa / 2 ^ 40 % 2 ^ 12
  if r < 4 then (s.die r).state == 1 else if r < 0x800 then true else s.portUp.getD (pa / 2 ^ 50 % 2) false

/-- ZS_CAPDIEd (R326). -/
def Die.cap (d : Die) : DWord :=
  BitVec.ofNat 64 (d.state * 2 ^ 62 + d.cores * 2 ^ 55 + d.slices * 2 ^ 50 + d.chan * 2 ^ 43 + d.hbm * 2 ^ 35)

/-- Whether a core with this package number is present (R1). -/
def State.coreExists (s : State) (c : Nat) : Bool := decide (c < 320) && (s.die (c / 80)).present && decide (c % 80 < (s.die (c / 80)).cores)

/-- A physical address lies in a region and below its present size (R311). -/
def State.physUsable (s : State) (pa : Nat) : Bool :=
  let r := pa / 2 ^ 40 % 2 ^ 12
  if r < 4 then (s.die r).present && decide (pa % 2 ^ 40 < (s.die r).hbm * 2 ^ 30)
  else if r = 0x10 ∨ r = 0x11 then decide (pa % 2 ^ 41 < field s.capiod 31 12 * 2 ^ 30)
  else decide (0x800 ≤ r)

/-- A table must lie in HBM or in the second tier (R312). -/
def State.tableUsable (s : State) (pa : Nat) : Bool := s.physUsable pa && decide (pa / 2 ^ 40 % 2 ^ 12 < 0x800)

/-- The applied owner byte at an index of the partition table (R322). -/
def State.owner (s : State) (i : Nat) : Nat := (SMap.get (0x80 : Byte) s.own i).toNat

/-- Whether a partition owns the resource at an index. -/
def State.owns (s : State) (part i : Nat) : Bool := decide (s.owner i < 0x80) && decide (s.owner i % 16 = part)

/-- The partition of a context (R310). -/
def State.partOf (s : State) (ctx : Nat) : Nat := (SMap.get (0 : DWord) s.ctxpart ctx).toNat % 16

/-- The granules of 64 MiB from a physical address of HBM or the second tier (R322). -/
def granulesOf (pa size : Nat) : List Nat :=
  let r := pa / 2 ^ 40 % 2 ^ 12
  let n := (pa % 2 ^ 26 + size + 2 ^ 26 - 1) / 2 ^ 26
  if r < 4 then (upFrom (pa % 2 ^ 40 / 2 ^ 26) n).map (fun g => 0x0800 + r * 2048 + g)
  else if r < 0x800 then (upFrom (pa % 2 ^ 41 / 2 ^ 26) n).map (0x2800 + ·)
  else []

end Sys2Proof.Machine
end

