-- ==== Sys2Proof/Machine/Segments.lean ====
section
/-! DEFINITION. Segments and translation: descriptors (R55 to R58), the checks of every access in their order (R59), homes (R75), page walks (R312 to R315), the lattice types (R90, R91). -/

namespace Sys2Proof.Machine

/-- Segment kinds (R57) and the fixed segments of a unit (R55). -/
inductive SegKind where
  | hbm | vault | host | peer | repl | lattice | code | scratch | localVault | threadLocal | launchRec
  deriving DecidableEq, Repr

/-- A usable segment. -/
structure Seg where
  num : Nat
  kind : SegKind
  ltype : Nat
  ex : Bool
  at_ : Bool
  wr : Bool
  rd : Bool
  len : Nat
  home : Nat
  ilv : Bool
  root : Nat
  dev : Nat
  dx : Bool
  chunk : Nat
  pair : Nat
  k : Nat
  vidx : Nat
  bti : Nat
  deriving DecidableEq, Repr

/-- What a segment number leads to (checks 1 to 3 of R59). -/
inductive SegLook where
  | null
  | revoked
  | invalid
  | ok (g : Seg)
  deriving DecidableEq, Repr

/-- The kind of a kind code (R57). -/
def segKind (c : Nat) : Option SegKind :=
  match c with
  | 0 => some .hbm
  | 1 => some .vault
  | 2 => some .host
  | 3 => some .peer
  | 4 => some .repl
  | 5 => some .lattice
  | 6 => some .code
  | _ => none

/-- A descriptor's four words as a segment; nothing where R58 calls them malformed. DESIGN CHOICE (log 67): a vault's limit above the 0x3F_FFFF that R57 allows makes it malformed too, which R58's list does not name. -/
def segOfWords (num w0 w1 w2 w3 : Nat) : Option Seg :=
  match segKind (bits w0 58 4) with
  | none => none
  | some kind =>
    let lt := bits w0 54 4
    let ex := bits w0 53 1 == 1
    let home := bits w0 48 2
    let ilv := bits w0 47 1 == 1
    let root := bits w1 12 40
    let dev := bits w2 32 10
    let dx := bits w2 18 1 == 1
    let chunk := bits w2 14 4
    let pair := bits w2 12 2
    let k := bits w2 7 5
    let vidx := bits w2 0 7
    let rz := bits w0 40 7 == 0 && bits w1 52 12 == 0 && bits w1 0 12 == 0 && bits w2 42 22 == 0 && bits w2 19 13 == 0 && bits w3 24 40 == 0
    let noLat := lt == 0 && !dx && chunk == 0 && pair == 0 && k == 0
    let fit := match kind with
      | .hbm => !ex && noLat && dev == 0 && vidx == 0
      | .vault => !ex && noLat && dev == 0 && !ilv && root == 0 && decide (vidx < 80) && decide (bits w0 0 40 ≤ 0x3FFFFF)
      | .host => !ex && noLat && dev == 0 && vidx == 0 && home == 0 && !ilv
      | .peer => !ex && noLat && vidx == 0 && home == 0 && !ilv
      | .repl => !ex && noLat && dev == 0 && vidx == 0 && !ilv
      | .lattice => !ex && decide (1 ≤ lt ∧ lt ≤ 7) && vidx == 0 && decide (8 ≤ k ∧ k ≤ 20) && decide (pair < 3) && decide (6 ≤ chunk ∧ chunk ≤ 12) && (dx || dev == 0)
      | .code => noLat && dev == 0 && vidx == 0
      | _ => false
    if rz && fit && (!ilv || home == 0) then
      some { num := num, kind := kind, ltype := lt, ex := ex, at_ := bits w0 52 1 == 1, wr := bits w0 51 1 == 1, rd := bits w0 50 1 == 1,
             len := bits w0 0 40 + 1, home := home, ilv := ilv, root := root * 4096, dev := dev, dx := dx, chunk := chunk, pair := pair,
             k := k, vidx := vidx, bti := bits w3 0 24 }
    else none

/-- The physical address of segment n's descriptor (R56). -/
def State.descAddr (s : State) (ctx n : Nat) : Nat := field (SMap.get (0 : DWord) s.segbase ctx) 0 40 * 4096 + 32 * n

/-- The highest segment number the table covers (R310). -/
def State.lastSeg (s : State) (ctx : Nat) : Nat := field (SMap.get (0 : DWord) s.segbase ctx) 40 24

/-- The state field of a descriptor: 1 valid, 2 revoked, else invalid (R56). -/
def State.descState (s : State) (ctx n : Nat) : Nat :=
  if n < 0x100 ∨ s.lastSeg ctx < n then 0 else
  let st := bits (s.rd8 (s.descAddr ctx n)) 62 2
  if st = 3 then 0 else st

/-- Segments 0x00_0100 and above (R56, R58). A vault of another partition is refused (R322); an absent vault fails check 8 (R84). DESIGN CHOICE (log 78): the refusal stands with check 3, and a vault in local mode serves the vault-kind segments that name it too. -/
def State.tableSeg (s : State) (ctx n : Nat) : SegLook :=
  match s.descState ctx n with
  | 2 => .revoked
  | 1 =>
    let a := s.descAddr ctx n
    match segOfWords n (s.rd8 a) (s.rd8 (a + 8)) (s.rd8 (a + 16)) (s.rd8 (a + 24)) with
    | some g => if g.kind == .vault && s.coreExists (g.home * 80 + g.vidx) && !(s.owns (s.partOf ctx) (0x180 + g.home * 80 + g.vidx)) then .invalid else .ok g
    | none => .invalid
  | _ => .invalid

/-! The launch record's fields (R291). -/

def recWord (r : List DWord) (i : Nat) : DWord := r.getD i 0
def recCtx (r : List DWord) : Nat := field (recWord r 1) 16 16
def recRuleset (r : List DWord) : Nat := field (recWord r 1) 32 8
def recLseg (r : List DWord) : Nat := field (recWord r 1) 40 24
def recEntrySeg (r : List DWord) : Nat := field (recWord r 0) 40 24
def recEntryOff (r : List DWord) : Nat := field (recWord r 0) 0 40
def recGx (r : List DWord) : Nat := field (recWord r 2) 0 16
def recGy (r : List DWord) : Nat := field (recWord r 2) 16 16
def recGz (r : List DWord) : Nat := field (recWord r 2) 32 16
def recTlen (r : List DWord) : Nat := field (recWord r 3) 25 15 * 64
def recScr (r : List DWord) : Nat := field (recWord r 3) 16 9
def recPrio (r : List DWord) : Nat := field (recWord r 3) 14 2
def recSup (r : List DWord) : Bool := field (recWord r 3) 13 1 == 1
def recPanels (r : List DWord) : Nat := field (recWord r 3) 7 6
def recMx (r : List DWord) : Bool := field (recWord r 3) 6 1 == 1
def recG (r : List DWord) : Nat := 8 * 2 ^ field (recWord r 3) 4 2
def recGroups (r : List DWord) : Nat := field (recWord r 3) 0 4 + 1
def recTlk (r : List DWord) (n : Nat) : Nat := field (recWord r 4) (8 * n + 6) 2
def recTlc (r : List DWord) (n : Nat) : Nat := field (recWord r 4) (8 * n) 6
def recGraph (r : List DWord) : Nat := field (recWord r 5) 40 24
def recDmbx (r : List DWord) : Nat := field (recWord r 5) 30 10
def recDn (r : List DWord) : Bool := field (recWord r 5) 29 1 == 1
def recPin (r : List DWord) : Bool := field (recWord r 5) 28 1 == 1
def recLv (r : List DWord) : Bool := field (recWord r 5) 27 1 == 1
def recLanes (r : List DWord) : Nat := field (recWord r 5) 0 7
def recSlot (r : List DWord) (n : Nat) : DWord := recWord r (6 + n)

/-- A fixed segment of a unit (R55). -/
def fixedSeg (num : Nat) (kind : SegKind) (len : Nat) (rw : Bool) : Seg :=
  { num := num, kind := kind, ltype := 0, ex := false, at_ := rw, wr := rw, rd := true, len := len, home := 0, ilv := false, root := 0,
    dev := 0, dx := false, chunk := 0, pair := 0, k := 0, vidx := 0, bti := 0xFFFFFF }

/-- A table segment seen through a fixed number, with the fixed segment's rights (R55); that the entry's segment has ex is still a fetch's to check (R156). -/
def restrict (look : SegLook) (ex : Bool) : SegLook :=
  match look with
  | .ok g => .ok { g with ex := ex && g.ex, at_ := false, wr := false, rd := true }
  | l => l

/-- The segment a unit names (R54, R55, R56). -/
def State.unitSeg (s : State) (u : WorkUnit) (n : Nat) : SegLook :=
  if 0x100 ≤ n then s.tableSeg (recCtx u.record) n else
  match n with
  | 0 => .null
  | 1 => .ok (fixedSeg 1 .scratch (recScr u.record * 4096) true)
  | 2 => if recLv u.record && decide (s.owner (0x180 + u.core) / 64 % 2 = 0) then .ok (fixedSeg 2 .localVault (2 ^ 22) true) else .invalid
  | 3 => .ok (fixedSeg 3 .threadLocal (recTlen u.record) true)
  | 4 => restrict (s.tableSeg (recCtx u.record) (recLseg u.record)) false
  | 5 => restrict (s.tableSeg (recCtx u.record) (recEntrySeg u.record)) true
  | 6 => .ok (fixedSeg 6 .launchRec (0x80 + u.msgLen) false)
  | _ => .invalid

/-- The bytes of a lattice cell (R90). -/
def cellBytes (lt : Nat) : Nat := if lt = 1 ∨ lt = 2 ∨ lt = 7 then 4 else 8

/-- a ≤ b in a lattice's order (R90). -/
def latLe (lt a b : Nat) : Bool :=
  match lt with
  | 1 => decide (a ≤ b)
  | 2 => decide (b ≤ a)
  | 3 => decide (toInt 64 a ≤ toInt 64 b)
  | 4 => a &&& b == a
  | 5 => decide (a ≤ b)
  | 6 => decide (b ≤ a)
  | _ => decide (f32Key (f32Canon a) ≤ f32Key (f32Canon b))

/-- Join(T, a, b) (R90). -/
def latJoin (lt a b : Nat) : Nat :=
  match lt with
  | 4 => a ||| b
  | 7 => if latLe 7 a b then f32Canon b else f32Canon a
  | _ => if latLe lt a b then b else a

/-- The least element (R90). -/
def latBottom (lt : Nat) : Nat :=
  match lt with
  | 2 => 0xFFFFFFFF
  | 3 => 0x8000000000000000
  | 6 => 0xFFFFFFFFFFFFFFFF
  | 7 => 0xFF800000
  | _ => 0

/-- The home die of an offset (R75): the descriptor's home, or by interleaving. -/
def State.homeDie (s : State) (g : Seg) (off : Nat) : Nat :=
  if g.ilv then s.presentDies.getD (off / 4096 % s.presentDies.length) 0 else g.home

/-- The home slice of an offset on a die (R75). -/
def State.homeSlice (s : State) (d off : Nat) : Nat := off / 128 % (s.die d).slices

/-- A failed check: its code, and whether it is also reported (R314). -/
structure Bad where
  code : Nat
  report : Bool
  deriving DecidableEq, Repr

def bad (code : Nat) : Bad := ⟨code, false⟩

/-- The physical address of a page-table leaf and its page (R312). -/
structure Leaf where
  frame : Nat
  size : Nat
  ro : Bool
  deriving DecidableEq, Repr

/-- The walk over the levels' shifts, the table of the first at `table` (R312 to R314 orders 1 and 2); a table on a die under reset answers 0x0E (R358). -/
def State.walk (s : State) (off : Nat) : List Nat → Nat → Except Bad Leaf
  | [], _ => .error ⟨0x05, true⟩
  | sh :: rest, table =>
    if !(s.tableUsable table) then .error ⟨0x05, true⟩ else
    if !(s.reads table) then .error (bad 0x0E) else
    let e := s.rd8 (table + 8 * (off / 2 ^ sh % (if sh = 36 then 16 else 32)))
    if bits e 63 1 = 0 then .error ⟨0x05, false⟩ else
    if bits e 52 10 != 0 || bits e 0 7 != 0 then .error ⟨0x05, true⟩ else
    if bits e 62 1 = 1 then
      let frame := bits e 16 36 * 2 ^ 16
      if bits e 8 8 != 0 || frame % 2 ^ sh != 0 then .error ⟨0x05, true⟩ else
      .ok ⟨frame, 2 ^ sh, bits e 7 1 == 1⟩
    else if sh = 16 then .error ⟨0x05, true⟩
    else s.walk off rest (bits e 8 44 * 2 ^ 8)

/-- The pages that the entries of a table map, and those of the tables below it, as a walk finds them (R312 to R314 orders 1 and 2). -/
def State.leaves (s : State) : List Nat → Nat → List Leaf
  | [], _ => []
  | sh :: rest, table =>
    if !(s.tableUsable table) || !(s.reads table) then [] else
    (List.range (if sh = 36 then 16 else 32)).flatMap (fun i =>
      let e := s.rd8 (table + 8 * i)
      if bits e 63 1 = 0 ∨ bits e 52 10 ≠ 0 ∨ bits e 0 7 ≠ 0 then [] else
      if bits e 62 1 = 0 then s.leaves rest (bits e 8 44 * 2 ^ 8) else
      let frame := bits e 16 36 * 2 ^ 16
      if bits e 8 8 ≠ 0 ∨ frame % 2 ^ sh ≠ 0 then [] else [⟨frame, 2 ^ sh, bits e 7 1 == 1⟩])

/-- Whether a frame suits a segment's kind (R315). -/
def frameSuits (g : Seg) (pa : Nat) : Bool :=
  let r := pa / 2 ^ 40 % 2 ^ 12
  match g.kind with
  | .hbm => if g.ilv then r == 0 else r == g.home || r == 0x10 || r == 0x11
  | .code => if g.ilv then r == 0 else r == g.home || r == 0x10 || r == 0x11
  | .repl => r == 0
  | .lattice => r == 0
  | .host => decide (0x800 ≤ r)
  | .peer => true
  | _ => false

/-- The granules a page covers (R314 order 4, R315). -/
def State.pageGranules (s : State) (g : Seg) (l : Leaf) : List Nat :=
  match g.kind with
  | .peer => []
  | .host => []
  | .repl => s.presentDies.flatMap (fun d => granulesOf (d * 2 ^ 40 + l.frame % 2 ^ 40) l.size)
  | .lattice => s.presentDies.flatMap (fun d => granulesOf (d * 2 ^ 40 + l.frame % 2 ^ 40) l.size)
  | _ =>
    if g.ilv then
      let n := s.presentDies.length
      s.presentDies.flatMap (fun d => granulesOf (d * 2 ^ 40 + l.frame % 2 ^ 40) ((l.size + 4096 * n - 1) / (4096 * n) * 4096))
    else granulesOf l.frame l.size

/-- The byte of a page at a segment offset, for a party of die `local_` (R315, R92, R121). -/
def State.frameKey (s : State) (g : Seg) (l : Leaf) (local_ off : Nat) : Nat :=
  match g.kind with
  | .repl => local_ * 2 ^ 40 + l.frame % 2 ^ 40 + off % l.size
  | .lattice => local_ * 2 ^ 40 + l.frame % 2 ^ 40 + off % l.size
  | _ =>
    if g.ilv then s.homeDie g off * 2 ^ 40 + l.frame % 2 ^ 40 + off % l.size / 4096 / s.presentDies.length * 4096 + off % 4096
    else l.frame + off % l.size

/-- A leaf's frame is usable (R311): a per-die offset (R315) on every present die (log 65); a peer's frame is the peer's to check. -/
def State.frameUsable (s : State) (g : Seg) (frame : Nat) : Bool :=
  let each := s.presentDies.all (fun d => s.physUsable (d * 2 ^ 40 + frame % 2 ^ 40))
  match g.kind with
  | .peer => true
  | .repl => each
  | .lattice => each
  | _ => if g.ilv then each else s.physUsable frame

/-- An entry of a TLB, of the die or of a core, that maps an offset. -/
def TlbEntry.maps (e : TlbEntry) (core : Option Nat) (ctx die : Nat) (g : Seg) (off : Nat) : Bool :=
  e.core == core && e.die == die && e.ctx == ctx && e.seg == g.num && e.root == g.root && decide (e.base ≤ off ∧ off < e.base + e.size)

/-- Segments that page tables map (R312, R315). -/
def SegKind.walked (k : SegKind) : Bool := k == .hbm || k == .host || k == .peer || k == .repl || k == .lattice || k == .code

/-- A leaf serves a segment of a context: a usable frame that suits the kind, in granules of the context's partition (R314 orders 3 and 4). -/
def State.leafFor (s : State) (ctx : Nat) (g : Seg) (l : Leaf) : Except Bad Leaf :=
  if !(s.frameUsable g l.frame) then .error ⟨0x05, true⟩ else
  if !(frameSuits g l.frame) then .error ⟨0x05, true⟩ else
  if (s.pageGranules g l).all (s.owns (s.partOf ctx)) then .ok l else .error (bad 0x04)

/-- A kept translation of an offset: the core's where a core asks, else the die's (R316). One found under a former root of the segment, or whose frame does not serve the segment as its descriptor now is, is none of this descriptor's (R60, R327). -/
def State.kept? (s : State) (core : Option Nat) (ctx die : Nat) (g : Seg) (off : Nat) : Option TlbEntry :=
  ((core.bind (fun c => s.tlb.find? (fun e => e.maps (some c) ctx die g off))).orElse (fun _ => s.tlb.find? (fun e => e.maps none ctx die g off))).filter
    (fun e => match s.leafFor ctx g ⟨e.frame, e.size, e.ro⟩ with | .ok _ => true | .error _ => false)

/-- The page of an offset, through a TLB (R316), else a walk (R314). -/
def State.found (s : State) (core : Option Nat) (ctx die : Nat) (g : Seg) (off : Nat) : Except Bad Leaf :=
  match s.kept? core ctx die g off with
  | some e => .ok ⟨e.frame, e.size, e.ro⟩
  | none =>
    match s.walk off [36, 31, 26, 21, 16] g.root with
    | .error b => .error b
    | .ok l => s.leafFor ctx g l

/-- Check 9 of R59: a store needs a page that is not read-only. -/
def State.page (s : State) (core : Option Nat) (ctx die : Nat) (g : Seg) (off : Nat) (write : Bool) : Except Bad Leaf :=
  match s.found core ctx die g off with
  | .ok l => if l.ro && write then .error (bad 0x04) else .ok l
  | .error b => .error b

/-- How an access uses a lattice segment (R91, R93). -/
inductive LatUse where
  /-- LD, LDS, LDV, ST, SLD and engine accesses: whole cells -/
  | cells
  /-- LDJ, LDJ.NB, STJ: lattice only, one cell -/
  | cell
  /-- AMO.join of n bytes: lattice only, one cell of that width -/
  | join
  /-- every other atomic: never on a lattice segment -/
  | never
  deriving DecidableEq, Repr

/-- An access to check: exact offset, bytes, alignment, rights (R59). -/
structure Req where
  seg : Nat
  off : Int
  n : Nat
  align : Nat
  rd : Bool
  wr : Bool
  at_ : Bool
  ex : Bool
  use : LatUse
  /-- an odd register is named, which a cell of 8 bytes does not take (R216) -/
  odd : Bool := false
  /-- the step is the home's alone: no copy answers for it (R66) -/
  atHome : Bool := false
  deriving DecidableEq, Repr

/-- A checked access: the segment, its first offset and bytes' keys, the home die, the TLB entry that served it. -/
structure Acc where
  g : Seg
  off : Nat
  keys : List Nat
  home : Nat
  tlb : Option TlbEntry
  deriving DecidableEq, Repr

/-- Checks 1 to 6 of R59, which CHKA and the engine commands make alone (R220, R273). -/
def State.checks16 (s : State) (u : WorkUnit) (r : Req) : Except Bad Seg :=
  match s.unitSeg u r.seg with
  | .null => .error (bad 0x19)
  | .revoked => .error (bad 0x0F)
  | .invalid => .error (bad 0x04)
  | .ok g =>
    if r.off < 0 ∨ (g.len : Int) < r.off + (r.n : Int) then .error (bad 0x02) else
    let off := r.off.toNat
    if off % r.align != 0 then .error (bad 0x03) else
    if g.kind == .lattice && off % cellBytes g.ltype != 0 then .error (bad 0x03) else
    if (r.rd && !g.rd) || (r.wr && !g.wr) || (r.at_ && !g.at_) || (r.ex && !g.ex) then .error (bad 0x04) else .ok g

/-- Check 7 of R59 (R91, R93, R216, R222). -/
def latticeOk (g : Seg) (r : Req) : Bool :=
  let lat := g.kind == .lattice
  match r.use with
  | .cells => !lat || r.n % cellBytes g.ltype == 0
  | .cell => lat && !(r.odd && cellBytes g.ltype == 8)
  | .join => lat && r.n == cellBytes g.ltype
  | .never => !lat

/-- The die of a unit's core. -/
def WorkUnit.die (u : WorkUnit) : Nat := u.core / 80

/-- A cache of a die holds a line (R318). -/
def State.copyOn (s : State) (die line : Nat) : Bool :=
  match AMap.get? s.dir line with
  | some e => e.l1.any (fun c => c / 80 == die) || e.l2.any (fun p => p.1 == die)
  | none => false

/-- Check 8 of R59: the home answers, or a copy held on the reader's die does (R318, R358). -/
def State.homeAnswers (s : State) (u : WorkUnit) (g : Seg) (off : Nat) (write : Bool) (key : Nat) : Bool :=
  match g.kind with
  | .hbm =>
    (s.die (s.homeDie g off)).state == 1 ||
      (!write && (s.copyOn u.die (key / 128)))
  | .code =>
    (s.die (s.homeDie g off)).state == 1 ||
      (!write && (s.copyOn u.die (key / 128)))
  | .vault => (s.die g.home).state == 1 && decide (g.vidx < (s.die g.home).cores)
  | .peer => !(s.absentDevs.contains g.dev)
  | .host =>
    let port := key / 2 ^ 50 % 2
    s.portUp.getD port false && !(s.detached.contains (port * 2 ^ 52 + s.descAddr (recCtx u.record) g.num))
  | .lattice => (s.die u.die).state == 1
  | .repl => write || (s.die u.die).state == 1
  | _ => true

/-- Check 8 of R59 at an offset: the home answers, or a copy of the page that maps it does. -/
def State.answersAt (s : State) (u : WorkUnit) (g : Seg) (write atHome : Bool) (off : Nat) : Bool :=
  if !g.kind.walked then s.homeAnswers u g off write 0 else
  match s.found (some u.core) (recCtx u.record) u.die g off with
  | .ok l => s.homeAnswers u g off (write || atHome) (s.frameKey g l u.die off)
  | .error _ => g.kind == .host || s.homeAnswers u g off (write || g.kind != .repl) 0

/-- The byte at an offset, with the page that maps it (check 9). -/
def State.placeAt (s : State) (u : WorkUnit) (grp lane : Nat) (g : Seg) (write : Bool) (off : Nat) : Except Bad (Nat × Option TlbEntry) :=
  match g.kind with
  | .scratch => .ok (scratchKey u.uid off, none)
  | .threadLocal => .ok (localKey u.uid grp lane off, none)
  | .launchRec => .ok (recordKey u.uid off, none)
  | .localVault => .ok (vaultKey u.core off, none)
  | .vault => .ok (vaultKey (g.home * 80 + g.vidx) off, none)
  | _ =>
    match s.page (some u.core) (recCtx u.record) u.die g off write with
    | .error b => .error b
    | .ok l => .ok (s.frameKey g l u.die off,
        some { die := u.die, ctx := recCtx u.record, seg := g.num, base := off / l.size * l.size, size := l.size, frame := l.frame, ro := l.ro, root := g.root })

/-- The keys of bytes at offsets, with the last page that maps one of them. -/
def State.places (s : State) (u : WorkUnit) (grp lane : Nat) (g : Seg) (write : Bool) : List Nat → Except Bad (List Nat × Option TlbEntry)
  | [] => .ok ([], none)
  | off :: rest =>
    match s.placeAt u grp lane g write off with
    | .error b => .error b
    | .ok (k, t) =>
      match s.places u grp lane g write rest with
      | .error b => .error b
      | .ok (ks, t') => .ok (k :: ks, t'.orElse (fun _ => t))

/-- Checks 8 and 9 of R59 for bytes in ascending order: check 8 at each line of theirs, then the pages. -/
def State.place (s : State) (u : WorkUnit) (grp lane : Nat) (g : Seg) (write atHome : Bool) (offs : List Nat) : Except Bad (List Nat × Option TlbEntry) :=
  if !((offs.filter (fun o => some o == offs.head? || o % 128 == 0)).all (s.answersAt u g write atHome)) then .error (bad 0x0E) else
  s.places u grp lane g write offs

/-- Every check of R59 in its order, for one lane's access. -/
def State.access (s : State) (u : WorkUnit) (grp lane : Nat) (r : Req) : Except Bad Acc :=
  match s.checks16 u r with
  | .error b => .error b
  | .ok g =>
    if !(latticeOk g r) then .error (bad 0x04) else
    match s.place u grp lane g r.wr r.atHome (upFrom r.off.toNat r.n) with
    | .error b => .error b
    | .ok (ks, t) => .ok { g := g, off := r.off.toNat, keys := ks, home := s.homeDie g r.off.toNat, tlb := t }

/-- The home of a line of a segment's: an HBM line's die, the descriptor's home die for the second tier (R88), a vault's die, 4 for the IOD (R75, R89). -/
def lineHome (g : Seg) (line : Nat) : Nat :=
  let k := 128 * line
  if k < 2 ^ 42 then k / 2 ^ 40 else if k < 0x800 * 2 ^ 40 then g.home else if k < 2 ^ 52 then 4 else if k < 2 ^ 56 then (k - 2 ^ 52) / 2 ^ 22 / 80 else 4

/-- The lines of an access with their homes; a replicated line's record stands at its one home (R75, R116). -/
def Acc.recs (a : Acc) : List (Nat × Nat) :=
  let ls := ((if a.g.kind == .repl then a.keys.map (fun k => a.g.home * 2 ^ 40 + k % 2 ^ 40) else a.keys).map (· / 128)).eraseDups
  ls.map (fun n => (n, lineHome a.g n))

/-- The valid segments of a kind, with their contexts, found among the bytes of the segment tables that are not blank. -/
def State.segsOf (s : State) (kind : SegKind) : List (Nat × Seg) :=
  s.segbase.flatMap (fun p =>
    let b := s.descAddr p.1 0
    let ns := ((s.mem.filter (fun q => decide (b ≤ q.1 ∧ q.1 < b + 2 ^ 29))).map (fun q => (q.1 - b) / 32)).eraseDups
    ns.filterMap (fun n => match s.tableSeg p.1 n with | .ok g => if g.kind == kind then some (p.1, g) else none | _ => none))

/-- Storage that no cache holds (R74, R85): scratch and vaults; a peer's is the peer's. -/
def SegKind.uncached : SegKind → Bool
  | .peer => true
  | .vault => true
  | .scratch => true
  | .localVault => true
  | .launchRec => true
  | _ => false

/-- The route entry of a device: its port mask; the partition it may reach, where the entry lets accesses in (R352). -/
def State.routeMask (s : State) (dev : Nat) : Nat := s.rd8 (field s.routetab 0 52 + 16 * dev)
def State.routeIn (s : State) (dev : Nat) : Option Nat :=
  let w := s.rd8 (field s.routetab 0 52 + 16 * dev + 8)
  if w / 32 = 0 ∧ bitAt w 4 then some (w % 16) else none
/-- A valid route with no present port (R353). -/
def State.routeDead (s : State) (dev : Nat) : Bool := (s.routeIn dev).isSome && s.routeMask dev % 2 ^ field s.capiod 57 7 == 0

/-- The packets of an access to a peer: one for each 128-byte line, at the present port of the route that the line goes by (R351, R353). -/
def State.sendPeer (s : State) (dev : Nat) (keys : List Nat) : State :=
  let ports := (List.range (field s.capiod 57 7)).filter (bitAt (s.routeMask dev))
  { s with out := s.out ++ (linesOf keys).map (fun n =>
      let ks := keys.filter (fun k => k / 128 == n)
      .peerRequest dev (ports.getD (n % 2 ^ 45 % ports.length) 0) (ks.headD 0) ks.length) }

/-- The home of an access cannot be reached: a die under warm reset (R336, R358; one that is being quiesced still serves what is under way), or a host port that is down (R354). -/
def State.homeDown (s : State) (recs : List (Nat × Nat)) : Bool :=
  recs.any (fun r => if r.2 < 4 then (s.die r.2).state == 2 && (s.die r.2).step != 7
    else decide (0x800 * 2 ^ 40 ≤ 128 * r.1 ∧ 128 * r.1 < 2 ^ 52) && !(s.portUp.getD (128 * r.1 / 2 ^ 50 % 2) false))

/-- The address pair of a segment and an exact offset: a 64-bit register's worth of it (R329). -/
def addrOf (seg : Nat) (off : Int) : Nat := seg * 2 ^ 40 + ofInt 40 off

end Sys2Proof.Machine
end

