-- ==== Sys2Proof/Machine/Ops.lean ====
section
/-! DEFINITION. The named operations over units, groups and lanes that the meanings share: registers, region entries, how an issue closes (program counters, paths, parks), taking a fault and the return from one, wakes, stores reaching their home, completion of groups, units and launches. -/

namespace Sys2Proof.Machine

abbrev Out := Host.Outcome State Fault Refusal

/-- A report to a partition supervisor or the management core: the rule's number and an argument (R314, R332). -/
def State.report (s : State) (rule arg : Nat) : State := { s with out := s.out ++ [.report rule arg] }

/-- An access by a party that is no lane has failed its walk: a malformed entry, or a frame that is unusable or does not suit, is reported to the partition's supervisor (R314). -/
def State.noteWalk (s : State) (u : WorkUnit) (a : Nat) : State :=
  match s.unitSeg u (a / 2 ^ 40) with
  | .ok g =>
    (match s.found (some u.core) (recCtx u.record) u.die g (a % 2 ^ 40) with
    | .error b => if g.kind.walked && b.report then s.report 314 a else s
    | .ok _ => s)
  | _ => s

/-- The state of an outcome that is a next state. -/
def stateOf (s : State) : Out → State
  | .next s' => s'
  | _ => s

/-! Units, groups, lanes. -/

def Lane.blank : Lane := { st := .neverLaunched, pc := 0, rpc := 0, rctr := 0, rdep := 0, dep := 0, defer := none }

def Group.lane (g : Group) (l : Nat) : Lane := g.lanes.getD l Lane.blank
def Group.setLane (g : Group) (l : Nat) (x : Lane) : Group := { g with lanes := g.lanes.set l x }
def Group.setLanes (g : Group) (ls : List Nat) (f : Nat → Lane → Lane) : Group :=
  { g with lanes := (List.range g.lanes.length).map (fun l => if ls.contains l then f l (g.lane l) else g.lane l) }

def LaneSt.isParked : LaneSt → Bool
  | .parked _ _ _ => true
  | _ => false

/-- Live: parked, subscribed or private (R29). -/
def LaneSt.live : LaneSt → Bool
  | .neverLaunched => false
  | .exited => false
  | _ => true

/-- Lane numbers 0 to G − 1 that satisfy a test. -/
def Group.which (g : Group) (p : Lane → Bool) : List Nat := (List.range g.lanes.length).filter (fun l => p (g.lane l))
def Group.liveLanes (g : Group) : List Nat := g.which (·.st.live)
def Group.subscribed (g : Group) : List Nat := g.which (·.st == .subscribed)

def WorkUnit.group (u : WorkUnit) (i : Nat) : Option Group := u.groups[i]?
def WorkUnit.setGroup (u : WorkUnit) (i : Nat) (g : Group) : WorkUnit := { u with groups := u.groups.set i g }
def State.unit? (s : State) (uid : Nat) : Option WorkUnit := AMap.get? s.units uid
def State.setUnit (s : State) (u : WorkUnit) : State := { s with units := AMap.set s.units u.uid u }
/-- One unit replaced by a function of it. -/
def State.onUnit (s : State) (uid : Nat) (f : WorkUnit → WorkUnit) : State :=
  match s.unit? uid with
  | some u => s.setUnit (f u)
  | none => s
def WorkUnit.onGroup (u : WorkUnit) (i : Nat) (f : Group → Group) : WorkUnit :=
  match u.group i with
  | some g => u.setGroup i (f g)
  | none => u
def State.onGroup (s : State) (uid i : Nat) (f : Group → Group) : State := s.onUnit uid (fun u => u.onGroup i f)

/-- A lane number set as a mask and back. -/
def maskOf (ls : List Nat) : DWord := BitVec.ofNat 64 (ls.foldl (fun a l => a ||| 2 ^ l) 0)
def lanesOf (n : Nat) (m : DWord) : List Nat := (List.range n).filter (fun l => m.getLsbD l)

/-! Registers (R6, R27, R44). -/

def Group.getV (g : Group) (l n : Nat) : Word := SMap.get 0 g.v (64 * l + n)
def Group.putV (g : Group) (l n : Nat) (w : Word) : Group := { g with v := SMap.put 0 g.v (64 * l + n) w }
def Group.emptyV (g : Group) (l n : Nat) : Bool := SMap.get false g.ve (64 * l + n)
def Group.markV (g : Group) (l n : Nat) (e : Bool) : Group := { g with ve := SMap.put false g.ve (64 * l + n) e }
def Group.getS (g : Group) (n : Nat) : DWord := SMap.get 0 g.s n
def Group.putS (g : Group) (n : Nat) (w : DWord) : Group := { g with s := SMap.put 0 g.s n w }
def Group.emptyS (g : Group) (n : Nat) : Bool := SMap.get false g.se n
def Group.markS (g : Group) (n : Nat) (e : Bool) : Group := { g with se := SMap.put false g.se n e }
def Group.getM (g : Group) (n : Nat) : DWord := SMap.get 0 g.m n
/-- A mask register keeps no bit at or above G (R174). -/
def Group.putM (g : Group) (n : Nat) (w : DWord) : Group :=
  { g with m := SMap.put 0 g.m n (BitVec.ofNat 64 (w.toNat % 2 ^ g.lanes.length)) }
def setBit (w : DWord) (l : Nat) (b : Bool) : DWord :=
  if b then w ||| BitVec.ofNat 64 (2 ^ l) else w &&& ~~~(BitVec.ofNat 64 (2 ^ l))
/-- One lane's bit of a mask register (R174). -/
def Group.putBit (g : Group) (n l : Nat) (b : Bool) : Group := g.putM n (setBit (g.getM n) l b)
/-- A 64-bit value in an even pair, low word first (R136). -/
def Group.getPair (g : Group) (l n : Nat) : Nat := (g.getV l n).toNat + (g.getV l (n + 1)).toNat * 2 ^ 32
def Group.putPair (g : Group) (l n x : Nat) : Group := (g.putV l n (BitVec.ofNat 32 x)).putV l (n + 1) (BitVec.ofNat 32 (x / 2 ^ 32))

/-! Region entries (R48, R50, R240). -/

/-- A region entry for the lanes given, at a place in program order: each takes its resume point with the depth given, unless a later entry has made one (R48, R49; log 66). The counter rises by 1 and every binding records its position, unless another part of the issue made the entry already. -/
def Group.enterAt (g : Group) (ls : List Nat) (rpc seq : Nat) (dep : Nat → Nat) (ent : Option Nat) : Group :=
  if ls.isEmpty then g else
  let n := ent.getD ((g.regc + 1) % 2 ^ 64)
  let g1 := g.setLanes (ls.filter (fun l => decide ((g.lane l).rseq ≤ seq))) (fun l x => { x with rpc := rpc, rctr := n, rdep := dep l, rseq := seq })
  if ent.isSome then g1 else { g1 with regc := n, binds := g.binds.map (fun b => { b with hist := (n, b.pos) :: b.hist }) }

/-- One region entry of an issue for the lanes given, each with its resume point; every binding records its position. -/
def Group.enter (g : Group) (ls : List Nat) (rpc : Nat) : Group :=
  if ls.isEmpty then g else { g with seq := g.seq + 1 }.enterAt ls rpc (g.seq + 1) (fun l => (g.lane l).dep) none

/-- The position a binding resumes at: the one recorded at the region entry with the lowest counter among the live lanes' resume points (R240). -/
def Group.resumePos (g : Group) (b : Binding) : Nat :=
  let cs := g.liveLanes.map (fun l => (g.lane l).rctr)
  let n := cs.foldl min (cs.headD 0)
  match b.hist.find? (fun p => p.1 == n) with
  | some p => p.2
  | none => 0

/-! An issue and how it closes. -/

/-- The fault of a lane: code, address pair, store-suppressed, and for remote faults the peer's reason; a deferred fault names its own counter (R124). -/
structure LFault where
  code : Nat
  addr : Nat
  ss : Bool
  rmt : Bool
  reason : Nat
  regc : Option Nat
  /-- the walk is reported (R314) -/
  report : Bool
  deriving DecidableEq, Repr

/-- A local fault. -/
def lf (code addr : Nat) (ss : Bool) : LFault := ⟨code, addr, ss, false, 0, none, false⟩

/-- What an issue comes to for one lane. -/
inductive LaneOut where
  /-- completes, or was guarded off: the successor is next -/
  | next
  /-- transfers control -/
  | goto (pc : Nat)
  | fault (f : LFault)
  /-- a read or write of an empty register parks the lane at the word (R44) -/
  | wait (arg reg : Nat)
  /-- parks until the word completes for it (R288) -/
  | park (p : Park) (arg : Nat)
  /-- the issue was ended for every lane (R175): it stands at the word -/
  | stay
  | exit
  deriving DecidableEq, Repr

def LaneOut.isFault : LaneOut → Bool
  | .fault _ => true
  | _ => false

def LaneOut.isNext : LaneOut → Bool
  | .next => true
  | _ => false

def LaneOut.isStay : LaneOut → Bool
  | .stay => true
  | _ => false

/-- A lane that must wait for a register (R44). -/
def LaneOut.isWait : LaneOut → Bool
  | .wait _ _ => true
  | _ => false

/-- What an issue acts in. -/
structure Env where
  s : State
  c : Issue
  u : WorkUnit
  g : Group
  deriving DecidableEq, Repr

/-- The issue in progress, its unit and its group. -/
def State.env? (s : State) : Option Env :=
  match s.cur with
  | none => none
  | some c =>
    match s.unit? c.uid with
    | none => none
    | some u =>
      match u.group c.grp with
      | none => none
      | some g => some ⟨s, c, u, g⟩

/-- A meaning of a word: refused where no issue is in progress; a group word waits for every incomplete fence of its group's lanes (R113). -/
def State.issue (s : State) (k : Env → Out) : Out :=
  match s.env? with
  | some e => if e.c.by_ == .group && !e.g.fences.isEmpty then .next s else k e
  | none => .refused .noIssuer

def Env.next (e : Env) : Nat := e.c.pc + e.c.len
def Env.G (e : Env) : Nat := e.g.lanes.length
/-- The state with the unit and the group of the issue put back. -/
def Env.out (e : Env) : State := e.s.setUnit (e.u.setGroup e.c.grp e.g)
/-- The active set narrowed by guard register n (R18); 0 is no guard. -/
def Env.guarded (e : Env) (n : Nat) : List Nat :=
  if n = 0 then e.c.act else e.c.act.filter (fun l => (e.g.getM n).getLsbD l)
/-- The first word in [31:0], the second in [63:32] (R330). -/
def Env.words (e : Env) : Nat := e.c.w0 + e.c.w1 * 2 ^ 32

/-- The record of a lane's fault (R329); past an incomplete fence it carries the fence's counter (R115). -/
def Env.record (e : Env) (l : Nat) (f : LFault) : FaultRec :=
  let x := e.g.lane l
  let ctr := match e.g.fences.find? (fun k => k.lanes.contains l) with
    | some k => k.ctr
    | none => x.rctr
  { grp := e.c.grp, lane := l, code := f.code, ss := f.ss, rmt := f.rmt, reason := f.reason, pc := x.pc, regc := f.regc.getD ctr, addr := f.addr }

/-- The lanes of a group that have met a fault: nothing more of theirs issues, and none gets a second record (R284). -/
def WorkUnit.faulted (u : WorkUnit) (grp : Nat) : List Nat := (u.stop.filter (fun r => r.grp == grp)).map (·.lane)

/-- The faults of lanes that have met none yet: a lane has one record (R284). -/
def Env.fresh (e : Env) (fs : List (Nat × LFault)) : List (Nat × LFault) := fs.filter (fun p => !((e.u.faulted e.c.grp).contains p.1))

/-- A fault taken by lanes of the issue: the group stops and issues nothing after this cycle; the records, one for each lane, wait for the save of the unit (R284, R332). -/
def Env.stop (e : Env) (fs : List (Nat × LFault)) : Env :=
  let fs := e.fresh fs
  if fs.isEmpty then e else
  { e with u := { e.u with stop := e.u.stop ++ fs.map (fun p => e.record p.1 p.2), stopAt := some (e.u.stopAt.getD e.s.cycle) },
           s := { e.s with out := e.s.out ++ (fs.filter (fun p => p.2.report)).map (fun p => Output.report 314 p.2.addr) } }

/-- The path the broadcast takes after its issue (R32, R232, R285). -/
def pathOf (pc succ : Nat) (inBuffer : Nat → Bool) (outs : List (Nat × LaneOut)) : Nat :=
  let ts := outs.filterMap (fun p => match p.2 with | .goto t => some t | _ => none)
  let fall := outs.any (fun p => match p.2 with | .next => true | _ => false)
  match ts with
  | [] => if outs.all (fun p => p.2.isFault || p.2.isStay) then pc else succ
  | t :: _ =>
    if fall && (inBuffer succ || !(ts.any inBuffer)) then succ else
    match ts.find? inBuffer with
    | some t' => t'
    | none => t

/-- A lane after an issue that came to `o` for it; in a broadcast issue a lane off the broadcast's path becomes private, and a faulting lane is recorded as unsubscribed. -/
def laneAfter (broadcast : Bool) (succ bcast : Nat) (o : LaneOut) (x : Lane) : Lane :=
  let go (t : Nat) : Lane := { x with pc := t, st := if broadcast && t == bcast then .subscribed else .priv }
  match o with
  | .next => go succ
  | .goto t => go t
  | .fault _ => { x with st := .priv }
  | .wait arg r => { x with st := .parked .fullEmpty arg r }
  | .park p arg => { x with st := .parked p arg succ }
  | .stay => x
  | .exit => { x with st := .exited, defer := none, dep := 0 }

/-- The faults of an issue's lanes, in order. -/
def faultsOf (outs : List (Nat × LaneOut)) : List (Nat × LFault) := outs.filterMap (fun p => match p.2 with | .fault f => some (p.1, f) | _ => none)

/-- The lanes that an issue settles leave the blocked words they stood in; those that must wait for a register stand in a new one (R44); the lanes still in a word that goes on share the entries it has popped (R42). -/
def Issue.blocks (c : Issue) (outs : List (Nat × LaneOut)) (bs : List Blocked) : List Blocked :=
  let settled := (outs.filter (fun p => !p.2.isStay)).map (·.1)
  let waits := (outs.filter (fun p => p.2.isWait)).map (·.1)
  let goesOn (b : Blocked) : Bool := c.again && c.act.any b.lanes.contains
  (bs.map (fun b => { b with lanes := b.lanes.filter (fun l => !(settled.contains l)), held := if goesOn b then c.held else b.held })).filter (fun b => !b.lanes.isEmpty) ++
    (if waits.isEmpty then [] else [⟨waits, c.pc, c.w0, c.w1, c.held, c.whole⟩])

/-- The towline once the broadcast has gone from one address to another: consumed in order; discarded where the broadcast leaves the stream (R39). -/
def towAfter (pc bcast : Nat) (tow : List TowWord) : List TowWord :=
  if bcast = pc then tow else if (tow.tail.head?.map (·.pc)) = some bcast then tow.tail else []

/-- What the issue leaves of itself in its cycle: its position has issued for its group (R28, R31). -/
def Env.issuedAs (e : Env) : Issued :=
  { core := e.u.core, place := e.u.places.getD e.c.grp (0, 0), uid := e.c.uid, grp := e.c.grp, by_ := e.c.by_, slices := (e.c.act.map (· / 4)).eraseDups }

/-- A group has issued in a cycle (R301). -/
def Group.chosen (g : Group) (cycle : Nat) : Group := { g with lastIssue := cycle, passed := 0, raised := false }

/-- Lanes that took part in an issue of the word have faulted in it: where it is the last broadcast issue and no lane of it is left, the broadcast stands at the word again, for no lane has completed it (R285). -/
def Group.backTo (g : Group) (ls : List Nat) (pc : Nat) (seq : Option Nat) : Group :=
  if g.lastPc != pc || seq.any (· != g.lastSeq) || g.lastLanes.isEmpty then g else
  let rest := g.lastLanes.filter (fun l => !(ls.contains l))
  { g with lastLanes := rest, bcast := if rest.isEmpty then pc else g.bcast }

/-- The lanes for which an issue stands as done or under way: not faulted, not ended (R285). -/
def goingOn (outs : List (Nat × LaneOut)) : List Nat := (outs.filter (fun p => !p.2.isFault && !p.2.isStay)).map (fun p => p.1)

/-- The broadcast address after an issue (R32, R232). -/
def Env.after (e : Env) (outs : List (Nat × LaneOut)) : Nat :=
  if e.c.by_ == .broadcast then pathOf e.c.pc e.next e.g.ibuf.contains outs else e.g.bcast

/-- The broadcast after an issue: a broadcast issue is the last one, with the lanes that it goes on for; where the lanes of the last one have all come to fault, the broadcast stands at its word again (R285). -/
def Env.broadcastAt (e : Env) (outs : List (Nat × LaneOut)) : Group :=
  if e.c.by_ == .broadcast && !outs.all (fun p => p.2.isStay) then { e.g with bcast := e.after outs, lastPc := e.c.pc, lastSeq := e.g.seq, lastLanes := goingOn outs }
  else Group.backTo { e.g with bcast := e.after outs } ((faultsOf outs).map (fun p => p.1)) e.c.pc none

/-- The group once an issue has closed: each lane stands where its outcome sends it; an issue that leaves every lane waiting is none (R301). -/
def Env.closed (e : Env) (outs : List (Nat × LaneOut)) : Group :=
  let none_ := outs.all (fun p => p.2.isStay)
  let b := e.broadcastAt outs
  { e.g.setLanes (outs.map (·.1)) (fun l x => match outs.find? (fun p => p.1 == l) with
      | some p => laneAfter (e.c.by_ == .broadcast) e.next (e.after outs) p.2 x
      | none => x) with
    bcast := b.bcast, lastPc := b.lastPc, lastSeq := b.lastSeq, lastLanes := b.lastLanes,
    lastIssue := if none_ then e.g.lastIssue else e.s.cycle, passed := if none_ then e.g.passed else 0, raised := none_ && e.g.raised,
    tow := if e.c.by_ == .broadcast then towAfter e.c.pc (e.after outs) e.g.tow else e.g.tow,
    blocked := e.c.blocks outs e.g.blocked,
    peerRead := if none_ then e.g.peerRead else e.g.peerRead.filter (fun p => p.pc != e.c.pc) }

/-- A lane issue closes: program counters, lane states and the broadcast address follow; faults stop the group. -/
def Env.close (e : Env) (outs : List (Nat × LaneOut)) : Env :=
  Env.stop { e with s := { e.s with issued := e.s.issued ++ (if outs.all (fun p => p.2.isStay) then [] else [e.issuedAs]) }, g := e.closed outs } (faultsOf outs)

/-- The outcome of a lane issue that wrote what `e` holds. -/
def Env.finish (e : Env) (outs : List (Nat × LaneOut)) : Out := .next (e.close outs).out

/-- Every lane of the active set faults; nothing is performed (R171). -/
def Env.faultAll (e : Env) (f : LFault) : Out := e.finish (e.c.act.map (fun l => (l, .fault f)))

/-- 0x15 for the whole active set, guard or not (R170, R171). -/
def Env.illegal (e : Env) : Out := e.faultAll (lf 0x15 e.words false)

/-- The issue waits: nothing comes about. -/
def Env.stall (e : Env) : Out := .next e.s

/-- The words held for a group's fetch are discarded: towline, instruction buffer, loop buffers (R126, R227). -/
def Group.noCode (g : Group) : Group := { g with tow := [], ibuf := [], lanes := g.lanes.map (fun x => { x with loop := [] }) }

/-- A group word has executed: every live lane stands subscribed at `pc` (R37). -/
def Env.groupTo (e : Env) (pc : Nat) : Out :=
  let g := e.g.setLanes e.g.liveLanes (fun _ x => { x with pc := pc, st := .subscribed })
  .next { e with g := { g.chosen e.s.cycle with bcast := pc, tow := [], peerRead := [], lastLanes := [] } }.out
def Env.groupNext (e : Env) : Out := e.groupTo e.next

/-- A group word faults: every live lane receives a record with the word's address (R171). -/
def Env.groupFault (e : Env) (f : LFault) : Out :=
  let g := e.g.setLanes e.g.liveLanes (fun _ x => { x with pc := e.c.pc })
  .next (Env.stop { e with g := { g with bcast := e.c.pc, peerRead := [] } } (e.g.liveLanes.map (fun l => (l, f)))).out
def Env.groupIllegal (e : Env) : Out := e.groupFault (lf 0x15 e.words false)

/-! Faults that reach lanes between issues. -/

/-- Faults that reach lanes of a group between issues (R76, R117, R123, R124): the unit stops; a lane stands at the word given, or where it is. An access past an incomplete fence has the fence's counter, and the lane's held stores are discarded (R115). -/
def WorkUnit.laneFaults (u : WorkUnit) (cycle grp : Nat) (word : Option (Nat × Nat)) (fs : List (Nat × LFault)) : WorkUnit :=
  match u.group grp with
  | none => u
  | some g =>
    let fs := fs.filter (fun p => (g.lane p.1).st.live && !((u.faulted grp).contains p.1))
    if fs.isEmpty then u else
    let past (l : Nat) : Option Fence := g.fences.find? (fun k => k.lanes.contains l && word.all (fun w => decide (k.seq < w.2)))
    let stand (l : Nat) : Nat := match word with | some w => w.1 | none => (g.lane l).pc
    let ctr (l : Nat) : Nat := match past l with | some k => k.ctr | none => (g.lane l).rctr
    let rec_ (l : Nat) (f : LFault) : FaultRec :=
      { grp := grp, lane := l, code := f.code, ss := f.ss, rmt := f.rmt, reason := f.reason, pc := stand l, regc := f.regc.getD (ctr l), addr := f.addr }
    let ls := fs.map (fun p => p.1)
    let g1 := match word with | some w => g.backTo ls w.1 (some w.2) | none => g
    let g2 := g1.setLanes ls (fun l x => { x with st := .priv, pc := stand l })
    let g3 := { g2 with sbuf := g2.sbuf.filter (fun b => !(b.held.isSome && ls.contains b.lane)) }
    { u.setGroup grp g3 with stop := u.stop ++ fs.map (fun p => rec_ p.1 p.2), stopAt := some (u.stopAt.getD cycle) }

/-! Wakes (R288). -/

/-- A woken lane is private; its word completed unless it is re-executed (binding entry) or stands at a group word. A wait for a register ends as its word issues (`Group.due`). -/
def Lane.wake (x : Lane) : Lane :=
  match x.st with
  | .parked .bindingEntry _ _ => { x with st := .priv }
  | .parked .fullEmpty _ _ => x
  | .parked .groupWord _ _ => { x with st := .priv }
  | .parked _ _ succ => { x with st := .priv, pc := succ }
  | _ => x

/-- The number of entries a pattern yields (R237). -/
def patDims (p : List DWord) : Nat := field (p.getD 1 0) 2 2 + 1
def patEntries (p : List DWord) : Nat := ((List.range (patDims p)).map (fun j => field (p.getD (2 + j) 0) 0 32)).foldl (· * ·) 1

/-- The blocked word that a lane stands in. -/
def Group.blockedOf (g : Group) (l : Nat) : Option Blocked := g.blocked.find? (fun b => b.lanes.contains l)

/-- A register can be read now: it is full, or its binding has an entry or none left to give (R42, R44). -/
def Group.readable (g : Group) (l r : Nat) : Bool :=
  if 64 ≤ r then !(g.emptyS (r - 64)) else
  match g.binds.find? (fun b => b.reg == r) with
  | some b => !b.basin.isEmpty || b.pos == patEntries b.pat
  | none => !(g.emptyV l r)

/-- A lane that waits for a register can read it now: it is full, its binding has an entry or none left to give, or the word has popped its entry already; a cross-lane word waits for every register that it reads (R42, R44, R197). -/
def Group.due (g : Group) (l : Nat) : Bool :=
  match (g.lane l).st with
  | .parked .fullEmpty _ r =>
    (match g.blockedOf l with
    | none => g.readable l r
    | some b => if b.whole.isEmpty then b.held.any (fun p => p.1 == r) || g.readable l r else b.whole.all (fun p => g.readable p.1 p.2))
  | _ => false

/-- A v register receives an awaited value and is full; no issue wrote it, so that other lanes see it at once (R197). -/
def Group.fillV (g : Group) (l n : Nat) (w : Word) : Group :=
  { (g.putV l n w).markV l n false with vOld := SMap.put 0 g.vOld (64 * l + n) w }

/-! Stores at their home (R106, R107). -/

/-- The instruction-cache words of one die refreshed where a store of that die changed them (R127). -/
def State.icacheUpdate (s : State) (die : Nat) (keys : List Nat) : State :=
  let d := s.die die
  s.setDie die { d with icache := d.icache.map (fun p => if keys.any (fun k => k / 4 == p.1 / 4 || k / 4 == p.2.key1 / 4) then
    (p.1, { p.2 with w0 := BitVec.ofNat 32 (s.rd p.1 4), w1 := BitVec.ofNat 32 (s.rd p.2.key1 4) }) else p) }

/-- The value of the lattice cell that a threshold wait names. -/
def State.cell (s : State) (t : ThrWait) : Nat := s.rd t.key (cellBytes t.ltype)

/-- A group's parked threshold loads whose cell now meets the threshold return (R95, R51). -/
def State.wakeThrGroup (s : State) (g : Group) : Group :=
  let ready := g.thr.filter (fun t => latLe t.ltype t.thr.toNat (s.cell t))
  if ready.isEmpty then g else
  let g1 := ready.foldl (fun (g : Group) t =>
    let c := s.cell t
    let g := if cellBytes t.ltype = 4 then g.fillV t.lane t.dest (BitVec.ofNat 32 c)
             else (g.fillV t.lane t.dest (BitVec.ofNat 32 c)).fillV t.lane (t.dest + 1) (BitVec.ofNat 32 (c / 2 ^ 32))
    g.setLane t.lane (g.lane t.lane).wake) g
  { g1 with thr := g.thr.filter (fun t => !(latLe t.ltype t.thr.toNat (s.cell t))) }

/-- A saved unit meets a wake: it is runnable, and its barge stands at the head of its priority (R299); one in service is so at its return (R345). -/
def State.rouse (s : State) (uid : Nat) : State :=
  match s.unit? uid with
  | none => s
  | some u =>
    if !u.stop.isEmpty || u.runnable then s else
    let first (q : List Barge) : List Barge := q.filter (fun b => b.uid == uid) ++ q.filter (fun b => b.uid != uid)
    { s.setUnit { u with runnable := true } with cores := s.cores.map (fun p => (p.1, { p.2 with queue := first p.2.queue })) }

/-- Re-test of every threshold wait at a change of memory (R95); a saved unit with a wake is runnable (R299). -/
def State.wakeThresholds (s : State) : State :=
  let meets (u : WorkUnit) : Bool := u.groups.any (fun g => g.thr.any (fun t => latLe t.ltype t.thr.toNat (s.cell t)))
  let s1 : State := { s with units := s.units.map (fun p => if p.2.res == .resident && meets p.2 then (p.1, { p.2 with groups := p.2.groups.map s.wakeThrGroup }) else p) }
  ((s.units.filter (fun p => p.2.res != .resident && meets p.2)).map (·.1)).foldl State.rouse s1

/-- Lanes with a line read past an incomplete fence that an update has reached, whoever made it (R114). -/
def Group.hitFences (g : Group) (lines : List Nat) : Group :=
  { g with fences := g.fences.map (fun f => { f with hit := f.hit ++ (f.lanes.filter (fun l => !(f.hit.contains l) && f.lines.any (fun p => p.1 == l && lines.contains p.2))) }) }
def State.hitFences (s : State) (keys : List Nat) : State :=
  let lines := linesOf keys
  { s with units := s.units.map (fun p => (p.1, { p.2 with groups := p.2.groups.map (fun g => g.hitFences lines) })) }

/-! Circular buffers (R80, R81). -/

/-- One acquire step on a header's two words: the slot's offset and the new word 1, or nothing where it must wait. -/
def cbTake (consumer : Bool) (w0 w1 : Nat) : Option (Nat × Nat) :=
  let lo := if consumer then 18 else 27
  let ix := if consumer then 0 else 8
  if bits w1 lo 9 = 0 then none else
  let i := bits w1 ix 8
  some (bits w0 28 20 + i * 2 ^ bits w0 24 4, w1 - 2 ^ lo - i * 2 ^ ix + (i + 1) % bits w0 0 9 * 2 ^ ix)

/-- One release step: the new word 1, or nothing where free + filled + 1 exceeds the slots. -/
def cbGive (consumer : Bool) (w0 w1 : Nat) : Option Nat :=
  if bits w0 0 9 < bits w1 27 9 + bits w1 18 9 + 1 then none else some (w1 + (if consumer then 2 ^ 27 else 2 ^ 18))

/-- A group's outstanding acquires performed in issue order while the first can be (R229). -/
def State.cbPoll : Nat → State → Group → State × Group
  | 0, s, g => (s, g)
  | n + 1, s, g =>
    match g.acqs with
    | [] => (s, g)
    | a :: rest =>
      match cbTake a.consumer (s.rd8 a.key) (s.rd8 (a.key + 8)) with
      | none => (s, g)
      | some (off, w1) =>
        let g1 := a.lanes.foldl (fun (g : Group) l => g.fillV l a.dest (BitVec.ofNat 32 off)) { g with acqs := rest }
        State.cbPoll n (s.wr8 (a.key + 8) w1) g1

/-- The group's oldest acquire waits for one of the given bytes. -/
def Group.acquires (g : Group) (keys : List Nat) : Bool :=
  match g.acqs with
  | [] => false
  | a :: _ => keys.any (fun k => decide (a.key ≤ k ∧ k < a.key + 16))

/-- One unit's acquires that a change of the given bytes may let go; a saved unit of which one can be performed is runnable (R299). -/
def State.cbWakeUnit (keys : List Nat) (s : State) (uid : Nat) : State :=
  match s.unit? uid with
  | none => s
  | some u =>
    if u.res != .resident then
      (if u.groups.any (fun g => g.acquires keys && (match g.acqs with
          | a :: _ => (cbTake a.consumer (s.rd8 a.key) (s.rd8 (a.key + 8))).isSome
          | [] => false)) then s.rouse uid else s)
    else (List.range u.groups.length).foldl (fun (s : State) i =>
      match (s.unit? uid).bind (fun u => (u.group i).map (fun g => (u, g))) with
      | none => s
      | some (u, g) => if g.acquires keys then (let r := s.cbPoll g.acqs.length g; r.1.setUnit (u.setGroup i r.2)) else s) s

/-- The acquires that a change of the given bytes may let go (R81). DESIGN CHOICE (log 67): of several that wait on one header, units and groups in ascending order, before an engine's. -/
def State.cbWake (s : State) (keys : List Nat) : State := (s.units.map (·.1)).foldl (State.cbWakeUnit keys) s

/-- Descriptors that lie among written bytes are rewritten: what a warm restart of a host port cut off is attached again (R354). -/
def State.reattach (s : State) (keys : List Nat) : State :=
  { s with detached := s.detached.filter (fun p => !(keys.any (fun k => k / 32 == p % 2 ^ 52 / 32))) }

/-! Levels (R24, R296, R297). -/

/-- The merged status: the larger result, the flags ORed (R297). -/
def mergeStatus (a b : Nat) : Nat := max (a / 64) (b / 64) * 64 + ((a % 32) ||| (b % 32))

/-- The physical address of a level record. -/
def State.levelAddr (s : State) (i : Nat) : Nat := field s.lvltab 0 52 + 32 * i

/-- Whether a level record is running and well formed (R296). -/
def State.levelRunning (s : State) (i : Nat) : Bool :=
  let w := s.rd8 (s.levelAddr i + 8)
  bits w 36 2 == 1 && bits w 8 28 == 0 && decide (1 ≤ bits w 38 2) && s.rd8 (s.levelAddr i + 16) == 0 && s.rd8 (s.levelAddr i + 24) == 0

/-- Whether a level record is running or complete and well formed. -/
def State.levelStands (s : State) (i : Nat) : Bool :=
  let w := s.rd8 (s.levelAddr i + 8)
  (bits w 36 2 == 1 || bits w 36 2 == 2) && bits w 8 28 == 0 && decide (1 ≤ bits w 38 2) && s.rd8 (s.levelAddr i + 16) == 0 && s.rd8 (s.levelAddr i + 24) == 0

/-- A level record with a nonzero RZ bit, which is treated as free and reported (R296). -/
def State.levelStray (s : State) (i : Nat) : Bool :=
  bits (s.rd8 (s.levelAddr i + 8)) 8 28 != 0 || s.rd8 (s.levelAddr i + 16) != 0 || s.rd8 (s.levelAddr i + 24) != 0

/-- A member of a level completes with a status: the counter drops, the status merges, and at 0 the level completes and its parent follows (R24). The chain graph, phase, job has three levels. A record that is not running counts nothing; a malformed one is reported (R296). -/
def State.memberDone : Nat → Nat → Nat → State → State
  | 0, _, _, s => s
  | fuel + 1, i, status, s =>
    if i = 0xFFFFFF then s else
    if !(s.levelRunning i) then (if s.levelStray i then s.report 296 i else s) else
    let a := s.levelAddr i
    let w := s.rd8 (a + 8)
    let n := s.rd8 a - 1
    let st := mergeStatus (w % 256) status
    let w1 := w / 256 * 256 + st
    if n = 0 then State.memberDone fuel (bits w 40 24) st ((s.wr8 a 0).wr8 (a + 8) (w1 + 2 ^ 36))
    else (s.wr8 a n).wr8 (a + 8) w1

/-- The bits of a table byte that a write leaves as they are, RO in the maps (R5): of a mailbox entry its state, pend, got and rec (R292); of a level record that is running or complete its status (R296). Where ZS_MBXTAB is 0, as at reset, the entries that stand, bound or draining, are the table's (log 69). -/
def State.readOnly (s : State) (k : Nat) : Nat :=
  let m := field s.mbxtab 0 52
  let l := field s.lvltab 0 52
  let o := (k - m) % 32
  if m ≤ k ∧ k < m + 2 ^ 15 ∧ (m ≠ 0 ∨ s.rd8 (m + (k - m) / 32 * 32) / 2 ^ 62 % 3 ≠ 0) then (if o = 0 ∨ o = 4 ∨ 24 ≤ o then 0xFF else if o = 7 then 0xC0 else 0)
  else if l ≤ k ∧ k < l + 2 ^ 29 ∧ (k - l) % 32 = 8 ∧ s.levelStands ((k - l) / 32) then 0xFF else 0

/-- A byte as a write leaves it. -/
def State.kept (s : State) (k : Nat) (b : Byte) : Byte :=
  let r := BitVec.ofNat 8 (s.readOnly k)
  if r = 0 then b else (Memory.read s.mem k &&& r) ||| (b &&& ~~~r)

/-- The level records that a write of the given bytes touches. -/
def State.levelsAt (s : State) (keys : List Nat) : List Nat :=
  let l := field s.lvltab 0 52
  ((keys.filter (fun k => decide (l ≤ k ∧ k < l + 2 ^ 29))).map (fun k => (k - l) / 32)).eraseDups

/-- A level that starts with no members completes (R24): one that was not running in `s0` and runs now. -/
def State.levelStarts (s0 : State) (s : State) (i : Nat) : State :=
  let a := s.levelAddr i
  let w := s.rd8 (a + 8)
  if s.levelRunning i && !(s0.levelRunning i) && s.rd8 a == 0 then State.memberDone 8 (bits w 40 24) (w % 256) (s.wr8 (a + 8) (w + 2 ^ 36)) else s

/-- The exchange of the segments that satisfy a test is over: a segment that takes the number begins its own at round 0 (R97, R99). -/
def State.noFerry (s : State) (hit : Nat → Nat → Bool) : State :=
  { s with ferries := s.ferries.filter (fun f => !(hit f.ctx f.seg)), chunks := s.chunks.filter (fun c => !(hit c.ctx c.seg)) }

/-- The numbers that satisfy a test are released: the images whose linkage copies they named export nothing more (R71, R282). -/
def State.noImage (s : State) (hit : Nat → Nat → Bool) : State := { s with imgExports := s.imgExports.filter (fun x => !(hit x.ctx x.lseg)) }

/-- Descriptors that lie among bytes written since `s0`: segments that they create, or end, exchange from round 0 on (R97, R99); numbers that they release export nothing. -/
def State.redescribed (s0 : State) (keys : List Nat) (s : State) : State :=
  let at_ (c n : Nat) : Bool := keys.any (fun k => k / 32 == s0.descAddr c n / 32)
  (s.noFerry (fun c n => at_ c n && !(s0.descState c n == 1 && s.descState c n == 1))).noImage (fun c n => at_ c n && s.descState c n == 0)

/-- Bytes become visible to every party: memory, the instruction cache of the issuing die, threshold and circular-buffer waits; host copies of their lines are invalidated (R320); descriptors among them are rewritten; levels that start with no members complete. -/
def State.expose (s : State) (die : Nat) (keys : List Nat) (bytes : List Byte) : State :=
  let s0 : State := { s.reattach keys with mem := Memory.writeAll s.mem keys ((keys.zip bytes).map (fun p => s.kept p.1 p.2)),
                                           hostLines := s.hostLines.filter (fun p => !(keys.any (fun k => k / 128 == p.1 % 2 ^ 45))) }
  let s1 := s.redescribed keys s0
  (s.levelsAt keys).foldl s.levelStarts (((s1.icacheUpdate die keys).wakeThresholds).cbWake keys)

/-- A join into one cell at its home (R93). -/
def State.joinCell (s : State) (die lt : Nat) (keys : List Nat) (v : Nat) : State :=
  let c := leNat (keys.map (Memory.read s.mem))
  s.expose die keys (leBytes (cellBytes lt) (latJoin lt c v))

/-- The keys in every present die of a byte of a replicated page (R121); no party can read the replica of a die under warm reset, and the copy of R319 leaves it as if it had taken every update. -/
def State.replicaKeys (s : State) (k : Nat) : List Nat :=
  s.presentDies.map (fun d => d * 2 ^ 40 + k % 2 ^ 40)

/-- Where the bytes of a store land: on every serving die for a replicated page (R121). -/
def State.landing (s : State) (repl : Bool) (keys : List Nat) (bytes : List Byte) : List Nat × List Byte :=
  if repl then (keys.flatMap s.replicaKeys, bytes.flatMap (fun x => List.replicate (s.replicaKeys 0).length x)) else (keys, bytes)

/-! Scope records (R103, R116, R117). -/

/-- The instance of a scope that a lane stands in, as a number. -/
def scopeInst (scope : Nat) (u : WorkUnit) (grp lane : Nat) : Nat :=
  match scope with
  | 0 => (u.uid * 16 + grp) * 64 + lane
  | 1 => u.uid * 16 + grp
  | 2 => u.uid
  | 3 => u.core
  | 4 => u.core / 80
  | _ => 0

/-- The scope record of a line. -/
def State.scopeOf (s : State) (line : Nat) : Option ScopeRec := (AMap.get? s.dir line).bind (·.scope)

/-- The test of R117: false where it fails. -/
def State.scopeOk (s : State) (u : WorkUnit) (grp lane scope : Nat) (line : Nat) : Bool :=
  match s.scopeOf line with
  | none => true
  | some r => decide (r.scope ≤ scope) || scopeInst r.scope u grp lane == r.inst

/-- A line's entry leaves its directory: every copy is invalidated, and the scope record is none (R318). -/
def State.evictLine (s : State) (line : Nat) : State := { s with dir := AMap.erase s.dir line }.hitFences [128 * line]

/-- An update of a line is on its way to the line's sharers (R107). -/
def State.updating (s : State) (line : Nat) : Bool :=
  s.pend.any (fun p => (s.landing p.repl p.keys p.bytes).1.any (fun k => k / 128 == line))

/-- A directory of 65,536 entries a slice takes one more (R318): a full one gives up its lowest line with no update on its way. DEDUCED (log 79): a line's slice goes by its physical line. -/
def State.makeRoom (s : State) (line home : Nat) : State :=
  if s.dir.length < 65536 || decide (4 ≤ home) then s else
  let n := (s.die home).slices
  let mine := s.dir.filter (fun p => p.2.home == home && p.1 % n == line % n)
  if mine.length < 65536 then s else
  match mine.find? (fun p => !(s.updating p.1)) with
  | some p => s.evictLine p.1
  | none => s

/-- A line's directory entry, made where there is none. -/
def State.entryFor (s : State) (line home : Nat) : State × DirEntry :=
  match AMap.get? s.dir line with
  | some e => (s, e)
  | none => (s.makeRoom line home, ⟨home, [], [], none⟩)

/-- The record set by a performed acquire or release (R116). -/
def State.setScope (s : State) (rec_ : Nat × Nat) (scope inst : Nat) : State :=
  let t := s.entryFor rec_.1 rec_.2
  { t.1 with dir := AMap.set t.1.dir rec_.1 { t.2 with scope := some ⟨scope, inst⟩ } }

/-! Linkage entries (R61, R62). -/

/-- A linkage entry through a checked access of its words. -/
def Acc.entry (s : State) (a : Acc) : LinkEntry :=
  let k := a.keys.headD 0
  let repl := a.g.kind == .repl
  { key := if repl then s.presentDies.headD 0 * 2 ^ 40 + k % 2 ^ 40 else k, repl := repl, off := a.off, die := s.homeDie a.g a.off, line := a.recs.headD (0, 0) }

/-- Where a word of an entry stands: in every replica of a replicated copy (R121). -/
def LinkEntry.keysAt (s : State) (e : LinkEntry) (off : Nat) : List Nat := if e.repl then s.replicaKeys (e.key + off) else [e.key + off]

/-- A word of an entry is written at its home, in one step; lanes past fences that read the line are told. -/
def State.wrEntry (s : State) (e : LinkEntry) (off v : Nat) : State := ((e.keysAt s off).foldl (fun (s : State) k => s.wr8 k v) s).hitFences (e.keysAt s off)

/-- The step that leaves a state of an entry in word 0. -/
def State.entryState (s : State) (e : LinkEntry) (st : Nat) : State := s.wrEntry e 0 (s.rd8 e.key % 2 ^ 62 + st * 2 ^ 62)

/-- Bytes [a, a + n) read as zero; their lines have no directory entry (R116, R325). -/
def State.zeroRange (s : State) (a n : Nat) : State :=
  { s with mem := Memory.clear s.mem a n, hostLines := unhost s.hostLines a n, dir := s.dir.filter (fun p => !(decide (a / 128 ≤ p.1 ∧ p.1 < (a + n + 127) / 128))) }

/-- A core's L1 takes a line (R318): the home records the core where it is the home die's, else the core's die, whose L2 records the core. -/
def DirEntry.with_ (e : DirEntry) (core : Nat) : DirEntry :=
  if e.home = core / 80 then { e with l1 := if e.l1.contains core then e.l1 else e.l1 ++ [core] } else
  let cs := ((e.l2.find? (fun p => p.1 == core / 80)).map (·.2)).getD []
  { e with l2 := e.l2.filter (fun p => p.1 != core / 80) ++ [(core / 80, if cs.contains core then cs else cs ++ [core])] }

/-- The cores whose L1 holds a line. -/
def DirEntry.cores (e : DirEntry) : List Nat := e.l1 ++ e.l2.flatMap (·.2)

/-- Without copies and without a scope record. -/
def DirEntry.idle (e : DirEntry) : Bool := e.l1.isEmpty && e.l2.isEmpty && e.scope.isNone

/-- A core recorded as a sharer of lines (R318); a line of a host-owned frame is not cached (R320). -/
def State.share (s : State) (core : Nat) (lines : List (Nat × Nat)) : State :=
  lines.foldl (fun s p =>
    let t := s.entryFor p.1 p.2
    if t.2.cores.contains core || SMap.get false s.bias (p.1 / 512) then s else { t.1 with dir := AMap.set t.1.dir p.1 (t.2.with_ core) }) s

/-- The lines that an access leaves in a core's L1, with their homes (R74, R85). -/
def Acc.cached (a : Acc) : List (Nat × Nat) := if a.g.kind.uncached then [] else (linesOf a.keys).map (fun n => (n, lineHome a.g n))

/-- A directory without copies that a test names; entries left with nothing go. -/
def dirWithout (d : AMap DirEntry) (core : Nat → Bool) (die : Nat → Bool) (line : Nat → Bool) : AMap DirEntry :=
  let less (e : DirEntry) : DirEntry :=
    { e with l1 := e.l1.filter (fun c => !(core c)), l2 := (e.l2.filter (fun q => !(die q.1))).map (fun q => (q.1, q.2.filter (fun c => !(core c)))) }
  (d.map (fun p => if line p.1 then (p.1, less p.2) else p)).filter (fun p => !p.2.idle)

/-- A core's L1, or with none a die's L2 and the L1s above it, evicts a line and tells the home (R318); a line that a lane has read past an incomplete fence is held (R113), and one on its way to be updated as well. -/
def State.dropCopy (s : State) (line die : Nat) (core : Option Nat) : State :=
  let who (c : Nat) : Bool := match core with | some k => c == k | none => c / 80 == die
  if s.updating line || s.units.any (fun p => who p.2.core && p.2.groups.any (fun g => g.fences.any (fun f => f.lines.any (fun q => q.2 == line)))) then s else
  { s with dir := dirWithout s.dir who (fun d => core.isNone && d == die) (· == line) }

/-- A core's L1 holds a pending update and acknowledges it (R107, R318). -/
def State.ackUpdate (s : State) (j core : Nat) : State :=
  match s.pend[j]? with
  | some p => { s with pend := s.pend.set j { p with unacked := p.unacked.erase core } }
  | none => s

/-- The cores whose L1s must acknowledge an update of keys (R107). -/
def State.sharersOf (s : State) (keys : List Nat) : List Nat :=
  ((linesOf keys).flatMap (fun n => match AMap.get? s.dir n with | some e => e.cores | none => [])).eraseDups

/-- Entries of one translation, whatever index they have. -/
def TlbEntry.like (a b : TlbEntry) : Bool := { a with idx := 0 } == { b with idx := 0 }

/-- The indexes that stores of a die which have not reached their home carry (R316). -/
def State.carried (s : State) (die : Nat) : List Nat :=
  s.units.flatMap (fun p => if p.2.core / 80 = die then p.2.groups.flatMap (fun g => g.sbuf.filterMap (·.tix)) else [])

/-- A translation enters its core's TLB of 64 entries; a full one gives up its oldest (R316, log 45). -/
def State.keepCore (s : State) (e : TlbEntry) : State :=
  let mine := s.tlb.filter (fun x => x.die == e.die && x.core == e.core)
  if s.tlb.contains e then s else { s with tlb := (if mine.length < 64 then s.tlb else s.tlb.erase (mine.headD e)) ++ [e] }

/-- A translation enters its die's TLB of 6,144 entries under an index that no entry has and no store carries; a full one gives up its oldest whose index no store carries, and with none such the translation is not kept (R316, log 45). -/
def State.keepDie (s : State) (e : TlbEntry) : State :=
  if s.tlb.any e.like then s else
  let mine := s.tlb.filter (fun x => x.die == e.die && x.core.isNone)
  let busy := s.carried e.die
  match (List.range 6144).find? (fun n => !(busy.contains n) && !(mine.any (fun x => x.idx == n))) with
  | some n => { s with tlb := s.tlb ++ [{ e with idx := n }] }
  | none =>
    match mine.find? (fun x => !(busy.contains x.idx)) with
    | some x => { s with tlb := s.tlb.erase x ++ [{ e with idx := x.idx }] }
    | none => s

/-- A translation kept by its die. -/
def State.learn (s : State) (t : Option TlbEntry) : State :=
  match t with
  | some e => s.keepDie e
  | none => s

/-- A translation that a core has used, kept by it and by its die (R316). -/
def State.learnAt (s : State) (core : Nat) (t : Option TlbEntry) : State :=
  match t with
  | some e => (s.keepDie e).keepCore { e with core := some core }
  | none => s

/-- The index of the die-TLB entry that translates an access (R125). -/
def State.tlbIndex (s : State) (t : Option TlbEntry) : Option Nat := t.bind (fun e => (s.tlb.find? e.like).map (·.idx))

/-- Mailbox table entry m (R292). -/
def State.mbxAddr (s : State) (m : Nat) : Nat := field s.mbxtab 0 52 + 32 * m
def State.mbxState (s : State) (m : Nat) : Nat := if m < 1024 then bits (s.rd8 (s.mbxAddr m)) 62 2 % 3 else 0
def State.setMbxField (s : State) (m lo n v : Nat) : State :=
  let w := s.rd8 (s.mbxAddr m)
  s.wr8 (s.mbxAddr m) (w - bits w lo n * 2 ^ lo + v * 2 ^ lo)
def State.mbx (s : State) (m : Nat) : Mailbox := SMap.get Mailbox.init s.mailboxes m
def State.setMbx (s : State) (m : Nat) (x : Mailbox) : State := { s with mailboxes := SMap.put Mailbox.init s.mailboxes m x }

/-- A mailbox can take a message: bound, and fewer than 64 firings held, with those that wait at the IOD (R294, R358). -/
def State.mbxRoom (s : State) (m : Nat) : Bool := decide (m < 1024) && s.mbxState m == 1 && decide ((s.mbx m).held.length + (s.mbx m).parked.length < 64)

/-- A mailbox's home die serves, and its message area answers (R350, R358). -/
def State.mbxServes (s : State) (m : Nat) : Bool := (s.die (m / 256)).state == 1 && s.reads (s.rd8 (s.mbxAddr m + 16))

/-- A firing waits at the IOD (R358). -/
def State.park (s : State) (m : Nat) (msg : List Byte) : State := s.setMbx m { s.mbx m with parked := (s.mbx m).parked ++ [msg] }

/-- A firing is held: the message goes into the next slot of the area, pend rises (R294). -/
def State.hold (s : State) (m : Nat) (msg : List Byte) : State :=
  let x := s.mbx m
  let area := s.rd8 (s.mbxAddr m + 16)
  let s1 := { s with mem := Memory.writeAll s.mem (upFrom (area + 256 * x.next) msg.length) msg, hostLines := unhost s.hostLines (area + 256 * x.next) msg.length }
  (s1.setMbx m { x with held := x.held ++ [(x.next, msg.length)], next := (x.next + 1) % 64 }).setMbxField m 32 8 (x.held.length + 1)

/-- A mailbox accepts a firing: it waits at the IOD while the mailbox does not serve, or others wait there (R294, R358). -/
def State.fire (s : State) (m : Nat) (msg : List Byte) : State :=
  if s.mbxServes m && (s.mbx m).parked.isEmpty then s.hold m msg else s.park m msg

/-- Launch l's position in the list. -/
def State.launchOf (s : State) (m seq : Nat) : Option Launch := s.launches.find? (fun l => l.mbx == m && l.seq == seq)
def State.setLaunch (s : State) (x : Launch) : State :=
  { s with launches := s.launches.map (fun l => if l.mbx == x.mbx && l.seq == x.seq then x else l) }

/-- A launch has completed: its graph's counter drops, and its done message is delivered where dn = 1 (R296). DEDUCED (log 61): one that meets a full mailbox is held until there is room. -/
def State.launchDone (s : State) (l : Launch) : State :=
  let s1 := State.memberDone 8 (recGraph l.record) l.status (s.setLaunch { l with left := 0, complete := true })
  let msg := leBytes 8 (recGraph l.record * 2 ^ 40 + l.status)
  let dm := recDmbx l.record
  let s2 :=
    if !(recDn l.record) then s1
    else if s1.mbxRoom dm then s1.fire dm msg
    else if dm < 1024 ∧ s1.mbxState dm = 1 then s1.park dm msg
    else s1
  -- an unbinding mailbox becomes unbound once its launches have completed (R293)
  if s2.mbxState l.mbx = 2 ∧ s2.launches.all (fun k => k.mbx != l.mbx || k.complete) then s2.setMbxField l.mbx 62 2 0 else s2

/-- The cores of a barge leave every queue. -/
def State.dropBarges (s : State) (uid : Nat) : State :=
  { s with cores := (s.cores.map (fun p => (p.1, { p.2 with queue := p.2.queue.filter (fun b => b.uid != uid) }))).filter (fun p => p.2 != Core.init) }

/-- A unit no longer waits for room in its home core's queue. -/
def State.dropPending (s : State) (uid : Nat) : State :=
  let f (p : Nat × Mailbox) : Nat × Mailbox := (p.1, { p.2 with pending := p.2.pending.filter (fun x => x != uid) })
  { s with mailboxes := (s.mailboxes.map f).filter (fun p => p.2 != Mailbox.init) }

/-- A held permit goes back to its sluice (R279). -/
def State.sluiceReturn (s : State) (die n : Nat) : State := let d := s.die die; s.setDie die { d with held := d.held - n }

/-- A unit completes with a status: it leaves its core, its engine contexts and panels, and its launch counts it (R24, R297). -/
def State.unitDone (s : State) (uid status : Nat) : State :=
  match s.unit? uid with
  | none => s
  | some u =>
    if u.res == .done then s else
    let u1 := { u with res := .done, status := status, runnable := false, stop := [], stopAt := none, ops := u.ops.filter (·.begun) }
    let s0 := (s.setUnit u1).dropBarges uid
    let s1 : State := { s0.dropPending uid with slots := s.slots.filter (fun x => x.uid != uid) }
    match s1.launchOf u.mbx u.seq with
    | none => s1
    | some l =>
      let l1 := { l with left := l.left - 1, status := mergeStatus l.status status }
      if l.left ≤ 1 then s1.launchDone l1 else s1.setLaunch l1

/-- The flag words of a unit's groups ORed into its status (R135). -/
def WorkUnit.flags (u : WorkUnit) : Nat := u.groups.foldl (fun a g => a ||| g.sticky) 0

/-- Every group of the unit has no live lane. -/
def WorkUnit.allExited (u : WorkUnit) : Bool := u.groups.all (fun g => g.liveLanes.isEmpty)

/-- A buffered store performed and committed at once, as a drain does (R337). -/
def State.drainStore (s : State) (die : Nat) (b : BufStore) : State :=
  let t := s.landing b.repl b.keys b.bytes
  s.expose die t.1 t.2

/-! Barriers and convergence sets (R46, R228). -/

/-- The live (group, lane) pairs of the groups in a mask. -/
def WorkUnit.members (u : WorkUnit) (mask : Nat) : List (Nat × Nat) :=
  (List.range u.groups.length).flatMap (fun i => if bitAt mask i then (match u.group i with | some g => g.liveLanes.map (fun l => (i, l)) | none => []) else [])

/-- The lanes that arrive in a barrier's next phase: their BAR.ARRIVE waits for the end of this one (R228). -/
def WorkUnit.barNext (u : WorkUnit) (n : Nat) : List (Nat × Nat) :=
  u.groups.zipIdx.flatMap (fun p => (p.1.which (fun x => match x.st with | .parked .barrier a _ => a == 16 + n | _ => false)).map (fun l => (p.2, l)))

/-- A barrier's phase completes if every member has arrived: the lanes parked at it return (R228). -/
def WorkUnit.barrierEnd (u : WorkUnit) (n : Nat) : WorkUnit :=
  let b := u.bars.getD n ⟨0, []⟩
  let ms := u.members 0xFFFF
  if b.arrived.isEmpty || !(ms.all b.arrived.contains) then u else
  { u with bars := u.bars.set n ⟨b.phase + 1, u.barNext n⟩,
           groups := u.groups.map (fun g => { g with lanes := g.lanes.map (fun x => match x.st with
             | .parked .barrier a _ => if a % 16 = n then x.wake else x
             | _ => x) }) }

/-- As barrierEnd, where the arrivals that waited for the end may complete the next phase as well. -/
def WorkUnit.barrierTest (u : WorkUnit) (n : Nat) : WorkUnit := (u.barrierEnd n).barrierEnd n

end Sys2Proof.Machine
end

