-- ==== Sys2Proof/Machine/Flags.lean ====
section
/-! DEFINITION. The sticky flag word (R135) and the group condition state (R267, R206). -/

namespace Sys2Proof.Machine

/-- Sticky flags are only ever set (R135). -/
def Group.raise (g : Group) (fl : Nat) : Group := { g with sticky := (g.sticky ||| fl) % 32 }

/-- Flags set in every group of a declared set (R135). -/
def WorkUnit.raiseIn (u : WorkUnit) (mask fl : Nat) : WorkUnit :=
  { u with groups := (List.range u.groups.length).filterMap (fun i => (u.groups[i]?).map (fun g => if bitAt mask i then g.raise fl else g)) }

/-- The empty flag of the condition state (R206). -/
def Group.setEmp (g : Group) (b : Bool) : Group := { g with cond := { g.cond with emp := b } }

/-- SCMP's three comparison bits (R267): compare type 0 i64, 1 n64, 2 i32, 3 n32. -/
def Group.compare (g : Group) (ty a b : Nat) : Group :=
  let n := if ty < 2 then 64 else 32
  let t : IntTy := ⟨n, ty % 2 == 0⟩
  { g with cond := { g.cond with eq := low n a == low n b, lt := decide (t.val a < t.val b), ltn := decide (low n a < low n b) } }

/-- A condition code on the group condition state (R167, R267). -/
def Cond.holds (c : Cond) (code : Nat) : Bool :=
  match code with
  | 0 => true
  | 1 => c.eq
  | 2 => !c.eq
  | 3 => c.lt
  | 4 => !c.lt
  | 5 => c.ltn
  | 6 => !c.ltn
  | _ => c.emp

/-- Comparison codes on integers (R162): eq, ne, lt, le, gt, ge. -/
def intCompare (code : Nat) (a b : Int) : Bool :=
  match code with
  | 0 => decide (a = b)
  | 1 => decide (a ≠ b)
  | 2 => decide (a < b)
  | 3 => decide (a ≤ b)
  | 4 => decide (b < a)
  | _ => decide (b ≤ a)

end Sys2Proof.Machine
end

