-- ==== Sys2Proof/Machine/Operands.lean ====
section
/-! DEFINITION. Operands of lane words: extension fields (R159, R160), reading sources through full/empty bits (R44) and stream bindings (R42, R240), per-lane issues and cross-lane issues (R175, R197), memory addresses (R208). -/

namespace Sys2Proof

/-- The extension of a lane word; x = 0 is an all-zero extension (R159). -/
def LW.e (f : LW) : Ext := f.ext.getD { form := 0, fs := 0, c := 0, bs := false, subop := 0, imm := 0 }
/-- x = 1. -/
def LW.x (f : LW) : Bool := f.ext.isSome

/-- imm12, sign-extended. -/
def GW.imm (f : GW) : Int := Machine.toInt 12 (f.b * 64 + f.f6)
/-- The operand word of a GX instruction. -/
def GW.gx (f : GW) : Nat := f.w1.getD 0
def GW.e (f : GW) : Nat := bits f.gx 26 6
def GW.f (f : GW) : Nat := bits f.gx 20 6
def GW.tl (f : GW) : Nat := bits f.gx 17 3
def GW.rz (f : GW) : Nat := bits f.gx 12 5
def GW.gimm (f : GW) : Nat := bits f.gx 0 12

end Sys2Proof

namespace Sys2Proof.Machine

/-- A register that a word reads, or (dst) writes, of a lane: an empty one traps or blocks (R19, R44). -/
structure Src where
  n : Nat
  sreg : Bool
  trap : Bool
  dst : Bool
  deriving DecidableEq, Repr

def Src.v (n : Nat) (trap : Bool) : Src := ⟨n, false, trap, false⟩
def Src.s (n : Nat) (trap : Bool) : Src := ⟨n, true, trap, false⟩
/-- The type of an integer word, or the size of a memory word (R162). -/
def LW.ty (f : LW) : IntTy := intTy f.e.fs
/-- A 64-bit type takes an even pair (R136). -/
def IntTy.wide (t : IntTy) : Bool := t.n == 64

/-- A v register or, for a 64-bit type, the even pair. -/
def srcV (wide : Bool) (n : Nat) (trap : Bool) : List Src := if wide then [.v n trap, .v (n + 1) trap] else [.v n trap]
def dstV (wide : Bool) (n : Nat) : List Src := if wide then [⟨n, false, false, true⟩, ⟨n + 1, false, false, true⟩] else [⟨n, false, false, true⟩]
def dstS (n : Nat) : List Src := [⟨n, true, false, true⟩]

/-- The rules of R237 for a pattern that SPSET, SPBIND or SPLOOP may take. -/
def patOk (p : List DWord) : Bool :=
  field (p.getD 1 0) 4 28 == 0 && p.getD 6 0 == 0 && p.getD 7 0 == 0 &&
    (List.range 4).all (fun j => if j < patDims p then field (p.getD (2 + j) 0) 0 32 != 0 else p.getD (2 + j) 0 == 0)

/-- A group as an issue reads it: popped elements stand for bound registers (R42); bound registers whose basin is empty read as empty, those whose pattern has ended fault. -/
structure View where
  g : Group
  act : List Nat
  pops : List (Nat × List Elem)
  dry : List Nat := []
  ended : List Nat := []
  tlen : Nat := 0
  deriving DecidableEq, Repr

def View.elem (w : View) (l n : Nat) : Option Elem := (w.pops.find? (fun p => p.1 == n)).bind (fun p => p.2[l]?)
def View.v (w : View) (l n : Nat) : Nat := match w.elem l n with | some e => e.val.toNat | none => (w.g.getV l n).toNat
def View.pair (w : View) (l n : Nat) : Nat := w.v l n + w.v l (n + 1) * 2 ^ 32
/-- A lane's register of a given width. -/
def View.reg (w : View) (wide : Bool) (l n : Nat) : Nat := if wide then w.pair l n else w.v l n
/-- What lane k supplies to another (R197): its register as it stands, for a lane outside the active set as the cycle began; nothing where the fill is supplied. -/
def View.from (w : View) (wide : Bool) (l k n : Nat) : Option Nat :=
  if !((w.g.lane k).st.live) then none else
  if (w.pops.any (fun p => p.1 == n)) && k != l then none else
  if w.act.contains k then some (w.reg wide k n) else
  let o (r : Nat) : Nat := (SMap.get (0 : Word) w.g.vOld (64 * k + r)).toNat
  some (if wide then o n + o (n + 1) * 2 ^ 32 else o n)

/-- The header address an awaited acquire was asked at, the argument of its wait (R341). -/
def Group.awaits (g : Group) (l n : Nat) : Nat :=
  match g.acqs.find? (fun a => a.dest == n && a.lanes.contains l) with
  | some a => a.addr
  | none => 0

/-- The key of a register in its group's spill map (R27): a lane's v register, or an s register. -/
def spillKey (l : Nat) (x : Src) : Nat := if x.sreg then 4096 + x.n else 64 * l + x.n
/-- A spill line's offset in segment 0x03: beyond the lane-visible length and the return stack (R45, R55; log 26). -/
def spillAt (tlen : Nat) (sreg : Bool) (n : Nat) : Nat := tlen + 8192 + 128 * (if sreg then 2 + n / 16 else n / 32)
/-- The line of segment 0x03 that a register's spill line is, with the lane whose storage holds it: lane 0's for an s register (log 26). -/
def spillLine (l : Nat) (x : Src) : Nat × Nat := (if x.sreg then 0 else l, (if x.sreg then 2 + x.n / 16 else x.n / 32))

/-- An access to a register that stands in a spill line no page backs: it needs a fill, which fails (R27, R344). The record's address is the spill line's. -/
def Group.unfilled (g : Group) (tlen l : Nat) (x : Src) : Option LFault :=
  if SMap.get false g.spilled (spillKey l x) && g.holes.any (fun h => h.1 == (spillLine l x).1 && h.2 == spillAt tlen x.sreg x.n / 128)
  then some (lf 0x12 (addrOf 3 ((spillAt tlen x.sreg x.n : Nat) : Int)) false) else none

/-- What one source comes to for a lane that must read it: nothing where it can be read. -/
def View.check (w : View) (l : Nat) (x : Src) : Option LaneOut :=
  match if x.sreg || x.dst then none else w.elem l x.n with
  | some e => if e.code = 0 then none else some (.fault { lf e.code e.addr false with rmt := e.code == 0x0D, reason := e.reason })
  | none =>
    if !(x.sreg || x.dst) && w.ended.contains x.n then some (.fault (lf 0x10 x.n false)) else
    if (if x.sreg then w.g.emptyS x.n else w.g.emptyV l x.n || (!x.dst && w.dry.contains x.n)) then
      some (if x.trap then .fault (lf 0x09 (x.n + (if x.sreg then 64 else 0)) false)
            else .wait (w.g.awaits l x.n) (x.n + (if x.sreg then 64 else 0)))
    else (w.g.unfilled w.tlen l x).map .fault

def View.checks (w : View) (l : Nat) (xs : List Src) : Option LaneOut := xs.findSome? (w.check l)

/-- The bindings that a word reads, one entry per register; entries that the issue holds already are not popped again (R42). -/
def Group.bound (g : Group) (held : List (Nat × List Elem)) (xs : List Src) : List Binding :=
  g.binds.filter (fun b => !(held.any (fun p => p.1 == b.reg)) && xs.any (fun x => !x.sreg && !x.dst && x.n == b.reg))
/-- The group as an issue reads it, its bound sources popped (R42). -/
def Env.view (e : Env) (act : List Nat) (xs : List Src) : View :=
  let bs := if act.isEmpty then [] else e.g.bound e.c.held xs
  { g := e.g, act := act, pops := e.c.held ++ bs.filterMap (fun b => if b.pos = patEntries b.pat then none else b.basin.head?.map (fun x => (b.reg, x))),
    dry := (bs.filter (fun b => b.pos != patEntries b.pat && b.basin.isEmpty)).map (·.reg),
    ended := (bs.filter (fun b => b.pos == patEntries b.pat)).map (·.reg), tlen := recTlen e.u.record }

/-- The group after an issue whose active lanes popped: a pop at which a lane faults does not advance (R240), what the issue held has advanced already; the registers accessed are in the group's share (R27). -/
def Group.advance (g : Group) (held : List (Nat × List Elem)) (act : List Nat) (pops : List (Nat × List Elem)) (xs : List Src) : Group :=
  { g with binds := g.binds.map (fun b => match (pops.filter (fun p => !(held.any (fun q => q.1 == p.1)))).find? (fun p => p.1 == b.reg) with
      | some p => if act.any (fun l => (p.2.getD l ⟨0, 0, 0, 0⟩).code != 0) then b else { b with pos := b.pos + 1, basin := b.basin.tail }
      | none => b),
           spilled := g.spilled.filter (fun p => !(act.any (fun l => xs.any (fun x => spillKey l x == p.1)))) }
/-- The issue after its pops, which it holds for lanes that must wait (R42, R44). -/
def Env.popped (e : Env) (w : View) (xs : List Src) : Env := { e with g := e.g.advance e.c.held w.act w.pops xs, c := { e.c with held := w.pops } }

/-- What one lane writes: v registers, mask bits, sticky flags. -/
structure Writes where
  v : List (Nat × Word)
  m : List (Nat × Bool)
  fl : Nat
  deriving DecidableEq, Repr

def Writes.none : Writes := ⟨[], [], 0⟩
/-- A number to a v register or an even pair. -/
def wv (wide : Bool) (d x : Nat) : List (Nat × Word) :=
  if wide then [(d, BitVec.ofNat 32 x), (d + 1, BitVec.ofNat 32 (x / 2 ^ 32))] else [(d, BitVec.ofNat 32 x)]

def Group.apply (g : Group) (l : Nat) (w : Writes) : Group :=
  (w.m.foldl (fun g p => g.putBit p.1 l p.2) (w.v.foldl (fun g p => g.putV l p.1 p.2) g)).raise w.fl

/-- A per-lane issue: guard `gn`, sources and destinations `xs` in the order they are met, and what each lane that reads them computes. -/
def Env.run (e : Env) (gn : Nat) (xs : List Src) (f : View → Nat → Except LFault Writes) : Out :=
  let act := e.guarded gn
  let w := e.view act xs
  let rs := act.map (fun l => (l, match w.checks l xs with
    | some o => (o, Writes.none)
    | none => match f w l with
      | .ok x => (LaneOut.next, x)
      | .error k => (LaneOut.fault k, Writes.none)))
  let e1 := e.popped w xs
  Env.finish { e1 with g := rs.foldl (fun g r => g.apply r.1 r.2.2) e1.g } (e.c.act.map (fun l => (l, match rs.find? (fun r => r.1 == l) with | some r => r.2.1 | none => .next)))

/-- What a blocked or faulting read of a cross-lane word comes to for lane l: its own registers, then those it reads of others. -/
def View.meets (w : View) (xs : List Src) (reads : View → Nat → List (Nat × Src)) (l : Nat) : Option LaneOut :=
  match w.checks l xs with
  | some o => some o
  | none => (reads w l).findSome? (fun p => w.check p.1 p.2)

/-- The registers that lane l's part of a cross-lane word must wait for, as (lane, register). -/
def View.blockedOn (w : View) (xs : List Src) (reads : View → Nat → List (Nat × Src)) (l : Nat) : List (Nat × Nat) :=
  (xs.map (fun x => (l, x)) ++ reads w l).filterMap (fun p => match w.check p.1 p.2 with | some (.wait _ r) => some (p.1, r) | _ => none)

/-- A cross-lane issue whose sources or destinations are not all full blocks as a whole: its lanes park until they are (R44, R197). -/
def Env.wholeWait (e : Env) (ps : List (Nat × Nat)) : Out :=
  Env.finish { e with c := { e.c with whole := ps.eraseDups } }
    (e.c.act.map (fun l => (l, match (ps.find? (fun p => p.1 == l)).orElse (fun _ => ps.head?) with | some p => .wait (e.g.awaits p.1 p.2) p.2 | none => .stay)))

/-- The s register and the empty flag that a cross-lane word sets beside its lanes' registers (R203, R206). -/
def Group.beside (g : Group) (sw : Option (Nat × DWord)) (emp none_ : Bool) : Group :=
  let g1 := match sw with | some p => g.putS p.1 p.2 | none => g
  if emp then g1.setEmp none_ else g1

/-- A cross-lane issue (R175, R197): the sources that pop (`pop`), own sources of each receiving lane, the (lane, register) pairs it reads of others, the s register it writes; a source or destination that is empty blocks the issue, whose lanes park, until it is full; a fault ends it for every lane. -/
def Env.runX (e : Env) (gn : Nat) (pop xs : List Src) (reads : View → Nat → List (Nat × Src)) (f : View → Nat → Writes)
    (sw : View → Option (Nat × DWord)) (emp : Bool) : Out :=
  let act := e.guarded gn
  let w := e.view act pop
  let rs := act.filterMap (fun l => (w.meets xs reads l).map (fun o => (l, o)))
  if rs.any (fun r => r.2.isFault) then
    e.finish (e.c.act.map (fun l => (l, match rs.find? (fun r => r.1 == l) with | some r => (if r.2.isFault then r.2 else .stay) | none => .stay)))
  else
  let waits := act.flatMap (w.blockedOn xs reads) ++ (match sw w with | some p => if e.g.emptyS p.1 then [(0, 64 + p.1)] else [] | none => [])
  if !waits.isEmpty then e.wholeWait waits else
  let e1 := e.popped w xs
  Env.finish { e1 with g := act.foldl (fun g l => g.apply l (f w l)) (e1.g.beside (sw w) emp act.isEmpty) } (e.c.act.map (fun l => (l, .next)))

/-- A group word that reads or writes s registers waits while one of them is empty (R37, R44); one whose spill line nothing backs faults the group (R27, R171). -/
def Env.whenFull (e : Env) (ss : List Nat) (k : Out) : Out :=
  if ss.any e.g.emptyS then e.stall else
  match ss.findSome? (fun n => e.g.unfilled (recTlen e.u.record) 0 (.s n false)) with
  | some f => e.groupFault f
  | none => k

/-- A fault of every lane of the guarded active set. -/
def Env.faultActive (e : Env) (gn : Nat) (f : LFault) : Out :=
  let act := e.guarded gn
  e.finish (e.c.act.map (fun l => (l, if act.contains l then .fault f else .next)))

/-! The b operand (R160, R173). -/

/-- Extension type 0 or 1 as an integer or float word takes it: no stray field, an immediate in b's place only with b, eb and bs 0. -/
def formOk (f : LW) : Bool :=
  (f.e.form == 0 && f.e.imm == 0) || (f.e.form == 1 && f.b == 0 && !f.eb && !f.e.bs)

/-- Even where a pair is named. -/
def evenIf (wide : Bool) (n : Nat) : Bool := !wide || n % 2 == 0

/-- The sources of b. -/
def srcB (f : LW) (wide : Bool) : List Src :=
  if f.e.form = 1 then [] else if f.e.bs then [.s f.b f.eb] else srcV wide f.b f.eb

/-- b's register bits for a lane, without its immediate. -/
def View.bBits (w : View) (f : LW) (wide : Bool) (l : Nat) : Nat :=
  if f.e.bs then (w.g.getS f.b).toNat else w.reg wide l f.b

/-- b as a natural 32-bit count, index or descriptor: the immediate zero-extended (R173). -/
def View.bCount (w : View) (f : LW) (l : Nat) : Nat := if f.e.form = 1 then f.e.imm else low 32 (w.bBits f false l)

/-! Memory operands (R208). -/

/-- Segment and exact offset. -/
structure Addr where
  seg : Nat
  off : Int
  deriving DecidableEq, Repr

def addrNat (a : Addr) : Nat := addrOf a.seg a.off
def ofBase (b : Nat) (x : Int) : Addr := ⟨b / 2 ^ 40 % 2 ^ 24, ((b % 2 ^ 40 : Nat) : Int) + x⟩

/-- The extension types 2 to 4 with their fields as R160 and R208 allow. -/
def memForm (f : LW) (types : List Nat) : Bool :=
  types.contains f.e.form && (match f.e.form with
    | 2 => true
    | 3 => f.b == 0 && !f.eb
    | _ => f.b == 0 && !f.eb && f.a % 2 == 0)

/-- The sources of the address. -/
def memSrcs (f : LW) : List Src :=
  match f.e.form with
  | 2 => [.s f.a f.ea, .v f.b f.eb]
  | 3 => [.s f.a f.ea]
  | _ => srcV true f.a f.ea

/-- The address a lane forms. -/
def View.addr (w : View) (f : LW) (l : Nat) : Addr :=
  let imm := toInt 16 f.e.imm
  match f.e.form with
  | 2 => ofBase (w.g.getS f.a).toNat (((w.v l f.b : Nat) : Int) + imm)
  | 3 => ofBase (w.g.getS f.a).toNat imm
  | _ => ofBase (w.pair l f.a) imm

/-- A format slot's descriptor, nothing where it is malformed (R138, R140). -/
structure Slotd where
  code : Nat
  planes : Nat
  block : Nat
  scale : Nat
  had : Bool
  rnd : Nat
  sat : Bool
  deriving DecidableEq, Repr

def slotOf (w : DWord) : Option Slotd :=
  let code := field w 0 4
  let planes := field w 4 4
  let block := field w 8 2
  let scale := field w 10 3
  let had := field w 13 1
  if field w 17 47 != 0 || decide (0xD ≤ code) || block == 3 || decide (3 ≤ scale) then none else
  if code = 0xC then
    if planes < 2 ∨ 8 < planes ∨ block = 0 ∨ scale = 0 then none
    else some ⟨code, planes, 16 * block, scale, had == 1, field w 14 2, field w 16 1 == 1⟩
  else if planes != 0 || block != 0 || scale != 0 || had != 0 then none
  else some ⟨code, 0, 0, 0, false, field w 14 2, field w 16 1 == 1⟩

def Env.slot (e : Env) (n : Nat) : Option Slotd := slotOf (recSlot e.u.record n)

end Sys2Proof.Machine
end

