-- ==== Sys2Proof/Machine/MemoryOps.lean ====
section
/-! DEFINITION. Lane memory instructions (R208 to R221): loads as outstanding producers, stores into the group's store buffer, lattice accesses at the home. -/

namespace Sys2Proof.Machine

/-- Bytes of a size code (R162, R213). -/
def sizeBytes (fs : Nat) : Nat := (intTy fs).n / 8

/-- Relaxed or acquire (R163): the scope of the acquire, 0 relaxed. -/
def loadOrd (f : LW) : Bool := !f.e.bs
/-- Relaxed or release (R163). -/
def storeOrd (f : LW) : Bool := if f.e.bs then f.e.subop != 0 else f.e.subop == 0

/-- The fault of a failed check, for an address. -/
def badFault (b : Bad) (a ss : Nat) : LFault := { lf b.code a (ss == 1) with report := b.report }

/-! Whose access it is (R214), and what it waits for. -/

/-- An access counts as a lane's own. -/
def Part.of (p : Part) (l : Nat) : Bool := p.lane == l || p.others.contains l
def BufStore.of (b : BufStore) (l : Nat) : Bool := b.lane == l || b.others.contains l
def Posted.of (p : Posted) (l : Nat) : Bool := p.lane == l || p.others.contains l

/-- The scope of an acquire, or of an atomic's release, 0 for none: the lane's later accesses wait for the former (R110), and group scope keeps them after the latter as well (R129). -/
def ProdKind.acquires : ProdKind → Nat
  | .load _ _ q => q
  | .block _ q => q
  | .atomic _ _ _ q _ => q
  | .value _ => 0
  | .tile _ _ => 0

/-- A lane of the list has an acquiring load, or an ordered atomic, outstanding (R110, R129). -/
def Group.loading (g : Group) (ls : List Nat) : Bool := g.inflight.any (fun p => p.kind.acquires != 0 && p.parts.any (fun x => ls.any x.of))

/-- A lane of the list has an acquire outstanding, a circular buffer's among them: its later accesses wait (R110, R229). -/
def Group.acquiring (g : Group) (ls : List Nat) : Bool := g.loading ls || g.acqs.any (fun a => a.lanes.any ls.contains)

/-- A lane's earlier load or atomic of the bytes is outstanding: a lattice access of the lane, or a read within a word's step, waits for it (R92, R106). -/
def Group.reads (g : Group) (l : Nat) (keys : List Nat) : Bool := g.inflight.any (fun p => p.parts.any (fun x => x.of l && x.keys.any keys.contains))

/-- A lane of the list has an incomplete fence (R113). -/
def Group.fenced (g : Group) (ls : List Nat) : Bool := g.fences.any (fun f => f.lanes.any ls.contains)

/-- A lane of the list has a load or an atomic outstanding. -/
def Group.awaiting (g : Group) (ls : List Nat) : Bool := g.inflight.any (fun p => p.parts.any (fun x => ls.any x.of))

/-- The lanes' posted remote stores not acknowledged (R122). -/
def State.postedOf (s : State) (uid grp : Nat) (ls : List Nat) : Bool := s.posted.any (fun p => p.uid == uid && p.grp == grp && ls.any p.of)

/-- What a release needs (R110): the lanes' loads performed, and every store of the group, whose lanes observe one another's, committed. -/
def Env.settled (e : Env) (ls : List Nat) : Bool :=
  !(e.g.awaiting ls) && e.g.sbuf.isEmpty && !(e.s.pend.any (fun p => p.uid == e.u.uid && p.grp == e.c.grp))

/-- A deferred remote fault surfaces (R124). DESIGN CHOICE (log 67): it stays pending after its 0x18 has been taken, so that the operation faults again when it is re-executed. -/
def deferFault (d : Deferred) : LFault := ⟨0x18, d.addr, true, true, d.reason, some d.ctr, false⟩

/-- Replay records held on a core (R336). -/
def State.replayUsed (s : State) (core : Nat) : Nat :=
  (s.units.map (fun p => if p.2.core = core ∧ p.2.res = .resident then
    (p.2.groups.map (fun g => (g.inflight.map (fun x => if x.commit then x.parts.length else 0)).sum)).sum else 0)).sum +
  (s.posted.filter (fun p => (s.unit? p.uid).map (·.core) == some core)).length

/-- The place in program order of the lane's last outstanding atomic of a byte, 0 for none. -/
def Group.lastAtomic (g : Group) (l k : Nat) : Nat :=
  (g.inflight.filter (fun p => p.commit && p.parts.any (fun x => x.of l && x.keys.contains k))).foldl (fun m p => max m p.seq) 0

/-- The newest bytes a load takes from its group's stores: those of the store buffer it may see, then those not yet committed (R107, R113); past an outstanding atomic of its lane on the byte, only what entered the buffer after it (R106, R112). -/
def Env.forward (e : Env) (lane : Nat) (keys : List Nat) : List (Option Byte) :=
  let mine := e.g.sbuf.filter (fun b => b.held.isNone || b.of lane)
  let pend := e.s.pend.filter (fun p => p.uid == e.u.uid && p.grp == e.c.grp)
  let at_ (ks : List Nat) (bs : List Byte) (k : Nat) : Option Byte := ((ks.zip bs).find? (fun p => p.1 == k)).map (·.2)
  keys.map (fun k =>
    let q := e.g.lastAtomic lane k
    match mine.reverse.findSome? (fun b => if q < b.seq then at_ b.keys b.bytes k else none) with
    | some x => some x
    | none => if q = 0 then pend.reverse.findSome? (fun p => at_ p.keys p.bytes k) else none)

/-- The lines that a load of the lanes reads past their incomplete fences, by lane. -/
def Group.newLines (g : Group) (ls keys : List Nat) : List (Nat × Nat) :=
  (ls.filter (fun l => g.fenced [l])).flatMap (fun l => (linesOf keys).map (fun k => (l, k)))

/-- What an access leaves behind: the translation, the sharer, the lines read past an incomplete fence. -/
def Env.touched (e : Env) (ls : List Nat) (a : Acc) (load : Bool) : Env :=
  let s := (e.s.learnAt e.u.core a.tlb).share e.u.core a.cached
  let g := if load && e.g.fenced ls then
      { e.g with fences := e.g.fences.map (fun f => { f with lines := f.lines ++ ((e.g.newLines (ls.filter f.lanes.contains) a.keys).filter (fun k => !(f.lines.contains k))) }) }
    else e.g
  let gone := (e.s.dir.map (·.1)).filter (fun n => !((s.dir.map (·.1)).contains n))
  { e with s := s, u := { e.u with groups := e.u.groups.map (fun g => g.hitFences gone) }, g := g.hitFences gone }

/-- The scope that an ordering has on a segment: lattice accesses are relaxed (R96). -/
def Acc.scope (a : Acc) (scope : Nat) : Nat := if a.g.kind == .lattice then 0 else scope

/-- The scope test of an acquire or release at a checked access (R117); a peer tests its own. -/
def Env.scopeBad (e : Env) (lane scope : Nat) (a : Acc) : Bool :=
  a.scope scope != 0 && a.g.kind != .peer && a.recs.any (fun k => !(e.s.scopeOk e.u e.c.grp lane scope k.1))

/-- One lane's checked access, its fault with the address it formed (R209); a read of a peer over a dead route fails at once (R353). -/
def Env.check (e : Env) (lane : Nat) (r : Req) (scope : Nat) : Except LFault Acc :=
  let ss := if r.wr then 1 else 0
  match e.s.access e.u e.c.grp lane r with
  | .error b => .error (badFault b (addrOf r.seg r.off) ss)
  | .ok a =>
    if a.g.kind == .peer && (r.rd || r.at_) && e.s.routeDead a.g.dev then .error ⟨0x0D, addrOf r.seg r.off, r.wr, true, 0x0E, none, false⟩ else
    if e.scopeBad lane scope a then .error (lf 0x07 (addrOf r.seg r.off) r.wr) else .ok a

/-- A lane's deferred fault at an operation that R122 makes wait: it surfaces once every earlier posted store of the lane has been acknowledged, and names the earliest failure (R124). -/
def Env.deferred (e : Env) (lane : Nat) : Option Deferred := if e.s.postedOf e.u.uid e.c.grp [lane] then none else (e.g.lane lane).defer

/-- The deferred fault that an operation at domain or system scope meets, after its checks (R124, R209). -/
def Env.surfaces (e : Env) (lane scope : Nat) (a : Acc) : Except LFault Acc :=
  match if 6 ≤ a.scope scope then e.deferred lane else none with
  | some d => .error (deferFault d)
  | none => .ok a

/-! An issue of a memory word. -/

/-- A fault met on a source of a store or an atomic: nothing was written (R209). -/
def LaneOut.suppress (ss : Bool) : LaneOut → LaneOut
  | .fault f => .fault { f with ss := f.ss || ss }
  | o => o

/-- What one lane comes to before anything is performed: its sources (`xs`), then its checks. -/
def View.tries {α : Type} (w : View) (ss : Bool) (xs : Nat → List Src) (chk : View → Nat → Except LFault α) (l : Nat) : Except LaneOut α :=
  match w.checks l (xs l) with
  | some o => .error (o.suppress ss)
  | none => match chk w l with
    | .ok a => .ok a
    | .error q => .error (.fault q)

/-- The lanes whose access is performed, with what their checks gave. -/
def passes {α : Type} (rs : List (Nat × Except LaneOut α)) : List (Nat × α) := rs.filterMap (fun r => match r.2 with | .ok a => some (r.1, a) | .error _ => none)

/-- The lanes that are through already. -/
def settles {α : Type} (rs : List (Nat × Except LaneOut α)) : List (Nat × LaneOut) := rs.filterMap (fun r => match r.2 with | .ok _ => none | .error o => some (r.1, o))

/-- One lane's turn of an issue that is taken lane by lane. -/
def View.turn {α : Type} (w : View) (k : View → Env → Nat → α → Env × LaneOut) (r : Env × List (Nat × LaneOut)) (p : Nat × α) : Env × List (Nat × LaneOut) :=
  ((k w r.1 p.1 p.2).1, r.2 ++ [(p.1, (k w r.1 p.1 p.2).2)])

/-- The lanes that completed. -/
def doneOf (outs : List (Nat × LaneOut)) : List Nat := (outs.filter (fun p => p.2.isNext)).map (·.1)

/-- The outcomes of the guarded lanes, and the successor for the others. -/
def Env.all (e : Env) (outs : List (Nat × LaneOut)) : List (Nat × LaneOut) :=
  e.c.act.map (fun l => (l, match outs.find? (fun p => p.1 == l) with | some p => p.2 | none => .next))

/-- A lane issue of memory words (R209, R210): the sources and checks of every lane as the issue begins; what makes the issue wait; then in ascending order each lane's step, which may change the state, the group and its own outcome. -/
def Env.each {α : Type} (e : Env) (gn : Nat) (ss : Bool) (xs : Nat → List Src) (chk : View → Nat → Except LFault α) (waits : View → List (Nat × α) → Bool)
    (k : View → Env → Nat → α → Env × LaneOut) (after : Env → List (Nat × LaneOut) → Env) : Out :=
  let act := e.guarded gn
  let w := e.view act (act.flatMap xs)
  let rs := act.map (fun l => (l, w.tries ss xs chk l))
  if waits w (passes rs) then e.stall else
  let r := (passes rs).foldl (w.turn k) (e.popped w (act.flatMap xs), [])
  (after r.1 r.2).finish (e.all (settles rs ++ r.2))

/-- A lane issue without checks beyond its sources. -/
def Env.eachLane (e : Env) (gn : Nat) (xs : List Src) (k : View → Env → Nat → Env × LaneOut) : Out :=
  e.each gn false (fun _ => xs) (fun _ _ => Except.ok ()) (fun _ _ => false) (fun w e l _ => k w e l) (fun e _ => e)

def memReq (a : Addr) (n align : Nat) (rd wr at_ : Bool) (use : LatUse) : Req :=
  { seg := a.seg, off := a.off, n := n, align := align, rd := rd, wr := wr, at_ := at_, ex := false, use := use }

/-- A producer appended to the group. -/
def Env.produce (e : Env) (p : Producer) : Env := if p.parts.isEmpty then e else { e with g := { e.g with inflight := e.g.inflight ++ [{ p with at_ := e.c.pc, seq := e.g.seq + 1 }] } }

/-- One lane's part of a load. -/
def Env.part (e : Env) (lane : Nat) (dest : RegRef) (a : Acc) (addr : Nat) : Part :=
  { lane := lane, dest := dest, keys := a.keys, fwd := if a.g.kind == .peer then a.keys.map (fun _ => none) else e.forward lane a.keys, x := 0, e := 0, addr := addr,
    peer := if a.g.kind == .peer then some a.g.dev else none, repl := a.g.kind == .repl, recs := a.recs }

/-- The peer that a producer waits for (R123). -/
def Producer.peer (p : Producer) : Option Nat := p.parts.findSome? (·.peer)

/-- Producers of one kind as one. -/
def mergeProds (ps : List Producer) : List Producer :=
  match ps with
  | [] => []
  | p :: _ => if ps.all (fun q => q.kind == p.kind) then [{ p with parts := ps.flatMap (·.parts), deps := ps.flatMap (·.deps) }] else ps

/-- The producers that the lanes of one issue added past the first n0 become one, whose accesses have nothing between them (R210); those that wait for a peer's reply form one for each device (R353), and lanes whose accesses are of different kinds keep their own. -/
def Env.merge (e : Env) (n0 : Nat) : Env :=
  let mine := e.g.inflight.drop n0
  { e with g := { e.g with inflight := e.g.inflight.take n0 ++ ((mine.map (·.peer)).eraseDups).flatMap (fun d => mergeProds (mine.filter (fun p => p.peer == d))), seq := e.g.seq + 1 } }

/-- Waits of a load issue of lanes that read the keys given: an acquire outstanding, too many lines read past the group's incomplete fences (R110, R115). -/
def Env.loadWaits (e : Env) (act keys : List Nat) : Bool :=
  e.g.acquiring act || (e.g.fenced act && decide (64 < ((e.g.fences.flatMap (·.lines) ++ e.g.newLines act keys).map (·.2)).eraseDups.length))

/-- The keys of checked accesses. -/
def keysOf (ps : List (Nat × Acc)) : List Nat := ps.flatMap (fun p => p.2.keys)

/-- One lane's checked load of n bytes into the registers `dests`: they are marked empty and the producer is outstanding (R44, R213). -/
def loadLane (f : LW) (dests : List Nat) (kind : Nat → ProdKind) (w : View) (e : Env) (l : Nat) (acc : Acc) : Env × LaneOut :=
  let e1 := e.touched [l] acc true
  let p := e.part l (.v l f.d) acc (addrNat (w.addr f l))
  ({ e1 with g := dests.foldl (fun g d => g.markV l d true) e1.g }.produce { kind := kind (acc.scope f.e.subop), parts := [p], pc := e.next, commit := false }, .next)
/-- The check of a load's access. -/
def Env.loadCheck (e : Env) (f : LW) (n align : Nat) (w : View) (l : Nat) : Except LFault Acc := e.check l (memReq (w.addr f l) n align true false false .cells) f.e.subop
/-- The registers that a load reads and writes. -/
def loadSrcs (f : LW) (dests : List Nat) : List Src := memSrcs f ++ dests.map (fun d => (⟨d, false, false, true⟩ : Src))

/-- A per-lane load of n bytes into the registers `dests` (LD, LDV); `kind` makes the producer for an acquire scope. -/
def loadWord (f : LW) (n align : Nat) (dests : List Nat) (kind : Nat → ProdKind) (s : State) : Out :=
  s.issue fun e =>
    e.each f.g false (fun _ => loadSrcs f dests) (e.loadCheck f n align) (fun w ps => e.loadWaits w.act (keysOf ps)) (loadLane f dests kind)
      (fun t _ => t.merge e.g.inflight.length)

/-- Fields of LD (R213) and LDV (R215). -/
def ldLegal (f : LW) : Bool := memForm f [2, 3, 4] && loadOrd f && f.e.c == 0 && evenIf (LW.ty f).wide f.d
/-- The word count of LDV and STV (R215). -/
def blockCount (f : LW) : Nat := 2 * 2 ^ f.e.fs
def ldvLegal (f : LW) : Bool := memForm f [2, 3, 4] && loadOrd f && f.e.c == 0 && decide (f.e.fs < 4) && f.d % blockCount f == 0
def ldDests (f : LW) : List Nat := if (LW.ty f).wide then [f.d, f.d + 1] else [f.d]

/-- LD (R213) -/
def execLd (f : LW) (s : State) : Out :=
  s.issue fun e =>
    let t := LW.ty f
    let n := sizeBytes f.e.fs
    if !(ldLegal f) then e.illegal else
    loadWord f n n (ldDests f) (fun q => .load n t.sgn q) s

/-- LDV (R215) -/
def execLdv (f : LW) (s : State) : Out :=
  s.issue fun e =>
    let c := blockCount f
    if !(ldvLegal f) then e.illegal else
    loadWord f (4 * c) (min (4 * c) 16) (upFrom f.d c) (fun q => .block c q) s

/-! Stores. -/

/-- Keys the group stores to, kept while a pattern, a binding or a command may read them late (R43, R119). -/
def Env.wrote (e : Env) (keys : List Nat) : Env :=
  if e.g.sp.isEmpty && e.g.binds.isEmpty && !(e.s.engines.any (fun q => q.2.cmds.any (fun c => c.uid == e.u.uid && c.grp == e.c.grp && !c.done))) then e
  else { e with g := { e.g with wrote := e.g.wrote ++ keys } }

/-- A buffered store of one lane, with the other lanes whose access it is: plain, held past its incomplete fence, or posted to a peer as a commit point (R107, R113, R122). -/
def Env.store (e : Env) (lane : Nat) (others : List Nat) (acc : Acc) (bytes : List Byte) (rel addr : Nat) : Env :=
  let e := (e.touched (lane :: others) acc false).wrote acc.keys
  if acc.g.kind == .peer then
    let p : Posted := { uid := e.u.uid, grp := e.c.grp, lane := lane, dev := acc.g.dev, addr := addr, pa := acc.keys.headD 0, ctr := (e.g.lane lane).rctr, bytes := bytes, others := others, seq := e.g.seq + 1 }
    { e with s := { e.s with posted := e.s.posted ++ [p] }.sendPeer acc.g.dev acc.keys }
  else
    let b : BufStore := { lane := lane, keys := acc.keys, bytes := bytes, held := (e.g.fences.find? (fun k => k.lanes.contains lane)).map (·.ctr), rel := rel,
                          repl := acc.g.kind == .repl, code := acc.g.kind == .code, seq := e.g.seq + 1, at_ := e.c.pc, addr := addr, others := others, recs := acc.recs, tix := e.s.tlbIndex acc.tlb }
    { e with g := { e.g with sbuf := e.g.sbuf ++ [b] } }

/-- A plain ST over whole lattice cells at the home (R91, R94): the state, and the lowest failing cell with whether nothing was written. -/
def State.latticeStore (s : State) (die : Nat) (g : Seg) (seg : Nat) (off : Nat) (keys : List Nat) (bytes : List Byte) : State × Option LFault :=
  let n := cellBytes g.ltype
  let r := (List.range (keys.length / n)).foldl (fun (r : State × List Nat × Bool) i =>
    let ks := (keys.drop (n * i)).take n
    let v := leNat ((bytes.drop (n * i)).take n)
    let c := leNat (ks.map (Memory.read r.1.mem))
    if latLe g.ltype c v then (r.1.expose die ks (leBytes n (if g.ltype = 7 then f32Canon v else v)), r.2.1, true)
    else (r.1, r.2.1 ++ [i], r.2.2)) (s, [], false)
  (r.1, match r.2.1 with | [] => none | i :: _ => some (lf 0x06 (addrOf seg (((off + n * i : Nat) : Int))) (!r.2.2)))

/-- The issue goes on after it changed memory itself at a home: wakes may have reached lanes of its unit and of its own group, and updates other lanes' fences. -/
def Env.changed (e : Env) (s1 : State) (keys : List Nat) : Env :=
  let s2 := s1.hitFences keys
  { e with s := s2, u := { e.u with groups := e.u.groups.zipIdx.map (fun p => (((s2.unit? e.u.uid).bind (fun v => v.group p.2))).getD p.1) }, g := (s2.wakeThrGroup e.g).hitFences (linesOf keys) }

/-- A lattice access at once (R92, R96, R113): it waits for the lane's outstanding accesses of its cells; a store also for the lane's incomplete fence, which would hold it. -/
def Env.cellWaits (e : Env) (store : Bool) (ps : List (Nat × Acc)) : Bool :=
  ps.any (fun p => p.2.g.kind == .lattice && (e.g.reads p.1 p.2.keys || (store && e.g.fenced [p.1])))

/-- Waits of a store issue that makes n stores and whose lanes `ps` pass their checks (R107, R110, R113, R115, R122): a full buffer, too many held stores, an acquire outstanding; a release for the lanes' loads, and at a peer for the group's stores; a posted store for a fence; a release at domain or system scope for the lanes' posted stores. -/
def Env.storeWaits (e : Env) (scope n : Nat) (ps : List (Nat × Acc)) : Bool :=
  let ls := ps.map (·.1)
  let peers := (ps.filter (fun p => p.2.g.kind == .peer)).map (·.1)
  let rels := (ps.filter (fun p => p.2.scope scope != 0)).map (·.1)
  let held := ls.filter (fun l => e.g.fenced [l])
  e.g.acquiring ls || decide (64 < e.g.sbuf.length + n) || e.cellWaits true ps ||
    (!held.isEmpty && decide (32 < (e.g.sbuf.filter (fun b => b.held.isSome)).length + min n held.length)) ||
    (!peers.isEmpty && (e.g.fenced peers || decide (256 < e.s.replayUsed e.u.core + min n peers.length) || (scope != 0 && !(e.settled peers)))) ||
    (!rels.isEmpty && (e.g.awaiting rels || (decide (6 ≤ scope) && e.s.postedOf e.u.uid e.c.grp rels)))

/-- The check of a store's access: `pre`, the checks, a deferred fault. -/
def Env.storeCheck (e : Env) (f : LW) (n align scope : Nat) (pre : View → Nat → Except LFault Unit) (w : View) (l : Nat) : Except LFault Acc :=
  match pre w l with
  | .error q => .error q
  | .ok _ => match e.check l (memReq (w.addr f l) n align false true false .cells) scope with
    | .error q => .error q
    | .ok acc => e.surfaces l scope acc

/-- One lane's checked store of the bytes that `data` gives: into the store buffer, to a peer, or into whole lattice cells at once (R107, R122, R213). -/
def storeLane (f : LW) (scope : Nat) (data : View → Nat → List Byte × Nat) (w : View) (e : Env) (l : Nat) (acc : Acc) : Env × LaneOut :=
  let a := w.addr f l
  let d := data w l
  let e := { e with g := e.g.raise d.2 }
  if acc.g.kind == .lattice then
    let r := e.s.latticeStore e.u.die acc.g a.seg acc.off acc.keys d.1
    ((e.wrote acc.keys).changed r.1 acc.keys, match r.2 with | some q => .fault q | none => .next)
  else (e.store l [] acc d.1 scope (addrNat a), .next)

/-- A posted store of a lane has failed: the lane keeps the earliest failure (R124). -/
def Group.deferTo (g : Group) (p : Posted) (reason : Nat) : Group :=
  g.setLanes (p.lane :: p.others) (fun _ x => { x with defer := match x.defer with
    | some d => some (if p.ctr < d.ctr then ⟨p.ctr, p.addr, reason⟩ else d)
    | none => some ⟨p.ctr, p.addr, reason⟩ })

/-- A store issue has been taken: those posted to a peer make one region entry (R48, R49), and those on a dead route fail at once (R353). DEDUCED (log 78): the entry is made as the store is posted, also for one that fails at its peer. -/
def Env.stored (e : Env) (n0 : Nat) : Env :=
  let new := e.s.posted.drop n0
  let ls := new.flatMap (fun p => p.lane :: p.others)
  if ls.isEmpty then { e with g := { e.g with seq := e.g.seq + 1 } } else
  { e with g := (new.filter (fun p => e.s.routeDead p.dev)).foldl (fun g p => g.deferTo p 0x0E) (e.g.enter ls e.next),
           s := { e.s with posted := e.s.posted.take n0 ++ new.filter (fun p => !(e.s.routeDead p.dev)) } }

/-- A per-lane store of the bytes that `data` gives (ST, STV, TST). -/
def Env.storeIn (e : Env) (f : LW) (n align scope : Nat) (xs : List Src) (pre : View → Nat → Except LFault Unit) (data : View → Nat → List Byte × Nat) : Out :=
  e.each f.g true (fun _ => memSrcs f ++ xs) (e.storeCheck f n align scope pre) (fun _ ps => e.storeWaits scope ps.length ps) (storeLane f scope data)
    (fun t _ => t.stored e.s.posted.length)
def storeWord (f : LW) (n align scope : Nat) (xs : List Src) (pre : View → Nat → Except LFault Unit) (data : View → Nat → List Byte × Nat) (s : State) : Out :=
  s.issue fun e => e.storeIn f n align scope xs pre data

/-- Fields of ST (R213) and STV (R215). -/
def stLegal (f : LW) : Bool := memForm f [2, 3, 4] && storeOrd f && f.e.c == 0 && evenIf (LW.ty f).wide f.d
def stvLegal (f : LW) : Bool := memForm f [2, 3, 4] && storeOrd f && f.e.c == 0 && decide (f.e.fs < 4) && f.d % blockCount f == 0
/-- What ST and STV store for a lane. -/
def stData (f : LW) (w : View) (l : Nat) : List Byte × Nat := (leBytes (sizeBytes f.e.fs) (low (8 * sizeBytes f.e.fs) (w.reg (LW.ty f).wide l f.d)), 0)
def stvData (f : LW) (w : View) (l : Nat) : List Byte × Nat := ((upFrom f.d (blockCount f)).flatMap (fun r => leBytes 4 (w.v l r)), 0)

/-- ST (R213) -/
def execSt (f : LW) (s : State) : Out :=
  s.issue fun e =>
    let t := LW.ty f
    let n := sizeBytes f.e.fs
    if !(stLegal f) then e.illegal else
    storeWord f n n f.e.subop (srcV t.wide f.d false) (fun _ _ => .ok ()) (stData f) s

/-- STV (R215) -/
def execStv (f : LW) (s : State) : Out :=
  s.issue fun e =>
    let c := blockCount f
    if !(stvLegal f) then e.illegal else
    storeWord f (4 * c) (min (4 * c) 16) f.e.subop ((upFrom f.d c).map (fun r => Src.v r false)) (fun _ _ => .ok ()) (stvData f) s

/-! One access per issue (R209, R214). -/

/-- An issue with one access, made by the lowest lane of the active set: sources are read once, the access is checked and may wait, a fault is every lane's. -/
def Env.once {α : Type} (e : Env) (gn : Nat) (ss : Bool) (xs : List Src) (chk : View → Nat → Except LFault α) (waits : List Nat → Nat → α → Bool)
    (k : View → Nat → α → Env × LaneOut) : Out :=
  let act := e.guarded gn
  match act with
  | [] => e.finish (e.c.act.map (fun l => (l, .next)))
  | low :: _ =>
    let w := e.view act []
    match w.tries ss (fun _ => xs) chk low with
    | .error o => e.finish (e.c.act.map (fun l => (l, if act.contains l then o else .next)))
    | .ok a =>
      if waits act low a then e.stall else
      let r := k w low a
      r.1.finish (e.c.act.map (fun l => (l, if act.contains l then r.2 else .next)))

/-- Fields of LDS and STS (R214). -/
def ldsLegal (f : LW) : Bool := memForm f [3] && loadOrd f && f.e.c == 0
def stsLegal (f : LW) : Bool := memForm f [3] && storeOrd f && f.e.c == 0

/-- The one access of LDS into s register d (R214), which counts as every lane's. -/
def ldsStep (f : LW) (e : Env) (w : View) (l : Nat) (acc : Acc) : Env × LaneOut :=
  let e1 := e.touched w.act acc true
  let p := { e.part l (.s f.d) acc (addrNat (w.addr f l)) with others := w.act.filter (· != l) }
  (({ e1 with g := e1.g.markS f.d true }.produce { kind := .load (sizeBytes f.e.fs) (LW.ty f).sgn (acc.scope f.e.subop), parts := [p], pc := e.next, commit := false }).merge e.g.inflight.length, .next)

/-- The one access of STS from s register d (R214), which counts as every lane's. -/
def stsStep (f : LW) (e : Env) (w : View) (l : Nat) (acc : Acc) : Env × LaneOut :=
  let n := sizeBytes f.e.fs
  let a := w.addr f 0
  let bytes := leBytes n (low (8 * n) (e.g.getS f.d).toNat)
  if acc.g.kind == .lattice then
    let r := e.s.latticeStore e.u.die acc.g a.seg acc.off acc.keys bytes
    ((e.wrote acc.keys).changed r.1 acc.keys, match r.2 with | some q => .fault q | none => .next)
  else ((e.store l (w.act.filter (· != l)) acc bytes f.e.subop (addrNat a)).stored e.s.posted.length, .next)

/-- LDS (R214) -/
def execLds (f : LW) (s : State) : Out :=
  s.issue fun e =>
    if !(ldsLegal f) then e.illegal else
    e.once f.g false (memSrcs f ++ dstS f.d) (e.loadCheck f (sizeBytes f.e.fs) (sizeBytes f.e.fs)) (fun act _ acc => e.loadWaits act acc.keys) (ldsStep f e)

/-- STS (R214) -/
def execSts (f : LW) (s : State) : Out :=
  s.issue fun e =>
    if !(stsLegal f) then e.illegal else
    e.once f.g true (memSrcs f ++ [.s f.d false]) (e.storeCheck f (sizeBytes f.e.fs) (sizeBytes f.e.fs) f.e.subop (fun _ _ => .ok ()))
      (fun act _ acc => e.storeWaits f.e.subop 1 (act.map (fun l => (l, acc)))) (stsStep f e)

/-! Reads within an instruction's own step (R238, R257, R264). -/

/-- What such a read comes to. -/
inductive Now where
  /-- it waits; a request to a peer is on its way -/
  | wait (e : Env)
  | fail (f : LFault)
  | got (e : Env) (bytes : List Byte)
  deriving DecidableEq, Repr

/-- What a read within a word's own step, by the lanes given, waits for: their acquires (R110), their outstanding loads and atomics of its bytes (R106), their group's stores and any byte not yet committed (R107). -/
def Env.nowWaits (e : Env) (ls keys : List Nat) : Bool :=
  e.g.acquiring ls || ls.any (fun l => e.g.reads l keys) || !e.g.sbuf.isEmpty || e.s.pend.any (fun p => p.keys.any keys.contains)

/-- Bytes that an instruction reads within its own step, as an access of the lanes given, in their order (R106, R107, R110); a peer's once it has replied (R123). -/
def Env.readNow (e : Env) (ls : List Nat) (acc : Acc) (addr : Nat) : Now :=
  if acc.g.kind == .peer then
    match e.g.peerRead.find? (fun p => p.pc == e.c.pc && p.keys == acc.keys) with
    | some ⟨_, _, _, some (.ok v)⟩ => .got e (leBytes acc.keys.length v)
    | some ⟨_, _, _, some (.failed r)⟩ => .fail ⟨0x0D, addr, false, true, r, none, false⟩
    | some _ => .wait e
    | none =>
      if e.g.acquiring ls || ls.any (fun l => e.g.reads l acc.keys) then .wait e else
      .wait { e with g := { e.g with peerRead := e.g.peerRead ++ [⟨e.c.pc, acc.g.dev, acc.keys, none⟩] },
                             s := e.s.sendPeer acc.g.dev acc.keys }
  else if e.nowWaits ls acc.keys then .wait e
  else .got e (acc.keys.map (Memory.read e.s.mem))

/-! Lattice instructions (R216). -/

/-- The segment that an address names where it is a lattice. -/
def Env.latSeg (e : Env) (a : Addr) : Option Seg := match e.s.unitSeg e.u a.seg with | .ok g => if g.kind == .lattice then some g else none | _ => none

/-- The address of a lane names cells of 8 bytes. -/
def Env.wideCell (e : Env) (w : View) (f : LW) (l : Nat) : Bool := match e.latSeg (w.addr f l) with | some g => cellBytes g.ltype == 8 | none => false

/-- The request of a lattice instruction: one cell of the segment's width; check 7 refuses odd registers for one of 8 bytes. DESIGN CHOICE (log 78): on a segment that is no lattice checks 4 and 5 take 4 bytes. -/
def Env.cellReq (e : Env) (a : Addr) (rd wr : Bool) (regs : List Nat) : Req :=
  let n := match e.latSeg a with | some g => cellBytes g.ltype | none => 4
  { memReq a n n rd wr false .cell with odd := regs.any (fun r => r % 2 == 1) }

/-- The check of one lane's cell. -/
def Env.cellCheck (e : Env) (f : LW) (rd wr : Bool) (regs : List Nat) (w : View) (l : Nat) : Except LFault Acc := e.check l (e.cellReq (w.addr f l) rd wr regs) 0

/-- The sources of a lattice instruction for a lane (R216): the address, then each register, or its pair where the cell has 8 bytes. -/
def Env.cellSrcs (e : Env) (f : LW) (gn : Nat) (rs ds : List Nat) (l : Nat) : List Src :=
  let wide := e.wideCell (e.view (e.guarded gn) (memSrcs f)) f l
  memSrcs f ++ rs.flatMap (fun r => srcV (wide && r % 2 == 0) r false) ++ ds.flatMap (fun r => dstV (wide && r % 2 == 0) r)

/-- Bytes of the cell of an access. -/
def Env.cellNow (e : Env) (acc : Acc) : Nat := leNat (acc.keys.map (Memory.read e.s.mem))

/-- Fields of STJ, LDJ and LDJ.NB (R216). -/
def stjLegal (f : LW) : Bool := memForm f [2, 3, 4] && f.e.fs == 0 && f.e.c == 0 && !f.e.bs && f.e.subop == 0
def ldjLegal (f : LW) (nb : Bool) : Bool := memForm f [2, 3, 4] && f.e.fs == 0 && !f.e.bs && (f.e.subop != 0) == nb

/-- One lane's STJ: the cell becomes the join (R216). -/
def stjLane (f : LW) (w : View) (e : Env) (l : Nat) (acc : Acc) : Env × LaneOut :=
  let e := e.touched [l] acc false
  (e.changed (e.s.joinCell e.u.die acc.g.ltype acc.keys (w.reg (cellBytes acc.g.ltype == 8) l f.d)) acc.keys, .next)

/-- One lane's LDJ: the cell, or a park until it meets the threshold (R216, R95). -/
def ldjLane (f : LW) (w : View) (e : Env) (l : Nat) (acc : Acc) : Env × LaneOut :=
  let wide := cellBytes acc.g.ltype == 8
  let e := e.touched [l] acc true
  let c := e.cellNow acc
  let t := if acc.g.ltype = 7 then f32Canon (w.reg wide l f.e.c) else w.reg wide l f.e.c
  if latLe acc.g.ltype t c then ({ e with g := e.g.apply l ⟨wv wide f.d c, [], 0⟩ }, .next)
  else
    let g := (if wide then e.g.markV l (f.d + 1) true else e.g).markV l f.d true
    ({ e with g := { g with thr := g.thr ++ [{ lane := l, dest := f.d, key := acc.keys.headD 0, ltype := acc.g.ltype, thr := BitVec.ofNat 64 t, seg := acc.g.num }] } },
      .park .thresholdLoad (addrNat (w.addr f l)))

/-- One lane's LDJ.NB: the cell at once, and whether it meets the threshold (R216). -/
def ldjNbLane (f : LW) (w : View) (e : Env) (l : Nat) (acc : Acc) : Env × LaneOut :=
  let wide := cellBytes acc.g.ltype == 8
  let e := e.touched [l] acc true
  let c := e.cellNow acc
  ({ e with g := e.g.apply l ⟨wv wide f.d c, [(f.e.subop, latLe acc.g.ltype (w.reg wide l f.e.c) c)], 0⟩ }, .next)

/-- Waits of STJ: an acquire or a fence of a lane outstanding, an earlier access of the cell, no room for its replay records (R110, R113, R336). -/
def Env.joinWaits (e : Env) (act : List Nat) (ps : List (Nat × Acc)) : Bool :=
  e.g.acquiring act || e.g.fenced act || e.cellWaits true ps || decide (256 < e.s.replayUsed e.u.core + ps.length)

/-- STJ: a join at the local replica, a commit point (R216) -/
def execStj (f : LW) (s : State) : Out :=
  s.issue fun e =>
    if !(stjLegal f) then e.illegal else
    e.each f.g true (e.cellSrcs f f.g [f.d] []) (e.cellCheck f false true [f.d]) (fun w ps => e.joinWaits w.act ps) (stjLane f)
      (fun t outs => { t with g := t.g.enter (doneOf outs) t.next })

/-- Waits of LDJ and LDJ.NB. -/
def Env.ldjWaits (e : Env) (w : View) (ps : List (Nat × Acc)) : Bool := e.loadWaits w.act (keysOf ps) || e.cellWaits false ps

/-- LDJ: returns the cell, or parks on it (R216, R95) -/
def execLdj (f : LW) (s : State) : Out :=
  s.issue fun e =>
    if !(ldjLegal f false) then e.illegal else
    e.each f.g false (e.cellSrcs f f.g [f.e.c] [f.d]) (e.cellCheck f true false [f.d, f.e.c]) e.ldjWaits (ldjLane f) (fun t _ => t)

/-- LDJ.NB: the cell at once, and whether it meets the threshold (R216) -/
def execLdjNb (f : LW) (s : State) : Out :=
  s.issue fun e =>
    if !(ldjLegal f true) then e.illegal else
    e.each f.g false (e.cellSrcs f f.g [f.e.c] [f.d]) (e.cellCheck f true false [f.d, f.e.c]) e.ldjWaits (ldjNbLane f) (fun t _ => t)

/-! Addresses (R217 to R220). -/

/-- Fields of MKA (R217), PREF (R219) and CHKA (R220). -/
def mkaLegal (f : LW) : Bool := memForm f [2, 3] && f.e.fs == 0 && f.e.c == 0 && !f.e.bs && f.e.subop == 0 && f.d % 2 == 0
def prefLegal (f : LW) : Bool := memForm f [2, 3, 4] && f.d == 0 && decide (f.e.fs < 2) && f.e.c == 0 && !f.e.bs && f.e.subop == 0
def chkaLegal (f : LW) : Bool := memForm f [2, 3, 4] && f.e.c == 0 && !f.e.bs && [1, 2, 3, 6, 7].contains f.e.subop

/-- MKA (R217) -/
def execMka (f : LW) (s : State) : Out :=
  s.issue fun e =>
    if !(mkaLegal f) then e.illegal else
    e.run f.g (memSrcs f ++ dstV true f.d) fun w l =>
      let a := w.addr f l
      if a.off < 0 ∨ 2 ^ 40 ≤ a.off then .error (lf 0x02 (addrNat a) false) else .ok ⟨wv true f.d (addrNat a), [], 0⟩

/-- The form of SEGNO and SEGOF (R218). -/
def segForm (f : LW) : Bool :=
  f.b == 0 && !f.ea && !f.eb && f.a % 2 == 0 && f.e.form == 0 && f.e.fs == 0 && f.e.c == 0 && !f.e.bs && f.e.subop == 0 && f.e.imm == 0

/-- SEGNO (R218) -/
def execSegno (f : LW) (s : State) : Out :=
  s.issue fun e =>
    if !(segForm f) then e.illegal else
    e.run f.g (srcV true f.a false ++ dstV false f.d) fun w l => .ok ⟨wv false f.d (w.pair l f.a / 2 ^ 40), [], 0⟩

/-- SEGOF (R218) -/
def execSegof (f : LW) (s : State) : Out :=
  s.issue fun e =>
    if !(segForm f && f.d % 2 == 0) then e.illegal else
    e.run f.g (srcV true f.a false ++ dstV true f.d) fun w l => .ok ⟨wv true f.d (w.pair l f.a % 2 ^ 40), [], 0⟩

/-- PREF: the address registers are read; no access, no fault of R59 (R219) -/
def execPref (f : LW) (s : State) : Out :=
  s.issue fun e =>
    if !(prefLegal f) then e.illegal else
    e.run f.g (memSrcs f) fun _ _ => .ok Writes.none

/-- CHKA: the code of the first of checks 1 to 6 that would fail, or 0 (R220) -/
def execChka (f : LW) (s : State) : Out :=
  s.issue fun e =>
    if !(chkaLegal f) then e.illegal else
    let n := sizeBytes f.e.fs
    e.run f.g (memSrcs f ++ dstV false f.d) fun w l =>
      let r := memReq (w.addr f l) n n (f.e.subop % 2 == 1) (f.e.subop / 2 % 2 == 1) (f.e.subop / 4 == 1) .cells
      .ok ⟨wv false f.d (match e.s.checks16 e.u r with | .error b => b.code | .ok _ => 0), [], 0⟩

/-! Linkage (R66, R221). -/

/-- Fields of LDL (R221). -/
def ldlLegal (f : LW) : Bool :=
  f.e.form == 5 && f.a == 0 && f.b == 0 && !f.ea && !f.eb && f.e.fs == 0 && f.e.c == 0 && !f.e.bs && f.e.subop == 0

/-- The request of LDL: one step at the entry's home (R66). -/
def ldlReq (f : LW) : Req := { memReq ⟨4, ((16 * f.e.imm : Nat) : Int)⟩ 16 16 true false false .cells with atHome := true }

/-- What LDL waits for besides a load's waits: the lanes' outstanding reads and the group's stores of the entry's bytes (R106, R107). -/
def Env.ldlWaits (e : Env) (act keys : List Nat) : Bool :=
  e.loadWaits act keys || act.any (fun l => e.g.reads l keys) || e.g.sbuf.any (fun b => b.keys.any keys.contains) ||
    e.s.pend.any (fun p => p.uid == e.u.uid && p.grp == e.c.grp && p.keys.any keys.contains)

/-- The one step of LDL on the entry (R66), which counts as every lane's (R214). -/
def ldlStep (f : LW) (e : Env) (w : View) (l : Nat) (acc : Acc) : Env × LaneOut :=
  let a : Addr := ⟨4, ((16 * f.e.imm : Nat) : Int)⟩
  let key := acc.keys.headD 0
  let w0 := e.s.rd8 key
  let e1 := e.touched w.act acc true
  if bits w0 48 14 != 0 then (e1, .fault (lf 0x04 (addrNat a) false)) else
  match bits w0 62 2 with
  | 2 =>
    let p : Part := { lane := l, dest := .s f.d, keys := upFrom (key + 8) 8, fwd := (leBytes 8 (e.s.rd8 (key + 8))).map some, x := 0, e := 0, addr := addrNat a, peer := none,
                      others := w.act.filter (· != l), recs := acc.recs }
    (({ e1 with g := e1.g.markS f.d true }.produce { kind := .load 8 false 5, parts := [p], pc := e.next, commit := false }).merge e.g.inflight.length, .next)
  | 1 => (e1, .park .bindingEntry (addrNat a))
  | _ =>
    let s1 := e1.s.entryState (acc.entry e.s) 1
    let b : Binder := { ctx := recCtx e.u.record, entry := acc.entry e.s, uid := e.u.uid, grp := e.c.grp, escalated := false, said := [] }
    ({ e1 with s := { s1 with binders := s1.binders ++ [b] } }, .fault (lf 0x01 (addrNat a) false))

/-- LDL (R66, R221) -/
def execLdl (f : LW) (s : State) : Out :=
  s.issue fun e =>
    if !(ldlLegal f) then e.illegal else
    e.once f.g false (dstS f.d) (fun _ l => e.check l (ldlReq f) 5) (fun act _ acc => e.ldlWaits act acc.keys) (ldlStep f e)

end Sys2Proof.Machine
end

