-- ==== Sys2Proof/Machine/Atomics.lean ====
section
/-! DEFINITION. The atomics (R222 to R225): issued as producers, performed at the home when their value arrives. -/

namespace Sys2Proof.Machine

/-- The ordering of an atomic: any of R163. -/
def atomOrd (f : LW) : Bool := !f.e.bs || f.e.subop != 0

/-- The value an atomic leaves (R222 to R224): old value, operand, expected value; the sticky flags of AMOF. -/
def atomNew (op : AtomOp) (n : Nat) (sgn : Bool) (o x ex : Nat) : Nat × Nat :=
  let t : IntTy := ⟨8 * n, sgn⟩
  match op with
  | .add => (low (8 * n) (o + x), 0)
  | .min => (if t.val o ≤ t.val x then o else x, 0)
  | .max => (if t.val o ≤ t.val x then x else o, 0)
  | .and => (o &&& x, 0)
  | .or => (o ||| x, 0)
  | .xor => (o ^^^ x, 0)
  | .xchg => (x, 0)
  | .join lt => (latJoin lt o x, 0)
  | .cas => (if o = ex then x else o, 0)
  | .fadd fmt => (fmtOf fmt).add 0 o x

/-- The release scope of an atomic, 0 without a release. -/
def atomRel (f : LW) : Nat := if f.e.bs then f.e.subop else 0
/-- The request of an atomic. -/
def atomReq (a : Addr) (n : Nat) (use : LatUse) : Req := { memReq a n n false true true use with wr := true }

/-- Waits of an atomic whose lanes `ps` pass their checks (R110, R113, R225, R336): a store-buffered byte of its own group passes through the buffer first. -/
def Env.atomWaits (e : Env) (f : LW) (ps : List (Nat × Acc)) : Bool :=
  let ls := ps.map (·.1)
  let rels := (ps.filter (fun p => p.2.scope (atomRel f) != 0)).map (·.1)
  e.g.acquiring ls || e.g.fenced ls || decide (256 < e.s.replayUsed e.u.core + ls.length) ||
    (!rels.isEmpty && (!(e.settled rels) || (decide (6 ≤ atomRel f) && e.s.postedOf e.u.uid e.c.grp rels))) ||
    e.g.sbuf.any (fun b => b.keys.any (keysOf ps).contains)

/-- The check of one lane's atomic. -/
def Env.atomCheck (e : Env) (f : LW) (n : Nat) (use : LatUse) (w : View) (l : Nat) : Except LFault Acc :=
  match e.check l (atomReq (w.addr f l) n use) f.e.subop with
  | .error q => .error q
  | .ok acc => e.surfaces l (atomRel f) acc

/-- One lane's checked atomic: its destination empty, its operands kept in the producer that its home performs (R222 to R225). -/
def atomLane (f : LW) (n : Nat) (wide sgn : Bool) (op : Nat → AtomOp) (w : View) (e : Env) (l : Nat) (acc : Acc) : Env × LaneOut :=
  let e1 := e.touched [l] acc false
  let p := { e.part l (.v l f.d) acc (addrNat (w.addr f l)) with
             fwd := acc.keys.map (fun _ => none), x := BitVec.ofNat 64 (low (8 * n) (w.reg wide l f.e.c)), e := BitVec.ofNat 64 (low (8 * n) (w.reg wide l f.d)) }
  let g := if wide then (e1.g.markV l f.d true).markV l (f.d + 1) true else e1.g.markV l f.d true
  ({ e1 with g := g }.produce { kind := .atomic (op acc.g.ltype) n sgn (acc.scope f.e.subop) f.e.bs, parts := [p], pc := e.next, commit := true, deps := [(l, (e.g.lane l).dep)] }, .next)

/-- The registers of an atomic: `exp` reads d as the expected value (R223). -/
def atomSrcs (f : LW) (wide exp : Bool) : List Src :=
  memSrcs f ++ srcV wide f.e.c false ++ (if exp then srcV wide f.d false else []) ++ dstV wide f.d

/-- An atomic word. -/
def atomWord (f : LW) (n : Nat) (wide sgn exp : Bool) (use : LatUse) (op : Nat → AtomOp) (s : State) : Out :=
  s.issue fun e =>
    e.each f.g true (fun _ => atomSrcs f wide exp) (e.atomCheck f n use) (fun _ ps => e.atomWaits f ps) (atomLane f n wide sgn op)
      (fun t _ => t.merge e.g.inflight.length)

/-- Fields of an AMO and of AMOC (R222, R223), and of AMOF (R224). -/
def amoLegal (f : LW) : Bool := memForm f [2, 3, 4] && atomOrd f && decide (f.e.fs < 4) && evenIf (LW.ty f).wide f.d && evenIf (LW.ty f).wide f.e.c
def amofLegal (f : LW) : Bool := memForm f [2, 3, 4] && atomOrd f && [1, 3, 5].contains f.e.fs && evenIf (f.e.fs == 3) f.d && evenIf (f.e.fs == 3) f.e.c

/-- AMO with an integer size (R222). -/
def amoWord (f : LW) (use : LatUse) (exp : Bool) (op : Nat → AtomOp) (s : State) : Out :=
  s.issue fun e =>
    let t := LW.ty f
    if !(amoLegal f) then e.illegal else
    atomWord f (sizeBytes f.e.fs) t.wide t.sgn exp use op s

/-- AMO.add (R222) -/
def execAmoAdd (f : LW) (s : State) : Out := amoWord f .never false (fun _ => .add) s
/-- AMO.min (R222) -/
def execAmoMin (f : LW) (s : State) : Out := amoWord f .never false (fun _ => .min) s
/-- AMO.max (R222) -/
def execAmoMax (f : LW) (s : State) : Out := amoWord f .never false (fun _ => .max) s
/-- AMO.and (R222) -/
def execAmoAnd (f : LW) (s : State) : Out := amoWord f .never false (fun _ => .and) s
/-- AMO.or (R222) -/
def execAmoOr (f : LW) (s : State) : Out := amoWord f .never false (fun _ => .or) s
/-- AMO.xor (R222) -/
def execAmoXor (f : LW) (s : State) : Out := amoWord f .never false (fun _ => .xor) s
/-- AMO.xchg (R222) -/
def execAmoXchg (f : LW) (s : State) : Out := amoWord f .never false (fun _ => .xchg) s
/-- AMO.join: lattice segments only, of the cell's width (R222) -/
def execAmoJoin (f : LW) (s : State) : Out := amoWord f .join false (fun lt => .join lt) s
/-- AMOC: compare and swap, d the expected value (R223) -/
def execAmoc (f : LW) (s : State) : Out := amoWord f .never true (fun _ => .cas) s

/-- AMOF: a floating addition in RNE (R224) -/
def execAmof (f : LW) (s : State) : Out :=
  s.issue fun e =>
    let wide := f.e.fs == 3
    if !(amofLegal f) then e.illegal else
    atomWord f (sizeBytes f.e.fs) wide false false .never (fun _ => .fadd (if f.e.fs = 1 then 0 else if f.e.fs = 3 then 1 else 3)) s

end Sys2Proof.Machine
end

