-- ==== Sys2Proof/Machine/Elementary.lean ====
section
/-! DEFINITION. Correctly rounded 2^x, log2 x, sin 2πx and cos 2πx (R149, R189): an interval around the exact value is narrowed until both ends round alike. -/

namespace Sys2Proof.Machine

/-- An interval of magnitudes: the exact value lies strictly between lo × 2^e and hi × 2^e. -/
structure Ival where
  lo : Nat
  hi : Nat
  e : Int
  deriving DecidableEq, Repr

/-- The precisions tried, in bits; past the last the result is left open (log 9). -/
def precisions : List Nat := [64, 128, 256, 512, 1024, 2048]

/-- Rounds a value known to be irrational from intervals of rising precision. -/
def Fmt.ziv (f : Fmt) (mode : Nat) (neg : Bool) (ival : Nat → Ival) : List Nat → Nat × Nat
  | [] => let i := ival 64; (Config.undecidedRound i.lo i.hi, flInexact)
  | p :: ps =>
    let i := ival p
    if i.lo = 0 ∨ i.hi ≤ i.lo then f.ziv mode neg ival ps else
    let a := f.round mode false neg i.lo i.e true
    let b := f.round mode false neg (i.hi - 1) i.e true
    if a = b then a else f.ziv mode neg ival ps

/-- The product of the roots 2^(2^−i) over the set bits of a fraction, most significant first; `r` is the present root. -/
def exp2Bits (p : Nat) : Nat → Nat → Nat → Nat → Nat
  | 0, _, _, acc => acc
  | k + 1, frac, r, acc => exp2Bits p k frac (isqrt (r * 2 ^ p)) (if bitAt frac k then acc * r / 2 ^ p else acc)

/-- 2^(F / 2^k) for 0 < F < 2^k. -/
def exp2Ival (num k : Nat) (n : Int) (p : Nat) : Ival :=
  let frac := if k ≤ p then num * 2 ^ (p - k) else num / 2 ^ (k - p)
  let lo := exp2Bits p p frac (isqrt (2 * 2 ^ (2 * p))) (2 ^ p)
  ⟨lo, lo + 8 * p + 16, n - (p : Int)⟩

/-- FEXP2 (R189). Integers are exact; a magnitude beyond every exponent rounds like its end of the range. -/
def Fmt.exp2 (f : Fmt) (mode a : Nat) : Nat × Nat :=
  match f.val a with
  | .nan s => (f.nan, if s then flInvalid else 0)
  | .inf true => (0, 0)
  | .inf false => (f.inf false, 0)
  | .fin n m e =>
    if m = 0 then f.round mode false false 1 0 false else
    let big := decide (((f.eb : Int) + 1) ≤ (Nat.log2 m : Int) + e)
    if big then f.round mode false false 1 (if n then -(4 * 2 ^ f.eb : Int) else (4 * 2 ^ f.eb : Int)) true else
    if 0 ≤ e then
      let k : Int := ((m * 2 ^ e.toNat : Nat) : Int)
      f.round mode false false 1 (if n then -k else k) false
    else
      let k := (-e).toNat
      if m % 2 ^ k = 0 then
        let q : Int := ((m / 2 ^ k : Nat) : Int)
        f.round mode false false 1 (if n then -q else q) false
      else
        let fl : Int := if n then -((m / 2 ^ k : Nat) : Int) - 1 else ((m / 2 ^ k : Nat) : Int)
        let num := if n then 2 ^ k - m % 2 ^ k else m % 2 ^ k
        f.ziv mode false (exp2Ival num k fl) precisions

/-- The first p bits of log2 y for y / 2^w in [1, 2), by squaring. -/
def log2Bits (w : Nat) : Nat → Nat → Nat → Nat
  | 0, _, acc => acc
  | p + 1, y, acc =>
    let y2 := y * y / 2 ^ w
    if 2 ^ (w + 1) ≤ y2 then log2Bits w p (y2 / 2) (2 * acc + 1) else log2Bits w p y2 (2 * acc)

/-- FLOG2 (R189). Powers of two are exact. -/
def Fmt.log2 (f : Fmt) (mode a : Nat) : Nat × Nat :=
  match f.val a with
  | .nan s => (f.nan, if s then flInvalid else 0)
  | .inf true => (f.nan, flInvalid)
  | .inf false => (f.inf false, 0)
  | .fin n m e =>
    if m = 0 then (f.inf true, flDivZero) else if n then (f.nan, flInvalid) else
    let l := Nat.log2 m
    let k : Int := (l : Int) + e
    if m = 2 ^ l then f.round mode false (decide (k < 0)) k.natAbs 0 false else
    let ival (p : Nat) : Ival :=
      let w := p + 32
      let b := log2Bits w p (if l ≤ w then m * 2 ^ (w - l) else m / 2 ^ (l - w)) 0
      if 0 ≤ k then ⟨k.toNat * 2 ^ p + b, k.toNat * 2 ^ p + b + 3, -(p : Int)⟩
      else ⟨k.natAbs * 2 ^ p - b - 3, k.natAbs * 2 ^ p - b, -(p : Int)⟩
    f.ziv mode (decide (k < 0)) ival precisions

/-- 2^p × arctan(1/x) by its series: the power 2^p / x^(2i+1), the odd divisor, the sign. -/
def arctanInv (x2 : Nat) : Nat → Nat → Nat → Bool → Int → Int
  | 0, _, _, _, acc => acc
  | k + 1, pw, d, neg, acc => arctanInv x2 k (pw / x2) (d + 2) (!neg) (if neg then acc - ((pw / d : Nat) : Int) else acc + ((pw / d : Nat) : Int))

/-- π × 2^p by Machin's formula, within 2 units. -/
def piAt (p : Nat) : Nat :=
  let w := p + 32
  (4 * (4 * arctanInv 25 w (2 ^ w / 5) 1 false 0 - arctanInv 57121 w (2 ^ w / 239) 1 false 0)).toNat / 2 ^ 32

/-- The alternating series of sine or cosine at θ / 2^p: next term, its index, sign, sum. -/
def trigSeries (p th2 : Nat) : Nat → Nat → Nat → Bool → Int → Int
  | 0, _, _, _, acc => acc
  | k + 1, t, i, neg, acc =>
    trigSeries p th2 k (t * th2 / 2 ^ p / ((i + 1) * (i + 2))) (i + 2) (!neg) (if neg then acc - (t : Int) else acc + (t : Int))

/-- sin (or cos) of (π/2) × t / 2^k, 0 < t < 2^k. -/
def trigIval (cosine : Bool) (t k p : Nat) : Ival :=
  let w := p + 32
  let th := piAt w * t / 2 ^ (k + 1)
  let s := if cosine then trigSeries w (th * th / 2 ^ w) w (2 ^ w) 0 false 0 else trigSeries w (th * th / 2 ^ w) w th 1 false 0
  ⟨(s - ((4 * w + 64 : Nat) : Int)).toNat, (s + ((4 * w + 64 : Nat) : Int)).toNat, -(w : Int)⟩

/-- sin 2πx or cos 2πx in FP32, RNE (R149). -/
def turnFn (cosine : Bool) (a : Nat) : Nat × Nat :=
  match fp32.val a with
  | .nan s => (fp32.nan, if s then flInvalid else 0)
  | .inf _ => (fp32.nan, flInvalid)
  | .fin n m e =>
    let one := 0x3F800000
    let z0 := if cosine then 0 else fp32.signBit n
    if 0 ≤ e ∨ m = 0 then (if cosine then one else z0, 0) else
    let k := (-e).toNat
    let r := m % 2 ^ k                       -- |x| mod 1 = r / 2^k
    let q := 4 * r / 2 ^ k                   -- quadrant
    let t := 4 * r % 2 ^ k                   -- within the quadrant, over 2^k
    if t = 0 then
      (match q, cosine with
        | 0, true => one
        | 2, true => one + 2 ^ 31
        | _, true => 0
        | 1, false => if n then one + 2 ^ 31 else one
        | 3, false => if n then one else one + 2 ^ 31
        | _, false => z0, 0)
    else
      let useCos := if cosine then q % 2 == 0 else q % 2 == 1
      let neg := if cosine then q == 1 || q == 2 else (decide (2 ≤ q)) != n
      fp32.ziv 0 neg (trigIval useCos t k) precisions

end Sys2Proof.Machine
end

