-- ==== Sys2Proof/Machine/FloatOps.lean ====
section
/-! DEFINITION. The floating-point lane instructions (R185 to R190, R149, R150). -/

namespace Sys2Proof.Machine

/-- A BF16 immediate widened exactly to a format (R161). -/
def widenBf16 (fmt w : Nat) : Nat :=
  match fmt with
  | 0 => w * 2 ^ 16
  | 1 =>
    let e := bits w 7 8
    if e = 255 then bits w 15 1 * 2 ^ 63 + 0x7FF * 2 ^ 52 + bits w 0 7 * 2 ^ 45 else (convFloat bf16 fp64 0 false w).1
  | _ => w

/-- Fields of a floating word (R185): types, rounding, an immediate form but for f16, pairs even. -/
def fpLegal (f : LW) (types : List Nat) (rounds imm cSrc : Bool) : Bool :=
  let wide := f.e.fs == 1
  formOk f && types.contains f.e.fs && (if rounds then decide (f.e.subop < 4) else f.e.subop == 0) && (cSrc || f.e.c == 0) &&
    (f.e.form == 0 || (imm && f.e.fs != 2)) && evenIf wide f.d && evenIf wide f.a && (f.e.form == 1 || f.e.bs || evenIf wide f.b) && (!cSrc || evenIf wide f.e.c)

/-- The sources and the destination of a floating word. -/
def fpSrcs (f : LW) (cSrc : Bool) : List Src :=
  srcV (f.e.fs == 1) f.a f.ea ++ srcB f (f.e.fs == 1) ++ (if cSrc then srcV (f.e.fs == 1) f.e.c false else []) ++ dstV (f.e.fs == 1) f.d
/-- Fields of FSCL, whose B is one register (R186). -/
def fsclLegal (f : LW) : Bool :=
  f.e.form == 0 && f.e.imm == 0 && decide (f.e.fs < 4) && decide (f.e.subop < 4) && f.e.c == 0 && evenIf (f.e.fs == 1) f.d && evenIf (f.e.fs == 1) f.a
/-- Fields of FCMP: d numbers a mask (R188). -/
def fcmpLegal (f : LW) : Bool :=
  formOk f && decide (f.e.fs < 4) && decide (f.e.subop < 6) && f.e.c == 0 && decide (1 ≤ f.d ∧ f.d < 8) &&
    (f.e.form == 0 || f.e.fs != 2) && evenIf (f.e.fs == 1) f.a && (f.e.form == 1 || f.e.bs || evenIf (f.e.fs == 1) f.b)
/-- Fields of a floating unary word (R189). -/
def fpUnaryLegal (f : LW) (types : List Nat) (rounds one : Bool) : Bool :=
  f.e.form == 0 && f.e.imm == 0 && types.contains f.e.fs && (if rounds then decide (f.e.subop < 4) else f.e.subop == 0) &&
    f.e.c == 0 && !f.e.bs && !f.eb && evenIf (f.e.fs == 1) f.a && (one || evenIf (f.e.fs == 1) f.d)
def fpUnarySrcs (f : LW) (one : Bool) : List Src := srcV (f.e.fs == 1) f.a f.ea ++ dstV (f.e.fs == 1 && !one) f.d
/-- Fields of SINCOS.T (R189). -/
def sincosLegal (f : LW) : Bool :=
  f.e.form == 0 && f.e.imm == 0 && f.e.fs == 0 && f.e.subop == 0 && f.e.c == 0 && !f.e.bs && !f.eb && f.d % 2 == 0

/-- A register's bits as an operand of the format. -/
def View.fp (w : View) (fmt l n : Nat) : Nat := low (fmtOf fmt).width (w.reg (fmt == 1) l n)
/-- b of a floating word. -/
def View.fpB (w : View) (f : LW) (l : Nat) : Nat :=
  if f.e.form = 1 then widenBf16 f.e.fs f.e.imm else low (fmtOf f.e.fs).width (w.bBits f (f.e.fs == 1) l)

/-- A per-lane floating word with one result of its type. -/
def fpWord (f : LW) (types : List Nat) (rounds cSrc : Bool) (op : Fmt → Nat → Nat → Nat → Nat → Nat × Nat) (s : State) : Out :=
  s.issue fun e =>
    let wide := f.e.fs == 1
    if !(fpLegal f types rounds true cSrc) then e.illegal else
    e.run f.g (fpSrcs f cSrc) fun w l =>
      let r := op (fmtOf f.e.fs) (f.e.subop % 4) (w.fp f.e.fs l f.a) (w.fpB f l) (w.fp f.e.fs l f.e.c)
      .ok ⟨wv wide f.d r.1, [], r.2⟩

/-- FADD (R186) -/
def execFadd (f : LW) (s : State) : Out := fpWord f [0, 1, 2, 3] true false (fun t m a b _ => t.add m a b) s
/-- FSUB (R186) -/
def execFsub (f : LW) (s : State) : Out := fpWord f [0, 1, 2, 3] true false (fun t m a b _ => t.sub m a b) s
/-- FMUL (R186) -/
def execFmul (f : LW) (s : State) : Out := fpWord f [0, 1, 2, 3] true false (fun t m a b _ => t.mul m a b) s
/-- FFMA: one rounding (R186) -/
def execFfma (f : LW) (s : State) : Out := fpWord f [0, 1, 2, 3] true true (fun t m a b c => t.fma m a b c) s
/-- FDIV, f32 and f64 (R186) -/
def execFdiv (f : LW) (s : State) : Out := fpWord f [0, 1] true false (fun t m a b _ => t.div m a b) s
/-- FMIN (R187) -/
def execFmin (f : LW) (s : State) : Out := fpWord f [0, 1, 2, 3] false false (fun t _ a b _ => t.pick false a b) s
/-- FMAX (R187) -/
def execFmax (f : LW) (s : State) : Out := fpWord f [0, 1, 2, 3] false false (fun t _ a b _ => t.pick true a b) s

/-- FSCL: B is an i32 in one register (R186) -/
def execFscl (f : LW) (s : State) : Out :=
  s.issue fun e =>
    let wide := f.e.fs == 1
    if !(fsclLegal f) then e.illegal else
    e.run f.g (srcV wide f.a f.ea ++ srcB f false ++ dstV wide f.d) fun w l =>
      let r := (fmtOf f.e.fs).scl (f.e.subop % 4) (w.fp f.e.fs l f.a) (toInt 32 (w.bBits f false l))
      .ok ⟨wv wide f.d r.1, [], r.2⟩

/-- FCMP: a mask bit per lane (R188) -/
def execFcmp (f : LW) (s : State) : Out :=
  s.issue fun e =>
    let wide := f.e.fs == 1
    if !(fcmpLegal f) then e.illegal else
    e.run f.g (srcV wide f.a f.ea ++ srcB f wide) fun w l =>
      let r := (fmtOf f.e.fs).cmp f.e.subop (w.fp f.e.fs l f.a) (w.fpB f l)
      .ok ⟨[], [(f.d, r.1)], r.2⟩

/-- A floating unary word (R189): `one` writes one v register whatever the type. -/
def fpUnary (f : LW) (types : List Nat) (rounds one : Bool) (op : Fmt → Nat → Nat → Nat × Nat) (s : State) : Out :=
  s.issue fun e =>
    let wide := f.e.fs == 1
    if !(fpUnaryLegal f types rounds one) then e.illegal else
    e.run f.g (fpUnarySrcs f one) fun w l =>
      let r := op (fmtOf f.e.fs) (f.e.subop % 4) (w.fp f.e.fs l f.a)
      .ok ⟨wv (wide && !one) f.d r.1, [], r.2⟩

/-- FABS (R189) -/
def execFabs (f : LW) (s : State) : Out := fpUnary f [0, 1, 2, 3] false false (fun t _ a => (a % 2 ^ (t.width - 1), 0)) s
/-- FNEG (R189) -/
def execFneg (f : LW) (s : State) : Out := fpUnary f [0, 1, 2, 3] false false (fun t _ a => (a ^^^ 2 ^ (t.width - 1), 0)) s
/-- FSQRT (R189) -/
def execFsqrt (f : LW) (s : State) : Out := fpUnary f [0, 1] true false (fun t m a => t.sqrt m a) s
/-- FRCP (R189) -/
def execFrcp (f : LW) (s : State) : Out := fpUnary f [0, 1] true false (fun t m a => t.rcp m a) s
/-- FRSQ (R189) -/
def execFrsq (f : LW) (s : State) : Out := fpUnary f [0, 1] true false (fun t m a => t.rsq m a) s
/-- FEXP2 (R189) -/
def execFexp2 (f : LW) (s : State) : Out := fpUnary f [0, 1] true false (fun t m a => t.exp2 m a) s
/-- FLOG2 (R189) -/
def execFlog2 (f : LW) (s : State) : Out := fpUnary f [0, 1] true false (fun t m a => t.log2 m a) s
/-- FCLASS (R190) -/
def execFclass (f : LW) (s : State) : Out := fpUnary f [0, 1, 2, 3] false true (fun t _ a => (t.classMask a, 0)) s
/-- FRND (R189) -/
def execFrnd (f : LW) (s : State) : Out := fpUnary f [0, 1, 2, 3] true false (fun t m a => t.rnd m a) s
/-- FGETE (R189) -/
def execFgete (f : LW) (s : State) : Out := fpUnary f [0, 1, 2, 3] false true (fun t _ a => (t.getExp a, 0)) s
/-- SIN.T (R149) -/
def execSinT (f : LW) (s : State) : Out := fpUnary f [0] false false (fun _ _ a => turnFn false a) s
/-- COS.T (R149) -/
def execCosT (f : LW) (s : State) : Out := fpUnary f [0] false false (fun _ _ a => turnFn true a) s
/-- FRED.T (R150) -/
def execFredT (f : LW) (s : State) : Out := fpUnary f [0] false false (fun _ _ a => fred a) s

/-- SINCOS.T: sine to d, cosine to d + 1 (R189) -/
def execSincosT (f : LW) (s : State) : Out :=
  s.issue fun e =>
    if !(sincosLegal f) then e.illegal else
    e.run f.g (srcV false f.a f.ea ++ dstV true f.d) fun w l =>
      let a := w.fp 0 l f.a
      .ok ⟨[(f.d, BitVec.ofNat 32 (turnFn false a).1), (f.d + 1, BitVec.ofNat 32 (turnFn true a).1)], [], (turnFn false a).2 ||| (turnFn true a).2⟩

end Sys2Proof.Machine
end

