-- ==== Sys2Proof/Machine/Convert.lean ====
section
/-! DEFINITION. Conversions through format slots (R137, R191), bit-plane codes (R141 to R144, R192 to R195) and the Hadamard transform (R196). -/

namespace Sys2Proof.Machine

/-- The integer type of a slot code 4 to 0xB (R139). -/
def slotInt (code : Nat) : IntTy := ⟨8 * 2 ^ ((code - 4) / 2), code % 2 == 0⟩
/-- The width in bits of a slot's format. -/
def slotBits (code : Nat) : Nat := if code < 4 then (fmtOf code).width else (slotInt code).n

/-- A float of format `src` converted to a slot's format (R137): bits and flags. -/
def cvtFloat (k : Slotd) (src w : Nat) : Nat × Nat :=
  if k.code < 4 then convFloat (fmtOf src) (fmtOf k.code) k.rnd k.sat w else
  let r := toIntTy (slotInt k.code) k.rnd ((fmtOf src).val w)
  ((slotInt k.code).wr r.1, r.2)

/-- An integer converted to a slot's format (R137): no flag between integers. DESIGN CHOICE (log 67): to a wider integer of the other signedness as to a narrower one, clamped with sat = 1, its low bits without. -/
def cvtInt (k : Slotd) (x : Int) : Nat × Nat :=
  if k.code < 4 then ofIntVal (fmtOf k.code) k.rnd k.sat x else
  let t := slotInt k.code
  (t.wr (if k.sat then t.clamp x else x), 0)

/-- The source of CVT or CVTI is an even pair. -/
def cvtWide (f : LW) (isInt : Bool) : Bool := if isInt then (intTy f.e.subop).wide else f.e.subop == 1
/-- Fields of CVT and CVTI under the slot (R191). -/
def cvtLegal (f : LW) (isInt : Bool) (k : Slotd) : Bool :=
  f.e.form == 0 && f.e.imm == 0 && (isInt || decide (f.e.subop < 4)) && f.b == 0 && !f.eb && !f.e.bs && f.e.c == 0 &&
    k.code != 0xC && evenIf (cvtWide f isInt) f.a && evenIf (slotBits k.code == 64) f.d
def cvtSrcs (f : LW) (isInt : Bool) (k : Slotd) : List Src := srcV (cvtWide f isInt) f.a f.ea ++ dstV (slotBits k.code == 64) f.d

/-- CVT and CVTI: the slot in fs, the source type in subop (R191). -/
def cvtWord (f : LW) (isInt : Bool) (s : State) : Out :=
  s.issue fun e =>
    match e.slot f.e.fs with
    | none => e.illegal
    | some k =>
      if !(cvtLegal f isInt k) then e.illegal else
      e.run f.g (cvtSrcs f isInt k) fun w l =>
        let a := w.reg (cvtWide f isInt) l f.a
        let r := if isInt then cvtInt k ((intTy f.e.subop).val a) else cvtFloat k f.e.subop (low (fmtOf f.e.subop).width a)
        .ok ⟨wv (slotBits k.code == 64) f.d r.1, [], r.2⟩

/-- CVT (R191) -/
def execCvt (f : LW) (s : State) : Out := cvtWord f false s
/-- CVTI (R191) -/
def execCvti (f : LW) (s : State) : Out := cvtWord f true s

/-! Bit planes. -/

/-- A scale's value (R142); kind 1 E8, 2 BF16. DESIGN CHOICE (log 78): a signalling NaN in a BF16 scale is read as a quiet one and raises no invalid (R132, R135, R195). -/
def scaleVal (kind w : Nat) : FVal :=
  if kind = 1 then (if w % 256 = 255 then .nan false else .fin false 1 (((w % 256 : Nat) : Int) - 127))
  else match bf16.val w with | .nan _ => .nan false | v => v

/-- The value of a code read to k planes under a scale (R141, R142). -/
def planeVal (scale : FVal) (qk : Int) (k : Nat) : FVal :=
  let neg := decide (qk < 0)
  match scale with
  | .nan _ => .nan false
  | .inf n => .inf (n != neg)
  | .fin n m e => .fin (n != neg) (m * (2 * qk + 1).natAbs) (e - (k : Int))

/-- A code's top k of P bits as a signed number (R141). -/
def topPlanes (p k q : Nat) : Int := toInt p q / ((2 ^ (p - k) : Nat) : Int)

/-- The sign of Sylvester's H[i][j] (R144). -/
def hadNeg (i j : Nat) : Bool := popc 6 (i &&& j) % 2 == 1
/-- Row i of H applied to a block, exactly (R144). -/
def hadRow (mode i : Nat) (xs : List FVal) : FVal × Nat :=
  sumVals mode ((List.range xs.length).map (fun j => if hadNeg i j then (xs.getD j (.fin false 0 0)).negate else xs.getD j (.fin false 0 0)))

/-- num / den rounded to an integer in a mode, den positive. -/
def roundRatio (mode : Nat) (num : Int) (den : Nat) : Int :=
  let q := num / (den : Int)
  let r := (num % (den : Int)).toNat
  if r = 0 then q else
  match mode with
  | 0 => if den < 2 * r ∨ (2 * r = den ∧ q % 2 = 1) then q + 1 else q
  | 1 => if num < 0 then q + 1 else q
  | 2 => q + 1
  | _ => q

/-- The least integer e with 2^e ≥ m × 2^x, m nonzero. -/
def ceilLog (m : Nat) (x : Int) : Int := x + (Nat.log2 m : Int) + (if 2 ^ Nat.log2 m = m then 0 else 1)

/-- A finite value as a multiple of 2^e0. -/
def finAt (e0 : Int) (v : FVal) : Int := sumAt e0 [v]

/-- One block quantised (R143): scale bits, codes, flags. -/
def quantise (k : Slotd) (src : List FVal) : Nat × List Nat × Nat :=
  if src.any (fun v => match v with | .fin _ _ _ => false | _ => true) then
    (if k.scale = 1 then 0xFF else 0x7FC0, src.map (fun _ => 0), flInvalid)
  else
    let xs := if k.had then (List.range src.length).map (fun i => (hadRow 0 i src).1) else src
    let e0 := (leastExp xs).getD 0
    let big := (xs.map (fun v => (finAt e0 v).natAbs)).foldl max 0
    let bits := if k.scale = 1 then (if big = 0 then 0 else (max 0 (min 254 (127 + ceilLog big e0))).toNat)
                else (let r := bf16.round 2 false false big e0 false; if r.1 = 0x7F80 then 0x7F7F else r.1)
    match scaleVal k.scale bits with
    | .fin _ m e =>
      if m = 0 then (bits, xs.map (fun _ => 0), 0) else
      let e1 := min e e0
      let sc : Nat := m * 2 ^ (e - e1).toNat
      let q (v : FVal) : Int :=
        let x := finAt e1 v
        max (-((2 ^ (k.planes - 1) : Nat) : Int)) (min (((2 ^ (k.planes - 1) : Nat) : Int) - 1)
          (roundRatio k.rnd (x * ((2 ^ k.planes : Nat) : Int) - (sc : Int)) (2 * sc)))
      let inex := xs.any (fun v => decide ((sc : Int) * (2 * q v + 1) ≠ finAt e1 v * ((2 ^ k.planes : Nat) : Int)))
      (bits, xs.map (fun v => ofInt k.planes (q v)), if inex then flInexact else 0)
    | _ => (bits, xs.map (fun _ => 0), 0)

/-- The q-word of a code (R192). -/
def qWord (scaleBits planes q : Nat) : Nat := scaleBits * 2 ^ 16 + planes * 2 ^ 8 + q
/-- The fields of a q-word: scale bits, planes, code; a plane count outside 2 to 8 reads as 8 (R192). -/
def qPlanes (w : Nat) : Nat := let p := bits w 8 4; if p < 2 ∨ 8 < p then 8 else p
/-- The scale of a q-word in a slot's scale format. -/
def qScale (kind w : Nat) : FVal := scaleVal kind (bits w 16 16)

/-- The element a q-word stands for when k planes are read (R195). -/
def qVal (kind k w : Nat) : FVal :=
  let p := qPlanes w
  planeVal (qScale kind w) (topPlanes p (min k p) (bits w 0 8)) (min k p)

/-- A register is bound to a stream. -/
def View.bound (w : View) (n : Nat) : Bool := w.pops.any (fun p => p.1 == n) || w.dry.contains n || w.ended.contains n

/-- What lane k gives to its block (R193): nothing stands for +0. -/
def View.blockReg (w : View) (k n : Nat) : Option Nat :=
  if w.bound n then none else if w.act.contains k then some (w.v k n) else w.from false k k n

/-- The lanes of lane l's block whose registers are read; its own where a stream's entry is popped (R42). -/
def View.blockReads (w : View) (b l n : Nat) (trap : Bool) : List (Nat × Src) :=
  if w.bound n then [(l, Src.v n trap)] else ((upFrom (l / b * b) b).filter (fun k => (w.g.lane k).st.live)).map (fun k => (k, Src.v n trap))

/-- Lane l's block through a reading of each supplied register. -/
def View.block (w : View) (b l n : Nat) (rd : Nat → FVal) : List FVal :=
  (upFrom (l / b * b) b).map (fun k => match w.blockReg k n with | some x => rd x | none => .fin false 0 0)

/-- The fields every block word shares: register form, no b, bs or c. -/
def blockForm (f : LW) : Bool :=
  f.e.form == 0 && f.e.imm == 0 && f.b == 0 && !f.eb && !f.e.bs && f.e.c == 0

/-- Fields of QPACK, QUNPK and HAD under a slot; a block must fit in the group (R193 to R196). -/
def qpackLegal (e : Env) (f : LW) (k : Slotd) : Bool := blockForm f && f.e.subop == 0 && k.code == 0xC && decide (k.block ≤ e.G)
def qunpkLegal (e : Env) (f : LW) (k : Slotd) : Bool := blockForm f && f.e.subop == 0 && k.code == 0xC && (!k.had || decide (k.block ≤ e.G))
def hadBlock (f : LW) : Nat := if f.e.subop / 2 % 2 = 1 then 32 else 16
def hadLegal (e : Env) (f : LW) (k : Slotd) : Bool := blockForm f && decide (f.e.subop < 4) && [0, 2, 3].contains k.code && decide (hadBlock f ≤ e.G)

/-- A value divided by the square root of a block's length times the transform's gain (R142, R196): the exponent lowered. -/
def lowered (v : FVal) (n : Int) : FVal := match v with | .fin s m x => .fin s m (x - n) | v => v

/-- Lane l's q-word (R194). -/
def View.qpacked (w : View) (f : LW) (k : Slotd) (l : Nat) : Writes :=
  let r := quantise k (w.block k.block l f.a fp32.val)
  ⟨wv false f.d (qWord r.1 k.planes (r.2.1.getD (l % k.block) 0)), [], r.2.2⟩

/-- A NaN that enters a block's sum sets invalid (R145). -/
def nanFlag (xs : List FVal) : Nat := if xs.any (·.isNan) then flInvalid else 0

/-- Lane l's element of a block under an inverse transform (R195). -/
def View.unpackedHad (w : View) (f : LW) (k : Slotd) (l : Nat) : Writes :=
  let xs := w.block k.block l f.a (qVal k.scale k.planes)
  let r := hadRow k.rnd (l % k.block) xs
  let z := fp32.roundVal k.rnd false (lowered r.1 (if k.block = 16 then 4 else 5))
  ⟨wv false f.d z.1, [], r.2 ||| z.2 ||| nanFlag xs⟩

/-- Lane l's own q-word as binary32 (R195). -/
def View.unpacked (w : View) (f : LW) (k : Slotd) (l : Nat) : Writes :=
  let z := fp32.roundVal k.rnd false (qVal k.scale k.planes (w.v l f.a))
  ⟨wv false f.d z.1, [], z.2⟩

/-- Lane l's element of the transform of its block (R196). -/
def View.transformed (w : View) (f : LW) (k : Slotd) (l : Nat) : Writes :=
  let xs := w.block (hadBlock f) l f.a fp32.val
  let r := hadRow k.rnd (l % hadBlock f) xs
  let z := (fmtOf k.code).roundVal k.rnd k.sat (lowered r.1 (if f.e.subop % 2 = 0 then 0 else if hadBlock f = 16 then 4 else 5))
  ⟨wv false f.d z.1, [], r.2 ||| z.2 ||| nanFlag xs⟩

/-- QPACK (R194) -/
def execQpack (f : LW) (s : State) : Out :=
  s.issue fun e =>
    match e.slot f.e.fs with
    | none => e.illegal
    | some k =>
      if !(qpackLegal e f k) then e.illegal else
      e.runX f.g [.v f.a f.ea] (dstV false f.d) (fun w l => w.blockReads k.block l f.a f.ea) (fun w l => w.qpacked f k l) (fun _ => none) false

/-- QUNPK (R195) -/
def execQunpk (f : LW) (s : State) : Out :=
  s.issue fun e =>
    match e.slot f.e.fs with
    | none => e.illegal
    | some k =>
      if !(qunpkLegal e f k) then e.illegal else
      if k.had then
        e.runX f.g [.v f.a f.ea] (dstV false f.d) (fun w l => w.blockReads k.block l f.a f.ea) (fun w l => w.unpackedHad f k l) (fun _ => none) false
      else
        e.run f.g (srcV false f.a f.ea ++ dstV false f.d) fun w l => .ok (w.unpacked f k l)

/-- HAD: b in subop[17], n in subop[16] (R196) -/
def execHad (f : LW) (s : State) : Out :=
  s.issue fun e =>
    match e.slot f.e.fs with
    | none => e.illegal
    | some k =>
      if !(hadLegal e f k) then e.illegal else
      e.runX f.g [.v f.a f.ea] (dstV false f.d) (fun w l => w.blockReads (hadBlock f) l f.a f.ea) (fun w l => w.transformed f k l) (fun _ => none) false

end Sys2Proof.Machine
end

