-- ==== Sys2Proof/Machine/Streams.lean ====
section
/-! DEFINITION. Stream patterns, bindings and the lighter's fetches (R41 to R43, R237 to R240, R272). -/

namespace Sys2Proof.Machine

/-- The address of lane l's element of entry n (R237). -/
def patAddr (p : List DWord) (n l : Nat) : Addr :=
  let step (j : Nat) : Int :=
    let below := ((List.range j).map (fun i => field (p.getD (2 + i) 0) 0 32)).foldl (· * ·) 1
    ((n / below % field (p.getD (2 + j) 0) 0 32 : Nat) : Int) * toInt 32 (field (p.getD (2 + j) 0) 32 32)
  ofBase (p.getD 0 0).toNat ((l : Int) * toInt 32 (field (p.getD 1 0) 32 32) + ((List.range (patDims p)).map step).sum)

/-- The bytes of an element and its 32-bit value (R237). -/
def patSize (p : List DWord) : Nat := if field (p.getD 1 0) 0 2 = 0 then 4 else 2
def patWiden (p : List DWord) (w : Nat) : Nat :=
  match field (p.getD 1 0) 0 2 with
  | 2 => sext 16 32 w
  | 3 => w * 2 ^ 16
  | _ => w

/-- The element read of entry n for lane l. -/
def patReq (p : List DWord) (n l : Nat) : Req := memReq (patAddr p n l) (patSize p) (patSize p) true false false .cells

/-- An access of the group that precedes a place in program order is not yet performed (R43). -/
def State.unperformed (s : State) (uid grp : Nat) (g : Group) (seq : Nat) : Bool :=
  g.inflight.any (fun p => decide (p.seq ≤ seq)) || g.acqs.any (fun a => decide (a.seq ≤ seq)) || g.sbuf.any (fun b => decide (b.seq ≤ seq)) ||
    s.pend.any (fun p => p.uid == uid && p.grp == grp) || s.posted.any (fun p => p.uid == uid && p.grp == grp && decide (p.seq ≤ seq))

/-- A checked element lies in a peer's memory. -/
def peerElem (a : Except Bad Acc) : Bool := match a with | .ok acc => acc.g.kind == .peer | .error _ => false

/-- Entry n of a binding as the lighter reads it for a group: nothing while an access that precedes the SPSET, or a pending store, stands in the way (R43, R107), or while a peer's elements lack its answers `ans` (R123). Bytes the group stored to after the SPSET are free values (R43; log 3). -/
def State.streamEntry (s : State) (u : WorkUnit) (grp : Nat) (g : Group) (b : Binding) (n : Nat) (ans : List PeerPart) : Option (List Elem × State) :=
  let p := b.pat
  let late := g.wrote.drop b.since
  let accs := (List.range g.lanes.length).map (fun l => s.access u grp l (patReq p n l))
  let blocked (k : Nat) : Bool := !(late.contains k) && (g.sbuf.any (fun b => b.keys.contains k) || s.pend.any (fun q => q.keys.contains k))
  if s.unperformed u.uid grp g b.seq then none else
  if accs.any (fun a => match a with | .ok acc => acc.g.kind != .peer && acc.keys.any blocked | .error _ => false) then none else
  let ans := if accs.any (fun a => match a with | .ok acc => acc.g.kind == .peer && s.routeDead acc.g.dev | .error _ => false) then (accs.filter peerElem).map (fun _ => PeerPart.failed 0x0E) else ans
  if (accs.filter peerElem).length ≠ ans.length then none else
  let elem (l : Nat) : Elem :=
    match accs.getD l (.error (bad 0)) with
    | .error b => ⟨0, b.code, addrNat (patAddr p n l), 0⟩
    | .ok acc =>
      if acc.g.kind == .peer then
        (match ans.getD ((accs.take l).filter peerElem).length (.failed 0) with
        | .ok v => ⟨BitVec.ofNat 32 (patWiden p (low (8 * patSize p) v)), 0, 0, 0⟩
        | .failed r => ⟨0, 0x0D, addrNat (patAddr p n l), r⟩)
      else
        let byte (i k : Nat) : Byte := if late.contains k then Config.freeByte (s.freeCtr + 4 * l + i) else Memory.read s.mem k
        ⟨BitVec.ofNat 32 (patWiden p (leNat (acc.keys.zipIdx.map (fun q => byte q.2 q.1)))), 0, 0, 0⟩
  let seen := accs.zipIdx.foldl (fun (s : State) a => match a.1 with
    | .ok acc => (s.learnAt u.core acc.tlb).share u.core acc.cached
    | .error _ => s.noteWalk u (addrNat (patAddr p n a.2))) s
  some ((List.range g.lanes.length).map elem, { seen with freeCtr := s.freeCtr + 4 * g.lanes.length })

/-- Basins taken by the resident units of a core, a stopped one among them (R41, R332). -/
def State.basins (s : State) (core : Nat) : Nat :=
  (s.units.map (fun p => if p.2.core = core ∧ (p.2.res = .resident ∨ p.2.res = .stopped) then (p.2.groups.map (·.binds.length)).sum else 0)).sum

/-- A pattern loaded into spN (R238). -/
def Group.setSp (g : Group) (n : Nat) (p : List DWord) : Group :=
  { g with sp := (List.range 8).foldl (fun m i => SMap.put 0 m (8 * n + i) (p.getD i 0)) g.sp, spAt := SMap.put 0 g.spAt n g.wrote.length, spSeq := SMap.put 0 g.spSeq n g.seq }
def Group.getSp (g : Group) (n : Nat) : List DWord := (List.range 8).map (fun i => SMap.get 0 g.sp (8 * n + i))

/-- Fields of SPBIND and SPREL (R239). -/
def spbindLegal (f : LW) : Bool := f.b == 0 && !f.ea && !f.eb && f.ext.isNone && decide (f.a < 8)
def sprelLegal (f : LW) : Bool := f.a == 0 && f.b == 0 && !f.ea && !f.eb && f.ext.isNone
/-- The binding that SPBIND makes (R239). -/
def Group.newBinding (g : Group) (f : LW) : Binding := { reg := f.d, pat := g.getSp f.a, pos := 0, hist := [], basin := [], since := SMap.get 0 g.spAt f.a, seq := SMap.get 0 g.spSeq f.a }
/-- The group's bindings but that of a register. -/
def Group.unbound (g : Group) (d : Nat) : List Binding := g.binds.filter (fun b => b.reg != d)

/-- SPBIND (R239) -/
def execSpbind (f : LW) (s : State) : Out :=
  s.issue fun e =>
    if !(spbindLegal f) then e.illegal else
    if (e.guarded f.g).isEmpty then e.finish (e.c.act.map (fun l => (l, .next))) else
    let p := e.g.getSp f.a
    let old := e.g.binds.filter (fun b => b.reg == f.d)
    if !(patOk p) || decide (8 ≤ (e.g.unbound f.d).length) then e.faultActive f.g (lf 0x04 0 false) else
    if 64 ≤ e.s.basins e.u.core - old.length then e.stall else
    Env.finish { e with g := { e.g with binds := e.g.unbound f.d ++ [e.g.newBinding f] } } (e.c.act.map (fun l => (l, .next)))

/-- SPREL (R239) -/
def execSprel (f : LW) (s : State) : Out :=
  s.issue fun e =>
    if !(sprelLegal f) then e.illegal else
    let g := if (e.guarded f.g).isEmpty then e.g else { e.g with binds := e.g.unbound f.d }
    Env.finish { e with g := g } (e.c.act.map (fun l => (l, .next)))

/-- The lane a group word's access belongs to: the lowest-numbered live lane (R269). -/
def Env.low (e : Env) : Nat := e.g.liveLanes.headD 0

/-- SPSET (R238) -/
def execSpset (f : GW) (s : State) : Out :=
  s.issue fun e =>
    if 8 ≤ f.d then e.groupIllegal else
    e.whenFull [f.a] <|
    let a := ofBase (e.g.getS f.a).toNat f.imm
    match e.check e.low (memReq a 64 64 true false false .cells) 0 with
    | .error q => e.groupFault q
    | .ok acc =>
      match e.readNow e.g.liveLanes acc (addrNat a) with
      | .wait e1 => .next e1.out
      | .fail q => e.groupFault q
      | .got e1 bs =>
        let p : List DWord := (List.range 8).map (fun i => BitVec.ofNat 64 (leNat ((bs.drop (8 * i)).take 8)))
        if !(patOk p) then e.groupFault (lf 0x04 (addrNat a) false) else
        let e2 := e1.touched e.g.liveLanes acc true
        Env.groupNext { e2 with g := e2.g.setSp f.d p }

/-- SPLOOP (R272) -/
def execSploop (f : GW) (s : State) : Out :=
  s.issue fun e =>
    if !(decide (f.d < 8) && f.f6 == 0 && f.tl == 0 && f.rz == 0 && f.gimm == 0) then e.groupIllegal else
    let x := e.g.getS f.f
    let two := field x 2 2 == 1
    e.whenFull ([f.a, f.b, f.f] ++ if two then [f.e] else []) <|
    let p : List DWord := [e.g.getS f.a, x, e.g.getS f.b, if two then e.g.getS f.e else 0, 0, 0, 0, 0]
    if !(decide (field x 2 2 < 2) && patOk p) then e.groupFault (lf 0x04 0 false) else
    Env.groupNext { e with g := e.g.setSp f.d p }

/-- The LW of a matrix word. -/
def matrixLW : Instr → Option LW
  | .mma f => some f
  | .mmaD f => some f
  | .mmai f => some f
  | _ => none

/-- How many entries of a bound register the lighter holds: sixteen (R41), and as many as the rows of a matrix operation that has leave and waits to pop them (R248). -/
def WorkUnit.entriesWanted (u : WorkUnit) (grp reg : Nat) : Nat :=
  (u.ops.filter (fun o => !o.begun && o.leave && (o.lanes.map (·.1)).foldl min ((o.lanes.headD (0, 0)).1) == grp &&
    (match matrixLW o.instr with | some f => f.e.bs && f.a == reg | none => false))).foldl (fun n o => max n (popc 64 o.row.toNat)) 16

/-- STREAM_FETCH (R43): the lighter reads the next entry of the binding in position c of group b of unit a; `arg.parts` are a peer's answers for its elements, in ascending lane order (R123) -/
def execStreamFetch (s : State) : Out :=
  match s.unit? s.arg.a with
  | none => .next s
  | some u =>
    match u.group s.arg.b with
    | none => .next s
    | some g =>
      match g.binds[s.arg.c]? with
      | none => .next s
      | some b =>
        let n := b.pos + b.basin.length
        if u.res ≠ .resident ∨ u.entriesWanted s.arg.b b.reg ≤ b.basin.length ∨ patEntries b.pat ≤ n then .next s else
        match s.streamEntry u s.arg.b g b n s.arg.parts with
        | none => .next s
        | some (entry, s1) => .next (s1.onGroup s.arg.a s.arg.b (fun g => { g with binds := g.binds.set s.arg.c { b with basin := b.basin ++ [entry] } }))

end Sys2Proof.Machine
end

