-- ==== Sys2Proof/Machine/Sluice.lean ====
section
/-! DEFINITION. The sluice (R303 to R305): demands, requests, and who waits; convergence sets that issue (R46, R246). -/

namespace Sys2Proof.Machine

/-- The demand of a heavy lane operation (R303). -/
def heavyDemand : Instr → Nat
  | .mma _ => 64
  | .mmaD _ => 64
  | .mmai _ => 56
  | _ => 12

/-- A request joins its queue at the tail (R51, R304). -/
def State.ask (s : State) (die prio : Nat) (who : Waiter) (demand : Nat) : State :=
  let d := s.die die
  s.setDie die { d with queues := d.queues.set (prio % 4) (d.queues.getD (prio % 4) [] ++ [⟨who, demand, s.cycle⟩]) }

/-- An operation that held leave completes: its demand is returned (R303). -/
def State.leaveEnds (s : State) (die : Nat) (who : Waiter) : State :=
  let d := s.die die
  match d.granted.find? (fun q => q.who == who) with
  | some q => s.setDie die { d with held := d.held - q.demand, granted := d.granted.erase q }
  | none => s

/-- A waiting request leaves its queue. -/
def State.unask (s : State) (die : Nat) (who : Waiter) : State :=
  let d := s.die die
  s.setDie die { d with queues := d.queues.map (fun q => q.filter (fun r => r.who != who)) }

/-- The effective priority of a group's request (R301, R304). -/
def effPrio (u : WorkUnit) (g : Group) : Nat := if g.raised || decide (64 ≤ g.passed) then 3 else recPrio u.record

/-- A group's held permit covers a demand: the operation begins without asking (R279). -/
def WorkUnit.permitCovers (u : WorkUnit) (grp : Nat) (demand : Nat) : Bool :=
  match (u.group grp).bind (·.permit) with
  | none => false
  | some p => decide (demand ≤ p.1)

/-- A command is under way or waits for its turn; those from a context's failed one on do neither (R274). -/
def Engine.live (x : Engine) (c : Command) : Bool := !c.done && (match x.failed with | some q => decide (c.num < q.1) | none => true)

/-- A heavy lane operation that has begun under the permit of a group uses its amount. -/
def WorkUnit.permitTaken (u : WorkUnit) (grp : Nat) : Bool := u.ops.any (fun o => o.grp == grp && o.perm && o.begun)

/-- The amount of a group's permit is used, by one operation at a time (R279). -/
def State.permitInUse (s : State) (u : WorkUnit) (grp : Nat) : Bool :=
  u.permitTaken grp || s.engines.any (fun q => q.2.cmds.any (fun c => c.uid == u.uid && c.grp == grp && c.perm && q.2.live c))

/-- The mask register of edge masks. -/
def maskReg (ms : List DWord) (n : Nat) : DWord := ms.getD n 0xFFFFFFFFFFFFFFFF

def mxCv (f : LW) : Nat := bits f.e.imm 0 4
def mxRow (u : WorkUnit) (f : LW) : DWord := maskReg u.ym (bits f.e.imm 4 2)
def mxCol (u : WorkUnit) (f : LW) : DWord := maskReg u.xm (bits f.e.imm 6 2)
def mxK (u : WorkUnit) (f : LW) : DWord := maskReg u.xm (bits f.e.imm 8 2)

/-- The tiles, accumulators and panels an operation touches (R244, R259): tile t is t, accumulator n is 8 + n, panel p is 16 + p. -/
def touches (i : Instr) : List Nat :=
  match i with
  | .mma f => [f.d % 8, 16 + f.b] ++ (if f.e.bs then [] else [f.a % 8])
  | .mmaD f => [f.d % 8, f.a % 8, 16 + f.b]
  | .mmai f => [f.d % 8, f.a % 8, 16 + f.b]
  | .faupd f => [8 + f.d]
  | .fadwd f => [8 + f.d]
  | .fasolvF f => [8 + f.a]
  | .fasolvB f => [8 + f.a]
  | .fasolvG f => [8 + f.a]
  | .fasolvLoo f => [8 + f.a]
  | .famul f => [8 + f.a]
  | .famulT f => [8 + f.a]
  | .fadiag f => [8 + f.a]
  | .fald f => [8 + f.d]
  | .fast f => [8 + f.d]
  | .fainit f => [8 + f.d]
  | .fascl f => [8 + f.d]
  | .tld f => [f.d]
  | .tst f => [f.d]
  | .tread f => [f.a]
  | .twrite f => [f.d]
  | .tzero f => [f.d]
  | .tcvt f => [f.d, f.a]
  | .ttr f => [f.d, f.a]
  | .wbld f => [16 + f.d]
  | .wbfree f => [16 + f.d]
  | _ => []

/-- Two operations have a register in common. -/
def meets (i j : Instr) : Bool := (touches i).any (touches j).contains

/-- An element is on its way to a tile that an operation touches (R244, R251). -/
def WorkUnit.onWay (u : WorkUnit) (i : Instr) : Bool :=
  u.groups.any (fun g => g.inflight.any (fun p => match p.kind with | .tile t _ => (touches i).contains t | _ => false))

/-- An operation that stands in its queue: another word's place is void once a rollback has taken its lanes from the word (R114). -/
def WorkUnit.stands (u : WorkUnit) (o : HeavyOp) : Bool :=
  !o.light || o.lanes.any (fun p => match u.group p.1 with | some g => (g.lane p.2).st.live && (g.lane p.2).pc == o.pc | none => false)

/-- Every earlier operation on its registers has left them (R244). -/
def WorkUnit.firstOn (u : WorkUnit) (o : HeavyOp) : Bool := (u.ops.takeWhile (fun p => p.id != o.id)).all (fun p => !(meets p.instr o.instr) || !(u.stands p))

/-- The place in the queues that a word of lanes of a group has taken already. -/
def WorkUnit.placeOf (u : WorkUnit) (grp pc : Nat) (lanes : List Nat) : Option HeavyOp :=
  u.ops.find? (fun o => o.light && o.grp == grp && o.pc == pc && o.lanes.any (fun p => lanes.contains p.2))

/-- How a word stands in the queues of its registers (R244). -/
inductive Turn where
  /-- it has its place, and others are before it -/
  | wait
  /-- it has just taken its place behind others -/
  | queue (e : Env)
  /-- nothing is before it; its place among the operations -/
  | go (e : Env) (n : Nat)
  deriving DecidableEq, Repr

/-- A word of the given lanes on tiles, accumulators or panels (R244): it enters the queues as it issues; where earlier operations stand there its lanes stay at it until its turn comes, and it goes on with its place among the operations. A heavy word waits for light words alone: it queues behind heavy ones. -/
def Env.turn (e : Env) (i : Instr) (heavy : Bool) (lanes : List Nat) : Turn :=
  let ahead (os : List HeavyOp) : Bool := e.u.onWay i || os.any (fun o => (o.light || !heavy) && meets o.instr i && e.u.stands o)
  match e.u.placeOf e.c.grp e.c.pc lanes with
  | some o =>
    let n := (e.u.ops.takeWhile (fun p => p.id != o.id)).length
    if ahead (e.u.ops.take n) then .wait else .go { e with u := { e.u with ops := e.u.ops.filter (fun p => p.id != o.id) } } n
  | none =>
    if !lanes.isEmpty && ahead e.u.ops then
      let o : HeavyOp := { id := e.u.nextOp, instr := i, pc := e.c.pc, row := 0, col := 0, k := 0, grp := e.c.grp, lanes := lanes.map (fun l => (e.c.grp, l)), cv := 0,
                           begun := false, perm := false, xs := [], ys := [], light := true }
      .queue { e with u := { e.u with ops := e.u.ops ++ [o], nextOp := e.u.nextOp + 1 } }
    else .go e e.u.ops.length
def Env.inLine (e : Env) (i : Instr) (heavy : Bool) (lanes : List Nat) (k : Env → Nat → Out) : Out :=
  match e.turn i heavy lanes with
  | .wait => e.stall
  | .queue e1 => .next e1.out
  | .go e1 n => k e1 n
def Env.inTurn (e : Env) (i : Instr) (lanes : List Nat) (k : Env → Out) : Out := e.inLine i false lanes (fun e _ => k e)

/-- A tile word (R243). -/
def WorkUnit.tileWord (u : WorkUnit) (t w : Nat) : Word := SMap.get 0 u.tiles (4096 * t + w)
def WorkUnit.setTileWord (u : WorkUnit) (t w : Nat) (x : Word) : WorkUnit := { u with tiles := SMap.put 0 u.tiles (4096 * t + w) x }
/-- Element (i, j) of the FP64 view. -/
def WorkUnit.tile64 (u : WorkUnit) (t i j : Nat) : Nat := (u.tileWord t (64 * i + 2 * j)).toNat + (u.tileWord t (64 * i + 2 * j + 1)).toNat * 2 ^ 32
def WorkUnit.setTile64 (u : WorkUnit) (t i j x : Nat) : WorkUnit :=
  (u.setTileWord t (64 * i + 2 * j) (BitVec.ofNat 32 x)).setTileWord t (64 * i + 2 * j + 1) (BitVec.ofNat 32 (x / 2 ^ 32))

def Panel.blank : Panel := ⟨false, 0, 0, []⟩
def WorkUnit.panel (u : WorkUnit) (n : Nat) : Panel := u.panels.getD n Panel.blank

/-- The checks of R246 in order, when the last member has signed. -/
def matrixCheck (u : WorkUnit) (i : Instr) (f : LW) (mask : Nat) : Option Nat :=
  let p := u.panel f.b
  let sa := slotOf (recSlot u.record f.e.fs)
  let sb := slotOf (recSlot u.record f.e.subop)
  match sa, sb, slotOf p.desc with
  | some ka, some kb, pd =>
    if !(recMx u.record) || decide (recPanels u.record ≤ f.b) then some 0x04 else
    let panelOk := p.loaded && (match pd with
      | some k => k.code == kb.code && (match i with
          | .mmai _ => p.mode == 2 && k.block == kb.block && k.scale == kb.scale && k.had == kb.had && decide (kb.planes ≤ k.planes)
          | _ => p.mode != 2)
      | none => false)
    if !panelOk then some 0x04 else
    let rows := popc 64 (mxRow u f).toNat
    let low := (List.range u.groups.length).find? (fun g => bitAt mask g && (match u.group g with | some x => !x.liveLanes.isEmpty | none => false))
    let bound := low.bind (fun g => (u.group g).bind (fun x => x.binds.find? (fun b => b.reg == f.a)))
    if f.e.bs && bound.isNone then some 0x04 else
    if f.e.bs && (match bound with | some b => decide (patEntries b.pat - b.pos < rows) | none => false) then some 0x10 else
    let short := match i with
      | .mmai _ => (List.range 64).any (fun r => (mxRow u f).getLsbD r && (List.range 64).any (fun k => (mxK u f).getLsbD k &&
          decide (qPlanesOf (u.tileWord f.a (64 * r + k)).toNat < ka.planes)))
      | _ => false
    if short then some 0x04 else none
  | _, _, _ => some 0x15
where
  /-- the planes field as R192 reads it -/
  qPlanesOf (w : Nat) : Nat := let p := bits w 8 4; if p < 2 ∨ 8 < p then 8 else p

/-- Faults of lanes of several groups in one stop of the unit (R246, R284). -/
def WorkUnit.faultLanes (u : WorkUnit) (cycle : Nat) (ls : List (Nat × Nat)) (pc code addr : Nat) : WorkUnit :=
  let mine (i : Nat) : List Nat := (ls.filter (fun p => p.1 == i)).map (·.2)
  let u0 := (ls.map (·.1)).eraseDups.foldl (fun (u : WorkUnit) i => u.onGroup i (fun g => g.backTo (mine i) pc none)) u
  let u1 := ls.foldl (fun (u : WorkUnit) p => u.onGroup p.1 (fun g => g.setLanes [p.2] (fun _ x => { x with st := .priv, pc := pc }))) u0
  let recs := ls.filterMap (fun p => (u1.group p.1).map (fun g =>
    ({ grp := p.1, lane := p.2, code := code, ss := false, rmt := false, reason := 0, pc := pc, regc := (g.lane p.2).rctr, addr := addr } : FaultRec)))
  { u1 with stop := u1.stop ++ recs, stopAt := some (u1.stopAt.getD cycle) }

/-- Lanes unparked: the word they parked on completes for them (R46). -/
def WorkUnit.wakeLanes (u : WorkUnit) (ls : List (Nat × Nat)) : WorkUnit :=
  ls.foldl (fun (u : WorkUnit) p => u.onGroup p.1 (fun g => g.setLanes [p.2] (fun _ x => x.wake))) u

/-- The next n entries of a bound register, the basin's first, as a matrix operation pops them (R248). -/
def State.popRows (s : State) (u : WorkUnit) (grp reg n : Nat) : Option (List (List Elem) × State × WorkUnit) :=
  match u.group grp with
  | none => none
  | some g =>
    match g.binds.find? (fun b => b.reg == reg) with
    | none => none
    | some b =>
      let r := (List.range n).foldl (fun (r : Option (List (List Elem) × State)) i =>
        match r with
        | none => none
        | some (es, s) =>
          match b.basin[i]? with
          | some x => some (es ++ [x], s)
          | none => match s.streamEntry u grp g b (b.pos + i) [] with
            | some (x, s') => some (es ++ [x], s')
            | none => none) (some ([], s))
      r.map (fun q => (q.1, q.2, u.setGroup grp { g with binds := g.binds.map (fun x => if x.reg == reg then { x with pos := x.pos + n, basin := x.basin.drop n } else x) }))

/-- The lowest-numbered group among the signers: the stream of A is its (R246). -/
def HeavyOp.low (o : HeavyOp) : Nat := (o.lanes.map (·.1)).foldl min ((o.lanes.headD (0, 0)).1)

/-- A matrix operation begins: the entries of a streamed A are popped, its signers are released (R51), the signatures cleared, the mask kept (R46). Nothing where the stream's bytes still wait for a store. An element of a selected row and step that met a fault faults every signer. -/
def State.beginMatrix (s : State) (u : WorkUnit) (o : HeavyOp) : Option State :=
  let c := u.cvs.getD o.cv ⟨0, 0, 0, 0, []⟩
  let clear (u : WorkUnit) : WorkUnit := { u with cvs := u.cvs.set o.cv { c with sigs := [] } }
  let begin_ (u : WorkUnit) (xs : List DWord) : WorkUnit :=
    { clear u with ops := u.ops.map (fun (x : HeavyOp) => if x.id = o.id then { o with begun := true, xs := xs } else x) }.wakeLanes o.lanes
  match matrixLW o.instr with
  | none => none
  | some f =>
    if !f.e.bs then some (s.setUnit (begin_ u [])) else
    match s.popRows u o.low f.a (popc 64 o.row.toNat) with
    | none => none
    | some (es, s1, u1) =>
      let used := es.flatMap (fun x => (x.zipIdx.filter (fun p => o.k.getLsbD p.2)).map (·.1))
      match used.find? (fun x => x.code != 0) with
      | some x => some (s1.setUnit ({ clear u with ops := u.ops.filter (fun (y : HeavyOp) => y.id != o.id) }.faultLanes s.cycle o.lanes o.pc x.code x.addr))
      | none => some (s1.setUnit (begin_ u1 (es.flatMap (fun x => x.map (fun (y : Elem) => BitVec.ofNat 64 y.val.toNat)))))

/-- The operation of a set whose every member has signed issues: checks, queues, request for leave (R46, R246, R304). -/
def State.matrixIssue (s : State) (u : WorkUnit) (n : Nat) : State :=
  let c := u.cvs.getD n ⟨0, 0, 0, 0, []⟩
  let ms := u.members c.mask
  if c.sigs.isEmpty || !(ms.all c.sigs.contains) || u.ops.any (fun o => o.cv == n && !o.begun && (matrixLW o.instr).isSome) then s.setUnit u else
  match decodeWords c.w0 c.w1 with
  | none => s.setUnit u
  | some i =>
    match matrixLW i with
    | none => s.setUnit u
    | some f =>
      let clear := { u with cvs := u.cvs.set n { c with sigs := [] } }
      match matrixCheck u i f c.mask with
      | some code => s.setUnit (clear.faultLanes s.cycle c.sigs c.pc code (if code = 0x10 then f.a else 0))
      | none =>
        let demand := heavyDemand i
        let grp := (c.sigs.getLast?.getD (0, 0)).1
        let perm := u.permitCovers grp demand
        if !perm && decide ((s.die u.die).budget < demand) then s.setUnit (clear.faultLanes s.cycle c.sigs c.pc 0x04 0) else
        let o : HeavyOp := { id := u.nextOp, instr := i, pc := c.pc, row := mxRow u f, col := mxCol u f, k := mxK u f, grp := grp, lanes := c.sigs, cv := n,
                             begun := false, perm := perm, xs := [], ys := [], mask := c.mask }
        let park := c.sigs.foldl (fun (u : WorkUnit) p => u.onGroup p.1 (fun g => g.setLanes [p.2] (fun _ x => match x.st with
          | .parked _ a t => { x with st := .parked .leave a t }
          | _ => x))) u
        let u1 := { park with ops := park.ops ++ [o], nextOp := park.nextOp + 1 }
        if perm then (if u1.firstOn o && !(u1.onWay i) && !(s.permitInUse u1 grp) then s.beginMatrix u1 o else none).getD (s.setUnit { u1 with ops := u1.ops.map (fun (x : HeavyOp) => if x.id = o.id then { x with leave := true } else x) })
        else (s.setUnit u1).ask u.die (match u.group grp with | some g => effPrio u g | none => 0) (.heavy u.uid o.id) demand

/-- Every convergence set of the unit whose members have all signed issues; a lane that is no longer live has left every set (R47). -/
def State.convergenceTest (s : State) (uid : Nat) : State :=
  (List.range 16).foldl (fun (s : State) n => match s.unit? uid with
    | some u =>
      let c := u.cvs.getD n ⟨0, 0, 0, 0, []⟩
      let live := c.sigs.filter (fun p => match u.group p.1 with | some g => (g.lane p.2).st.live | none => false)
      if c.sigs.isEmpty then s else s.matrixIssue { u with cvs := u.cvs.set n { c with sigs := live } } n
    | none => s) s

/-- A lane signs (R46, R47). -/
def WorkUnit.sign (u : WorkUnit) (n grp lane pc w0 w1 : Nat) : WorkUnit × LaneOut :=
  let c := u.cvs.getD n ⟨0, 0, 0, 0, []⟩
  if c.sigs.contains (grp, lane) then (u, .fault (lf 0x11 n false)) else
  if !(bitAt c.mask grp) then (u, .fault (lf 0x0A (n + 2 ^ 63) false)) else
  if !c.sigs.isEmpty && c.pc != pc then (u, .fault (lf 0x0A (n + 2 ^ 63) false)) else
  ({ u with cvs := u.cvs.set n { c with pc := pc, w0 := w0, w1 := w1, sigs := c.sigs ++ [(grp, lane)] } }, .park .convergence n)

end Sys2Proof.Machine
end

