-- ==== Sys2Proof/Machine/Matrix.lean ====
section
/-! DEFINITION. Matrix operations, tiles, edge masks and panels (R242 to R259). -/

namespace Sys2Proof.Machine

/-! Panels (R258). -/

/-- A 16-bit or 64-bit number in a panel. -/
def Panel.num (p : Panel) (at_ n : Nat) : Nat := leNat ((upFrom at_ n).map (SMap.get (0 : Byte) p.bytes))

/-- B(k, n) of a panel in mode 0 or 1, its bits in the panel's format (R258). -/
def Panel.elem (p : Panel) (k n : Nat) : Nat :=
  if field p.desc 0 4 = 1 then p.num (8 * (32 * k + n)) 8 else
  if p.mode = 0 then p.num (2 * (64 * k + n)) 2 else
  let q := 64 * (k / 4) + n
  let nib := p.num (4096 + q / 2) 1 / 16 ^ (n % 2) % 16
  if nib % 4 = k % 4 then p.num (4 * q) 2 else if nib / 4 = k % 4 then p.num (4 * q + 2) 2 else 0

/-- Scale bits and the top kb planes of element 64n + k of a plane-packed panel (R142). -/
def planeScale (p : Panel) (k : Slotd) (e : Nat) : Nat := if k.scale = 1 then p.num (e / k.block) 1 else p.num (2 * (e / k.block)) 2
def scaleLen (k : Slotd) : Nat := (4096 / k.block * k.scale + 127) / 128 * 128
def planeCode (p : Panel) (k : Slotd) (e kb : Nat) : Int :=
  toInt kb (((List.range kb).map (fun j => if bitAt (p.num (scaleLen k + 512 * j + e / 8) 1) (e % 8) then 2 ^ (kb - 1 - j) else 0)).sum)

/-! The products. -/

/-- acc := Round(acc + S) for one group of products (R145). -/
def accStep (acc : Nat × Nat) (ps : List (FVal × FVal)) (scale : Int) : Nat × Nat :=
  let ms := ps.map (fun p => p.1.mul p.2)
  let fl := ms.foldl (fun a m => a ||| m.2 ||| (if m.1.isNan then flInvalid else 0)) 0
  let x := sumVals 0 (ms.map (fun m => match m.1 with | .fin n k e => .fin n k (e + scale) | v => v))
  let r := fp32.sum 0 false [fp32.val acc.1, x.1]
  (r.1, acc.2 ||| fl ||| x.2 ||| r.2 ||| (fp32.val acc.1).sigFlag ||| sigFlags (ps.flatMap (fun p => [p.1, p.2])))

/-- A value supplied as an element of A, with its conversion's flags (R248). -/
def aElem (k : Slotd) (w : Nat) : FVal × Nat :=
  let r := convFloat fp32 (fmtOf k.code) k.rnd k.sat w
  ((fmtOf k.code).val r.1, r.2)

/-- The selected bits of a mask, below n. -/
def selected (n : Nat) (m : DWord) : List Nat := (List.range n).filter (fun i => m.getLsbD i)

/-- One element's accumulation over K in groups of 8 (R248). -/
def mmaElem (as : List FVal) (b : Nat → FVal) (kmask : DWord) (c : Nat) : Nat × Nat :=
  (List.range 8).foldl (fun acc g => accStep acc ((upFrom (8 * g) 8).map (fun k =>
    if kmask.getLsbD k then (as.getD k (.fin false 0 0), b k) else (.fin false 0 0, .fin false 0 0))) 0) (c, 0)

/-- MMA's effect on its tile, and its flags (R248). -/
def WorkUnit.applyMma (u : WorkUnit) (f : LW) (o : HeavyOp) (ka kb : Slotd) : WorkUnit × Nat :=
  let p := u.panel f.b
  let G := match u.group o.low with | some g => g.lanes.length | none => 0
  let rows := selected 64 o.row
  let a (r i k : Nat) : Nat := if f.e.bs then (if k < G then (o.xs.getD (G * r + k) 0).toNat else 0) else (u.tileWord f.a (64 * i + k)).toNat
  rows.zipIdx.foldl (fun (acc : WorkUnit × Nat) ri =>
    let conv := (List.range 64).map (fun k => if o.k.getLsbD k then aElem ka (a ri.2 ri.1 k) else (FVal.fin false 0 0, 0))
    let fl := conv.foldl (fun x c => x ||| c.2) acc.2
    (selected 64 o.col).foldl (fun (acc : WorkUnit × Nat) n =>
      let r := mmaElem (conv.map (·.1)) (fun k => (fmtOf kb.code).val (p.elem k n)) o.k (u.tileWord f.d (64 * ri.1 + n)).toNat
      (acc.1.setTileWord f.d (64 * ri.1 + n) (BitVec.ofNat 32 r.1), acc.2 ||| r.2)) (acc.1, fl)) (u, 0)

/-- MMA.D's (R249). -/
def WorkUnit.applyMmaD (u : WorkUnit) (f : LW) (o : HeavyOp) : WorkUnit × Nat :=
  let p := u.panel f.b
  (selected 32 o.row).foldl (fun (acc : WorkUnit × Nat) i =>
    (selected 32 o.col).foldl (fun (acc : WorkUnit × Nat) n =>
      let r := (selected 32 o.k).foldl (fun (c : Nat × Nat) k =>
        let x := fp64.fma 0 (u.tile64 f.a i k) (p.elem k n) c.1
        (x.1, c.2 ||| x.2)) (u.tile64 f.d i n, 0)
      (acc.1.setTile64 f.d i n r.1, acc.2 ||| r.2)) acc) (u, 0)

/-- MMAI's (R250, R147). DESIGN CHOICE (log 78): with an infinite or zero scale the element products are summed as they are, so that products of both signs make a NaN and raise invalid. -/
def WorkUnit.applyMmai (u : WorkUnit) (f : LW) (o : HeavyOp) (ka kb : Slotd) : WorkUnit × Nat :=
  let p := u.panel f.b
  let pd := (slotOf p.desc).getD kb
  let h : Int := if ka.had then (if ka.block = 16 then -4 else -5) else 0
  (selected 64 o.row).foldl (fun (acc : WorkUnit × Nat) i =>
    (selected 64 o.col).foldl (fun (acc : WorkUnit × Nat) n =>
      let r := (List.range (64 / ka.block)).foldl (fun (c : Nat × Nat) blk =>
        let ks := (upFrom (ka.block * blk) ka.block).filter (fun k => o.k.getLsbD k)
        if ks.isEmpty then c else
        let sa := qScale ka.scale (u.tileWord f.a (64 * i + ka.block * blk)).toNat
        let sb := scaleVal pd.scale (planeScale p pd (64 * n + ka.block * blk))
        accStep c (ks.map (fun k =>
          let w := (u.tileWord f.a (64 * i + k)).toNat
          (planeVal sa (topPlanes (qPlanes w) ka.planes (bits w 0 8)) ka.planes, planeVal sb (planeCode p pd (64 * n + k) kb.planes) kb.planes))) h)
        ((u.tileWord f.d (64 * i + n)).toNat, 0)
      (acc.1.setTileWord f.d (64 * i + n) (BitVec.ofNat 32 r.1), acc.2 ||| r.2)) acc) (u, 0)

/-- A matrix operation applied whole: the tile, and flags in every group of the declared set (R135, R244). -/
def WorkUnit.applyMatrix (u : WorkUnit) (o : HeavyOp) : WorkUnit :=
  let slots (f : LW) : Option (Slotd × Slotd) :=
    match slotOf (recSlot u.record f.e.fs), slotOf (recSlot u.record f.e.subop) with
    | some a, some b => some (a, b)
    | _, _ => none
  let r := match o.instr with
    | .mma f => (match slots f with | some (a, b) => u.applyMma f o a b | none => (u, 0))
    | .mmaD f => u.applyMmaD f o
    | .mmai f => (match slots f with | some (a, b) => u.applyMmai f o a b | none => (u, 0))
    | _ => (u, 0)
  r.1.raiseIn o.mask r.2

/-! Signing (R246, R247). -/

/-- The fields of a matrix word (R245). -/
def matrixLegal (f : LW) (stream : Bool) : Bool :=
  f.ext.isSome && f.g == 0 && !f.ea && !f.eb && f.e.form == 0 && f.e.c == 0 && decide (f.e.imm < 1024) && decide (f.d < 8) && decide (f.b < 32) &&
    (if f.e.bs then stream else decide (f.a < 8))
/-- The slots that suit a matrix word: MMA, MMA.D, MMAI (R248, R249, R144, R250). -/
def mmaPair (a b : Slotd) : Bool := (a.code == 2 || a.code == 3) && (b.code == 2 || b.code == 3)
def mmaDPair (a b : Slotd) : Bool := a.code == 1 && b.code == 1
def mmaiPair (a b : Slotd) : Bool := a.code == 0xC && b.code == 0xC && a.block == b.block && a.had == b.had

/-- The lanes of an issue sign in ascending order (R46). -/
def Env.signAll (e : Env) (f : LW) : WorkUnit × List (Nat × LaneOut) :=
  e.c.act.foldl (fun (r : WorkUnit × List (Nat × LaneOut)) l =>
    let q := r.1.sign (mxCv f) e.c.grp l e.c.pc e.c.w0 e.c.w1
    (q.1, r.2 ++ [(l, q.2)])) (e.u, [])

/-- A matrix word: `pair` says whether the two slots suit it. -/
def matrixWord (f : LW) (stream : Bool) (pair : Slotd → Slotd → Bool) (s : State) : Out :=
  s.issue fun e =>
    match e.slot f.e.fs, e.slot f.e.subop with
    | some ka, some kb =>
      if !(matrixLegal f stream && pair ka kb) then e.illegal else
      if e.g.fenced e.c.act then e.stall else
      .next ((Env.close { e with u := (e.signAll f).1 } (e.signAll f).2).out.convergenceTest e.c.uid)
    | _, _ => e.illegal

/-- MMA (R248) -/
def execMma (f : LW) (s : State) : Out := matrixWord f true mmaPair s
/-- MMA.D (R249) -/
def execMmaD (f : LW) (s : State) : Out := matrixWord f false mmaDPair s
/-- MMAI (R250): the two slots agree in block and had (R144) -/
def execMmai (f : LW) (s : State) : Out := matrixWord f false mmaiPair s

/-! Single elements (R251, R252). -/

/-- The coordinate of an element for a type code: nothing where a bit beyond it is set (R251). -/
def coord (fs w : Nat) : Option (Nat × Nat) :=
  if fs = 1 then (if w < 1024 then some (w % 32, w / 32) else none) else (if w < 4096 then some (w % 64, w / 64) else none)

/-- Element (i, j) of the view a type names. -/
def WorkUnit.getElem (u : WorkUnit) (fs t i j : Nat) : Nat := if fs = 1 then u.tile64 t i j else (u.tileWord t (64 * i + j)).toNat
def WorkUnit.setElem (u : WorkUnit) (fs t i j x : Nat) : WorkUnit :=
  if fs = 1 then u.setTile64 t i j x else u.setTileWord t (64 * i + j) (BitVec.ofNat 32 x)

/-- Bytes of a float type code. -/
def floatBytes (fs : Nat) : Nat := if fs = 0 then 4 else if fs = 1 then 8 else 2

/-- A unit that does not hold the matrix set faults for every lane of the issue (R242). -/
def Env.holdsMx (e : Env) : Bool := recMx e.u.record

/-- Fields of TLD and TST (R251), of TREAD and of TWRITE (R252). -/
def tldLegal (f : LW) : Bool := memForm f [2, 3, 4] && decide (f.d < 8) && decide (f.e.fs < 4) && !f.e.bs && f.e.subop == 0
def treadLegal (f : LW) : Bool :=
  f.e.form == 0 && f.e.imm == 0 && decide (f.a < 8) && !f.ea && f.b == 0 && !f.eb && decide (f.e.fs < 2) && !f.e.bs && f.e.subop == 0 && evenIf (f.e.fs == 1) f.d
def twriteLegal (f : LW) : Bool :=
  f.e.form == 0 && f.e.imm == 0 && decide (f.d < 8) && f.b == 0 && !f.eb && decide (f.e.fs < 2) && !f.e.bs && f.e.subop == 0 && evenIf (f.e.fs == 1) f.a

/-- The check of a lane of TLD: its coordinate, then its access (R251). -/
def Env.tldCheck (e : Env) (f : LW) (w : View) (l : Nat) : Except LFault Acc :=
  match coord f.e.fs (w.v l f.e.c) with
  | none => .error (lf 0x04 (w.v l f.e.c) false)
  | some _ => e.loadCheck f (floatBytes f.e.fs) (floatBytes f.e.fs) w l

/-- One lane of TLD: the load of an element of tile d (R251). -/
def tldLane (f : LW) (w : View) (e : Env) (l : Nat) (acc : Acc) : Env × LaneOut :=
  let p : Part := { e.part l (.v l 0) acc (addrNat (w.addr f l)) with x := BitVec.ofNat 64 (w.v l f.e.c) }
  ((e.touched [l] acc true).produce { kind := .tile f.d f.e.fs, parts := [p], pc := e.next, commit := false }, .next)

/-- TLD: the element is written when its value arrives (R251) -/
def execTld (f : LW) (s : State) : Out :=
  s.issue fun e =>
    if !(tldLegal f) then e.illegal else
    if !e.holdsMx then e.faultActive f.g (lf 0x04 0 false) else
    e.inTurn (.tld f) (e.guarded f.g) fun e =>
    e.each f.g false (fun _ => memSrcs f ++ [.v f.e.c false]) (e.tldCheck f) (fun w ps => e.loadWaits w.act (keysOf ps)) (tldLane f)
      (fun t _ => t.merge e.g.inflight.length)

/-- What TST stores for a lane: the element in its type; a coordinate outside the tile faults (R251). -/
def tstPre (f : LW) (w : View) (l : Nat) : Except LFault Unit :=
  match coord f.e.fs (w.v l f.e.c) with | none => .error (lf 0x04 (w.v l f.e.c) true) | some _ => .ok ()
def tstData (f : LW) (u : WorkUnit) (w : View) (l : Nat) : List Byte × Nat :=
  let q := (coord f.e.fs (w.v l f.e.c)).getD (0, 0)
  let x := u.getElem f.e.fs f.d q.1 q.2
  let r := if f.e.fs < 2 then (x, 0) else convFloat fp32 (fmtOf f.e.fs) 0 false x
  (leBytes (floatBytes f.e.fs) r.1, r.2)

/-- TST (R251) -/
def execTst (f : LW) (s : State) : Out :=
  s.issue fun e =>
    if !(tldLegal f) then e.illegal else
    if !e.holdsMx then e.faultActive f.g (lf 0x04 0 true) else
    e.inTurn (.tst f) (e.guarded f.g) fun e =>
    e.storeIn f (floatBytes f.e.fs) (floatBytes f.e.fs) 0 [.v f.e.c false] (tstPre f) (tstData f e.u)

/-- The coordinate of a lane of TREAD or TWRITE (R252). -/
def coordCheck (f : LW) (w : View) (l : Nat) : Except LFault (Nat × Nat) :=
  match coord f.e.fs (w.v l f.e.c) with
  | none => .error (lf 0x04 (w.v l f.e.c) false)
  | some q => .ok q

/-- One lane of TREAD: its element is on its way to its destination (R252). -/
def treadLane (f : LW) (_ : View) (e : Env) (l : Nat) (q : Nat × Nat) : Env × LaneOut :=
  let wide := f.e.fs == 1
  let g := if wide then (e.g.markV l f.d true).markV l (f.d + 1) true else e.g.markV l f.d true
  let p : Part := { lane := l, dest := .v l f.d, keys := [], fwd := [], x := 0, e := BitVec.ofNat 64 (e.u.getElem f.e.fs f.a q.1 q.2), addr := 0, peer := none }
  ({ e with g := g }.produce { kind := .value wide, parts := [p], pc := e.next, commit := false }, .next)

/-- TREAD: a long-latency producer (R252) -/
def execTread (f : LW) (s : State) : Out :=
  s.issue fun e =>
    if !(treadLegal f) then e.illegal else
    if !e.holdsMx then e.faultActive f.g (lf 0x04 0 false) else
    e.inTurn (.tread f) (e.guarded f.g) fun e =>
    e.each f.g false (fun _ => [.v f.e.c false] ++ dstV (f.e.fs == 1) f.d) (coordCheck f) (fun _ _ => false) (treadLane f)
      (fun t _ => t.merge e.g.inflight.length)

/-- One lane of TWRITE (R252). -/
def twriteLane (f : LW) (w : View) (e : Env) (l : Nat) (q : Nat × Nat) : Env × LaneOut :=
  ({ e with u := e.u.setElem f.e.fs f.d q.1 q.2 (w.reg (f.e.fs == 1) l f.a) }, .next)

/-- TWRITE: applied in ascending lanes (R252) -/
def execTwrite (f : LW) (s : State) : Out :=
  s.issue fun e =>
    if !(twriteLegal f) then e.illegal else
    if !e.holdsMx then e.faultActive f.g (lf 0x04 0 false) else
    e.inTurn (.twrite f) (e.guarded f.g) fun e =>
    e.each f.g false (fun _ => srcV (f.e.fs == 1) f.a f.ea ++ [.v f.e.c false]) (coordCheck f) (fun _ _ => false) (twriteLane f) (fun t _ => t)

/-! Whole tiles and masks (R253 to R256). -/

/-- A tile word of a group: the matrix set held, its turn in the tiles' queues. -/
def Env.tiles (e : Env) (i : Instr) (k : Env → Out) : Out :=
  if !e.holdsMx then e.groupFault (lf 0x04 0 false) else e.inTurn i e.g.liveLanes k

/-- A tile whose word w is given. -/
def WorkUnit.fillTile (u : WorkUnit) (t : Nat) (x : Nat → Word) : WorkUnit := (List.range 4096).foldl (fun (u : WorkUnit) w => u.setTileWord t w (x w)) u

/-- A unit with tile t all zero (R253). -/
def WorkUnit.zeroTile (u : WorkUnit) (t : Nat) : WorkUnit := { u with tiles := u.tiles.filter (fun p => !(decide (4096 * t ≤ p.1 ∧ p.1 < 4096 * t + 4096))) }

/-- TZERO (R253) -/
def execTzero (f : GW) (s : State) : Out :=
  s.issue fun e =>
    if !(decide (f.d < 8) && f.a == 0 && f.b == 0 && f.f6 == 0) then e.groupIllegal else
    e.tiles (.tzero f) fun e => Env.groupNext { e with u := e.u.zeroTile f.d }

/-- TCVT's tile (R254): word w and the flags of computing it. -/
def tcvtWord (k : Slotd) (u : WorkUnit) (a w : Nat) : Word × Nat :=
  let i := w / 64
  let j := w % 64
  match k.code with
  | 0 => if i < 32 ∧ j < 32 then (let r := convFloat fp64 fp32 k.rnd k.sat (u.tile64 a i j); (BitVec.ofNat 32 r.1, r.2)) else (0, 0)
  | 1 => if i < 32 then (let r := convFloat fp32 fp64 0 false (u.tileWord a (64 * i + j / 2)).toNat; (BitVec.ofNat 32 (r.1 / 2 ^ (32 * (j % 2))), r.2)) else (0, 0)
  | c =>
    let r := convFloat fp32 (fmtOf c) k.rnd k.sat (u.tileWord a w).toNat
    (BitVec.ofNat 32 (convFloat (fmtOf c) fp32 0 false r.1).1, r.2)

/-- TCVT (R254) -/
def execTcvt (f : GW) (s : State) : Out :=
  s.issue fun e =>
    if !(decide (f.d < 8) && decide (f.a < 8) && f.b == 0 && decide (f.f6 < 8)) then e.groupIllegal else
    match e.slot f.f6 with
    | none => e.groupIllegal
    | some k =>
      if 4 ≤ k.code then e.groupIllegal else
      e.tiles (.tcvt f) fun e =>
      let u := e.u.fillTile f.d (fun w => (tcvtWord k e.u f.a w).1)
      Env.groupNext { e with u := u, g := e.g.raise ((List.range 4096).foldl (fun x w => x ||| (tcvtWord k e.u f.a w).2) 0) }

/-- Word w of the tile that TTR leaves: the transpose of a's FP32 or FP64 view (R255). -/
def ttrWord (fp64 : Bool) (u : WorkUnit) (a w : Nat) : Word :=
  if !fp64 then u.tileWord a (64 * (w % 64) + w / 64)
  else if w / 64 < 32 then u.tileWord a (64 * (w % 64 / 2) + 2 * (w / 64) + w % 64 % 2) else 0

/-- TTR (R255) -/
def execTtr (f : GW) (s : State) : Out :=
  s.issue fun e =>
    if !(decide (f.d < 8) && decide (f.a < 8) && f.b == 0 && decide (f.f6 < 2)) then e.groupIllegal else
    e.tiles (.ttr f) fun e =>
    Env.groupNext { e with u := e.u.fillTile f.d (ttrWord (f.f6 != 0) e.u f.a) }

/-- A mask set from an s register; `first` as YMSET.FIRST reads it (R256). -/
def maskVal (first : Bool) (x : DWord) : DWord := if first then BitVec.ofNat 64 (2 ^ min x.toNat 64 - 1) else x
def maskWord (f : GW) (put : WorkUnit → WorkUnit) (s : State) : Out :=
  s.issue fun e =>
    if !(decide (f.d < 4) && f.b == 0) then e.groupIllegal else
    if !e.holdsMx then e.groupFault (lf 0x04 0 false) else
    e.whenFull [f.a] (Env.groupNext { e with u := put e.u })

/-- The s register a of the issuing group. -/
def State.sOf (s : State) (n : Nat) : DWord := match s.env? with | some e => e.g.getS n | none => 0

/-- YMSET (R256) -/
def execYmset (f : GW) (s : State) : Out := maskWord f (fun u => { u with ym := u.ym.set f.d (maskVal false (s.sOf f.a)) }) s
/-- YMSET.FIRST (R256) -/
def execYmsetFirst (f : GW) (s : State) : Out := maskWord f (fun u => { u with ym := u.ym.set f.d (maskVal true (s.sOf f.a)) }) s
/-- XMSET (R256) -/
def execXmset (f : GW) (s : State) : Out := maskWord f (fun u => { u with xm := u.xm.set f.d (maskVal false (s.sOf f.a)) }) s
/-- XMSET.FIRST (R256) -/
def execXmsetFirst (f : GW) (s : State) : Out := maskWord f (fun u => { u with xm := u.xm.set f.d (maskVal true (s.sOf f.a)) }) s

/-! Panels (R257, R259). -/

/-- The length a mode reads, nothing where the slot's code does not suit it (R257). -/
def panelLen (mode : Nat) (k : Slotd) : Option Nat :=
  match mode with
  | 0 => if k.code = 1 ∨ k.code = 2 ∨ k.code = 3 then some 8192 else none
  | 1 => if k.code = 2 ∨ k.code = 3 then some 4608 else none
  | 2 => if k.code = 0xC then some (scaleLen k + 512 * k.planes) else none
  | _ => none

/-- The indices of a 2-of-4 image are in order (R258). -/
def quadsOk (bs : List Byte) : Bool := (bs.drop 4096).all (fun b => decide (b.toNat % 4 < b.toNat / 4 % 4) && decide (b.toNat / 16 % 4 < b.toNat / 64))

/-- The panel that WBLD leaves (R257, R258). -/
def panelOf (mode : Nat) (desc : DWord) (bs : List Byte) : Panel :=
  { loaded := true, mode := mode, desc := desc, bytes := (bs.zipIdx.filter (fun q => q.1 != 0)).map (fun q => (q.2, q.1)) }

/-- WBLD (R257) -/
def execWbld (f : GW) (s : State) : Out :=
  s.issue fun e =>
    if !(decide (f.d < 32) && f.b == 0 && decide (f.f6 < 32)) then e.groupIllegal else
    let mode := f.f6 % 4
    match (e.slot (f.f6 / 4)).bind (fun k => panelLen mode k) with
    | none => e.groupIllegal
    | some n =>
      if recPanels e.u.record ≤ f.d then e.groupFault (lf 0x04 0 false) else
      e.whenFull [f.a] <|
      let a := ofBase (e.g.getS f.a).toNat 0
      match e.check e.low (memReq a n 128 true false false .cells) 0 with
      | .error q => e.groupFault q
      | .ok acc =>
        e.inTurn (.wbld f) e.g.liveLanes fun e0 =>
        if !e.g.inflight.isEmpty || !e.g.acqs.isEmpty then e.stall else
        match e0.readNow e0.g.liveLanes acc (addrNat a) with
        | .wait e1 => .next { e1 with u := e.u }.out
        | .fail q => e0.groupFault q
        | .got e1 bs =>
          if mode = 1 && !(quadsOk bs) then e0.groupFault (lf 0x04 (addrNat a) false) else
          let e2 := e1.touched e.g.liveLanes acc true
          Env.groupNext { e2 with u := { e2.u with panels := e2.u.panels.set f.d (panelOf mode (recSlot e.u.record (f.f6 / 4)) bs) } }

/-- WBFREE (R259) -/
def execWbfree (f : GW) (s : State) : Out :=
  s.issue fun e =>
    if !(decide (f.d < 32) && f.a == 0 && f.b == 0 && f.f6 == 0) then e.groupIllegal else
    if recPanels e.u.record ≤ f.d then e.groupFault (lf 0x04 0 false) else
    e.inTurn (.wbfree f) e.g.liveLanes fun e =>
    Env.groupNext { e with u := { e.u with panels := e.u.panels.set f.d Panel.blank } }

end Sys2Proof.Machine
end

