-- ==== Sys2Proof/Machine/Factor.lean ====
section
/-! DEFINITION. Factor accumulators (R260 to R265) and their sweeps and solves (R151 to R154). -/

namespace Sys2Proof.Machine

/-! Arithmetic in an accumulator's format. -/

def FactorAcc.fmt (a : FactorAcc) : Fmt := if a.f64 then fp64 else fp32
def FactorAcc.get (a : FactorAcc) (i j : Nat) : Nat := (SMap.get 0 a.l (64 * i + j)).toNat
def FactorAcc.put (a : FactorAcc) (i j x : Nat) : FactorAcc := { a with l := SMap.put 0 a.l (64 * i + j) (BitVec.ofNat 64 x) }
def FactorAcc.empty : FactorAcc := ⟨0, false, []⟩
def WorkUnit.fa (u : WorkUnit) (n : Nat) : FactorAcc := u.fas.getD n FactorAcc.empty

/-- The exact sum of products, some subtracted: its value and the flags of forming it. -/
def prodSum (t : Fmt) (ps : List (Bool × Nat × Nat)) : FVal × Nat :=
  let ms := ps.map (fun p => let m := (t.val p.2.1).mul (t.val p.2.2); (if p.1 then m.1.negate else m.1, m.2 ||| sigFlags [t.val p.2.1, t.val p.2.2]))
  let r := sumVals 0 (ms.map (·.1))
  (r.1, ms.foldl (fun a m => a ||| m.2) r.2)

/-- Round of such a sum with further terms. -/
def roundSum (t : Fmt) (xs : List Nat) (ps : List (Bool × Nat × Nat)) : Nat × Nat :=
  let ms := ps.map (fun p => let m := (t.val p.2.1).mul (t.val p.2.2); (if p.1 then m.1.negate else m.1, m.2 ||| sigFlags [t.val p.2.1, t.val p.2.2]))
  let r := t.sum 0 false (xs.map t.val ++ ms.map (·.1))
  (r.1, (ms.foldl (fun a m => a ||| m.2) r.2) ||| sigFlags (xs.map t.val))

/-- A sweep's working state: the factor, the vector, the flags. -/
structure Sweep where
  acc : FactorAcc
  x : List Nat
  fl : Nat
  deriving DecidableEq, Repr

/-- The rotation of rows below column k (R151, R152): `down` subtracts. -/
def Sweep.rotate (w : Sweep) (down : Bool) (k rho : Nat) : Sweep :=
  let t := w.acc.fmt
  let c := t.div 0 (w.acc.get k k) rho
  let s := t.div 0 (w.x.getD k 0) rho
  let w1 : Sweep := { acc := w.acc.put k k rho, x := w.x.set k 0, fl := w.fl ||| c.2 ||| s.2 }
  (upFrom (k + 1) (w.acc.n - 1 - k)).foldl (fun (w : Sweep) i =>
    let li := w.acc.get i k
    let xi := w.x.getD i 0
    let l' := roundSum t [] [(false, c.1, li), (down, s.1, xi)]
    let x' := roundSum t [] [(false, c.1, xi), (true, s.1, li)]
    { acc := w.acc.put i k l'.1, x := w.x.set i x'.1, fl := w.fl ||| l'.2 ||| x'.2 }) w1

/-- The absorb sweep (R151). -/
def absorb (a : FactorAcc) (x : List Nat) : Sweep :=
  (List.range a.n).foldl (fun (w : Sweep) k =>
    let t := a.fmt
    let q := prodSum t [(false, w.acc.get k k, w.acc.get k k), (false, w.x.getD k 0, w.x.getD k 0)]
    let rho := t.sqrtVal 0 q.1
    let w1 : Sweep := { w with fl := w.fl ||| q.2 ||| rho.2 }
    if (t.val rho.1).isZero then w1 else w1.rotate false k rho.1) ⟨a, x, 0⟩

/-- d ≤ 0; a NaN is not (R152). -/
def notPositive : FVal → Bool
  | .nan _ => false
  | .inf n => n
  | .fin n m _ => n || m == 0

/-- The downdate sweep (R152): the swept factor, or the first column at which d ≤ 0. -/
def downdate (a : FactorAcc) (x : List Nat) : Except Nat Sweep :=
  (List.range a.n).foldl (fun (r : Except Nat Sweep) k =>
    match r with
    | .error c => .error c
    | .ok w =>
      let t := a.fmt
      let d := prodSum t [(false, w.acc.get k k, w.acc.get k k), (true, w.x.getD k 0, w.x.getD k 0)]
      if notPositive d.1 then .error k else
      let rho := t.sqrtVal 0 d.1
      .ok ({ w with fl := w.fl ||| d.2 ||| rho.2 }.rotate true k rho.1)) (.ok ⟨a, x, 0⟩)

/-- One element of a triangular solve (R154). -/
def solveStep (t : Fmt) (b diag : Nat) (ps : List (Bool × Nat × Nat)) : Nat × Nat :=
  let r := roundSum t [b] ps
  let q := t.div 0 r.1 diag
  (q.1, r.2 ||| q.2)

/-- L y = b (R154). -/
def forward (a : FactorAcc) (b : List Nat) : List Nat × Nat :=
  (List.range a.n).foldl (fun (r : List Nat × Nat) i =>
    let y := solveStep a.fmt (b.getD i 0) (a.get i i) ((List.range i).map (fun j => (true, a.get i j, r.1.getD j 0)))
    (r.1 ++ [y.1], r.2 ||| y.2)) ([], 0)

/-- Lᵀ z = y (R154). -/
def backward (a : FactorAcc) (y : List Nat) : List Nat × Nat :=
  (List.range a.n).foldl (fun (r : List Nat × Nat) k =>
    let i := a.n - 1 - k
    let z := solveStep a.fmt (y.getD i 0) (a.get i i) ((upFrom (i + 1) k).zipIdx.map (fun p => (true, a.get p.1 i, r.1.getD p.2 0)))
    (z.1 :: r.1, r.2 ||| z.2)) ([], 0)

/-- G w = b: forward, then backward on the rounded y (R265). -/
def solveG (a : FactorAcc) (b : List Nat) : List Nat × Nat :=
  let y := forward a b
  let z := backward a y.1
  (z.1, y.2 ||| z.2)

/-- L x, or Lᵀ x, each element rounded once (R265). -/
def product (a : FactorAcc) (tr : Bool) (x : List Nat) : List Nat × Nat :=
  (List.range a.n).foldl (fun (r : List Nat × Nat) i =>
    let ps := if tr then (upFrom i (a.n - i)).map (fun j => (false, a.get j i, x.getD j 0)) else (List.range (i + 1)).map (fun j => (false, a.get i j, x.getD j 0))
    let y := roundSum a.fmt [] ps
    (r.1 ++ [y.1], r.2 ||| y.2)) ([], 0)

/-- What a heavy factor word comes to: a column with d ≤ 0, or a new factor, a result vector and flags (R264, R265). -/
def factorResult (i : Instr) (a : FactorAcc) (x y : List Nat) : Except Nat (FactorAcc × List Nat × Nat) :=
  let vec (r : List Nat × Nat) : Except Nat (FactorAcc × List Nat × Nat) := .ok (a, r.1, r.2)
  match i with
  | .faupd _ => let w := absorb a x; .ok (w.acc, [], w.fl)
  | .fadwd _ => (match downdate a x with | .ok w => .ok (w.acc, [], w.fl) | .error c => .error c)
  | .fasolvF _ => vec (forward a x)
  | .fasolvB _ => vec (backward a x)
  | .fasolvG _ => vec (solveG a x)
  | .fasolvLoo _ => (match downdate a y with
      | .ok w => let r := solveG w.acc x; .ok (a, r.1, w.fl ||| r.2)
      | .error c => .error c)
  | .famul _ => vec (product a false x)
  | .famulT _ => vec (product a true x)
  | _ => .ok (a, [], 0)

/-! Heavy factor words. -/

/-- The accumulator and the destination of a factor word. -/
def factorRegs (i : Instr) : Nat × Option Nat :=
  match i with
  | .faupd f => (f.d, none)
  | .fadwd f => (f.d, none)
  | .fasolvF f => (f.a, some f.d)
  | .fasolvB f => (f.a, some f.d)
  | .fasolvG f => (f.a, some f.d)
  | .fasolvLoo f => (f.a, some f.d)
  | .famul f => (f.a, some f.d)
  | .famulT f => (f.a, some f.d)
  | _ => (0, none)

/-- Destinations of an issue marked empty, or full again. -/
def Group.markAll (g : Group) (ls : List Nat) (wide : Bool) (d : Nat) (b : Bool) : Group :=
  ls.foldl (fun (g : Group) l => if wide then (g.markV l d b).markV l (d + 1) b else g.markV l d b) g

/-- A producer that delivers a vector to lanes: +0 to a lane at or above the order (R265). -/
def vectorProducer (ls : List Nat) (wide : Bool) (d : Nat) (v : List Nat) (pc : Nat) : Producer :=
  { kind := .value wide, parts := ls.map (fun l => { lane := l, dest := .v l d, keys := [], fwd := [], x := 0, e := BitVec.ofNat 64 (v.getD l 0), addr := 0, peer := none }),
    pc := pc, commit := false }

/-- A factor operation begins: it is performed whole, its lanes are unparked, its result is on its way; a column with d ≤ 0 faults its lanes and leaves everything as it was (R264, R265). The flag says whether it still holds leave. -/
def State.beginFactor (s : State) (u : WorkUnit) (o : HeavyOp) : State × Bool :=
  let rs := factorRegs o.instr
  let a := u.fa rs.1
  let lanes := o.lanes.map (·.2)
  match factorResult o.instr a (o.xs.map (·.toNat)) (o.ys.map (·.toNat)) with
  | .error col =>
    let u1 := match rs.2 with
      | some d => u.onGroup o.grp (fun g => g.markAll lanes a.f64 d false)
      | none => u
    (s.setUnit ({ u1 with ops := u1.ops.filter (fun (x : HeavyOp) => x.id != o.id) }.faultLanes s.cycle o.lanes o.pc 0x08 col), false)
  | .ok r =>
    let u1 : WorkUnit := { u with fas := u.fas.set rs.1 r.1, ops := u.ops.map (fun (x : HeavyOp) => if x.id = o.id then { o with begun := true } else x) }
    let len := 4 * wordCount (match encode o.instr with | some w => w.1 | none => 0)
    let u2 := u1.onGroup o.grp (fun g =>
      let g1 := g.raise r.2.2
      match rs.2 with
      | some d => { g1 with inflight := g1.inflight ++ [vectorProducer lanes a.f64 d r.2.1 (o.pc + len)] }
      | none => g1)
    (s.setUnit (u2.wakeLanes o.lanes), true)

/-- What reading the vectors of a factor word comes to (R260). -/
inductive VecRes where
  | stall
  | fault (f : LFault)
  | ok (vs : List (List Nat)) (g : Group)
  deriving DecidableEq, Repr

/-- The vectors that the sources give lanes 0 to n − 1, read as one operation. -/
def Env.vectors (e : Env) (act : List Nat) (n : Nat) (wide : Bool) (xs : List (Nat × Bool)) : VecRes :=
  let srcs := xs.flatMap (fun x => srcV wide x.1 x.2)
  let w := e.view act srcs
  let meets (l : Nat) : List LaneOut := xs.filterMap (fun x =>
    if (w.elem l x.1).isSome || w.dry.contains x.1 || w.ended.contains x.1 || (e.g.lane l).st.live then w.checks l (srcV wide x.1 x.2) else none)
  let all := (List.range n).flatMap meets
  match all.findSome? (fun o => match o with | .fault q => some q | _ => none) with
  | some q => .fault q
  | none =>
    if !all.isEmpty then .stall else
    .ok (xs.map (fun x => (List.range n).map (fun l => match w.elem l x.1 with | some y => y.val.toNat | none => (w.from wide l l x.1).getD 0)))
      (e.g.advance e.c.held (List.range n) w.pops srcs)

/-- The checks every factor word but FALD makes on its accumulator (R242, R260), in order: the order is held against G where a vector is read; an odd register of an FP64 vector or result faults as R158 says, and a bound FP64 vector by R260. -/
def Env.factor (e : Env) (i : Instr) (heavy : Bool) (gn acc : Nat) (vec : Bool) (regs bound : List Nat) (k : Env → Nat → FactorAcc → List Nat → Out) : Out :=
  let act := e.guarded gn
  if act.isEmpty then e.finish (e.c.act.map (fun l => (l, .next))) else
  if !e.holdsMx then e.faultActive gn (lf 0x04 0 false) else
  e.inLine i heavy act fun e n =>
  let a := e.u.fa acc
  if a.n = 0 then e.faultActive gn (lf 0x04 0 false) else
  if a.f64 && regs.any (fun r => r % 2 == 1) then e.illegal else
  if vec && decide (e.G < a.n) then e.faultActive gn (lf 0x04 0 false) else
  if a.f64 && bound.any (fun r => e.g.binds.any (fun b => b.reg == r)) then e.faultActive gn (lf 0x04 0 false) else
  k e n a act

/-- A destination still empty from an earlier producer makes the issue wait (R44). -/
def Env.destEmpty (e : Env) (act : List Nat) (wide : Bool) (d : Nat) : Bool := act.any (fun l => e.g.emptyV l d || (wide && e.g.emptyV l (d + 1)))

/-- Fields that the heavy factor words share (R261). -/
def heavyLegal (f : LW) (acc : Nat) : Bool := decide (acc < 4) && f.e.form == 0 && f.e.fs == 0 && !f.e.bs && f.e.imm == 0
/-- Fields of FAUPD and FADWD (R264), of FASOLV and FAMUL (R265), of FADIAG (R265). -/
def faupdLegal (f : LW) : Bool := f.b == 0 && !f.eb && f.e.c == 0 && f.e.subop == 0
def fasolvLegal (f : LW) : Bool := !f.ea && f.e.c == 0
def fadiagLegal (f : LW) : Bool :=
  f.e.form == 0 && f.e.fs == 0 && f.e.c == 0 && !f.e.bs && f.e.subop == 0 && f.e.imm == 0 && decide (f.a < 4) && !f.ea && f.b == 0 && !f.eb

/-- A heavy factor word in its unit's queue (R261). -/
def Env.heavyOp (e : Env) (i : Instr) (act : List Nat) (perm : Bool) (vs : List (List Nat)) : HeavyOp :=
  { id := e.u.nextOp, instr := i, pc := e.c.pc, row := 0, col := 0, k := 0, grp := e.c.grp, lanes := act.map (fun l => (e.c.grp, l)), cv := 0,
    begun := false, perm := perm, xs := (vs.getD 0 []).map (BitVec.ofNat 64 ·), ys := (vs.getD 1 []).map (BitVec.ofNat 64 ·) }

/-- The issue with the operation at its place in the queue and its destination empty (R244, R261). -/
def Env.heavyQueued (e : Env) (n : Nat) (o : HeavyOp) (act : List Nat) (f64 : Bool) (dest : Option Nat) (g : Group) : Env :=
  { e with g := match dest with | some d => g.markAll act f64 d true | none => g, u := { e.u with ops := e.u.ops.take n ++ o :: e.u.ops.drop n, nextOp := e.u.nextOp + 1 } }
/-- A heavy operation that has leave begins once it is first in its registers' queues and, under a permit, the permit's amount is free (R244, R279, R304); nothing where it must wait. One that faults as it begins returns its leave. -/
def State.beginHeavy (s : State) (u : WorkUnit) (o : HeavyOp) : Option State :=
  if !(u.firstOn o) || u.onWay o.instr || (o.perm && s.permitInUse u o.grp) then none else
  let r := if (matrixLW o.instr).isSome then s.beginMatrix u o else some (s.beginFactor u o).1
  r.map (fun t => if o.perm || (match t.unit? u.uid with | some v => v.ops.any (fun p => p.id == o.id) | none => false) then t else t.leaveEnds u.die (.heavy u.uid o.id))
/-- As beginHeavy for an operation that has just been given leave: it keeps it until it can begin. -/
def State.giveLeave (s : State) (u : WorkUnit) (o : HeavyOp) : State :=
  (s.beginHeavy u o).getD (s.setUnit { u with ops := u.ops.map (fun (x : HeavyOp) => if x.id = o.id then { x with leave := true } else x) })
/-- The operation begins under the group's permit, or asks leave (R279, R304). -/
def Env.heavyAsks (e : Env) (o : HeavyOp) (demand : Nat) (s : State) : State :=
  if o.perm then (match s.unit? e.c.uid with | some u => s.giveLeave u o | none => s)
  else s.ask e.u.die (effPrio e.u e.g) (.heavy e.u.uid o.id) demand

/-- A heavy factor word: its vectors are read, it enters the queue and asks leave; its lanes park until it begins (R261, R304). -/
def heavyFactor (i : Instr) (f : LW) (ok : Bool) (acc : Nat) (dest : Option Nat) (xs : List (Nat × Bool)) (s : State) : Out :=
  s.issue fun e =>
    if !(ok && heavyLegal f acc) then e.illegal else
    e.factor i true f.g acc true (xs.map (·.1) ++ dest.toList) (xs.map (·.1)) fun e n a act =>
      if e.g.fenced act || dest.any (e.destEmpty act a.f64) then e.stall else
      match e.vectors act a.n a.f64 xs with
      | .stall => e.stall
      | .fault q => e.faultActive f.g q
      | .ok vs g =>
        let perm := e.u.permitCovers e.c.grp (heavyDemand i)
        if !perm && decide ((e.s.die e.u.die).budget < heavyDemand i) then e.faultActive f.g (lf 0x04 0 false) else
        let o := e.heavyOp i act perm vs
        .next (e.heavyAsks o (heavyDemand i) ((e.heavyQueued n o act a.f64 dest g).close (e.c.act.map (fun l => (l, if act.contains l then .park .leave 0 else .next)))).out)

/-- FAUPD (R264) -/
def execFaupd (f : LW) (s : State) : Out := heavyFactor (.faupd f) f (faupdLegal f) f.d none [(f.a, f.ea)] s
/-- FADWD (R264) -/
def execFadwd (f : LW) (s : State) : Out := heavyFactor (.fadwd f) f (faupdLegal f) f.d none [(f.a, f.ea)] s
/-- FASOLV.F (R265) -/
def execFasolvF (f : LW) (s : State) : Out := heavyFactor (.fasolvF f) f (fasolvLegal f) f.a (some f.d) [(f.b, f.eb)] s
/-- FASOLV.B (R265) -/
def execFasolvB (f : LW) (s : State) : Out := heavyFactor (.fasolvB f) f (fasolvLegal f) f.a (some f.d) [(f.b, f.eb)] s
/-- FASOLV.G (R265) -/
def execFasolvG (f : LW) (s : State) : Out := heavyFactor (.fasolvG f) f (fasolvLegal f) f.a (some f.d) [(f.b, f.eb)] s
/-- FASOLV.LOO (R265) -/
def execFasolvLoo (f : LW) (s : State) : Out := heavyFactor (.fasolvLoo f) f (!f.ea) f.a (some f.d) [(f.b, f.eb), (f.e.c, false)] s
/-- FAMUL (R265) -/
def execFamul (f : LW) (s : State) : Out := heavyFactor (.famul f) f (fasolvLegal f) f.a (some f.d) [(f.b, f.eb)] s
/-- FAMUL.T (R265) -/
def execFamulT (f : LW) (s : State) : Out := heavyFactor (.famulT f) f (fasolvLegal f) f.a (some f.d) [(f.b, f.eb)] s

/-! Light factor words. -/

/-- FADIAG (R265) -/
def execFadiag (f : LW) (s : State) : Out :=
  s.issue fun e =>
    if !(fadiagLegal f) then e.illegal else
    e.factor (.fadiag f) false f.g f.a false [f.d] [] fun e _ a act =>
      if e.destEmpty act a.f64 f.d then e.stall else
      let p := vectorProducer act a.f64 f.d ((List.range a.n).map (fun i => a.get i i)) e.next
      Env.finish ({ e with g := e.g.markAll act a.f64 f.d true }.produce p) (e.c.act.map (fun l => (l, .next)))

/-- The image of an accumulator (R262). -/
def faImage (a : FactorAcc) : List Byte :=
  leBytes 8 (a.n + (if a.f64 then 128 else 0)) ++ (List.range a.n).flatMap (fun i => (List.range (i + 1)).flatMap (fun j => leBytes (if a.f64 then 8 else 4) (a.get i j)))
def faLen (n : Nat) (f64 : Bool) : Nat := 8 + n * (n + 1) / 2 * (if f64 then 8 else 4)
/-- The accumulator of an image's bytes after its header. -/
def faOfImage (n : Nat) (f64 : Bool) (bs : List Byte) : FactorAcc :=
  let w := if f64 then 8 else 4
  (List.range n).foldl (fun (a : FactorAcc) i => (List.range (i + 1)).foldl (fun (a : FactorAcc) j =>
    a.put i j (leNat ((bs.drop (w * (i * (i + 1) / 2 + j))).take w))) a) ⟨n, f64, []⟩
/-- An order within its format's range (R260). -/
def orderOk (n : Nat) (f64 : Bool) : Bool := decide (1 ≤ n ∧ n ≤ if f64 then 32 else 64)

/-- The fields of FALD and FAST (R261). -/
def faMem (f : LW) : Bool := memForm f [3] && decide (f.d < 4) && f.e.fs == 0 && f.e.c == 0 && !f.e.bs && f.e.subop == 0

/-- The request of FALD for n bytes, and of FAST (R262). -/
def faReq (a : Addr) (n : Nat) (rd : Bool) : Req := memReq a n 128 rd (!rd) false .cells
/-- A read of FALD that waits, or fails: the lanes stay at the word in `e`, whose place in the queue they keep. -/
def Env.notYet (e : Env) (r : Now) : Env × LaneOut :=
  match r with
  | .wait e1 => ({ e1 with u := e.u }, .stay)
  | .fail q => (e, .fault q)
  | .got e1 _ => (e1, .stay)

/-- The one access of FALD: the header first, then the whole image (R262). -/
def faldStep (f : LW) (e : Env) (w : View) (l : Nat) (acc : Acc) : Env × LaneOut :=
  let a := w.addr f 0
  match e.readNow (e.guarded f.g) acc (addrNat a) with
  | .got _ h =>
    let x := leNat h
    if !(orderOk (x % 128) (bitAt x 7) && decide (x < 256)) then (e, .fault (lf 0x04 (addrNat a) false)) else
    (match e.check l (faReq a (faLen (x % 128) (bitAt x 7)) true) 0 with
    | .error q => (e, .fault q)
    | .ok all =>
      match e.readNow (e.guarded f.g) all (addrNat a) with
      | .got e1 bs =>
        let e2 := e1.touched w.act all true
        ({ e2 with u := { e2.u with fas := e2.u.fas.set f.d (faOfImage (x % 128) (bitAt x 7) (bs.drop 8)) } }, .next)
      | r => e.notYet r)
  | r => e.notYet r

/-- An issue that keeps its place in the queues where its lanes stay at the word. -/
def Env.keeping (e0 : Env) (r : Env × LaneOut) : Env × LaneOut := if r.2.isStay then ({ r.1 with u := e0.u }, r.2) else r

/-- FALD: the header first, then the whole image (R262) -/
def execFald (f : LW) (s : State) : Out :=
  s.issue fun e =>
    if !(faMem f) then e.illegal else
    if !e.holdsMx then e.faultActive f.g (lf 0x04 0 false) else
    e.inTurn (.fald f) (e.guarded f.g) fun e1 =>
    e1.once f.g false (memSrcs f) (fun w l => e1.check l (faReq (w.addr f 0) 8 true) 0) (fun act _ acc => e.loadWaits act acc.keys)
      (fun w l acc => e.keeping (faldStep f e1 w l acc))

/-- The one access of FAST: the image of the accumulator, at the home of a lattice segment and else into the store buffer (R91, R107, R262). -/
def fastStep (f : LW) (fa : FactorAcc) (e : Env) (w : View) (l : Nat) (acc : Acc) : Env × LaneOut :=
  let a := w.addr f 0
  if acc.g.kind == .lattice then
    let r := e.s.latticeStore e.u.die acc.g a.seg acc.off acc.keys (faImage fa)
    ((e.wrote acc.keys).changed r.1 acc.keys, match r.2 with | some q => .fault q | none => .next)
  else ((e.store l (w.act.filter (· != l)) acc (faImage fa) 0 (addrNat a)).stored e.s.posted.length, .next)

/-- FAST (R262) -/
def execFast (f : LW) (s : State) : Out :=
  s.issue fun e =>
    if !(faMem f) then e.illegal else
    if !e.holdsMx then e.faultActive f.g (lf 0x04 0 true) else
    e.inTurn (.fast f) (e.guarded f.g) fun e =>
    if (e.u.fa f.d).n = 0 then e.faultActive f.g (lf 0x04 0 true) else
    e.once f.g true (memSrcs f) (fun w l => e.check l (faReq (w.addr f 0) (faLen (e.u.fa f.d).n (e.u.fa f.d).f64) false) 0)
      (fun act _ acc => e.storeWaits 0 1 (act.map (fun l => (l, acc)))) (fastStep f (e.u.fa f.d) e)

/-- A positive or zero FP32 number: its bits with −0 taken as +0, nothing for a negative, infinite or NaN value (R263). -/
def nonNegative (w : Nat) : Option Nat :=
  match fp32.val w with
  | .fin n m _ => if m = 0 then some 0 else if n then none else some w
  | _ => none

/-- A group word on an accumulator. -/
def faGroup (i : Instr) (f : GW) (k : Env → Option (FactorAcc × Nat)) (s : State) : Out :=
  s.issue fun e =>
    if !(decide (f.d < 4) && f.b == 0 && f.f6 == 0) then e.groupIllegal else
    if !e.holdsMx then e.groupFault (lf 0x04 0 false) else
    e.whenFull [f.a] <|
    e.inTurn i e.g.liveLanes fun e =>
    match k e with
    | none => e.groupFault (lf 0x04 0 false)
    | some (a, fl) => Env.groupNext { e with u := { e.u with fas := e.u.fas.set f.d a }, g := e.g.raise fl }

/-- The accumulator that FAINIT makes of s register a, nothing where it faults (R263). -/
def fainitAcc (x : DWord) : Option FactorAcc :=
  let n := field x 0 7
  let f64 := field x 7 1 == 1
  if !(orderOk n f64) || field x 8 24 != 0 then none else
  (nonNegative (field x 32 32)).map (fun d =>
    let v := if f64 then (convFloat fp32 fp64 0 false d).1 else d
    (List.range n).foldl (fun (a : FactorAcc) i => a.put i i v) ⟨n, f64, []⟩)

/-- One product of FASCL: a zero factor makes every element +0 (R263). -/
def fasclElem (a : FactorAcc) (v x : Nat) : Nat × Nat := if (a.fmt.val v).isZero then (0, 0) else a.fmt.mul 0 v x

/-- What FASCL makes of an accumulator, with its flags; nothing where it faults (R263). -/
def fasclAcc (x : DWord) (a : FactorAcc) : Option (FactorAcc × Nat) :=
  if a.n = 0 ∨ field x 32 32 ≠ 0 then none else
  (nonNegative (field x 0 32)).map (fun sc =>
    let v := if a.f64 then (convFloat fp32 fp64 0 false sc).1 else sc
    (List.range a.n).foldl (fun (r : FactorAcc × Nat) i => (List.range (i + 1)).foldl (fun (r : FactorAcc × Nat) j =>
      let y := fasclElem a v (a.get i j)
      (r.1.put i j y.1, r.2 ||| y.2)) r) (a, 0))

/-- FAINIT (R263) -/
def execFainit (f : GW) (s : State) : Out := faGroup (.fainit f) f (fun e => (fainitAcc (e.g.getS f.a)).map (fun a => (a, 0))) s

/-- FASCL (R263) -/
def execFascl (f : GW) (s : State) : Out := faGroup (.fascl f) f (fun e => fasclAcc (e.g.getS f.a) (e.u.fa f.d)) s

/-- MATRIX_OPERATION_COMPLETE (R244, R304): the operation in position b of unit a, first in its registers' queues, goes on: one with leave that has not begun begins; one that has begun leaves the queues, a matrix operation's result is written, leave is returned -/
def execMatrixOperationComplete (s : State) : Out :=
  match s.unit? s.arg.a with
  | none => .next s
  | some u =>
    match u.ops[s.arg.b]? with
    | none => .next s
    | some o =>
      if o.light || !(u.firstOn o) || u.onWay o.instr then .next s else
      if !o.begun then .next (if o.leave then (s.beginHeavy u o).getD s else s) else
      let u1 := if (matrixLW o.instr).isSome then u.applyMatrix o else u
      let s1 := s.setUnit { u1 with ops := u1.ops.eraseIdx s.arg.b }
      .next (if o.perm then s1 else s1.leaveEnds u.die (.heavy u.uid o.id))

end Sys2Proof.Machine
end

