-- ==== Sys2Proof/Machine/Stores.lean ====
section
/-! DEFINITION. Buffered stores on their way: applied at the home, then committed (R106, R107); draining a group (R234, R337); circular-buffer headers (R82). -/

namespace Sys2Proof.Machine

/-- Entry i of a group's store buffer reaches its home. One that cannot be reached performs nothing (R354, R358). A release is tested against its lines' scope records, and is not performed where it fails (R117); else it sets them (R116). Other lanes' fences are told (R114), the store stands pending (R107); an update of a replicated segment receives its number (R121). -/
def State.applyAt (s : State) (uid grp i : Nat) : State :=
  match (s.unit? uid).bind (fun u => (u.group grp).map (fun g => (u, g))) with
  | none => s
  | some (u, g) =>
    match g.sbuf[i]? with
    | none => s
    | some b =>
      let taken := s.setUnit (u.setGroup grp { g with sbuf := g.sbuf.eraseIdx i })
      let fails (code : Nat) : State := taken.onUnit uid (fun u => u.laneFaults s.cycle grp (some (b.at_, b.seq)) ((b.lane :: b.others).map (fun l => (l, lf code b.addr true))))
      if !b.repl && s.homeDown b.recs then fails 0x0E else
      if b.rel != 0 && b.recs.any (fun k => !(s.scopeOk u grp b.lane b.rel k.1)) then
        fails 0x07
      else
      let s1 := taken.hitFences (s.landing b.repl b.keys b.bytes).1
      let s2 := if b.rel = 0 then s1 else b.recs.foldl (fun (s : State) k => s.setScope k b.rel (scopeInst b.rel u grp b.lane)) s1
      let p : PendStore := { uid := uid, grp := grp, die := u.die, keys := b.keys, bytes := b.bytes, rel := b.rel, lane := b.lane, repl := b.repl,
                             seqd := if b.repl then some s.nextSeq else none, port := none,
                             unacked := s2.sharersOf (s.landing b.repl b.keys b.bytes).1, recs := b.recs }
      { s2 with pend := s2.pend ++ [p], nextSeq := if b.repl then s.nextSeq + 1 else s.nextSeq }

/-- The stores of one issue are applied together, in ascending lanes, with nothing between them (R210). -/
def State.applyIssue : Nat → State → Nat → Nat → Nat → State
  | 0, s, _, _, _ => s
  | n + 1, s, uid, grp, seq =>
    match ((s.unit? uid).bind (·.group grp)).bind (fun g => g.sbuf.findIdx? (fun b => b.seq == seq && b.held.isNone)) with
    | some i => State.applyIssue n (s.applyAt uid grp i) uid grp seq
    | none => s

/-- Entry j of the pending stores is committed: every party sees it (R107). -/
def State.commitAt (s : State) (j : Nat) : State :=
  match s.pend[j]? with
  | none => s
  | some p =>
    let t := s.landing p.repl p.keys p.bytes
    State.expose { s with pend := s.pend.eraseIdx j, out := s.out ++ p.cxl.toList.map (fun q => .cxlDone q) } p.die t.1 t.2

/-- Every pending store committed, oldest first. -/
def State.commitAll : Nat → State → State
  | 0, s => s
  | n + 1, s => State.commitAll n (s.commitAt 0)

/-- A group's store buffer performed in order, but for the stores held past an incomplete fence, which are discarded (R115, R234, R337). -/
def State.drainGroup (s : State) (uid grp : Nat) : State :=
  let s1 := s.onGroup uid grp (fun g => { g with sbuf := g.sbuf.filter (fun b => b.held.isNone) })
  let n := match (s1.unit? uid).bind (·.group grp) with | some g => g.sbuf.length | none => 0
  let s2 := (List.range n).foldl (fun (s : State) _ => s.applyAt uid grp 0) s1
  if s2.pend.any (fun p => p.uid == uid && p.grp == grp) then s2.commitAll s2.pend.length else s2

/-- The checks of R59 of a circular-buffer header at an address (R82, R229): the key of its word 0. -/
def State.cbPlace (s : State) (u : WorkUnit) (a : Addr) : Except Nat Nat :=
  match s.unitSeg u a.seg with
  | .null => .error 0x19
  | .revoked => .error 0x0F
  | _ =>
    if a.seg ≠ 1 then .error 0x04 else
    if a.off % 16 ≠ 0 then .error 0x03 else
    if a.off < 0 ∨ ((recScr u.record * 4096 : Nat) : Int) < a.off + 16 then .error 0x02
    else .ok (scratchKey u.uid a.off.toNat)

/-- The checks of a circular-buffer header at an address, in their order (R82, R229): the key of its word 0. -/
def State.cbCheck (s : State) (u : WorkUnit) (a : Addr) : Except Nat Nat :=
  match s.cbPlace u a with
  | .error c => .error c
  | .ok key =>
    let len := recScr u.record * 4096
    let w0 := s.rd8 key
    let w1 := s.rd8 (key + 8)
    let n := bits w0 0 9
    if n ≠ 0 ∧ len < bits w0 28 20 + n * 2 ^ bits w0 24 4 then .error 0x02 else
    if bits w0 48 16 != 0 || bits w0 9 15 != 0 || bits w1 36 28 != 0 || bits w1 16 2 != 0 || n == 0 || decide (256 < n) || decide (bits w0 24 4 < 6) ||
        bits w0 28 20 % 64 != 0 || decide (n ≤ bits w1 8 8) || decide (n ≤ bits w1 0 8) then .error 0x04
    else .ok key

end Sys2Proof.Machine
end

