-- ==== Sys2Proof/Machine/Control.lean ====
section
/-! DEFINITION. Control words of lanes: fences, barriers, circular buffers, timeline waits, control transfer, traps (R226 to R236), and the optional opcodes (R166). -/

namespace Sys2Proof.Machine

/-- Outcome o for the guarded lanes, the successor for the others. -/
def Env.outs (e : Env) (gn : Nat) (o : Nat → LaneOut) : List (Nat × LaneOut) :=
  let act := e.guarded gn
  e.c.act.map (fun l => (l, if act.contains l then o l else .next))

/-- The fields of a word of the control major (R164). -/
def controlOk (f : LW) : Bool := f.d == 0 && f.a == 0 && f.ext.isNone && !f.ea && !f.eb

/-- Fields of TRAPU (R236), WAITTL (R230) and FENCE (R226). -/
def trapuLegal (f : LW) : Bool := f.e.form == 1 && f.d == 0 && f.a == 0 && f.b == 0 && !f.ea && !f.eb && f.e.c == 0 && f.e.fs == 0 && !f.e.bs && f.e.subop == 0
def waittlLegal (f : LW) : Bool := formOk f && f.d == 0 && decide (f.a < 8) && !f.ea && f.e.fs == 0 && f.e.c == 0 && f.e.subop == 0
def fenceLegal (f : LW) : Bool :=
  f.e.form == 0 && decide (1 ≤ f.e.subop) && f.d == 0 && f.a == 0 && f.b == 0 && !f.ea && !f.eb && f.e.c == 0 && f.e.fs == 0 && !f.e.bs && f.e.imm == 0
/-- Fields of BR, JMP, CALL (R231) and of BRX and BRX.CALL (R232). -/
def brLegal (f : LW) : Bool := decide (1 ≤ f.g) && f.ext.isNone && !f.ea && !f.eb
def jmpLegal (f : LW) : Bool := f.g == 0 && f.ext.isNone && !f.ea && !f.eb
def callLegal (f : LW) : Bool := f.ext.isNone && !f.ea && !f.eb
def brxLegal (f : LW) (call : Bool) : Bool :=
  f.d == 0 && f.e.form == 0 && f.e.fs == 0 && f.e.c == 0 && f.e.imm == 0 && (!call || f.ext.isSome) && (if f.e.bs then f.a == 0 && !f.ea else f.b == 0 && !f.eb)

/-- NOP (R235) -/
def execNop (f : LW) (s : State) : Out :=
  s.issue fun e => if !(controlOk f) then e.illegal else e.finish (e.outs f.g (fun _ => .next))

/-- REGION: a region entry whose resume point is the word itself (R235, R48) -/
def execRegion (f : LW) (s : State) : Out :=
  s.issue fun e =>
    if !(controlOk f) then e.illegal else
    Env.finish { e with g := e.g.enter (e.guarded f.g) e.c.pc } (e.outs f.g (fun _ => .next))

/-- BKPT (R236) -/
def execBkpt (f : LW) (s : State) : Out :=
  s.issue fun e =>
    if !(controlOk f) then e.illegal else
    Env.finish { e with g := e.g.enter (e.guarded f.g) e.c.pc } (e.outs f.g (fun _ => .fault (lf 0x13 0 false)))

/-- TRAPU: the resume point is the word after it (R236) -/
def execTrapu (f : LW) (s : State) : Out :=
  s.issue fun e =>
    if !(trapuLegal f) then e.illegal else
    Env.finish { e with g := e.g.enter (e.guarded f.g) e.next } (e.outs f.g (fun _ => .fault (lf 0x14 f.e.imm false)))

/-- An optional opcode: 0x0C for the whole active set (R166) -/
def execOptionalOpcode (_n : Nat) (_f : LW) (s : State) : Out := s.issue fun e => e.faultAll (lf 0x0C e.words false)

/-! Engine contexts (R362). -/

def engKey (e : EngId) : Nat := e.kind * 2 ^ 20 + e.home * 64 + e.ctx
/-- The engine context that tlN of a unit names. -/
def ctxOf (u : WorkUnit) (n : Nat) : Option EngId :=
  let k := recTlk u.record n
  if k = 0 then none else some ⟨k, if k = 3 then u.die else u.core, recTlc u.record n⟩
def State.engine (s : State) (e : EngId) : Engine := SMap.get Engine.init s.engines (engKey e)
def State.setEngine (s : State) (e : EngId) (x : Engine) : State := { s with engines := SMap.put Engine.init s.engines (engKey e) x }

/-- What a wait for a count comes to (R230, R274). -/
def waitOn (x : Engine) (count : Nat) : Option LaneOut :=
  if count ≤ x.tl then some .next else
  match x.failed with
  | some (num, code, addr, ss) => if num ≤ count then some (.fault (lf code addr ss)) else none
  | none => none

/-- The count that a lane of WAITTL waits for, and what the wait comes to (R230). -/
def waittlCount (f : LW) (w : View) (l : Nat) : Nat := if f.e.form = 1 then f.e.imm else if f.e.bs then (w.g.getS f.b).toNat else w.v l f.b
def waittlOut (f : LW) (x : Engine) (count : Nat) : LaneOut :=
  match waitOn x count with
  | some o => o
  | none => .park .timeline (count + 2 ^ 64 * f.a)

/-- IFENCE (R227, R126) -/
def execIfence (f : LW) (s : State) : Out :=
  s.issue fun e =>
    if !(controlOk f) then e.illegal else
    let late := (e.s.engines.flatMap (fun q => q.2.cmds.filter (fun c => decide (q.2.tl < c.num)))).filter (fun c => c.uid == e.c.uid && c.grp == e.c.grp && c.code)
    match late with
    | c :: cs =>
      let first := cs.foldl (fun (a : Command) c => if c.at_ < a.at_ then c else a) c
      e.finish (e.outs f.g (fun _ => .fault (lf 0x0B first.num false)))
    | [] => Env.finish { e with g := if (e.guarded f.g).isEmpty then e.g else e.g.noCode } (e.outs f.g (fun _ => .next))

/-- WAITTL (R230, R120). DESIGN CHOICE (log 78): it forms no address, and the address pair of its 0x04 for an unbound counter is 0. -/
def execWaittl (f : LW) (s : State) : Out :=
  s.issue fun e =>
    if !(waittlLegal f) then e.illegal else
    match ctxOf e.u f.a with
    | none => e.faultActive f.g (lf 0x04 0 false)
    | some k =>
      e.eachLane f.g (srcB f false) (fun w e l => (e, waittlOut f (e.s.engine k) (waittlCount f w l)))

/-! Fences (R113 to R115, R226). -/

/-- A lane's registers as its fence finds them. -/
def Group.snap (g : Group) (l : Nat) : FenceSnap :=
  { lane := l, dep := (g.lane l).dep, v := g.v.filter (fun p => p.1 / 64 == l), m := (List.range 8).filter (fun n => (g.getM n).getLsbD l) }

/-- A fence waits for an earlier one of its lanes, for their outstanding producers and acquires (R113), and, at domain or system scope where a posted store of one has failed, for the acknowledgement of that lane's others, so that its record names the earliest failure (R122, R124). -/
def Env.fenceHeld (e : Env) (f : LW) : Bool :=
  e.g.fenced (e.guarded f.g) || (decide (6 ≤ f.e.subop) && (e.guarded f.g).any (fun l => (e.g.lane l).defer.isSome && (e.deferred l).isNone)) || e.g.awaiting (e.guarded f.g) || e.g.acqs.any (fun a => a.lanes.any (e.guarded f.g).contains)
/-- A deferred fault that a domain or system fence surfaces (R124). -/
def Env.fenceFails (e : Env) (f : LW) (l : Nat) : Option Deferred := if 6 ≤ f.e.subop then e.deferred l else none
def Env.fenceOut (e : Env) (f : LW) (l : Nat) : LaneOut := match e.fenceFails f l with | some d => .fault (deferFault d) | none => .next
/-- The group with the fence begun: a region entry at the word, the fence incomplete (R113, R226). -/
def Env.fenceBegun (e : Env) (f : LW) : Group :=
  let ls := (e.guarded f.g).filter (fun l => (e.fenceFails f l).isNone)
  let g1 := e.g.enter ls e.c.pc
  let k : Fence := { lanes := ls, scope := f.e.subop, pc := e.c.pc, len := e.c.len, snaps := ls.map g1.snap, lines := [], ctr := g1.regc, hit := [], seq := g1.seq }
  if ls.isEmpty then g1 else { g1 with fences := g1.fences ++ [k] }

/-- FENCE (R226): a region entry at its issue, then execution runs past it -/
def execFence (f : LW) (s : State) : Out :=
  s.issue fun e =>
    if !(fenceLegal f) then e.illegal else
    if e.fenceHeld f then e.stall else
    Env.finish { e with g := e.fenceBegun f } (e.outs f.g (e.fenceOut f))

/-! Barriers (R228). -/

/-- The fields of a barrier word. -/
def barOk (f : LW) : Bool := f.d == 0 && f.ext.isNone && decide (f.a < 8) && !f.ea && !f.eb

def WorkUnit.bar (u : WorkUnit) (n : Nat) : Barrier := u.bars.getD n ⟨0, []⟩

/-- A phase of barrier n with its arrivals: it completes where every member has arrived, and lanes that arrive a second time arrive in the next (R228). -/
def WorkUnit.barPhase (u : WorkUnit) (n : Nat) (arrived again : List (Nat × Nat)) : WorkUnit :=
  let u1 := ({ u with bars := u.bars.set n ⟨(u.bar n).phase, arrived⟩ }).barrierTest n
  if (u1.bar n).phase = (u.bar n).phase then u1
  else ({ u1 with bars := u1.bars.set n ⟨(u1.bar n).phase, (u1.bar n).arrived ++ again⟩ }).barrierTest n

/-- A barrier word closes with its arrivals. -/
def Env.barClose (e : Env) (n : Nat) (arrived again : List (Nat × Nat)) (outs : List (Nat × LaneOut)) : Out :=
  .next ((e.close outs).out.onUnit e.c.uid (fun u => u.barPhase n arrived again))

/-- The arrivals that complete a phase. -/
def Env.phaseDone (e : Env) (arrived : List (Nat × Nat)) : Bool :=
  !arrived.isEmpty && ((e.u.setGroup e.c.grp e.g).members 0xFFFF).all arrived.contains

/-- The lanes of an issue that have not arrived in the barrier's phase, those that have, and the phase's arrivals with the new ones. -/
def Env.barFresh (e : Env) (f : LW) : List Nat := (e.guarded f.g).filter (fun l => !((e.u.bar f.a).arrived.contains (e.c.grp, l)))
def Env.barAgain (e : Env) (f : LW) : List Nat := (e.guarded f.g).filter (fun l => (e.u.bar f.a).arrived.contains (e.c.grp, l))
def Env.barArrived (e : Env) (f : LW) : List (Nat × Nat) := (e.u.bar f.a).arrived ++ (e.barFresh f).map (fun l => (e.c.grp, l))

/-- A release of lanes waits for their accesses, their acquires and their fences (R110, R113). -/
def Env.releaseWaits (e : Env) (act : List Nat) : Bool := !act.isEmpty && (!(e.settled act) || e.g.acquiring act || e.g.fenced act)

/-- BAR (R228) -/
def execBar (f : LW) (s : State) : Out :=
  s.issue fun e =>
    if !(barOk f) then e.illegal else
    if e.releaseWaits (e.guarded f.g) then e.stall else
    e.barClose f.a (e.barArrived f) [] (e.outs f.g (fun _ => if e.phaseDone (e.barArrived f) then .next else .park .barrier f.a))

/-- BAR.ARRIVE (R228): a lane that has arrived in this phase first waits for its end -/
def execBarArrive (f : LW) (s : State) : Out :=
  s.issue fun e =>
    if !(barOk f) then e.illegal else
    if e.releaseWaits (e.guarded f.g) then e.stall else
    e.barClose f.a (e.barArrived f) ((e.barAgain f).map (fun l => (e.c.grp, l)))
      (e.outs f.g (fun l => if (e.barFresh f).contains l || e.phaseDone (e.barArrived f) then .next else .park .barrier (16 + f.a)))

/-- BAR.WAIT (R228) -/
def execBarWait (f : LW) (s : State) : Out :=
  s.issue fun e =>
    if !(barOk f) then e.illegal else
    e.finish (e.outs f.g (fun l => if (e.u.bar f.a).arrived.contains (e.c.grp, l) then .park .barrier f.a else .next))

/-! Circular buffers (R229). -/

/-- The fields of CBACQ and CBREL. -/
def cbOk (f : LW) : Bool := memForm f [3] && f.e.fs == 0 && f.e.c == 0 && !f.e.bs && decide (f.e.subop < 2)

/-- The address of CBACQ and CBREL, and the checks of its header, which give the key of its word 0 (R82, R229). -/
def Env.cbKey (e : Env) (f : LW) (ss : Bool) (w : View) (_ : Nat) : Except LFault Nat :=
  let a := w.addr f 0
  match e.s.cbCheck e.u a with
  | .error code => .error (lf code (addrNat a) ss)
  | .ok key => .ok key
/-- The keys of a header. -/
def headerKeys (key : Nat) : List Nat := upFrom key 16
/-- The one step of CBACQ: the acquire is outstanding, its destinations are empty (R229). -/
def cbacqStep (f : LW) (e : Env) (w : View) (_ key : Nat) : Env × LaneOut :=
  let a : CbWait := { addr := addrNat (w.addr f 0), key := key, dest := f.d, consumer := f.e.subop == 1, lanes := w.act, seq := e.g.seq + 1 }
  ({ e with g := { e.g.markAll w.act false f.d true with acqs := e.g.acqs ++ [a], seq := e.g.seq + 1 } }, .next)
/-- The one step of CBREL: the header's second word (R229, R81). -/
def cbrelStep (f : LW) (e : Env) (w : View) (_ key : Nat) : Env × LaneOut :=
  match cbGive (f.e.subop == 1) (e.s.rd8 key) (e.s.rd8 (key + 8)) with
  | none => (e, .fault (lf 0x04 (addrNat (w.addr f 0)) true))
  | some w1 => ({ e with s := e.s.wr8 (key + 8) w1 }, .next)
/-- Acquires of a group polled (R81). -/
def State.cbPollGroup (s : State) (uid grp : Nat) : State :=
  match (s.unit? uid).bind (fun u => (u.group grp).map (fun g => (u, g))) with
  | some (u, g) => let r := s.cbPoll g.acqs.length g; r.1.setUnit (u.setGroup grp r.2)
  | none => s

/-- Waits of CBACQ: the lanes' acquiring loads and fences, their outstanding reads of the header (R106, R110, R113), its eight acquires, a destination still empty. -/
def Env.cbacqWaits (e : Env) (f : LW) (act : List Nat) (_ key : Nat) : Bool :=
  e.g.loading act || e.g.fenced act || decide (8 ≤ e.g.acqs.length) || e.destEmpty act false f.d ||
    act.any (fun l => e.g.reads l (headerKeys key))
/-- A store of the group to the header that a CBACQ names is buffered or pending: the acquire comes after it, and its checks read what it stored (R106, R107). -/
def Env.cbUnwritten (e : Env) (f : LW) : Bool :=
  match e.guarded f.g with
  | [] => false
  | low :: _ =>
    let w := e.view (e.guarded f.g) []
    match w.tries false (fun _ => memSrcs f) (fun w _ => match e.s.cbPlace e.u (w.addr f 0) with | .ok key => .ok key | .error c => .error (lf c 0 false)) low with
    | .error _ => false
    | .ok key => e.g.sbuf.any (fun b => b.keys.any (headerKeys key).contains) ||
        e.s.pend.any (fun p => p.uid == e.u.uid && p.grp == e.c.grp && p.keys.any (headerKeys key).contains)
/-- The acquires of the header that a CBREL names are polled (R81). -/
def Env.cbWoken (e : Env) (f : LW) (s : State) : State := match e.cbKey f true (e.view (e.guarded f.g) []) 0 with | .ok key => s.cbWake [key] | .error _ => s

/-- CBACQ: the wait is the group's, the lanes go on (R229, R81) -/
def execCbacq (f : LW) (s : State) : Out :=
  s.issue fun e =>
    if !(cbOk f) then e.illegal else
    if e.cbUnwritten f then e.stall else
    .next ((stateOf e.s (e.once f.g false (memSrcs f) (e.cbKey f false) (e.cbacqWaits f) (cbacqStep f e))).cbPollGroup e.c.uid e.c.grp)

/-- CBREL: a release at core scope (R229, R81) -/
def execCbrel (f : LW) (s : State) : Out :=
  s.issue fun e =>
    if !(cbOk f && f.d == 0) then e.illegal else
    if e.releaseWaits (e.guarded f.g) then e.stall else
    .next (e.cbWoken f (stateOf e.s (e.once f.g true (memSrcs f) (e.cbKey f true) (fun _ _ _ => false) (cbrelStep f e))))

/-! Control transfer (R231 to R234). -/

/-! Return stacks (R45). The entries in hardware stand in `Group.stack`, the others at their places in segment 0x03. DESIGN CHOICE (log 68): the oldest hardware entry is the one of the lowest depth that has a place in the area; an entry that a pop fills is not kept in hardware. -/

/-- The depths of a lane's entries that are in hardware, rising. -/
def Group.inHw (g : Group) (l : Nat) : List Nat := (g.stack.filter (fun p => p.1 / 1024 == l)).map (fun p => p.1 % 1024)
/-- The place of an entry in segment 0x03 (R55). -/
def stackAt (tlen k : Nat) : Nat := tlen + 8 * k
/-- The entry that a push of a lane spills: that pushed itself, where no other one has a place in the area. -/
def Group.spills (g : Group) (l : Nat) : Option Nat :=
  let d := (g.lane l).dep
  if (g.inHw l).length < 16 ∨ (g.inHw l).contains d then none else some (((g.inHw l).find? (fun k => decide (k < 1008))).getD d)
/-- No page backs a byte of a lane's segment 0x03 (R344). -/
def Group.hole (g : Group) (l off : Nat) : Bool := g.holes.any (fun h => h.1 == l && h.2 == off / 128)
/-- The fault of the 1,025th entry (R233). -/
def Env.stackFull (e : Env) : LFault := lf 0x12 (addrOf 3 (((recTlen e.u.record + 8064 : Nat) : Int))) false
/-- The fault of a spill or fill of an entry that cannot be completed (R45, R344); that of a spill has the store-suppressed flag (R329; log 15). -/
def Env.stackHole (e : Env) (l k : Nat) (spill : Bool) : Option LFault :=
  if e.g.hole l (stackAt (recTlen e.u.record) k) then some (lf 0x12 (addrOf 3 ((stackAt (recTlen e.u.record) k : Nat) : Int)) spill) else none
/-- The fault of a push, if it meets one (R233, R45). -/
def Env.pushFault (e : Env) (l : Nat) : Option LFault :=
  if 1024 ≤ (e.g.lane l).dep then some e.stackFull else (e.g.spills l).bind (fun k => e.stackHole l k true)
/-- A return address pushed: the entry at the present depth, which then rises (R45). -/
def Env.push (e : Env) (l ret : Nat) : Env :=
  let x := e.g.lane l
  let put : AMap DWord := AMap.set e.g.stack (1024 * l + x.dep) (BitVec.ofNat 64 ret)
  let g := e.g.setLane l { x with dep := x.dep + 1 }
  match e.g.spills l with
  | none => { e with g := { g with stack := put } }
  | some k =>
    { e with g := { g with stack := AMap.erase put (1024 * l + k) },
             s := e.s.wr8 (localKey e.u.uid e.c.grp l (stackAt (recTlen e.u.record) k)) (((AMap.get? put (1024 * l + k)).getD 0).toNat) }
/-- The entry that a pop of a lane reads: in hardware, else in segment 0x03 (R45). -/
def Env.top (e : Env) (l : Nat) : Nat :=
  let k := (e.g.lane l).dep - 1
  match AMap.get? e.g.stack (1024 * l + k) with
  | some x => x.toNat
  | none => e.s.rd8 (localKey e.u.uid e.c.grp l (stackAt (recTlen e.u.record) k))
/-- The fault of a pop, if it meets one: 0x0A without an entry (R233), 0x12 where the entry cannot be filled (R45). -/
def Env.popFault (e : Env) (l a : Nat) : Option LFault :=
  let d := (e.g.lane l).dep
  if d = 0 then some (lf 0x0A a false) else if (e.g.inHw l).contains (d - 1) then none else e.stackHole l (d - 1) false
def Group.pop (g : Group) (l : Nat) : Group := let x := g.lane l; g.setLane l { x with dep := x.dep - 1 }

/-- The target of BR, JMP and CALL (R165). -/
def laneTarget (pc : Nat) (f : LW) : Nat := ofInt 40 ((pc : Int) + 4 * toInt 18 (f.d * 4096 + f.a * 64 + f.b))

/-- BR (R231) -/
def execBr (f : LW) (s : State) : Out :=
  s.issue fun e =>
    if !(brLegal f) then e.illegal else e.finish (e.outs f.g (fun _ => .goto (laneTarget e.c.pc f)))

/-- JMP (R231) -/
def execJmp (f : LW) (s : State) : Out :=
  s.issue fun e =>
    if !(jmpLegal f) then e.illegal else e.finish (e.outs 0 (fun _ => .goto (laneTarget e.c.pc f)))

/-- The guarded lanes that push, and those that pop (R233). -/
def Env.callers (e : Env) (gn : Nat) : List Nat := (e.guarded gn).filter (fun l => (e.pushFault l).isNone)
def Env.returners (e : Env) (gn : Nat) : List Nat := (e.guarded gn).filter (fun l => (e.popFault l 0).isNone)
/-- A transfer, or the fault that a lane met. -/
def goesTo (t : Nat) : Option LFault → LaneOut
  | some q => .fault q
  | none => .goto t
/-- The lanes push the address after the word. -/
def Env.pushAll (e : Env) (ls : List Nat) : Env := ls.foldl (fun (e : Env) l => e.push l e.next) e

/-- CALL (R231, R45) -/
def execCall (f : LW) (s : State) : Out :=
  s.issue fun e =>
    if !(callLegal f) then e.illegal else
    (e.pushAll (e.callers f.g)).finish (e.outs f.g (fun l => goesTo (laneTarget e.c.pc f) (e.pushFault l)))

/-- One lane's transfer to the address in a register or an s register (R232). -/
def brxLane (f : LW) (call : Bool) (w : View) (e : Env) (l : Nat) : Env × LaneOut :=
  let t := if f.e.bs then low 32 (w.g.getS f.b).toNat else w.v l f.a
  if !call then (e, .goto t) else
  match e.pushFault l with
  | some q => (e, .fault q)
  | none => (e.push l e.next, .goto t)

/-- A transfer to a register's target, with or without a return address (R232); a misaligned target faults as it is fetched (R156, R170). -/
def brxWord (f : LW) (call : Bool) (s : State) : Out :=
  s.issue fun e =>
    if !(brxLegal f call) then e.illegal else
    e.eachLane f.g (if f.e.bs then [.s f.b f.eb] else [.v f.a f.ea]) (brxLane f call)

/-- BRX (R232) -/
def execBrx (f : LW) (s : State) : Out := brxWord f false s
/-- BRX.CALL (R232) -/
def execBrxCall (f : LW) (s : State) : Out := brxWord f true s

/-- RET (R233) -/
def execRet (f : LW) (s : State) : Out :=
  s.issue fun e =>
    if !(controlOk f) then e.illegal else
    Env.finish { e with g := (e.returners f.g).foldl (fun (g : Group) l => g.pop l) e.g } (e.outs f.g (fun l => goesTo (e.top l) (e.popFault l 0)))

/-- A group whose last live lane has exited (R234): its stores are performed, its bindings and its permit go back. -/
def State.groupDone (s : State) (uid grp : Nat) : State :=
  match (s.unit? uid).bind (fun u => (u.group grp).map (fun g => (u, g))) with
  | none => s
  | some (u, g) =>
    if !g.liveLanes.isEmpty then s else
    let s1 := s.drainGroup uid grp
    let s2 := match g.permit with | some p => s1.sluiceReturn u.die p.1 | none => s1
    s2.onGroup uid grp (fun g => { g with binds := [], permit := none, fences := [] })

/-- After lanes of a unit have exited. DESIGN CHOICE (log 67): flags of an engine command, a matrix operation or an atomic that completes later count in the completed group's word while the unit still runs, and are lost once the unit is done. Barriers and convergence sets without them, then the group, then the unit (R24, R47, R228, R234). -/
def State.afterExit (s : State) (uid grp : Nat) : State :=
  let live (u : WorkUnit) (p : Nat × Nat) : Bool := match u.group p.1 with | some g => (g.lane p.2).st.live | none => false
  let s1 := s.onUnit uid (fun u =>
    let u1 := { u with bars := u.bars.map (fun (b : Barrier) => { b with arrived := b.arrived.filter (live u) }) }
    (List.range 8).foldl (fun (u : WorkUnit) n => u.barrierTest n) u1)
  let s2 := (s1.convergenceTest uid).groupDone uid grp
  match s2.unit? uid with
  | some u => if u.allExited && u.stop.isEmpty then s2.unitDone uid u.flags else s2
  | none => s2

/-- EXIT waits for a fence and for posted stores of its lanes (R113, R234). -/
def Env.exitWaits (e : Env) (f : LW) : Bool := e.g.fenced (e.guarded f.g) || e.s.postedOf e.u.uid e.c.grp (e.guarded f.g)
/-- A lane exits, or takes its deferred fault (R124). -/
def Env.exitOuts (e : Env) (f : LW) : List (Nat × LaneOut) := e.outs f.g (fun l => match (e.g.lane l).defer with | some d => .fault (deferFault d) | none => .exit)
/-- What follows where a lane has exited. -/
def Env.exited (e : Env) (f : LW) (s : State) : State :=
  if (e.guarded f.g).any (fun l => (e.g.lane l).defer.isNone) then s.afterExit e.c.uid e.c.grp else s

/-- EXIT (R234) -/
def execExit (f : LW) (s : State) : Out :=
  s.issue fun e =>
    if !(controlOk f) then e.illegal else
    if e.exitWaits f then e.stall else
    .next (e.exited f (e.close (e.exitOuts f)).out)

end Sys2Proof.Machine
end

