-- ==== Sys2Proof/Machine/GroupAlu.lean ====
section
/-! DEFINITION. Group arithmetic and control (R266 to R271). -/

namespace Sys2Proof.Machine

/-- How a group ALU word gives its second operand (R266). -/
inductive GForm where
  | gr | gi | gl
  deriving DecidableEq, Repr

/-- The registers the second operand reads. -/
def GForm.reads (k : GForm) (f : GW) : List Nat := match k with | .gr => [f.b] | _ => []
/-- Its value: sB, imm12 sign-extended, or the literal sign-extended. -/
def GForm.value (k : GForm) (g : Group) (f : GW) : Nat :=
  match k with
  | .gr => (g.getS f.b).toNat
  | .gi => ofInt 64 f.imm
  | .gl => ofInt 64 (toInt 32 f.gx)
/-- The fields of the form that must be 0 (R167). -/
def GForm.ok (k : GForm) (f : GW) : Bool := match k with | .gl => f.b == 0 && f.f6 == 0 | _ => true

/-- A group ALU word: d := op(sA, B) in 64 bits (R266). -/
def aluWord (f : GW) (k : GForm) (op : Nat → Nat → Nat) (s : State) : Out :=
  s.issue fun e =>
    if !(k.ok f) then e.groupIllegal else
    e.whenFull ([f.a, f.d] ++ k.reads f) (Env.groupNext { e with g := e.g.putS f.d (BitVec.ofNat 64 (op (e.g.getS f.a).toNat (k.value e.g f))) })

/-- SADD, form GR (R266) -/
def execSaddGr (f : GW) (s : State) : Out := aluWord f .gr (fun a b => low 64 (a + b)) s
/-- SADD, form GI (R266) -/
def execSaddGi (f : GW) (s : State) : Out := aluWord f .gi (fun a b => low 64 (a + b)) s
/-- SADD, form GL (R266) -/
def execSaddGl (f : GW) (s : State) : Out := aluWord f .gl (fun a b => low 64 (a + b)) s
/-- SSUB, form GR (R266) -/
def execSsubGr (f : GW) (s : State) : Out := aluWord f .gr (fun a b => ofInt 64 ((a : Int) - (b : Int))) s
/-- SSUB, form GI (R266) -/
def execSsubGi (f : GW) (s : State) : Out := aluWord f .gi (fun a b => ofInt 64 ((a : Int) - (b : Int))) s
/-- SSUB, form GL (R266) -/
def execSsubGl (f : GW) (s : State) : Out := aluWord f .gl (fun a b => ofInt 64 ((a : Int) - (b : Int))) s
/-- SMUL, form GR (R266) -/
def execSmulGr (f : GW) (s : State) : Out := aluWord f .gr (fun a b => low 64 (a * b)) s
/-- SMUL, form GI (R266) -/
def execSmulGi (f : GW) (s : State) : Out := aluWord f .gi (fun a b => low 64 (a * b)) s
/-- SMUL, form GL (R266) -/
def execSmulGl (f : GW) (s : State) : Out := aluWord f .gl (fun a b => low 64 (a * b)) s
/-- SAND, form GR (R266) -/
def execSandGr (f : GW) (s : State) : Out := aluWord f .gr (fun a b => a &&& b) s
/-- SAND, form GI (R266) -/
def execSandGi (f : GW) (s : State) : Out := aluWord f .gi (fun a b => a &&& b) s
/-- SAND, form GL (R266) -/
def execSandGl (f : GW) (s : State) : Out := aluWord f .gl (fun a b => a &&& b) s
/-- SOR, form GR (R266) -/
def execSorGr (f : GW) (s : State) : Out := aluWord f .gr (fun a b => a ||| b) s
/-- SOR, form GI (R266) -/
def execSorGi (f : GW) (s : State) : Out := aluWord f .gi (fun a b => a ||| b) s
/-- SOR, form GL (R266) -/
def execSorGl (f : GW) (s : State) : Out := aluWord f .gl (fun a b => a ||| b) s
/-- SXOR, form GR (R266) -/
def execSxorGr (f : GW) (s : State) : Out := aluWord f .gr (fun a b => a ^^^ b) s
/-- SXOR, form GI (R266) -/
def execSxorGi (f : GW) (s : State) : Out := aluWord f .gi (fun a b => a ^^^ b) s
/-- SXOR, form GL (R266) -/
def execSxorGl (f : GW) (s : State) : Out := aluWord f .gl (fun a b => a ^^^ b) s
/-- SSHL, form GR (R266) -/
def execSshlGr (f : GW) (s : State) : Out := aluWord f .gr (fun a b => shiftBits 0 64 a (b % 64)) s
/-- SSHL, form GI (R266) -/
def execSshlGi (f : GW) (s : State) : Out := aluWord f .gi (fun a b => shiftBits 0 64 a (b % 64)) s
/-- SSHL, form GL (R266) -/
def execSshlGl (f : GW) (s : State) : Out := aluWord f .gl (fun a b => shiftBits 0 64 a (b % 64)) s
/-- SSHR.n64, form GR (R266) -/
def execSshrN64Gr (f : GW) (s : State) : Out := aluWord f .gr (fun a b => shiftBits 1 64 a (b % 64)) s
/-- SSHR.n64, form GI (R266) -/
def execSshrN64Gi (f : GW) (s : State) : Out := aluWord f .gi (fun a b => shiftBits 1 64 a (b % 64)) s
/-- SSHR.n64, form GL (R266) -/
def execSshrN64Gl (f : GW) (s : State) : Out := aluWord f .gl (fun a b => shiftBits 1 64 a (b % 64)) s
/-- SSHR.i64, form GR (R266) -/
def execSshrI64Gr (f : GW) (s : State) : Out := aluWord f .gr (fun a b => shiftBits 2 64 a (b % 64)) s
/-- SSHR.i64, form GI (R266) -/
def execSshrI64Gi (f : GW) (s : State) : Out := aluWord f .gi (fun a b => shiftBits 2 64 a (b % 64)) s
/-- SSHR.i64, form GL (R266) -/
def execSshrI64Gl (f : GW) (s : State) : Out := aluWord f .gl (fun a b => shiftBits 2 64 a (b % 64)) s
/-- SMIN.i64, form GR (R266) -/
def execSminI64Gr (f : GW) (s : State) : Out := aluWord f .gr (fun a b => if toInt 64 a ≤ toInt 64 b then a else b) s
/-- SMIN.i64, form GI (R266) -/
def execSminI64Gi (f : GW) (s : State) : Out := aluWord f .gi (fun a b => if toInt 64 a ≤ toInt 64 b then a else b) s
/-- SMIN.i64, form GL (R266) -/
def execSminI64Gl (f : GW) (s : State) : Out := aluWord f .gl (fun a b => if toInt 64 a ≤ toInt 64 b then a else b) s
/-- SMIN.n64, form GR (R266) -/
def execSminN64Gr (f : GW) (s : State) : Out := aluWord f .gr (fun a b => min a b) s
/-- SMIN.n64, form GI (R266) -/
def execSminN64Gi (f : GW) (s : State) : Out := aluWord f .gi (fun a b => min a b) s
/-- SMIN.n64, form GL (R266) -/
def execSminN64Gl (f : GW) (s : State) : Out := aluWord f .gl (fun a b => min a b) s
/-- SMAX.i64, form GR (R266) -/
def execSmaxI64Gr (f : GW) (s : State) : Out := aluWord f .gr (fun a b => if toInt 64 a ≤ toInt 64 b then b else a) s
/-- SMAX.i64, form GI (R266) -/
def execSmaxI64Gi (f : GW) (s : State) : Out := aluWord f .gi (fun a b => if toInt 64 a ≤ toInt 64 b then b else a) s
/-- SMAX.i64, form GL (R266) -/
def execSmaxI64Gl (f : GW) (s : State) : Out := aluWord f .gl (fun a b => if toInt 64 a ≤ toInt 64 b then b else a) s
/-- SMAX.n64, form GR (R266) -/
def execSmaxN64Gr (f : GW) (s : State) : Out := aluWord f .gr (fun a b => max a b) s
/-- SMAX.n64, form GI (R266) -/
def execSmaxN64Gi (f : GW) (s : State) : Out := aluWord f .gi (fun a b => max a b) s
/-- SMAX.n64, form GL (R266) -/
def execSmaxN64Gl (f : GW) (s : State) : Out := aluWord f .gl (fun a b => max a b) s

/-- SMOV (R266) -/
def execSmov (f : GW) (s : State) : Out :=
  s.issue fun e =>
    if f.b != 0 then e.groupIllegal else e.whenFull [f.a, f.d] (Env.groupNext { e with g := e.g.putS f.d (e.g.getS f.a) })

/-- SMOVI of a form: a is 0 (R169). -/
def smoviWord (f : GW) (k : GForm) (s : State) : Out :=
  s.issue fun e =>
    if !(k.ok f && f.a == 0) then e.groupIllegal else
    e.whenFull [f.d] (Env.groupNext { e with g := e.g.putS f.d (BitVec.ofNat 64 (k.value e.g f)) })
/-- SMOVI, form GI (R266) -/
def execSmoviGi (f : GW) (s : State) : Out := smoviWord f .gi s
/-- SMOVI, form GL (R266) -/
def execSmoviGl (f : GW) (s : State) : Out := smoviWord f .gl s

/-- SCMP of a form (R267, R169). -/
def scmpWord (f : GW) (k : GForm) (s : State) : Out :=
  s.issue fun e =>
    if !(k.ok f && decide (f.d < 4) && (k != .gr || f.f6 == 0)) then e.groupIllegal else
    e.whenFull (f.a :: k.reads f) (Env.groupNext { e with g := e.g.compare f.d (e.g.getS f.a).toNat (k.value e.g f) })
/-- SCMP, form GR (R267) -/
def execScmpGr (f : GW) (s : State) : Out := scmpWord f .gr s
/-- SCMP, form GI (R267) -/
def execScmpGi (f : GW) (s : State) : Out := scmpWord f .gi s
/-- SCMP, form GL (R267) -/
def execScmpGl (f : GW) (s : State) : Out := scmpWord f .gl s

/-- SSEL (R267) -/
def execSsel (f : GW) (s : State) : Out :=
  s.issue fun e =>
    if 8 ≤ f.f6 then e.groupIllegal else
    e.whenFull [f.a, f.b, f.d] (Env.groupNext { e with g := e.g.putS f.d (if e.g.cond.holds f.f6 then e.g.getS f.a else e.g.getS f.b) })

/-! Uniform branches (R267, R268). -/

/-- The target of a GB word (R167); its condition is d / 8. -/
def groupTarget (pc : Nat) (f : GW) : Nat := ofInt 40 ((pc : Int) + 4 * toInt 21 (f.d % 8 * 2 ^ 18 + f.a * 2 ^ 12 + f.b * 64 + f.f6))

/-- SBR (R267) -/
def execSbr (f : GW) (s : State) : Out :=
  s.issue fun e => if e.g.cond.holds (f.d / 8) then e.groupTo (groupTarget e.c.pc f) else e.groupNext

/-- SJMP (R268) -/
def execSjmp (f : GW) (s : State) : Out :=
  s.issue fun e => if f.d / 8 != 0 then e.groupIllegal else e.groupTo (groupTarget e.c.pc f)

/-- SCALL (R268) -/
def execScall (f : GW) (s : State) : Out :=
  s.issue fun e =>
    if f.d / 8 != 0 then e.groupIllegal else
    match e.g.liveLanes.findSome? e.pushFault with
    | some q => e.groupFault q
    | none => (e.pushAll e.g.liveLanes).groupTo (groupTarget e.c.pc f)

/-- SRET (R268) -/
def execSret (f : GW) (s : State) : Out :=
  s.issue fun e =>
    if !(f.d == 0 && f.a == 0 && f.b == 0 && f.f6 == 0) then e.groupIllegal else
    let t := e.top (e.g.liveLanes.headD 0)
    match e.g.liveLanes.findSome? (fun l => e.popFault l e.c.pc) with
    | some q => e.groupFault q
    | none =>
    if e.g.liveLanes.any (fun l => e.top l != t) then e.groupFault (lf 0x0A e.c.pc false) else
    Env.groupTo { e with g := e.g.liveLanes.foldl (fun (g : Group) l => g.pop l) e.g } t

/-! Group memory words (R269). -/

/-- The live lanes but the one that a group word's access belongs to: it counts as theirs (R269, R214). -/
def Env.rest (e : Env) : List Nat := e.g.liveLanes.filter (· != e.low)

/-- SLD: a producer to sD (R269) -/
def execSld (f : GW) (s : State) : Out :=
  s.issue fun e =>
    e.whenFull [f.a, f.d] <|
    let a := ofBase (e.g.getS f.a).toNat f.imm
    match e.check e.low (memReq a 8 8 true false false .cells) 0 with
    | .error q => e.groupFault q
    | .ok acc =>
      if e.loadWaits e.g.liveLanes acc.keys then e.stall else
      let e1 := e.touched e.g.liveLanes acc true
      let p := { e.part e.low (.s f.d) acc (addrNat a) with others := e.rest }
      Env.groupNext (({ e1 with g := e1.g.markS f.d true }.produce { kind := .load 8 false 0, parts := [p], pc := e.next, commit := false }).merge e.g.inflight.length)

/-- SST (R269) -/
def execSst (f : GW) (s : State) : Out :=
  s.issue fun e =>
    e.whenFull [f.a, f.d] <|
    let a := ofBase (e.g.getS f.a).toNat f.imm
    match e.check e.low (memReq a 8 8 false true false .cells) 0 with
    | .error q => e.groupFault q
    | .ok acc =>
      if e.storeWaits 0 1 (e.g.liveLanes.map (fun l => (l, acc))) then e.stall else
      let bytes := leBytes 8 (e.g.getS f.d).toNat
      if acc.g.kind == .lattice then
        let r := e.s.latticeStore e.u.die acc.g a.seg acc.off acc.keys bytes
        let e1 := (e.wrote acc.keys).changed r.1 acc.keys
        match r.2 with
        | some q => e1.groupFault q
        | none => e1.groupNext
      else ((e.store e.low e.rest acc bytes 0 (addrNat a)).stored e.s.posted.length).groupNext

/-! Convergence sets and the decision queue (R270, R271). -/

/-- CVSET of a mask (R270, R47). -/
def cvsetWord (f : GW) (mask : Nat) (ok : Bool) (s : State) : Out :=
  s.issue fun e =>
    if !(ok && decide (f.d < 16) && f.a == 0 && decide (mask < 2 ^ 16)) then e.groupIllegal else
    let c := e.u.cvs.getD f.d ⟨0, 0, 0, 0, []⟩
    if !c.sigs.isEmpty then e.groupFault (lf 0x0A (f.d + 2 ^ 63) false) else
    if 2 ^ e.u.groups.length ≤ mask then e.groupFault (lf 0x04 0 false) else
    Env.groupNext { e with u := { e.u with cvs := e.u.cvs.set f.d { c with mask := mask } } }
/-- CVSET, form GI (R270) -/
def execCvsetGi (f : GW) (s : State) : Out := cvsetWord f (ofInt 64 f.imm) true s
/-- CVSET, form GL (R270) -/
def execCvsetGl (f : GW) (s : State) : Out := cvsetWord f (ofInt 64 (toInt 32 f.gx)) (f.b == 0 && f.f6 == 0) s

/-- DQPUSH (R271). DESIGN CHOICE (log 67): the values it places stay until they are popped; the discard of the towline where the broadcast leaves the stream does not lose them. -/
def execDqpush (f : GW) (s : State) : Out :=
  s.issue fun e =>
    if !(f.d == 0 && f.b == 0 && f.f6 == 0) then e.groupIllegal else
    e.whenFull [f.a] <|
    if 8 ≤ e.g.dq.length then e.groupFault (lf 0x04 0 false) else
    Env.groupNext { e with g := { e.g with dq := e.g.dq ++ [e.g.getS f.a] } }

/-- DQPOP, DQPOP.V (R271) -/
def execDqpop (f : GW) (s : State) : Out :=
  s.issue fun e =>
    if !(f.a == 0 && f.b == 0 && decide (f.f6 < 2)) then e.groupIllegal else
    match e.g.dq with
    | [] => e.groupFault (lf 0x09 (f.d + (if f.f6 = 0 then 64 else 0)) false)
    | x :: rest =>
      let g := { e.g with dq := rest }
      if f.f6 = 0 then e.whenFull [f.d] (Env.groupNext { e with g := g.putS f.d x })
      else if e.g.liveLanes.any (fun l => e.g.emptyV l f.d) then e.stall
      else Env.groupNext { e with g := e.g.liveLanes.foldl (fun (g : Group) l => g.putV l f.d (BitVec.ofNat 32 x.toNat)) g }

end Sys2Proof.Machine
end

