-- ==== Sys2Proof/Machine/Service.lean ====
section
/-! DEFINITION. Routes of faults and messages to a partition's supervisor (R331, R332); waits on timeline counters (R230); engine contexts that advance or fail (R118, R274, R361). -/

namespace Sys2Proof.Machine

/-- The route of a code in a partition: 0 abandon, 1 harbourmaster, 2 supervisor (R331). -/
def State.route (s : State) (part code : Nat) : Nat :=
  if code = 0x01 ∨ code = 0x0F ∨ code = 0x0C then 1 else if code = 0x16 then 2 else
  let base := field (SMap.get 0 s.svctab part) 8 44 * 2 ^ 8
  if base = 0 then 0 else
  let b := s.rd (base + code) 1
  if b < 3 then b else 0

/-- A message to the supervisor mailbox of a partition: nothing with sv = 0; kept while the mailbox is unbound, draining or full (R332). -/
def State.toSupervisor (s : State) (part : Nat) (msg : List Byte) : State :=
  let r := SMap.get 0 s.svcmbx part
  if field r 26 1 = 0 then s else
  let m := field r 16 10
  if s.mbxRoom m then s.fire m msg
  else { s with out := s.out ++ (if s.mbxState m = 1 then [.kept part msg] else [.kept part msg, .report 332 part]) }

/-- Kept messages of partitions whose supervisor mailbox can take them are delivered, oldest first (R332). -/
def State.deliverKept (s : State) : State :=
  s.out.foldl (fun (s : State) o =>
    match o with
    | .kept part msg =>
      let r := SMap.get 0 s.svcmbx part
      if field r 26 1 = 1 && s.mbxRoom (field r 16 10) then ({ s with out := s.out.erase o }).fire (field r 16 10) msg else s
    | _ => s) s

/-- Lanes of a unit that wait on a counter of an engine context: the outcome of their wait decides. -/
def State.wakeCtx (s : State) (k : EngId) : State :=
  let x := s.engine k
  (s.units.map (·.1)).foldl (fun (s : State) uid =>
    match s.unit? uid with
    | none => s
    | some u =>
      let waits (y : Lane) : Option LaneOut :=
        match y.st with
        | .parked .timeline arg _ => if ctxOf u (arg / 2 ^ 64) = some k then waitOn x (arg % 2 ^ 64) else none
        | _ => none
      let due := (List.range u.groups.length).flatMap (fun i => match u.group i with
        | some g => (List.range g.lanes.length).filterMap (fun l => (waits (g.lane l)).map (fun o => (i, l, o)))
        | none => [])
      if due.isEmpty then s else
      if u.res != .resident then s.rouse uid else
      s.setUnit (due.foldl (fun (u : WorkUnit) d =>
        match d.2.2 with
        | .fault f => (u.onGroup d.1 (fun g => g.backTo [d.2.1] (g.lane d.2.1).pc none)).laneFaults s.cycle d.1 none [(d.2.1, f)]
        | _ => u.onGroup d.1 (fun g => g.setLanes [d.2.1] (fun _ y => y.wake))) u)) s

/-- The counter of a context after completions: the largest prefix of numbers all completed (R118). -/
def prefixDone : Nat → Nat → (Nat → Bool) → Nat
  | 0, n, _ => n
  | k + 1, n, done => if done (n + 1) then prefixDone k (n + 1) done else n

/-- The members of a collective on this package: for each rank the earliest command of the context that carries the key (R278). -/
def State.members (s : State) (ctx key : Nat) : List (EngId × Command) :=
  let all := (List.range 4).flatMap (fun d => ((s.engine ⟨3, d, ctx⟩).cmds.filter (fun c => field c.f 0 32 == key)).map (fun c => ((⟨3, d, ctx⟩ : EngId), c)))
  all.filter (fun p => !(all.any (fun q => field q.2.f 32 16 == field p.2.f 32 16 && (decide (q.2.at_ < p.2.at_) || (q.2.at_ == p.2.at_ && decide (q.1.home < p.1.home))))))

/-- Completed commands leave a context behind its counter; a collective's stay until its last member is done. -/
def State.prune (s : State) (k : EngId) : State :=
  let x := s.engine k
  let keep (c : Command) : Bool := !(c.done && decide (c.num ≤ x.tl)) || (k.kind == 3 && (s.members k.ctx (field c.f 0 32)).any (fun p => !p.2.done))
  s.setEngine k { x with cmds := x.cmds.filter keep }

/-- The members of a collective on other devices, the earliest of each rank (R278). -/
def State.collOthers (s : State) (ctx key : Nat) : List CollPeer :=
  let all := s.collPeers.filter (fun p => p.ctx == ctx && p.key == key)
  all.foldl (fun (ps : List CollPeer) p => if ps.any (fun q => q.rank == p.rank) then ps else ps ++ [p]) []

/-- The last member of a collective on this package is done: its members on other devices are forgotten. -/
def State.collOver (s : State) (ctx key : Nat) : State :=
  if (s.members ctx key).all (fun p => p.2.done) then { s with collPeers := (s.collOthers ctx key).foldl (fun (ps : List CollPeer) p => ps.erase p) s.collPeers } else s

/-- A command completes (R118): flags of its group, the counter, leave returned, waiting lanes. DESIGN CHOICE (log 67): flags that come after the group's last lane has exited are in the unit's status while the unit runs, and lost once it is done (R135). -/
def State.cmdDone (s : State) (k : EngId) (c : Command) : State :=
  let x := s.engine k
  let cmds := x.cmds.map (fun (d : Command) => if d.num = c.num then { c with done := true, stuck := none } else d)
  let tl := prefixDone cmds.length x.tl (fun n => cmds.any (fun d => d.num == n && d.done))
  let s1 := s.setEngine k { x with cmds := cmds, tl := tl }
  let s2 := s1.onGroup c.uid c.grp (fun g => g.raise c.fl)
  let die := if k.kind = 3 then k.home else k.home / 80
  let s3 := s2.leaveEnds die (.command k c.num)
  let s4 := if k.kind = 3 then (List.range 4).foldl (fun (s : State) d => s.prune ⟨3, d, k.ctx⟩) (s3.collOver k.ctx (field c.f 0 32)) else s3.prune k
  s4.wakeCtx k

/-- A context enters the failed state at a command, or stays in it at an earlier one (R274): the command and later ones wait for leave no longer. -/
def State.ctxFail (s : State) (k : EngId) (num code addr : Nat) (ss : Bool) : State :=
  let x := s.engine k
  let die := if k.kind = 3 then k.home else k.home / 80
  let s1 := s.setEngine k { x with failed := (x.failed.filter (fun f => decide (f.1 < num))).getD (num, code, addr, ss), cmds := x.cmds.map (fun (d : Command) => if d.num = num then { d with stuck := none } else d) }
  let s2 := (x.cmds.filter (fun d => decide (num ≤ d.num))).foldl (fun (s : State) d => s.unask die (.command k d.num)) s1
  (s2.leaveEnds die (.command k num)).wakeCtx k

/-- The slice of a die whose harbourmaster services what is homed at a position: the home slice, or, where another partition's, the lowest of the partition's own, as an index of the partition table; nothing where it owns none there (R324). -/
def State.sliceFor (s : State) (part d pos : Nat) : Option Nat :=
  let n := (s.die d).slices
  let own (i : Nat) : Bool := s.owns part (0x140 + d * 16 + i)
  let home := pos % max 1 n
  if own home then some (d * 16 + home) else ((List.range n).find? own).map (fun i => d * 16 + i)

/-- The die of an engine context. -/
def engDie (k : EngId) : Nat := if k.kind = 3 then k.home else k.home / 80

/-- The home slice of an engine context, as R324 redirects it (R361). -/
def State.ctxSlice (s : State) (part : Nat) (k : EngId) : Option Nat := s.sliceFor part (engDie k) (if k.kind = 3 then k.ctx else k.home % 80)

/-- A service message on its way to the harbourmaster of a slice (R332, R361). -/
def State.toHarbour (s : State) (slice : Nat) (msg : List Byte) : State := { s with out := s.out ++ [.service slice msg] }

/-- The message of a command fault (R361). -/
def faultMsg (k : EngId) (num code addr : Nat) (ss : Bool) : List Byte :=
  leBytes 8 addr ++ leBytes 8 (code + 2 * 2 ^ 8 + k.kind * 2 ^ 16 + k.ctx * 2 ^ 18 + (if ss then 2 ^ 24 else 0) + (if k.kind = 3 then k.home * 80 else k.home) * 2 ^ 25) ++ leBytes 8 num

/-- A command's fault takes the route of its code (R361): to the harbourmaster of the context's home slice, or, where the partition owns no slice of the die, to the supervisor, as an escalation (R324). -/
def State.cmdRoute (s : State) (k : EngId) (c : Command) (part code addr : Nat) (ss : Bool) : State :=
  let s := match s.unit? c.uid with | some u => if code = 0x05 then s.noteWalk u addr else s | none => s
  let msg := faultMsg k c.num code addr ss
  match s.route part code with
  | 1 =>
    (match s.ctxSlice part k with
    | some i =>
      let x := s.engine k
      (s.setEngine k { x with cmds := x.cmds.map (fun (d : Command) => if d.num = c.num then { c with stuck := some (code, addr, ss) } else d) }).toHarbour i msg
    | none => (s.ctxFail k c.num code addr ss).toSupervisor part msg)
  | 2 => (s.ctxFail k c.num code addr ss).toSupervisor part msg
  | _ => s.ctxFail k c.num code addr ss

end Sys2Proof.Machine
end

