-- ==== Sys2Proof/Machine/Engines.lean ====
section
/-! DEFINITION. Engine commands and permits: issue (R273, R275 to R279), running, completion and faults (R83, R118, R119, R274, R361). -/

namespace Sys2Proof.Machine

/-! Reading and writing for a command. -/

inductive EngRead where
  | ok (bs : List Byte) (s : State)
  | wait
  | fault (code : Nat)
  deriving DecidableEq, Repr

/-- What running a command comes to; `lost` is an STL whose other context failed (R275), `cut` a command that a cancel ends where it would stall (R83). -/
inductive RunEnd where
  | done
  | cut
  | wait
  | fault (code addr : Nat) (ss : Bool)
  | lost (code addr : Nat) (ss : Bool)
  deriving DecidableEq, Repr

/-- n bytes read by a command: a pending byte makes it wait; bytes its group stored to after the command was numbered, a peer's, and those `free` names are free values (R107, R119, R275; log 3). -/
def State.engRead (s : State) (u : WorkUnit) (c : Command) (a : Addr) (n align : Nat) (free : Bool) : EngRead :=
  match s.access u c.grp 0 (memReq a n align true false false .cells) with
  | .error b => .fault b.code
  | .ok acc =>
    let late := match u.group c.grp with | some g => g.wrote.drop c.since | none => []
    if acc.g.kind == .peer && s.routeDead acc.g.dev then .fault 0x0D else
    if acc.g.kind != .peer && acc.keys.any (fun k => !(late.contains k) && s.pend.any (fun p => p.keys.contains k)) then .wait else
    let byte (q : Nat × Nat) : Byte := if free || acc.g.kind == .peer || late.contains q.1 then Config.freeByte (s.freeCtr + q.2) else Memory.read s.mem q.1
    .ok (acc.keys.zipIdx.map byte) { (s.learn acc.tlb) with freeCtr := s.freeCtr + n }

/-- Bytes committed at their homes at once, for a party of a unit: joined cell by cell in a lattice segment (R93), in every replica of a replicated one (R121); a peer is sent them. -/
def State.writeNow (s : State) (u : WorkUnit) (acc : Acc) (bs : List Byte) : State :=
  let s1 := (s.learn acc.tlb).hitFences (if acc.g.kind == .peer then [] else (s.landing (acc.g.kind == .repl) acc.keys bs).1)
  match acc.g.kind with
  | .lattice =>
    let k := cellBytes acc.g.ltype
    (List.range (acc.keys.length / k)).foldl (fun (s : State) i => s.joinCell u.die acc.g.ltype ((acc.keys.drop (k * i)).take k) (leNat ((bs.drop (k * i)).take k))) s1
  | .peer => s1.sendPeer acc.g.dev acc.keys
  | k => let t := s1.landing (k == SegKind.repl) acc.keys bs; s1.expose u.die t.1 t.2

/-- Bytes of a command's element written; a command awaits the acknowledgement of what it has sent to a peer (R118). -/
def State.engWrite (s : State) (u : WorkUnit) (c : Command) (a : Addr) (n align : Nat) (bs : List Byte) : Except Nat (State × Command) :=
  match s.access u c.grp 0 (memReq a n align false true false .cells) with
  | .error b => .error b.code
  | .ok acc => if acc.g.kind == .peer && s.routeDead acc.g.dev then .error 0x0D else .ok (s.writeNow u acc bs, if acc.g.kind == .peer then { c with sent := c.sent ++ [(acc.g.dev, addrNat a, c.prog)] } else c)

/-- Keys of a range as an access of the command reaches them. -/
def State.engKeys (s : State) (u : WorkUnit) (grp : Nat) (a : Addr) (n : Nat) (write : Bool) : List Nat :=
  match s.access u grp 0 (memReq a n 1 (!write) write false .cells) with
  | .ok acc => acc.keys
  | .error _ => []

/-- The cell of a segment, 1 where it is no lattice segment. -/
def State.unitCell (s : State) (u : WorkUnit) (seg : Nat) : Nat :=
  match s.unitSeg u seg with
  | .ok g => if g.kind == .lattice then cellBytes g.ltype else 1
  | _ => 1

/-! Copies (R275). -/

/-- One element of a copy: where it goes from and to, a fault its index brings, or the wait for its index. -/
structure Mv where
  src : Addr
  dst : Addr
  n : Nat
  bad : Option (Nat × Nat)
  hold : Bool
  deriving DecidableEq, Repr

def Addr.plus (a : Addr) (x : Int) : Addr := ⟨a.seg, a.off + x⟩

/-- The fields of a command's words. -/
def Command.gw (c : Command) : GW :=
  match c.instr with
  | .cpy f => f
  | .cpy2d f => f
  | .cpyg f => f
  | .chain f => f
  | .coll f => f
  | .post f => f
  | .stl f => f
  | _ => ⟨0, 0, 0, 0, none⟩
/-- The destination with imm12 added to its offset, and the source. -/
def Command.dst (c : Command) : Addr := ofBase c.a.toNat (toInt 12 c.gw.gimm)
def Command.src (c : Command) : Addr := ofBase c.b.toNat 0

/-- A copy's destination or source is a circular buffer. -/
def Command.cbd (c : Command) : Bool := match c.instr with | .cpy f => bitAt f.f6 0 | _ => false
def Command.cbs (c : Command) : Bool := match c.instr with | .cpy f => bitAt f.f6 1 | _ => false

/-- Bytes of one element, the elements of the command. -/
def State.mvSize (s : State) (u : WorkUnit) (c : Command) : Nat :=
  match c.instr with
  | .cpyg f => 2 ^ (f.f6 % 8)
  | _ => max (s.unitCell u c.dst.seg) (s.unitCell u c.src.seg)
def Command.rowLen (c : Command) : Nat := match c.instr with | .cpy2d _ => field c.e 0 32 | _ => c.e.toNat
def State.mvCount (s : State) (u : WorkUnit) (c : Command) : Nat :=
  match c.instr with
  | .cpyg _ => c.e.toNat
  | .cpy2d _ => (field c.e 0 32 + s.mvSize u c - 1) / s.mvSize u c * field c.e 32 32
  | _ => (c.e.toNat + s.mvSize u c - 1) / s.mvSize u c

/-- Element i of a copy. -/
def State.mv (s : State) (u : WorkUnit) (c : Command) (i : Nat) : Mv :=
  let n := s.mvSize u c
  match c.instr with
  | .cpyg f =>
    let ia := ofBase c.f.toNat ((4 * i : Nat) : Int)
    match s.engRead u c ia 4 4 false with
    | .wait => ⟨c.src, c.dst, n, none, true⟩
    | .fault code => ⟨c.src, c.dst, n, some (code, addrNat ia), false⟩
    | .ok bs _ =>
      let idx := leNat bs
      let src := if bitAt f.f6 3 then c.src.plus ((i * n : Nat) : Int) else c.src.plus ((idx : Nat) : Int)
      let dst := if bitAt f.f6 3 then c.dst.plus ((idx : Nat) : Int) else c.dst.plus ((i * n : Nat) : Int)
      ⟨src, dst, n, if idx % n ≠ 0 then some (0x03, addrNat (if bitAt f.f6 3 then dst else src)) else none, false⟩
  | .cpy2d _ =>
    let per := max 1 ((c.rowLen + n - 1) / n)
    let r : Int := ((i / per : Nat) : Int)
    let j : Int := ((i % per * n : Nat) : Int)
    ⟨c.src.plus (r * toInt 32 (field c.f 0 32) + j), c.dst.plus (r * toInt 32 (field c.f 32 32) + j), n,
      if c.rowLen % n ≠ 0 then some (0x04, addrNat c.dst) else none, false⟩
  | _ =>
    let src := if c.cbs then ⟨1, ((c.slotS - 1 + i * n % 2 ^ 40 : Nat) : Int)⟩ else c.src.plus ((i * n : Nat) : Int)
    ⟨src, c.dst.plus ((i * n : Nat) : Int), n, if c.rowLen % n ≠ 0 then some (0x04, addrNat c.dst) else none, false⟩

/-- A unit that a cancel has ended (R25). -/
def WorkUnit.cancelled (u : WorkUnit) : Bool := u.res == .done && decide (64 ≤ u.status)

/-- Acquires the slot that element i needs, where the command holds none (R83): side false is the destination's producer acquire; where it would stall, a cancel of its unit ends the command. -/
def State.slotTake (s : State) (u : WorkUnit) (c : Command) (consumer : Bool) : State × Command × Option RunEnd :=
  let h := if consumer then c.src else c.dst
  if (if consumer then c.slotS else c.slotD) ≠ 0 then (s, c, none) else
  match s.cbCheck u h with
  | .error code => (s, c, some (.fault code (addrNat h) (!consumer)))
  | .ok key =>
    if c.e.toNat % 2 ^ bits (s.rd8 key) 24 4 ≠ 0 then (s, c, some (.fault 0x04 (addrNat h) (!consumer))) else
    match cbTake consumer (s.rd8 key) (s.rd8 (key + 8)) with
    | none => (s, c, some (if u.cancelled then .cut else .wait))
    | some (off, w1) => (s.wr8 (key + 8) w1, if consumer then { c with slotS := off + 1 } else { c with slotD := off + 1 }, none)

/-- Releases a slot whose bytes have all been moved, `at_` bytes of the copy being done (R83). -/
def State.slotGive (s : State) (u : WorkUnit) (c : Command) (consumer : Bool) (at_ : Nat) : State × Command × Option RunEnd :=
  let h := if consumer then c.src else c.dst
  match s.cbCheck u h with
  | .error code => (s, c, some (.fault code (addrNat h) (!consumer)))
  | .ok key =>
    if at_ % 2 ^ bits (s.rd8 key) 24 4 ≠ 0 then (s, c, none) else
    match cbGive consumer (s.rd8 key) (s.rd8 (key + 8)) with
    | none => (s, c, some (.fault 0x04 (addrNat h) (!consumer)))
    | some w1 => ((s.wr8 (key + 8) w1).cbWake [key], if consumer then { c with slotS := 0 } else { c with slotD := 0 }, none)

/-- The slot size of a circular buffer's header. -/
def State.slotLen (s : State) (u : WorkUnit) (h : Addr) : Nat :=
  match s.cbCheck u h with
  | .ok key => 2 ^ bits (s.rd8 key) 24 4
  | .error _ => 1

/-- Both sides of a circular-buffer copy, `none` where the element may move. -/
def State.bothSlots (s : State) (c : Command) (k : State → Command → Bool → State × Command × Option RunEnd) : State × Command × Option RunEnd :=
  let r := if c.cbd then k s c false else (s, c, none)
  match r.2.2 with
  | some e => (r.1, r.2.1, some e)
  | none => if c.cbs then k r.1 r.2.1 true else r

/-- The elements of a copy from its progress on, at most `fuel`, with the keys of all sources and destinations (R274, R275); `data` keeps the first 256 bytes written, which a mailbox may take (R294). -/
def State.copyRun (u : WorkUnit) (srcs dsts : List Nat) : Nat → State → Command → State × Command × RunEnd
  | 0, s, c => (s, c, .done)
  | fuel + 1, s, c =>
    match s.bothSlots c (fun s c side => s.slotTake u c side) with
    | (s1, c1, some e) => (s1, c1, e)
    | (s1, c1, none) =>
      let m := s1.mv u c1 c1.prog
      let src := if c1.cbs then (⟨1, ((c1.slotS - 1 + c1.prog * m.n % s1.slotLen u c1.src : Nat) : Int)⟩ : Addr) else m.src
      let dst := if c1.cbd then (⟨1, ((c1.slotD - 1 + c1.prog * m.n % s1.slotLen u c1.dst : Nat) : Int)⟩ : Addr) else m.dst
      if m.hold then (s1, c1, .wait) else
      match m.bad with
      | some (code, addr) => (s1, c1, .fault code addr false)
      | none =>
        let free := (s1.engKeys u c1.grp src m.n false).any dsts.contains || (s1.engKeys u c1.grp dst m.n true).any srcs.contains
        match s1.engRead u c1 src m.n 1 free with
        | .wait => (s1, c1, .wait)
        | .fault code => (s1, c1, .fault code (addrNat src) false)
        | .ok bs s2 =>
          match s2.engWrite u c1 dst m.n 1 bs with
          | .error code => (s1, c1, .fault code (addrNat dst) true)
          | .ok (s3, c3) =>
            let c3 := { c3 with data := some (((c3.data.getD []).take (c1.prog * m.n) ++ bs).take 256) }
            match s3.bothSlots c3 (fun s c side => s.slotGive u c side ((c1.prog + 1) * m.n)) with
            | (s4, c2, some e) => (s4, { c2 with prog := c1.prog + 1 }, e)
            | (s4, c2, none) => State.copyRun u srcs dsts fuel s4 { c2 with prog := c1.prog + 1 }

/-- The mailboxes that a write beginning at an address of a context fires: bound, the address being byte 0 of the window (R294). -/
def State.windows (s : State) (ctx : Nat) (a : Addr) : List Nat :=
  (List.range 1024).filter (fun m => s.mbxState m == 1 && recCtx (s.mbx m).record == ctx && s.rd8 (s.mbxAddr m + 8) == addrNat a)

/-- How many of n elements a run may move: all, or those before a given one. -/
def upTo (n : Nat) (lim : Option Nat) : Nat := match lim with | some e => min n e | none => n

/-- A copy runs; at its end, when its writes have all been committed, it may fire a mailbox, which must have room (R118, R294). -/
def State.runCopy (s : State) (u : WorkUnit) (c : Command) (lim : Option Nat) : State × Command × RunEnd :=
  let n := s.mvCount u c
  let ms := (List.range n).map (s.mv u c)
  let srcs := if c.cbs then [] else ms.flatMap (fun m => s.engKeys u c.grp m.src m.n false)
  let dsts := if c.cbd then [] else ms.flatMap (fun m => s.engKeys u c.grp m.dst m.n true)
  let r := State.copyRun u srcs dsts (upTo n lim - c.prog) s c
  match r.2.2 with
  | .done =>
    if r.2.1.prog < n ∨ !r.2.1.sent.isEmpty then (r.1, r.2.1, .wait) else
    let fired := match c.instr with
      | .cpy _ => if c.cbd || c.e.toNat = 0 then [] else r.1.windows (recCtx u.record) c.dst
      | _ => []
    if fired.any (fun m => !(r.1.mbxRoom m)) then (r.1, r.2.1, .wait) else
    let msg := (r.2.1.data.getD []).take (min c.e.toNat 256)
    (fired.foldl (fun (s : State) m => s.fire m msg) r.1, r.2.1, .done)
  | _ => r

/-- Where a read of n bytes from an address on first fails, and its code: the first faulting byte, or cell of a lattice segment (R274). -/
def State.readBad (s : State) (u : WorkUnit) (c : Command) (n code : Nat) : RunEnd :=
  let k := s.unitCell u c.src.seg
  ((List.range (n / k)).findSome? (fun i =>
    let a := c.src.plus ((k * i : Nat) : Int)
    match s.engRead u c a k 1 false with | .fault q => some (RunEnd.fault q (addrNat a) false) | _ => none)).getD (.fault code (addrNat c.src) false)

/-- POST: the message is delivered when the mailboxes whose window the destination is accept it (R275, R294). -/
def State.runPost (s : State) (u : WorkUnit) (c : Command) : State × Command × RunEnd :=
  match s.engRead u c c.src c.e.toNat 1 false with
  | .wait => (s, c, .wait)
  | .fault code => (s, c, s.readBad u c c.e.toNat code)
  | .ok bs s1 =>
    match s1.windows (recCtx u.record) c.dst with
    | [] => (s, c, .fault 0x04 (addrNat c.dst) true)
    | ms => if ms.all s1.mbxRoom then (ms.foldl (fun (s : State) m => s.fire m bs) s1, c, .done) else (s, c, .wait)

/-- STL (R275). -/
def State.runStl (s : State) (u : WorkUnit) (c : Command) : State × Command × RunEnd :=
  match ctxOf u c.gw.a with
  | none => (s, c, .wait)
  | some m =>
    match waitOn (s.engine m) c.b.toNat with
    | some (.fault f) => (s, c, .lost f.code f.addr f.ss)
    | some _ => (s, c, .done)
    | none => match (s.engine m).failed with
      | some (_, code, addr, ss) => (s, c, .lost code addr ss)
      | none => (s, c, .wait)

/-! Chains (R276, R277). -/

/-- The codes an output slot may have: f32, f16, bf16 or an integer. -/
def outCode (k : Slotd) : Bool := k.code == 0 || k.code == 2 || k.code == 3 || (decide (4 ≤ k.code) && decide (k.code < 12))

/-- A chain descriptor is well formed: its words, whether there is a secondary array (R276, R277). -/
def chainOk (ws : List Nat) (sec : Bool) : Bool :=
  let nops := bits (ws.getD 0 0) 0 3
  bits (ws.getD 0 0) 6 58 == 0 && (List.range 8).all (fun j =>
    let w := ws.getD (1 + j) 0
    if j ≤ nops then bits w 8 24 == 0 && decide (1 ≤ w % 256) && decide (w % 256 ≤ 10) && (sec || !(decide (5 ≤ w % 256) && decide (w % 256 ≤ 7))) else w == 0) &&
    (upFrom 9 7).all (fun j => ws.getD j 0 == 0)

/-- One operation of a chain: x, y, k (R277). -/
def chainOp (op x y k : Nat) : Nat × Nat :=
  match op with
  | 1 => fp32.add 0 x k
  | 2 => fp32.mul 0 x k
  | 3 => fp32.pick true x k
  | 4 => fp32.pick false x k
  | 5 => fp32.add 0 x y
  | 6 => fp32.mul 0 x y
  | 7 => fp32.fma 0 x k y
  | 8 => fp32.exp2 0 x
  | 9 => fp32.rcp 0 x
  | _ => fp32.rsq 0 x

/-- All operations of a descriptor on one element. -/
def chainElem (ws : List Nat) (x y : Nat) : Nat × Nat :=
  (List.range (bits (ws.getD 0 0) 0 3 + 1)).foldl (fun (r : Nat × Nat) j =>
    let q := chainOp (ws.getD (1 + j) 0 % 256) r.1 y (bits (ws.getD (1 + j) 0) 32 32)
    (q.1, r.2 ||| q.2)) (x, 0)

/-- Elements of a chain from its progress on. -/
def State.chainRun (u : WorkUnit) (ws : List Nat) (k : Slotd) (G : Nat) (sec : Bool) : Nat → State → Command → State × Command × RunEnd
  | 0, s, c => (s, c, .done)
  | fuel + 1, s, c =>
    let i := c.prog
    let xa := patAddr c.pat (i / G) (i % G)
    match s.engRead u c xa (patSize c.pat) (patSize c.pat) false with
    | .wait => (s, c, .wait)
    | .fault code => (s, c, .fault code (addrNat xa) false)
    | .ok bs s1 =>
      let ya := ofBase c.f.toNat ((4 * i : Nat) : Int)
      let yr := if sec then s1.engRead u c ya 4 4 false else .ok [] s1
      match yr with
      | .wait => (s, c, .wait)
      | .fault code => (s, c, .fault code (addrNat ya) false)
      | .ok ys s2 =>
        let r := chainElem ws (patWiden c.pat (leNat bs)) (leNat ys)
        let o := if k.code < 4 then cvtFloat k 0 r.1 else (let q := toIntTy (slotInt k.code) k.rnd (fp32.val r.1); (ofInt (slotInt k.code).n q.1, q.2))
        let n := (slotBits k.code) / 8
        let da := c.dst.plus ((n * i : Nat) : Int)
        match s2.engWrite u c da n n (leBytes n o.1) with
        | .error code => (s, c, .fault code (addrNat da) true)
        | .ok (s3, c3) => State.chainRun u ws k G sec fuel s3 { c3 with prog := i + 1, fl := c.fl ||| r.2 ||| o.2 }

/-- The descriptor of a chain, read once and then held (R276). -/
def State.chainDesc (s : State) (u : WorkUnit) (c : Command) : EngRead :=
  match c.data with
  | some bs => .ok bs s
  | none => s.engRead u c c.src 128 128 false

/-- A chain runs: its descriptor is read whole, then the elements (R276, R277). DESIGN CHOICE (log 67): an oslot that is malformed, or whose code is none of those R276 allows, stops the command with 0x04. -/
def State.runChain (s : State) (u : WorkUnit) (c : Command) (lim : Option Nat) : State × Command × RunEnd :=
  let G := match u.group c.grp with | some g => g.lanes.length | none => 1
  match s.chainDesc u c with
  | .wait => (s, c, .wait)
  | .fault code => (s, c, .fault code (addrNat c.src) false)
  | .ok bs s1 =>
    let c1 := { c with data := some bs }
    let ws := (List.range 16).map (fun i => leNat ((bs.drop (8 * i)).take 8))
    let sec := c.gw.f != 0
    match if chainOk ws sec then slotOf (recSlot u.record (bits (ws.getD 0 0) 3 3)) else none with
    | none => (s, c, .fault 0x04 (addrNat c.src) false)
    | some k =>
      if !(outCode k) then (s, c, .fault 0x04 (addrNat c.src) false) else
      match State.chainRun u ws k G sec (upTo c.e.toNat lim - c.prog) s1 c1 with
      | (s2, c2, .done) => (s2, c2, if c2.prog < c.e.toNat ∨ !c2.sent.isEmpty then .wait else .done)
      | r => r

/-! Collectives (R278). -/

def Command.m (c : Command) : Nat := field c.f 48 16
def Command.rank (c : Command) : Nat := field c.f 32 16
def Command.key (c : Command) : Nat := field c.f 0 32
def Command.op (c : Command) : Nat := c.gw.f6

/-- Bytes of a member's source and destination. -/
def collLens (op m len : Nat) : Nat × Nat :=
  match op with
  | 3 => (len, m * len)
  | 4 => (m * len, len)
  | _ => (len, len)

/-- The destination of a rank, from the members' sources in rank order, and the flags. -/
def collResult (op m rank len : Nat) (srcs : List (List Byte)) : List Byte × Nat :=
  let num (n i : Nat) (bs : List Byte) : Nat := leNat ((bs.drop (n * i)).take n)
  let each (n cnt base : Nat) (f : List Nat → Nat × Nat) : List Byte × Nat :=
    (List.range cnt).foldl (fun (r : List Byte × Nat) i => let x := f (srcs.map (num n (base + i))); (r.1 ++ leBytes n x.1, r.2 ||| x.2)) ([], 0)
  let sum (t : Fmt) (xs : List Nat) : Nat × Nat := let r := t.sum 0 false (xs.map t.val); (r.1, r.2 ||| sigFlags (xs.map t.val))
  match op with
  | 0 => each 4 (len / 4) 0 (sum fp32)
  | 1 => each 4 (len / 4) 0 (fun xs => xs.tail.foldl (fun (r : Nat × Nat) x => let q := fp32.pick true r.1 x; (q.1, r.2 ||| q.2)) (xs.headD 0, 0))
  | 2 => each 2 (len / 2) 0 (sum bf16)
  | 3 => ((List.range m).flatMap (fun j => srcs.getD j []), 0)
  | 4 => each 4 (len / 4) (rank * (len / 4)) (sum fp32)
  | _ => (srcs.getD 0 [], 0)

/-- Elements of a member's destination from its progress on. -/
def State.collWrite (u : WorkUnit) (bs : List Byte) (n : Nat) : Nat → State → Command → State × Command × RunEnd
  | 0, s, c => (s, c, .done)
  | fuel + 1, s, c =>
    let da := c.dst.plus ((n * c.prog : Nat) : Int)
    match s.engWrite u c da n n ((bs.drop (n * c.prog)).take n) with
    | .error code => (s, c, .fault code (addrNat da) true)
    | .ok (s1, c1) => State.collWrite u bs n fuel s1 { c1 with prog := c.prog + 1 }

/-- How many elements of n bytes of rank r's destination are known once member j has read `have_` bytes of its source. -/
def collKnown (op r len n total j have_ : Nat) : Nat :=
  min total (match op with
    | 3 => if len ≤ have_ then total else (j * len + have_) / n
    | 4 => (have_ - r * len) / n
    | 5 => if j = 0 then have_ / n else total
    | _ => have_ / n)

/-- A member reads on in its source: what it then holds, and the fault that it met behind that. `lost` is a byte that a peer could not read (R123). -/
structure CollRead where
  s : State
  data : List Byte
  bad : Option Nat
  waits : Bool

/-- The source of a member, from what it holds already on: whole, or up to the first byte, or cell of a lattice segment, that fails (R274). -/
def State.collRead (s : State) (u : WorkUnit) (c : Command) (len : Nat) (lost : Option Nat) : CollRead :=
  let old := c.data.getD []
  let from_ := c.src.plus ((old.length : Nat) : Int)
  let n := (match lost with | some b => min b len | none => len) - old.length
  let cut : Option Nat := match lost with | some b => if b < len ∧ old.length ≤ b then some 0x0D else none | none => none
  if n = 0 then ⟨s, old, cut, false⟩ else
  match s.engRead u c from_ n 1 false with
  | .wait => ⟨s, old, none, true⟩
  | .ok bs s1 => ⟨s1, old ++ bs, cut, false⟩
  | .fault code =>
    let k := s.unitCell u c.src.seg
    let m := ((List.range (n / k)).find? (fun i => match s.engRead u c (from_.plus ((k * i : Nat) : Int)) k 1 false with | .fault _ => true | _ => false)).getD 0
    let code1 := match s.engRead u c (from_.plus ((k * m : Nat) : Int)) k 1 false with | .fault q => q | _ => code
    match s.engRead u c from_ (k * m) 1 false with
    | .ok bs s1 => ⟨s1.noteWalk u (addrNat (from_.plus ((k * m : Nat) : Int))), old ++ bs, some code1, false⟩
    | _ => ⟨s, old, some code1, false⟩

/-- A member runs: it reads its source, then writes the elements of its destination that every member's sources give. At a fault of its source it stops where that source fails it, every element before written; the fault names that element (R274, R278). Members on other devices have sent theirs, and are sent this one's. -/
def State.runColl (s : State) (u : WorkUnit) (k : EngId) (c : Command) (lost : Option Nat) : State × Command × RunEnd :=
  let ms := s.members k.ctx c.key
  let others := s.collOthers k.ctx c.key
  let lens := collLens c.op c.m c.e.toNat
  let len := if c.op = 5 ∧ c.rank ≠ 0 then 0 else lens.1
  if !(ms.any (fun p => p.1 == k && p.2.num == c.num)) then (s, c, .wait) else
  if ms.any (fun p => p.2.m != c.m || p.2.op != c.op || p.2.e != c.e) || others.any (fun p => p.m != c.m || p.op != c.op || p.len != c.e.toNat) then (s, c, .fault 0x04 (addrNat c.dst) true) else
  let q := s.collRead u c len lost
  let n := match c.op with | 2 => 2 | 3 => s.unitCell u c.dst.seg | 5 => s.unitCell u c.dst.seg | _ => 4
  let total := lens.2 / n
  let mine := collKnown c.op c.rank c.e.toNat n total c.rank q.data.length
  let c0 := { c with data := if q.waits then c.data else some q.data }
  let stop (c1 : Command) : RunEnd := match q.bad with
    | some code => if c1.prog = mine then .fault code (addrNat (c.dst.plus ((n * mine : Nat) : Int))) false else .wait
    | none => if c1.prog = total ∧ len ≤ q.data.length ∧ c1.sent.isEmpty then .done else .wait
  -- the source, once read whole, is sent to the members of other devices
  let s0 := if decide ((c.data.getD []).length < len ∧ len ≤ q.data.length ∧ ms.length < c.m) then { q.s with out := q.s.out ++ [.collMember k.ctx c.key c.rank q.data] } else q.s
  if c.data.isNone && q.bad.isNone then (s0, c0, .wait) else
  let byRank (r : Nat) : Option (List Byte) :=
    if r = c.rank then some q.data else
    match ms.find? (fun p => p.2.rank == r) with | some p => p.2.data | none => (others.find? (fun p => p.rank == r)).map (·.data)
  if (List.range c.m).any (fun r => (byRank r).isNone) then (s0, c0, if mine = 0 then stop c0 else .wait) else
  let known := (List.range c.m).foldl (fun a r => min a (collKnown c.op c.rank c.e.toNat n total r ((byRank r).getD []).length)) total
  let r := collResult c.op c.m c.rank c.e.toNat ((List.range c.m).map (fun i => (byRank i).getD []))
  match State.collWrite u r.1 n (known - c.prog) s0 c0 with
  | (s1, c1, .done) => (s1, if c1.prog = total then { c1 with fl := c1.fl ||| r.2 } else c1, stop c1)
  | w => w

/-- COLLECTIVE (a move of the model's): a member on another device has read its source (R278). -/
def State.collJoin (s : State) (p : CollPeer) : State := if p.m < 2 ∨ 4096 < p.m ∨ p.m ≤ p.rank then s else { s with collPeers := s.collPeers ++ [p] }

/-! The events of a running command. -/

/-- A command may run: leave granted, not waiting for service, its context not failed before it, no earlier command that stalls the context (R83, R274, R275, R294). -/
def Engine.mayRun (x : Engine) (c : Command) : Bool :=
  !c.done && c.stuck.isNone && c.demand == 0 && (match x.failed with | some f => decide (c.num < f.1) | none => true) &&
    !(x.cmds.any (fun d => decide (d.num < c.num) && !d.done && (match d.instr with | .stl _ => true | .post _ => true | _ => d.cbd || d.cbs)))

/-- A command run as far as it goes, or as far as a given element; of a collective, a given byte of its source. -/
def State.runUntil (s : State) (u : WorkUnit) (k : EngId) (c : Command) (lim : Option Nat) : State × Command × RunEnd :=
  match c.instr with
  | .chain _ => s.runChain u c lim
  | .coll _ => s.runColl u k c lim
  | .post _ => s.runPost u c
  | .stl _ => s.runStl u c
  | _ => s.runCopy u c lim
def State.runCmd (s : State) (u : WorkUnit) (k : EngId) (c : Command) : State × Command × RunEnd := s.runUntil u k c none

/-- A command put back into its context. -/
def State.putCmd (s : State) (k : EngId) (c : Command) : State :=
  let x := s.engine k
  s.setEngine k { x with cmds := x.cmds.map (fun (d : Command) => if d.num = c.num then c else d) }

/-- The demand of a heavy engine command (R303). -/
def Command.heavy (c : Command) : Nat :=
  match c.instr with
  | .cpy _ => if 4096 < c.e.toNat then 4 else 0
  | .cpyg f => if 4096 < c.e.toNat * 2 ^ (f.f6 % 8) then 4 else 0
  | .chain _ => 6
  | .coll _ => 8
  | _ => 0

/-- A command under its group's permit has the amount to itself: no lane operation and no earlier command uses it (R279). -/
def State.permitTurn (s : State) (u : WorkUnit) (k : EngId) (c : Command) : Bool :=
  !(u.permitTaken c.grp) && !(s.engines.any (fun q => q.2.cmds.any (fun d => d.uid == c.uid && d.grp == c.grp && d.perm && q.2.live d &&
    (decide (d.at_ < c.at_) || (d.at_ == c.at_ && (decide (q.1 < engKey k) || (q.1 == engKey k && decide (d.num < c.num))))))))

/-- A command that was to begin under a permit that has gone back. -/
def Command.unpermitted (c : Command) (u : WorkUnit) : Bool := c.perm && c.prog == 0 && c.data.isNone && !(u.permitCovers c.grp c.heavy)

/-- Command number `arg.a` of the context `arg.eng`, where it may run, with its unit. -/
def State.running (s : State) : Option (WorkUnit × Command) :=
  let x := s.engine s.arg.eng
  match x.cmds.find? (fun c => c.num == s.arg.a) with
  | none => none
  | some c => if x.mayRun c then (s.unit? c.uid).bind (fun u => if c.unpermitted u || (c.perm && !(s.permitTurn u s.arg.eng c)) then none else some (u, c)) else none

/-- A command asks leave; one above its die's budget fails its context (R303, R304). -/
def State.askCmd (s : State) (k : EngId) (c : Command) (prio : Nat) : State :=
  if c.demand = 0 then s
  else if (s.die (engDie k)).budget < c.demand then s.ctxFail k c.num 0x04 0 false
  else s.ask (engDie k) prio (.command k c.num) c.demand

/-- The command that the event names, where the permit it was to begin under has gone back: it asks leave for itself (R279, R304). -/
def State.askAfter (s : State) : Option State :=
  let k := s.arg.eng
  match (s.engine k).cmds.find? (fun c => c.num == s.arg.a) with
  | none => none
  | some c =>
    match s.unit? c.uid with
    | none => none
    | some u =>
      if !((s.engine k).mayRun c && c.unpermitted u) then none else
      let d := { c with perm := false, demand := c.heavy }
      some ((s.putCmd k d).askCmd k d (match u.group c.grp with | some g => effPrio u g | none => recPrio u.record))

/-- ENGINE_COMMAND_COMPLETE (R118): the command runs to its end, or as far as a wait lets it -/
def execEngineCommandComplete (s : State) : Out :=
  match s.running with
  | none => .next (s.askAfter.getD s)
  | some (u, c) =>
    match s.runCmd u s.arg.eng c with
    | (s1, c1, .done) => .next (s1.cmdDone s.arg.eng c1)
    | (s1, c1, .cut) => .next (s1.cmdDone s.arg.eng c1)
    | (s1, c1, .wait) => .next (s1.putCmd s.arg.eng c1)
    | _ => .next s

/-- The segment is a peer's. -/
def State.peerSeg (s : State) (u : WorkUnit) (n : Nat) : Bool := match s.unitSeg u n with | .ok g => g.kind == .peer | _ => false

/-- Where a command reads element i of a peer's memory, if it does: its source, a chain's pattern or secondary array; with `aux` the entry of an index list, or a chain's descriptor before it has been read. -/
def State.peerElem (s : State) (u : WorkUnit) (c : Command) (i : Nat) (aux : Bool) : Option Addr :=
  let a : List Addr := match c.instr with
    | .cpyg _ => [if aux then ofBase c.f.toNat ((4 * i : Nat) : Int) else (s.mv u c i).src]
    | .chain _ => if aux then (if c.data.isNone then [c.src] else []) else [patAddr c.pat (i / max 1 (match u.group c.grp with | some g => g.lanes.length | none => 1)) (i % max 1 (match u.group c.grp with | some g => g.lanes.length | none => 1)),
                   ofBase c.f.toNat ((4 * i : Nat) : Int)]
    | .coll _ => [c.src.plus ((i : Nat) : Int)]
    | .post _ => [c.src.plus ((i : Nat) : Int)]
    | .stl _ => []
    | _ => [(s.mv u c i).src]
  a.find? (fun a => s.peerSeg u a.seg)

/-- A write of a command to a peer has failed: the command stops at that element (R123, R274). -/
def State.sendFails (s : State) (k : EngId) (c : Command) (e : Nat × Nat × Nat) : State :=
  let part := match s.unit? c.uid with | some u => s.partOf (recCtx u.record) | none => 0
  let c1 := { c with prog := e.2.2, sent := [] }
  (s.putCmd k c1).cmdRoute k c1 part 0x0D e.2.1 true

/-- ENGINE_COMMAND_FAULT (R274, R361): the command stops at its first faulting element and takes its route; with `arg.flag` that is element `arg.b`, whose read from a peer has failed (R123): byte `arg.b` of a collective's source; with `arg.c` = 1 the read of an index list's entry or of a chain's descriptor -/
def execEngineCommandFault (s : State) : Out :=
  match s.running with
  | none => .next s
  | some (u, c) =>
    let part := s.partOf (recCtx u.record)
    if s.arg.flag then
      let r := s.runUntil u s.arg.eng c (some s.arg.b)
      match c.instr, s.peerElem u c s.arg.b (s.arg.c == 1) with
      | _, none => .next s
      | .coll _, some _ =>
        (match r with
        | (s1, c1, .fault code addr ss) => .next ((s1.putCmd s.arg.eng c1).cmdRoute s.arg.eng c1 part code addr ss)
        | _ => .next s)
      | .post _, some a => .next (if s.arg.b < c.e.toNat then s.cmdRoute s.arg.eng c part 0x0D (addrNat a) false else s)
      | _, some a =>
        if c.data.isNone && s.arg.c == 1 && (match c.instr with | .chain _ => true | _ => false) then .next (s.cmdRoute s.arg.eng c part 0x0D (addrNat a) false) else
        (match r with
        | (s1, c1, .wait) => if c1.prog = s.arg.b then .next ((s1.putCmd s.arg.eng c1).cmdRoute s.arg.eng c1 part 0x0D (addrNat a) false) else .next s
        | _ => .next s)
    else
    match s.runCmd u s.arg.eng c with
    | (s1, c1, .fault code addr ss) => .next ((s1.putCmd s.arg.eng c1).cmdRoute s.arg.eng c1 part code addr ss)
    | (s1, c1, .lost code addr ss) => .next ((s1.putCmd s.arg.eng c1).ctxFail s.arg.eng c1.num code addr ss)
    | _ => .next s

/-- ENGINE_FAULT_RETRY (R361): service has returned, and the commands of the context that wait for it go on -/
def execEngineFaultRetry (s : State) : Out :=
  let x := s.engine s.arg.eng
  .next (s.setEngine s.arg.eng { x with cmds := x.cmds.map (fun (c : Command) => { c with stuck := none }) })

/-- FAILED_CONTEXT_CLEAR (R274): the failed command is dropped; the counter stays below it -/
def execFailedContextClear (s : State) : Out :=
  let x := s.engine s.arg.eng
  match x.failed with
  | none => .next s
  | some f => .next (s.setEngine s.arg.eng { x with failed := none, cmds := x.cmds.filter (fun c => c.num != f.1) })

/-! Issue (R273). -/

/-- A range that a command reads or writes. -/
structure Range where
  a : Addr
  n : Nat
  align : Nat
  wr : Bool
  deriving DecidableEq, Repr

/-- The first of checks 1 to 6 that a range fails: its order and its code; a range of no bytes is not held to checks 4 and 5 (R273). -/
def State.rangeBad (s : State) (u : WorkUnit) (r : Range) : Option (Nat × Nat) :=
  match s.unitSeg u r.a.seg with
  | .null => some (1, 0x19)
  | .revoked => some (2, 0x0F)
  | .invalid => some (3, 0x04)
  | .ok g =>
    if r.n ≠ 0 ∧ (r.a.off < 0 ∨ (g.len : Int) < r.a.off + (r.n : Int)) then some (4, 0x02) else
    if r.n ≠ 0 ∧ (r.a.off.toNat % r.align ≠ 0 ∨ (g.kind = .lattice ∧ r.a.off.toNat % cellBytes g.ltype ≠ 0)) then some (5, 0x03) else
    if (r.wr && !g.wr) || (!r.wr && !g.rd) then some (6, 0x04) else none

/-- The fault of a command's ranges: the earliest check that any range fails, reads before writes (R273). -/
def State.rangesBad (s : State) (u : WorkUnit) (rs : List Range) : Option LFault :=
  let all := (rs.filter (fun r => !r.wr) ++ rs.filter (·.wr)).filterMap (fun r => (s.rangeBad u r).map (fun b => (b.1, lf b.2 (addrNat r.a) r.wr)))
  match all with
  | [] => none
  | x :: xs => some (xs.foldl (fun b y => if y.1 < b.1 then y else b) x).2

/-- The segments of a command's operands, and which of them it writes (R119, R126). -/
def Env.cmdSegs (e : Env) (i : Instr) : List (Nat × Bool) :=
  let seg (n : Nat) : Nat := (ofBase (e.g.getS n).toNat 0).seg
  let both (f : GW) : List (Nat × Bool) := [(seg f.a, true), (seg f.b, false)]
  match i with
  | .cpy f => both f
  | .cpy2d f => both f
  | .cpyg f => both f ++ [(seg f.f, false)]
  | .chain f => both f ++ (if f.f = 0 then [] else [(seg f.f, false)]) ++ [((patAddr (e.g.getSp f.f6) 0 0).seg, false)]
  | .coll f => both f
  | .post f => both f
  | _ => []

/-- The scope of a command's release: package, or domain or system where an operand is of the peer or host kind (R119). -/
def Env.cmdScope (e : Env) (i : Instr) : Nat :=
  (e.cmdSegs i).foldl (fun m r => match e.s.unitSeg e.u r.1 with
    | .ok g => max m (if g.kind == .host then 7 else if g.kind == .peer then 6 else 5)
    | _ => m) 5

/-- The fault of a command word: no context, a context of another kind, its ranges, what its own word tests (R273). -/
def Env.commandBad (e : Env) (f : GW) (kind : Nat → Bool) (ranges : List Range) (extra : EngId → Nat → Option LFault) : Option LFault :=
  match ctxOf e.u f.tl with
  | none => some (lf 0x04 0 false)
  | some k => if !(kind k.kind) then some (lf 0x04 0 false) else (e.s.rangesBad e.u ranges).or (extra k ((e.s.engine k).issued + 1))

/-- A command is ordered after the group's accesses, outstanding acquires of circular buffers among them (R49, R119), and takes a free replay record until it is numbered (R336). -/
def Env.commandWaits (e : Env) (i : Instr) : Bool :=
  let ls := e.g.liveLanes
  !(e.settled ls) || decide (256 ≤ e.s.replayUsed e.u.core) || !e.g.acqs.isEmpty || !e.g.inflight.isEmpty || (decide (6 ≤ e.cmdScope i) && e.s.postedOf e.u.uid e.c.grp ls)

/-- The deferred faults that a release at domain or system scope surfaces (R124). -/
def Env.commandFails (e : Env) (i : Instr) : List (Nat × LFault) :=
  if 6 ≤ e.cmdScope i then e.g.liveLanes.filterMap (fun l => (e.g.lane l).defer.map (fun d => (l, deferFault d))) else []

/-- The command that a word makes (R118, R119, R273). -/
def Env.newCommand (e : Env) (f : GW) (i : Instr) (k : EngId) (demand : Nat) (pat : List DWord) : Command :=
  let perm := demand != 0 && e.u.permitCovers e.c.grp demand
  { num := (e.s.engine k).issued + 1, instr := i, a := e.g.getS f.a, b := e.g.getS f.b, e := e.g.getS f.e, f := e.g.getS f.f, pat := pat, uid := e.c.uid, grp := e.c.grp,
    demand := if perm then 0 else demand, prog := 0, stuck := none, done := false,
    code := (e.cmdSegs i).any (fun r => r.2 && (match e.s.unitSeg e.u r.1 with | .ok g => g.kind == .code | _ => false)), at_ := e.s.cycle, perm := perm,
    since := e.g.wrote.length, slotD := 0, slotS := 0, fl := 0, data := none }

/-- The issue with the command numbered: sD holds its number, a commit point of every live lane (R49, R118). -/
def Env.commandMade (e : Env) (f : GW) (k : EngId) (c : Command) : Env :=
  { e with s := e.s.setEngine k { e.s.engine k with issued := c.num, cmds := (e.s.engine k).cmds ++ [c] }, g := (e.g.putS f.d (BitVec.ofNat 64 c.num)).enter e.g.liveLanes e.next }

/-- A command with a demand asks leave (R303, R304). -/
def Env.commandAsks (e : Env) (k : EngId) (c : Command) (s : State) : State := s.askCmd k c (effPrio e.u e.g)

/-- What every engine command does after its decoding tests: its registers are full, its context is bound to an engine of its kind, its ranges pass checks 1 to 6, it is ordered after the group's accesses; then it is numbered, as a commit point (R49, R118, R119, R273). -/
def Env.command (e : Env) (f : GW) (i : Instr) (kind : Nat → Bool) (regs : List Nat) (ranges : List Range) (extra : EngId → Nat → Option LFault)
    (demand : Nat) (pat : List DWord) : Out :=
  e.whenFull (f.d :: regs) <|
  match e.commandBad f kind ranges extra, ctxOf e.u f.tl with
  | some q, _ => e.groupFault q
  | none, none => e.groupFault (lf 0x04 0 false)
  | none, some k =>
    if e.commandWaits i then e.stall else
    if !(e.commandFails i).isEmpty then .next (Env.stop e (e.commandFails i)).out else
    let c := e.newCommand f i k demand pat
    .next (e.commandAsks k c (stateOf e.s (e.commandMade f k c).groupNext))

/-- Destination, source and count of a copy. -/
def Env.dstOf (e : Env) (f : GW) : Addr := ofBase (e.g.getS f.a).toNat (toInt 12 f.gimm)
def Env.srcOf (e : Env) (f : GW) : Addr := ofBase (e.g.getS f.b).toNat 0
def Env.countOf (e : Env) (f : GW) : Nat := (e.g.getS f.e).toNat

/-- Ranges of CPY: a circular buffer's is its header (R83, R275). -/
def Env.cpyRanges (e : Env) (f : GW) : List Range :=
  let side (cb : Bool) (a : Addr) (wr : Bool) : List Range := if cb then [⟨a, 16, 16, false⟩, ⟨a, 16, 16, true⟩] else [⟨a, e.countOf f, 1, wr⟩]
  side (bitAt f.f6 0) (e.dstOf f) true ++ side (bitAt f.f6 1) (e.srcOf f) false

/-- CPY (R275) -/
def execCpy (f : GW) (s : State) : Out :=
  s.issue fun e =>
    if !(f.rz == 0 && f.f == 0 && decide (f.f6 < 4)) then e.groupIllegal else
    e.command f (.cpy f) (· == 1) [f.a, f.b, f.e] (e.cpyRanges f)
      (fun _ _ => if 2 ^ 40 ≤ e.countOf f then some (lf 0x04 0 false) else none) (if 4096 < e.countOf f then 4 else 0) []

/-- Ranges of CPY2D: each row's (R275). -/
def Env.cpy2dRanges (e : Env) (f : GW) : List Range :=
  let x := e.g.getS f.e
  let st := e.g.getS f.f
  let row (a : Addr) (stride : Nat) (wr : Bool) (r : Nat) : Range := ⟨a.plus ((r : Int) * toInt 32 stride), field x 0 32, 1, wr⟩
  (List.range (field x 32 32)).map (row (e.srcOf f) (field st 0 32) false) ++ (List.range (field x 32 32)).map (row (e.dstOf f) (field st 32 32) true)

/-- CPY2D (R275) -/
def execCpy2d (f : GW) (s : State) : Out :=
  s.issue fun e =>
    if !(f.rz == 0 && f.f6 == 0) then e.groupIllegal else
    e.command f (.cpy2d f) (· == 1) [f.a, f.b, f.e, f.f] (e.cpy2dRanges f) (fun _ _ => none) 0 []

/-- CPYG: the index list is its range (R275) -/
def execCpyg (f : GW) (s : State) : Out :=
  s.issue fun e =>
    if !(f.rz == 0 && decide (f.f6 < 16)) then e.groupIllegal else
    e.command f (.cpyg f) (· == 1) [f.a, f.b, f.e, f.f] [⟨ofBase (e.g.getS f.f).toNat 0, 4 * e.countOf f, 4, false⟩]
      (fun _ _ => if 2 ^ 24 ≤ e.countOf f then some (lf 0x04 0 false) else none) (if 4096 < e.countOf f * 2 ^ (f.f6 % 8) then 4 else 0) []

/-- The size of an output element of a chain, as its descriptor stands at the convergence point. -/
def Env.chainWidth (e : Env) (f : GW) : Nat :=
  let keys := e.s.engKeys e.u e.c.grp (e.srcOf f) 8 false
  match slotOf (recSlot e.u.record (bits (leNat (keys.map (Memory.read e.s.mem))) 3 3)) with
  | some k => if outCode k then slotBits k.code / 8 else 1
  | none => 1

/-- Ranges of CHAIN: descriptor, secondary array, output (R277). -/
def Env.chainRanges (e : Env) (f : GW) : List Range :=
  [⟨e.srcOf f, 128, 128, false⟩] ++ (if f.f = 0 then [] else [⟨ofBase (e.g.getS f.f).toNat 0, 4 * e.countOf f, 4, false⟩]) ++ [⟨e.dstOf f, e.countOf f * e.chainWidth f, e.chainWidth f, true⟩]
/-- The pattern of a chain must hold its elements (R277). -/
def Env.chainShort (e : Env) (f : GW) : Option LFault :=
  let pat := e.g.getSp f.f6
  if patEntries pat * e.G < e.countOf f ∨ (e.countOf f ≠ 0 ∧ !(patOk pat)) then some (lf 0x10 0 false) else none

/-- CHAIN (R277) -/
def execChain (f : GW) (s : State) : Out :=
  s.issue fun e =>
    if !(f.rz == 0 && decide (f.f6 < 8)) then e.groupIllegal else
    e.command f (.chain f) (· == 2) ([f.a, f.b, f.e] ++ (if f.f = 0 then [] else [f.f])) (e.chainRanges f) (fun _ _ => e.chainShort f) 6 (e.g.getSp f.f6)

/-- The element of a collective's operation, in bytes. -/
def collWidth (op : Nat) : Nat := match op with | 2 => 2 | 3 => 1 | 5 => 1 | _ => 4
/-- Ranges of COLL: a broadcast reads rank 0's source only (R278). -/
def Env.collRanges (e : Env) (f : GW) : List Range :=
  let d := e.g.getS f.f
  let lens := collLens f.f6 (field d 48 16) (e.countOf f)
  (if f.f6 = 5 ∧ field d 32 16 ≠ 0 then [] else [⟨e.srcOf f, lens.1, collWidth f.f6, false⟩]) ++ [⟨e.dstOf f, lens.2, collWidth f.f6, true⟩]
/-- A collective's members, rank and length (R278). -/
def Env.collBad (e : Env) (f : GW) : Option LFault :=
  let m := field (e.g.getS f.f) 48 16
  if m < 2 ∨ 4096 < m ∨ m ≤ field (e.g.getS f.f) 32 16 ∨ e.countOf f % collWidth f.f6 ≠ 0 then some (lf 0x04 0 false) else none

/-- COLL (R278) -/
def execColl (f : GW) (s : State) : Out :=
  s.issue fun e =>
    if !(f.rz == 0 && decide (f.f6 < 6)) then e.groupIllegal else
    e.command f (.coll f) (· == 3) [f.a, f.b, f.e, f.f] (e.collRanges f) (fun _ _ => e.collBad f) 8 []

/-- POST (R275) -/
def execPost (f : GW) (s : State) : Out :=
  s.issue fun e =>
    if !(f.rz == 0 && f.f == 0 && f.f6 == 0) then e.groupIllegal else
    e.command f (.post f) (· == 1) [f.a, f.b, f.e] [⟨e.dstOf f, e.countOf f, 1, true⟩, ⟨e.srcOf f, e.countOf f, 1, false⟩]
      (fun _ _ => if e.countOf f < 8 ∨ 256 < e.countOf f ∨ e.countOf f % 8 ≠ 0 then some (lf 0x04 0 false) else none) 0 []

/-- What STL tests: the context waited for, and that it does not wait for itself or a later command (R275). -/
def Env.stlBad (e : Env) (f : GW) (k : EngId) (num : Nat) : Option LFault :=
  match ctxOf e.u f.a with
  | none => some (lf 0x04 0 false)
  | some m => if m = k ∧ num ≤ (e.g.getS f.b).toNat then some (lf 0x04 0 false) else none

/-- STL (R275) -/
def execStl (f : GW) (s : State) : Out :=
  s.issue fun e =>
    if !(f.rz == 0 && f.e == 0 && f.f == 0 && f.f6 == 0 && f.gimm == 0 && decide (f.a < 8)) then e.groupIllegal else
    e.command f (.stl f) (fun _ => true) [f.b] [] (e.stlBad f) 0 []

/-! Permits (R279). -/

/-- The state with the group's permit returned. -/
def Env.permitBack (e : Env) : State := e.s.sluiceReturn e.u.die (match e.g.permit with | some p => p.1 | none => 0)
/-- The live lanes wait for leave of n units at a priority (R279, R288). -/
def Env.permitParked (e : Env) (f : GW) (n : Nat) : Env :=
  let g := e.g.setLanes e.g.liveLanes (fun _ x => { x with st := .parked .leave 0 e.next })
  { e with s := e.permitBack, g := { g with permit := none, permitWait := some (f.d, n, f.f6), lastIssue := e.s.cycle, raised := false } }

/-- PERMIT: a held permit is returned first; the group then waits for leave -/
def execPermit (f : GW) (s : State) : Out :=
  s.issue fun e =>
    if !(f.gx == 0 && f.b == 0 && decide (f.f6 < 4)) then e.groupIllegal else
    e.whenFull [f.a, f.d] <|
    let n := (e.g.getS f.a).toNat
    if (e.permitBack.die e.u.die).budget < n then Env.groupFault { e with s := e.permitBack, g := { e.g with permit := none } } (lf 0x04 0 false) else
    if n = 0 then Env.groupNext { e with s := e.permitBack, g := { e.g.putS f.d 0 with permit := none } } else
    .next ((e.permitParked f n).out.ask e.u.die f.f6 (.permit e.u.uid e.c.grp) n)

/-- A request of the group for leave. -/
def Env.ownAsk (e : Env) (q : SluiceReq) : Bool :=
  match q.who with
  | .heavy uid op => uid == e.u.uid && e.u.ops.any (fun o => o.id == op && o.grp == e.c.grp)
  | .command k num => (e.s.engine k).cmds.any (fun c => c.num == num && c.uid == e.u.uid && c.grp == e.c.grp)
  | .permit uid grp => uid == e.u.uid && grp == e.c.grp

/-- What PERMQ answers: the permit held, the budget free, the requests ahead of the group's oldest (R279). -/
def Env.permqVal (e : Env) (sel : Nat) : Nat :=
  let d := e.s.die e.u.die
  match sel with
  | 0 => (match e.g.permit with | some p => p.1 | none => 0)
  | 1 => d.budget - d.held
  | _ =>
    let order := d.queues.reverse.flatten
    let mine := order.filter e.ownAsk
    (order.findIdx? (fun q => e.ownAsk q && mine.all (fun r => decide (q.at_ ≤ r.at_)))).getD 0

/-- PERMQ (R279) -/
def execPermq (f : GW) (s : State) : Out :=
  s.issue fun e =>
    if !(f.gx == 0 && f.a == 0 && f.b == 0 && decide (f.f6 < 3)) then e.groupIllegal else
    e.whenFull [f.d] (Env.groupNext { e with g := e.g.putS f.d (BitVec.ofNat 64 (e.permqVal f.f6)) })

end Sys2Proof.Machine
end

