-- ==== Sys2Proof/Machine/MemEvents.lean ====
section
/-! DEFINITION. What happens between issues: values that arrive (R44), registers that move (R27), stores that are applied and committed (R106, R107, R121), fences that complete or roll back (R113, R114), the Ovoft Link's replies and requests (R122 to R124, R353), the sluice's grants (R304). -/

namespace Sys2Proof.Machine

/-- The resident unit and the group that an event's first two operands name. -/
def State.target (s : State) : Option (WorkUnit × Group) :=
  (s.unit? s.arg.a).bind (fun u => (u.group s.arg.b).map (fun g => (u, g)))

/-! Values (R44). -/

/-- A loaded number of n bytes in a 32-bit or a 64-bit register (R213, R214). -/
def extend (n : Nat) (sgn : Bool) (w raw : Nat) : Nat := if sgn then sext (8 * n) w raw else low w raw

/-- A number in a destination: a v register, an even pair for 64 bits, an s register. -/
def Group.deliver (g : Group) (dest : RegRef) (wide : Bool) (x : Nat) : Group :=
  match dest with
  | .v l n => let g1 := g.fillV l n (BitVec.ofNat 32 x); if wide then g1.fillV l (n + 1) (BitVec.ofNat 32 (x / 2 ^ 32)) else g1
  | .s n => (g.putS n (BitVec.ofNat 64 x)).markS n false

/-- The destination's registers are full again, unwritten: a remote operation failed (R123). -/
def Group.unmark (g : Group) (k : ProdKind) (p : Part) : Group :=
  match p.dest with
  | .s n => g.markS n false
  | .v l n =>
    let c := match k with | .load n _ _ => (n + 3) / 4 | .block c _ => c | .atomic _ n _ _ _ => (n + 3) / 4 | .value w => (if w then 2 else 1) | .tile _ _ => 0
    (upFrom n c).foldl (fun g r => g.markV l r false) g

/-- What one part delivers of its bytes. -/
def Group.arrive (g : Group) (k : ProdKind) (p : Part) (bytes : List Byte) : Group :=
  let raw := leNat bytes
  match k with
  | .load n sgn _ => g.deliver p.dest (n == 8) (extend n sgn (match p.dest with | .v _ _ => (if n = 8 then 64 else 32) | .s _ => 64) raw)
  | .atomic _ n sgn _ _ => g.deliver p.dest (n == 8) (extend n sgn (if n = 8 then 64 else 32) raw)
  | .block c _ => (match p.dest with
    | .v l d => (List.range c).foldl (fun g i => g.fillV l (d + i) (BitVec.ofNat 32 (leNat ((bytes.drop (4 * i)).take 4)))) g
    | .s _ => g)
  | .value wide => g.deliver p.dest wide p.e.toNat
  | .tile _ _ => g

/-- A tile element has been written for a lane: an answer that comes later for a lower lane of the issue no longer writes it (R210, R251). -/
def WorkUnit.outdates (u : WorkUnit) (grp : Nat) (pr : Producer) (p : Part) : WorkUnit :=
  match pr.kind with
  | .tile _ _ => u.onGroup grp (fun g => { g with inflight := g.inflight.map (fun q =>
      if q.seq == pr.seq && q.kind == pr.kind then { q with parts := q.parts.map (fun x => if x.lane < p.lane && x.x == p.x then { x with e := 1 } else x) } else q) })
  | _ => u

/-- A tile element reaches its tile, unless a higher lane's has (R251). DESIGN CHOICE (log 67): a signalling NaN of f16 or bf16 is widened to the canonical NaN and sets no flag. -/
def WorkUnit.arriveTile (u : WorkUnit) (k : ProdKind) (p : Part) (bytes : List Byte) : WorkUnit :=
  match k with
  | .tile t fs =>
    if p.e != 0 then u else
    (match coord fs p.x.toNat with
    | some q => u.setElem fs t q.1 q.2 (if fs < 2 then leNat bytes else (convFloat (fmtOf fs) fp32 0 false (leNat bytes)).1)
    | none => u)
  | _ => u

/-- The scope record that a performed part leaves (R116): nothing for a relaxed one. -/
def ProdKind.scope : ProdKind → Nat
  | .load _ _ q => q
  | .block _ q => q
  | .atomic _ _ _ q _ => q
  | .value _ => 0
  | .tile _ _ => 0

/-- A part's own bytes: those forwarded at its issue, the others as memory holds them. -/
def State.partBytes (s : State) (p : Part) : List Byte :=
  p.keys.zipIdx.map (fun q => match (p.fwd.getD q.2 none) with | some b => b | none => Memory.read s.mem q.1)

/-- The test of an acquire or release against the records of its lines, as the home makes it (R117). -/
def State.partBad (s : State) (u : WorkUnit) (grp : Nat) (k : ProdKind) (p : Part) : Bool :=
  k.scope != 0 && p.recs.any (fun n => !(s.scopeOk u grp p.lane k.scope n.1))

/-- An atomic writes: a compare and swap only where the comparison holds (R223). -/
def AtomOp.writes (op : AtomOp) (old ex : Nat) : Bool := match op with | .cas => old == ex | _ => true

/-- One part performed at its home: an atomic's read and write are one step (R110, R222); its old bytes and flags. -/
def State.perform (s : State) (u : WorkUnit) (grp : Nat) (k : ProdKind) (p : Part) : State × List Byte × Nat :=
  let old := s.partBytes p
  let s0 := if k.scope = 0 then s else p.recs.foldl (fun (s : State) n => s.setScope n k.scope (scopeInst k.scope u grp p.lane)) s
  match k with
  | .atomic op n sgn _ _ =>
    if !(op.writes (leNat old) p.e.toNat) then (s0, old, 0) else
    let r := atomNew op n sgn (leNat old) p.x.toNat p.e.toNat
    let t := s.landing p.repl p.keys (leBytes n r.1)
    let s1 := s0.hitFences t.1
    ({ (s1.expose u.die t.1 t.2) with nextSeq := if p.repl then s.nextSeq + 1 else s.nextSeq }, old, r.2)
  | _ => (s0, old, 0)

/-- A producer leaves its group; a commit point makes its region entry for the lanes whose operation completed, one for the whole issue (R48). -/
def Group.completes (g : Group) (i : Nat) (pr : Producer) (ls : List Nat) : Group :=
  let g1 := { g with inflight := g.inflight.eraseIdx i }
  if !pr.commit || ls.isEmpty then g1 else
  let g2 := g1.enterAt ls pr.pc pr.seq (fun l => match pr.deps.find? (fun p => p.1 == l) with | some p => p.2 | none => 0) pr.ent
  { g2 with inflight := g2.inflight.map (fun q => if q.commit && q.seq == pr.seq then { q with ent := some (pr.ent.getD g2.regc) } else q) }

/-- The operation writes memory: its faults are store-suppressed (R209). -/
def ProdKind.writes : ProdKind → Bool
  | .atomic _ _ _ _ _ => true
  | _ => false

/-- Parts that failed: their destinations are full again, unwritten, and the lanes whose access it was fault at the word. -/
def WorkUnit.partFaults (u : WorkUnit) (cycle grp : Nat) (pr : Producer) (fs : List (Part × LFault)) : WorkUnit :=
  (u.onGroup grp (fun g => fs.foldl (fun (g : Group) q => g.unmark pr.kind q.1) g)).laneFaults cycle grp (some (pr.at_, pr.seq))
    (fs.flatMap (fun q => (q.1.lane :: q.1.others).map (fun l => (l, q.2))))

/-- The fault that a part meets at its home: one that cannot be reached performs nothing (R336, R354), a scope record refuses it (R117). -/
def State.partFault (s : State) (u : WorkUnit) (grp : Nat) (k : ProdKind) (p : Part) : Option LFault :=
  if !p.repl && s.homeDown p.recs then some (lf 0x0E p.addr k.writes)
  else if s.partBad u grp k p then some (lf 0x07 p.addr k.writes) else none

/-- One part of a producer arrives: it is performed, or fails. -/
def State.arrivePart (uid grp : Nat) (pr : Producer) (r : State × List (Part × LFault)) (p : Part) : State × List (Part × LFault) :=
  match r.1.unit? uid with
  | none => r
  | some u =>
    match r.1.partFault u grp pr.kind p with
    | some q => (r.1, r.2 ++ [(p, q)])
    | none =>
    let t := r.1.perform u grp pr.kind p
    (t.1.onUnit uid (fun u => ((u.arriveTile pr.kind p t.2.1).outdates grp pr p).onGroup grp (fun g => (g.arrive pr.kind p t.2.1).raise t.2.2)), r.2)

/-- A producer is delivered whole: its parts in ascending lane order. -/
def State.arriveAll (s : State) (uid grp i : Nat) (pr : Producer) : State :=
  let r := pr.parts.foldl (State.arrivePart uid grp pr) (s, [])
  let ok := (pr.parts.filter (fun p => !(r.2.any (fun q => q.1 == p)))).map (·.lane)
  r.1.onUnit uid (fun u => (u.onGroup grp (fun g => g.completes i pr ok)).partFaults s.cycle grp pr r.2)

/-- Keys of a part that its group's stores did not supply. -/
def Part.open_ (p : Part) : List Nat := (p.keys.zipIdx.filter (fun q => (p.fwd.getD q.2 none).isNone)).map (·.1)

/-- A producer must wait: one of its bytes is pending (R107), or an earlier one of a lane of its reaches the same byte (R106). -/
def State.blocked (s : State) (g : Group) (i : Nat) (pr : Producer) : Bool :=
  pr.parts.any (fun p => p.open_.any (fun k => s.pend.any (fun q => q.keys.contains k)) ||
    (g.inflight.take i).any (fun q => q.parts.any (fun x => (p.lane :: p.others).any x.of && x.keys.any p.keys.contains)))

/-- LOAD_VALUE_ARRIVAL (R44): producer c of group b of unit a -/
def execLoadValueArrival (s : State) : Out :=
  match s.target with
  | none => .next s
  | some (_, g) =>
    match g.inflight[s.arg.c]? with
    | none => .next s
    | some pr => if pr.parts.any (fun p => p.peer.isSome) || s.blocked g s.arg.c pr then .next s else .next (s.arriveAll s.arg.a s.arg.b s.arg.c pr)

/-! Registers that move (R27, R76, R344). -/

def regKey : RegRef → Nat
  | .v l n => 64 * l + n
  | .s n => 4096 + n
def regOf (k : Nat) : RegRef := if k < 4096 then .v (k / 64) (k % 64) else .s (k - 4096)

/-- A spill line's offset in segment 0x03: beyond the lane-visible length and the return stack (R45, R55). -/
def spillOff (tlen : Nat) (r : RegRef) : Nat := tlen + 8192 + 128 * (match r with | .v _ n => n / 32 | .s n => 2 + n / 16)

/-- A move of a register meets a fault: the record of the lane whose register it is (R76), its store suppressed where it is a spill (R329; log 15). DESIGN CHOICE (log 67): for an s register, which is no lane's, the lowest live lane of the group. -/
def State.moveFault (s : State) (u : WorkUnit) (grp : Nat) (g : Group) (r : RegRef) (spill : Bool) : State :=
  let lane := match r with | .v l _ => l | .s _ => g.liveLanes.headD 0
  s.setUnit (u.laneFaults s.cycle grp none [(lane, lf 0x12 (addrOf 3 ((spillOff (recTlen u.record) r : Nat) : Int)) spill)])

/-- The spill line of a register has no page behind it (R344). -/
def Group.noLine (g : Group) (tlen : Nat) (r : RegRef) : Bool :=
  g.holes.any (fun h => h.1 == (match r with | .v l _ => l | .s _ => 0) && h.2 == spillOff tlen r / 128)

/-- REGISTER_SPILL (R27): register `arg.reg` of group b of unit a; `arg.flag`: the move meets a fault of R59, and the value stays -/
def execRegisterSpill (s : State) : Out :=
  match s.target with
  | none => .next s
  | some (u, g) =>
    if u.res ≠ .resident ∨ SMap.get false g.spilled (regKey s.arg.reg) then .next s else
    if s.arg.flag || g.noLine (recTlen u.record) s.arg.reg then .next (s.moveFault u s.arg.b g s.arg.reg true) else
    .next (s.onGroup s.arg.a s.arg.b (fun g => { g with spilled := SMap.put false g.spilled (regKey s.arg.reg) true }))

/-- REGISTER_FILL (R27): as REGISTER_SPILL; a fill that meets a fault sets the register's backing bit (R344) -/
def execRegisterFill (s : State) : Out :=
  match s.target with
  | none => .next s
  | some (u, g) =>
    if u.res ≠ .resident ∨ !(SMap.get false g.spilled (regKey s.arg.reg)) then .next s else
    if s.arg.flag || g.noLine (recTlen u.record) s.arg.reg then
      .next ((s.moveFault u s.arg.b g s.arg.reg false).onGroup s.arg.a s.arg.b (fun g => { g with backing := SMap.put false g.backing (regKey s.arg.reg) true }))
    else .next (s.onGroup s.arg.a s.arg.b (fun g => { g with spilled := SMap.put false g.spilled (regKey s.arg.reg) false, backing := SMap.put false g.backing (regKey s.arg.reg) false }))

/-! Stores on their way. -/

/-- The stores of one issue that are not held past a fence (R210). -/
def Group.together (g : Group) (seq : Nat) : List BufStore := g.sbuf.filter (fun b => b.seq == seq && b.held.isNone)

/-- A store of a buffer may be applied: after earlier stores of its bytes, held siblings of its issue among them, and the loads that must not see it (R106, R210); a release after everything before it (R110). -/
def State.mayApply (s : State) (uid grp : Nat) (g : Group) (b : BufStore) : Bool :=
  !(g.sbuf.any (fun x => (decide (x.seq < b.seq) || (x.seq == b.seq && x.held.isSome)) && x.keys.any b.keys.contains)) &&
    !(s.pend.any (fun p => p.uid == uid && p.grp == grp && p.keys.any b.keys.contains)) &&
    !(g.inflight.any (fun p => p.parts.any (fun x => x.open_.any b.keys.contains))) &&
    (b.rel == 0 || (!(g.sbuf.any (fun x => decide (x.seq < b.seq) && x.held.isNone)) && !(g.awaiting (b.lane :: b.others)) && !(s.pend.any (fun p => p.uid == uid && p.grp == grp))))

/-- HOME_APPLY (R106): the issue of entry c of the store buffer of group b of unit a -/
def execHomeApply (s : State) : Out :=
  match s.target with
  | none => .next s
  | some (_, g) =>
    match g.sbuf[s.arg.c]? with
    | none => .next s
    | some b =>
      if b.held.isNone && (g.together b.seq).all (s.mayApply s.arg.a s.arg.b g) then .next (s.applyIssue g.sbuf.length s.arg.a s.arg.b b.seq) else .next s

/-- No earlier pending store has a byte of entry j: each byte's coherence order is kept (R106); every sharer has acknowledged it (R107). -/
def State.mayCommit (s : State) (j : Nat) (p : PendStore) : Bool := p.unacked.isEmpty && !((s.pend.take j).any (fun q => q.keys.any p.keys.contains))

/-- STORE_COMMIT (R107): pending store a, of a segment that is not replicated -/
def execStoreCommit (s : State) : Out :=
  match s.pend[s.arg.a]? with
  | none => .next s
  | some p => if p.seqd.isSome || !(s.mayCommit s.arg.a p) then .next s else .next (s.commitAt s.arg.a)

/-- REPLICATED_UPDATE (R121): pending store a, the lowest number outstanding -/
def execReplicatedUpdate (s : State) : Out :=
  match s.pend[s.arg.a]? with
  | none => .next s
  | some p =>
    match p.seqd with
    | none => .next s
    | some n => if !p.unacked.isEmpty || s.pend.any (fun q => match q.seqd with | some m => decide (m < n) | none => false) then .next s else .next (s.commitAt s.arg.a)

/-- A line that a directory may give up: no vault's, which no directory holds (R75), and with no update on its way, which commits first (R328). -/
def State.mayEvict (s : State) (line : Nat) : Bool := (AMap.get? s.dir line).isSome && decide (128 * line < 2 ^ 52) && !(s.updating line)

/-- DIRECTORY_EVICTION (R318): of line a -/
def execDirectoryEviction (s : State) : Out := .next (if s.mayEvict s.arg.a then s.evictLine s.arg.a else s)

/-! Fences. -/

/-- What a fence waits for (R113): stores of its lanes before it, the group's pending stores, posted stores where its scope is domain or system, a free replay record (R336). -/
def State.fenceWaits (s : State) (uid grp : Nat) (g : Group) (f : Fence) : Bool :=
  g.sbuf.any (fun b => f.lanes.any b.of && b.held.isNone) || s.pend.any (fun p => p.uid == uid && p.grp == grp) ||
    (decide (6 ≤ f.scope) && s.postedOf uid grp f.lanes) || decide (256 ≤ s.replayUsed (((s.unit? uid).map (·.core)).getD 0))

/-- The lanes of a fence that a deferred fault meets at its completion (R124). -/
def Group.fenceFaults (g : Group) (f : Fence) : List (Nat × LFault) :=
  if 6 ≤ f.scope then f.lanes.filterMap (fun l => (g.lane l).defer.map (fun d => (l, deferFault d))) else []

/-- A fence completes for the lanes that take no deferred fault: a commit point and a region entry at its place in program order; their held stores are released, those of the others discarded (R113, R115). -/
def Group.fenceEnds (g : Group) (c : Nat) (f : Fence) : Group :=
  let bad (l : Nat) : Bool := (g.fenceFaults f).any (fun p => p.1 == l)
  let ok := f.lanes.filter (fun l => !(bad l))
  let g1 := { g with fences := g.fences.eraseIdx c,
                     sbuf := (g.sbuf.filter (fun (b : BufStore) => !(bad b.lane && b.held.isSome))).map (fun (b : BufStore) => if ok.contains b.lane then { b with held := none } else b) }
  g1.enterAt ok (f.pc + f.len) f.seq (fun l => match f.snaps.find? (fun k => k.lane == l) with | some k => k.dep | none => 0) none

/-- FENCE_COMPLETION (R113): fence c of group b of unit a -/
def execFenceCompletion (s : State) : Out :=
  match s.target with
  | none => .next s
  | some (u, g) =>
    match g.fences[s.arg.c]? with
    | none => .next s
    | some f =>
      if !f.hit.isEmpty || !u.stop.isEmpty || s.fenceWaits s.arg.a s.arg.b g f then .next s else
      let back (g : Group) : Group := g.setLanes ((g.fenceFaults f).map (·.1)) (fun _ x => { x with rpc := f.pc, rctr := f.ctr })
      .next (s.setUnit ((u.setGroup s.arg.b ((back g).fenceEnds s.arg.c f)).laneFaults s.cycle s.arg.b (some (f.pc, f.seq)) (g.fenceFaults f)))

/-- FENCE_ROLLBACK (R114): lane d of fence c of group b of unit a re-issues the FENCE -/
def execFenceRollback (s : State) : Out :=
  match s.target with
  | none => .next s
  | some (u, g) =>
    match g.fences[s.arg.c]? with
    | none => .next s
    | some f =>
      let l := s.arg.d
      if !(f.hit.contains l) || !u.stop.isEmpty || g.awaiting [l] then .next s else
      match f.snaps.find? (fun k => k.lane == l) with
      | none => .next s
      | some k => .next (s.onGroup s.arg.a s.arg.b (fun g =>
          let g1 := (List.range 8).foldl (fun (g : Group) n => if n = 0 then g else g.putBit n l (k.m.contains n)) g
          let f1 : Fence := { f with lanes := f.lanes.erase l, hit := f.hit.erase l, lines := f.lines.filter (fun p => p.1 != l), snaps := f.snaps.filter (fun x => x.lane != l) }
          { (g1.setLanes [l] (fun _ x => { x with st := .priv, pc := f.pc, dep := k.dep })) with
            v := k.v.foldl (fun m p => SMap.put 0 m p.1 p.2) (g.v.filter (fun p => p.1 / 64 != l)),
            ve := g.ve.filter (fun p => p.1 / 64 != l),
            thr := g.thr.filter (fun t => t.lane != l),
            blocked := (g.blocked.map (fun (b : Blocked) => { b with lanes := b.lanes.filter (· != l) })).filter (fun b => !b.lanes.isEmpty),
            sbuf := g.sbuf.filter (fun b => !(b.lane == l && b.held.isSome)),
            fences := if f1.lanes.isEmpty then g.fences.eraseIdx s.arg.c else g.fences.set s.arg.c f1 }))

/-! The Ovoft Link. -/

/-- A posted store has failed (R124). -/
def State.deferTo (s : State) (p : Posted) (reason : Nat) : State := s.onGroup p.uid p.grp (fun g => g.deferTo p reason)

/-- The oldest write to a peer of an engine command is acknowledged, or has failed (R118, R274). -/
def State.sendAnswered (s : State) (k : EngId) (num : Nat) (reason : Option Nat) : State :=
  match (s.engine k).cmds.find? (fun c => c.num == num && !c.done) with
  | none => s
  | some c =>
    match c.sent with
    | [] => s
    | e :: rest => if reason.isSome || s.routeDead e.1 then s.sendFails k c e else s.putCmd k { c with sent := rest }

/-- POSTED_STORE_ACKNOWLEDGEMENT (R122): of posted store a, and with it of every earlier one on its route; `arg.reason` where it failed. With `arg.flag`: of the oldest write to a peer of command a of the context `arg.eng` -/
def execPostedStoreAcknowledgement (s : State) : Out :=
  if s.arg.flag then .next (s.sendAnswered s.arg.eng s.arg.a s.arg.reason) else
  match s.posted[s.arg.a]? with
  | none => .next s
  | some p =>
    let s1 : State := { s with posted := (s.posted.take s.arg.a).filter (fun q => q.dev != p.dev) ++ s.posted.drop (s.arg.a + 1) }
    match if s.routeDead p.dev then some 0x0E else s.arg.reason with
    | none => .next s1
    | some r => .next (s1.deferTo p r)

/-- The flags of an addition at a peer that answered the old value. -/
def ProdKind.peerFlags (k : ProdKind) (p : Part) (old : Nat) : Nat :=
  match k with
  | .atomic op n sgn _ _ => (atomNew op n sgn old p.x.toNat p.e.toNat).2
  | _ => 0

/-- A producer's parts answered by their peer, each on its own (R123); the flags of a floating addition are the group's (R224). -/
def State.replied (s : State) (uid grp i : Nat) (pr : Producer) (answers : List PeerPart) : State :=
  let ps := pr.parts.zip answers
  let good := ps.filter (fun q => match q.2 with | .ok _ => true | .failed _ => false)
  s.onUnit uid (fun u =>
    let u1 := ps.foldl (fun (u : WorkUnit) q =>
      match q.2 with
      | .ok v => let bs := leBytes q.1.keys.length v; ((u.arriveTile pr.kind q.1 bs).outdates grp pr q.1).onGroup grp (fun g => (g.arrive pr.kind q.1 bs).raise (pr.kind.peerFlags q.1 (leNat bs)))
      | .failed _ => u) u
    (u1.onGroup grp (fun g => g.completes i pr (good.map (fun q => q.1.lane)))).partFaults s.cycle grp pr
      (ps.filterMap (fun q => match q.2 with
        | .ok _ => none
        | .failed r => some (q.1, ⟨0x0D, q.1.addr, pr.kind.writes, true, r, none, false⟩))))

/-- PEER_REPLY (R123): for producer c of group b of unit a, one answer for each lane; numbers past the producers' name the reads that words of the group wait for -/
def execPeerReply (s : State) : Out :=
  match s.target with
  | none => .next s
  | some (_, g) =>
    match g.inflight[s.arg.c]? with
    | none =>
      let i := s.arg.c - g.inflight.length
      (match g.peerRead[i]? with
      | none => .next s
      | some r =>
        if r.ans.isSome then .next s else
        .next (s.onGroup s.arg.a s.arg.b (fun g => { g with peerRead := g.peerRead.set i { r with ans := if s.routeDead r.dev then some (.failed 0x0E) else s.arg.parts.head? } })))
    | some pr =>
      let dead := pr.parts.any (fun p => match p.peer with | some d => s.routeDead d | none => false)
      let answers := if dead then pr.parts.map (fun _ => PeerPart.failed 0x0E) else s.arg.parts
      if !(pr.parts.all (fun p => p.peer.isSome)) || answers.length != pr.parts.length then .next s else
      .next (s.replied s.arg.a s.arg.b s.arg.c pr answers)

/-- The engine commands whose writes wait for a device fail at the first of them. -/
def State.sendsTimeOut (s : State) (dev : Nat) : State :=
  s.engines.foldl (fun (s : State) p =>
    let k : EngId := ⟨p.1 / 2 ^ 20, p.1 % 2 ^ 20 / 64, p.1 % 64⟩
    p.2.cmds.foldl (fun (s : State) c => match c.sent.find? (fun e => e.1 == dev) with | some e => if c.done then s else s.sendFails k c e | none => s) s) s

/-- ROUTE_TIMEOUT (R353): everything unacknowledged on the route of device a fails with reason 0x0E -/
def execRouteTimeout (s : State) : Out :=
  let dev := s.arg.a
  let s1 := (s.posted.filter (fun p => p.dev == dev)).foldl (fun (s : State) p => s.deferTo p 0x0E) { s with posted := s.posted.filter (fun p => p.dev != dev) }
  let waits (g : Group) : List (Nat × Producer) := (g.inflight.zipIdx.map (fun (q : Producer × Nat) => (q.2, q.1))).filter (fun (q : Nat × Producer) => q.2.parts.any (fun p => p.peer == some dev))
  .next ((s1.units.map (·.1)).foldl (fun (s : State) uid =>
    match s.unit? uid with
    | none => s
    | some u => (List.range u.groups.length).foldl (fun (s : State) i =>
        match (s.unit? uid).bind (·.group i) with
        | none => s
        | some g =>
          let s := s.onGroup uid i (fun g => { g with peerRead := g.peerRead.map (fun (r : PeerRead) => if r.dev == dev && r.ans.isNone then { r with ans := some (.failed 0x0E) } else r) })
          ((waits g).reverse).foldl (fun (s : State) q => s.replied uid i q.1 q.2 (q.2.parts.map (fun _ => PeerPart.failed 0x0E))) s) s) (s1.sendsTimeOut dev))

/-- The operation of an incoming atomic, by the order of its majors (R222 to R224): 8 compare and swap, 9 to 11 additions in f32, f64, bf16. -/
def peerOp (n : Nat) : AtomOp :=
  match n with
  | 0 => .add
  | 1 => .min
  | 2 => .max
  | 3 => .and
  | 4 => .or
  | 5 => .xor
  | 6 => .xchg
  | 8 => .cas
  | 9 => .fadd 0
  | 10 => .fadd 1
  | _ => .fadd 3

/-- The code an incoming access is rejected with, 0 where it may be performed (R353 step 3, R311, R314, R358); host memory is no partition's (log 64). -/
def State.peerCheck (s : State) (dev pa n : Nat) : Nat :=
  match s.routeIn dev with
  | none => 0x04
  | some part =>
    let d := pa / 2 ^ 40 % 2 ^ 12
    if !((granulesOf pa n).all (s.owns part)) then 0x04 else
    if !(s.tableUsable pa && s.tableUsable (pa + n - 1)) then 0x05 else
    if d < 4 ∧ (s.die d).state ≠ 1 then 0x0E else 0

/-- The bytes that an incoming access reaches: a join's are those of its cell. -/
def peerLen (q : PeerReq) : Nat := match q.kind with | .join lt => cellBytes lt | _ => q.len

/-- The instance that a peer's party stands in at a scope: every device is of one domain and one system (R103). -/
def peerInst (dev : Nat) (q : PeerReq) (scope : Nat) : Nat := if 6 ≤ scope then 0 else 2 ^ 80 * (dev + 1) + q.insts.getD scope 0

/-- The home's test of an incoming acquire or release against a line's record (R117). -/
def State.peerScopeOk (s : State) (dev : Nat) (q : PeerReq) (line : Nat) : Bool :=
  match s.scopeOf line with
  | none => true
  | some r => decide (r.scope ≤ q.scope) || peerInst dev q r.scope == r.inst

/-- What an incoming access does to memory, and the bytes it answers. -/
def State.peerDoes (s : State) (q : PeerReq) (keys : List Nat) : State × List Byte :=
  let n := keys.length
  let old := keys.map (Memory.read s.mem)
  match q.kind with
  | .load => (s, old)
  | .store => ((s.hitFences keys).expose 4 keys (q.data.take n), [])
  | .join lt => ((s.hitFences keys).joinCell 4 lt keys (leNat (q.data.take n)), [])
  | .atomic op size =>
    if !((peerOp op).writes (leNat old) (leNat ((q.data.drop n).take n))) then (s, old) else
    let r := atomNew (peerOp op) n (intTy size).sgn (leNat old) (leNat (q.data.take n)) (leNat ((q.data.drop n).take n))
    ((s.hitFences keys).expose 4 keys (leBytes n r.1), old)

/-- PEER_ACCESS (R353): the access `arg.req` of device a, of at most 256 bytes (R351), is checked, performed at its home with its ordering (R116, R117) and answered -/
def execPeerAccess (s : State) : Out :=
  match s.arg.req with
  | none => .next s
  | some q =>
    let n := peerLen q
    let dev := s.arg.a
    if 256 < n then .next s else
    match s.peerCheck dev q.pa n with
    | 0 =>
      let keys := upFrom q.pa n
      let recs := (linesOf keys).map (fun k => (k, if 128 * k < 2 ^ 42 then 128 * k / 2 ^ 40 else 4))
      if s.pend.any (fun p => p.keys.any keys.contains) then .next s else
      if q.scope != 0 && recs.any (fun r => !(s.peerScopeOk dev q r.1)) then .next { s with out := s.out ++ [.peerReply dev 0x07 []] } else
      let t := (if q.scope = 0 then s else recs.foldl (fun (s : State) r => s.setScope r q.scope (peerInst dev q q.scope)) s).peerDoes q keys
      .next { t.1 with out := t.1.out ++ [.peerReply dev 0 t.2] }
    | code => .next { s with out := s.out ++ [.peerReply dev code []] }

/-! The sluice (R304). -/

/-- The highest priority with a waiting request, and its head: within a priority leave is granted in FIFO order (R51, R304). -/
def Die.head (d : Die) : Option (Nat × SluiceReq) :=
  [3, 2, 1, 0].findSome? (fun p => (d.queues.getD p []).head?.map (fun r => (p, r)))

/-- The request leaves the head of its queue; where granted its demand is held. -/
def State.takeHead (s : State) (die prio : Nat) (r : SluiceReq) (granted : Bool) : State :=
  let d := s.die die
  s.setDie die { d with queues := d.queues.set prio ((d.queues.getD prio []).tail), held := if granted then d.held + r.demand else d.held,
                        granted := if granted then d.granted ++ [r] else d.granted }

/-- Leave granted to whoever waits at the head. -/
def State.grantTo (s : State) (die prio : Nat) (r : SluiceReq) : State :=
  let s1 := s.takeHead die prio r true
  match r.who with
  | .heavy uid op =>
    (match (s1.unit? uid).bind (fun u => (u.ops.find? (fun o => o.id == op)).map (fun o => (u, o))) with
    | none => s1.leaveEnds die r.who
    | some (u, o) => s1.giveLeave u o)
  | .command k num =>
    let x := s1.engine k
    s1.setEngine k { x with cmds := x.cmds.map (fun (c : Command) => if c.num = num then { c with demand := 0 } else c) }
  | .permit uid grp =>
    s1.onGroup uid grp (fun g =>
      match g.permitWait with
      | none => g
      | some (d, n, p) =>
        let g1 := { g with permit := some (n, p), permitWait := none }
        let back := g1.setLanes (g1.which (fun x => match x.st with | .parked .leave 0 _ => true | _ => false)) (fun _ x => match x.st with
          | .parked _ _ succ => { x with st := .subscribed, pc := succ }
          | _ => x)
        -- a permit asked for again after a restore (R342) writes no register: it names 64
        if d = 64 then g1 else { back.putS d (BitVec.ofNat 64 n) with bcast := match g1.lanes.findSome? (fun (x : Lane) => match x.st with | .parked .leave 0 succ => some succ | _ => none) with | some t => t | none => g1.bcast })

/-- A request larger than the budget is refused with 0x04 (R304). -/
def State.refuse (s : State) (die : Nat) (r : SluiceReq) : State :=
  let s1 := s.unask die r.who
  match r.who with
  | .heavy uid op =>
    s1.onUnit uid (fun u =>
      match u.ops.find? (fun o => o.id == op) with
      | none => u
      | some o =>
        let u1 := { u with ops := u.ops.filter (fun x => x.id != op), cvs := if (matrixLW o.instr).isSome then u.cvs.set o.cv { u.cvs.getD o.cv ⟨0, 0, 0, 0, []⟩ with sigs := [] } else u.cvs }
        let u2 := match (factorRegs o.instr).2 with
          | some d => if (matrixLW o.instr).isSome then u1 else u1.onGroup o.grp (fun (g : Group) => g.markAll (o.lanes.map (fun (p : Nat × Nat) => p.2)) (u.fa (factorRegs o.instr).1).f64 d false)
          | none => u1
        u2.faultLanes s.cycle o.lanes o.pc 0x04 0)
  | .command k num => s1.ctxFail k num 0x04 0 false
  | .permit uid grp =>
    s1.onUnit uid (fun u =>
      match u.group grp with
      | none => u
      | some g => (u.setGroup grp { g with permitWait := none }).faultLanes s.cycle (g.liveLanes.map (fun l => (grp, l))) g.bcast 0x04 0)

/-- SLUICE_GRANT (R304): the head of die a's highest priority -/
def execSluiceGrant (s : State) : Out :=
  let d := s.die s.arg.a
  match d.head with
  | none => .next s
  | some (p, r) =>
    if d.budget < r.demand then .next (s.refuse s.arg.a r) else
    if d.held + r.demand ≤ d.budget then .next (s.grantTo s.arg.a p r) else .next s

/-- SLUICE_PROMOTION (R304): the head of priority b of die a has been head for 65,536 die-local cycles -/
def execSluicePromotion (s : State) : Out :=
  let d := s.die s.arg.a
  match d.queues.getD s.arg.b [] with
  | [] => .next s
  | r :: rest =>
    if 3 ≤ s.arg.b then .next s else
    .next (s.setDie s.arg.a { d with queues := (d.queues.set s.arg.b rest).set (s.arg.b + 1) (d.queues.getD (s.arg.b + 1) [] ++ [r]) })

end Sys2Proof.Machine
end

