-- ==== Sys2Proof/Machine/Save.lean ====
section
/-! DEFINITION. Saving and restoring a unit: what a save completes first (R115, R336, R337), the image (R338 to R341), the check of an image (R333) and the restore (R342). -/

namespace Sys2Proof.Machine

/-! What a save completes. -/

/-- No operation of the unit waits for a peer. -/
def State.quiet (s : State) (u : WorkUnit) : Bool :=
  !(s.posted.any (fun p => p.uid == u.uid)) && !(u.groups.any (fun g => g.inflight.any (fun p => p.parts.any (fun x => x.peer.isSome))))

/-- Outstanding producers of a group delivered, oldest first; those of a peer stay. -/
def State.arriveGroup (s : State) (uid grp : Nat) : Nat → State
  | 0 => s
  | n + 1 =>
    match ((s.unit? uid).bind (·.group grp)).bind (fun g => g.inflight.zipIdx.find? (fun q => !(q.1.parts.any (fun x => x.peer.isSome)))) with
    | some q => State.arriveGroup (s.arriveAll uid grp q.2 q.1) uid grp n
    | none => s

/-- Heavy operations that have begun complete, oldest first. -/
def State.finishOps (s : State) (uid : Nat) : Nat → State
  | 0 => s
  | n + 1 =>
    match (s.unit? uid).bind (fun u => u.ops.findIdx? (·.begun)) with
    | some i => State.finishOps { (stateOf s (execMatrixOperationComplete { s with arg := { s.arg with a := uid, b := i } })) with arg := s.arg } uid n
    | none => s

/-- The operations of a unit that hold replay records, and everything a save awaits, are complete; its store buffers are performed (R336, R337). -/
def State.settle (s : State) (uid : Nat) : State :=
  match s.unit? uid with
  | none => s
  | some u =>
    let gs := List.range u.groups.length
    let s1 := gs.foldl (fun (s : State) i => s.arriveGroup uid i (match u.group i with | some g => g.inflight.length | none => 0)) (s.commitAll s.pend.length)
    gs.foldl (fun (s : State) i => s.drainGroup uid i) (s1.finishOps uid u.ops.length)

/-- Lanes past an incomplete fence resume at it (R115); in an exact save they stand at it again, with the registers it found (R114). -/
def Group.dropFences (g : Group) (exact : Bool) : Group :=
  let back (g : Group) (f : Fence) (l : Nat) : Group :=
    match f.snaps.find? (fun k => k.lane == l) with
    | none => g
    | some k =>
      let g1 := g.setLanes [l] (fun _ x => { x with rpc := f.pc, rctr := f.ctr, rdep := k.dep })
      if !exact then g1 else
      let g2 := (List.range 8).foldl (fun (g : Group) n => if n = 0 then g else g.putBit n l (k.m.contains n)) g1
      { (g2.setLanes [l] (fun _ x => { x with st := .priv, pc := f.pc, dep := k.dep })) with
        v := k.v.foldl (fun m p => SMap.put 0 m p.1 p.2) (g2.v.filter (fun p => p.1 / 64 != l)), ve := g2.ve.filter (fun p => p.1 / 64 != l),
        thr := g2.thr.filter (fun t => t.lane != l),
        blocked := (g2.blocked.map (fun (b : Blocked) => { b with lanes := b.lanes.filter (· != l) })).filter (fun b => !b.lanes.isEmpty) }
  { (g.fences.foldl (fun g f => f.lanes.foldl (fun g l => back g f l) g) g) with fences := [], sbuf := [] }

/-- A request of a unit leaves its die's sluice; a held permit goes back and is to be asked for again (R279, R342). -/
def State.returnLeave (s : State) (u : WorkUnit) : State :=
  let s1 := u.groups.foldl (fun (s : State) g => match g.permit with | some p => s.sluiceReturn u.die p.1 | none => s) s
  let d := s1.die u.die
  let mine (r : SluiceReq) : Bool := match r.who with
    | .heavy uid _ => uid == u.uid
    | .permit uid _ => uid == u.uid
    | .command _ _ => false
  let s2 := s1.setDie u.die { d with queues := d.queues.map (fun q => q.filter (fun r => !(mine r))) }
  -- leave given to an operation that has not begun is asked for again
  (u.ops.filter (fun o => !o.begun && o.leave && !o.perm)).foldl (fun (s : State) o => s.leaveEnds u.die (.heavy u.uid o.id)) s2

/-- The backing bits of a save: of the spilled registers that it could not fill, since no page backs their lines (R344). -/
def Group.unbacked (g : Group) (tlen : Nat) : SMap Bool :=
  (g.spilled.filter (fun p => g.noLine tlen (regOf p.1))).foldl (fun m p => SMap.put false m p.1 true) g.backing

/-- A group as an image holds it. -/
def Group.saved (g : Group) (tlen : Nat) (exact : Bool) : Group :=
  let g1 := g.dropFences exact
  { g1.noCode with permit := none, vOld := [], backing := g1.unbacked tlen, raised := false, passed := 0, peerRead := [], blocked := if exact then g1.blocked else [],
                   permitWait := match g1.permit with
                     | some p => some (64, p.1, p.2)
                     | none => if exact then g1.permitWait else none,
                   binds := g1.binds.map (fun (b : Binding) => { b with basin := [] }) }

/-- A unit as an image holds it; operations that wait for leave are to ask again (R244). -/
def WorkUnit.saved (u : WorkUnit) (exact : Bool) : WorkUnit :=
  { u with groups := u.groups.map (fun g => g.saved (recTlen u.record) exact), ops := u.ops.map (fun (o : HeavyOp) => if o.begun then o else { o with leave := false, perm := false }) }

/-! The image. -/

/-- A run of bytes of an image: offset, length, number. -/
structure Chunk8 where
  off : Nat
  n : Nat
  v : Nat
  deriving DecidableEq, Repr

def w8 (off v : Nat) : Chunk8 := ⟨off, 8, v⟩
def words8 (off : Nat) (vs : List Nat) : List Chunk8 := vs.zipIdx.map (fun p => w8 (off + 8 * p.2) p.1)

/-- The code of a park and its argument (R341). -/
def parkCode : Park → Nat
  | .thresholdLoad => 1
  | .bindingEntry => 2
  | .convergence => 3
  | .leave => 4
  | .fullEmpty => 5
  | .groupWord => 6
  | .barrier => 7
  | .timeline => 8
def parkArg (p : Park) (arg : Nat) : Nat :=
  match p with
  | .thresholdLoad => arg
  | .bindingEntry => arg
  | .fullEmpty => arg
  | .timeline => arg % 2 ^ 64
  | _ => 0

/-- The lane's state and park codes (R341). -/
def laneCode : LaneSt → Nat × Nat × Nat
  | .neverLaunched => (0, 0, 0)
  | .exited => (1, 0, 0)
  | .parked p arg _ => (2, parkCode p, parkArg p arg)
  | .subscribed => (3, 0, 0)
  | .priv => (4, 0, 0)

/-- A lane record (R341). -/
def laneChunks (off : Nat) (x : Lane) : List Chunk8 :=
  let c := laneCode x.st
  words8 off [x.pc, x.rpc, x.rctr, (if x.defer.isSome then 2 ^ 30 else 0) + x.rdep * 2 ^ 19 + x.dep * 2 ^ 8 + c.2.1 * 2 ^ 4 + c.1, c.2.2] ++
    (match x.defer with | some d => words8 (off + 0x28) [d.ctr, d.addr, d.reason] | none => [])

/-- A set of numbers below 64 as a word. -/
def maskNat (p : Nat → Bool) : Nat := (List.range 64).foldl (fun a n => if p n then a + 2 ^ n else a) 0

/-- A group section (R340). -/
def groupChunks (off : Nat) (g : Group) : List Chunk8 :=
  let G := g.lanes.length
  let ls := List.range G
  let c := g.cond
  words8 off [g.bcast, maskNat g.subscribed.contains, g.regc,
      g.sticky + (if c.eq then 2 ^ 8 else 0) + (if c.lt then 2 ^ 9 else 0) + (if c.ltn then 2 ^ 10 else 0) + (if c.emp then 2 ^ 11 else 0) + g.dq.length * 2 ^ 16] ++
    words8 (off + 0x20) (g.dq.map (·.toNat)) ++
    words8 (off + 0x100) ((upFrom 1 7).map (fun n => (g.getM n).toNat)) ++ words8 (off + 0x200) ((List.range 64).map (fun n => (g.getS n).toNat)) ++
    g.sp.map (fun p => w8 (off + 0x400 + 8 * p.1) p.2.toNat) ++
    g.binds.zipIdx.flatMap (fun p => words8 (off + 0x600 + 128 * p.2) (p.1.pat.map (·.toNat)) ++ words8 (off + 0x600 + 128 * p.2 + 0x40) [p.1.reg + 64, p.1.pos, g.resumePos p.1]) ++
    g.acqs.zipIdx.flatMap (fun p => words8 (off + 0xA00 + 32 * p.2) [p.1.addr, p.1.dest + (if p.1.consumer then 64 else 0) + 128, maskNat p.1.lanes.contains]) ++
    words8 (off + 0xB00) (ls.map (fun l => maskNat (fun n => !(g.emptyV l n)))) ++
    words8 (off + 0xD00) (ls.map (fun l => maskNat (fun n => SMap.get false g.backing (64 * l + n)))) ++
    words8 (off + 0xF00) [maskNat (fun n => !(g.emptyS n)), maskNat (fun n => SMap.get false g.backing (4096 + n))] ++
    ls.flatMap (fun l => laneChunks (off + 0x1000 + 64 * l) (g.lane l)) ++
    ls.flatMap (fun l => let n := max (g.lane l).dep (g.lane l).rdep
      words8 (off + 0x2000 + 128 * l) ((List.range (min 16 n)).map (fun i => ((AMap.get? g.stack (1024 * l + (n - 1 - i))).getD 0).toNat))) ++
    g.v.map (fun p => ⟨off + 0x4000 + 4 * p.1, 4, p.2.toNat⟩)

/-- The records of a stop in ascending group and then lane order (R332). -/
def recordOrder (rs : List FaultRec) : List FaultRec :=
  (List.range 16).flatMap (fun g => (List.range 64).flatMap (fun l => rs.filter (fun r => r.grp == g && r.lane == l)))

/-- The first code of a stop. -/
def WorkUnit.firstCode (u : WorkUnit) : Nat := ((recordOrder u.stop).head?.map (·.code)).getD 0

/-- A fault record (R329). -/
def WorkUnit.recordChunks (u : WorkUnit) (off : Nat) (r : FaultRec) : List Chunk8 :=
  let bcast := match u.group r.grp with | some g => g.bcast | none => 0
  let subs := match u.group r.grp with | some g => maskNat g.subscribed.contains | none => 0
  words8 off [r.code * 2 ^ 56 + r.lane * 2 ^ 50 + (if r.ss then 2 ^ 49 else 0) + (if r.rmt then 2 ^ 48 else 0) + r.reason * 2 ^ 40 + r.pc % 2 ^ 40,
    r.regc % 2 ^ 24 * 2 ^ 40 + bcast % 2 ^ 40, subs, r.addr]

/-- The permit that the restore asks for again: amount and priority (R339). -/
def WorkUnit.savedPermit (u : WorkUnit) : Nat × Nat :=
  (u.groups.findSome? (fun g => match g.permitWait with | some (64, n, p) => some (n, p) | _ => none)).getD (0, 0)

/-- The header (R339). -/
def WorkUnit.headerChunks (u : WorkUnit) (part kind nrec : Nat) : List Chunk8 :=
  let G := match u.groups with | g :: _ => g.lanes.length | [] => 8
  let gw := if G = 8 then 0 else if G = 16 then 1 else if G = 32 then 2 else 3
  let p := u.savedPermit
  words8 0 [2 ^ 56 + kind * 2 ^ 48 + gw * 2 ^ 46 + (u.groups.length - 1) * 2 ^ 42 + (if recMx u.record then 2 ^ 41 else 0) + recPanels u.record * 2 ^ 35 + nrec,
    u.idx, u.seq * 2 ^ 10 + u.mbx, recCtx u.record * 2 ^ 48 + part * 2 ^ 44 + u.core * 2 ^ 34, p.2 * 2 ^ 16 + p.1]

/-- The words of a matrix operation that waits for leave (R338). -/
def opChunks (off : Nat) (o : HeavyOp) : List Chunk8 :=
  let w := match encode o.instr with | some (a, b) => a + b.getD 0 * 2 ^ 32 | none => 0
  words8 off [w, o.row.toNat, o.col.toNat, o.k.toNat]

/-- Everything of an image (R338) that may be other than zero. -/
def WorkUnit.chunks (u : WorkUnit) (part kind : Nat) : List Chunk8 :=
  let rs := (recordOrder u.stop).take 1024
  u.headerChunks part kind rs.length ++
    ((u.ops.filter (fun o => !o.begun && !o.light && (matrixLW o.instr).isSome)).take 16).zipIdx.flatMap (fun p => opChunks (0x100 + 32 * p.2) p.1) ++
    u.cvs.zipIdx.flatMap (fun p => words8 (0x300 + 160 * p.2) ([p.1.mask, if p.1.sigs.isEmpty then 0 else p.1.pc] ++
      (List.range 16).map (fun g => maskNat (fun l => p.1.sigs.contains (g, l))))) ++
    u.bars.zipIdx.flatMap (fun p => words8 (0xD00 + 136 * p.2) (p.1.phase :: (List.range 16).map (fun g => maskNat (fun l => p.1.arrived.contains (g, l))))) ++
    (if recMx u.record then words8 0x1140 (u.ym.map (·.toNat) ++ u.xm.map (·.toNat)) else []) ++
    u.panels.zipIdx.flatMap (fun p => words8 (0x1180 + 16 * p.2) [p.1.desc.toNat, p.1.mode + (if p.1.loaded then 4 else 0)]) ++
    rs.zipIdx.flatMap (fun p => u.recordChunks (0x2000 + 32 * p.2) p.1) ++
    u.fas.zipIdx.flatMap (fun p => if p.1.n = 0 then [] else (faImage p.1).zipIdx.map (fun q => ⟨0xA000 + 8448 * p.2 + q.2, 1, q.1.toNat⟩)) ++
    u.tiles.map (fun p => ⟨0x14000 + 4 * p.1, 4, p.2.toNat⟩) ++
    u.panels.zipIdx.flatMap (fun p => p.1.bytes.map (fun q => ⟨0x34000 + 8192 * p.2 + q.1, 1, q.2.toNat⟩)) ++
    u.groups.zipIdx.flatMap (fun p => groupChunks (0x74000 + 0x8000 * p.2) p.1)

/-- The image's bytes by offset. -/
def WorkUnit.imageBytes (u : WorkUnit) (part kind : Nat) : SMap Byte :=
  (u.chunks part kind).foldl (fun m c => Memory.writeAll m (upFrom c.off c.n) (leBytes c.n c.v)) []

/-- The bytes of a slot by offset. -/
def State.slotBytes (s : State) (addr : Nat) : SMap Byte := (s.mem.filter (fun p => decide (addr ≤ p.1 ∧ p.1 < addr + 2 ^ 20))).map (fun p => (p.1 - addr, p.2))

/-- An image is written into a slot; the rest of the slot reads as zero. -/
def State.writeImage (s : State) (addr : Nat) (m : SMap Byte) : State :=
  { s with mem := m.foldl (fun mem p => Memory.write mem (addr + p.1) p.2) (Memory.clear s.mem addr (2 ^ 20)), hostLines := unhost s.hostLines addr (2 ^ 20) }

/-- Return-stack entries below the sixteen newest are written to their places in segment 0x03 (R45, R340). -/
def State.spillStacks (s : State) (u : WorkUnit) : State :=
  { s with mem := (List.range u.groups.length).foldl (fun mem i => match u.group i with
      | none => mem
      | some g => g.stack.foldl (fun mem p =>
          let x := g.lane (p.1 / 1024)
          if p.1 % 1024 + 16 < max x.dep x.rdep then
            Memory.writeAll mem (upFrom (localKey u.uid i (p.1 / 1024) (recTlen u.record + 8 * (p.1 % 1024))) 8) (leBytes 8 p.2.toNat) else mem) mem) s.mem }

/-- The sixteen newest entries of each lane's return stack, as the image holds them: those not in hardware are read from their places (R45, R340). -/
def State.gatherStack (s : State) (u : WorkUnit) (i : Nat) (g : Group) : Group :=
  { g with stack := (List.range g.lanes.length).flatMap (fun l =>
      let n := max (g.lane l).dep (g.lane l).rdep
      (upFrom (n - 16) (min 16 n)).map (fun k => (1024 * l + k,
        (AMap.get? g.stack (1024 * l + k)).getD (BitVec.ofNat 64 (s.rd8 (localKey u.uid i l (recTlen u.record + 8 * k))))))) }
def State.gatherStacks (s : State) (u : WorkUnit) : WorkUnit := { u with groups := u.groups.zipIdx.map (fun p => s.gatherStack u p.2 p.1) }

/-- A settled unit is saved at a physical address: kind 1 resumes at resume points, kind 2 exactly. It leaves its core. -/
def State.saveUnit (s : State) (uid addr kind : Nat) : State :=
  match s.unit? uid with
  | none => s
  | some u =>
    let u0 := u.saved (kind == 2)
    let s1 := (s.returnLeave u).spillStacks u0
    let u1 := s1.gatherStacks u0
    let s2 := s1.writeImage addr (u1.imageBytes (s.partOf (recCtx u.record)) kind)
    s2.setUnit { u1 with res := .saved addr kind, runnable := false, threads := [], places := [], saver := none }

/-! Save slots (R332). -/

/-- The free slots of a partition's pool, ascending; a slot on a die under reset answers 0x0E and holds no image (R358, log 75). -/
def State.freeSlots (s : State) (part : Nat) : List Nat :=
  let r := SMap.get (0 : DWord) s.savepool part
  ((List.range (field r 0 16)).map (fun i => field r 20 32 * 2 ^ 20 + i * 2 ^ 20)).filter (fun a => !(s.slots.any (fun x => x.addr == a)) && s.reads a)
/-- The lowest free slot. -/
def State.freeSlot (s : State) (part : Nat) : Option Nat := (s.freeSlots part).head?

def State.slotOf (s : State) (uid : Nat) : Option Slot := s.slots.find? (fun x => x.uid == uid)
def State.freeUnitSlot (s : State) (uid : Nat) : State := { s with slots := s.slots.filter (fun x => x.uid != uid) }

/-! The check of an image (R333, R339 to R341). -/

/-- An offset that a routine may write, in a unit of the given width and group count: v and s registers, full/empty bits, masks; words of lane records are checked on their own. -/
def editable (G n off : Nat) : Bool :=
  let q := (off - 0x74000) % 0x8000
  decide (0x74000 ≤ off) && decide ((off - 0x74000) / 0x8000 < n) &&
    (decide (0x100 ≤ q ∧ q < 0x138) || decide (0x200 ≤ q ∧ q < 0x400) || decide (0xB00 ≤ q ∧ q < 0xB00 + 8 * G) || decide (0xF00 ≤ q ∧ q < 0xF08) ||
      decide (0x4000 ≤ q ∧ q < 0x4000 + 256 * G) || (decide (0x1000 ≤ q ∧ q < 0x1000 + 64 * G) && (decide (8 ≤ q % 64 ∧ q % 64 < 16) || decide (0x18 ≤ q % 64 ∧ q % 64 < 0x20))))

/-- The image at an address is the unit's as the device wrote it, but for the fields that a routine may write in one of kind 1, each within its range. -/
def State.imageOk (s : State) (u : WorkUnit) (addr kind : Nat) : Bool :=
  let G := match u.groups with | g :: _ => g.lanes.length | [] => 8
  let n := u.groups.length
  let keep (m : SMap Byte) : SMap Byte := m.filter (fun p => !(kind == 1 && editable G n p.1))
  keep (s.slotBytes addr) == keep (u.imageBytes (s.partOf (recCtx u.record)) kind) &&
    (List.range n).all (fun i => match u.group i with
      | none => true
      | some g =>
        (upFrom 1 7).all (fun k => decide (s.rd8 (addr + 0x74000 + 0x8000 * i + 0xF8 + 8 * k) < 2 ^ G)) &&
        (List.range G).all (fun l =>
          let a := addr + 0x74000 + 0x8000 * i + 0x1000 + 64 * l
          let x := g.lane l
          let w := s.rd8 (a + 0x18)
          let c := laneCode x.st
          decide (s.rd8 (a + 8) < 2 ^ 40) && decide (bits w 19 11 ≤ 1024) &&
            w - bits w 19 11 * 2 ^ 19 == (if x.defer.isSome then 2 ^ 30 else 0) + x.dep * 2 ^ 8 + c.2.1 * 2 ^ 4 + c.1))

/-- The registers that a restore cannot fill either. -/
def Group.unfillable (g : Group) (tlen : Nat) : SMap Bool := g.backing.filter (fun p => g.noLine tlen (regOf p.1))

/-- A group with the fields of an image that a routine may write. A register whose backing bit is set is filled from its spill line (R342); where no page backs that yet, it stays spilled with its bit set (R344). -/
def State.loadGroup (s : State) (base tlen : Nat) (g : Group) : Group :=
  let G := g.lanes.length
  let lost (k : Nat) : Bool := SMap.get false g.backing k
  let vs := (List.range (64 * G)).foldl (fun (m : SMap Word) k => if lost k then m else SMap.put 0 m k (BitVec.ofNat 32 (s.rd (base + 0x4000 + 4 * k) 4))) g.v
  let ve := (List.range (64 * G)).foldl (fun (m : SMap Bool) k => SMap.put false m k (!(bitAt (s.rd8 (base + 0xB00 + 8 * (k / 64))) (k % 64)))) g.ve
  let ss := (List.range 64).foldl (fun (m : SMap DWord) k => if lost (4096 + k) then m else SMap.put 0 m k (BitVec.ofNat 64 (s.rd8 (base + 0x200 + 8 * k)))) g.s
  let se := (List.range 64).foldl (fun (m : SMap Bool) k => SMap.put false m k (!(bitAt (s.rd8 (base + 0xF00)) k))) g.se
  let g1 := (upFrom 1 7).foldl (fun (g : Group) k => g.putM k (BitVec.ofNat 64 (s.rd8 (base + 0xF8 + 8 * k)))) { g with v := vs, ve := ve, s := ss, se := se, backing := g.unfillable tlen, spilled := g.unfillable tlen }
  g1.setLanes (List.range G) (fun l x => { x with rpc := s.rd8 (base + 0x1000 + 64 * l + 8), rdep := bits (s.rd8 (base + 0x1000 + 64 * l + 0x18)) 19 11 })

/-! The restore (R342). -/

/-- Live lanes stand at their resume points, unparked and private; each binding takes its resume position; a destination that a threshold load had marked is full again, since the load is executed again. -/
def Group.resume (g : Group) : Group :=
  let g1 := g.thr.foldl (fun (g : Group) t => let g := g.markV t.lane t.dest false; if cellBytes t.ltype = 8 then g.markV t.lane (t.dest + 1) false else g) { g with thr := [] }
  let g2 := { g1 with binds := g1.binds.map (fun (b : Binding) => { b with pos := g1.resumePos b }) }
  { g2 with blocked := [], lanes := g2.lanes.map (fun x => if x.st.live then { x with pc := x.rpc, dep := x.rdep, st := .priv } else x) }

/-- The waits of an exactly restored group made again, and those ended whose threshold is reached, or whose entry is bound or revoked (R51): threshold loads on the present die's replica, binding entries and timelines as they stand. -/
def State.rewait (s : State) (u : WorkUnit) (grp : Nat) (g : Group) : Group :=
  let again (g : Group) (t : ThrWait) : Group :=
    let a := match (g.lane t.lane).st with | .parked .thresholdLoad arg _ => arg | _ => 0
    match s.access u grp t.lane (memReq (ofBase a 0) (cellBytes t.ltype) (cellBytes t.ltype) true false false .cell) with
    | .ok acc => { g with thr := g.thr ++ [{ t with key := acc.keys.headD 0 }] }
    | .error _ =>
      let g1 := (if cellBytes t.ltype = 8 then g.markV t.lane (t.dest + 1) false else g).markV t.lane t.dest false
      g1.setLane t.lane { g1.lane t.lane with st := .priv }
  let g1 := g.thr.foldl again { g with thr := [] }
  let g2 := s.wakeThrGroup g1
  { g2 with lanes := g2.lanes.map (fun x => match x.st with
      | .parked .bindingEntry arg _ =>
        (match s.access u grp 0 (memReq (ofBase arg 0) 16 16 true false false .cells) with
        | .ok acc => if bits (s.rd8 (acc.keys.headD 0)) 62 2 = 1 then x else x.wake
        | .error _ => x.wake)
      | .parked .timeline arg _ =>
        (match (ctxOf u (arg / 2 ^ 64)).bind (fun k => waitOn (s.engine k) (arg % 2 ^ 64)) with
        | some (.fault _) => { x with st := .priv }
        | some _ => x.wake
        | none => x)
      | _ => x) }

/-- A request of a restored unit: refused at once where the budget has fallen below its demand (R304). -/
def State.askOrRefuse (s : State) (die prio : Nat) (who : Waiter) (demand : Nat) : State :=
  if (s.die die).budget < demand then s.refuse die { who := who, demand := demand } else s.ask die prio who demand

/-- Leave is asked for again: permits before any group issues, and the operations that waited for it (R244, R342; log 59). -/
def State.askAgain (s : State) (u : WorkUnit) : State :=
  let s1 := (List.range u.groups.length).foldl (fun (s : State) i => match (u.group i).bind (·.permitWait) with
    | some (_, n, p) => s.askOrRefuse u.die p (.permit u.uid i) n
    | none => s) s
  (u.ops.filter (fun o => !o.begun && !o.light)).foldl (fun (s : State) o => s.askOrRefuse u.die (match u.group o.grp with | some g => effPrio u g | none => 0) (.heavy u.uid o.id) (heavyDemand o.instr)) s1

/-- The fills that a restore could not make fault the lanes whose registers they are (R344). -/
def State.fillFaults (s : State) (uid : Nat) : State :=
  match s.unit? uid with
  | none => s
  | some u => u.groups.zipIdx.foldl (fun (s : State) p => p.1.backing.foldl (fun (s : State) r =>
      match s.unit? uid with
      | none => s
      | some v => s.moveFault v p.2 p.1 (regOf r.1) false) s) s

/-- A saved unit is restored on a core from the image at the address its residence names. DESIGN CHOICE (log 67): its bindings come back without a test of how many of the core's basins are taken. -/
def State.restore (s : State) (uid core : Nat) (threads : List Nat) (places : List (Nat × Nat)) : State :=
  match s.unit? uid with
  | none => s
  | some u =>
    match u.res with
    | .saved addr kind =>
      let gs := u.groups.zipIdx.map (fun p => s.loadGroup (addr + 0x74000 + 0x8000 * p.2) (recTlen u.record) p.1)
      let u1 : WorkUnit := { u with groups := gs, res := .resident, core := core, threads := threads, places := places, runnable := false, stop := [], stopAt := none }
      let u2 : WorkUnit := { u1 with groups := gs.zipIdx.map (fun p => if kind = 1 then p.1.resume else s.rewait u1 p.2 p.1) }
      let s1 := ((s.freeUnitSlot uid).setUnit u2).askAgain u2
      -- recorded acquires are asked for again in issue order
      State.fillFaults ((List.range gs.length).foldl (fun (s : State) i => match (s.unit? uid).bind (fun u => (u.group i).map (fun g => (u, g))) with
        | some (u, g) => let r := s.cbPoll g.acqs.length g; r.1.setUnit (u.setGroup i r.2)
        | none => s) s1) uid
    | _ => s

end Sys2Proof.Machine
end

