-- ==== Sys2Proof/Machine/Launch.lean ====
section
/-! DEFINITION. Launches (R291 to R297), barges and their placement (R298, R299), levelling (R302), the recovery queue scheduler (R300). -/

namespace Sys2Proof.Machine

/-- A group at its start (R24, R27, R48): n lanes launched at an address. -/
def Group.start (G n pc : Nat) : Group :=
  { bcast := pc,
    lanes := (List.range G).map (fun l => if l < n then { st := .subscribed, pc := pc, rpc := pc, rctr := 0, rdep := 0, dep := 0, defer := none } else Lane.blank),
    v := [], vOld := [], ve := [], s := [], se := [], m := [], regc := 0, sticky := 0, cond := ⟨false, false, false, false⟩, dq := [], sp := [], binds := [],
    acqs := [], stack := [], inflight := [], thr := [], sbuf := [], fences := [], permit := none, permitWait := none, spilled := [], backing := [],
    wrote := [], spAt := [], lastIssue := 0, raised := false }

/-- A unit at its start (R24, R46, R242, R256, R260). -/
def WorkUnit.start (uid mbx seq idx : Nat) (record : List DWord) (msgLen core : Nat) (groups : List Group) : WorkUnit :=
  { uid := uid, mbx := mbx, seq := seq, idx := idx, record := record, msgLen := msgLen, res := .waiting, core := core, runnable := false, groups := groups,
    cvs := List.replicate 16 ⟨2 ^ groups.length - 1, 0, 0, 0, []⟩, bars := List.replicate 8 ⟨0, []⟩, tiles := [], fas := List.replicate 4 ⟨0, false, []⟩,
    ym := List.replicate 4 0xFFFFFFFFFFFFFFFF, xm := List.replicate 4 0xFFFFFFFFFFFFFFFF,
    panels := List.replicate (recPanels record) ⟨false, 0, 0, []⟩, ops := [], nextOp := 0, stop := [], stopAt := none, status := 0, threads := [] }


/-- A launch record whose fields R291 allows. -/
def recordOk (r : List DWord) : Bool :=
  field (recWord r 1) 0 16 == 0 && field (recWord r 2) 48 16 == 0 && field (recWord r 3) 40 24 == 0 && field (recWord r 5) 7 20 == 0 && recWord r 14 == 0 && recWord r 15 == 0 &&
    recEntryOff r % 4 == 0 && decide (1 ≤ recGx r ∧ 1 ≤ recGy r ∧ 1 ≤ recGz r) && decide (recTlen r ≤ 16384 * 64) && decide (recScr r ≤ 256) && decide (recPanels r ≤ 32) &&
    (recMx r || recPanels r == 0) && decide (1 ≤ recLanes r ∧ recLanes r ≤ recG r) && (List.range 8).all (fun n => recTlk r n != 0 || recTlc r n == 0)

/-- The pacing die (R300). -/
def State.pacingDie (s : State) : Nat := ((List.range 4).find? (fun d => (s.die d).state == 1)).getD 0

/-- The home core of a launch: its mailbox's (R292); of a launch the recovery queue scheduler started, whose sequence numbers begin at 2^53, a core of the pacing die. -/
def State.homeCore (s : State) (mbx seq : Nat) : Nat :=
  let d := if seq < 2 ^ 53 then mbx / 256 else s.pacingDie
  d * 80 + mbx % 256 % max 1 (s.die d).cores

def State.core (s : State) (c : Nat) : Core := SMap.get Core.init s.cores c
def State.setCore (s : State) (c : Nat) (x : Core) : State := { s with cores := SMap.put Core.init s.cores c x }

/-- A unit waits in its mailbox for room in a queue (R298). -/
def State.keepPending (s : State) (u : WorkUnit) : State :=
  s.setMbx u.mbx { s.mbx u.mbx with pending := (s.mbx u.mbx).pending ++ [u.uid] }

/-- A barge enters a queue: at the head of its priority or at the tail (R298, R299). DESIGN CHOICE (log 70): one that finds 256 entries there stays pending in its unit's mailbox, as a new unit does. -/
def State.enqueue (s : State) (c : Nat) (b : Barge) (head : Bool) : State :=
  let x := s.core c
  if 256 ≤ x.queue.length then (match s.unit? b.uid with | some u => s.keepPending u | none => s)
  else s.setCore c { x with queue := if head then b :: x.queue else x.queue ++ [b] }

def WorkUnit.barge (u : WorkUnit) : Barge := { uid := u.uid, prio := recPrio u.record, pin := recPin u.record }

/-- Cores that hold units of a launch, ascending: resident, stopped or in service. -/
def State.coresOf (s : State) (l : Launch) : List Nat :=
  let us := (s.units.map (·.2)).filter (fun u => u.mbx == l.mbx && u.seq == l.seq && (u.res == .resident || u.res == .stopped || (!u.stop.isEmpty && u.res != .done)))
  (List.range 320).filter (fun c => us.any (fun u => u.core == c))

/-- The remaining cores of a launch: those that hold units of it and that no PREEMPT has vacated (R307). -/
def State.remaining (s : State) (l : Launch) : List Nat := (s.coresOf l).filter (fun c => !(l.vacated.contains c))

/-- The next remaining core of a launch, round robin, or the home core where none remains (R307, R345). -/
def State.nextCore (s : State) (l : Launch) : State × Nat :=
  match s.remaining l with
  | [] => (s, s.homeCore l.mbx l.seq)
  | cs => (s.setLaunch { l with turn := l.turn + 1 }, cs.getD (l.turn % cs.length) 0)

/-- Where the barge of a unit goes: the home core before the unit has started, then the core it last ran on (R298, R333), the home core also where ADMIT has retired that one (log 18); where PREEMPT has vacated it, the next remaining core of its launch (R307, R345; of a unit that has not started log 78). -/
def State.bargeCore (s : State) (u : WorkUnit) : State × Nat :=
  let c := if u.res == .waiting || !(s.coreExists u.core) then s.homeCore u.mbx u.seq else u.core
  match s.launchOf u.mbx u.seq with
  | none => (s, c)
  | some l => if l.vacated.contains c then s.nextCore l else (s, c)

/-- The barge of a unit goes to its core's queue: a runnable saved unit's at the head of its priority (R299). -/
def State.sendBarge (s : State) (u : WorkUnit) : State :=
  let t := s.bargeCore u
  t.1.enqueue t.2 u.barge u.runnable

/-- A mailbox holds a unit that waits for room in a core's queue. -/
def State.pendingFor (s : State) (c : Nat) : Bool :=
  s.mailboxes.any (fun p => p.2.pending.any (fun uid => ((s.unit? uid).map (fun u => (s.bargeCore u).2)) == some c))

/-- A unit that has not started enters the queue of its home core; it stays pending where there is no room, or where others are (R298). -/
def State.admitUnit (s : State) (u : WorkUnit) : State :=
  if s.pendingFor (s.bargeCore u).2 then s.keepPending u else s.sendBarge u

/-- The number of units of a launch. -/
def recUnits (r : List DWord) : Nat := recGx r * recGy r * recGz r

/-- One unit of a launch, with its launch record and message (R55, R291). -/
def State.addUnit (s : State) (mbx seq idx : Nat) (record : List DWord) (msg : List Byte) : State :=
  let u := WorkUnit.start s.nextUid mbx seq idx record msg.length (s.homeCore mbx seq) (List.replicate (recGroups record) (Group.start (recG record) (recLanes record) (recEntryOff record)))
  let bytes := record.flatMap (fun w => leBytes 8 w.toNat) ++ msg
  State.admitUnit { s with units := AMap.set s.units u.uid u, nextUid := s.nextUid + 1, mem := Memory.writeAll s.mem (upFrom (recordKey u.uid 0) bytes.length) bytes } u

/-- A launch starts with a message (R295); one whose graph is complete or cancelled starts nothing, and this is reported (R297). -/
def State.startLaunch (s : State) (mbx seq : Nat) (record : List DWord) (msg : List Byte) : State :=
  if !(s.levelRunning (recGraph record)) then s.report 297 mbx else
  let l : Launch := { mbx := mbx, seq := seq, record := record, left := recUnits record, status := 0, complete := false, vacated := [] }
  (List.range (recUnits record)).foldl (fun (s : State) i => s.addUnit mbx seq i record msg) { s with launches := s.launches ++ [l] }

/-- A record that is treated as free for a nonzero RZ bit is reported where it is named (R296). -/
def State.reportStray (s : State) (i : Nat) : State := if s.levelStray i then s.report 296 i else s

/-- A mailbox takes its oldest held firing (R295); where the bound record's graph is not running it starts nothing and is reported (R297). -/
def State.takeFiring (s : State) (m : Nat) : State :=
  let x := s.mbx m
  match x.held with
  | [] => s
  | (slot, len) :: rest =>
    let w := s.rd8 (s.mbxAddr m)
    let msg := (upFrom (s.rd8 (s.mbxAddr m + 16) + 256 * slot) len).map (Memory.read s.mem)
    let got := bits w 0 8 + 1
    let s1 := (s.setMbx m { x with held := rest }).setMbxField m 32 8 rest.length
    if !(s.levelRunning (recGraph x.record)) then (s1.reportStray (recGraph x.record)).report 297 m else
    if got < max 1 (bits w 40 8) then s1.setMbxField m 0 8 got else
    let s2 := (s1.setMbxField m 0 8 0).setMbx m { x with held := rest, seq := x.seq + 1 }
    s2.startLaunch m x.seq x.record msg

/-- Firings held at the IOD are delivered in arrival order while the mailbox serves and has room in its area. -/
def State.unpark (s : State) (m : Nat) : State :=
  (s.mbx m).parked.foldl (fun (s : State) msg =>
    if s.mbxState m == 1 && s.mbxServes m && decide ((s.mbx m).held.length < 64) then (s.setMbx m { s.mbx m with parked := (s.mbx m).parked.tail }).hold m msg else s) s

/-- MAILBOX_FIRING (R294, R295): of mailbox a; `arg.bytes` where it is not empty is the message of a qualifying write that arrives and is held if there is room -/
def execMailboxFiring (s : State) : Out :=
  let m := s.arg.a
  let s1 := if s.arg.bytes.isEmpty then s else if s.mbxRoom m then s.fire m (s.arg.bytes.take 256) else s
  if !(decide (m < 1024) && s1.mbxState m == 1) || field s1.qsched 0 1 == 1 || !(s1.mbxServes m) then .next s1 else .next (((s1.takeFiring m).unpark m).deliverKept)

/-! Placement. -/

/-- Units that hold resources of a core. -/
def State.residents (s : State) (c : Nat) : List WorkUnit := (s.units.map (·.2)).filter (fun u => u.core == c && (u.res == .resident || u.res == .stopped))

def WorkUnit.width (u : WorkUnit) : Nat := recG u.record

/-- The places taken in a core: slot, position, width of the group (R26 to R28). -/
def State.occupied (s : State) (c : Nat) : List (Nat × Nat × Nat) := (s.residents c).flatMap (fun v => v.places.map (fun p => (p.1, p.2, v.width)))

/-- A slot can take one more group of a width: sixteen at most, of one width (R27, R28). -/
def slotTakes (occ : List (Nat × Nat × Nat)) (w slot : Nat) : Bool :=
  let here := occ.filter (fun o => o.1 == slot)
  decide (here.length < 16) && here.all (fun o => o.2.2 == w)

/-- The position of a slot with the fewest groups, the lowest of them. -/
def emptiest (occ : List (Nat × Nat × Nat)) (w slot : Nat) : Nat :=
  let n (p : Nat) : Nat := (occ.filter (fun o => o.1 == slot && o.2.1 == p)).length
  (List.range (64 / w)).foldl (fun a p => if n p < n a then p else a) 0

/-- A place for one more group of a width. DESIGN CHOICE (log 71): a slot that holds groups of the width before an empty one, the lowest first; its emptiest position. -/
def placeFor (occ : List (Nat × Nat × Nat)) (w : Nat) : Option (Nat × Nat) :=
  let used := (List.range 4).filter (fun k => occ.any (fun o => o.1 == k))
  let free := (List.range 4).filter (fun k => !(used.contains k))
  ((used ++ free).find? (slotTakes occ w)).map (fun k => (k, emptiest occ w k))

/-- Places for a barge's groups in a core, nothing where it has not as many (R28, R298). -/
def State.placesFor (s : State) (c : Nat) (u : WorkUnit) : Option (List (Nat × Nat)) :=
  (List.range u.groups.length).foldl (fun (r : Option (List (Nat × Nat))) _ => r.bind (fun ps =>
    (placeFor (s.occupied c ++ ps.map (fun p => (p.1, p.2, u.width))) u.width).map (fun p => ps ++ [p]))) (some [])

/-- The engine contexts a record names (R362). -/
def WorkUnit.contexts (u : WorkUnit) (c : Nat) : List EngId :=
  (List.range 8).filterMap (fun n => let k := recTlk u.record n; if k = 0 then none else some ⟨k, if k = 3 then c / 80 else c, recTlc u.record n⟩)

/-- Every context the record names is free, or, for a collective context, held by the barge's own launch; a context that is still at work, or whose command is a member of a collective that is, is not free (R281, R298, R362). -/
def State.contextsFree (s : State) (c : Nat) (u : WorkUnit) : Bool :=
  (u.contexts c).all (fun k =>
    let holders := (s.units.map (·.2)).filter (fun v => (v.res == .resident || v.res == .stopped) && (v.contexts v.core).contains k)
    if k.kind = 3 then holders.all (fun v => v.mbx == u.mbx && v.seq == u.seq) && (!holders.isEmpty || u.res != .waiting ||
      (s.engine k).cmds.all (fun x => x.done && (s.members k.ctx (field x.f 0 32)).all (·.2.done)))
    else holders.isEmpty && (u.res != .waiting || (s.engine k).cmds.all (·.done)))

/-- A core could ever hold a barge's needs (R298, R302, R307, R322); a halted partition's start nowhere (R334). -/
def State.couldHold (s : State) (c : Nat) (u : WorkUnit) : Bool :=
  s.coreExists c && (s.die (c / 80)).state == 1 && !(s.halted.contains (s.partOf (recCtx u.record))) && s.owns (s.partOf (recCtx u.record)) c &&
    (!(recLv u.record) || decide (s.owner (0x180 + c) / 64 % 2 = 0)) && (match s.launchOf u.mbx u.seq with | some l => !(l.vacated.contains c) | none => true)

/-- A core can hold all of a barge's needs at once (R298). -/
def State.fits (s : State) (c : Nat) (u : WorkUnit) : Bool :=
  let rs := s.residents c
  let all := u :: rs
  s.couldHold c u && decide ((all.map (fun v => v.groups.length)).sum ≤ 64) &&
    (s.placesFor c u).isSome && decide ((all.map (fun v => recScr v.record)).sum ≤ 256) &&
    !(recMx u.record && rs.any (fun v => recMx v.record)) && decide ((all.map (fun v => recPanels v.record)).sum ≤ 32) && s.contextsFree c u &&
    !(recLv u.record && rs.any (fun v => recLv v.record && !(v.mbx == u.mbx && v.seq == u.seq))) &&
    (match u.res with | .saved addr _ => s.reads addr | _ => true)

/-- The lowest free tug threads of a core, one for each group. -/
def State.threadsFor (s : State) (c n : Nat) : List Nat := ((List.range 64).filter (fun t => !((s.residents c).any (fun v => v.threads.contains t)))).take n

/-- A barge that may be placed: a unit that has not started, or a runnable saved unit (R298). -/
def State.placeable (s : State) (b : Barge) : Bool :=
  match s.unit? b.uid with
  | some u => (match u.res with | .waiting => true | .saved _ _ => u.runnable | _ => false)
  | none => false

/-- The head barge of a queue: the oldest of the highest priority. -/
def State.headBarge (s : State) (c : Nat) : Option Barge :=
  let q := (s.core c).queue.filter s.placeable
  [3, 2, 1, 0].findSome? (fun p => q.find? (fun b => b.prio == p))

/-- A vault in local mode is zeroed for a launch other than the one it last served (R87). -/
def State.vaultFor (s : State) (c : Nat) (u : WorkUnit) : State :=
  if !(recLv u.record) then s else
  let x := s.core c
  if x.vaultLaunch = some (u.mbx, u.seq) then s else (s.zeroRange (vaultKey c 0) (2 ^ 22)).setCore c { x with vaultLaunch := some (u.mbx, u.seq) }

/-- Engine contexts start with a unit that starts, unless their launch holds them already or they are failed (R118, R274, R362). -/
def State.startContexts (s : State) (c : Nat) (u : WorkUnit) : State :=
  (u.contexts c).foldl (fun (s : State) k =>
    let held := (s.units.map (·.2)).any (fun v => v.uid != u.uid && (v.res == .resident || v.res == .stopped) && (v.contexts v.core).contains k)
    if held || (s.engine k).failed.isSome then s else s.setEngine k Engine.init) s

/-- Units pending in mailboxes enter their core's queue, in ascending index, as room appears (R298). -/
def State.admitPending (s : State) (c : Nat) : State :=
  s.mailboxes.foldl (fun (s : State) p =>
    p.2.pending.foldl (fun (s : State) uid =>
      match s.unit? uid with
      | none => s
      | some u => if (s.bargeCore u).2 = c ∧ (s.core c).queue.length < 256 then (s.dropPending uid).sendBarge u else s) s) s

/-- The message of a stop or an escalation (R332): the image's address, the first code, the cause, the record count. -/
def stopMsg (addr first cause nrec : Nat) : List Byte := leBytes 8 addr ++ leBytes 8 (first + cause * 2 ^ 8 + nrec * 2 ^ 16)

/-- A partition is halted: its units issue nothing more, and no unit of it is placed (R334; log 76). -/
def State.halt (s : State) (part : Nat) : State :=
  { s.report 334 part with halted := part :: s.halted.erase part, units := s.units.map (fun p => if s.partOf (recCtx p.2.record) = part then (p.1, { p.2 with stopAt := some (p.2.stopAt.getD s.cycle) }) else p) }

/-- The saved unit's image is handed to the supervisor mailbox with cause 1; a supervisor unit's halts its partition (R334). -/
def State.escalate (s : State) (u : WorkUnit) : State :=
  let part := s.partOf (recCtx u.record)
  if recSup u.record then s.halt part else
  match u.res with
  | .saved addr _ => s.toSupervisor part (stopMsg addr u.firstCode 1 u.stop.length)
  | _ => s

/-- A barge leaves its queue and its unit starts or is restored on the core; an image whose check fails goes to the supervisor mailbox (R333). -/
def State.placeBarge (s : State) (c : Nat) (u : WorkUnit) : State :=
  let s1 := s.dropBarges u.uid
  let ts := s1.threadsFor c u.groups.length
  let ps := (s1.placesFor c u).getD []
  let s2 := match u.res with
    | .saved addr kind => if s1.imageOk u addr kind then (s1.vaultFor c u).restore u.uid c ts ps else (s1.setUnit { u with runnable := false }).escalate u
    | _ =>
      let u1 : WorkUnit := { u with res := .resident, core := c, threads := ts, places := ps, groups := u.groups.map (fun (g : Group) => { g with lastIssue := s.cycle }) }
      ((s1.vaultFor c u).startContexts c u).setUnit u1
  s2.admitPending c

/-- BARGE_PLACEMENT (R298): core a places its head barge where it fits -/
def execBargePlacement (s : State) : Out :=
  match s.headBarge s.arg.a with
  | none => .next (s.admitPending s.arg.a)
  | some b =>
    match s.unit? b.uid with
    | none => .next s
    | some u => if s.fits s.arg.a u then .next (s.placeBarge s.arg.a u) else .next (s.admitPending s.arg.a)

/-- A park that lets a unit be saved (R299). -/
def LaneSt.long : LaneSt → Bool
  | .parked .thresholdLoad _ _ => true
  | .parked .barrier _ _ => true
  | .parked .bindingEntry _ _ => true
  | .parked .timeline _ _ => true
  | .parked .fullEmpty _ _ => true
  | _ => false

/-- A lane that has long been parked: no register that it waits for can be read, and none is bound to a stream, whose entries a save awaits (R299, R337). -/
def Group.idleLane (g : Group) (l : Nat) : Bool :=
  (g.lane l).st.long && !(g.due l) && (match (g.lane l).st with | .parked .fullEmpty _ r => !(g.binds.any (fun b => b.reg == r)) | _ => true)
/-- Every live lane of a unit is so parked. -/
def WorkUnit.idle (u : WorkUnit) : Bool := u.groups.all (fun g => g.liveLanes.all g.idleLane)

/-- IDLE_UNIT_SAVE (R299): unit a, whose live lanes have all been parked for 16,384 cycles, makes room for a head barge that does not fit -/
def execIdleUnitSave (s : State) : Out :=
  match s.unit? s.arg.a with
  | none => .next s
  | some u =>
    let idle := u.idle && u.groups.all (fun g => decide (g.lastIssue + 16384 ≤ s.cycle)) && decide ((s.core u.core).queue.length < 256)
    let wanted := match (s.headBarge u.core).bind (fun b => s.unit? b.uid) with | some v => !(s.fits u.core v) | none => false
    if u.res != .resident || u.stopAt.isSome || !idle || !wanted || !(s.quiet u) then .next s else
    match s.freeSlot (s.partOf (recCtx u.record)) with
    | none => .next s
    | some addr =>
      let s1 := s.settle u.uid
      -- a wake or a fault among what the save awaited: the unit is not saved (R241, R336)
      if !(((s1.unit? u.uid).map (fun v => v.stop.isEmpty)).getD false) || !(((s1.unit? u.uid).map (·.idle)).getD false) then .next s1 else
      let s2 := s1.saveUnit u.uid addr 2
      let s3 : State := { s2 with slots := s2.slots ++ [{ part := s.partOf (recCtx u.record), addr := addr, uid := u.uid, first := 0, nrec := 0 }] }
      .next (s3.enqueue u.core u.barge false)

/-- EFFECTIVE_PRIORITY_RAISE (R301): group b of unit a has not been chosen for 64 cycles -/
def execEffectivePriorityRaise (s : State) : Out :=
  match s.target with
  | none => .next s
  | some (u, g) =>
    if u.res != .resident || g.liveLanes.all (fun l => (g.lane l).st.isParked) || decide (g.passed < 64) then .next s
    else .next (s.onGroup s.arg.a s.arg.b (fun g => { g with raised := true }))

/-! Levelling (R302). -/

/-- A core's neighbours: its ring on the die; logical core 0 also those of the next dies in the ring of dies. -/
def State.neighbours (s : State) (c : Nat) : List Nat :=
  let d := c / 80
  let n := (s.die d).cores
  let i := c % 80
  let dies := s.presentDies
  let k := (dies.idxOf? d).getD 0
  let ring := [d * 80 + (i + n - 1) % max 1 n, d * 80 + (i + 1) % max 1 n]
  let across := if i = 0 then [dies.getD ((k + dies.length - 1) % max 1 dies.length) d * 80, dies.getD ((k + 1) % max 1 dies.length) d * 80] else []
  (ring ++ across).eraseDups.filter (fun x => x != c)

/-- Barges a core pushes to a neighbour: from the tail of its lowest priority first, none pinned, none the neighbour could never hold, none moved already. -/
def State.pushTo (s : State) (c n : Nat) (moved : List Nat) : State × List Nat :=
  let q := (s.core c).queue
  match ((s.core c).reported.find? (fun p => p.1 == n)).map (·.2) with
  | none => (s, moved)
  | some r =>
    if q.length ≤ r + 4 then (s, moved) else
    let may (b : Barge) : Bool := !b.pin && !(moved.contains b.uid) && (match s.unit? b.uid with | some u => s.couldHold n u | none => false)
    let order := [0, 1, 2, 3].flatMap (fun p => (q.filter (fun b => b.prio == p && may b)).reverse)
    let room := 256 - (s.core n).queue.length
    let gone := (order.take (min (min 32 ((q.length - r) / 2)) room)).map (·.uid)
    let s1 := s.setCore c { s.core c with queue := q.filter (fun b => !(gone.contains b.uid)) }
    (s1.setCore n { s1.core n with queue := (s1.core n).queue ++ q.filter (fun b => gone.contains b.uid) }, moved ++ gone)

/-- LEVELLING_EXCHANGE (R302): core a reports its depth to its neighbours and pushes barges to those that reported much less -/
def execLevellingExchange (s : State) : Out :=
  let c := s.arg.a
  if !(s.coreExists c) then .next s else
  let depth := (s.core c).queue.length
  let s1 := (s.neighbours c).foldl (fun (s : State) n => let x := s.core n; s.setCore n { x with reported := x.reported.filter (fun p => p.1 != c) ++ [(c, depth)] }) s
  let s2 := ((s.neighbours c).foldl (fun (r : State × List Nat) n => r.1.pushTo c n r.2) (s1, [])).1
  .next (s2.admitPending c)

/-! The recovery queue scheduler (R300). -/

/-- The queue descriptor in a list position. -/
def State.qdesc (s : State) (i : Nat) : Nat := (field s.qlist 0 52) + 8 + 32 * i
/-- Entries a queue holds. -/
def State.qlen (s : State) (i : Nat) : Nat :=
  let a := s.qdesc i
  let n := s.rd8 (a + 8)
  if n = 0 ∨ 65536 < n ∨ n % 2 ^ 17 ≠ n then 0 else (s.rd8 (a + 24) + 2 ^ 64 - s.rd8 (a + 16)) % 2 ^ 64
def State.qcount (s : State) : Nat := min 4096 (s.rd8 (field s.qlist 0 52))

/-- One entry of a queue starts a launch as a firing would; one whose record fails the checks, or answers with an error (R358), is skipped and reported; the head advances. -/
def State.qtake (s : State) (i : Nat) : State :=
  let a := s.qdesc i
  let e := s.rd8 a + 64 * (s.rd8 (a + 16) % max 1 (s.rd8 (a + 8)))
  let rec_ := s.rd8 e
  let s1 := s.wr8 (a + 16) ((s.rd8 (a + 16) + 1) % 2 ^ 64)
  let record : List DWord := (List.range 16).map (fun k => BitVec.ofNat 64 (s.rd8 (rec_ + 8 * k)))
  if rec_ % 128 ≠ 0 ∨ !(s.physUsable rec_) ∨ !(s.reads rec_) ∨ !(recordOk record) ∨ !(s.levelRunning (recGraph record)) then (if rec_ % 128 = 0 ∧ s.physUsable rec_ ∧ s.reads rec_ ∧ recordOk record then s1.reportStray (recGraph record) else s1).report 300 i else
  let m := i % 1024
  let seq := 2 ^ 53 + (s.launches.filter (fun l => l.mbx == m && decide (2 ^ 53 ≤ l.seq))).length
  s1.startLaunch m seq record ((upFrom (e + 8) 56).map (Memory.read s.mem))

/-- The next queue of the list after a position that is not empty and that no slot holds. -/
def State.qnext (s : State) (held : List (Option Nat)) (after : Option Nat) : Option Nat :=
  let n := s.qcount
  let start := match after with | some k => k + 1 | none => 0
  ((List.range n).map (fun j => (start + j) % max 1 n)).find? (fun i => decide (0 < s.qlen i) && !(held.contains (some i)))

/-- RECOVERY_QUANTUM (R300): each slot passes to its next queue; the entries of held queues start their launches -/
def execRecoveryQuantum (s : State) : Out :=
  if field s.qsched 0 1 = 0 then .next s else
  let slots := (List.range 64).foldl (fun (qs : List (Option Nat)) i =>
    let mine := qs.getD i none
    qs.set i (s.qnext (qs.set i none) mine)) s.qslots
  .next (slots.foldl (fun (s : State) q => match q with
    | none => s
    | some i => (List.range (min (s.qlen i) 65536)).foldl (fun (s : State) _ => s.qtake i) s) { s with qslots := slots })

end Sys2Proof.Machine
end

