-- ==== Sys2Proof/Machine/Registers.lean ====
section
/-! DEFINITION. The privileged registers (R290, R306, R310, R321, R323, R326, R331, R347, R348, R352), SYSRD and SYSWR (R280), and what the writes of ZS_QSCHED, ZS_FLIP and ZS_PARTAPPLY do. -/

namespace Sys2Proof.Machine

/-- What a system word comes to: complete in a state, with a value for an s register; a fault of its group; still waiting, in a state. -/
inductive SysEnd where
  | done (s : State) (w : Option (Nat × DWord))
  | fault (code : Nat)
  /-- a fault that leaves something in the state: a report -/
  | fail (s : State) (code : Nat)
  | wait (s : State)
  deriving DecidableEq, Repr

/-- A system word completes: its register is written and its group goes on, unless the word has taken the group's own unit from its core. -/
def Env.sysDone (e : Env) (s : State) (w : Option (Nat × DWord)) : Out :=
  match State.env? { s with cur := some e.c } with
  | none => .next s
  | some e1 =>
    if e1.u.res != .resident then .next s else
    match w with
    | some p => Env.groupNext { e1 with g := e1.g.putS p.1 p.2 }
    | none => e1.groupNext

/-- A system word (R170, R280): 0x16 outside a supervisor unit whatever its fields hold, then 0x15 for its fields, then it waits for its registers. A record of 0x16 names the instruction words (R330). -/
def sysWord (ok : Bool) (regs : List Nat) (k : Env → SysEnd) (s : State) : Out :=
  s.issue fun e =>
    if !(recSup e.u.record) then e.groupFault (lf 0x16 e.words false) else
    if !ok then e.groupIllegal else
    e.whenFull regs (match k e with
      | .done s1 w => e.sysDone s1 w
      | .fault code => e.groupFault (lf code (if code = 0x16 then e.words else 0) false)
      | .fail s1 code => Env.groupFault { e with s := s1 } (lf code 0 false)
      | .wait s1 => .next s1)

/-- The partition of the executing unit. -/
def Env.supPart (e : Env) : Nat := e.s.partOf (recCtx e.u.record)
/-- sA and sB of a group word. -/
def Env.sA (e : Env) (f : GW) : Nat := (e.g.getS f.a).toNat
def Env.sB (e : Env) (f : GW) : Nat := (e.g.getS f.b).toNat

/-! Reading. -/

/-- ZS_SLUICE of a die (R306). -/
def Die.sluiceReg (d : Die) : DWord := BitVec.ofNat 64 (d.held % 2 ^ 16 * 2 ^ 48 + (d.queues.map (·.length)).sum % 2 ^ 16 * 2 ^ 32 + d.budget % 2 ^ 16)

/-- ZS_QSCHED with the count of slots that hold a queue (R300). -/
def State.qschedReg (s : State) : DWord := BitVec.ofNat 64 (field s.qsched 24 40 * 2 ^ 24 + (s.qslots.filter (·.isSome)).length * 2 ^ 16 + field s.qsched 0 16)

/-- ZS_PKGBUDGET (R290). -/
def pkgBudget : Nat := 24000

/-- The value of a privileged register as a unit of a partition reads it; nothing where the number names none. What ZS_PARTAPPLY reads as is not stated: a free value (log 3). -/
def State.sysRead (s : State) (part n : Nat) : Option DWord :=
  let ctx := s.ctxsel.toNat % 2 ^ 16
  if 0x110 ≤ n ∧ n < 0x114 then some (s.die (n - 0x110)).sluiceReg else
  if 0x130 ≤ n ∧ n < 0x134 then some (s.die (n - 0x130)).cap else
  if 0x158 ≤ n ∧ n < 0x168 then some (SMap.get 0 s.inwin (n - 0x158)) else
  match n with
  | 0x00F => some s.ctxsel
  | 0x010 => some (SMap.get 0 s.segbase ctx)
  | 0x011 => some (SMap.get 0 s.bindtab ctx)
  | 0x012 => some (SMap.get 0 s.namerules ctx)
  | 0x013 => some (SMap.get 0 s.ctxpart ctx)
  | 0x100 => some s.mbxtab
  | 0x101 => some s.lvltab
  | 0x102 => some s.qschedReg
  | 0x103 => some s.qlist
  | 0x104 => some s.jobexp
  | 0x105 => some s.partexp
  | 0x114 => some (BitVec.ofNat 64 pkgBudget)
  | 0x120 => some s.parttab
  | 0x121 => some (Config.freeWord s.freeCtr)
  | 0x122 => some s.flip
  | 0x134 => some s.capiod
  | 0x140 => some (SMap.get 0 s.svctab part)
  | 0x141 => some (SMap.get 0 s.svcmbx part)
  | 0x142 => some (SMap.get 0 s.savepool part)
  | 0x150 => some s.hostexp
  | 0x151 => some s.domexp
  | 0x152 => some s.domid
  | 0x153 => some s.dxtab
  | 0x154 => some s.routetab
  | _ => none

/-- The number names a register (R280). -/
def State.sysReg (s : State) (n : Nat) : Bool := (s.sysRead 0 n).isSome

/-- The 12-bit field (R280). -/
def GW.n12 (f : GW) : Nat := f.b * 64 + f.f6

/-- What SYSRD comes to. -/
def Env.sysrdEnd (f : GW) (e : Env) : SysEnd :=
  match e.s.sysRead e.supPart (GW.n12 f) with
  | some w => .done (if GW.n12 f = 0x121 then { e.s with freeCtr := e.s.freeCtr + 1 } else e.s) (some (f.d, w))
  | none => .fault 0x15

/-- SYSRD (R280) -/
def execSysrd (f : GW) (s : State) : Out :=
  sysWord (f.a == 0 && s.sysReg (GW.n12 f)) [f.d] (fun e => e.sysrdEnd f) s

/-! ZS_QSCHED (R300). -/

/-- A write of ZS_QSCHED; where it stops recovery scheduling no slot holds a queue any more. -/
def State.writeQsched (s : State) (v : DWord) : Except Nat State :=
  if field v 24 40 != 0 || field v 1 7 != 0 || decide (field v 8 8 < 8) || decide (20 < field v 8 8) then .error 0x04 else
  .ok { s with qsched := BitVec.ofNat 64 (field v 8 8 * 2 ^ 8 + field v 0 1), qslots := if field v 0 1 = 0 then List.replicate 64 none else s.qslots }

/-! ZS_FLIP (R321). -/

/-- The bytes that an update changes, in every replica of a replicated page (R121). -/
def State.reach (s : State) (repl : Bool) (keys : List Nat) : List Nat := if repl then keys.flatMap s.replicaKeys else keys

/-- An access that has begun reaches bytes [a, a + n): a buffered, pending or outstanding one. -/
def State.inFlight (s : State) (a n : Nat) : Bool :=
  let hit (k : Nat) : Bool := decide (a ≤ k ∧ k < a + n)
  s.pend.any (fun p => (s.reach p.repl p.keys).any hit) ||
    s.units.any (fun u => u.2.groups.any (fun g => g.sbuf.any (fun b => (s.reach b.repl b.keys).any hit) ||
      g.inflight.any (fun p => p.parts.any (fun x => x.peer.isNone && (s.reach (x.repl && p.commit) x.keys).any hit))))

/-- A run of keys in a canonical map set to true or back to false. -/
def fillRun (m : SMap Bool) (a n : Nat) (b : Bool) : SMap Bool :=
  m.filter (fun p => decide (p.1 < a)) ++ (if b then (upFrom a n).map (fun k => (k, true)) else []) ++ m.filter (fun p => decide (a + n ≤ p.1))

/-- The directory entries of lines are gone: the copies that cores hold, and the scope records, which a change of owner makes none (R116). -/
def State.dropLines (s : State) (a n : Nat) : State :=
  { s with dir := s.dir.filter (fun p => !(decide (a / 128 ≤ p.1 ∧ p.1 < (a + n) / 128))) }

def flipSize (c : Nat) : Nat := if c = 0 then 2 ^ 16 else if c = 1 then 2 ^ 21 else if c = 2 then 2 ^ 26 else if c = 3 then 2 ^ 31 else 2 ^ 36

/-- The checks of a write of ZS_FLIP by a unit of a partition: the page's address and size. -/
def State.flipCheck (s : State) (part : Nat) (v : DWord) : Option (Nat × Nat) :=
  let n := flipSize (field v 60 3)
  let pa := field v 16 36 * 2 ^ 16
  if decide (5 ≤ field v 60 3) || field v 52 8 != 0 || field v 0 16 != 0 || decide (4 * 2 ^ 40 ≤ pa) || !(s.physUsable pa) || pa % n != 0 || !((granulesOf pa n).all (s.owns part)) then none
  else some (pa, n)

/-- A page passes to the host: the copies of the device are invalidated, its frames are the host's. -/
def State.flipToHost (s : State) (part : Nat) (v : DWord) : SysEnd :=
  match s.flipCheck part v with
  | none => .fault 0x04
  | some (pa, n) =>
    if s.inFlight pa n then .wait s else
    .done { (s.dropLines pa n) with bias := fillRun s.bias (pa / 2 ^ 16) (n / 2 ^ 16) true, flip := v } none

/-- A page passes to the device: the host's copies are invalidated, its frames are the device's. -/
def State.flipToDevice (s : State) (part : Nat) (v : DWord) : SysEnd :=
  match s.flipCheck part v with
  | none => .fault 0x04
  | some (pa, n) =>
    if s.inFlight pa n then .wait s else
    .done { (s.dropLines pa n) with hostLines := s.hostLines.filter (fun p => !(decide (pa / 128 ≤ p.1 % 2 ^ 45 ∧ p.1 % 2 ^ 45 < (pa + n) / 128))), bias := fillRun s.bias (pa / 2 ^ 16) (n / 2 ^ 16) false, flip := v } none

/-! Parked threshold loads (R95). -/

/-- Threshold loads that satisfy a test are executed again. -/
def Group.reload (g : Group) (hit : ThrWait → Bool) : Group :=
  let g1 := (g.thr.filter hit).foldl (fun (g : Group) t =>
    let g := g.markV t.lane t.dest false
    let g := if cellBytes t.ltype = 8 then g.markV t.lane (t.dest + 1) false else g
    g.setLane t.lane { g.lane t.lane with st := .priv }) g
  { g1 with thr := g1.thr.filter (fun t => !(hit t)) }

/-- Lanes parked on threshold loads that satisfy a test execute them again, under the checks as they then stand (R95, R125); saved units with one are runnable. -/
def State.wakeParked (s : State) (hit : WorkUnit → ThrWait → Bool) : State :=
  let any (u : WorkUnit) : Bool := u.res != .done && u.groups.any (fun g => g.thr.any (hit u))
  let s1 : State := { s with units := s.units.map (fun p =>
    if p.2.res == .resident && any p.2 then (p.1, { p.2 with groups := p.2.groups.map (fun (g : Group) => g.reload (hit p.2)) }) else p) }
  ((s.units.filter (fun p => p.2.res != .resident && any p.2)).map (·.1)).foldl State.rouse s1

/-! ZS_PARTAPPLY (R323). -/

/-- Where a resource stands in the partition table: its array's offset and entries. -/
def partArray (kind : Nat) : Option (Nat × Nat) :=
  match kind with
  | 0 => some (0, 0x140)
  | 1 => some (0x140, 0x40)
  | 2 => some (0x180, 0x140)
  | 3 => some (0x400, 0x400)
  | 4 => some (0x800, 0x2000)
  | 5 => some (0x2800, 0x8000)
  | _ => none

/-- The physical bytes of a granule. -/
def granuleBase (kind idx : Nat) : Nat := if kind = 4 then idx / 2048 * 2 ^ 40 + idx % 2048 * 2 ^ 26 else 0x10 * 2 ^ 40 + idx * 2 ^ 26

/-- A translation lies in a granule; pages of replicated, lattice and interleaved segments lie at one offset of every die. -/
def TlbEntry.meets (t : TlbEntry) (a : Nat) : Bool :=
  let m := if a < 4 * 2 ^ 40 then 2 ^ 40 else 2 ^ 52
  let f := t.frame % m
  let b := a % m
  decide (t.frame < 4 * 2 ^ 40 ∨ 4 * 2 ^ 40 ≤ a) && decide (f < b + 2 ^ 26 ∧ b < f + t.size)

/-- A granule is emptied: no translation, no directory entry, every byte blank; a threshold load parked through a translation is translated again, as TLBINV has it (R323, R125). -/
def State.zeroGranule (s : State) (a : Nat) : State :=
  State.wakeParked { (s.zeroRange a (2 ^ 26)) with tlb := s.tlb.filter (fun t => !(t.meets a)) } (fun _ t => decide (a ≤ t.key ∧ t.key < a + 2 ^ 26))

/-- A resource is zeroed before its new owner takes it (R325). -/
def State.zeroResource (s : State) (kind idx : Nat) : State :=
  if kind = 2 then (s.zeroRange (vaultKey idx 0) (2 ^ 22)).setCore idx { s.core idx with vaultLaunch := none }
  else if kind = 4 ∨ kind = 5 then s.zeroGranule (granuleBase kind idx) else s

/-- A resource passes to the owner that the partition table gives it. -/
def State.partApply (s : State) (v : DWord) : SysEnd :=
  let kind := field v 60 4
  let idx := field v 0 16
  match partArray kind with
  | none => .fault 0x04
  | some (off, n) =>
    let b := s.rd (s.parttab.toNat % 2 ^ 52 + off + idx) 1
    let foreign := kind == 0 && (s.residents idx).any (fun u => decide (128 ≤ b) || s.partOf (recCtx u.record) != b % 16)
    if field v 16 44 != 0 || decide (n ≤ idx) || bits b 4 2 != 0 || (kind != 2 && bits b 6 1 != 0) || foreign || (kind == 3 && s.mbxState idx == 1) then .fault 0x04 else
    if (kind == 4 || kind == 5) && s.inFlight (granuleBase kind idx) (2 ^ 26) then .wait s else
    if kind == 2 && s.inFlight (vaultKey idx 0) (2 ^ 22) then .wait s else
    .done { (s.zeroResource kind idx) with own := SMap.put 0x80 s.own (off + idx) (BitVec.ofNat 8 b) } none

/-! Writing. -/

/-- A field rule as a write's outcome. -/
def okIf (c : Bool) (s : State) : SysEnd := if c then .done s none else .fault 0x04

/-- A valid route exists (R352). -/
def State.anyRoute (s : State) : Bool := (List.range 1024).any (fun j => (s.routeIn j).isSome)

/-- A write of a privileged register by a supervisor unit of a partition. -/
def State.sysWrite (s : State) (part n : Nat) (v : DWord) : SysEnd :=
  let ctx := s.ctxsel.toNat % 2 ^ 16
  if 0x110 ≤ n ∧ n ≤ 0x114 then .fault 0x04 else
  if 0x130 ≤ n ∧ n ≤ 0x134 then .fault 0x04 else
  if 0x158 ≤ n ∧ n < 0x168 then
    if part != 0 && part != n - 0x158 then .fault 0x16 else
    okIf (field v 1 23 == 0 && decide (0x100 ≤ field v 24 24)) { s with inwin := SMap.put 0 s.inwin (n - 0x158) v } else
  match n with
  | 0x00F => okIf (field v 16 48 == 0) { s with ctxsel := v }
  | 0x010 => .done { (if SMap.get 0 s.segbase ctx = v then s else s.noFerry (fun c _ => c == ctx)) with segbase := SMap.put 0 s.segbase ctx v } none
  | 0x011 => okIf (field v 40 24 == 0) { s with bindtab := SMap.put 0 s.bindtab ctx v }
  | 0x012 => okIf (field v 40 24 == 0) { s with namerules := SMap.put 0 s.namerules ctx v }
  | 0x013 => if part != 0 then .fault 0x16 else okIf (field v 4 60 == 0) { s with ctxpart := SMap.put 0 s.ctxpart ctx v }
  | 0x100 => okIf (field v 0 12 == 0) { s with mbxtab := v }
  | 0x101 => okIf (field v 0 12 == 0) { s with lvltab := v }
  | 0x102 => (match s.writeQsched v with | .ok s1 => .done s1 none | .error c => .fault c)
  | 0x103 => okIf (field v 0 6 == 0) { s with qlist := v }
  | 0x104 => .done { s with jobexp := v } none
  | 0x105 => .done { s with partexp := v } none
  | 0x120 => if part != 0 then .fault 0x16 else okIf (field v 0 12 == 0) { s with parttab := v }
  | 0x121 => if part != 0 then .fault 0x16 else s.partApply v
  | 0x122 => if part != 0 then .fault 0x16 else if field v 63 1 = 1 then s.flipToHost part v else s.flipToDevice part v
  | 0x140 => okIf (field v 52 12 == 0 && field v 0 8 == 0) { s with svctab := SMap.put 0 s.svctab part v }
  | 0x141 => okIf (field v 27 37 == 0) (State.deliverKept { s with svcmbx := SMap.put 0 s.svcmbx part v })
  | 0x142 => okIf (field v 52 12 == 0 && field v 16 4 == 0) { s with savepool := SMap.put 0 s.savepool part v }
  | 0x150 => .done { s with hostexp := v } none
  | 0x151 => .done { s with domexp := v } none
  | 0x152 => okIf (part == 0 && !(s.anyRoute) && field v 11 53 == 0) { s with domid := v }
  | 0x153 => okIf (field v 52 12 == 0 && field v 0 7 == 0) { s with dxtab := v }
  | 0x154 => okIf (field v 52 12 == 0 && field v 0 14 == 0) { s with routetab := v }
  | _ => .fault 0x15

/-- SYSWR (R280) -/
def execSyswr (f : GW) (s : State) : Out :=
  sysWord (f.d == 0 && s.sysReg (GW.n12 f)) [f.a] (fun e => e.s.sysWrite e.supPart (GW.n12 f) (e.g.getS f.a)) s

/-- A write as an event: nothing comes about where it faults. -/
def SysEnd.event (s : State) : SysEnd → Out
  | .done s1 _ => .next s1
  | .fault _ => .next s
  | .fail s1 _ => .next s1
  | .wait s1 => .next s1

/-- ZS_QSCHED (R300): the write of `arg.v` -/
def execZsQsched (s : State) : Out := match s.writeQsched s.arg.v with | .ok s1 => .next s1 | .error _ => .next s
/-- ZS_FLIP_TO_HOST (R321): the write of `arg.v`, direction 1, by partition a; any but partition 0 meets 0x16 (R310) -/
def execZsFlipToHost (s : State) : Out := if field s.arg.v 63 1 = 1 ∧ s.arg.a = 0 then (s.flipToHost s.arg.a s.arg.v).event s else .next s
/-- ZS_FLIP_TO_DEVICE (R321): the write of `arg.v`, direction 0, by partition a; any but partition 0 meets 0x16 (R310) -/
def execZsFlipToDevice (s : State) : Out := if field s.arg.v 63 1 = 0 ∧ s.arg.a = 0 then (s.flipToDevice s.arg.a s.arg.v).event s else .next s
/-- ZS_PARTAPPLY (R323): the write of `arg.v` by partition 0 -/
def execZsPartapply (s : State) : Out := if s.arg.a = 0 then (s.partApply s.arg.v).event s else .next s

end Sys2Proof.Machine
end

