-- ==== Sys2Proof/Machine/Linkage.lean ====
section
/-! DEFINITION. Linkage: entries of a context (R61, R62), rule sets and the search (R63, R64, R308), the binding table (R65), binding and rebinding (R66 to R68, R70), revocation (R69, R71), cancelling (R25), and the return of a saved unit (R333). -/

namespace Sys2Proof.Machine

/-! Saved units come back, units end. -/

/-- A saved unit's image becomes a runnable barge at the head of its priority (R333, R343). -/
def State.returnUnit (s : State) (u : WorkUnit) : State :=
  match u.res with
  | .saved _ _ => ((s.dropBarges u.uid).setUnit { u with runnable := true }).sendBarge { u with runnable := true }
  | _ => s

/-- A unit ends with a result in its status (R25, R297, R333): operations past a commit point complete, leave it waits for is asked for no longer, parked lanes that a cancel releases are recorded with 0x17 (R51, R228, R230). -/
def State.endUnit (s : State) (uid result : Nat) : State :=
  match (s.settle uid).unit? uid with
  | none => s
  | some u =>
    if u.res == .done then s else
    let freed (x : LaneSt) : Bool := match x with
      | .parked .thresholdLoad _ _ => true
      | .parked .bindingEntry _ _ => true
      | .parked .convergence _ _ => true
      | .parked .barrier _ _ => true
      | .parked .timeline _ _ => true
      | _ => false
    let recs : List FaultRec := (List.range u.groups.length).flatMap (fun i => match u.group i with
      | some g => (g.which (fun x => freed x.st)).map (fun l => { grp := i, lane := l, code := 0x17, ss := false, rmt := false, reason := 0, pc := (g.lane l).pc, regc := (g.lane l).rctr, addr := 0 })
      | none => [])
    let s1 := ((s.settle uid).returnLeave u).unitDone uid (result * 64 + u.flags % 32)
    s1.onUnit uid (fun u => { u with stop := recs, groups := u.groups.map (fun (g : Group) => { g with permit := none, permitWait := none, binds := [], acqs := [], fences := [], sbuf := [], thr := [], inflight := [] }) })

/-- A cancel (R25). -/
def State.cancelUnit (s : State) (uid : Nat) : State := s.endUnit uid 1

/-! The linkage entries of a context (R61). -/

/-- One unit for each linkage copy of a context. -/
def State.linkUnits (s : State) (ctx : Nat) : List WorkUnit :=
  ((s.units.map (·.2)).filter (fun u => recCtx u.record == ctx)).foldl (fun (us : List WorkUnit) u => if us.any (fun v => recLseg v.record == recLseg u.record) then us else us ++ [u]) []

/-- The number of entries of a linkage section of a given length: the greatest whose entries and name records fit. -/
def linkCount (len : Nat) : Nat :=
  let n := len / 144
  min 65536 (if (16 * n + 127) / 128 * 128 + 128 * n ≤ len then n else n - 1)

/-- The bytes of a unit's segment by a checked read at their homes: their keys, or the failed check. -/
def State.unitKeys (s : State) (u : WorkUnit) (a : Addr) (n align : Nat) : Except Bad (List Nat) :=
  match s.access u 0 0 { memReq a n align true false false .cells with atHome := true } with
  | .ok acc => .ok acc.keys
  | .error b => .error b

/-- The report of a walk that a harbourmaster's read has failed on (R314). -/
def Bad.note (b : Bad) (a : Addr) : List (Nat × Nat) := if b.report then [(314, addrNat a)] else []

/-- What a unit's checked bytes hold: those of a peer segment, which the harbourmaster reads over the Ovoft Link, are free values (log 3). -/
def State.unitBytes (s : State) (u : WorkUnit) (seg : Nat) (ks : List Nat) : List Byte :=
  match s.unitSeg u seg with
  | .ok g => if g.kind == .peer then ks.map (fun k => Config.freeByte (s.freeCtr + k)) else ks.map (Memory.read s.mem)
  | _ => ks.map (Memory.read s.mem)

/-- Entry i of a unit's linkage copy, or the check that its home fails. -/
def State.entryOf (s : State) (u : WorkUnit) (i : Nat) : Except Bad LinkEntry :=
  match s.access u 0 0 { memReq ⟨4, ((16 * i : Nat) : Int)⟩ 16 16 true false false .cells with atHome := true } with
  | .ok acc => .ok (acc.entry s)
  | .error b => .error b
def State.entryAt (s : State) (u : WorkUnit) (i : Nat) : Option LinkEntry := (s.entryOf u i).toOption

/-- The home slice's harbourmaster of an entry works, and reaches the entry (R73). -/
def State.serves (s : State) (e : LinkEntry) : Bool := (s.die e.die).state == 1 && (e.repl || s.reads e.key)

/-- A unit's linkage copy: its length. -/
def State.linkLen (s : State) (u : WorkUnit) : Nat := match s.unitSeg u 4 with | .ok g => g.len | _ => 0

/-- Every linkage entry of a context that can be reached, with a unit of its copy. -/
def State.entries (s : State) (ctx : Nat) : List (WorkUnit × LinkEntry) :=
  (s.linkUnits ctx).flatMap (fun u => (List.range (linkCount (s.linkLen u))).filterMap (fun i => (s.entryAt u i).map (fun e => (u, e))))

/-! Names and rules (R61, R63, R64). -/

/-- A name record's characters (R61). -/
def nameOf (bs : List Byte) : List Byte := (bs.drop 1).take (bs.headD 0).toNat

/-- The name of an entry of a unit's linkage copy, by its name index; where the record cannot be read, what is reported. -/
def State.entryName (s : State) (u : WorkUnit) (nidx : Nat) : Except (List (Nat × Nat)) (List Byte) :=
  let a : Addr := ⟨4, (((16 * linkCount (s.linkLen u) + 127) / 128 * 128 + 128 * nidx : Nat) : Int)⟩
  match s.unitKeys u a 128 1 with
  | .ok ks => .ok (nameOf (s.unitBytes u 4 ks))
  | .error b => .error (b.note a)

/-- The context's rule sets. -/
def State.rulesAddr (s : State) (ctx : Nat) : Nat := field (SMap.get (0 : DWord) s.namerules ctx) 0 40 * 4096

/-- A rule of a rule set (R63): valid, space, prefix; nothing where it is skipped, and whether that is reported. -/
structure NameRule where
  space : Nat
  pre : List Byte
  deriving DecidableEq, Repr

def State.nameRule (s : State) (ctx set i : Nat) : Option NameRule × Bool :=
  let a := s.rulesAddr ctx + 512 * set + 64 * i
  let b := s.rd a 1
  let n := s.rd (a + 1) 1
  if b < 128 then (none, false) else
  if 5 ≤ b % 8 ∨ b / 8 % 16 ≠ 0 ∨ 62 < n then (none, true) else
  (some ⟨b % 8, (upFrom (a + 2) n).map (Memory.read s.mem)⟩, false)

/-- What a search comes to. -/
inductive Found where
  /-- a fault of the harbourmaster during the search, or nothing that exports the name (R68) -/
  | none_
  /-- an existing segment with an offset -/
  | existing (addr : Nat)
  /-- a descriptor to instantiate at an offset: space, identifier, offset, words -/
  | inst (space xid off : Nat) (desc : List DWord)
  deriving DecidableEq, Repr

/-- A record of an export table that names an export (R308). -/
structure ExportRec where
  name : List Byte
  kind : Nat
  xid : Nat
  addr : Nat
  desc : List DWord
  deriving DecidableEq, Repr

/-- What an export is found as (R64). -/
def ExportRec.found (space : Nat) (x : ExportRec) : Found := if x.kind = 1 then .existing x.addr else .inst space x.xid (x.addr % 2 ^ 40) x.desc

/-- The record of an export table at an address (R308): nothing where it is free, or is skipped and reported. -/
def State.exportAt (s : State) (u : WorkUnit) (a : Addr) : Except Bad (Option ExportRec × List (Nat × Nat)) :=
  match s.unitKeys u a 192 1 with
  | .error b => .error b
  | .ok ks =>
    let bs := s.unitBytes u a.seg ks
    let num (o n : Nat) : Nat := leNat ((bs.drop o).take n)
    let w := num 128 8
    if bits w 48 14 != 0 || num 176 16 != 0 then .ok (none, [(308, addrNat a)]) else
    if bits w 62 2 = 0 ∨ bits w 62 2 = 3 then .ok (none, []) else
    .ok (some ⟨nameOf (bs.take 128), bits w 62 2, bits w 0 48, num 136 8, (List.range 4).map (fun j => BitVec.ofNat 64 (num (144 + 8 * j) 8))⟩, [])

/-- The records of an export table from record i on, ascending: what the first that decides comes to, nothing inside for a fault of a read; what is reported on the way. -/
def State.exportFrom {α : Type} (s : State) (u : WorkUnit) (base : Nat) (sel : ExportRec → Option α) : Nat → Nat → Option (Option α) × List (Nat × Nat)
  | 0, _ => (none, [])
  | n + 1, i =>
    let a := ofBase base ((64 + 192 * i : Nat) : Int)
    match s.exportAt u a with
    | .error b => (some none, b.note a)
    | .ok (x, r) =>
      match x.bind sel with
      | some f => (some (some f), r)
      | none => let t := s.exportFrom u base sel n (i + 1); (t.1, r ++ t.2)

/-- A search of the export table of the job, partition, host or domain space, in the binder's context. -/
def State.exportTable {α : Type} (s : State) (u : WorkUnit) (base : Nat) (sel : ExportRec → Option α) : Option (Option α) × List (Nat × Nat) :=
  match s.unitKeys u (ofBase base 0) 8 1 with
  | .error b => (some none, b.note (ofBase base 0))
  | .ok ks => s.exportFrom u base sel (min (2 ^ 20) (leNat (s.unitBytes u (ofBase base 0).seg ks))) 0

/-- The export identifier of an image's .segment (R282). -/
def ImgExport.xid (x : ImgExport) : Nat := x.load * 2 ^ 24 + x.place

/-- The address of the export table of a space (R290, R348). -/
def State.exportBase (s : State) (space : Nat) : Nat := (match space with | 1 => s.jobexp | 2 => s.partexp | 3 => s.hostexp | _ => s.domexp).toNat

/-- The exports of the image whose linkage copy a unit names: the one loaded last of those that have had the copy's number (R71, R282). -/
def State.imageOf (s : State) (u : WorkUnit) : List ImgExport :=
  let xs := s.imgExports.filter (fun x => x.ctx == recCtx u.record && x.lseg == recLseg u.record)
  xs.filter (fun x => x.load == (xs.map (·.load)).foldl max 0)

/-- One space's export of a name (R64, R282, R308, R348): the image space is that of the unit's own image. -/
def State.lookup (s : State) (u : WorkUnit) (space : Nat) (name : List Byte) : Option (Option Found) × List (Nat × Nat) :=
  if space = 0 then (((s.imageOf u).find? (fun x => x.name == name)).map (fun x => some (.inst 0 x.xid 0 x.desc)), [])
  else s.exportTable u (s.exportBase space) (fun x => if x.name = name then some (x.found space) else none)

/-- The search of R64 over a rule set's rules, and the reports it makes, one for each rule or record that is skipped. -/
def State.search (s : State) (u : WorkUnit) (set : Nat) (name : List Byte) : List Nat → Found × List (Nat × Nat)
  | [] => (.none_, [])
  | i :: rest =>
    match s.nameRule (recCtx u.record) set i with
    | (none, r) => let t := s.search u set name rest; (t.1, (if r then [(63, s.rulesAddr (recCtx u.record) + 512 * set + 64 * i)] else []) ++ t.2)
    | (some k, _) =>
      if name.take k.pre.length != k.pre then s.search u set name rest else
      match s.lookup u k.space name with
      | (some (some f), rs) => (f, rs)
      | (some none, rs) => (.none_, rs)
      | (none, rs) => let t := s.search u set name rest; (t.1, rs ++ t.2)

/-! The binding table (R65). -/

def State.bindRec (s : State) (ctx i : Nat) : Nat := field (SMap.get (0 : DWord) s.bindtab ctx) 0 40 * 4096 + 32 * i

/-- A record's state: 1 valid, 2 revoked, else free. -/
def State.bindState (s : State) (ctx i : Nat) : Nat :=
  let w := s.rd8 (s.bindRec ctx i)
  if bits w 51 11 != 0 || s.rd8 (s.bindRec ctx i + 24) != 0 then 0 else bits w 62 2 % 3

/-- Indices of records whose bytes are not all blank, ascending. -/
def State.bindUsed (s : State) (ctx : Nat) : List Nat :=
  let b := s.bindRec ctx 0
  ((s.mem.filter (fun p => decide (b ≤ p.1 ∧ p.1 < b + 32 * 0xFFFFFF))).map (fun p => (p.1 - b) / 32)).eraseDups

/-- A record that is treated as free for a nonzero RZ bit (R65). -/
def State.bindStray (s : State) (ctx i : Nat) : Bool := bits (s.rd8 (s.bindRec ctx i)) 51 11 != 0 || s.rd8 (s.bindRec ctx i + 24) != 0

/-- A search of the binding table reports every such record (R65). -/
def State.reportBindings (s : State) (ctx : Nat) : State := ((s.bindUsed ctx).filter (s.bindStray ctx)).foldl (fun (s : State) i => s.report 65 i) s
/-- Reports made in their order. -/
def State.reports (s : State) (rs : List (Nat × Nat)) : State := rs.foldl (fun (s : State) r => s.report r.1 r.2) s

/-- The binding table can be read: no record of it stands on a die under reset (R68). -/
def State.bindReads (s : State) (ctx : Nat) : Bool := s.reads (s.bindRec ctx 0) && (s.bindUsed ctx).all (fun i => s.reads (s.bindRec ctx i))

/-- The valid record of an export. -/
def State.bindFind (s : State) (ctx space xid : Nat) : Option Nat :=
  (s.bindUsed ctx).find? (fun i => s.bindState ctx i == 1 && s.rd8 (s.bindRec ctx i) % 2 ^ 51 == space * 2 ^ 48 + xid)

/-- The lowest free record. -/
def State.bindFree (s : State) (ctx : Nat) : Option Nat :=
  ((List.range ((s.bindUsed ctx).length + 1)).find? (fun i => s.bindState ctx i == 0)).filter (fun i => decide (i < 0xFFFFFF))

/-- The lowest segment number from n on in state invalid, over a count of numbers. -/
def State.segFree (s : State) (ctx : Nat) : Nat → Nat → Option Nat
  | 0, _ => none
  | k + 1, n => if s.descState ctx n = 0 then some n else s.segFree ctx k (n + 1)

/-- A descriptor is instantiated (R67 step 2): the lowest free segment number and a new record name each other; nothing where R68 names a cause. -/
def State.instantiate (s : State) (ctx space xid off : Nat) (desc : List DWord) : Option (State × Nat × Nat) :=
  if !(s.reads (s.descAddr ctx 0x100)) then none else
  match s.segFree ctx (s.lastSeg ctx + 1 - 0x100) 0x100, s.bindFree ctx with
  | some n, some i =>
    if !(s.reads (s.descAddr ctx n)) || !(s.reads (s.bindRec ctx i)) then none else
    let a := s.descAddr ctx n
    let w (j : Nat) : Nat := (desc.getD j 0).toNat
    let s1 := (((((s.noFerry (fun c k => c == ctx && k == n)).reattach (upFrom a 32)).wr8 a (w 0 % 2 ^ 62 + 2 ^ 62)).wr8 (a + 8) (w 1)).wr8 (a + 16) (w 2)).wr8 (a + 24) (w 3 / 2 ^ 24 * 2 ^ 24 + i)
    let r := s.bindRec ctx i
    some ((((s1.wr8 r (2 ^ 62 + space * 2 ^ 48 + xid)).wr8 (r + 8) (n * 2 ^ 40 + off)).wr8 (r + 16) 0).wr8 (r + 24) 0, i, n * 2 ^ 40 + off)
  | _, _ => none

/-! Binding. -/

/-- A lane of a unit is parked on the entry with the given key. -/
def State.atEntry (s : State) (ctx key : Nat) (u : WorkUnit) (x : Lane) : Bool :=
  match x.st with
  | .parked .bindingEntry arg _ => recCtx u.record == ctx && (s.entryAt u (arg % 2 ^ 40 / 16)).map (·.key) == some key
  | _ => false

/-- Lanes parked on an entry wake, all in one step; saved units with one are runnable (R51, R67, R73, R299). -/
def State.wakeEntry (s : State) (ctx key : Nat) : State :=
  let hit (u : WorkUnit) : Bool := u.res != .done && u.groups.any (fun g => g.lanes.any (s.atEntry ctx key u))
  let s1 : State := { s with units := s.units.map (fun p =>
    if p.2.res == .resident && hit p.2 then (p.1, { p.2 with groups := p.2.groups.map (fun (g : Group) => { g with lanes := g.lanes.map (fun x => if s.atEntry ctx key p.2 x then x.wake else x) }) }) else p) }
  ((s.units.filter (fun p => p.2.res != .resident && hit p.2)).map (·.1)).foldl State.rouse s1

/-- The snap (R67 step 3): word 1, then word 0 by a release store at package scope; the record counts it. -/
def State.snap (s : State) (e : LinkEntry) (addr : Nat) (rec_ : Option Nat) : State :=
  let w := s.rd8 e.key
  let s1 := (s.wrEntry e 8 addr).wrEntry e 0 (2 ^ 63 + (bits w 32 16 + 1) % 2 ^ 16 * 2 ^ 32 + w % 2 ^ 32)
  let s2 := s1.setScope e.line 5 0
  match rec_ with
  | some r => s2.wr8 (r + 16) ((s2.rd8 (r + 16) + 1) % 2 ^ 64)
  | none => s2

/-- What steps 1 to 4 of R67 come to: the state, whether the entry is bound, the rules reported so far for this binding. -/
structure Bound where
  s : State
  ok : Bool
  said : List (Nat × Nat)

/-- Steps 1 to 4 of R67 for an entry in state binding, with the reports that they make, a rule's once for each binding (R63); not bound where R68 leaves it so. DESIGN CHOICE (log 78): an export that names an existing segment gives that segment also where it is revoked. -/
def State.bind (s : State) (u : WorkUnit) (e : LinkEntry) (said : List (Nat × Nat)) : Bound :=
  let ctx := recCtx u.record
  let w := s.rd8 e.key
  match s.entryName u (bits w 0 24) with
  | .error rs => ⟨s.reports rs, false, said⟩
  | .ok name =>
    if !(s.reads (s.rulesAddr ctx + 512 * bits w 24 8)) then ⟨s, false, said⟩ else
    let f := s.search u (bits w 24 8) name (List.range 8)
    let s0 := s.reports (f.2.filter (fun r => !(said.contains r)))
    let said := said ++ f.2.filter (fun r => r.1 == 63 && !(said.contains r))
    match f.1 with
    | .none_ => ⟨s0, false, said⟩
    | .existing addr => ⟨(s0.snap e addr none).wakeEntry ctx e.key, true, said⟩
    | .inst space xid off desc =>
      if !(s0.bindReads ctx) then ⟨s0, false, said⟩ else
      let s1 := s0.reportBindings ctx
      match s1.bindFind ctx space xid with
      | some i => ⟨(s1.snap e (s1.rd8 (s1.bindRec ctx i + 8)) (some (s1.bindRec ctx i))).wakeEntry ctx e.key, true, said⟩
      | none =>
        match s1.instantiate ctx space xid off desc with
        | none => ⟨s1, false, said⟩
        | some (s2, i, addr) => ⟨(s2.snap e addr (some (s2.bindRec ctx i))).wakeEntry ctx e.key, true, said⟩

/-- The route of a stop (R332 step 3): 2 where any record's code has it, else 0, else 1; route 2 without a supervisor mailbox is 0. -/
def State.stopRoute (s : State) (part : Nat) (rs : List FaultRec) : Nat :=
  let routes := rs.map (fun r => s.route part r.code)
  let r := if routes.contains 2 then 2 else if routes.contains 0 then 0 else 1
  if r = 2 ∧ field (SMap.get (0 : DWord) s.svcmbx part) 26 1 = 0 then 0 else r

/-- The slice whose harbourmaster services an entry (R66, R324). -/
def State.entrySlice (s : State) (ctx : Nat) (e : LinkEntry) : Option Nat := s.sliceFor (s.partOf ctx) e.die (e.off / 128)

/-- The engine context whose failure a record repeats (R274). DEDUCED (log 78): the lowest counter of the unit whose context has failed with the record's code and address. -/
def State.failedCtx (s : State) (u : WorkUnit) (r : FaultRec) : Option EngId :=
  ((List.range 8).filterMap (ctxOf u)).find? (fun k => match (s.engine k).failed with
    | some (_, code, addr, ss) => code == r.code && addr == r.addr && ss == r.ss
    | none => false)

/-- The slice whose harbourmaster services a stop (R332, R324): for 0x01 the linkage entry's home slice, for the failure of an engine context that context's, else that of the image's first line, by its offset in its die's HBM. -/
def State.serviceSlice (s : State) (u : WorkUnit) (addr : Nat) : Option Nat :=
  let part := s.partOf (recCtx u.record)
  let image := s.sliceFor part (if addr < 4 * 2 ^ 40 then addr / 2 ^ 40 else u.die) (addr % 2 ^ 40 / 128)
  match recordOrder u.stop with
  | [] => image
  | r :: _ =>
    if r.code = 0x01 then
      (match s.unitSeg u 4 with
      | .ok g => s.sliceFor part (s.homeDie g (r.addr % 2 ^ 40)) (r.addr % 2 ^ 40 / 128)
      | _ => image)
    else match s.failedCtx u r with
    | some k => s.ctxSlice part k
    | none => image

/-- A harbourmaster holds a unit's image (R324, R332). -/
def State.harboured (s : State) (u : WorkUnit) : Bool :=
  match u.res with
  | .saved addr 1 => !u.runnable && !u.stop.isEmpty && (s.serviceSlice u addr).isSome
  | _ => false

/-- The harbourmaster holds a unit's image for nothing but bindings (R67, R70). -/
def State.boundOnly (s : State) (u : WorkUnit) : Bool :=
  s.harboured u && s.stopRoute (s.partOf (recCtx u.record)) u.stop == 1 && u.stop.all (fun r => r.code == 0x01 || r.code == 0x0F)

/-- A binder whose binding R68 leaves as it is: it is escalated, with its unit's image where that is saved. -/
def State.bindStuck (s : State) (i : Nat) (b : Binder) (u : WorkUnit) : State :=
  let s1 : State := { s with binders := s.binders.set i { b with escalated := true } }
  match u.res with
  | .saved _ _ => s1.escalate u
  | _ => s1.report 68 b.entry.key

/-- BINDER_RESOLUTION (R67): binder a resolves its entry; its saved unit returns once it waits for no other binding. What R68 names, and a die with no slice of the partition (R324), leave the entry in state binding and are escalated; while the entry's home die is under reset its harbourmaster does nothing (R73). -/
def execBinderResolution (s : State) : Out :=
  match s.binders[s.arg.a]? with
  | none => .next s
  | some b =>
    if b.escalated || !(s.serves b.entry) then .next s else
    match s.unit? b.uid with
    | none => .next s
    | some u =>
      -- the group is saved before the harbourmaster begins (R66)
      if u.res == .resident || u.res == .stopped then .next s else
      if (s.entrySlice b.ctx b.entry).isNone then .next (s.bindStuck s.arg.a b u) else
      let r := s.bind u b.entry b.said
      if !r.ok then .next (r.s.bindStuck s.arg.a { b with said := r.said } u) else
      let s2 : State := { r.s with binders := r.s.binders.eraseIdx s.arg.a }
      match s2.unit? b.uid with
      | none => .next s2
      | some v => if s2.boundOnly v && v.stop.all (fun r => r.code == 0x01) && !(s2.binders.any (fun x => x.uid == v.uid)) then .next (s2.returnUnit v) else .next s2

/-- BINDING_SEARCH_REPEAT (R68): the supervisor has removed the cause; the binder of entry b of context a goes on -/
def execBindingSearchRepeat (s : State) : Out :=
  .next { s with binders := s.binders.map (fun (x : Binder) => if x.ctx = s.arg.a ∧ x.entry.key = s.arg.b then { x with escalated := false } else x) }

/-- BINDING_ABANDON (R68): entry b of context a becomes revoked, its waiters wake, its binder is cancelled -/
def execBindingAbandon (s : State) : Out :=
  match s.binders.find? (fun x => x.ctx == s.arg.a && x.entry.key == s.arg.b && x.escalated) with
  | none => .next s
  | some b =>
    let s1 : State := { s with binders := s.binders.filter (fun x => !(x.ctx == b.ctx && x.entry.key == b.entry.key)) }
    .next ((((s1.entryState b.entry 3).wakeEntry b.ctx b.entry.key)).cancelUnit b.uid)

/-! Revocation (R69 to R71). -/

/-- No access of the context that has passed its checks is on its way, an engine's among them (R69, R125). -/
def State.ctxQuiet (s : State) (ctx : Nat) : Bool :=
  s.units.all (fun p => recCtx p.2.record != ctx ||
    (p.2.groups.all (fun g => g.sbuf.isEmpty && g.inflight.isEmpty && g.peerRead.isEmpty) && !(s.engines.any (fun x => x.2.cmds.any (fun c => c.uid == p.1 && !c.sent.isEmpty))) && !(s.pend.any (fun q => q.uid == p.1)) && !(s.posted.any (fun q => q.uid == p.1)))) &&
    !(s.pend.any (fun q => q.port.isSome))

/-- Lanes of a context parked on threshold loads of the segments that satisfy a test execute them again (R95, R125). -/
def State.wakeSegments (s : State) (ctx : Nat) (seg : Nat → Bool) : State := s.wakeParked (fun u t => recCtx u.record == ctx && seg t.seg)

/-- A descriptor's binding-table record, none for 0xFFFFFF. -/
def State.descBti (s : State) (ctx n : Nat) : Option Nat :=
  let i := bits (s.rd8 (s.descAddr ctx n + 24)) 0 24
  if i = 0xFFFFFF then none else some i

/-- A valid segment is revoked: its descriptor and its record. -/
def State.revoke (s : State) (ctx n : Nat) : State :=
  let a := s.descAddr ctx n
  let s1 := s.wr8 a (s.rd8 a % 2 ^ 62 + 2 ^ 63)
  let s2 := match s.descBti ctx n with
    | some i => s1.wr8 (s.bindRec ctx i) (s1.rd8 (s.bindRec ctx i) % 2 ^ 62 + 2 ^ 63)
    | none => s1
  s2.wakeSegments ctx (· == n)

/-- Every bound entry of a context that holds a segment is revoked (R69). -/
def State.revokeEntries (s : State) (ctx n : Nat) : State :=
  (s.entries ctx).foldl (fun (s : State) e => if bits (s.rd8 e.2.key) 62 2 = 2 ∧ s.rd8 (e.2.key + 8) / 2 ^ 40 = n then s.entryState e.2 3 else s) s

/-- An entry of a context cannot be reached: its home die is under reset (R66, R358), or its page is not mapped. -/
def State.entriesAway (s : State) (ctx : Nat) : Bool :=
  (s.linkUnits ctx).any (fun u => (List.range (linkCount (s.linkLen u))).any (fun i => (s.entryAt u i).isNone))

/-- What SEGREV comes to: it completes once every bound entry of the segment has been reached and revoked (R69). -/
def Env.segrevEnd (f : GW) (e : Env) : SysEnd :=
  let n := e.sA f % 2 ^ 24
  let ctx := e.sB f
  if 2 ^ 16 ≤ ctx then .fault 0x04 else
  match e.s.descState ctx n with
  | 0 => .fault 0x04
  | st =>
    let s1 := (if st = 1 then e.s.revoke ctx n else e.s).revokeEntries ctx n
    if s1.ctxQuiet ctx && !(s1.entriesAway ctx) then .done s1 none else .wait s1

/-- SEGREV (R69, R280) -/
def execSegrev (f : GW) (s : State) : Out :=
  sysWord (f.d == 0 && f.f6 == 0) [f.a, f.b] (fun e => e.segrevEnd f) s

/-- What BINDINV comes to. -/
def Env.bindinvEnd (f : GW) (e : Env) : SysEnd :=
  let n := e.sA f % 2 ^ 24
  let ctx := e.sB f
  if 2 ^ 16 ≤ ctx ∨ e.s.descState ctx n ≠ 2 then .fault 0x04 else
  let a := e.s.descAddr ctx n
  let at_ (c k : Nat) : Bool := c == ctx && k == n
  let s1 : State := { ((e.s.noFerry at_).noImage at_).wr8 a (e.s.rd8 a % 2 ^ 62) with tlb := e.s.tlb.filter (fun t => !(t.ctx == ctx && t.seg == n)) }
  .done (match e.s.descBti ctx n with
    | some i => s1.wr8 (s1.bindRec ctx i) (s1.rd8 (s1.bindRec ctx i) % 2 ^ 62)
    | none => s1) none

/-- BINDINV (R280, R71) -/
def execBindinv (f : GW) (s : State) : Out :=
  sysWord (f.d == 0 && f.f6 == 0) [f.a, f.b] (fun e => e.bindinvEnd f) s

/-- The segment numbers of the 0x0F records of one group. -/
def revokedSegs (rs : List FaultRec) : List (Nat × Nat) := ((rs.filter (fun r => r.code == 0x0F)).map (fun r => (r.grp, r.addr / 2 ^ 40 % 2 ^ 24))).eraseDups

/-- One more stop of a group that names a revoked number (R70), counted as the stop is delivered. -/
def State.countRevoked (s : State) (uid : Nat) (p : Nat × Nat) : State :=
  match s.revokedStops.find? (fun q => q.1 == uid && q.2.1 == p.1 && q.2.2.1 == p.2) with
  | some q => { s with revokedStops := s.revokedStops.map (fun x => if x = q then (uid, p.1, p.2, q.2.2.2 + 1) else x) }
  | none => { s with revokedStops := s.revokedStops ++ [(uid, p.1, p.2, 1)] }

/-- A saved stop takes its route (R332 step 3); the harbourmaster that it goes to counts its 0x0F stops (R70). -/
def State.routeStop (s : State) (u : WorkUnit) (addr : Nat) : State :=
  let part := s.partOf (recCtx u.record)
  let rs := recordOrder u.stop
  let msg := stopMsg addr u.firstCode 0 rs.length
  match s.stopRoute part rs with
  | 0 => s.endUnit u.uid 2
  | 1 => (match s.serviceSlice u addr with | some i => ((revokedSegs u.stop).foldl (fun (s : State) p => s.countRevoked u.uid p) s).toHarbour i msg | none => s.escalate u)
  | _ => s.toSupervisor part msg

/-- The name under which a space exports an identifier. DESIGN CHOICE (log 78): a record holds the space and the identifier alone, so the name is that of the first export of the space that instantiates the identifier; one that is gone or renumbered has none, and nothing is bound again. -/
def State.exportName (s : State) (u : WorkUnit) (space xid : Nat) : Option (List Byte) × List (Nat × Nat) :=
  if space = 0 then ((s.imgExports.find? (fun x => x.ctx == recCtx u.record && x.xid == xid)).map (·.name), []) else
  let t := s.exportTable u (s.exportBase space) (fun x => if x.kind = 2 ∧ x.xid = xid then some x.name else none)
  (t.1.bind id, t.2)

/-- The name of a revoked segment, through the binding-table record that its descriptor's bti names (R70); one that is free, or is treated as free and reported (R65), gives none. -/
def State.revokedName (s : State) (u : WorkUnit) (seg : Nat) : Option (List Byte) × List (Nat × Nat) :=
  let ctx := recCtx u.record
  match s.descBti ctx seg with
  | none => (none, [])
  | some i =>
    if s.bindStray ctx i then (none, [(65, i)]) else
    if s.bindState ctx i = 0 then (none, []) else
    let w := s.rd8 (s.bindRec ctx i)
    s.exportName u (bits w 48 3) (bits w 0 48)

/-- Every revoked entry of the name of a revoked segment is bound again; one that R68 leaves in state binding has the unit's group as its binder. -/
def State.rebind (s : State) (u : WorkUnit) (grp seg : Nat) : State :=
  let ctx := recCtx u.record
  let t := s.revokedName u seg
  match t.1 with
  | none => s.reports t.2
  | some name =>
  (s.entries ctx).foldl (fun (s : State) e =>
    let w := s.rd8 e.2.key
    if bits w 62 2 = 3 ∧ (s.entryName e.1 (bits w 0 24)).toOption = some name then
      let r := (s.entryState e.2 1).bind e.1 e.2 []
      if r.ok then r.s else { r.s with binders := r.s.binders ++ [{ ctx := ctx, entry := e.2, uid := u.uid, grp := grp, escalated := true, said := r.said }] }
    else s) (s.reports t.2)

/-- A stop has brought a count of its group's to 4 (R70). -/
def State.fourStops (s : State) (u : WorkUnit) (segs : List (Nat × Nat)) : Bool :=
  segs.any (fun p => s.revokedStops.any (fun q => q.1 == u.uid && q.2.1 == p.1 && q.2.2.1 == p.2 && decide (4 ≤ q.2.2.2)))

/-- REVOKED_SEGMENT_SERVICE (R70): for saved unit a -/
def execRevokedSegmentService (s : State) : Out :=
  match s.unit? s.arg.a with
  | none => .next s
  | some u =>
    let segs := revokedSegs u.stop
    if !(s.boundOnly u) || segs.isEmpty || s.binders.any (fun b => b.uid == u.uid) then .next s else
    if s.fourStops u segs then .next ((s.escalate u).cancelUnit u.uid) else
    let s2 := segs.foldl (fun (s : State) p => if s.descState (recCtx u.record) p.2 = 2 then s.rebind u p.1 p.2 else s) s
    match s2.unit? u.uid with
    | none => .next s2
    | some v => if s2.binders.any (fun b => b.uid == u.uid) then .next (s2.escalate v) else .next (s2.returnUnit v)

end Sys2Proof.Machine
end

