-- ==== Sys2Proof/Machine/Ferry.lean ====
section
/-! DEFINITION. The ferry: rounds of a lattice segment's exchange between dies (R97 to R100, R102) and with the devices of its exchange set (R101). -/

namespace Sys2Proof.Machine

/-! Pairings (R98). -/

/-- The least b with n ≤ 2^b, for n up to 1,024. -/
def log2up (n : Nat) : Nat := ((List.range 11).find? (fun b => decide (n ≤ 2 ^ b))).getD 10

/-- L: the rounds after which n replicas are equal; the butterfly of a number that is no power of two takes as many as the table's n = 3 (log 20). -/
def roundsFor (pair n : Nat) : Nat :=
  if n ≤ 1 then 1 else
  match pair with
  | 0 => n - 1
  | 1 => if 2 ^ log2up n = n then log2up n else 2 * log2up n - 1
  | _ => 1

/-- The positions that position p of n sends to as round j begins. -/
def sendsTo (pair n p j : Nat) : List Nat :=
  if n ≤ 1 then [] else
  match pair with
  | 0 => [(p + 1) % n]
  | 1 => (let q := p ^^^ 2 ^ (j % log2up n); if q < n then [q] else [])
  | _ => if p = 0 then [] else [0]

/-- The positions that position p of n receives from in round j. -/
def receivesFrom (pair n p j : Nat) : List Nat :=
  if n ≤ 1 then [] else
  match pair with
  | 0 => [(p + n - 1) % n]
  | 1 => (let q := p ^^^ 2 ^ (j % log2up n); if q < n then [q] else [])
  | _ => if p = 0 then upFrom 1 (n - 1) else [0]

/-! Replicas. -/

def Seg.chunkLen (g : Seg) : Nat := 2 ^ g.chunk
def Seg.chunkCount (g : Seg) : Nat := (g.len + g.chunkLen - 1) / g.chunkLen

/-- The key of a byte of a die's replica, nothing where no page maps it. -/
def State.latKey (s : State) (ctx die : Nat) (g : Seg) (off : Nat) : Option Nat :=
  if g.len ≤ off then none else
  match s.page none ctx die g off false with
  | .ok l => some (s.frameKey g l die off)
  | .error _ => none

/-- A chunk of a die's replica; cells that no page maps are bottom (R100, R289). -/
def State.chunkBytes (s : State) (ctx die : Nat) (g : Seg) (c : Nat) : List Byte :=
  let n := cellBytes g.ltype
  (upFrom (c * g.chunkLen) g.chunkLen).map (fun off => match s.latKey ctx die g off with | some k => Memory.read s.mem k | none => (leBytes n (latBottom g.ltype)).getD (off % n) 0)

/-- The replica, chunk by chunk. -/
def State.replica (s : State) (ctx die : Nat) (g : Seg) : List (List Byte) := (List.range g.chunkCount).map (s.chunkBytes ctx die g)

/-- A chunk in which every cell is bottom. -/
def Seg.bottomChunk (g : Seg) : List Byte := (List.replicate (g.chunkLen / cellBytes g.ltype) (leBytes (cellBytes g.ltype) (latBottom g.ltype))).flatten

/-- The chunks in which a cell has changed since a former replica was read, or since the segment's creation (R99). -/
def Seg.changed (g : Seg) (now : List (List Byte)) (since : Option (List (List Byte))) : List Nat :=
  (List.range g.chunkCount).filter (fun c => now.getD c [] != (match since with | some o => o.getD c [] | none => g.bottomChunk))

/-- Values joined into cells of a die's replica: bytes from an offset of the segment on (R97). -/
def State.joinBytes (s : State) (ctx die : Nat) (g : Seg) (off : Nat) (bytes : List Byte) : State :=
  let n := cellBytes g.ltype
  (List.range (bytes.length / n)).foldl (fun (s : State) i =>
    let keys := (upFrom (off + n * i) n).filterMap (s.latKey ctx die g)
    let v := leNat ((bytes.drop (n * i)).take n)
    if keys.length ≠ n ∨ latLe g.ltype v (leNat (keys.map (Memory.read s.mem))) then s else (s.joinCell die g.ltype keys v).hitFences keys) s

/-! Rounds. -/

/-- A lattice segment of a context's table. -/
def State.latTable (s : State) (ctx seg : Nat) : Option Seg :=
  match s.tableSeg ctx seg with
  | .ok g => if g.kind == .lattice then some g else none
  | _ => none

/-- A segment whose exchange begins rounds: lattice kind, in a context with a unit that has not completed (R97). -/
def State.latSeg (s : State) (ctx seg : Nat) : Option Seg :=
  if s.units.any (fun p => recCtx p.2.record == ctx && p.2.res != .done) then s.latTable ctx seg else none

def FerryDie.init : FerryDie := { round := 0, busy := false, sent := true, unacked := 0, awaits := [], catchup := [], snaps := [] }
def Ferry.init (ctx seg : Nat) : Ferry := { ctx := ctx, seg := seg, dies := List.replicate 4 FerryDie.init, domRound := 0, domCatchup := 0, domSnaps := [] }

def State.ferry (s : State) (ctx seg : Nat) : Ferry := (s.ferries.find? (fun f => f.ctx == ctx && f.seg == seg)).getD (Ferry.init ctx seg)
def State.setFerry (s : State) (f : Ferry) : State :=
  if s.ferries.any (fun x => x.ctx == f.ctx && x.seg == f.seg) then { s with ferries := s.ferries.map (fun x => if x.ctx == f.ctx && x.seg == f.seg then f else x) }
  else { s with ferries := s.ferries ++ [f] }
def Ferry.die (f : Ferry) (d : Nat) : FerryDie := f.dies.getD d FerryDie.init
def Ferry.setDie (f : Ferry) (d : Nat) (x : FerryDie) : Ferry := { f with dies := f.dies.set d x }

/-- The dies at positions, without those under warm reset (R102). -/
def State.serving (s : State) (ps : List Nat) : List Nat :=
  ((ps.filterMap (fun p => s.presentDies[p]?)).filter (fun d => (s.die d).state == 1))

/-- The dies at positions that take part in round j: serving, and not past it, as one is that has come back at a later number (R102). -/
def State.partners (s : State) (f : Ferry) (ps : List Nat) (j : Nat) : List Nat := (s.serving ps).filter (fun d => decide ((f.die d).round ≤ j))

/-- The position of a die. -/
def State.position (s : State) (d : Nat) : Nat := (s.presentDies.idxOf? d).getD 0

/-- A round that has nothing left to do completes. -/
def FerryDie.settle (x : FerryDie) : FerryDie :=
  if x.busy && x.sent && x.unacked == 0 && x.awaits.isEmpty then { x with busy := false, round := x.round + 1 } else x

/-- The sends of a die in its present round: the chunks that R99 selects, counted from creation in the first L rounds and in a catch-up (R102), closed by a last empty one, to each die given. -/
def State.sendChunks (s : State) (g : Seg) (f : Ferry) (d : Nat) (targets : List Nat) : State × FerryDie :=
  let x := f.die d
  let L := roundsFor g.pair s.presentDies.length
  let since : Option (List (List Byte)) := if decide (x.round < L) || x.catchup.any (fun r => decide (r ≤ x.round ∧ x.round < r + L)) then none else x.snaps[L]?
  let now := s.replica f.ctx d g
  let cs := g.changed now since
  let out (t : Nat) : List Chunk :=
    cs.map (fun c => { ctx := f.ctx, seg := f.seg, src := d, dst := t, round := x.round, num := c, bytes := now.getD c [], last := false }) ++
      [{ ctx := f.ctx, seg := f.seg, src := d, dst := t, round := x.round, num := 0, bytes := [], last := true }]
  ({ s with chunks := s.chunks ++ targets.flatMap out }, { x with sent := true, unacked := x.unacked + targets.length * (cs.length + 1) })

/-- Position 0 of gather-scatter sends its half once it has joined every gather (R98). -/
def State.scatter (s : State) (g : Seg) (f : Ferry) (d : Nat) : State :=
  let x := f.die d
  if !x.busy || x.sent || !x.awaits.isEmpty then s.setFerry (f.setDie d x.settle) else
  let r := s.sendChunks g f d (s.partners f (upFrom 1 (s.presentDies.length - 1)) x.round)
  r.1.setFerry (f.setDie d r.2.settle)

/-- What a busy die still expects of dies that have gone is given up, and the absence reported (R102). -/
def State.ferryWithout (s : State) (g : Seg) (f : Ferry) (d : Nat) (gone : Nat → Bool) : State :=
  let mine (c : Chunk) : Bool := c.ctx == f.ctx && c.seg == f.seg && ((c.src == d && gone c.dst) || (c.dst == d && gone c.src))
  let x := f.die d
  let lost := (s.chunks.filter (fun c => mine c && c.src == d)).length
  let s1 := { s with chunks := s.chunks.filter (fun c => !(mine c)) }
  let s2 := if x.awaits.any gone || decide (0 < lost) then s1.report 102 f.seg else s1
  s2.scatter g (f.setDie d { x with awaits := x.awaits.filter (fun t => !(gone t)), unacked := x.unacked - lost }) d

/-- FERRY_ROUND_START (R97): die c begins its next round of segment b of context a; a round in progress goes on without dies under reset -/
def execFerryRoundStart (s : State) : Out :=
  let d := s.arg.c
  match s.latSeg s.arg.a s.arg.b with
  | none => .next s
  | some g =>
    if (s.die d).state != 1 then .next s else
    let f := s.ferry s.arg.a s.arg.b
    let x := f.die d
    if x.busy then .next (s.ferryWithout g f d (fun t => (s.die t).state != 1)) else
    let n := s.presentDies.length
    let p := s.position d
    let hub := g.pair == 2 && p == 0 && decide (1 < n)
    let from_ := receivesFrom g.pair n p x.round
    let to_ := sendsTo g.pair n p x.round
    let x1 : FerryDie := { x with busy := true, sent := !hub, unacked := 0, awaits := s.partners f from_ x.round, catchup := x.catchup.filter (fun r => decide (x.round < r + roundsFor g.pair n)),
                                  snaps := (s.replica f.ctx d g :: x.snaps).take (roundsFor g.pair n + 1) }
    -- a partner under reset is reported
    let s0 := if (from_ ++ to_).all (fun q => match s.presentDies[q]? with | some e => (s.die e).state == 1 | none => true) then s else s.report 102 f.seg
    if hub then .next (s0.scatter g (f.setDie d x1) d) else
    let r := s0.sendChunks g (f.setDie d x1) d (s.partners f to_ x.round)
    .next (r.1.setFerry (f.setDie d r.2.settle))

/-- FERRY_CHUNK_RECEIVE (R97): chunk a in transit is joined into its receiver's replica; a closing chunk waits until the receiver has begun the round and the chunks before it have come -/
def execFerryChunkReceive (s : State) : Out :=
  match s.chunks[s.arg.a]? with
  | none => .next s
  | some c =>
    match s.latTable c.ctx c.seg with
    | none => .next { s with chunks := s.chunks.eraseIdx s.arg.a }
    | some g =>
      let f := s.ferry c.ctx c.seg
      let y := f.die c.dst
      if (s.die c.dst).state != 1 then .next s else
      let before := (s.chunks.take s.arg.a).any (fun k => k.ctx == c.ctx && k.seg == c.seg && k.src == c.src && k.dst == c.dst)
      if c.last && (before || !(y.busy && y.round == c.round && y.awaits.contains c.src)) then .next s else
      let s1 : State := State.joinBytes { s with chunks := s.chunks.eraseIdx s.arg.a } c.ctx c.dst g (c.num * g.chunkLen) c.bytes
      let x := f.die c.src
      let f1 := f.setDie c.src ({ x with unacked := x.unacked - 1 } : FerryDie).settle
      let y1 := f1.die c.dst
      let f2 := if c.last then f1.setDie c.dst { y1 with awaits := y1.awaits.erase c.src } else f1
      .next (s1.scatter g f2 c.dst)

/-- A die that is in the round in which another comes back takes it in as a partner (R102). -/
def State.joinRound (s : State) (g : Seg) (ctx d r0 e : Nat) : State :=
  let f := s.ferry ctx g.num
  let y := f.die e
  let n := s.presentDies.length
  if !y.busy || y.round != r0 then s else
  let takes (ps : List Nat) : Bool := ps.contains (s.position d)
  let y1 := if takes (receivesFrom g.pair n (s.position e) r0) then { y with awaits := y.awaits ++ [d] } else y
  if y1.sent && takes (sendsTo g.pair n (s.position e) r0) then (let r := s.sendChunks g (f.setDie e y1) e [d]; r.1.setFerry (f.setDie e r.2)) else s.setFerry (f.setDie e y1)

/-- A die that ADMIT has brought back takes the number of the round that the lowest-numbered other serving die begins next; what others still expect of it in earlier rounds is given up; for L rounds from that one every die counts changes from creation (R102). The package rounds that it has missed bring no domain round. -/
def State.ferryReturn (s : State) (d : Nat) : State :=
  s.ferries.foldl (fun (s : State) f =>
    match s.latTable f.ctx f.seg with
    | none => s
    | some g =>
      let others := (s.serving (List.range s.presentDies.length)).filter (fun e => e != d)
      match others with
      | [] => s
      | e :: _ =>
        let s1 := others.foldl (fun (s : State) t => if ((s.ferry f.ctx f.seg).die t).busy then s.ferryWithout g (s.ferry f.ctx f.seg) t (· == d) else s) s
        let f1 := s1.ferry f.ctx f.seg
        let y := f1.die e
        let r0 := if y.busy then y.round + 1 else y.round
        let L := roundsFor g.pair s.presentDies.length
        let f2 := f1.setDie d { f1.die d with round := r0, busy := false, sent := true, unacked := 0, awaits := [] }
        let s2 := State.setFerry { s1 with chunks := s1.chunks.filter (fun c => !(c.ctx == f.ctx && c.seg == f.seg && (c.src == d || c.dst == d))) }
          { f2 with dies := f2.dies.map (fun (x : FerryDie) => { x with catchup := x.catchup ++ [r0] }),
                    domDone := if d = (if g.ilv then s.presentDies.headD 0 else g.home) then max f2.domDone ((r0 + L - 1) / L) else f2.domDone }
        others.foldl (fun (s : State) t => s.joinRound g f.ctx d r0 t) s2) s

/-! Domain rounds (R101). -/

/-- The devices of an exchange set, ascending (R352). -/
def State.exchangeSet (s : State) (i : Nat) : List Nat :=
  let m := s.rd (s.dxtab.toNat % 2 ^ 52 + 128 * i) 128
  (List.range 1024).filter (fun j => bitAt m j)

/-- The die that takes part in a segment's domain rounds. -/
def State.domDie (s : State) (g : Seg) : Nat := if g.ilv then s.presentDies.headD 0 else g.home

/-- DOMAIN_ROUND (R101): of segment b of context a; `arg.cells` are the cells (offset, value) received of another device -/
def execDomainRound (s : State) : Out :=
  match s.latSeg s.arg.a s.arg.b with
  | none => .next s
  | some g =>
    let f := s.ferry s.arg.a s.arg.b
    let d := s.domDie g
    let set := s.exchangeSet g.dev
    match set.idxOf? (field s.domid 0 10) with
    | none => .next s
    | some p =>
      let n := set.length
      let L := roundsFor g.pair n
      if !g.dx || field s.domid 10 1 = 0 || (s.die d).state != 1 || decide ((f.die d).round ≤ f.domDone * roundsFor g.pair s.presentDies.length) then .next s else
      let reach (qs : List Nat) : List Nat := (qs.filterMap (fun q => set[q]?)).filter (fun j => !(s.absentDevs.contains j))
      let from_ := reach (receivesFrom g.pair n p f.domRound)
      let to_ := reach (if g.pair = 2 ∧ p = 0 then upFrom 1 (n - 1) else sendsTo g.pair n p f.domRound)
      let s1 := if from_.isEmpty then s else s.arg.cells.foldl (fun (s : State) c => s.joinBytes f.ctx d g c.1 (leBytes (cellBytes g.ltype) c.2)) s
      -- position 0 of gather-scatter sends what it has joined
      let now := (if g.pair = 2 ∧ p = 0 then s1 else s).replica f.ctx d g
      let cs := g.changed now (if f.domRound < L ∨ 0 < f.domCatchup then none else f.domSnaps[L - 1]?)
      let s2 : State := { s1 with out := s1.out ++ to_.flatMap (fun _ => cs.map (fun c => Output.domainChunk f.ctx f.seg (leBytes 8 c ++ now.getD c []))) }
      .next (s2.setFerry { f with domRound := f.domRound + 1, domDone := f.domDone + 1, domCatchup := f.domCatchup - 1, domSnaps := (s.replica f.ctx d g :: f.domSnaps).take (L + 1) })

/-- OVOFT_LINK_LOSS (R102): device a cannot be reached; the ferry reports it -/
def execOvoftLinkLoss (s : State) : Out :=
  if s.absentDevs.contains s.arg.a then .next s else .next ({ s with absentDevs := s.absentDevs ++ [s.arg.a] }.report 102 s.arg.a)

/-- OVOFT_LINK_RETURN (R102): device a is reached again; for L rounds every domain exchange with it counts changes from creation. With `arg.flag` it is this device that comes back: it takes the domain round number b of device a, the lowest-numbered other of the set -/
def execOvoftLinkReturn (s : State) : Out :=
  if !(s.absentDevs.contains s.arg.a) then .next s else
  let s1 : State := { s with absentDevs := s.absentDevs.filter (fun x => x != s.arg.a) }
  .next { s1 with ferries := s1.ferries.map (fun (f : Ferry) => match s1.latTable f.ctx f.seg with
    | some g =>
      let set := s1.exchangeSet g.dev
      if !g.dx || !(set.contains s1.arg.a) then f else
      { f with domCatchup := roundsFor g.pair set.length,
               domRound := if s1.arg.flag && (set.filter (fun j => j != field s1.domid 0 10)).head? == some s1.arg.a then s1.arg.b else f.domRound }
    | none => f) }

end Sys2Proof.Machine
end

