-- ==== Sys2Proof/Machine/System.lean ====
section
/-! DEFINITION. The other system words (R280): traps, translation and instruction caches (R125, R127, R317), saving and loading units (R343), PREEMPT (R307), CANCEL and counters (R25), zeroing (R325), warm reset of a die (R358 to R360), budgets (R305), mailboxes (R293). -/

namespace Sys2Proof.Machine

/-- What TRAP comes to. -/
def Env.trapEnd (f : GW) (e : Env) : SysEnd :=
  .done { e.s.report 280 (GW.n12 f) with freeCtr := e.s.freeCtr + 1 } (some (f.d, Config.trapReply (GW.n12 f) e.s.freeCtr (e.g.getS f.a)))

/-- TRAP: the reply is the partition supervisor's, free for every trap (log 7) -/
def execTrap (f : GW) (s : State) : Out :=
  sysWord true [f.d, f.a] (fun e => e.trapEnd f) s

/-! Translations and instruction caches. -/

/-- No earlier store of a group is on its way, an atomic's or a posted one's among them (R317). -/
def State.storesDone (s : State) (uid grp : Nat) (g : Group) : Bool :=
  g.sbuf.isEmpty && !(g.inflight.any (·.commit)) && !(s.pend.any (fun p => p.uid == uid && p.grp == grp)) && !(s.posted.any (fun p => p.uid == uid && p.grp == grp))

/-- What TLBINV comes to. -/
def Env.tlbinvEnd (f : GW) (e : Env) : SysEnd :=
  let a := e.sA f
  let ctx := if f.f6 = 2 then a else e.s.ctxsel.toNat
  if 2 ^ 16 ≤ ctx then .fault 0x04 else
  if !(e.s.storesDone e.c.uid e.c.grp e.g) then .wait e.s else
  let hit (t : TlbEntry) : Bool := t.ctx == ctx && (f.f6 == 2 || (t.seg == a / 2 ^ 40 && (f.f6 == 1 || decide (t.base ≤ a % 2 ^ 40 ∧ a % 2 ^ 40 < t.base + t.size))))
  -- a threshold load parked through an invalidated entry is translated again (R125)
  let s1 := State.wakeSegments { e.s with tlb := e.s.tlb.filter (fun t => !(hit t)) } ctx (fun k => f.f6 == 2 || k == a / 2 ^ 40)
  if s1.ctxQuiet ctx then .done s1 none else .wait s1

/-- TLBINV: the page or the segment of the context that ZS_CTXSEL names, or every entry of the context that sA names (R310, R317) -/
def execTlbinv (f : GW) (s : State) : Out :=
  sysWord (f.d == 0 && f.b == 0 && decide (f.f6 < 3)) [f.a] (fun e => e.tlbinvEnd f) s

/-- The dies of a mask. -/
def diesOf (m : Nat) : List Nat := (List.range 4).filter (fun d => bitAt m d)

/-- What ICINV comes to. -/
def Env.icinvEnd (f : GW) (e : Env) : SysEnd :=
  let ds := diesOf (e.sA f)
  if !(ds.all (fun d => (e.s.die d).present)) then .fault 0x04 else
  let s1 := ds.foldl (fun (s : State) d => s.setDie d { s.die d with icache := [] }) e.s
  .done { s1 with units := s1.units.map (fun p =>
    if ds.contains p.2.die then (p.1, { p.2 with groups := p.2.groups.map (·.noCode) }) else p) } none

/-- ICINV (R127): the second-level instruction caches of the dies and the loop buffers of their units are discarded -/
def execIcinv (f : GW) (s : State) : Out :=
  sysWord (f.d == 0 && f.b == 0 && f.f6 == 0) [f.a] (fun e => e.icinvEnd f) s

/-! Units (R343). -/

/-- The kind of a save: 1 where the completion of replay records has added fault records (R336). -/
def WorkUnit.saveKind (u : WorkUnit) : Nat := if u.stop.isEmpty then 2 else 1

/-- A unit is saved at an address after what a save completes; its slot is in use. An image with records is one of kind 1 (R336). -/
def State.saveAt (s : State) (uid addr : Nat) : State :=
  let s1 := s.settle uid
  match s1.unit? uid with
  | none => s
  | some u =>
    if u.res == .done then s1 else
    let s2 := s1.saveUnit uid addr u.saveKind
    { s2 with slots := (s2.slots.filter (fun x => x.uid != uid)) ++ [{ part := s.partOf (recCtx u.record), addr := addr, uid := uid, first := u.firstCode, nrec := u.stop.length }] }

/-- The resident unit, running or stopped, whose group 0 is on a tug thread of a core. -/
def State.unitOn (s : State) (core thread : Nat) : Option WorkUnit :=
  (s.units.map (·.2)).find? (fun u => (u.res == .resident || u.res == .stopped) && u.core == core && u.threads.headD 64 == thread)

/-- What UNITSAVE comes to. -/
def Env.unitsaveEnd (f : GW) (e : Env) : SysEnd :=
  let a := e.sA f
  let addr := e.sB f
  if a / 2 ^ 16 ≠ 0 ∨ addr % 2 ^ 20 ≠ 0 ∨ !(e.s.physUsable addr) then .fault 0x04 else
  if !(e.s.reads addr) then .fault 0x0E else
  match e.s.unitOn (a / 64) (a % 64) with
  | none => .fault 0x04
  | some u =>
    -- a unit that had stopped for a fault is saved by its stop
    if !u.stop.isEmpty && u.saver != some e.c.uid then .wait e.s else
    if !(e.s.quiet u) then .wait (if u.uid = e.c.uid then e.s else e.s.setUnit { u with stopAt := some (u.stopAt.getD e.s.cycle), saver := some e.c.uid }) else
    -- a unit that saves itself has its word behind it
    if u.uid = e.c.uid then .wait ((stateOf e.s (e.sysDone e.s none)).saveAt u.uid addr) else .done (e.s.saveAt u.uid addr) none

/-- UNITSAVE (R343): the unit issues no more, and is saved once nothing of it waits for a peer -/
def execUnitsave (f : GW) (s : State) : Out :=
  sysWord (f.d == 0 && f.f6 == 0) [f.a, f.b] (fun e => e.unitsaveEnd f) s

/-- The unit that an image's header names (R339), newest first. -/
def State.imageUnit (s : State) (addr : Nat) : Option WorkUnit :=
  if bits (s.rd8 addr) 56 8 ≠ 1 then none else
  let w := s.rd8 (addr + 16)
  (s.units.map (·.2)).reverse.find? (fun u => u.idx == s.rd8 (addr + 8) && u.mbx == w % 2 ^ 10 && u.seq == w / 2 ^ 10)

/-- What UNITLOAD comes to. -/
def Env.unitloadEnd (f : GW) (e : Env) : SysEnd :=
  let a := e.sA f
  let addr := e.sB f
  if a / 2 ^ 42 ≠ 0 ∨ addr % 2 ^ 20 ≠ 0 ∨ !(e.s.physUsable addr) then .fault 0x04 else
  if !(e.s.reads addr) then .fault 0x0E else
  match e.s.imageUnit addr with
  | none => .fault 0x04
  | some u =>
    let core := if bits a 32 10 = 0x3FF then u.core else bits a 32 10
    match u.res with
    | .saved _ kind =>
      if u.idx ≠ a % 2 ^ 32 ∨ !(e.s.coreExists core) ∨ !(e.s.imageOk u addr kind) then .fault 0x04 else
      let s1 := e.s.dropBarges u.uid
      if 256 ≤ (s1.core core).queue.length then .wait e.s else
      let s2 := s1.setUnit { u with res := .saved addr kind, runnable := true }
      .done (State.enqueue { s2 with slots := s2.slots.map (fun (x : Slot) => if x.uid = u.uid then { x with addr := addr } else x) } core u.barge true) none
    | _ => .fault 0x04

/-- UNITLOAD (R343): the barge enters at the head of its priority -/
def execUnitload (f : GW) (s : State) : Out :=
  sysWord (f.d == 0 && f.f6 == 0) [f.a, f.b] (fun e => e.unitloadEnd f) s

/-! PREEMPT (R307). -/

/-- The launch that a word names: its mailbox and its sequence number (R280). -/
def State.launchNamed (s : State) (a : Nat) : Option Launch := s.launchOf (a % 2 ^ 10) (a / 2 ^ 10)

/-- The resident units of a launch on a core, by index. -/
def State.launchOn (s : State) (l : Launch) (c : Nat) : List WorkUnit :=
  (s.units.map (·.2)).filter (fun u => u.mbx == l.mbx && u.seq == l.seq && u.core == c && u.res == .resident && u.stop.isEmpty)

/-- One unit leaves its core for a save slot, and its barge goes to a remaining core of its launch, at the head of its priority (R299, R307); one whose replay records have faulted is a stop, and takes its route (R332, R336). -/
def State.vacate (s : State) (u : WorkUnit) : State :=
  match s.freeSlot (s.partOf (recCtx u.record)) with
  | none => s
  | some addr =>
    let s1 := s.saveAt u.uid addr
    match s1.unit? u.uid with
    | none => s1
    | some v =>
      match v.res with
      | .saved _ 2 => (s1.setUnit { v with runnable := true }).sendBarge { v with runnable := true }
      | .saved _ 1 => s1.routeStop v addr
      | _ => s1

/-- The barges of a launch in the queue of a core that it is vacated from go to its remaining cores (R307, R309). -/
def State.moveQueued (s : State) (l : Launch) (c : Nat) : State :=
  (((s.core c).queue.filterMap (fun b => s.unit? b.uid)).filter (fun u => u.mbx == l.mbx && u.seq == l.seq)).foldl (fun (s : State) u =>
    let s1 := s.dropBarges u.uid
    let t := match s1.launchOf l.mbx l.seq with | some k => s1.nextCore k | none => (s1, c)
    t.1.enqueue t.2 u.barge u.runnable) s

/-- The cores chosen are vacated: barred from the launch, their units saved, the barges that wait there sent on. -/
def State.preempt (s : State) (l : Launch) (chosen : List Nat) : State :=
  let us := chosen.flatMap (s.launchOn l)
  let s1 := us.foldl (fun (s : State) u => s.vacate u) (s.setLaunch { l with vacated := l.vacated ++ chosen, turn := 0 })
  chosen.foldl (fun (s : State) c => s.moveQueued l c) s1

/-- What PREEMPT comes to. A unit that vacates its own core has its word behind it, with d written. -/
def Env.preemptEnd (f : GW) (e : Env) : SysEnd :=
  match e.s.launchNamed (e.sA f) with
  | none => .fault 0x04
  | some l =>
    let chosen := (e.s.remaining l).reverse.take (e.sB f)
    let us := chosen.flatMap (e.s.launchOn l)
    if !(us.all e.s.quiet) || decide ((e.s.freeSlots (e.s.partOf (recCtx l.record))).length < us.length) then .wait e.s else
    let d : Option (Nat × DWord) := some (f.d, BitVec.ofNat 64 chosen.length)
    if us.any (fun u => u.uid == e.c.uid) then .wait ((stateOf e.s (e.sysDone e.s d)).preempt l chosen) else .done (e.s.preempt l chosen) d

/-- PREEMPT (R307) -/
def execPreempt (f : GW) (s : State) : Out :=
  sysWord (f.f6 == 0) [f.d, f.a, f.b] (fun e => e.preemptEnd f) s

/-! CANCEL and CNTRD (R25, R280). -/

/-- The unit that a launch and an index name, newest first. -/
def State.unitNamed (s : State) (a b : Nat) : Option WorkUnit :=
  (s.units.map (·.2)).reverse.find? (fun u => u.mbx == a % 2 ^ 10 && u.seq == a / 2 ^ 10 && u.idx == b)

/-- A level record that stands: its number without stray bits, its kind that of the level code, running or complete (R296). -/
def State.levelNamed (s : State) (a kind : Nat) : Bool := decide (a < 2 ^ 24) && bits (s.rd8 (s.levelAddr a + 8)) 38 2 == kind && s.levelStands a

/-- A word that names a level record: one with a nonzero RZ bit is reported (R296). -/
def State.levelWord (s : State) (a : Nat) : State := if a < 2 ^ 24 then s.reportStray a else s

/-- The records that stand, running or complete, whose parent is a record, found among the bytes of the table that are not blank. -/
def State.children (s : State) (i : Nat) : List Nat :=
  let b := s.levelAddr 0
  (((s.mem.filter (fun p => decide (b ≤ p.1 ∧ p.1 < b + 2 ^ 29))).map (fun p => (p.1 - b) / 32)).eraseDups).filter (fun j => s.levelStands j && bits (s.rd8 (s.levelAddr j + 8)) 40 24 == i)

/-- Every unit of a launch is cancelled. -/
def State.cancelLaunch (s : State) (l : Launch) : State :=
  ((s.units.map (·.2)).filter (fun u => u.mbx == l.mbx && u.seq == l.seq)).foldl (fun (s : State) u => s.cancelUnit u.uid) s

/-- Members that never started count as cancelled: a record that still runs completes. -/
def State.closeLevel (s : State) (i : Nat) : State := if s.levelRunning i then State.memberDone 8 i 64 (s.wr8 (s.levelAddr i) 1) else s

/-- A level record is cancelled with everything beneath it; held firings of its mailboxes are discarded, those of a complete graph beneath it too (R297). -/
def State.cancelLevel : Nat → Nat → State → State
  | 0, _, s => s
  | fuel + 1, i, s =>
    let s1 := (s.children i).foldl (fun (s : State) j => State.cancelLevel fuel j s) s
    let s2 := (s1.launches.filter (fun l => recGraph l.record == i && !l.complete)).foldl (fun (s : State) l => s.cancelLaunch l) s1
    let s3 := s2.mailboxes.foldl (fun (s : State) p =>
      if recGraph p.2.record = i ∧ s.mbxState p.1 = 1 then (s.setMbx p.1 { s.mbx p.1 with held := [], parked := [] }).setMbxField p.1 32 8 0 else s) s2
    s3.closeLevel i

/-- What CANCEL comes to. -/
def Env.cancelEnd (f : GW) (e : Env) : SysEnd :=
  let a := e.sA f
  match f.f6 with
  | 0 => (match e.s.unitNamed a (e.sB f) with | some u => .done (e.s.cancelUnit u.uid) none | none => .fault 0x04)
  | 1 => (match e.s.launchNamed a with | some l => .done (e.s.cancelLaunch l) none | none => .fault 0x04)
  | k + 2 => if e.s.levelNamed a (k + 1) then .done (State.cancelLevel 4 a e.s) none else .fail (e.s.levelWord a) 0x04

/-- CANCEL (R25, R280) -/
def execCancel (f : GW) (s : State) : Out :=
  sysWord (f.d == 0 && decide (f.f6 < 5) && (f.f6 == 0 || f.b == 0)) ([f.a] ++ (if f.f6 = 0 then [f.b] else [])) (fun e => e.cancelEnd f) s

/-- The counter and the status of what a level code names (R24, R297). -/
def State.counter (s : State) (level a b : Nat) : Option (Nat × Nat) :=
  match level with
  | 0 => (s.unitNamed a b).map (fun u => if u.res == .done then (0, u.status) else
      ((u.groups.filter (fun g => !g.liveLanes.isEmpty)).length, (u.groups.filter (fun g => g.liveLanes.isEmpty)).foldl (fun a g => a ||| g.sticky) 0))
  | 1 => (s.launchNamed a).map (fun l => (l.left, l.status))
  | k + 2 => if s.levelNamed a (k + 1) then some (s.rd8 (s.levelAddr a), s.rd8 (s.levelAddr a + 8) % 256) else none

/-- What CNTRD comes to. -/
def Env.cntrdEnd (f : GW) (st : Bool) (e : Env) : SysEnd :=
  let level := f.f6 % 8
  match e.s.counter level (e.sA f) (e.sB f) with
  | some p => .done e.s (some (f.d, BitVec.ofNat 64 (if st then p.2 else p.1)))
  | none => .fail (if 2 ≤ level then e.s.levelWord (e.sA f) else e.s) 0x04

/-- CNTRD and CNTRD.ST. -/
def cntrdWord (f : GW) (st : Bool) (s : State) : Out :=
  let level := f.f6 % 8
  sysWord (decide (level < 5) && (level == 0 || f.b == 0)) ([f.d, f.a] ++ (if level = 0 then [f.b] else [])) (fun e => e.cntrdEnd f st) s

/-- CNTRD (R280) -/
def execCntrd (f : GW) (s : State) : Out := cntrdWord f false s
/-- CNTRD_ST (R280) -/
def execCntrdSt (f : GW) (s : State) : Out := cntrdWord f true s

/-! Zeroing (R280, R325). -/

/-- The resident units of a core changed alike. -/
def State.onResidents (s : State) (c : Nat) (h : WorkUnit → WorkUnit) : State :=
  { s with units := s.units.map (fun p => if p.2.core == c && (p.2.res == .resident || p.2.res == .stopped) then (p.1, h p.2) else p) }

/-- Spilled registers of a group read as zero. -/
def Group.zeroSpilled (g : Group) : Group :=
  g.spilled.foldl (fun (g : Group) p => if p.1 < 4096 then g.putV (p.1 / 64) (p.1 % 64) 0 else g.putS (p.1 - 4096) 0) g

/-- The buffers of a kind on a core read as zero; loop buffers hold nothing. -/
def State.zeroBuf (s : State) (c kind : Nat) : State :=
  match kind with
  | 0 => (s.residents c).foldl (fun (s : State) u => s.zeroRange (scratchKey u.uid 0) (recScr u.record * 4096)) s
  | 1 => s.zeroRange (vaultKey c 0) (2 ^ 22)
  | 2 => s.onResidents c (fun u => if recMx u.record then
      { u with tiles := [], fas := List.replicate 4 ⟨0, false, []⟩, ym := List.replicate 4 0, xm := List.replicate 4 0 } else u)
  | 3 => s.onResidents c (fun u => { u with panels := u.panels.map (fun (p : Panel) => { p with bytes := [] }) })
  | 4 => s.onResidents c (fun u => { u with groups := u.groups.map (·.noCode) })
  | 5 => s.onResidents c (fun u => { u with groups := u.groups.map (fun (g : Group) => { g with binds := g.binds.map (fun (b : Binding) =>
      { b with basin := b.basin.map (fun en => en.map (fun (x : Elem) => { x with val := 0 })) }) }) })
  | _ => s.onResidents c (fun u => { u with groups := u.groups.map (·.zeroSpilled) })

/-- What ZEROBUF comes to. -/
def Env.zerobufEnd (f : GW) (e : Env) : SysEnd :=
  if e.s.coreExists (e.sA f) then .done (e.s.zeroBuf (e.sA f) f.f6) none else .fault 0x04

/-- ZEROBUF: sA names the package core whose buffers of the kind are zeroed (log 17) -/
def execZerobuf (f : GW) (s : State) : Out :=
  sysWord (f.d == 0 && f.b == 0 && decide (f.f6 < 7)) [f.a] (fun e => e.zerobufEnd f) s

/-! Warm reset of a die (R358 to R360). -/

/-- Units resident on a die's cores. -/
def State.unitsOn (s : State) (d : Nat) : Nat := ((s.units.map (·.2)).filter (fun u => u.die == d && (u.res == .resident || u.res == .stopped))).length

/-- The step of R360 at which a die stands: 7 is step 0 while a QUIESCE waits for traffic to drain. -/
def Die.at_ (x : Die) : Nat := if x.step = 7 then 0 else x.step

/-- The die's state word (R359). -/
def State.dieWord (s : State) (d : Nat) : DWord :=
  BitVec.ofNat 64 ((s.die d).state * 2 ^ 62 + s.unitsOn d % 2 ^ 14 * 2 ^ 48 + (s.die d).at_ % 2 ^ 8 * 2 ^ 40)

/-- A die word: its die named, then its effect where the die stands at the step that the word leaves. -/
def dieWordAt (f : GW) (op : Nat) (ok : Bool) (writes : Bool) (step : Option Nat) (k : Nat → State → SysEnd) (s : State) : Out :=
  sysWord (ok && f.b == 0 && f.f6 == op) ((if writes then [f.d] else []) ++ [f.a]) (fun e =>
    let d := e.sA f
    if 4 ≤ d ∨ !((e.s.die d).present) then .fault 0x04 else
    if !(match step with | some n => (e.s.die d).at_ == n | none => true) then .fault 0x04 else k d e.s) s

/-- The die goes to a reset step; d receives its state word. -/
def State.toStep (s : State) (f : GW) (d n : Nat) : SysEnd :=
  let s1 := s.setDie d { s.die d with step := n }
  .done s1 (some (f.d, s1.dieWord d))

/-- DIECTL op 0 (R359) -/
def execDiectlReadState (f : GW) (s : State) : Out := dieWordAt f 0 true true none (fun d s => .done s (some (f.d, s.dieWord d))) s
/-- DIECTL op 1 (R360): every committed line stands at its home already -/
def execDiectlWriteBack (f : GW) (s : State) : Out := dieWordAt f 1 true true (some 1) (fun d s => s.toStep f d 2) s
/-- DIECTL op 2 (R360) -/
def execDiectlSelfRefreshEntry (f : GW) (s : State) : Out := dieWordAt f 2 true true (some 2) (fun d s => s.toStep f d 3) s
/-- DIECTL op 3 (R360) -/
def execDiectlSelfRefreshExit (f : GW) (s : State) : Out := dieWordAt f 3 true true (some 5) (fun d s => s.toStep f d 6) s

/-- The logic of a die is reset: copies of its lines, their directory entries and scope records, its own copies, its TLB, caches and engine contexts are gone; lanes that have read such a line past a fence are told (R114). -/
def State.resetLogic (s : State) (d : Nat) : State :=
  let s1 := s.setDie d { s.die d with icache := [], held := 0, queues := [[], [], [], []], granted := [] }
  let own := s.dir.filter (fun p => p.2.home == d)
  { s1.hitFences (own.map (fun p => 128 * p.1)) with
    dir := dirWithout (s.dir.filter (fun p => p.2.home != d)) (fun c => c / 80 == d) (· == d) (fun _ => true),
    tlb := s.tlb.filter (fun t => t.die != d),
    engines := s.engines.filter (fun p => !(if p.1 / 2 ^ 20 = 3 then p.1 % 2 ^ 20 / 64 == d else p.1 % 2 ^ 20 / 64 / 80 == d)) }

/-- DIECTL op 4 (R360) -/
def execDiectlResetDieLogic (f : GW) (s : State) : Out := dieWordAt f 4 true true (some 3) (fun d s => (s.resetLogic d).toStep f d 4) s
/-- DIECTL op 5 (R360, R350) -/
def execDiectlRetrainUcie (f : GW) (s : State) : Out := dieWordAt f 5 true true (some 4) (fun d s => s.toStep f d 5) s

/-- Traffic of a die in flight: accesses on their way to its bytes or from its cores, engine commands at work (R280). -/
def State.dieBusy (s : State) (d : Nat) : Bool :=
  let hit (rs : List (Nat × Nat)) : Bool := rs.any (fun r => r.2 == d)
  s.pend.any (fun p => p.die == d || hit p.recs) ||
    s.units.any (fun u => u.2.groups.any (fun g => g.sbuf.any (fun b => hit b.recs) || g.inflight.any (fun p => p.parts.any (fun x => x.peer.isNone && hit x.recs)))) ||
    s.engines.any (fun p => (if p.1 / 2 ^ 20 = 3 then p.1 % 2 ^ 20 / 64 == d else p.1 % 2 ^ 20 / 64 / 80 == d) && p.2.failed.isNone && p.2.cmds.any (fun c => !c.done && c.stuck.isNone))

/-- QUIESCE (R358, R360): refused while units stay on the die; new traffic is stopped at once, and it completes once what is in flight has drained (log 33) -/
def execQuiesce (f : GW) (s : State) : Out :=
  dieWordAt f 0 (f.d == 0) false (some 0) (fun d s =>
    if s.unitsOn d ≠ 0 then .fault 0x04 else
    let s1 := s.setDie d { s.die d with step := 7, savedBudget := if (s.die d).step = 7 then (s.die d).savedBudget else (s.die d).budget }
    if s.dieBusy d then .wait s1 else .done (s1.setDie d { s1.die d with step := 1 }) none) s

/-- A die as ADMIT's self-test finds it: no more units than before, how many are free values (R327, log 18); its budget comes back. -/
def Die.retested (x : Die) (c : Nat) : Die :=
  { x with cores := min x.cores (Config.freeWord c).toNat, slices := min x.slices (max 1 (Config.freeWord (c + 1)).toNat),
           chan := min x.chan (Config.freeWord (c + 2)).toNat, hbm := min x.hbm (Config.freeWord (c + 3)).toNat, step := 0, budget := x.savedBudget }

/-- Barges queued on cores of a die that are no longer present go to their home cores (log 18). -/
def State.rehome (s : State) (d old : Nat) : State :=
  (upFrom (d * 80 + (s.die d).cores) (old - (s.die d).cores)).foldl (fun (s : State) c =>
    let us := (s.core c).queue.filterMap (fun b => s.unit? b.uid)
    -- those that go to the head last first
    (us.filter (fun u => !u.runnable) ++ (us.filter (·.runnable)).reverse).foldl (fun (s : State) u => s.sendBarge u) (s.setCore c { s.core c with queue := [] })) s

/-- Bindings of entries homed on a die are searched again (R73). -/
def State.searchAgain (s : State) (d : Nat) : State :=
  { s with binders := s.binders.map (fun (b : Binder) => if b.entry.die = d then { b with escalated := false } else b) }

/-- A die's replica of every replicated page is copied from the lowest other die that serves (R319). -/
def State.copyReplicas (s : State) (d : Nat) : State :=
  match (s.presentDies.filter (fun e => e != d && (s.die e).state == 1)).head? with
  | none => s
  | some e =>
    let pages := ((s.segsOf .repl).flatMap (fun p => ((s.leaves [36, 31, 26, 21, 16] p.2.root).filter (fun l => (s.leafFor p.1 p.2 l).toOption.isSome)).map (fun l => (l.frame % 2 ^ 40, l.size)))).eraseDups
    pages.foldl (fun (s : State) l => { s with mem := Memory.copyRun s.mem (e * 2 ^ 40 + l.1) (d * 2 ^ 40 + l.1) l.2, hostLines := unhost s.hostLines (d * 2 ^ 40 + l.1) l.2 }) s

/-- ADMIT (R358 step 6, R319, R327): the die is tested again, its replicas are copied, its budget comes back, it rejoins the ferry (R102), bindings that stand in it are searched again, held firings are delivered -/
def execAdmit (f : GW) (s : State) : Out :=
  dieWordAt f 0 true true (some 6) (fun d s =>
    let x := (s.die d).retested s.freeCtr
    let s1 := State.rehome (State.copyReplicas { s.setDie d x with freeCtr := s.freeCtr + 4 } d) d (s.die d).cores
    let s2 := s1.mailboxes.foldl (fun (s : State) p => s.unpark p.1) ((s1.ferryReturn d).searchAgain d)
    .done s2 (some (f.d, BitVec.ofNat 64 x.cores))) s

/-! Budgets (R305) and mailboxes (R293). -/

/-- The four dies' budgets with a new one for a die: absent dies count 0, dies under reset what ADMIT restores. -/
def State.budgetSum (s : State) (d n : Nat) : Nat :=
  ((List.range 4).map (fun i => let x := s.die i; if !x.present then 0 else if x.step ≠ 0 then x.savedBudget else if i = d then n else x.budget)).sum

/-- A die's budget is set; waiting requests above it are refused (R304). -/
def State.setBudget (s : State) (d n : Nat) : State :=
  let s1 := s.setDie d { s.die d with budget := n }
  ((s1.die d).queues.flatten.filter (fun r => decide (n < r.demand))).foldl (fun (s : State) r => s.refuse d r) s1

/-- What SLUICESET comes to. -/
def Env.sluicesetEnd (f : GW) (e : Env) : SysEnd :=
  let d := e.sA f
  let n := e.sB f
  if 4 ≤ d ∨ !((e.s.die d).present) ∨ pkgBudget - 3200 < e.s.budgetSum d n then .fault 0x04 else
  .done (e.s.setBudget d n) none

/-- SLUICESET (R305) -/
def execSluiceset (f : GW) (s : State) : Out :=
  sysWord (f.d == 0 && f.f6 == 0) [f.a, f.b] (fun e => e.sluicesetEnd f) s

/-- Launches of a mailbox that have not completed. -/
def State.mbxBusy (s : State) (m : Nat) : Bool := s.launches.any (fun l => l.mbx == m && decide (l.seq < 2 ^ 53) && !l.complete)

/-- A mailbox is bound to a record read at an address (R291 to R293); units of the recovery queue scheduler's launches that wait in it stay (R298). -/
def State.bindMbx (s : State) (m addr : Nat) (record : List DWord) : State :=
  let w := s.rd8 (s.mbxAddr m)
  let s1 := ((s.wr8 (s.mbxAddr m) (2 ^ 62 + bits w 40 8 * 2 ^ 40)).wr8 (s.mbxAddr m + 24) addr).setMbx m { Mailbox.init with record := record, pending := (s.mbx m).pending }
  State.deliverKept { s1 with launches := s1.launches.filter (fun l => !(l.mbx == m && decide (l.seq < 2 ^ 53))),
                              -- its sequence numbers start again, so a vault no longer serves a launch of its former binding (R87, R325)
                              cores := s1.cores.map (fun c => (c.1, { c.2 with vaultLaunch := c.2.vaultLaunch.filter (fun l => !(l.1 == m && decide (l.2 < 2 ^ 53))) })) }

/-- What MBXBIND comes to. -/
def Env.mbxbindEnd (f : GW) (e : Env) : SysEnd :=
  let m := e.sA f
  let addr := e.sB f
  if 1024 ≤ m ∨ !((e.s.die (m / 256)).present) ∨ !(e.s.owns e.supPart (0x400 + m)) then .fault 0x04 else
  let st := e.s.mbxState m
  if addr = 0 then
    (if st = 0 then .done e.s none else
    let s1 := if st = 2 then e.s else
      (((e.s.setMbx m { e.s.mbx m with held := [], parked := [] }).setMbxField m 32 8 0).setMbxField m 0 8 0).setMbxField m 62 2 2
    if s1.mbxBusy m then .wait s1 else .done (s1.setMbxField m 62 2 0) none)
  else
  let w := e.s.rd8 (e.s.mbxAddr m)
  let record : List DWord := (List.range 16).map (fun k => BitVec.ofNat 64 (e.s.rd8 (addr + 8 * k)))
  if st = 0 ∧ addr % 128 = 0 ∧ e.s.physUsable addr ∧ !(e.s.reads addr) then .fault 0x0E else
  if st ≠ 0 ∨ addr % 128 ≠ 0 ∨ !(e.s.physUsable addr) ∨ bits w 48 14 ≠ 0 ∨ bits w 8 24 ≠ 0 ∨ !(recordOk record) then .fault 0x04 else
  if !(e.s.levelRunning (recGraph record)) then .fail (e.s.levelWord (recGraph record)) 0x04 else
  .done (e.s.bindMbx m addr record) none

/-- MBXBIND (R293) -/
def execMbxbind (f : GW) (s : State) : Out :=
  sysWord (f.d == 0 && f.f6 == 0) [f.a, f.b] (fun e => e.mbxbindEnd f) s

end Sys2Proof.Machine
end

