-- ==== Sys2Proof/Machine/Stops.lean ====
section
/-! DEFINITION. A stop after its cycle (R332), what ends a service (R333, R334), the emulation of optional opcodes (R166, R335), and the same for running engine commands (R361). -/

namespace Sys2Proof.Machine

/-- The partition emulates an optional opcode, given the first word of the instruction (R331). -/
def State.emulated (s : State) (part w0 : Nat) : Bool := bitAt (field (SMap.get (0 : DWord) s.svcmbx part) 0 16) (bits w0 24 7 - 0x70)

/-- A record of 0x0C that no emulation takes is one of 0x15 before it leaves the device (R166). -/
def State.settleCode (s : State) (part : Nat) (r : FaultRec) : FaultRec :=
  if r.code = 0x0C ∧ !(s.emulated part (r.addr % 2 ^ 32)) then { r with code := 0x15 } else r

/-- A stopped unit that no slot takes: its live lanes are parked for leave (R332). The argument 1 tells their park from that of PERMITQ and of matrix words. -/
def WorkUnit.held (u : WorkUnit) : WorkUnit :=
  { u with res := .stopped, groups := u.groups.map (fun (g : Group) => { g.setLanes g.liveLanes (fun _ x => { x with st := .parked .leave 1 x.pc }) with blocked := [] }) }

/-- A unit that a UNITSAVE has stopped is saved by that word, as long as it waits (R343). -/
def State.savedBy (s : State) (u : WorkUnit) : Bool :=
  match u.saver.bind (fun uid => s.unit? uid) with
  | some v => v.res == .resident && v.stop.isEmpty
  | none => false

/-- STOP_SAVE (R332): of unit a; what a save completes (R336, R337), the image and its records in the lowest free slot, the route; without a free slot the unit stays on its core, stopped, with its lanes parked for leave, and the supervisor mailbox has a report (log 47) -/
def execStopSave (s : State) : Out :=
  match s.unit? s.arg.a with
  | none => .next s
  | some u =>
    if !(u.res == .resident || u.res == .stopped) || u.stop.isEmpty || !(s.quiet u) || s.savedBy u then .next s else
    let part := s.partOf (recCtx u.record)
    match s.freeSlot part with
    | none => if u.res == .stopped then .next s else .next ((s.setUnit (u.held)).toSupervisor part (stopMsg 0 u.firstCode 0 u.stop.length))
    | some addr =>
      let s1 := s.settle u.uid
      let s2 := s1.onUnit u.uid (fun v => { v with stop := v.stop.map (s.settleCode part) })
      let s3 := s2.saveUnit u.uid addr 1
      match s3.unit? u.uid with
      | none => .next s3
      | some v =>
        let rs := recordOrder v.stop
        let s4 : State := { s3 with slots := s3.slots ++ [{ part := part, addr := addr, uid := u.uid, first := v.firstCode, nrec := rs.length }] }
        .next (s4.routeStop v addr)

/-- A unit whose image is in service. -/
def WorkUnit.inService (u : WorkUnit) : Bool := (match u.res with | .saved _ _ => true | _ => false) && !u.runnable && !u.stop.isEmpty

/-- The first command of an engine context that waits for service. -/
def State.stuckCmd (s : State) (k : EngId) : Option (Command × Nat × Nat × Bool) :=
  (s.engine k).cmds.findSome? (fun c => c.stuck.map (fun t => (c, t.1, t.2.1, t.2.2)))

/-- The partition of a command's unit. -/
def State.cmdPart (s : State) (c : Command) : Nat := match s.unit? c.uid with | some u => s.partOf (recCtx u.record) | none => 0

/-- SERVICE_RETURN (R333): the image of unit a becomes a runnable barge; with `arg.flag`, the command that waits in context `arg.eng` goes on (R361) -/
def execServiceReturn (s : State) : Out :=
  if s.arg.flag then
    (match s.stuckCmd s.arg.eng with
    | some (c, _) => .next (s.putCmd s.arg.eng { c with stuck := none })
    | none => .next s)
  else
    match s.unit? s.arg.a with
    | some u => if u.inService then .next (s.returnUnit u) else .next s
    | none => .next s

/-- SERVICE_ABANDON (R333): unit a ends with result 2; with `arg.flag`, context `arg.eng` fails (R361) -/
def execServiceAbandon (s : State) : Out :=
  if s.arg.flag then
    (match s.stuckCmd s.arg.eng with
    | some (c, code, addr, ss) => .next (s.ctxFail s.arg.eng c.num code addr ss)
    | none => .next s)
  else
    match s.unit? s.arg.a with
    | some u => if u.inService then .next (s.endUnit u.uid 2) else .next s
    | none => .next s

/-- SERVICE_ESCALATE (R333, R334): the image of unit a goes to the supervisor mailbox; with `arg.flag`, context `arg.eng` fails and its message goes there (R361) -/
def execServiceEscalate (s : State) : Out :=
  if s.arg.flag then
    (match s.stuckCmd s.arg.eng with
    | some (c, code, addr, ss) => .next ((s.ctxFail s.arg.eng c.num code addr ss).toSupervisor (s.cmdPart c) (faultMsg s.arg.eng c.num code addr ss))
    | none => .next s)
  else
    match s.unit? s.arg.a with
    | some u => if u.inService then .next (s.escalate u) else .next s
    | none => .next s

/-! Emulation (R335). -/

/-- A v register of a saved lane is given a value in the image, and is full. -/
def State.imageSetV (s : State) (addr grp lane n : Nat) (w : Word) : State :=
  let g := addr + 0x74000 + 0x8000 * grp
  let s1 := s.wr (g + 0x4000 + 4 * (64 * lane + n)) 4 w.toNat
  s1.wr8 (g + 0xB00 + 8 * lane) ((setBit (BitVec.ofNat 64 (s1.rd8 (g + 0xB00 + 8 * lane))) n true).toNat)

/-- A bit of a saved lane's mask register, 1 to 7. -/
def State.imageSetM (s : State) (addr grp lane n : Nat) (b : Bool) : State :=
  let a := addr + 0x74000 + 0x8000 * grp + 0x100 + 8 * (n - 1)
  s.wr8 a ((setBit (BitVec.ofNat 64 (s.rd8 a)) lane b).toNat)

/-- A half of an s register in the image, which is full. -/
def State.imageSetS (s : State) (addr grp n half : Nat) (w : Word) : State :=
  let g := addr + 0x74000 + 0x8000 * grp
  let s1 := s.wr (g + 0x200 + 8 * n + 4 * half) 4 w.toNat
  s1.wr8 (g + 0xF00) ((setBit (BitVec.ofNat 64 (s1.rd8 (g + 0xF00))) n true).toNat)

/-- A result of an emulated instruction (R335): in v register n for n below 64, in the lane's bit of m1 to m7 for 65 to 71, in the halves of s0 to s63 for 128 to 255. -/
def State.imageEdit (s : State) (addr grp lane n : Nat) (w : Word) : State :=
  if n < 64 then s.imageSetV addr grp lane n w else
  if 65 ≤ n ∧ n < 72 then s.imageSetM addr grp lane (n - 64) (w.getLsbD 0) else
  if 128 ≤ n ∧ n < 256 then s.imageSetS addr grp ((n - 128) / 2) (n % 2) w else s

/-- The lane of a record of 0x0C is set past the instruction, 4 or 8 bytes on. -/
def State.imageSkip (s : State) (addr : Nat) (r : FaultRec) : State :=
  s.wr8 (addr + 0x74000 + 0x8000 * r.grp + 0x1000 + 64 * r.lane + 8) ((r.pc + 4 * wordCount (r.addr % 2 ^ 32)) % 2 ^ 40)

/-- The accesses of an emulation for the lanes of its records, in order: checked as R59 states, each store committed at once; where one of them meets a fault nothing but what is reported of its walk (R314). -/
def State.emulate (s : State) (u : WorkUnit) : List EmuAcc → Except (List (Nat × Nat)) State
  | [] => .ok s
  | x :: rest =>
    match s.access u (x.lane / 64) (x.lane % 64) (memReq (ofBase x.addr 0) x.n x.n x.data.isNone x.data.isSome false .cells) with
    | .error b => .error (b.note (ofBase x.addr 0))
    | .ok acc => State.emulate (match x.data with | none => s.learn acc.tlb | some bs => s.writeNow u acc (bs.take x.n)) u rest

/-- The accesses of an emulation that name a lane with a record, each of 1 to 8 bytes. -/
def emuAccs (rs : List FaultRec) (xs : List EmuAcc) : List EmuAcc :=
  xs.filter (fun x => rs.any (fun r => r.grp * 64 + r.lane == x.lane) && decide (1 ≤ x.n ∧ x.n ≤ 8))

/-- OPTIONAL_EMULATION (R335, log 77): for unit a; `arg.accs` are the accesses that the partition's emulation makes, `arg.edits` its results, as 64 × group + lane, place, value; where nothing else stopped the unit it returns, and where an access meets a fault it is escalated (R334) -/
def execOptionalEmulation (s : State) : Out :=
  match s.unit? s.arg.a with
  | none => .next s
  | some u =>
    match u.res with
    | .saved addr 1 =>
      let rs := u.stop.filter (fun r => r.code == 0x0C)
      if !(s.harboured u) || rs.isEmpty then .next s else
      match s.emulate u (emuAccs rs s.arg.accs) with
      | .error rs => .next ((s.reports rs).escalate u)
      | .ok s0 =>
        let edits := s.arg.edits.filter (fun p => rs.any (fun r => r.grp * 64 + r.lane == p.1))
        let s1 := edits.foldl (fun (s : State) p => s.imageEdit addr (p.1 / 64) (p.1 % 64) p.2.1 p.2.2) s0
        let s2 := rs.foldl (fun (s : State) r => s.imageSkip addr r) s1
        .next (if u.stop.all (fun r => r.code == 0x0C) then s2.returnUnit u else s2)
    | _ => .next s

end Sys2Proof.Machine
end

