-- ==== Sys2Proof/Machine/HostLinks.lean ====
section
/-! DEFINITION. The host's side: inbound writes and reads through BAR2 (R347, R349), CXL.mem (R320, R347), snoops, warm restart and link return (R354). -/

namespace Sys2Proof.Machine

/-- A party of a context on a die that is no unit: an inbound request as R59 checks it. -/
def deviceParty (ctx die : Nat) : WorkUnit := WorkUnit.start 0 0 0 0 [0, BitVec.ofNat 64 (ctx * 2 ^ 16)] 0 (die * 80) []

/-- The window of a function: context and segment where it is open (R347). -/
def State.window (s : State) (fn : Nat) : Option (Nat × Nat) :=
  let w := SMap.get (0 : DWord) s.inwin fn
  if fn < 16 ∧ field w 0 1 = 1 then some (field w 48 16, field w 24 24) else none

/-- The party that an inbound request is checked as: the IOD's, of no die; at a replica that of the home die (R75, R347). -/
def State.inParty (s : State) (ctx seg off : Nat) : WorkUnit :=
  deviceParty ctx (match s.tableSeg ctx seg with | .ok g => if g.kind == .repl || g.kind == .lattice then s.homeDie g off else 4 | _ => 4)

/-- An inbound access through a window, checked (R59, R347). -/
def State.inbound (s : State) (fn off n : Nat) (write : Bool) : Option (WorkUnit × Acc) :=
  match s.window fn with
  | none => none
  | some (ctx, seg) =>
    let u := s.inParty ctx seg off
    match s.access u 0 0 (memReq ⟨seg, (off : Int)⟩ n 1 (!write) write false .cells) with
    | .ok acc => some (u, acc)
    | .error _ => none

/-- What a failed inbound access of n bytes reports of its walk, at its first byte and at its last (R314). -/
def State.inboundNote (s : State) (fn off n : Nat) : State :=
  match s.window fn with
  | none => s
  | some (ctx, seg) =>
    let s1 := s.noteWalk (s.inParty ctx seg off) (addrOf seg (off : Int))
    if s1.out.length = s.out.length ∧ 1 < n then s.noteWalk (s.inParty ctx seg off) (addrOf seg ((off + n - 1 : Nat) : Int)) else s1

/-- A read or a CXL.mem request that fails (R346). -/
def State.discard (s : State) (port : Nat) : State := { s with out := s.out ++ [.hostError port] }
/-- A write logged as an Advisory Non-Fatal error with its header (R294, R346). -/
def State.logWrite (s : State) (port : Nat) (w : InWrite) : State := { s with out := s.out ++ [.hostLog port w.fn w.off w.data.length w.relaxed] }

def State.setPop (s : State) (port : Nat) (ws : List PopWrite) : State := { s with pop := s.pop.set port ws }

/-- A write of a port goes on its way to its home (R349): a release at system scope. In a lattice segment its cells are joined; to a peer it is sent. -/
def State.forward (s : State) (port : Nat) (u : WorkUnit) (acc : Acc) (bytes : List Byte) : State :=
  let s1 := s
  match acc.g.kind with
  | .peer =>
    let p : Posted := { uid := s.nextUid, grp := 16, lane := 0, dev := acc.g.dev, addr := 0, pa := acc.keys.headD 0, ctr := 0, bytes := bytes, port := some port }
    State.sendPeer { s1 with posted := s1.posted ++ [p] } acc.g.dev acc.keys
  | .lattice =>
    let k := cellBytes acc.g.ltype
    (List.range (acc.keys.length / k)).foldl (fun (s : State) i => s.joinCell u.die acc.g.ltype ((acc.keys.drop (k * i)).take k) (leNat ((bytes.drop (k * i)).take k))) s1
  | kind =>
    let repl := kind == SegKind.repl
    let s2 := acc.recs.foldl (fun (s : State) n => s.setScope n 7 0) (s1.hitFences (s1.landing repl acc.keys bytes).1)
    { s2 with pend := s2.pend ++ [{ uid := s.nextUid, grp := 0, die := u.die, keys := acc.keys, bytes := bytes, rel := 7, lane := 0, repl := repl,
                                    seqd := if repl then some s.nextSeq else none, port := some port, recs := acc.recs,
                                    unacked := s2.sharersOf (s2.landing repl acc.keys bytes).1 }],
              nextSeq := if repl then s.nextSeq + 1 else s.nextSeq }

/-- A write passes the ordering point: it is checked, and it fires the mailboxes whose window it begins (R294, R347); nothing while one has no room. -/
def State.passPop (s : State) (port : Nat) (w : InWrite) : Option State :=
  match s.inbound w.fn w.off w.data.length true with
  | none => some ((s.inboundNote w.fn w.off w.data.length).logWrite port w)
  | some (u, acc) =>
    let ms := s.windows (recCtx u.record) ⟨acc.g.num, (w.off : Int)⟩
    if ms.isEmpty then some (s.forward port u acc w.data) else
    if w.data.length < 8 then some ((s.forward port u acc w.data).logWrite port w) else
    if ms.all s.mbxRoom then some (ms.foldl (fun (s : State) m => s.fire m (w.data.take 256)) (s.forward port u acc w.data)) else none

/-- Every write of a port that the ordering point has let go is committed, one to a peer acknowledged. -/
def State.portIdle (s : State) (port : Nat) : Bool := !(s.pend.any (fun p => p.port == some port)) && !(s.posted.any (fun p => p.port == some port))

/-- The writes of a port that may be forwarded (R349): the oldest once everything before it has committed, and each with Relaxed Ordering. -/
def State.popReady (s : State) (port : Nat) : List PopWrite :=
  match s.pop.getD port [] with
  | [] => []
  | x :: rest => (if x.w.relaxed || s.portIdle port then [x] else []) ++ rest.filter (·.w.relaxed)

/-- INBOUND_POSTED_WRITE (R349): at port a; the write `arg.write`, of at most 512 bytes (R346), arrives and is numbered, or, where there is none, the first write that may be forwarded goes on to its home -/
def execInboundPostedWrite (s : State) : Out :=
  let port := s.arg.a
  if !(s.portUp.getD port false) then .next s else
  match s.arg.write with
  | some w =>
    if 512 < w.data.length then .next s else
    let n := s.popNext.getD port 0
    .next { s.setPop port (s.pop.getD port [] ++ [{ num := n, w := w }]) with popNext := s.popNext.set port (n + 1) }
  | none =>
    match (s.popReady port).findSome? (fun x => (s.passPop port x.w).map (fun t => (x, t))) with
    | none => .next s
    | some (x, s1) => .next (s1.setPop port ((s1.pop.getD port []).filter (fun y => y.num != x.num)))

/-- What an inbound read returns: memory's bytes; a peer's are free values (log 3). -/
def State.inboundBytes (s : State) (acc : Acc) : List Byte :=
  if acc.g.kind == .peer then acc.keys.zipIdx.map (fun q => Config.freeByte (s.freeCtr + q.2)) else acc.keys.map (Memory.read s.mem)

/-- INBOUND_READ (R349): at port a, of function b, window offset c, d bytes, at most 4,096 (R346); after every earlier write of the port. With `arg.flag` it reads BAR0 of function 0 from its word 0 (R356) -/
def execInboundRead (s : State) : Out :=
  let port := s.arg.a
  if !(s.portUp.getD port false) then .next s else
  if decide (4096 < s.arg.d) || !((s.pop.getD port []).isEmpty) || !(s.portIdle port) then .next s else
  if s.arg.flag then .next { s with out := s.out ++ [.hostData port ((leBytes 8 s.bar0.toNat).take s.arg.d)] } else
  match s.inbound s.arg.b s.arg.c s.arg.d false with
  | none => .next ((s.inboundNote s.arg.b s.arg.c s.arg.d).discard port)
  | some (_, acc) =>
    if s.pend.any (fun p => p.keys.any acc.keys.contains) then .next s else
    .next { s with out := s.out ++ [.hostData port (s.inboundBytes acc)], freeCtr := if acc.g.kind == .peer then s.freeCtr + acc.keys.length else s.freeCtr }

/-- Whether CXL.mem reaches an address: device memory that is present, its HBM die serving (R320, R358). -/
def State.cxlOk (s : State) (pa n : Nat) : Bool :=
  s.tableUsable pa && s.tableUsable (pa + n - 1) && s.reads pa

/-- CXL_MEM_REQUEST (R347, R320): at port c, of b bytes at physical address a, ordered to the same line; a write of `arg.bytes` with `arg.flag`, which is completed once committed. In a host-owned frame the host caches the line -/
def execCxlMemRequest (s : State) : Out :=
  let pa := s.arg.a
  let port := s.arg.c
  if !(s.portUp.getD port false) then .next s else
  if !(s.cxlOk pa s.arg.b) then .next (s.discard port) else
  let keys := upFrom pa s.arg.b
  if s.pend.any (fun p => (linesOf p.keys).any (linesOf keys).contains) then .next s else
  let hosted := SMap.get false s.bias (pa / 2 ^ 16)
  if s.arg.flag then
    let d := if pa < 4 * 2 ^ 40 then pa / 2 ^ 40 else 4
    let p : PendStore := { uid := s.nextUid, grp := 0, die := d, keys := keys, bytes := s.arg.bytes.take s.arg.b, rel := 0, lane := 0, repl := false, seqd := none, port := none, cxl := some port,
                           unacked := s.sharersOf keys, recs := (linesOf keys).map (fun n => (n, d)) }
    .next { s.hitFences keys with pend := s.pend ++ [p] }
  else
    .next { s with out := s.out ++ [.hostData port (keys.map (Memory.read s.mem))],
                   hostLines := if hosted then (linesOf keys).foldl (fun (m : SMap Bool) k => SMap.put false m (port * 2 ^ 45 + k) true) s.hostLines else s.hostLines }

/-- HOST_SNOOP (R320): of the line of host address a: the device's copies are invalidated once its pending updates have committed; `arg.bytes` is what the host then stores there -/
def execHostSnoop (s : State) : Out :=
  let pa := s.arg.a
  if pa / 2 ^ 40 % 2 ^ 12 < 0x800 then .next s else
  let lines := linesOf (pa :: upFrom pa s.arg.bytes.length)
  if s.pend.any (fun p => p.keys.any (fun k => lines.contains (k / 128))) then .next s else
  let keys := upFrom pa s.arg.bytes.length
  let s1 := { s.hitFences keys with dir := dirWithout s.dir (fun _ => true) (fun _ => true) lines.contains }
  .next (if keys.isEmpty then s1 else s1.expose 4 keys s.arg.bytes)

/-- A host-memory line behind a port (R311). -/
def hostLineOf (port line : Nat) : Bool := decide (0x800 ≤ 128 * line / 2 ^ 40 % 2 ^ 12) && decide (128 * line < 2 ^ 52) && decide (128 * line / 2 ^ 50 % 2 = port)

/-- The addresses of the valid host-kind descriptors of every context. -/
def State.hostDescs (s : State) : List Nat :=
  (s.segsOf .host).map (fun p => s.descAddr p.1 p.2.num)

/-- HOST_WARM_RESTART (R354): of port a; the descriptors of host-kind segments stay cut off from it until they are rewritten -/
def execHostWarmRestart (s : State) : Out :=
  let port := s.arg.a
  if 2 ≤ port then .next s else
  .next { s with pop := s.pop.set port [], portUp := s.portUp.set port false,
                 detached := (s.detached ++ s.hostDescs.map (port * 2 ^ 52 + ·)).eraseDups,
                 hostLines := s.hostLines.filter (fun p => p.1 / 2 ^ 45 != port),
                 dir := dirWithout s.dir (fun _ => true) (fun _ => true) (hostLineOf port) }

/-- HOST_LINK_RETURN (R354): of port a, which is present -/
def execHostLinkReturn (s : State) : Out :=
  if field s.capiod 29 2 ≤ s.arg.a then .next s else .next { s with portUp := s.portUp.set s.arg.a true }

end Sys2Proof.Machine
end

