-- ==== Sys2Proof/Machine/Bringup.lean ====
section
/-! DEFINITION. Power and cooling (R355), image authentication (R356), bring-up (R357). -/

namespace Sys2Proof.Machine

/-- A run of an image's bytes as a number. -/
def imageNum (img : List Byte) (o n : Nat) : Nat := leNat ((img.drop o).take n)

/-- The header tests of R356 in order; the row of the first that fails. -/
def State.imageFails (s : State) (kind : Nat) (img : List Byte) : Option Nat :=
  let key := (img.drop 168).take 96
  let tests : List Bool :=
    [decide (264 ≤ img.length) && imageNum img 0 6 == 0x4E4B5A494D47 && imageNum img 6 1 == 1 && imageNum img 7 1 == kind,
     decide ((s.fuseVersions.getD (kind - 1) 0).toNat ≤ imageNum img 8 8),
     decide (imageNum img 16 8 ≤ 2 ^ 26),
     (img.drop 24).take 48 == leBytes 48 (Config.sha384 ((img.drop 264).take (imageNum img 16 8))).toNat,
     Config.ecdsaP384 key (img.take 72) ((img.drop 72).take 96),
     s.fuseKeys.any (fun k => k.1 == Config.sha384 key && !k.2)]
  (tests.findIdx? (fun t => !t)).map (· + 1)

/-- The first image that fails, in the order of the kinds, and the row of its test. -/
def State.bringUpFails (s : State) (imgs : List (List Byte)) : Option (Nat × Nat) :=
  [1, 2, 3].findSome? (fun kind => (s.imageFails kind (imgs.getD (kind - 1) [])).map (fun row => (kind, row)))

/-- A die as self-test leaves it (R326, R357 step 3). -/
def dieOf (c : DieCaps) : Die :=
  if c.present then { Die.init with present := true, cores := min 80 c.cores, slices := min 16 c.slices, chan := min 64 c.chan, hbm := min 128 c.hbm } else Die.init

/-- A register with a field replaced. -/
def putField (w : DWord) (lo n v : Nat) : DWord := BitVec.ofNat 64 (w.toNat - field w lo n * 2 ^ lo + v % 2 ^ n * 2 ^ lo)

/-- ZS_CAPIOD as self-test leaves it, each field within its range (R326): ports, lanes, second-tier channels and GiB, PCI Express ports, dies. -/
def capIod (w : DWord) (dies : Nat) : DWord :=
  putField (putField (putField (putField (putField (putField 0 57 7 (min 64 (field w 57 7))) 48 9 (min 256 (field w 48 9))) 43 5 (min 16 (field w 43 5)))
    31 12 (min 2048 (field w 31 12))) 29 2 (min 2 (field w 29 2))) 26 3 dies

/-- The package without power keeps its fuses; host memory is the host's. -/
def State.unpowered (s : State) : State :=
  { State.reset with agenda := s.agenda, cycle := s.cycle, freeCtr := s.freeCtr, fuseVersions := s.fuseVersions, fuseKeys := s.fuseKeys,
                     mem := s.mem.filter (fun p => decide (0x800 * 2 ^ 40 ≤ p.1 ∧ p.1 < 2 ^ 52)), out := s.out }

/-- The package after self-test and training (R357 steps 3, 4, 6): capability registers, HBM blank and unassigned, ports present. -/
def State.tested (s : State) (b : BringUp) : State :=
  let dies := (List.range 4).map (fun i => dieOf (b.dies.getD i ⟨false, 0, 0, 0, 0⟩))
  let iod := capIod b.iod (dies.filter (·.present)).length
  { s.unpowered with dies := dies, capiod := iod, portUp := [decide (1 ≤ field iod 29 2), decide (2 ≤ field iod 29 2)] }

/-- The supervisor boot image as it starts (R357 step 7): the bytes that its loading has put into HBM and the second tier, and the privileged registers that partition 0 then has, each as a SYSWR sets it (log 12). -/
def State.booted (s : State) (b : BringUp) : State :=
  let s1 : State := { s with mem := b.bytes.foldl (fun (m : SMap Byte) p => if s.tableUsable p.1 then Memory.write m p.1 p.2 else m) s.mem }
  b.regs.foldl (fun (s : State) r => match s.sysWrite 0 r.1 r.2 with
    | .done s2 _ => s2
    | .fault _ => s
    | .fail s2 _ => s2
    | .wait s2 => s2) s1

/-- Fuses are blown (R356): the digest and the revocation bit of one of the four key slots, the minimum versions of the image kinds; a blown bit stays. DESIGN CHOICE (log 81): the spec fixes no fuse's value; they are blank at reset, and blown from outside. -/
def State.blowFuses (s : State) (slot : Nat) (digest : BitVec 384) (revoked : Bool) (versions : List DWord) : State :=
  let k := s.fuseKeys.getD slot (0, false)
  { s with fuseKeys := s.fuseKeys.set slot (k.1 ||| digest, k.2 || revoked), fuseVersions := s.fuseVersions.zipIdx.map (fun p => p.1 ||| versions.getD p.2 0) }

/-- A configuration request for a register of a function reaches a port that is up (R346, R356): function 0 answers in the recovery state, every function of the sixteen once the package is up. What the register holds is PCI Express's: free bytes (log 81). -/
def State.configRead (s : State) (port fn reg : Nat) : State :=
  let answers := match s.power with
    | .off => false
    | .recovery _ _ => fn == 0
    | .up => decide (fn < 16)
  if !answers || !(s.portUp.getD port false) then s else
  { s with out := s.out ++ [.hostConfig port fn ((List.range 4).map (fun i => Config.freeByte (s.freeCtr + reg + i)))], freeCtr := s.freeCtr + reg + 4 }

/-- POWER_UP (R357): with what `arg.caps` brings; the boot image starts under the recovery queue scheduler (step 7); a failed test stops in the recovery state, with the failing kind and row in BAR0 word 0 -/
def execPowerUp (s : State) : Out :=
  if s.power = .up then .next s else
  match s.bringUpFails s.arg.caps.images with
  | some (kind, row) =>
    let s1 := if kind = 1 then { s.unpowered with portUp := [true, true] } else s.tested s.arg.caps
    .next { s1 with power := .recovery kind row, bar0 := BitVec.ofNat 64 (kind + row * 2 ^ 8) }
  | none => .next { (s.tested s.arg.caps).booted s.arg.caps with power := .up, qsched := 0x801 }

/-- POWER_DOWN (R355) -/
def execPowerDown (s : State) : Out := .next s.unpowered

/-- THERMAL_SHUTDOWN (R355): power is removed in the order of power-down -/
def execThermalShutdown (s : State) : Out := .next s.unpowered

/-- THERMAL_LIMIT (R355): the management core lowers the budgets of dies, `arg.cells` as (die, units) -/
def execThermalLimit (s : State) : Out :=
  .next (s.arg.cells.foldl (fun (s : State) p =>
    if (s.die p.1).present && decide (p.1 < 4 ∧ p.2 ≤ (s.die p.1).budget ∧ s.budgetSum p.1 p.2 ≤ pkgBudget - 3200) then s.setBudget p.1 p.2 else s) s)

end Sys2Proof.Machine
end

