-- ==== Sys2Proof/Machine/CrossLane.lean ====
section
/-! DEFINITION. The cross-lane instructions (R197 to R207). -/

namespace Sys2Proof.Machine

/-- Width code 0 to 3: codes 2 and 3 move a pair (R199). -/
def wideCode (fs : Nat) : Bool := fs == 2 || fs == 3

/-- Register a, or one of its pair, is bound to a stream (R42). -/
def View.streamed (w : View) (wide : Bool) (a : Nat) : Bool := w.g.binds.any (fun b => b.reg == a || (wide && b.reg == a + 1))

/-- The read that taking a from lane k makes for lane l (R197); of a bound register each lane reads its own element (R42). -/
def View.reads (w : View) (f : LW) (l : Nat) (k : Int) : List (Nat × Src) :=
  let wide := wideCode f.e.fs
  if w.streamed wide f.a then (srcV wide f.a f.ea).map (fun x => (l, x)) else
  if k < 0 ∨ (w.g.lanes.length : Int) ≤ k then [] else
  if (w.from wide l k.toNat f.a).isNone then [] else (srcV wide f.a f.ea).map (fun x => (k.toNat, x))

/-- The fill value of a receiving lane (R197). -/
def View.fill (w : View) (f : LW) (l : Nat) : Nat := if 4 ≤ f.e.subop then w.reg (wideCode f.e.fs) l f.e.c else 0
/-- The source c when it holds the fill. -/
def srcFill (f : LW) : List Src := if 4 ≤ f.e.subop then srcV (wideCode f.e.fs) f.e.c false else []
def fillOk (f : LW) : Bool := (decide (4 ≤ f.e.subop) || f.e.c == 0) && evenIf (wideCode f.e.fs && decide (4 ≤ f.e.subop)) f.e.c

/-- Fields that every shuffle shares. -/
def shuffleLegal (f : LW) : Bool :=
  decide (f.e.fs < 4) && evenIf (wideCode f.e.fs) f.d && evenIf (wideCode f.e.fs) f.a && fillOk f

/-- A shuffle: the source lane of each lane, computed exactly (R199), with the out-of-range mask of R198. -/
def shuffle (f : LW) (ok : Bool) (own : List Src) (idx : View → Nat → Int) (s : State) : Out :=
  s.issue fun e =>
    let wide := wideCode f.e.fs
    if !(ok && shuffleLegal f) then e.illegal else
    e.runX f.g (srcV wide f.a f.ea ++ own ++ srcFill f) (own ++ srcFill f ++ dstV wide f.d) (fun w l => w.reads f l (idx w l))
      (fun w l =>
        let k := idx w l
        let out := decide (k < 0 ∨ (e.G : Int) ≤ k)
        let x := if out then w.fill f l else ((w.from wide l k.toNat f.a).getD (w.fill f l))
        ⟨wv wide f.d x, if f.e.subop % 4 = 0 then [] else [(f.e.subop % 4, out)], 0⟩) (fun _ => none) false

/-- b of a shuffle: register form, or an immediate from 0 to 63 (R199). -/
def shflB (f : LW) : Bool := formOk f && (f.e.form == 0 || decide (f.e.imm < 64))

/-- SHFL (R199) -/
def execShfl (f : LW) (s : State) : Out := shuffle f (shflB f) (srcB f false) (fun w l => ((w.bCount f l : Nat) : Int)) s
/-- SHFL.UP (R199) -/
def execShflUp (f : LW) (s : State) : Out := shuffle f (shflB f) (srcB f false) (fun w l => (l : Int) - ((w.bCount f l : Nat) : Int)) s
/-- SHFL.DN (R199) -/
def execShflDn (f : LW) (s : State) : Out := shuffle f (shflB f) (srcB f false) (fun w l => (l : Int) + ((w.bCount f l : Nat) : Int)) s
/-- SHFL.X (R199) -/
def execShflX (f : LW) (s : State) : Out := shuffle f (shflB f) (srcB f false) (fun w l => ((l ^^^ w.bCount f l : Nat) : Int)) s

/-- Fields of PERM (R201). -/
def permLegal (f : LW) : Bool := f.e.form == 1 && f.b == 0 && !f.eb && !f.e.bs && decide (f.e.imm < 256) && f.e.subop % 4 == 0

/-- PERM: a lane of the own slice by four selectors (R201) -/
def execPerm (f : LW) (s : State) : Out :=
  shuffle f (permLegal f) []
    (fun _ l => ((l / 4 * 4 + bits f.e.imm (2 * (l % 4)) 2 : Nat) : Int)) s

/-- BCAST: a uniform source lane (R202) -/
def execBcast (f : LW) (s : State) : Out :=
  shuffle f (shflB f && (f.e.form == 1 || f.e.bs)) (srcB f false) (fun w l => ((w.bCount f l : Nat) : Int)) s

/-- Fields of SWP.PAIR (R200). -/
def swpLegal (f : LW) : Bool :=
  f.e.form == 0 && f.e.imm == 0 && f.b == 0 && !f.eb && !f.e.bs && f.e.fs == 0 && decide (f.e.subop % 4 < 3) && fillOk f

/-- SWP.PAIR: the partner's value, an even lane's with a sign inverted (R200) -/
def execSwpPair (f : LW) (s : State) : Out :=
  s.issue fun e =>
    if !(swpLegal f) then e.illegal else
    e.runX f.g (srcV false f.a f.ea ++ srcFill f) (srcFill f ++ dstV false f.d) (fun w l => w.reads f l ((l ^^^ 1 : Nat) : Int))
      (fun w l =>
        let x := (w.from false l (l ^^^ 1) f.a).getD (w.fill f l)
        let y := if l % 2 = 1 then x else match f.e.subop % 4 with | 1 => x ^^^ 2 ^ 31 | 2 => x ^^^ 2 ^ 15 | _ => x
        ⟨wv false f.d y, [], 0⟩) (fun _ => none) false

/-- The operations of REDU and SCAN on integers of a type (R203). -/
def reduInt (t : IntTy) (op : Nat) (xs : List Nat) : Nat :=
  match op with
  | 0 => xs.foldl (fun a x => low t.n (a + x)) 0
  | 1 => match xs with | [] => ofInt t.n t.largest | x :: r => r.foldl (fun a y => if t.val a ≤ t.val y then a else y) x
  | 2 => match xs with | [] => ofInt t.n t.least | x :: r => r.foldl (fun a y => if t.val a ≤ t.val y then y else a) x
  | 3 => xs.foldl (· &&& ·) (2 ^ t.n - 1)
  | 4 => xs.foldl (· ||| ·) 0
  | _ => xs.foldl (· ^^^ ·) 0

/-- The operations of REDU and SCAN on floats (R148, R203): bits and flags. -/
def reduFloat (t : Fmt) (op mode : Nat) (xs : List Nat) : Nat × Nat :=
  let vs := xs.map t.val
  match op with
  | 0 => if xs.isEmpty then (0, 0) else let r := t.sum mode false vs; (r.1, r.2 ||| sigFlags vs)
  | k => match xs with
    | [] => (t.inf (k == 2), 0)
    | x :: r =>
      let y := r.foldl (fun a y => (t.pick (k == 2) a y).1) x
      (if (t.val y).isNan then t.nan else y, sigFlags vs)

/-- A float flag in [22], rounding in [21:20] of the extension's c field (R203). -/
def reduLegal (f : LW) : Bool :=
  f.e.form == 0 && f.e.imm == 0 && f.b == 0 && !f.eb && decide (f.e.c < 8) && decide (f.e.subop < 6) &&
    (if 4 ≤ f.e.c then decide (f.e.fs < 2) && decide (f.e.subop < 3) && (f.e.subop == 0 || f.e.c % 4 == 0) else f.e.c == 0 && decide (f.e.fs < 4))

/-- The source is 64 bits wide. -/
def reduWide (f : LW) : Bool := if 4 ≤ f.e.c then f.e.fs == 1 else 2 ≤ f.e.fs

/-- The reduction over a list of lanes. -/
def View.redu (w : View) (f : LW) (ls : List Nat) : Nat × Nat :=
  let n := if reduWide f then 64 else 32
  let xs := ls.map (fun l => low n (w.reg (reduWide f) l f.a))
  if 4 ≤ f.e.c then reduFloat (if f.e.fs = 1 then fp64 else fp32) f.e.subop (f.e.c % 4) xs
  else (reduInt (intTy f.e.fs) f.e.subop xs, 0)

/-- Each active lane supplies its own a (R203 to R205). -/
def ownReads (wide : Bool) (f : LW) (_ : View) (l : Nat) : List (Nat × Src) := (srcV wide f.a f.ea).map (fun x => (l, x))

/-- REDU (R203) -/
def execRedu (f : LW) (s : State) : Out :=
  s.issue fun e =>
    let wide := reduWide f
    if !(reduLegal f && evenIf wide f.a && (f.e.bs || evenIf wide f.d)) then e.illegal else
    e.runX f.g (srcV wide f.a f.ea) (if f.e.bs then dstS f.d else dstV wide f.d) (ownReads wide f)
      (fun w _ => let r := w.redu f w.act; ⟨if f.e.bs then [] else wv wide f.d r.1, [], r.2⟩)
      (fun w => if f.e.bs then some (f.d, BitVec.ofNat 64 (w.redu f w.act).1) else none) true

/-- SCAN: an inclusive prefix over the active lanes (R203) -/
def execScan (f : LW) (s : State) : Out :=
  s.issue fun e =>
    let wide := reduWide f
    if !(reduLegal f && !f.e.bs && evenIf wide f.a && evenIf wide f.d) then e.illegal else
    e.runX f.g (srcV wide f.a f.ea) (dstV wide f.d) (ownReads wide f)
      (fun w l => let r := w.redu f (w.act.filter (fun k => decide (k ≤ l))); ⟨wv wide f.d r.1, [], r.2⟩) (fun _ => none) true

/-- The result of a word takes a pair where it is a ballot of a group of 64 lanes (R204). -/
def ballotPair (e : Env) (kind : Nat) : Bool := kind == 0 && e.G == 64
/-- Fields of a vote word (R204). -/
def voteLegal (e : Env) (f : LW) (kind : Nat) : Bool :=
  f.e.form == 0 && f.e.imm == 0 && f.b == 0 && !f.eb && f.e.c == 0 && decide (f.e.fs < 4) && f.e.subop == kind &&
    evenIf (wideCode f.e.fs) f.a && (f.e.bs || evenIf (ballotPair e kind) f.d)

/-- A vote word: its one result, ballot-width or not (R204). -/
def voteWord (f : LW) (kind : Nat) (result : List (Nat × Nat) → Nat) (s : State) : Out :=
  s.issue fun e =>
    let wide := wideCode f.e.fs
    let pairD := ballotPair e kind
    if !(voteLegal e f kind) then e.illegal else
    let r (w : View) : Nat := result (w.act.map (fun l => (l, w.reg wide l f.a)))
    e.runX f.g (srcV wide f.a f.ea) (if f.e.bs then dstS f.d else dstV pairD f.d) (ownReads wide f)
      (fun w _ => ⟨if f.e.bs then [] else wv pairD f.d (r w), [], 0⟩)
      (fun w => if f.e.bs then some (f.d, BitVec.ofNat 64 (r w)) else none) true

/-- VOTE: the ballot (R204) -/
def execVote (f : LW) (s : State) : Out := voteWord f 0 (fun xs => xs.foldl (fun a p => if p.2 = 0 then a else a ||| 2 ^ p.1) 0) s
/-- VOTE.ANY (R204) -/
def execVoteAny (f : LW) (s : State) : Out := voteWord f 1 (fun xs => if xs.any (fun p => p.2 != 0) then 1 else 0) s
/-- VOTE.ALL (R204) -/
def execVoteAll (f : LW) (s : State) : Out := voteWord f 2 (fun xs => if xs.all (fun p => p.2 != 0) then 1 else 0) s
/-- VOTE.UNI (R204) -/
def execVoteUni (f : LW) (s : State) : Out :=
  voteWord f 3 (fun xs => match xs with | [] => 1 | x :: r => if r.all (fun p => p.2 == x.2) then 1 else 0) s

/-- Fields of MCOUNT and MCOUNT.PRE: a numbers a mask (R205). -/
def mcountLegal (f : LW) (pre : Bool) : Bool :=
  f.e.form == 0 && f.e.imm == 0 && f.b == 0 && !f.eb && !f.ea && !f.e.bs && f.e.c == 0 && f.e.fs == 0 &&
    f.e.subop == (if pre then 1 else 0) && decide (f.a < 8)
/-- A mask as MCOUNT reads it: m0 is the active set of the issue (R174, R205). -/
def Env.mask (e : Env) (n : Nat) : DWord := if n = 0 then maskOf e.c.act else e.g.getM n

/-- MCOUNT and MCOUNT.PRE: 1 bits of mN over the group, or below each lane; m0 is the active set of the issue (R205). -/
def mcountWord (f : LW) (pre : Bool) (s : State) : Out :=
  s.issue fun e =>
    if !(mcountLegal f pre) then e.illegal else
    e.runX f.g [] (dstV false f.d) (fun _ _ => [])
      (fun _ l => ⟨wv false f.d (popc (if pre then l else e.G) (e.mask f.a).toNat), [], 0⟩) (fun _ => none) true

/-- MCOUNT (R205) -/
def execMcount (f : LW) (s : State) : Out := mcountWord f false s
/-- MCOUNT.PRE (R205) -/
def execMcountPre (f : LW) (s : State) : Out := mcountWord f true s

/-- Fields of MATCH (R205). -/
def matchLegal (e : Env) (f : LW) : Bool :=
  f.e.form == 0 && f.e.imm == 0 && f.b == 0 && !f.eb && !f.e.bs && f.e.c == 0 && decide (f.e.fs < 4) && f.e.subop == 0 &&
    evenIf (wideCode f.e.fs) f.a && evenIf (e.G == 64) f.d

/-- MATCH: the active lanes that hold the same value, ballot-width (R205) -/
def execMatchI (f : LW) (s : State) : Out :=
  s.issue fun e =>
    let wide := wideCode f.e.fs
    let pairD := e.G == 64
    if !(matchLegal e f) then e.illegal else
    e.runX f.g (srcV wide f.a f.ea) (dstV pairD f.d) (ownReads wide f)
      (fun w l => ⟨wv pairD f.d ((w.act.filter (fun k => w.reg wide k f.a == w.reg wide l f.a)).foldl (fun a k => a ||| 2 ^ k) 0), [], 0⟩)
      (fun _ => none) true

end Sys2Proof.Machine
end

