-- ==== Sys2Proof/Machine/Integer.lean ====
section
/-! DEFINITION. The integer lane instructions (R176 to R184). -/

namespace Sys2Proof.Machine

/-- Fields of an integer word (R176): type 0 or 1, pairs even, c only where it is a source, subop 0. -/
def intLegal (f : LW) (wide cSrc : Bool) : Bool :=
  formOk f && f.e.subop == 0 && (cSrc || f.e.c == 0) && evenIf wide f.d && evenIf wide f.a &&
    (f.e.form == 1 || f.e.bs || evenIf wide f.b) && (!cSrc || evenIf wide f.e.c)


/-- B of an integer word (R173): an immediate by the type's sign. -/
def View.bInt (w : View) (f : LW) (t : IntTy) (l : Nat) : Int :=
  if f.e.form = 1 then (if t.sgn then t.val (sext 16 64 f.e.imm) else ((low t.n f.e.imm : Nat) : Int)) else t.val (w.bBits f t.wide l)

/-- The sources and the destination of an integer word: a, b and, where `cSrc`, c. -/
def intSrcs (f : LW) (cSrc : Bool) : List Src :=
  srcV (LW.ty f).wide f.a f.ea ++ srcB f (LW.ty f).wide ++ (if cSrc then srcV (LW.ty f).wide f.e.c false else []) ++ dstV (LW.ty f).wide f.d

/-- A per-lane integer word with one result of the type: sources a, b and, where `cSrc`, c. -/
def intWord (f : LW) (cSrc : Bool) (op : IntTy → Int → Int → Int → Int) (s : State) : Out :=
  s.issue fun e =>
    let t := LW.ty f
    if !(intLegal f t.wide cSrc) then e.illegal else
    e.run f.g (intSrcs f cSrc) fun w l =>
      let c := if cSrc then t.val (w.reg t.wide l f.e.c) else 0
      .ok ⟨wv t.wide f.d (t.wr (op t (t.val (w.reg t.wide l f.a)) (w.bInt f t l) c)), [], 0⟩

/-- IADD (R177) -/
def execIadd (f : LW) (s : State) : Out := intWord f false (fun _ a b _ => a + b) s
/-- ISUB (R177) -/
def execIsub (f : LW) (s : State) : Out := intWord f false (fun _ a b _ => a - b) s
/-- IMUL (R177) -/
def execImul (f : LW) (s : State) : Out := intWord f false (fun _ a b _ => a * b) s
/-- IMULH: the high N bits of the exact product (R177) -/
def execImulh (f : LW) (s : State) : Out := intWord f false (fun t a b _ => a * b / ((2 ^ t.n : Nat) : Int)) s
/-- IMAD (R177) -/
def execImad (f : LW) (s : State) : Out := intWord f true (fun _ a b c => a * b + c) s
/-- IMIN (R177) -/
def execImin (f : LW) (s : State) : Out := intWord f false (fun _ a b _ => min a b) s
/-- IMAX (R177) -/
def execImax (f : LW) (s : State) : Out := intWord f false (fun _ a b _ => max a b) s

/-- A bitwise operation on the N bits. -/
def bitOp (op : Nat → Nat → Nat) (t : IntTy) (a b : Int) : Int := ((op (ofInt t.n a) (ofInt t.n b) : Nat) : Int)
/-- AND (R177) -/
def execAndI (f : LW) (s : State) : Out := intWord f false (fun t a b _ => bitOp (· &&& ·) t a b) s
/-- OR (R177) -/
def execOrI (f : LW) (s : State) : Out := intWord f false (fun t a b _ => bitOp (· ||| ·) t a b) s
/-- XOR (R177) -/
def execXor (f : LW) (s : State) : Out := intWord f false (fun t a b _ => bitOp (· ^^^ ·) t a b) s

/-- A shift or rotate by B's low log2(N) bits (R177). -/
def shiftOp (kind : Nat) (t : IntTy) (a b : Int) : Int := ((shiftBits kind t.n (ofInt t.n a) (ofInt 64 b % t.n) : Nat) : Int)
/-- SHL (R177) -/
def execShl (f : LW) (s : State) : Out := intWord f false (fun t a b _ => shiftOp 0 t a b) s
/-- SHR (R177) -/
def execShr (f : LW) (s : State) : Out := intWord f false (fun t a b _ => shiftOp 1 t a b) s
/-- SAR (R177) -/
def execSar (f : LW) (s : State) : Out := intWord f false (fun t a b _ => shiftOp 2 t a b) s
/-- ROL (R177) -/
def execRol (f : LW) (s : State) : Out := intWord f false (fun t a b _ => shiftOp 3 t a b) s

/-- Quotient and remainder with the fixed corners (R178). -/
def divide (t : IntTy) (a b : Int) : Int × Int :=
  if b = 0 then (-1, a) else if t.sgn && a == t.least && b == -1 then (a, 0) else (Int.tdiv a b, Int.tmod a b)
/-- IDIV (R178) -/
def execIdiv (f : LW) (s : State) : Out := intWord f false (fun t a b _ => (divide t a b).1) s
/-- IREM (R178) -/
def execIrem (f : LW) (s : State) : Out := intWord f false (fun t a b _ => (divide t a b).2) s

/-- ISAT: min(max(A, B), C) (R182) -/
def execIsat (f : LW) (s : State) : Out := intWord f true (fun _ a b c => min (max a b) c) s

/-- The extracted field of R179, extended by the type's sign. -/
def fieldOf (t : IntTy) (a desc : Nat) : Int :=
  let wid := min (bits desc 8 6) t.n
  let x := low t.n a / 2 ^ bits desc 0 6 % 2 ^ wid
  if t.sgn then toInt wid x else (x : Int)
/-- The base with a field inserted (R179). -/
def insertOf (t : IntTy) (a desc c : Nat) : Nat :=
  let wid := min (bits desc 8 6) t.n
  let pos := bits desc 0 6
  let wid' := min wid (t.n - pos)
  let c0 := low t.n c
  c0 - c0 / 2 ^ pos % 2 ^ wid' * 2 ^ pos + low wid' a * 2 ^ pos

/-- Fields of a word whose b is a field descriptor: no pair in b, and an immediate has no bit outside the two fields (R173, R179). -/
def descLegal (f : LW) (cSrc : Bool) : Bool :=
  formOk f && f.e.subop == 0 && (cSrc || f.e.c == 0) && evenIf (LW.ty f).wide f.d && evenIf (LW.ty f).wide f.a && (!cSrc || evenIf (LW.ty f).wide f.e.c) &&
    (f.e.form != 1 || (bits f.e.imm 6 2 == 0 && bits f.e.imm 14 2 == 0))
def descSrcs (f : LW) (cSrc : Bool) : List Src :=
  srcV (LW.ty f).wide f.a f.ea ++ srcB f false ++ (if cSrc then srcV (LW.ty f).wide f.e.c false else []) ++ dstV (LW.ty f).wide f.d

/-- A word whose b is a field descriptor read whole (R173, R179). -/
def descWord (f : LW) (cSrc : Bool) (op : IntTy → Nat → Nat → Nat → Int) (s : State) : Out :=
  s.issue fun e =>
    let t := LW.ty f
    if !(descLegal f cSrc) then e.illegal else
    e.run f.g (descSrcs f cSrc) fun w l =>
      .ok ⟨wv t.wide f.d (t.wr (op t (w.reg t.wide l f.a) (w.bCount f l) (w.reg t.wide l f.e.c))), [], 0⟩

/-- BFX (R179) -/
def execBfx (f : LW) (s : State) : Out := descWord f false (fun t a d _ => fieldOf t a d) s
/-- BFI (R179) -/
def execBfi (f : LW) (s : State) : Out := descWord f true (fun t a d c => ((insertOf t a d c : Nat) : Int)) s

/-- Fields of SEL: c numbers a mask (R182). -/
def selLegal (f : LW) : Bool :=
  formOk f && f.e.subop == 0 && decide (1 ≤ f.e.c ∧ f.e.c < 8) && evenIf (LW.ty f).wide f.d && evenIf (LW.ty f).wide f.a &&
    (f.e.form == 1 || f.e.bs || evenIf (LW.ty f).wide f.b)
/-- Fields of ICMP: d numbers a mask (R181). -/
def icmpLegal (f : LW) : Bool :=
  formOk f && decide (f.e.subop < 6) && f.e.c == 0 && decide (1 ≤ f.d ∧ f.d < 8) && evenIf (LW.ty f).wide f.a &&
    (f.e.form == 1 || f.e.bs || evenIf (LW.ty f).wide f.b)
/-- Fields of MOV (R183). -/
def movLegal (f : LW) : Bool :=
  f.e.form == 0 && f.e.imm == 0 && f.e.subop == 0 && f.e.c == 0 && evenIf (LW.ty f).wide f.d &&
    (if f.e.bs then f.a == 0 && !f.ea else f.b == 0 && !f.eb && evenIf (LW.ty f).wide f.a)
def movSrcs (f : LW) : List Src := (if f.e.bs then [.s f.b f.eb] else srcV (LW.ty f).wide f.a f.ea) ++ dstV (LW.ty f).wide f.d
/-- Fields of MOVI and MOVI.H (R183). -/
def moviLegal (f : LW) : Bool :=
  f.e.form == 1 && f.a == 0 && !f.ea && f.b == 0 && !f.eb && !f.e.bs && f.e.c == 0
/-- Fields of MOVS (R184). DESIGN CHOICE (log 78): with bs = 0 every type code is accepted, and is without effect. -/
def movsLegal (f : LW) : Bool :=
  f.e.form == 0 && f.e.imm == 0 && decide (f.e.fs < 8) && f.e.c == 0 && f.e.subop == 0 && f.a == 0 && !f.ea && !f.eb &&
    (if f.e.bs then f.e.fs == 0 && decide (1 ≤ f.b ∧ f.b < 7) else decide (f.b < 6))

/-- SEL: by bit l of the mask that c numbers (R182) -/
def execSel (f : LW) (s : State) : Out :=
  s.issue fun e =>
    let t := LW.ty f
    if !(selLegal f) then e.illegal else
    e.run f.g (intSrcs f false) fun w l =>
      let x := if (w.g.getM f.e.c).getLsbD l then t.val (w.reg t.wide l f.a) else w.bInt f t l
      .ok ⟨wv t.wide f.d (t.wr x), [], 0⟩

/-- ICMP: bit l of mN for each active lane (R181) -/
def execIcmp (f : LW) (s : State) : Out :=
  s.issue fun e =>
    let t := LW.ty f
    if !(icmpLegal f) then e.illegal else
    e.run f.g (srcV t.wide f.a f.ea ++ srcB f t.wide) fun w l =>
      .ok ⟨[], [(f.d, intCompare f.e.subop (t.val (w.reg t.wide l f.a)) (w.bInt f t l))], 0⟩

/-- MOV: a v register, or with bs = 1 an s register in b (R183) -/
def execMov (f : LW) (s : State) : Out :=
  s.issue fun e =>
    let t := LW.ty f
    if !(movLegal f) then e.illegal else
    e.run f.g (movSrcs f) fun w l =>
      let x := if f.e.bs then (w.g.getS f.b).toNat else w.reg t.wide l f.a
      .ok ⟨wv t.wide f.d (t.wr (t.val x)), [], 0⟩

/-- MOVI: the immediate extended by the type, then placed (R183) -/
def execMovi (f : LW) (s : State) : Out :=
  s.issue fun e =>
    let t := LW.ty f
    if !(moviLegal f && f.e.subop == 0 && evenIf t.wide f.d) then e.illegal else
    e.run f.g (dstV t.wide f.d) fun w l => .ok ⟨wv t.wide f.d (t.wr (w.bInt f t l)), [], 0⟩

/-- MOVI.H: the high half of d, which is read as a c source is (R183) -/
def execMoviH (f : LW) (s : State) : Out :=
  s.issue fun e =>
    if !(moviLegal f && f.e.subop == 1 && decide (f.e.fs < 2)) then e.illegal else
    e.run f.g [.v f.d false] fun w l => .ok ⟨[(f.d, BitVec.ofNat 32 (low 16 (w.v l f.d) + f.e.imm * 2 ^ 16))], [], 0⟩

/-- The special values of MOVS but the lane index (R184). -/
def Env.special (e : Env) (code : Nat) : Nat :=
  match code with
  | 1 => e.c.grp
  | 2 => e.u.idx
  | 3 => e.u.idx % recGx e.u.record
  | 4 => e.u.idx / recGx e.u.record % recGy e.u.record
  | 5 => e.u.idx / (recGx e.u.record * recGy e.u.record)
  | _ => e.g.regc

/-- MOVS (R184). DESIGN CHOICE (log 78): its type code says nothing about the width of the value or of the destination: a v register receives the low 32 bits. -/
def execMovs (f : LW) (s : State) : Out :=
  s.issue fun e =>
    if !(movsLegal f) then e.illegal else
    if f.e.bs then
      let act := e.guarded f.g
      e.runX f.g [] (dstS f.d) (fun _ _ => []) (fun _ _ => Writes.none)
        (fun _ => if act.isEmpty then none else some (f.d, BitVec.ofNat 64 (e.special f.b))) false
    else
      e.run f.g (dstV false f.d) fun _ l => .ok ⟨[(f.d, BitVec.ofNat 32 (if f.b = 0 then l else e.special f.b))], [], 0⟩

/-- Fields of an integer unary word (R180). -/
def unaryLegal (f : LW) (signedOnly count : Bool) : Bool :=
  f.e.form == 0 && f.e.imm == 0 && f.e.subop == 0 && f.e.c == 0 && !f.e.bs && !f.eb && (!signedOnly || (LW.ty f).sgn) &&
    evenIf (LW.ty f).wide f.a && (count || evenIf (LW.ty f).wide f.d)
def unarySrcs (f : LW) (count : Bool) : List Src := srcV (LW.ty f).wide f.a f.ea ++ dstV ((LW.ty f).wide && !count) f.d

/-- An integer unary word (R180); a count is written to one v register. -/
def unaryWord (f : LW) (signedOnly count : Bool) (op : IntTy → Nat → Int) (s : State) : Out :=
  s.issue fun e =>
    let t := LW.ty f
    if !(unaryLegal f signedOnly count) then e.illegal else
    e.run f.g (unarySrcs f count) fun w l =>
      let r := op t (low t.n (w.reg t.wide l f.a))
      .ok ⟨if count then wv false f.d r.toNat else wv t.wide f.d (t.wr r), [], 0⟩

/-- INEG (R180) -/
def execIneg (f : LW) (s : State) : Out := unaryWord f false false (fun t a => -(t.val a)) s
/-- IABS, iN only (R180) -/
def execIabs (f : LW) (s : State) : Out := unaryWord f true false (fun t a => if t.val a < 0 then -(t.val a) else t.val a) s
/-- NOT (R180) -/
def execNotI (f : LW) (s : State) : Out := unaryWord f false false (fun t a => ((2 ^ t.n - 1 - a : Nat) : Int)) s
/-- POPC (R180) -/
def execPopc (f : LW) (s : State) : Out := unaryWord f false true (fun t a => ((popc t.n a : Nat) : Int)) s
/-- CLZ (R180) -/
def execClz (f : LW) (s : State) : Out := unaryWord f false true (fun t a => ((clz t.n a : Nat) : Int)) s
/-- CTZ (R180) -/
def execCtz (f : LW) (s : State) : Out := unaryWord f false true (fun t a => ((ctz t.n a : Nat) : Int)) s
/-- BREV (R180) -/
def execBrev (f : LW) (s : State) : Out := unaryWord f false false (fun t a => ((brev t.n a : Nat) : Int)) s

end Sys2Proof.Machine
end

