-- ==== Sys2Proof/Machine/Dispatch.lean ====
section
/-! DEFINITION. One arm per instruction or event. -/

namespace Sys2Proof.Machine

/-- What an instruction or an event makes of a state. -/
def exec (i : Instr) (s : State) : Host.Outcome State Fault Refusal :=
  match i with
  | .nop f => Sys2Proof.Machine.execNop f s
  | .ret f => Sys2Proof.Machine.execRet f s
  | .exit f => Sys2Proof.Machine.execExit f s
  | .region f => Sys2Proof.Machine.execRegion f s
  | .ifence f => Sys2Proof.Machine.execIfence f s
  | .bkpt f => Sys2Proof.Machine.execBkpt f s
  | .iadd f => Sys2Proof.Machine.execIadd f s
  | .isub f => Sys2Proof.Machine.execIsub f s
  | .imul f => Sys2Proof.Machine.execImul f s
  | .imulh f => Sys2Proof.Machine.execImulh f s
  | .imad f => Sys2Proof.Machine.execImad f s
  | .idiv f => Sys2Proof.Machine.execIdiv f s
  | .irem f => Sys2Proof.Machine.execIrem f s
  | .imin f => Sys2Proof.Machine.execImin f s
  | .imax f => Sys2Proof.Machine.execImax f s
  | .andI f => Sys2Proof.Machine.execAndI f s
  | .orI f => Sys2Proof.Machine.execOrI f s
  | .xor f => Sys2Proof.Machine.execXor f s
  | .shl f => Sys2Proof.Machine.execShl f s
  | .shr f => Sys2Proof.Machine.execShr f s
  | .sar f => Sys2Proof.Machine.execSar f s
  | .rol f => Sys2Proof.Machine.execRol f s
  | .bfx f => Sys2Proof.Machine.execBfx f s
  | .bfi f => Sys2Proof.Machine.execBfi f s
  | .sel f => Sys2Proof.Machine.execSel f s
  | .icmp f => Sys2Proof.Machine.execIcmp f s
  | .isat f => Sys2Proof.Machine.execIsat f s
  | .mov f => Sys2Proof.Machine.execMov f s
  | .movi f => Sys2Proof.Machine.execMovi f s
  | .moviH f => Sys2Proof.Machine.execMoviH f s
  | .movs f => Sys2Proof.Machine.execMovs f s
  | .ineg f => Sys2Proof.Machine.execIneg f s
  | .iabs f => Sys2Proof.Machine.execIabs f s
  | .notI f => Sys2Proof.Machine.execNotI f s
  | .popc f => Sys2Proof.Machine.execPopc f s
  | .clz f => Sys2Proof.Machine.execClz f s
  | .ctz f => Sys2Proof.Machine.execCtz f s
  | .brev f => Sys2Proof.Machine.execBrev f s
  | .fald f => Sys2Proof.Machine.execFald f s
  | .fast f => Sys2Proof.Machine.execFast f s
  | .faupd f => Sys2Proof.Machine.execFaupd f s
  | .fadwd f => Sys2Proof.Machine.execFadwd f s
  | .fasolvF f => Sys2Proof.Machine.execFasolvF f s
  | .fasolvB f => Sys2Proof.Machine.execFasolvB f s
  | .fasolvG f => Sys2Proof.Machine.execFasolvG f s
  | .fasolvLoo f => Sys2Proof.Machine.execFasolvLoo f s
  | .fadiag f => Sys2Proof.Machine.execFadiag f s
  | .famul f => Sys2Proof.Machine.execFamul f s
  | .famulT f => Sys2Proof.Machine.execFamulT f s
  | .fadd f => Sys2Proof.Machine.execFadd f s
  | .fsub f => Sys2Proof.Machine.execFsub f s
  | .fmul f => Sys2Proof.Machine.execFmul f s
  | .ffma f => Sys2Proof.Machine.execFfma f s
  | .fmin f => Sys2Proof.Machine.execFmin f s
  | .fmax f => Sys2Proof.Machine.execFmax f s
  | .fcmp f => Sys2Proof.Machine.execFcmp f s
  | .fdiv f => Sys2Proof.Machine.execFdiv f s
  | .fscl f => Sys2Proof.Machine.execFscl f s
  | .fabs f => Sys2Proof.Machine.execFabs f s
  | .fneg f => Sys2Proof.Machine.execFneg f s
  | .fsqrt f => Sys2Proof.Machine.execFsqrt f s
  | .frcp f => Sys2Proof.Machine.execFrcp f s
  | .frsq f => Sys2Proof.Machine.execFrsq f s
  | .fexp2 f => Sys2Proof.Machine.execFexp2 f s
  | .flog2 f => Sys2Proof.Machine.execFlog2 f s
  | .fclass f => Sys2Proof.Machine.execFclass f s
  | .frnd f => Sys2Proof.Machine.execFrnd f s
  | .fgete f => Sys2Proof.Machine.execFgete f s
  | .sinT f => Sys2Proof.Machine.execSinT f s
  | .cosT f => Sys2Proof.Machine.execCosT f s
  | .sincosT f => Sys2Proof.Machine.execSincosT f s
  | .fredT f => Sys2Proof.Machine.execFredT f s
  | .cvt f => Sys2Proof.Machine.execCvt f s
  | .cvti f => Sys2Proof.Machine.execCvti f s
  | .qpack f => Sys2Proof.Machine.execQpack f s
  | .qunpk f => Sys2Proof.Machine.execQunpk f s
  | .had f => Sys2Proof.Machine.execHad f s
  | .shfl f => Sys2Proof.Machine.execShfl f s
  | .shflUp f => Sys2Proof.Machine.execShflUp f s
  | .shflDn f => Sys2Proof.Machine.execShflDn f s
  | .shflX f => Sys2Proof.Machine.execShflX f s
  | .swpPair f => Sys2Proof.Machine.execSwpPair f s
  | .perm f => Sys2Proof.Machine.execPerm f s
  | .bcast f => Sys2Proof.Machine.execBcast f s
  | .redu f => Sys2Proof.Machine.execRedu f s
  | .scan f => Sys2Proof.Machine.execScan f s
  | .vote f => Sys2Proof.Machine.execVote f s
  | .voteAny f => Sys2Proof.Machine.execVoteAny f s
  | .voteAll f => Sys2Proof.Machine.execVoteAll f s
  | .voteUni f => Sys2Proof.Machine.execVoteUni f s
  | .mcount f => Sys2Proof.Machine.execMcount f s
  | .mcountPre f => Sys2Proof.Machine.execMcountPre f s
  | .matchI f => Sys2Proof.Machine.execMatchI f s
  | .ld f => Sys2Proof.Machine.execLd f s
  | .st f => Sys2Proof.Machine.execSt f s
  | .lds f => Sys2Proof.Machine.execLds f s
  | .sts f => Sys2Proof.Machine.execSts f s
  | .ldv f => Sys2Proof.Machine.execLdv f s
  | .stv f => Sys2Proof.Machine.execStv f s
  | .ldj f => Sys2Proof.Machine.execLdj f s
  | .ldjNb f => Sys2Proof.Machine.execLdjNb f s
  | .stj f => Sys2Proof.Machine.execStj f s
  | .pref f => Sys2Proof.Machine.execPref f s
  | .mka f => Sys2Proof.Machine.execMka f s
  | .segno f => Sys2Proof.Machine.execSegno f s
  | .segof f => Sys2Proof.Machine.execSegof f s
  | .chka f => Sys2Proof.Machine.execChka f s
  | .ldl f => Sys2Proof.Machine.execLdl f s
  | .amoAdd f => Sys2Proof.Machine.execAmoAdd f s
  | .amoMin f => Sys2Proof.Machine.execAmoMin f s
  | .amoMax f => Sys2Proof.Machine.execAmoMax f s
  | .amoAnd f => Sys2Proof.Machine.execAmoAnd f s
  | .amoOr f => Sys2Proof.Machine.execAmoOr f s
  | .amoXor f => Sys2Proof.Machine.execAmoXor f s
  | .amoXchg f => Sys2Proof.Machine.execAmoXchg f s
  | .amoJoin f => Sys2Proof.Machine.execAmoJoin f s
  | .amoc f => Sys2Proof.Machine.execAmoc f s
  | .amof f => Sys2Proof.Machine.execAmof f s
  | .fence f => Sys2Proof.Machine.execFence f s
  | .bar f => Sys2Proof.Machine.execBar f s
  | .barArrive f => Sys2Proof.Machine.execBarArrive f s
  | .barWait f => Sys2Proof.Machine.execBarWait f s
  | .cbacq f => Sys2Proof.Machine.execCbacq f s
  | .cbrel f => Sys2Proof.Machine.execCbrel f s
  | .waittl f => Sys2Proof.Machine.execWaittl f s
  | .br f => Sys2Proof.Machine.execBr f s
  | .jmp f => Sys2Proof.Machine.execJmp f s
  | .brx f => Sys2Proof.Machine.execBrx f s
  | .brxCall f => Sys2Proof.Machine.execBrxCall f s
  | .call f => Sys2Proof.Machine.execCall f s
  | .trapu f => Sys2Proof.Machine.execTrapu f s
  | .spbind f => Sys2Proof.Machine.execSpbind f s
  | .sprel f => Sys2Proof.Machine.execSprel f s
  | .mma f => Sys2Proof.Machine.execMma f s
  | .mmaD f => Sys2Proof.Machine.execMmaD f s
  | .mmai f => Sys2Proof.Machine.execMmai f s
  | .tld f => Sys2Proof.Machine.execTld f s
  | .tst f => Sys2Proof.Machine.execTst f s
  | .tread f => Sys2Proof.Machine.execTread f s
  | .twrite f => Sys2Proof.Machine.execTwrite f s
  | .optionalOpcode n f => Sys2Proof.Machine.execOptionalOpcode n f s
  | .saddGr f => Sys2Proof.Machine.execSaddGr f s
  | .ssubGr f => Sys2Proof.Machine.execSsubGr f s
  | .smulGr f => Sys2Proof.Machine.execSmulGr f s
  | .sandGr f => Sys2Proof.Machine.execSandGr f s
  | .sorGr f => Sys2Proof.Machine.execSorGr f s
  | .sxorGr f => Sys2Proof.Machine.execSxorGr f s
  | .sshlGr f => Sys2Proof.Machine.execSshlGr f s
  | .sshrN64Gr f => Sys2Proof.Machine.execSshrN64Gr f s
  | .sshrI64Gr f => Sys2Proof.Machine.execSshrI64Gr f s
  | .sminI64Gr f => Sys2Proof.Machine.execSminI64Gr f s
  | .sminN64Gr f => Sys2Proof.Machine.execSminN64Gr f s
  | .smaxI64Gr f => Sys2Proof.Machine.execSmaxI64Gr f s
  | .smaxN64Gr f => Sys2Proof.Machine.execSmaxN64Gr f s
  | .smov f => Sys2Proof.Machine.execSmov f s
  | .saddGi f => Sys2Proof.Machine.execSaddGi f s
  | .ssubGi f => Sys2Proof.Machine.execSsubGi f s
  | .smulGi f => Sys2Proof.Machine.execSmulGi f s
  | .sandGi f => Sys2Proof.Machine.execSandGi f s
  | .sorGi f => Sys2Proof.Machine.execSorGi f s
  | .sxorGi f => Sys2Proof.Machine.execSxorGi f s
  | .sshlGi f => Sys2Proof.Machine.execSshlGi f s
  | .sshrN64Gi f => Sys2Proof.Machine.execSshrN64Gi f s
  | .sshrI64Gi f => Sys2Proof.Machine.execSshrI64Gi f s
  | .sminI64Gi f => Sys2Proof.Machine.execSminI64Gi f s
  | .sminN64Gi f => Sys2Proof.Machine.execSminN64Gi f s
  | .smaxI64Gi f => Sys2Proof.Machine.execSmaxI64Gi f s
  | .smaxN64Gi f => Sys2Proof.Machine.execSmaxN64Gi f s
  | .smoviGi f => Sys2Proof.Machine.execSmoviGi f s
  | .scmpGi f => Sys2Proof.Machine.execScmpGi f s
  | .saddGl f => Sys2Proof.Machine.execSaddGl f s
  | .ssubGl f => Sys2Proof.Machine.execSsubGl f s
  | .smulGl f => Sys2Proof.Machine.execSmulGl f s
  | .sandGl f => Sys2Proof.Machine.execSandGl f s
  | .sorGl f => Sys2Proof.Machine.execSorGl f s
  | .sxorGl f => Sys2Proof.Machine.execSxorGl f s
  | .sshlGl f => Sys2Proof.Machine.execSshlGl f s
  | .sshrN64Gl f => Sys2Proof.Machine.execSshrN64Gl f s
  | .sshrI64Gl f => Sys2Proof.Machine.execSshrI64Gl f s
  | .sminI64Gl f => Sys2Proof.Machine.execSminI64Gl f s
  | .sminN64Gl f => Sys2Proof.Machine.execSminN64Gl f s
  | .smaxI64Gl f => Sys2Proof.Machine.execSmaxI64Gl f s
  | .smaxN64Gl f => Sys2Proof.Machine.execSmaxN64Gl f s
  | .smoviGl f => Sys2Proof.Machine.execSmoviGl f s
  | .scmpGl f => Sys2Proof.Machine.execScmpGl f s
  | .scmpGr f => Sys2Proof.Machine.execScmpGr f s
  | .ssel f => Sys2Proof.Machine.execSsel f s
  | .sld f => Sys2Proof.Machine.execSld f s
  | .sst f => Sys2Proof.Machine.execSst f s
  | .sbr f => Sys2Proof.Machine.execSbr f s
  | .sjmp f => Sys2Proof.Machine.execSjmp f s
  | .scall f => Sys2Proof.Machine.execScall f s
  | .sret f => Sys2Proof.Machine.execSret f s
  | .cvsetGi f => Sys2Proof.Machine.execCvsetGi f s
  | .cvsetGl f => Sys2Proof.Machine.execCvsetGl f s
  | .dqpush f => Sys2Proof.Machine.execDqpush f s
  | .dqpop f => Sys2Proof.Machine.execDqpop f s
  | .cpy f => Sys2Proof.Machine.execCpy f s
  | .cpy2d f => Sys2Proof.Machine.execCpy2d f s
  | .cpyg f => Sys2Proof.Machine.execCpyg f s
  | .chain f => Sys2Proof.Machine.execChain f s
  | .coll f => Sys2Proof.Machine.execColl f s
  | .post f => Sys2Proof.Machine.execPost f s
  | .stl f => Sys2Proof.Machine.execStl f s
  | .permit f => Sys2Proof.Machine.execPermit f s
  | .permq f => Sys2Proof.Machine.execPermq f s
  | .sploop f => Sys2Proof.Machine.execSploop f s
  | .spset f => Sys2Proof.Machine.execSpset f s
  | .tzero f => Sys2Proof.Machine.execTzero f s
  | .tcvt f => Sys2Proof.Machine.execTcvt f s
  | .ttr f => Sys2Proof.Machine.execTtr f s
  | .fainit f => Sys2Proof.Machine.execFainit f s
  | .fascl f => Sys2Proof.Machine.execFascl f s
  | .ymset f => Sys2Proof.Machine.execYmset f s
  | .ymsetFirst f => Sys2Proof.Machine.execYmsetFirst f s
  | .xmset f => Sys2Proof.Machine.execXmset f s
  | .xmsetFirst f => Sys2Proof.Machine.execXmsetFirst f s
  | .wbld f => Sys2Proof.Machine.execWbld f s
  | .wbfree f => Sys2Proof.Machine.execWbfree f s
  | .sysrd f => Sys2Proof.Machine.execSysrd f s
  | .syswr f => Sys2Proof.Machine.execSyswr f s
  | .trap f => Sys2Proof.Machine.execTrap f s
  | .tlbinv f => Sys2Proof.Machine.execTlbinv f s
  | .icinv f => Sys2Proof.Machine.execIcinv f s
  | .bindinv f => Sys2Proof.Machine.execBindinv f s
  | .segrev f => Sys2Proof.Machine.execSegrev f s
  | .unitsave f => Sys2Proof.Machine.execUnitsave f s
  | .unitload f => Sys2Proof.Machine.execUnitload f s
  | .preempt f => Sys2Proof.Machine.execPreempt f s
  | .cancel f => Sys2Proof.Machine.execCancel f s
  | .cntrd f => Sys2Proof.Machine.execCntrd f s
  | .cntrdSt f => Sys2Proof.Machine.execCntrdSt f s
  | .zerobuf f => Sys2Proof.Machine.execZerobuf f s
  | .diectlReadState f => Sys2Proof.Machine.execDiectlReadState f s
  | .diectlWriteBack f => Sys2Proof.Machine.execDiectlWriteBack f s
  | .diectlSelfRefreshEntry f => Sys2Proof.Machine.execDiectlSelfRefreshEntry f s
  | .diectlSelfRefreshExit f => Sys2Proof.Machine.execDiectlSelfRefreshExit f s
  | .diectlResetDieLogic f => Sys2Proof.Machine.execDiectlResetDieLogic f s
  | .diectlRetrainUcie f => Sys2Proof.Machine.execDiectlRetrainUcie f s
  | .quiesce f => Sys2Proof.Machine.execQuiesce f s
  | .admitI f => Sys2Proof.Machine.execAdmit f s
  | .sluiceset f => Sys2Proof.Machine.execSluiceset f s
  | .mbxbind f => Sys2Proof.Machine.execMbxbind f s
  | .zsQsched => Sys2Proof.Machine.execZsQsched s
  | .zsFlipToHost => Sys2Proof.Machine.execZsFlipToHost s
  | .zsFlipToDevice => Sys2Proof.Machine.execZsFlipToDevice s
  | .zsPartapply => Sys2Proof.Machine.execZsPartapply s
  | .loadValueArrival => Sys2Proof.Machine.execLoadValueArrival s
  | .registerSpill => Sys2Proof.Machine.execRegisterSpill s
  | .registerFill => Sys2Proof.Machine.execRegisterFill s
  | .streamFetch => Sys2Proof.Machine.execStreamFetch s
  | .homeApply => Sys2Proof.Machine.execHomeApply s
  | .storeCommit => Sys2Proof.Machine.execStoreCommit s
  | .directoryEviction => Sys2Proof.Machine.execDirectoryEviction s
  | .fenceCompletion => Sys2Proof.Machine.execFenceCompletion s
  | .fenceRollback => Sys2Proof.Machine.execFenceRollback s
  | .postedStoreAcknowledgement => Sys2Proof.Machine.execPostedStoreAcknowledgement s
  | .peerReply => Sys2Proof.Machine.execPeerReply s
  | .peerAccess => Sys2Proof.Machine.execPeerAccess s
  | .routeTimeout => Sys2Proof.Machine.execRouteTimeout s
  | .ferryRoundStart => Sys2Proof.Machine.execFerryRoundStart s
  | .ferryChunkReceive => Sys2Proof.Machine.execFerryChunkReceive s
  | .domainRound => Sys2Proof.Machine.execDomainRound s
  | .replicatedUpdate => Sys2Proof.Machine.execReplicatedUpdate s
  | .engineCommandComplete => Sys2Proof.Machine.execEngineCommandComplete s
  | .engineCommandFault => Sys2Proof.Machine.execEngineCommandFault s
  | .engineFaultRetry => Sys2Proof.Machine.execEngineFaultRetry s
  | .sluiceGrant => Sys2Proof.Machine.execSluiceGrant s
  | .sluicePromotion => Sys2Proof.Machine.execSluicePromotion s
  | .matrixOperationComplete => Sys2Proof.Machine.execMatrixOperationComplete s
  | .mailboxFiring => Sys2Proof.Machine.execMailboxFiring s
  | .recoveryQuantum => Sys2Proof.Machine.execRecoveryQuantum s
  | .bargePlacement => Sys2Proof.Machine.execBargePlacement s
  | .idleUnitSave => Sys2Proof.Machine.execIdleUnitSave s
  | .effectivePriorityRaise => Sys2Proof.Machine.execEffectivePriorityRaise s
  | .levellingExchange => Sys2Proof.Machine.execLevellingExchange s
  | .stopSave => Sys2Proof.Machine.execStopSave s
  | .binderResolution => Sys2Proof.Machine.execBinderResolution s
  | .revokedSegmentService => Sys2Proof.Machine.execRevokedSegmentService s
  | .optionalEmulation => Sys2Proof.Machine.execOptionalEmulation s
  | .serviceReturn => Sys2Proof.Machine.execServiceReturn s
  | .serviceAbandon => Sys2Proof.Machine.execServiceAbandon s
  | .serviceEscalate => Sys2Proof.Machine.execServiceEscalate s
  | .inboundPostedWrite => Sys2Proof.Machine.execInboundPostedWrite s
  | .inboundRead => Sys2Proof.Machine.execInboundRead s
  | .cxlMemRequest => Sys2Proof.Machine.execCxlMemRequest s
  | .hostSnoop => Sys2Proof.Machine.execHostSnoop s
  | .hostWarmRestart => Sys2Proof.Machine.execHostWarmRestart s
  | .powerUp => Sys2Proof.Machine.execPowerUp s
  | .thermalLimit => Sys2Proof.Machine.execThermalLimit s
  | .thermalShutdown => Sys2Proof.Machine.execThermalShutdown s
  | .bindingSearchRepeat => Sys2Proof.Machine.execBindingSearchRepeat s
  | .bindingAbandon => Sys2Proof.Machine.execBindingAbandon s
  | .failedContextClear => Sys2Proof.Machine.execFailedContextClear s
  | .ovoftLinkLoss => Sys2Proof.Machine.execOvoftLinkLoss s
  | .ovoftLinkReturn => Sys2Proof.Machine.execOvoftLinkReturn s
  | .hostLinkReturn => Sys2Proof.Machine.execHostLinkReturn s
  | .powerDown => Sys2Proof.Machine.execPowerDown s

end Sys2Proof.Machine
end

