-- ==== Sys2Proof/Machine/Fetch.lean ====
section
/-! DEFINITION. Fetching (R30 to R39, R126, R127, R156): how the broadcast forms, towlines, loop buffers and the instruction buffer, which word an issue executes and in which cycle, group words that wait or meet; and the machine that holds one given instruction where its next step fetches. -/

namespace Sys2Proof.Machine

/-! The broadcast (R34, R35). -/

/-- A lane parked at a group word. -/
def LaneSt.atGroupWord : LaneSt → Bool
  | .parked .groupWord _ _ => true
  | _ => false

/-- Every live lane, and there is one, is parked at a group word. -/
def Group.allAtWords (g : Group) : Bool := !g.liveLanes.isEmpty && g.liveLanes.all (fun l => (g.lane l).st.atGroupWord)

/-- The broadcast address is set; a towline that begins elsewhere is discarded (R39). -/
def Group.moveTo (g : Group) (pc : Nat) : Group := { g with bcast := pc, tow := if (g.tow.head?.map (·.pc)) = some pc then g.tow else [] }

/-- Without a subscribed lane the broadcast forms at the lowest live, unparked lane, or at the group word of the lowest live lane where all are parked at group words (R35). -/
def Group.form (g : Group) (bad : List Nat) : Group :=
  if !g.subscribed.isEmpty then g else
  match (g.which (·.st == .priv)).filter (fun l => !(bad.contains l)) with
  | l :: _ => g.moveTo (g.lane l).pc
  | [] => if g.allAtWords then g.moveTo (g.lane (g.liveLanes.headD 0)).pc else g

/-- A broadcast fetch: private lanes whose program counter is the broadcast address subscribe (R34). -/
def Group.rejoin (g : Group) (bad : List Nat) : Group :=
  g.setLanes (g.which (fun x => x.st == .priv && x.pc == g.bcast) |>.filter (fun l => !(bad.contains l))) (fun _ x => { x with st := .subscribed })

/-! Words. -/

/-- What fetching comes to; `short` is an instruction of two words whose second cannot be fetched. -/
inductive Words where
  | wait
  | fault (f : LFault)
  | short (e : Env) (w0 : Nat) (f : LFault)
  | ok (e : Env) (w : TowWord)
  deriving DecidableEq, Repr

/-- The checked fetch of one word of segment 0x05 (R59, R156). -/
def Env.codeAcc (e : Env) (off : Nat) : Except LFault Acc :=
  match e.s.access e.u e.c.grp 0 { seg := 5, off := ((off : Nat) : Int), n := 4, align := 4, rd := false, wr := false, at_ := false, ex := true, use := .cells } with
  | .error b => .error (badFault b (addrOf 5 ((off : Nat) : Int)) 0)
  | .ok acc => .ok acc

/-- What the die's instruction cache holds for an instruction, if it came from the words' homes at these keys. -/
def Die.holds (d : Die) (k0 k1 : Nat) : Option CodeWords := (AMap.get? d.icache k0).filter (fun c => c.key1 == k1)

/-- One fetch of an instruction at an offset: both its words from the die's instruction cache, or both from their homes, where a pending byte waits for its commit (R107, R127, R156). -/
def Env.read (e : Env) (off : Nat) : Words :=
  match e.codeAcc off with
  | .error f => .fault f
  | .ok a0 =>
    let k0 := a0.keys.headD 0
    let d := e.s.die e.u.die
    let pending (acc : Acc) : Bool := e.s.pend.any (fun p => p.keys.any acc.keys.contains)
    let word (acc : Acc) : Word := BitVec.ofNat 32 (leNat (acc.keys.map (Memory.read e.s.mem)))
    let fresh := (AMap.get? d.icache k0).isNone
    let w0 : Word := match AMap.get? d.icache k0 with | some c => c.w0 | none => word a0
    let keep (s : State) (c : CodeWords) : State := s.setDie e.u.die { d with icache := AMap.set d.icache k0 c }
    let s0 := e.s.learnAt e.u.core a0.tlb
    if fresh && pending a0 then .wait else
    if wordCount w0.toNat = 1 then .ok { e with s := if fresh then keep s0 ⟨w0, k0, w0⟩ else s0 } ⟨off, 4, w0.toNat, 0⟩ else
    match e.codeAcc (off + 4) with
    | .error f => .short { e with s := s0 } w0.toNat f
    | .ok a1 =>
      let k1 := a1.keys.headD 0
      match d.holds k0 k1 with
      | some c => .ok { e with s := s0.learnAt e.u.core a1.tlb } ⟨off, 8, c.w0.toNat, c.w1.toNat⟩
      | none =>
        if pending a0 || pending a1 then .wait else
        .ok { e with s := keep (s0.learnAt e.u.core a1.tlb) ⟨word a0, k1, word a1⟩ } ⟨off, 4 * wordCount (word a0).toNat, (word a0).toNat, if wordCount (word a0).toNat = 1 then 0 else (word a1).toNat⟩

/-- What an issue move comes to before `exec`. -/
inductive Fetched where
  /-- nothing can issue -/
  | idle
  /-- the fetch settles it: a fault, a park, a wait -/
  | done (s : State)
  /-- the instruction executes in the state, whose `cur` describes the issue -/
  | run (s : State) (i : Instr)
  deriving DecidableEq, Repr

/-- A group word (R155). -/
def isGroupWord (w0 : Nat) : Bool := bits w0 31 1 == 1

/-- The issue of a word. -/
def Env.with_ (e : Env) (w : TowWord) : Env := { e with c := { e.c with w0 := w.w0, w1 := w.w1, len := 4 * wordCount w.w0 } }

/-- A fetch fails for lanes that stand at the address (R156, R171). -/
def Env.fetchFault (e : Env) (ls : List Nat) (f : LFault) : Fetched := .done (stateOf e.s (Env.faultAll { e with c := { e.c with act := ls } } f))

/-- An issue goes to `exec`; words that decode to nothing fault, a group word once its lanes' fences have completed (R113): 0x15, or 0x16 first where a system word's function is unassigned and the unit is no supervisor unit (R170). -/
def Env.go (e : Env) : Fetched :=
  match decodeWords e.c.w0 e.c.w1 with
  | some i => .run { e.out with cur := some e.c } i
  | none =>
    if isGroupWord e.c.w0 then
      if !e.g.fences.isEmpty then .done e.out else
      .done (stateOf e.s (if decide (0x50 ≤ bits e.c.w0 24 7 ∧ bits e.c.w0 24 7 ≤ 0x61) && !(recSup e.u.record) then e.groupFault (lf 0x16 e.words false) else e.groupIllegal))
    else .done (stateOf e.s e.illegal)

/-- The convergence error of R38: every live lane receives a record with its own program counter. -/
def Env.meetError (e : Env) (bcast : Nat) : Fetched := .done (Env.stop e (e.g.liveLanes.map (fun l => (l, lf 0x0A bcast false)))).out

/-- A lane parked at a group word other than the broadcast's (R38). -/
def Group.strayed (g : Group) : Bool := g.liveLanes.any (fun l => (g.lane l).st.atGroupWord && (g.lane l).pc != g.bcast)

/-- Every live lane stands at the broadcast's group word (R37). -/
def Group.converged (g : Group) : Bool :=
  g.liveLanes.all (fun l => let x := g.lane l; x.pc == g.bcast && (match x.st with | .parked .groupWord _ _ => true | .parked _ _ _ => false | _ => true))

/-- The broadcast stands at a group word: it executes where the group has converged, as one in which a lane has faulted has not, and waits else (R37, R51, R284). -/
def Env.atWord (e : Env) (k : Env → Fetched) : Fetched :=
  if !(e.u.faulted e.c.grp).isEmpty then .done e.out else
  if e.g.converged then k { e with c := { e.c with by_ := .group, act := e.g.liveLanes } }
  else if e.g.strayed then e.meetError e.g.bcast else .done e.out

/-- The offset stands in the core's instruction buffer (R32). -/
def Group.buffered (g : Group) (off : Nat) : Group := if g.ibuf.contains off then g else { g with ibuf := g.ibuf ++ [off] }

/-- The next word of the broadcast: the towline's first, or fetched (R39). -/
def Env.nextWord (e : Env) : Words :=
  match e.g.tow with
  | w :: _ => if w.pc = e.g.bcast then .ok e w else e.read e.g.bcast
  | [] => e.read e.g.bcast

/-- An issue of the broadcast. -/
def Env.broadcast (s : State) (u : WorkUnit) (uid grp : Nat) (g0 : Group) : Fetched :=
  let bad := u.faulted grp
  let g := (g0.form bad).rejoin bad
  let subs := g.subscribed
  if subs.isEmpty && !g.allAtWords then .idle else
  let here := g.liveLanes.filter (fun l => (g.lane l).pc == g.bcast)
  let e : Env := ⟨s, { uid := uid, grp := grp, by_ := .broadcast, act := subs, pc := g.bcast, len := 4, w0 := 0, w1 := 0 }, u, g.buffered g.bcast⟩
  let ls := if subs.isEmpty then here else subs
  match e.nextWord with
  | .wait => .idle
  | .fault f => e.fetchFault ls f
  | .short e1 w0 f =>
    let e2 := e1.with_ ⟨g.bcast, 8, w0, 0⟩
    if isGroupWord w0 then e2.atWord (fun e => .done (if e.g.fences.isEmpty then stateOf e.s (e.groupFault f) else e.out)) else e2.fetchFault ls f
  | .ok e1 w =>
    let e2 := e1.with_ w
    if isGroupWord w.w0 then e2.atWord Env.go
    -- without a subscribed lane the code at a parked lane's group word has changed: its lanes execute what stands there
    else if subs.isEmpty then Env.go { e2 with c := { e2.c with act := here }, g := e2.g.setLanes here (fun _ x => { x with st := .subscribed }) }
    else e2.go

/-- The word at a lane's program counter, where its loop buffer holds it (R33). -/
def Lane.word (x : Lane) : Option TowWord := x.loop.find? (fun w => w.pc == x.pc)

/-- The broadcast waits at a group word. -/
def Env.waits (e : Env) : Bool :=
  e.g.tow.isEmpty && (match e.read e.g.bcast with | .ok _ w => isGroupWord w.w0 | .short _ w0 _ => isGroupWord w0 | _ => false)

/-- The private lanes of lane l's slice that stand at its address (R30). -/
def Group.besides (g : Group) (bad : List Nat) (l : Nat) : List Nat :=
  (g.which (fun x => x.st == .priv && x.pc == (g.lane l).pc)).filter (fun k => k / 4 == l / 4 && !(bad.contains k))

/-- An issue of lanes of one slice: the word goes on for those of a blocked word that can read their registers now, a cross-lane word for all of its lanes (R44, R197, R288); or the private lanes at lane l's address, once the loop buffers of all of them hold it, issue the word that the lowest's holds (R30, R31, R33; log 74), and at a group word they park (R37). -/
def Env.alone (s : State) (u : WorkUnit) (uid grp : Nat) (g : Group) (l : Nat) : Fetched :=
  let bad := u.faulted grp
  let x := g.lane l
  let at_ (act : List Nat) (pc : Nat) : Env := ⟨s, { uid := uid, grp := grp, by_ := .slice (l / 4), act := act, pc := pc, len := 4, w0 := 0, w1 := 0 }, u, g⟩
  if bad.contains l then .idle else
  if g.due l then
    (match g.blockedOf l with
    | none => .idle
    | some b =>
      if isGroupWord b.w0 then .idle else
      let e := at_ ((List.range g.lanes.length).filter (fun k => b.lanes.contains k && (!b.whole.isEmpty || (k / 4 == l / 4 && g.due k)))) b.pc
      Env.go { e with c := { e.c with len := 4 * wordCount b.w0, w0 := b.w0, w1 := b.w1, again := true, held := b.held } })
  else if x.st != .priv || g.subscribed.isEmpty then .idle else
  let act := g.besides bad l
  let e := at_ act x.pc
  match act.find? (fun k => (g.lane k).word.isNone) with
  | some _ =>
    (match e.read x.pc with
    | .fault f => e.fetchFault act f
    | .short _ w0 f => if isGroupWord w0 then .idle else e.fetchFault act f
    | _ => .idle)
  | none =>
    match act.head?.bind (fun k => (g.lane k).word) with
    | none => .idle
    | some w =>
      if isGroupWord w.w0 then
        let e1 := { e with g := g.setLanes act (fun _ y => { y with st := .parked .groupWord 0 x.pc }) }
        if e1.g.strayed && e1.waits then e1.meetError e1.g.bcast else .done e1.out
      else (e.with_ w).go

/-! The tug ahead of the broadcast (R39), the prefetcher (R33), the instruction buffer (R32), the pages behind segment 0x03 (R344). -/

/-- A group of a resident unit that has not stopped, as a party that fetches. -/
def State.fetcher (s : State) (uid grp : Nat) : Option Env :=
  match (s.unit? uid).bind (fun u => (u.group grp).map (fun g => (u, g))) with
  | none => none
  | some (u, g) =>
    if u.res != .resident || u.stopAt.isSome then none else
    some ⟨s, { uid := uid, grp := grp, by_ := .broadcast, act := [], pc := g.bcast, len := 4, w0 := 0, w1 := 0 }, u, g⟩

/-- The tug takes the next lane word of the stream into the towline, which DQPUSH values fill as well: not beyond 32 entries, nor past a group word (R39). DESIGN CHOICE (log 72): the stream goes on in code order. -/
def State.ahead (s : State) (uid grp : Nat) : State :=
  match s.fetcher uid grp with
  | none => s
  | some e =>
    if 32 ≤ e.g.tow.length + e.g.dq.length then s else
    match e.read (match e.g.tow.getLast? with | some w => w.pc + w.len | none => e.g.bcast) with
    | .ok e1 w => if isGroupWord w.w0 then s else Env.out { e1 with g := { e1.g.buffered w.pc with tow := e1.g.tow ++ [w] } }
    | _ => s

/-- What a loop buffer holds from an address on, in code order. -/
def runFrom (loop : List TowWord) : Nat → Nat → List TowWord
  | 0, _ => []
  | n + 1, pc => match loop.find? (fun w => w.pc == pc) with | some w => w :: runFrom loop n (pc + w.len) | none => []

/-- The words that entries take. -/
def wordsOf (ws : List TowWord) : Nat := (ws.map (fun w => w.len / 4)).sum

/-- Entries without the oldest, as far as they have more words than given. -/
def newest (n : Nat) : List TowWord → List TowWord
  | [] => []
  | w :: ws => if wordsOf (w :: ws) ≤ n then w :: ws else newest n ws

/-- A loop buffer takes one more instruction ahead of a program counter: older words that do not stand there give way (R33). -/
def loopWith (loop : List TowWord) (pc : Nat) (w : TowWord) : List TowWord :=
  let run := runFrom loop 48 pc
  newest (48 - wordsOf (run ++ [w])) (loop.filter (fun x => !(run.contains x) && x.pc != w.pc)) ++ run ++ [w]

/-- The prefetcher brings a private lane's next missing word (R33); of a group word the first, where the lane stops (R172). -/
def State.fill (s : State) (uid grp l : Nat) : State :=
  match s.fetcher uid grp with
  | none => s
  | some e =>
    let x := e.g.lane l
    let run := runFrom x.loop 48 x.pc
    if x.st != .priv || decide (46 < wordsOf run) then s else
    let put (e : Env) (w : TowWord) : State := Env.out { e with g := e.g.setLanes [l] (fun _ x => { x with loop := loopWith x.loop x.pc w }) }
    match e.read (match run.getLast? with | some w => w.pc + w.len | none => x.pc) with
    | .ok e1 w => put e1 (if isGroupWord w.w0 then ⟨w.pc, 4, w.w0, 0⟩ else w)
    | .short e1 w0 _ => if isGroupWord w0 then put e1 ⟨match run.getLast? with | some w => w.pc + w.len | none => x.pc, 4, w0, 0⟩ else s
    | _ => s

/-- A word leaves the core's instruction buffer. -/
def State.dropWord (s : State) (uid grp off : Nat) : State := s.onGroup uid grp (fun g => { g with ibuf := g.ibuf.filter (· != off) })

/-- A line of a lane's segment 0x03 loses or gains the page behind it (R344). -/
def State.backLine (s : State) (uid grp lane line : Nat) (present : Bool) : State :=
  s.onGroup uid grp (fun g => { g with holes := g.holes.filter (· != (lane, line)) ++ (if present then [] else [(lane, line)]) })

/-- A loader has installed an image's segments in a context (R282): load numbers count from 1 in 24 bits, a directive exports once. -/
def State.loadImage (s : State) (xs : List ImgExport) : State :=
  let new (x : ImgExport) : Bool := decide (1 ≤ x.load ∧ x.load < 2 ^ 24 ∧ x.place < 2 ^ 24) && !(s.imgExports.any (fun y => y.ctx == x.ctx && y.load == x.load && y.place == x.place))
  { s with imgExports := s.imgExports ++ xs.filter new }

/-! Issues. -/

/-- The unit may issue: resident, not stopped before this cycle (R284, R343), its permit held again after a restore (R342). -/
def State.mayIssue (s : State) (u : WorkUnit) (same : Bool) : Bool :=
  u.res == .resident && (u.stopAt.isNone || (same && u.stopAt == some s.cycle)) &&
    !(u.groups.any (fun g => match g.permitWait with | some (d, _, _) => d == 64 | none => false))

/-- What a group's position has issued in the cycle in progress. -/
def State.atPlace (s : State) (u : WorkUnit) (grp : Nat) : List Issued := s.issued.filter (fun r => r.core == u.core && r.place == u.places.getD grp (0, 0))

/-- A position may issue lane words for a group in the cycle in progress: for no other group, the broadcast first, then slices in ascending order, none of which has issued the broadcast word (R28, R31, R206). -/
def State.inCycle (s : State) (u : WorkUnit) (grp : Nat) (lane : Option Nat) : Bool :=
  (s.atPlace u grp).all (fun r => r.uid == u.uid && r.grp == grp && (match lane with
    | none => false
    | some l => !(r.slices.contains (l / 4)) && (match r.by_ with | .slice n => decide (n < l / 4) | _ => true)))

/-- A cycle begins. -/
def State.tick (s : State) : State := { s with cycle := s.cycle + 1, issued := [] }

/-- A group's first issue in a cycle begins: its v registers stand as other lanes' sources (R197). -/
def State.sources (s : State) (uid grp : Nat) : State :=
  if s.issued.any (fun r => r.uid == uid && r.grp == grp) then s else s.onGroup uid grp (fun g => { g with vOld := g.v })

/-- An issue move as far as `exec`. A group word is the tug's, and takes no cycle of a position (R37, R39). -/
def State.issueMove (s : State) (uid grp : Nat) (lane : Option Nat) (same : Bool) : Fetched :=
  match (s.unit? uid).bind (fun u => (u.group grp).map (fun g => (u, g))) with
  | none => .idle
  | some (u, _) =>
    if !(s.mayIssue u same) then .idle else
    let s1 := State.sources (if same then s else s.tick) uid grp
    match (s1.unit? uid).bind (fun u => (u.group grp).map (fun g => (u, g))) with
    | none => .idle
    | some (u1, g1) =>
      let r := match lane with
        | none => Env.broadcast s1 u1 uid grp g1
        | some l => Env.alone s1 u1 uid grp g1 l
      if s1.inCycle u1 grp lane then r else
      match r with
      | .run s2 i => if (s2.cur.map (·.by_)) == some .group then .run s2 i else .idle
      | _ => .idle

/-! A given instruction where the next step fetches (log 12). -/

/-- A launch record whose code is segment 0x100: one unit of one group of eight lanes, a supervisor unit of priority 3 that holds the matrix set. -/
def probeRecord : List DWord := [0x1000000000000, 0, 0x100010001, 0xE040, 0, 8] ++ List.replicate 10 0

/-- A powered package whose next move is the issue of one group that stands at the given bytes. -/
def State.probe (s : State) (code : List Byte) : State :=
  let die : Die := { (s.die 0) with present := true, cores := 80, slices := 16, hbm := 128, step := 0, icache := [] }
  let uid := s.nextUid
  let u : WorkUnit := { WorkUnit.start uid 0 0 0 probeRecord 0 0 [Group.start 8 8 0] with res := .resident, places := [(0, 0)] }
  let s1 : State := { s with power := .up, dies := s.dies.set 0 die, segbase := SMap.put 0 s.segbase 0 0x1000000000001, own := SMap.put 0x80 s.own 0x801 0, pend := [], tlb := [], issued := [],
                             units := AMap.set s.units uid u, nextUid := uid + 1, agenda := .issue uid 0 none false :: s.agenda }
  -- descriptor 0x100, then the tables of its page walk down to a page of 64 MiB
  let s2 := ((s1.wr8 0x3000 0x5824000000000FFF).wr8 0x3008 0x4000).wr8 0x3010 0
  let s3 := (((s2.wr8 0x3018 0).wr8 0x4000 0x8000000000005000).wr8 0x5000 0x8000000000006000).wr8 0x6000 0xC000000004000000
  { s3 with mem := Memory.writeAll s3.mem (upFrom 0x4000000 code.length) code }

end Sys2Proof.Machine
end

