-- ==== Sys2Proof/Machine/Select.lean ====
section
/-! DEFINITION. What moves next where the agenda is empty (log 2): an event that changes something, else an issue by effective priority and then longest-ago issue (R301), broadcast and private lanes by turns. -/

namespace Sys2Proof.Machine

/-! The shares of the register store (R26, R27). -/

/-- The bytes of the register store that a group's registers take: all of its v and s registers but those that stand in spill lines. -/
def Group.regBytes (g : Group) : Nat := 256 * g.lanes.length + 512 - (g.spilled.map (fun p => if p.1 < 4096 then 4 else 8)).sum

/-- A position's share of its slot's 64 KiB, by the width of its groups. -/
def shareBytes (G : Nat) : Nat := 65536 / (64 / G)

/-- The registers of a group by their keys in the spill map. -/
def regsOf (G : Nat) : List (Nat × Src) :=
  (List.range G).flatMap (fun l => (List.range 64).map (fun n => (64 * l + n, Src.v n false))) ++ (List.range 64).map (fun n => (4096 + n, Src.s n false))

/-- Registers of a group go to their spill lines, as far as pages back them, until it has given up a number of bytes. -/
def Group.giveUp (g : Group) (tlen excess : Nat) : Group :=
  ((regsOf g.lanes.length).foldl (fun (r : Group × Nat) p =>
    if r.2 = 0 || SMap.get false r.1.spilled p.1 || g.holes.any (fun h => h.1 == (spillLine (p.1 / 64) p.2).1 && h.2 == spillAt tlen p.2.sreg p.2.n / 128) then r else
    ({ r.1 with spilled := SMap.put false r.1.spilled p.1 true }, r.2 - (if p.1 < 4096 then 4 else 8))) (g, excess)).1

/-- The groups that are resident, with their units. -/
def State.residentGroups (s : State) : List (WorkUnit × Nat × Group) :=
  s.units.flatMap (fun p => if p.2.res == .resident || p.2.res == .stopped then p.2.groups.zipIdx.map (fun g => (p.2, g.2, g.1)) else [])

/-- The registers that the share of a position does not hold live in spill lines (R27). DESIGN CHOICE (log 80): of groups that exceed it, the one that issued longest ago gives up its own first, in ascending order. -/
def State.inShare (s : State) (at_ : Nat × Nat × Nat) : State :=
  let gs := s.residentGroups.filter (fun x => x.1.core == at_.1 && x.1.places.getD x.2.1 (0, 0) == at_.2)
  match gs with
  | [] => s
  | x :: _ =>
    let excess := (gs.map (fun x => x.2.2.regBytes)).sum - shareBytes x.2.2.lanes.length
    if excess = 0 then s else
    ((gs.foldl (fun ys y => (ys.filter (fun z => z.2.2.lastIssue ≤ y.2.2.lastIssue)) ++ y :: ys.filter (fun z => decide (y.2.2.lastIssue < z.2.2.lastIssue))) []).foldl (fun (r : State × Nat) y =>
      let g := y.2.2.giveUp (recTlen y.1.record) r.2
      (r.1.onGroup y.1.uid y.2.1 (fun _ => g), r.2 - (y.2.2.regBytes - g.regBytes))) (s, excess)).1

/-- Every position's groups within their share. -/
def State.inShares (s : State) : State :=
  ((s.residentGroups.map (fun x => (x.1.core, x.1.places.getD x.2.1 (0, 0)))).eraseDups).foldl State.inShare s

/-- A move has come about: the registers stand within the shares. -/
def withinShares : Host.Outcome State Fault Refusal → Host.Outcome State Fault Refusal
  | .next s => .next s.inShares
  | r => r

/-! The choice of a position (R301). -/

/-- The lanes that issue for a group of themselves: private ones, and those whose blocked word can go on; of those that one issue takes together, the lowest. -/
def Group.issuers (g : Group) : List Nat :=
  let ls := (List.range g.lanes.length).filter (fun l => (g.lane l).st == .priv || g.due l)
  ls.filter (fun l => !(ls.any (fun k => decide (k < l) && k / 4 == l / 4 && (g.lane k).pc == (g.lane l).pc && g.due k == g.due l)))

/-- What an issue would leave in its cycle, were it a cycle's first. -/
def State.wouldIssue (s : State) (uid grp : Nat) (lane : Option Nat) : Bool :=
  match { s with issued := [] }.issueMove uid grp lane true with
  | .idle => false
  | .done t => !t.issued.isEmpty
  | .run t i => (match exec i t with | .next t1 => !t1.issued.isEmpty | _ => true)

/-- A group is ready when it has a lane word that it can issue (R301). -/
def State.ready (s : State) (u : WorkUnit) (grp : Nat) (g : Group) : Bool :=
  u.res == .resident && u.stopAt.isNone && (none :: g.issuers.map some).any (s.wouldIssue u.uid grp)

/-- The other groups resident in a group's slot position (R28). -/
def State.mates (s : State) (u : WorkUnit) (grp : Nat) : List (WorkUnit × Nat × Group) :=
  (s.units.filter (fun p => p.2.res == .resident && p.2.core == u.core)).flatMap (fun p =>
    (p.2.groups.zipIdx.filter (fun x => p.2.places.getD x.2 (0, 0) == u.places.getD grp (0, 0) && !(p.1 == u.uid && x.2 == grp))).map (fun x => (p.2, x.2, x.1)))

/-- A group goes before another: by effective priority, then by the longer time since its last issue. -/
def before (p q : WorkUnit × Nat × Group) : Bool :=
  decide (effPrio q.1 q.2.2 < effPrio p.1 p.2.2) || (effPrio q.1 q.2.2 == effPrio p.1 p.2.2 && decide (p.2.2.lastIssue < q.2.2.lastIssue))

/-- The position, which has chosen no group in the cycle, has a ready group that goes before this one. -/
def State.outranked (s : State) (uid grp : Nat) (same : Bool) : Bool :=
  match (s.unit? uid).bind (fun u => (u.group grp).map (fun g => (u, grp, g))) with
  | none => false
  | some p => (!same || (s.atPlace p.1 grp).isEmpty) && (s.mates p.1 grp).any (fun q => before q p && s.ready q.1 q.2.1 q.2.2)

/-- A cycle ends: of the groups of a position that has issued in it, a ready one that was not chosen has been passed over once more (R301). -/
def State.passOver (s : State) : State :=
  s.issued.foldl (fun t r => match (s.unit? r.uid) with
    | none => t
    | some u => (s.mates u r.grp).foldl (fun t q =>
        if s.issued.any (fun i => i.uid == q.1.uid && i.grp == q.2.1) then t else
        t.onGroup q.1.uid q.2.1 (fun g => { g with passed := if s.ready q.1 q.2.1 q.2.2 then q.2.2.passed + 1 else 0 })) t) s

/-- Cycles in which nothing is ready pass (R299). -/
def State.idleCycles (s : State) (n : Nat) : State :=
  if s.units.any (fun p => p.2.groups.zipIdx.any (fun x => s.ready p.2 x.2 x.1)) then s
  else { s.passOver with cycle := s.cycle + n, issued := [] }

/-- An issue. A position issues for the ready group that goes first; a group word is the tug's. -/
def State.moveIssue (s : State) (uid grp : Nat) (lane : Option Nat) (same : Bool) : Host.Outcome State Fault Refusal :=
  let s0 := if same then s else s.passOver
  match s0.issueMove uid grp lane same with
  | .idle => .next s
  | .done s1 => if decide (s1.issued.length ≠ (if same then s.issued.length else 0)) && s0.outranked uid grp same then .next s else .next s1
  | .run s1 i => if (s1.cur.map (·.by_)) != some .group && s0.outranked uid grp same then .next s else exec i s1

/-- One move, before the registers settle. -/
def State.doMove (s : State) : Move → Host.Outcome State Fault Refusal
  | .event e arg => exec e { s with cur := none, arg := arg }
  | .issue uid grp lane same => s.moveIssue uid grp lane same
  | .ahead uid grp => .next (s.ahead uid grp)
  | .fill uid grp lane => .next (s.fill uid grp lane)
  | .drop uid grp off => .next (s.dropWord uid grp off)
  | .backing uid grp lane line present => .next (s.backLine uid grp lane line present)
  | .cycles n => .next (s.idleCycles n)
  | .image xs => .next (s.loadImage xs)
  | .collective p => .next (s.collJoin p)
  | .forget i => .next { s with tlb := s.tlb.eraseIdx i }
  | .evict line die core => .next (s.dropCopy line die core)
  | .ack j core => .next (s.ackUpdate j core)
  | .fuse slot digest revoked versions => .next (s.blowFuses slot digest revoked versions)
  | .config port fn reg => .next (s.configRead port fn reg)

/-- One move. -/
def State.move (s : State) (m : Move) : Host.Outcome State Fault Refusal := withinShares (s.doMove m)

/-- An event named by up to four numbers. -/
def ev (i : Instr) (a b c d : Nat) : Move := .event i { EvArg.none with a := a, b := b, c := c, d := d }

/-- Events of a group: what is under way completes. -/
def groupEvents (uid grp : Nat) (g : Group) : List Move :=
  ((g.which (·.st == .priv)).filter (fun l => (g.lane l).word.isNone)).map (fun l => Move.fill uid grp l) ++
    (List.range g.inflight.length).map (fun i => ev .loadValueArrival uid grp i 0) ++
    (List.range g.sbuf.length).map (fun i => ev .homeApply uid grp i 0) ++
    g.fences.zipIdx.flatMap (fun f => f.1.hit.map (fun l => ev .fenceRollback uid grp f.2 l) ++ [ev .fenceCompletion uid grp f.2 0]) ++
    (g.binds.zipIdx.filter (fun b => b.1.basin.isEmpty)).map (fun b => ev .streamFetch uid grp b.2 0)

/-- Events of a unit. -/
def unitEvents (uid : Nat) (u : WorkUnit) : List Move :=
  u.groups.zipIdx.flatMap (fun g => groupEvents uid g.2 g.1) ++
    (List.range u.ops.length).map (fun i => ev .matrixOperationComplete uid i 0 0) ++
    (if u.stop.isEmpty then [] else [ev .stopSave uid 0 0 0, ev .revokedSegmentService uid 0 0 0])

/-- Events of an engine context. -/
def engineEvents (key : Nat) (x : Engine) : List Move :=
  let k : EngId := ⟨key / 2 ^ 20, key % 2 ^ 20 / 64, key % 64⟩
  (x.cmds.filter (fun c => !c.done)).flatMap (fun c =>
    [.event .engineCommandComplete { EvArg.none with a := c.num, eng := k }, .event .engineCommandFault { EvArg.none with a := c.num, eng := k }])

/-- The events the package may take of itself. -/
def State.events (s : State) : List Move :=
  s.units.flatMap (fun p => if p.2.res == .done then [] else unitEvents p.1 p.2) ++
    s.pend.zipIdx.flatMap (fun p => p.1.unacked.map (fun c => Move.ack p.2 c)) ++
    (List.range s.pend.length).flatMap (fun j => [ev .storeCommit j 0 0 0, ev .replicatedUpdate j 0 0 0]) ++
    s.engines.flatMap (fun p => engineEvents p.1 p.2) ++
    (List.range 4).map (fun d => ev .sluiceGrant d 0 0 0) ++
    (List.range s.binders.length).map (fun i => ev .binderResolution i 0 0 0) ++
    (List.range 2).map (fun p => ev .inboundPostedWrite p 0 0 0) ++
    s.mailboxes.map (fun p => ev .mailboxFiring p.1 0 0 0) ++
    s.cores.map (fun p => ev .bargePlacement p.1 0 0 0) ++
    s.units.map (fun p => ev .idleUnitSave p.1 0 0 0)

/-- A state with what every move sets laid aside. -/
def State.plain (s : State) : State :=
  { s with cur := none, arg := EvArg.none, cycle := 0, issued := [], units := s.units.map (fun p => (p.1, { p.2 with groups := p.2.groups.map (fun (g : Group) => { g with vOld := [], lastIssue := 0, passed := 0, raised := false }) })) }

/-- A move comes to something. -/
def State.moves (s : State) (m : Move) : Bool :=
  match s.move m with
  | .next t => t.plain != s.plain
  | _ => true

/-- The issues of a group, by turns. -/
def groupIssues (cycle uid grp : Nat) (g : Group) : List Move :=
  let ls := g.issuers
  let alone := (ls.drop (cycle % max 1 ls.length) ++ ls.take (cycle % max 1 ls.length)).map (fun l => Move.issue uid grp (some l) false)
  if cycle % 2 = 0 then .issue uid grp none false :: alone else alone ++ [.issue uid grp none false]

/-- A group placed after those that issued no later than it. -/
def insertTurn (x : WorkUnit × Nat × Group) : List (WorkUnit × Nat × Group) → List (WorkUnit × Nat × Group)
  | [] => [x]
  | y :: ys => if y.2.2.lastIssue ≤ x.2.2.lastIssue then y :: insertTurn x ys else x :: y :: ys

/-- The groups of resident units, the highest effective priority first, then the one that issued longest ago. -/
def State.turns (s : State) : List (WorkUnit × Nat × Group) :=
  let all := s.units.flatMap (fun p => if p.2.res == .resident then p.2.groups.zipIdx.map (fun g => (p.2, g.2, g.1)) else [])
  [3, 2, 1, 0].flatMap (fun p => (all.filter (fun x => effPrio x.1 x.2.2 == p)).foldl (fun ys x => insertTurn x ys) [])

/-- The default choice. -/
def State.choose (s : State) : Option Move :=
  (s.events ++ s.turns.flatMap (fun t => groupIssues s.cycle t.1.uid t.2.1 t.2.2)).find? s.moves

end Sys2Proof.Machine
end

