-- ==== Sys2Proof/Machine/Step.lean ====
section
/-! DEFINITION. One step of the package. -/

namespace Sys2Proof.Machine

/-- Moves of a package without power (R357): it may only be powered up, and its fuses blown (log 81). -/
def Move.whenOff : Move → Bool
  | .event .powerUp _ => true
  | .fuse _ _ _ _ => true
  | _ => false

/-- Moves in the recovery state (R356): power, fuses, and reads and configuration requests of function 0. -/
def Move.whenStopped : Move → Bool
  | .event .powerUp _ => true
  | .event .powerDown _ => true
  | .event .thermalShutdown _ => true
  | .event .inboundRead _ => true
  | .fuse _ _ _ _ => true
  | .config _ _ _ => true
  | _ => false

/-- One step: the oldest move of the agenda, else the default choice (log 2). Without power nothing executes (R355); in the recovery state a move that cannot come is passed over. -/
def step (s : State) : Host.Outcome State Fault Refusal :=
  match s.power, s.agenda with
  | .up, m :: rest => { s with agenda := rest }.move m
  | .up, [] => (match s.choose with | some m => s.move m | none => .next s)
  | .recovery _ _, m :: rest => if m.whenStopped then { s with agenda := rest }.move m else .next { s with agenda := rest }
  | .recovery _ _, [] => .next s
  | .off, m :: rest => if m.whenOff then { s with agenda := rest }.move m else .fault .poweredDown
  | .off, [] => .fault .poweredDown

/-- The instruction whose bits are w, numbered as the opcode table numbers them, where the next step fetches (log 12). -/
def State.withFetchWord (s : State) (nbits w : Nat) : State := s.probe (leBytes 8 (w % 2 ^ nbits))

end Sys2Proof.Machine
end

