-- ==== Sys2Proof/Safety.lean ====
section
/-! DEFINITION. The terms claims are stated in: the invariant of the package, an issue in progress, what an issue leaves as it was, and what a completed lane issue comes to. -/

namespace Sys2Proof.Machine

/-- Every unit stands under its own key. -/
abbrev State.keyed (s : State) : Prop := ∀ p ∈ s.units, p.2.uid = p.1

/-- The invariant of the package: memory in its canonical form, units under their keys. -/
abbrev State.sound (s : State) : Prop := Memory.wf s.mem = true ∧ s.keyed

/-- The issue in progress is `e`, one of lanes: its lanes are lanes of the group, each once (R30). -/
abbrev Env.ofLanes (e : Env) (s : State) : Prop :=
  s.env? = some e ∧ e.u.uid = e.c.uid ∧ e.c.by_ ≠ .group ∧ e.c.act ≠ [] ∧ e.c.act.Nodup ∧ ∀ l ∈ e.c.act, l < e.G

/-- The issue in progress is `e`, a group word at its convergence point (R37), with no fence of its lanes incomplete (R113). -/
abbrev Env.ofGroup (e : Env) (s : State) : Prop :=
  s.env? = some e ∧ e.u.uid = e.c.uid ∧ e.c.by_ = .group ∧ e.g.fences = []

/-- The registers as an issue reads them: the head elements of the streams that its sources are bound to, and the group's registers else (R42); nothing where the issue waits or traps (R44, R240). -/
def Env.view? (e : Env) (gn : Nat) (xs : List Src) : Option View :=
  if (e.guarded gn).all (fun l => ((e.view (e.guarded gn) xs).checks l xs).isNone) then some (e.view (e.guarded gn) xs) else none

/-- The same for a cross-lane word, whose streams `pop` are read, whose lanes also read registers of others (R197), and which writes the s register `sw`: nothing where a read or the write is blocked. -/
def Env.viewX? (e : Env) (gn : Nat) (pop xs : List Src) (reads : View → Nat → List (Nat × Src)) (sw : Option Nat) : Option View :=
  if (e.guarded gn).all (fun l => ((e.view (e.guarded gn) pop).meets xs reads l).isNone) && !(sw.any e.g.emptyS) then some (e.view (e.guarded gn) pop) else none

/-- A state differs from that of the issue in the issuing group `g` of unit `u` at most, and in no other group or unit. -/
def Env.into (e : Env) (t : State) (u : WorkUnit) (g : Group) : Prop :=
  t.unit? e.c.uid = some u ∧ u.group e.c.grp = some g ∧ (∀ k, k ≠ e.c.uid → t.unit? k = e.s.unit? k) ∧ ∀ i, i ≠ e.c.grp → u.group i = e.u.group i

/-- Nothing outside the issuing group changes but the record of the cycle: no other state of the unit, no register of the package, no byte of memory. -/
def Env.onlyGroup (e : Env) (t : State) (u : WorkUnit) (g : Group) : Prop :=
  e.into t u g ∧ { u with groups := e.u.groups } = e.u ∧ { t with units := e.s.units, issued := e.s.issued } = e.s ∧ ∀ a, Memory.read t.mem a = Memory.read e.s.mem a

/-- The lanes of the issue stand at the next word, subscribed after a broadcast and private else; the other lanes stand where they stood (R32, R34). -/
def Env.goOn (e : Env) (g : Group) : Prop :=
  (∀ l ∈ e.c.act, g.lane l = { e.g.lane l with pc := e.next, st := if e.c.by_ = .broadcast then .subscribed else .priv }) ∧
    (∀ l, l ∉ e.c.act → g.lane l = e.g.lane l) ∧ g.bcast = if e.c.by_ = .broadcast then e.next else e.g.bcast

/-- What lane l's writes give register n: the value written, else the old one. -/
def Writes.at (w : Writes) (n : Nat) (old : Word) : Word := (w.v.lookup n).getD old
def Writes.bit (w : Writes) (n : Nat) (old : Bool) : Bool := (w.m.lookup n).getD old

/-- What fetches and schedules for a group, after an issue with an outcome for each of its lanes: the towline is consumed, or discarded where the broadcast leaves it (R39); lanes that are through leave the words that waited for them, those that must wait stand in a new one (R44); an issue that is one counts in its cycle (R28, R301); the last broadcast issue is kept (R285). -/
def Env.fronts (e : Env) (t : State) (g : Group) (bcast : Nat) (outs : List (Nat × LaneOut)) : Prop :=
  g.tow = (if e.c.by_ == .broadcast then towAfter e.c.pc bcast e.g.tow else e.g.tow) ∧ g.blocked = e.c.blocks outs e.g.blocked ∧
    t.issued = e.s.issued ++ (if outs.all (fun p => p.2.isStay) then [] else [e.issuedAs]) ∧
    (g.lastPc, g.lastSeq, g.lastLanes) = ((e.broadcastAt outs).lastPc, (e.broadcastAt outs).lastSeq, (e.broadcastAt outs).lastLanes)

/-- The group as `h` but for its lanes, its broadcast address and what fetches and schedules for it. -/
def Group.likeBut (g h : Group) : Prop :=
  { g with lanes := h.lanes, bcast := h.bcast, tow := h.tow, blocked := h.blocked, peerRead := h.peerRead, lastIssue := h.lastIssue, passed := h.passed, raised := h.raised, lastPc := h.lastPc, lastSeq := h.lastSeq, lastLanes := h.lastLanes } = h

/-- The lane issue completes for every lane and each guarded lane l writes exactly `wr l`: v registers and mask bits named there, sticky flags ORed in (R135). Every other register, mask bit and flag, all other state of the group, the unit and the package, and every byte of memory are those of `e`. -/
def Env.laneResult (e : Env) (t : State) (w : View) (wr : Nat → Writes) : Prop :=
  ∃ u g, e.onlyGroup t u g ∧ e.goOn g ∧ e.fronts t g (if e.c.by_ = .broadcast then e.next else e.g.bcast) (e.c.act.map (fun l => (l, .next))) ∧
    (∀ l n, n < 64 → g.getV l n = if l ∈ w.act then (wr l).at n (e.g.getV l n) else e.g.getV l n) ∧
    (∀ n, (∀ l ∈ w.act, (wr l).m.lookup n = none) → g.getM n = e.g.getM n) ∧
    (∀ l n, l < e.G → l < 64 → (g.getM n).getLsbD l = if l ∈ w.act then (wr l).bit n ((e.g.getM n).getLsbD l) else (e.g.getM n).getLsbD l) ∧
    (∀ k, k < 5 → g.sticky.testBit k = (e.g.sticky.testBit k || w.act.any (fun l => (wr l).fl.testBit k))) ∧
    Group.likeBut { g with v := e.g.v, m := e.g.m, sticky := e.g.sticky } e.g

/-! How an issue closes in general. -/

/-- The issue closes with an outcome for each of its lanes: each lane stands where its outcome sends it, a faulting one at the word; faults stop the group with their records, one for a lane, in the order of the lanes (R284, R329). The rest of the group, the unit and the package, and every byte of memory, are those of `e`. -/
def Env.closes (e : Env) (t : State) (outs : List (Nat × LaneOut)) : Prop :=
  ∃ u g, e.into t u g ∧
    (∀ l, g.lane l = match outs.find? (fun p => p.1 == l) with
      | some p => laneAfter (e.c.by_ == .broadcast) e.next (e.after outs) p.2 (e.g.lane l)
      | none => e.g.lane l) ∧
    g.bcast = (e.broadcastAt outs).bcast ∧ e.fronts t g (e.after outs) outs ∧ g.likeBut e.g ∧
    u.stop = e.u.stop ++ (e.fresh (faultsOf outs)).map (fun p => e.record p.1 p.2) ∧
    u.stopAt = (if (e.fresh (faultsOf outs)).isEmpty then e.u.stopAt else some (e.u.stopAt.getD e.s.cycle)) ∧
    { u with groups := e.u.groups, stop := e.u.stop, stopAt := e.u.stopAt } = e.u ∧
    t.out = e.s.out ++ ((e.fresh (faultsOf outs)).filter (fun p => p.2.report)).map (fun p => Output.report 314 p.2.addr) ∧
    { t with units := e.s.units, out := e.s.out, issued := e.s.issued } = e.s ∧ ∀ a, Memory.read t.mem a = Memory.read e.s.mem a

/-- Lanes that pass their checks, taken in ascending order through a step that may change the state, the group and the lane's outcome (R210). -/
def Env.steps {α : Type} (e : Env) (k : Env → Nat → α → Env × LaneOut) : List (Nat × α) → Env × List (Nat × LaneOut)
  | [] => (e, [])
  | p :: ps => (((k e p.1 p.2).1.steps k ps).1, (p.1, (k e p.1 p.2).2) :: ((k e p.1 p.2).1.steps k ps).2)

/-- The group word completes: every live lane stands subscribed at `pc`, other lanes as they stood (R37); all else is as in `e`. -/
def Env.groupResult (e : Env) (t : State) (pc : Nat) : Prop :=
  ∃ u g, e.onlyGroup t u g ∧ t.issued = e.s.issued ∧ g.bcast = pc ∧ (∀ l, g.lane l = if l ∈ e.g.liveLanes then { e.g.lane l with pc := pc, st := .subscribed } else e.g.lane l) ∧
    g.tow = [] ∧ Group.likeBut { g with blocked := e.g.blocked } e.g ∧ g.blocked = e.g.blocked

/-- The group word faults: every live lane that has none receives the record, and the word has no effect (R171, R284). -/
def Env.groupStops (e : Env) (t : State) (f : LFault) : Prop :=
  ∃ u g, e.into t u g ∧ g.bcast = e.c.pc ∧ (∀ l, g.lane l = if l ∈ e.g.liveLanes then { e.g.lane l with pc := e.c.pc } else e.g.lane l) ∧
    { g with lanes := e.g.lanes, bcast := e.g.bcast, peerRead := e.g.peerRead } = e.g ∧
    (u.stop.map (fun r => (r.grp, r.lane, r.code, r.ss, r.pc, r.addr))) =
      (e.u.stop.map (fun r => (r.grp, r.lane, r.code, r.ss, r.pc, r.addr))) ++ (e.fresh (e.g.liveLanes.map (fun l => (l, f)))).map (fun p => (e.c.grp, p.1, f.code, f.ss, e.c.pc, f.addr)) ∧
    u.stopAt = (if (e.fresh (e.g.liveLanes.map (fun l => (l, f)))).isEmpty then e.u.stopAt else some (e.u.stopAt.getD e.s.cycle)) ∧
    { u with groups := e.u.groups, stop := e.u.stop, stopAt := e.u.stopAt } = e.u ∧
    { t with units := e.s.units, out := e.s.out } = e.s ∧ ∀ a, Memory.read t.mem a = Memory.read e.s.mem a

/-! The shapes of statements about words. -/

/-- A lane word with legal fields that can read its registers (`see`) completes, each lane writing `wr` over the issue that `left` gives, whose streams have been popped; with other fields it faults as R170 says. -/
def laneWord (i : Instr) (ok : Env → Bool) (see : Env → Option View) (left : Env → View → Env) (wr : Env → View → Nat → Writes) : Prop :=
  ∀ s (e : Env), e.ofLanes s → wellFormed i = true →
    (ok e = true → ∀ w, see e = some w → ∃ t, exec i s = .next t ∧ (left e w).laneResult t w (wr e w)) ∧
    (ok e = false → exec i s = e.illegal)

/-- A lane word whose lanes are taken in ascending order (R209, R210), at its turn in the queues of the tiles, accumulators and panels (`enter`): each guarded lane meets its registers and its checks as the issue begins; where the issue waits for nothing, those that pass go through `k`, then `after`, and the issue closes with the outcomes. Where every guarded lane passes and nothing it meets (`fine`) ends it otherwise, the word COMPLETES: every lane goes on at the next word. While it waits nothing comes about, and with other fields it faults as R170 says. All this where `pre` holds of the issue. -/
def eachIf {α : Type} (pre : Env → Bool) (enter : Env → Turn) (i : Instr) (gn : Nat) (ok : Env → Bool) (ss : Bool) (xs : Env → Nat → List Src) (chk : Env → View → Nat → Except LFault α)
    (waits : Env → View → List (Nat × α) → Bool) (k : Env → View → Env → Nat → α → Env × LaneOut) (after : Env → Env → List (Nat × LaneOut) → Env) (fine : Env → View → Nat → α → Prop) : Prop :=
  ∀ s (e0 : Env), e0.ofLanes s → wellFormed i = true →
    (ok e0 = false → exec i s = e0.illegal) ∧
    (ok e0 = true → pre e0 = true → match enter e0 with
      | .wait => exec i s = .next s
      | .queue e1 => exec i s = .next e1.out
      | .go e _ =>
        let act := e.guarded gn
        let w := e.view act (act.flatMap (xs e))
        let rs := act.map (fun l => (l, w.tries ss (xs e) (chk e) l))
        let r := Env.steps (e.popped w (act.flatMap (xs e))) (k e w) (passes rs)
        (waits e w (passes rs) = true → exec i s = .next s) ∧
        (waits e w (passes rs) = false → ∃ t, exec i s = .next t ∧ (after e r.1 r.2).closes t (e.all (settles rs ++ r.2))) ∧
        (waits e w (passes rs) = false → (∀ l ∈ act, ∃ a, w.tries ss (xs e) (chk e) l = .ok a ∧ fine e w l a) →
          ∃ t, exec i s = .next t ∧ (after e r.1 r.2).closes t (e.c.act.map (fun l => (l, .next)))))
def eachIs {α : Type} : Instr → Nat → (Env → Bool) → Bool → (Env → Nat → List Src) → (Env → View → Nat → Except LFault α) → (Env → View → List (Nat × α) → Bool) →
    (Env → View → Env → Nat → α → Env × LaneOut) → (Env → Env → List (Nat × LaneOut) → Env) → (Env → View → Nat → α → Prop) → Prop := eachIf (fun _ => true) (fun e => .go e 0)

/-- A lane word of one access, made by the lowest lane of the guarded set (R209), at its turn: a fault or a wait at its registers or its checks is every guarded lane's, and so is the outcome of its step `k`; where that meets nothing that ends it otherwise (`fine`) the word COMPLETES, every lane going on at the next word. `post` follows. All this where `pre` holds of the issue. -/
def onceIf {α : Type} (pre : Env → Bool) (enter : Env → Turn) (i : Instr) (gn : Nat) (ok : Env → Bool) (ss : Bool) (xs : List Src) (chk : Env → View → Nat → Except LFault α)
    (waits : Env → List Nat → Nat → α → Bool) (k : Env → Env → View → Nat → α → Env × LaneOut) (post : Env → State → State) (fine : Env → View → Nat → α → Prop) : Prop :=
  ∀ s (e0 : Env), e0.ofLanes s → wellFormed i = true →
    (ok e0 = false → exec i s = e0.illegal) ∧
    (ok e0 = true → pre e0 = true → match enter e0 with
      | .wait => exec i s = .next s
      | .queue e1 => exec i s = .next e1.out
      | .go e _ =>
        let w := e.view (e.guarded gn) []
        (e.guarded gn = [] → ∃ t, exec i s = .next (post e t) ∧ e.closes t (e.c.act.map (fun l => (l, .next)))) ∧
        (∀ low rest, e.guarded gn = low :: rest →
          (∀ o, w.tries ss (fun _ => xs) (chk e) low = .error o → ∃ t, exec i s = .next (post e t) ∧ e.closes t (e.outs gn (fun _ => o))) ∧
          (∀ a, w.tries ss (fun _ => xs) (chk e) low = .ok a →
            (waits e (e.guarded gn) low a = true → exec i s = .next (post e s)) ∧
            (waits e (e.guarded gn) low a = false → ∃ t, exec i s = .next (post e t) ∧ (k e0 e w low a).1.closes t (e.outs gn (fun _ => (k e0 e w low a).2))) ∧
            (waits e (e.guarded gn) low a = false → fine e w low a → ∃ t, exec i s = .next (post e t) ∧ (k e0 e w low a).1.closes t (e.c.act.map (fun l => (l, .next)))))))
def onceIs {α : Type} : Instr → Nat → (Env → Bool) → Bool → List Src → (Env → View → Nat → Except LFault α) → (Env → List Nat → Nat → α → Bool) →
    (Env → View → Nat → α → Env × LaneOut) → (Env → View → Nat → α → Prop) → Prop :=
  fun i gn ok ss xs chk waits k fine => onceIf (fun _ => true) (fun e => .go e 0) i gn ok ss xs chk waits (fun _ => k) (fun _ t => t) fine

/-- Nothing ends a lane's step but its completion. -/
def always {α : Type} (_ : Env) (_ : View) (_ : Nat) (_ : α) : Prop := True
/-- The bytes that a store goes to are no lattice cells. -/
def plainSeg (_ : Env) (_ : View) (_ : Nat) (acc : Acc) : Prop := acc.g.kind ≠ .lattice

/-- A lane word that leaves the group as `left` says and comes to `outs` for its lanes; `post` follows. -/
def outWord (i : Instr) (ok waits : Env → Bool) (left : Env → Env) (outs : Env → List (Nat × LaneOut)) (post : Env → State → State) : Prop :=
  ∀ s (e : Env), e.ofLanes s → wellFormed i = true →
    (ok e = true → waits e = false → ∃ t, exec i s = .next (post e t) ∧ (left e).closes t (outs e)) ∧
    (ok e = true → waits e = true → exec i s = .next s) ∧
    (ok e = false → exec i s = e.illegal)

/-- An s register that a group word names stands in a spill line that no page backs: the fault (R27, R171, R344). -/
def Env.unfilled? (e : Env) (ss : List Nat) : Option LFault := ss.findSome? (fun n => e.g.unfilled (recTlen e.u.record) 0 (.s n false))

/-- A group word with legal fields whose s registers are full and can be filled completes, and leaves what `left` gives; with other fields it faults as R170 says. -/
def groupWord (i : Instr) (ok : Env → Bool) (ss : Env → List Nat) (left : Env → Env) (pc : Env → Nat) : Prop :=
  ∀ s (e : Env), e.ofGroup s → wellFormed i = true →
    (ok e = true → (ss e).any e.g.emptyS = false → e.unfilled? (ss e) = none → ∃ t, exec i s = .next t ∧ (left e).groupResult t (pc e)) ∧
    (ok e = true → (ss e).any e.g.emptyS = false → ∀ f, e.unfilled? (ss e) = some f → ∃ t, exec i s = .next t ∧ e.groupStops t f) ∧
    (ok e = true → (ss e).any e.g.emptyS = true → exec i s = .next s) ∧
    (ok e = false → exec i s = e.groupIllegal)

/-- What a group word that may wait or fault comes to. -/
inductive GroupEnd where
  | wait
  /-- the group stays at the word, in `e` -/
  | stays (e : Env)
  | fault (e : Env) (f : LFault)
  | goes (e : Env) (pc : Nat)

/-- The outcome that such an end is. -/
def GroupEnd.out (s : State) : GroupEnd → Out
  | .wait => .next s
  | .stays e => .next e.out
  | .fault e f => e.groupFault f
  | .goes e pc => e.groupTo pc

/-- A group word with legal fields: it waits while an s register of `ss` is empty, and then comes to what `k` says (R37, R44, R171). -/
def groupCase (i : Instr) (ok : Env → Bool) (ss : Env → List Nat) (k : Env → GroupEnd) : Prop :=
  ∀ s (e : Env), e.ofGroup s → wellFormed i = true →
    (ok e = true → (ss e).any e.g.emptyS = false → ∀ f, e.unfilled? (ss e) = some f → ∃ t, exec i s = .next t ∧ e.groupStops t f) ∧
    (ok e = true → (ss e).any e.g.emptyS = false → e.unfilled? (ss e) = none → match k e with
      | .wait => exec i s = .next s
      | .stays e1 => exec i s = .next e1.out
      | .fault e1 f => ∃ t, exec i s = .next t ∧ e1.groupStops t f
      | .goes e1 pc => ∃ t, exec i s = .next t ∧ e1.groupResult t pc) ∧
    (ok e = true → (ss e).any e.g.emptyS = true → exec i s = .next s) ∧
    (ok e = false → exec i s = e.groupIllegal)

/-- A word of the live lanes at its turn in the queues of its tiles, accumulators or panels (R244). -/
def Env.turnEnd (e : Env) (i : Instr) (k : Env → GroupEnd) : GroupEnd :=
  match e.turn i false e.g.liveLanes with
  | .wait => .wait
  | .queue e1 => .stays e1
  | .go e1 _ => k e1
/-- A word on tiles or accumulators: 0x04 without the matrix set (R242), then its turn. -/
def Env.tileEnd (e : Env) (i : Instr) (k : Env → GroupEnd) : GroupEnd := if e.holdsMx = false then .fault e (lf 0x04 0 false) else e.turnEnd i k

/-- A system word is complete in state s1: its register is written and its group goes on, unless the word has taken the group's unit from its core. -/
def Env.sysResult (e : Env) (s1 : State) (w : Option (Nat × DWord)) (t : State) : Prop :=
  match State.env? { s1 with cur := some e.c } with
  | some e1 => if e1.u.res = .resident then
      Env.groupResult { e1 with g := match w with | some p => e1.g.putS p.1 p.2 | none => e1.g } t e1.next else t = s1
  | none => t = s1

/-- A system word (R170, R280): 0x16 outside a supervisor unit, 0x15 for its fields, a wait for its registers, and then what `k` says; a record of 0x16 names the instruction words (R330). -/
def sysIs (i : Instr) (ok : State → Bool) (ss : List Nat) (k : Env → SysEnd) : Prop :=
  ∀ s (e : Env), e.ofGroup s → wellFormed i = true →
    (recSup e.u.record = false → exec i s = e.groupFault (lf 0x16 e.words false)) ∧
    (recSup e.u.record = true → ok s = false → exec i s = e.groupIllegal) ∧
    (recSup e.u.record = true → ok s = true → ss.any e.g.emptyS = true → exec i s = .next s) ∧
    (recSup e.u.record = true → ok s = true → ss.any e.g.emptyS = false → ∀ f, e.unfilled? ss = some f → exec i s = e.groupFault f) ∧
    (recSup e.u.record = true → ok s = true → ss.any e.g.emptyS = false → e.unfilled? ss = none → match k e with
      | .wait s1 => exec i s = .next s1
      | .fault code => exec i s = e.groupFault (lf code (if code = 0x16 then e.words else 0) false)
      | .fail s1 code => exec i s = Env.groupFault { e with s := s1 } (lf code 0 false)
      | .done s1 w => (∀ u, s1.unit? e.c.uid = some u → u.uid = e.c.uid) → ∃ t, exec i s = .next t ∧ e.sysResult s1 w t)

/-- The number whose bits below n are given. -/
def ofBits (n : Nat) (p : Nat → Bool) : Nat := ((List.range n).map (fun i => if p i then 2 ^ i else 0)).sum

/-- A command of the issuing group that writes a code segment and is numbered above its context's counter (R126, R227). -/
def Env.lateCode (e : Env) (c : Command) : Prop := (∃ q ∈ e.s.engines, c ∈ q.2.cmds ∧ q.2.tl < c.num) ∧ c.uid = e.c.uid ∧ c.grp = e.c.grp ∧ c.code = true

/-- The image that FALD names can be read: its header gives an order, all of it passes its checks, and its bytes are at hand (R262). -/
def faldReads (f : LW) (e : Env) (w : View) (l : Nat) (acc : Acc) : Prop :=
  ∃ e1 h, e.readNow (e.guarded f.g) acc (addrNat (w.addr f 0)) = .got e1 h ∧ orderOk (leNat h % 128) ((leNat h).testBit 7) = true ∧ leNat h < 256 ∧
    ∃ all e2 bs, e.check l (faReq (w.addr f 0) (faLen (leNat h % 128) ((leNat h).testBit 7)) true) 0 = .ok all ∧ e.readNow (e.guarded f.g) all (addrNat (w.addr f 0)) = .got e2 bs

/-- The register that BRX and BRX.CALL read (R232). -/
def brxSrcs (f : LW) : List Src := if f.e.bs then [.s f.b f.eb] else [.v f.a f.ea]

/-! The words of a family, in the shapes above. -/

/-- A per-lane word whose one result is a number of the integer type, from A, B and (where `cSrc`) C (R173, R174, R176): the legal fields, the registers read, and the number Wr'd to d. -/
def intIs (i : Instr) (f : LW) (cSrc : Bool) (op : IntTy → Int → Int → Int → Int) : Prop :=
  laneWord i (fun _ => intLegal f (LW.ty f).wide cSrc) (fun e => e.view? f.g (intSrcs f cSrc)) (fun e w => e.popped w (intSrcs f cSrc))
    (fun _ w l => ⟨wv (LW.ty f).wide f.d ((LW.ty f).wr (op (LW.ty f) ((LW.ty f).val (w.reg (LW.ty f).wide l f.a)) (w.bInt f (LW.ty f) l)
      (if cSrc then (LW.ty f).val (w.reg (LW.ty f).wide l f.e.c) else 0))), [], 0⟩)

/-- An integer unary word (R180): of the N bits of A; a count goes to one v register. -/
def unaryIs (i : Instr) (f : LW) (signedOnly count : Bool) (op : IntTy → Nat → Int) : Prop :=
  laneWord i (fun _ => unaryLegal f signedOnly count) (fun e => e.view? f.g (unarySrcs f count)) (fun e w => e.popped w (unarySrcs f count))
    (fun _ w l => ⟨if count then wv false f.d (op (LW.ty f) (low (LW.ty f).n (w.reg (LW.ty f).wide l f.a))).toNat
      else wv (LW.ty f).wide f.d ((LW.ty f).wr (op (LW.ty f) (low (LW.ty f).n (w.reg (LW.ty f).wide l f.a)))), [], 0⟩)

/-- BFX or BFI: A, the descriptor and (where `cSrc`) the base, as bits (R173, R179). -/
def fieldIs (i : Instr) (f : LW) (cSrc : Bool) (op : IntTy → Nat → Nat → Nat → Int) : Prop :=
  laneWord i (fun _ => descLegal f cSrc) (fun e => e.view? f.g (descSrcs f cSrc)) (fun e w => e.popped w (descSrcs f cSrc))
    (fun _ w l => ⟨wv (LW.ty f).wide f.d ((LW.ty f).wr (op (LW.ty f) (w.reg (LW.ty f).wide l f.a) (w.bCount f l) (w.reg (LW.ty f).wide l f.e.c))), [], 0⟩)

/-- A per-lane floating word with one result in its format, and sticky flags (R135, R185): format, rounding mode, and the bits of A, B, C. -/
def fpIs (i : Instr) (f : LW) (types : List Nat) (rounds cSrc : Bool) (op : Fmt → Nat → Nat → Nat → Nat → Nat × Nat) : Prop :=
  laneWord i (fun _ => fpLegal f types rounds true cSrc) (fun e => e.view? f.g (fpSrcs f cSrc)) (fun e w => e.popped w (fpSrcs f cSrc))
    (fun _ w l => ⟨wv (f.e.fs == 1) f.d (op (fmtOf f.e.fs) (f.e.subop % 4) (w.fp f.e.fs l f.a) (w.fpB f l) (w.fp f.e.fs l f.e.c)).1, [],
      (op (fmtOf f.e.fs) (f.e.subop % 4) (w.fp f.e.fs l f.a) (w.fpB f l) (w.fp f.e.fs l f.e.c)).2⟩)

/-- A floating unary word (R189); `one` writes one v register whatever the type. -/
def fpUnaryIs (i : Instr) (f : LW) (types : List Nat) (rounds one : Bool) (op : Fmt → Nat → Nat → Nat × Nat) : Prop :=
  laneWord i (fun _ => fpUnaryLegal f types rounds one) (fun e => e.view? f.g (fpUnarySrcs f one)) (fun e w => e.popped w (fpUnarySrcs f one))
    (fun _ w l => ⟨wv (f.e.fs == 1 && !one) f.d (op (fmtOf f.e.fs) (f.e.subop % 4) (w.fp f.e.fs l f.a)).1, [], (op (fmtOf f.e.fs) (f.e.subop % 4) (w.fp f.e.fs l f.a)).2⟩)

/-- The slot that a word names, where it is well formed. -/
def Env.slotD (e : Env) (n : Nat) : Slotd := (e.slot n).getD ⟨0, 0, 0, 0, false, 0, false⟩

/-- CVT or CVTI under the slot that fs names (R191). -/
def cvtIs (i : Instr) (f : LW) (isInt : Bool) (op : Slotd → Nat → Nat × Nat) : Prop :=
  laneWord i (fun e => (e.slot f.e.fs).any (cvtLegal f isInt)) (fun e => e.view? f.g (cvtSrcs f isInt (e.slotD f.e.fs))) (fun e w => e.popped w (cvtSrcs f isInt (e.slotD f.e.fs)))
    (fun e w l => ⟨wv (slotBits (e.slotD f.e.fs).code == 64) f.d (op (e.slotD f.e.fs) (w.reg (cvtWide f isInt) l f.a)).1, [],
      (op (e.slotD f.e.fs) (w.reg (cvtWide f isInt) l f.a)).2⟩)

/-- The group's registers are all full and bound to no stream, no spill line lacks its page, and the issue holds no stream entries: its words meet nothing at their registers (R27, R42, R44). -/
abbrev Env.calm (e : Env) : Prop := e.c.held = [] ∧ e.g.binds = [] ∧ e.g.holes = [] ∧ (∀ l n, e.g.emptyV l n = false) ∧ ∀ n, e.g.emptyS n = false

/-- A lane word with legal fields COMPLETES where nothing is met at its group's registers: every lane of the issue goes on at the next word, no fault is recorded, no byte of memory changes. -/
def calmWord (i : Instr) (ok : Env → Bool) : Prop :=
  ∀ s (e : Env), e.ofLanes s → wellFormed i = true → ok e = true → e.calm →
    ∃ t u g, exec i s = .next t ∧ e.into t u g ∧ e.goOn g ∧ u.stop = e.u.stop ∧ ∀ a, Memory.read t.mem a = Memory.read e.s.mem a

/-- The registers that a block word accesses of its own lanes. -/
def blockXs (f : LW) (own : Bool) : List Src := if own then srcV false f.a f.ea ++ dstV false f.d else dstV false f.d

/-- A block word (R193 to R196) under the slot that fs names: computed per lane where `own`, else from the lanes of a block of b. -/
def blockIs (i : Instr) (f : LW) (legal : Env → LW → Slotd → Bool) (own : Slotd → Bool) (b : Slotd → Nat) (wr : View → Slotd → Nat → Writes) : Prop :=
  laneWord i (fun e => (e.slot f.e.fs).any (legal e f))
    (fun e => if own (e.slotD f.e.fs) then e.view? f.g (blockXs f true) else e.viewX? f.g [.v f.a f.ea] (blockXs f false) (fun w l => w.blockReads (b (e.slotD f.e.fs)) l f.a f.ea) none)
    (fun e w => e.popped w (blockXs f (own (e.slotD f.e.fs)))) (fun e w l => wr w (e.slotD f.e.fs) l) ∧
  calmWord i (fun e => (e.slot f.e.fs).any (legal e f))

/-- A shuffle: lane l takes a of lane `idx`, the fill where that lane is outside the group or supplies nothing, and may record in a mask that it was outside (R197 to R199). -/
def shuffleIs (i : Instr) (f : LW) (ok : Bool) (own : List Src) (idx : View → Nat → Int) : Prop :=
  laneWord i (fun _ => ok && shuffleLegal f)
    (fun e => e.viewX? f.g (srcV (wideCode f.e.fs) f.a f.ea ++ own ++ srcFill f) (own ++ srcFill f ++ dstV (wideCode f.e.fs) f.d) (fun w l => w.reads f l (idx w l)) none)
    (fun e w => e.popped w (own ++ srcFill f ++ dstV (wideCode f.e.fs) f.d))
    (fun e w l =>
      let out := decide (idx w l < 0 ∨ (e.G : Int) ≤ idx w l)
      ⟨wv (wideCode f.e.fs) f.d (if out then w.fill f l else (w.from (wideCode f.e.fs) l (idx w l).toNat f.a).getD (w.fill f l)),
        if f.e.subop % 4 = 0 then [] else [(f.e.subop % 4, out)], 0⟩)

/-- The issue of a cross-lane word after its pops, with the s register and the empty flag that it sets. -/
def Env.besides (e : Env) (w : View) (xs : List Src) (sw : Option (Nat × DWord)) (emp : Bool) : Env := { e.popped w xs with g := (e.popped w xs).g.beside sw emp w.act.isEmpty }

/-- A vote word over the values that the active lanes supply: the result to every lane or to one s register, and the empty flag (R204, R206). -/
def voteIs (i : Instr) (f : LW) (kind : Nat) (result : List (Nat × Nat) → Nat) : Prop :=
  laneWord i (fun e => voteLegal e f kind)
    (fun e => e.viewX? f.g (srcV (wideCode f.e.fs) f.a f.ea) (if f.e.bs then dstS f.d else dstV (ballotPair e kind) f.d) (ownReads (wideCode f.e.fs) f) (if f.e.bs then some f.d else none))
    (fun e w => e.besides w (if f.e.bs then dstS f.d else dstV (ballotPair e kind) f.d)
      (if f.e.bs then some (f.d, BitVec.ofNat 64 (result (w.act.map (fun l => (l, w.reg (wideCode f.e.fs) l f.a))))) else none) true)
    (fun e w _ => ⟨if f.e.bs then [] else wv (ballotPair e kind) f.d (result (w.act.map (fun l => (l, w.reg (wideCode f.e.fs) l f.a)))), [], 0⟩)

/-- MCOUNT (R205): the 1 bits of mask a among the lanes below `below`. -/
def mcountIs (i : Instr) (f : LW) (pre : Bool) (below : Env → Nat → Nat) : Prop :=
  laneWord i (fun _ => mcountLegal f pre) (fun e => e.viewX? f.g [] (dstV false f.d) (fun _ _ => []) none)
    (fun e w => e.besides w (dstV false f.d) none true)
    (fun e _ l => ⟨wv false f.d ((List.range (below e l)).countP (fun k => (e.mask f.a).getLsbD k)), [], 0⟩)

/-- A load of n bytes per lane into `dests`, outstanding as one producer (R44, R210, R213). -/
def loadIs (i : Instr) (f : LW) (legal : Bool) (n align : Nat) (dests : List Nat) (kind : Nat → ProdKind) : Prop :=
  eachIs i f.g (fun _ => legal) false (fun _ _ => loadSrcs f dests) (fun e => e.loadCheck f n align) (fun e w ps => e.loadWaits w.act (keysOf ps)) (fun _ => loadLane f dests kind)
    (fun e e1 _ => e1.merge e.g.inflight.length) always

/-- A store of the bytes that `data` gives per lane (R107, R213). -/
def storeIs (i : Instr) (f : LW) (legal : Bool) (n align scope : Nat) (xs : List Src) (data : View → Nat → List Byte × Nat) : Prop :=
  eachIs i f.g (fun _ => legal) true (fun _ _ => memSrcs f ++ xs) (fun e => e.storeCheck f n align scope (fun _ _ => .ok ())) (fun e _ ps => e.storeWaits scope ps.length ps)
    (fun _ => storeLane f scope data) (fun e e1 _ => e1.stored e.s.posted.length) plainSeg

/-- An atomic (R222 to R225): its operands wait in a producer that the home performs. -/
def atomIs (i : Instr) (f : LW) (legal : Bool) (wide sgn exp : Bool) (use : LatUse) (op : Nat → AtomOp) : Prop :=
  eachIs i f.g (fun _ => legal) true (fun _ _ => atomSrcs f wide exp) (fun e => e.atomCheck f (sizeBytes f.e.fs) use) (fun e _ ps => e.atomWaits f ps)
    (fun _ => atomLane f (sizeBytes f.e.fs) wide sgn op) (fun e e1 _ => e1.merge e.g.inflight.length) always

/-- A heavy factor word (R260, R261): at its turn, with an accumulator that suits it, and its vectors read, its operation enters the queue, its lanes park, and it begins under the group's permit or asks leave; with other fields it faults as R170 says. -/
def heavyIs (i : Instr) (f : LW) (ok : Bool) (acc : Nat) (dest : Option Nat) (xs : List (Nat × Bool)) : Prop :=
  ∀ s (e0 : Env), e0.ofLanes s → wellFormed i = true →
    ((ok && heavyLegal f acc) = false → exec i s = e0.illegal) ∧
    ((ok && heavyLegal f acc) = true → e0.guarded f.g ≠ [] → e0.holdsMx = true → match e0.turn i true (e0.guarded f.g) with
      | .wait => exec i s = .next s
      | .queue e1 => exec i s = .next e1.out
      | .go e n =>
        (e.u.fa acc).n ≠ 0 → (e.u.fa acc).n ≤ e.G →
        ((e.u.fa acc).f64 = true → (∀ x ∈ xs, x.1 % 2 = 0 ∧ ∀ b ∈ e.g.binds, b.reg ≠ x.1) ∧ ∀ d ∈ dest, d % 2 = 0) →
        e.g.fenced (e.guarded f.g) = false → (∀ d ∈ dest, e.destEmpty (e.guarded f.g) (e.u.fa acc).f64 d = false) →
        (heavyDemand i ≤ (e.s.die e.u.die).budget ∨ e.u.permitCovers e.c.grp (heavyDemand i) = true) →
        ∀ vs g, e.vectors (e.guarded f.g) (e.u.fa acc).n (e.u.fa acc).f64 xs = .ok vs g →
          let o := e.heavyOp i (e.guarded f.g) (e.u.permitCovers e.c.grp (heavyDemand i)) vs
          ∃ t, exec i s = .next (e.heavyAsks o (heavyDemand i) t) ∧
            (e.heavyQueued n o (e.guarded f.g) (e.u.fa acc).f64 dest g).closes t (e.outs f.g (fun _ => .park .leave 0)))

/-- A group ALU word in its three forms: d := op(sA, B) in 64 bits, B being sB, imm12 or the literal, each sign-extended (R266). -/
def aluIs (gr gi gl : GW → Instr) (op : DWord → DWord → DWord) : Prop :=
  ∀ f : GW,
    groupWord (gr f) (fun _ => true) (fun _ => [f.a, f.d, f.b]) (fun e => { e with g := e.g.putS f.d (op (e.g.getS f.a) (e.g.getS f.b)) }) Env.next ∧
    groupWord (gi f) (fun _ => true) (fun _ => [f.a, f.d]) (fun e => { e with g := e.g.putS f.d (op (e.g.getS f.a) (BitVec.ofInt 64 f.imm)) }) Env.next ∧
    groupWord (gl f) (fun _ => f.b == 0 && f.f6 == 0) (fun _ => [f.a, f.d]) (fun e => { e with g := e.g.putS f.d (op (e.g.getS f.a) ((BitVec.ofNat 32 f.gx).signExtend 64)) }) Env.next

/-- SCMP in one form (R267): equality and less-than in the width and signedness of its compare type d, and the unsigned less-than. -/
def scmpIs (i : Instr) (f : GW) (ok : Bool) (reads : List Nat) (b : Env → DWord) : Prop :=
  groupWord i (fun _ => ok && decide (f.d < 4)) (fun _ => f.a :: reads)
    (fun e =>
      let n := if f.d < 2 then 64 else 32
      let x := (e.g.getS f.a).toNat % 2 ^ n
      let y := (b e).toNat % 2 ^ n
      { e with g := { e.g with cond := { e.g.cond with eq := decide (x = y), lt := if f.d % 2 = 0 then decide (toInt n x < toInt n y) else decide (x < y), ltn := decide (x < y) } } })
    Env.next

/-- An engine command (R273): its first fault, its waits, the deferred faults that it surfaces (R124), and, past them, the command numbered in its context as a commit point, then its request for leave. -/
def commandIs (i : Instr) (f : GW) (ok : Bool) (kind : Nat → Bool) (regs : List Nat) (ranges : Env → List Range) (extra : Env → EngId → Nat → Option LFault)
    (demand : Env → Nat) (pat : Env → List DWord) : Prop :=
  ∀ s (e : Env), e.ofGroup s → wellFormed i = true →
    (ok = false → exec i s = e.groupIllegal) ∧
    (ok = true → (f.d :: regs).any e.g.emptyS = true → exec i s = .next s) ∧
    (ok = true → (f.d :: regs).any e.g.emptyS = false → ∀ q, e.unfilled? (f.d :: regs) = some q → ∃ t, exec i s = .next t ∧ e.groupStops t q) ∧
    (ok = true → (f.d :: regs).any e.g.emptyS = false → e.unfilled? (f.d :: regs) = none →
      (∀ q, e.commandBad f kind (ranges e) (extra e) = some q → ∃ t, exec i s = .next t ∧ e.groupStops t q) ∧
      (e.commandBad f kind (ranges e) (extra e) = none →
        (e.commandWaits i = true → exec i s = .next s) ∧
        (e.commandWaits i = false → e.commandFails i ≠ [] → exec i s = .next (Env.stop e (e.commandFails i)).out) ∧
        (e.commandWaits i = false → e.commandFails i = [] → ∃ k t, ctxOf e.u f.tl = some k ∧
          (e.commandMade f k (e.newCommand f i k (demand e) (pat e))).groupResult t e.next ∧
          exec i s = .next (e.commandAsks k (e.newCommand f i k (demand e) (pat e)) t))))

/-- A DIECTL word, QUIESCE or ADMIT: a die that is present stands at the step given, and then what `k` says (R358 to R360). -/
def dieIs (i : Instr) (f : GW) (op : Nat) (ok writes : Bool) (at_ : Option Nat) (k : Nat → State → SysEnd) : Prop :=
  sysIs i (fun _ => ok && f.b == 0 && f.f6 == op) ((if writes then [f.d] else []) ++ [f.a]) (fun e =>
    if e.sA f < 4 ∧ (e.s.die (e.sA f)).present = true ∧ (∀ n ∈ at_, (e.s.die (e.sA f)).at_ = n) then k (e.sA f) e.s else .fault 0x04)

end Sys2Proof.Machine
end

