-- ==== Sys2Proof/Certificates/Slice0/Obligations.lean ====
section
/-! DEFINITION. The statements about the model, for the provers. -/

open Sys2Proof Sys2Proof.Machine

/-- R177, R178, R182 (ISAT): each two- and three-operand integer instruction, of every type and form, writes Wr of its formula to d in every guarded lane; nothing else changes. -/
def Obligations.IntegerResults : Prop :=
  ∀ f : LW,
    intIs (.iadd f) f false (fun _ a b _ => a + b) ∧ intIs (.isub f) f false (fun _ a b _ => a - b) ∧ intIs (.imul f) f false (fun _ a b _ => a * b) ∧
    intIs (.imulh f) f false (fun t a b _ => a * b / ((2 ^ t.n : Nat) : Int)) ∧ intIs (.imad f) f true (fun _ a b c => a * b + c) ∧
    intIs (.idiv f) f false (fun t a b _ => if b = 0 then -1 else if t.sgn && a == t.least && b == -1 then a else Int.tdiv a b) ∧
    intIs (.irem f) f false (fun t a b _ => if b = 0 then a else if t.sgn && a == t.least && b == -1 then 0 else a - Int.tdiv a b * b) ∧
    intIs (.imin f) f false (fun _ a b _ => min a b) ∧ intIs (.imax f) f false (fun _ a b _ => max a b) ∧
    intIs (.andI f) f false (fun t a b _ => ((ofInt t.n a &&& ofInt t.n b : Nat) : Int)) ∧ intIs (.orI f) f false (fun t a b _ => ((ofInt t.n a ||| ofInt t.n b : Nat) : Int)) ∧
    intIs (.xor f) f false (fun t a b _ => ((ofInt t.n a ^^^ ofInt t.n b : Nat) : Int)) ∧
    intIs (.shl f) f false (fun t a b _ => a * ((2 ^ (b % t.n).toNat : Nat) : Int)) ∧
    intIs (.shr f) f false (fun t a b _ => ((ofInt t.n a / 2 ^ (b % t.n).toNat : Nat) : Int)) ∧
    intIs (.sar f) f false (fun t a b _ => toInt t.n (ofInt t.n a) / ((2 ^ (b % t.n).toNat : Nat) : Int)) ∧
    intIs (.rol f) f false (fun t a b _ => ((ofInt t.n a * 2 ^ (b % t.n).toNat + ofInt t.n a / 2 ^ (t.n - (b % t.n).toNat) : Nat) : Int)) ∧
    intIs (.isat f) f true (fun _ a b c => min (max a b) c)

/-- R180: each integer unary instruction, of every type. -/
def Obligations.IntegerUnary : Prop :=
  ∀ f : LW,
    unaryIs (.ineg f) f false false (fun t a => -(t.val a)) ∧ unaryIs (.iabs f) f true false (fun t a => |t.val a|) ∧
    unaryIs (.notI f) f false false (fun t a => ((2 ^ t.n - 1 - a : Nat) : Int)) ∧
    unaryIs (.popc f) f false true (fun t a => (((List.range t.n).countP (fun i => a.testBit i) : Nat) : Int)) ∧
    unaryIs (.clz f) f false true (fun t a => (((List.range t.n).findIdx (fun i => a.testBit (t.n - 1 - i)) : Nat) : Int)) ∧
    unaryIs (.ctz f) f false true (fun t a => (((List.range t.n).findIdx (fun i => a.testBit i) : Nat) : Int)) ∧
    unaryIs (.brev f) f false false (fun t a => ((ofBits t.n (fun i => a.testBit (t.n - 1 - i)) : Nat) : Int))

/-- R179: BFX extracts, BFI inserts, the field of min(width, N) bits at pos that the descriptor names. -/
def Obligations.BitFields : Prop :=
  ∀ f : LW,
    fieldIs (.bfx f) f false (fun t a d _ =>
      let wid := min (d / 2 ^ 8 % 64) t.n
      let x := ofBits wid (fun i => decide (d % 64 + i < t.n) && a.testBit (d % 64 + i))
      if t.sgn then toInt wid x else (x : Int)) ∧
    fieldIs (.bfi f) f true (fun t a d c =>
      ((ofBits t.n (fun i => if d % 64 ≤ i ∧ i < d % 64 + min (d / 2 ^ 8 % 64) t.n then a.testBit (i - d % 64) else c.testBit i) : Nat) : Int))

/-- R181, R182 (SEL), R183, R184: a comparison to a mask bit, a selection, moves, and the special values. That MOVS ignores its type code is the model's choice (log 78). -/
def Obligations.IntegerMoves : Prop :=
  ∀ f : LW,
    laneWord (.icmp f) (fun _ => icmpLegal f) (fun e => e.view? f.g (srcV (LW.ty f).wide f.a f.ea ++ srcB f (LW.ty f).wide)) (fun e w => e.popped w (srcV (LW.ty f).wide f.a f.ea ++ srcB f (LW.ty f).wide))
      (fun _ w l =>
        let a := (LW.ty f).val (w.reg (LW.ty f).wide l f.a)
        let b := w.bInt f (LW.ty f) l
        ⟨[], [(f.d, match f.e.subop with | 0 => a == b | 1 => a != b | 2 => decide (a < b) | 3 => decide (a ≤ b) | 4 => decide (a > b) | _ => decide (a ≥ b))], 0⟩) ∧
    laneWord (.sel f) (fun _ => selLegal f) (fun e => e.view? f.g (intSrcs f false)) (fun e w => e.popped w (intSrcs f false))
      (fun e w l => ⟨wv (LW.ty f).wide f.d ((LW.ty f).wr (if (e.g.getM f.e.c).getLsbD l then (LW.ty f).val (w.reg (LW.ty f).wide l f.a) else w.bInt f (LW.ty f) l)), [], 0⟩) ∧
    laneWord (.mov f) (fun _ => movLegal f) (fun e => e.view? f.g (movSrcs f)) (fun e w => e.popped w (movSrcs f))
      (fun e w l => ⟨wv (LW.ty f).wide f.d ((LW.ty f).wr ((LW.ty f).val (if f.e.bs then (e.g.getS f.b).toNat else w.reg (LW.ty f).wide l f.a))), [], 0⟩) ∧
    laneWord (.movi f) (fun _ => moviLegal f && f.e.subop == 0 && evenIf (LW.ty f).wide f.d) (fun e => e.view? f.g (dstV (LW.ty f).wide f.d)) (fun e w => e.popped w (dstV (LW.ty f).wide f.d))
      (fun _ _ _ => ⟨wv (LW.ty f).wide f.d ((LW.ty f).wr (if (LW.ty f).sgn then toInt 16 f.e.imm else (f.e.imm : Int))), [], 0⟩) ∧
    laneWord (.moviH f) (fun _ => moviLegal f && f.e.subop == 1 && decide (f.e.fs < 2)) (fun e => e.view? f.g [.v f.d false]) (fun e w => e.popped w [.v f.d false])
      (fun _ w l => ⟨[(f.d, BitVec.ofNat 32 (w.v l f.d % 2 ^ 16 + f.e.imm * 2 ^ 16))], [], 0⟩) ∧
    (f.e.bs = false → laneWord (.movs f) (fun _ => movsLegal f) (fun e => e.view? f.g (dstV false f.d)) (fun e w => e.popped w (dstV false f.d))
      (fun e _ l => ⟨[(f.d, BitVec.ofNat 32 (match f.b with
        | 0 => l | 1 => e.c.grp | 2 => e.u.idx | 3 => e.u.idx % recGx e.u.record | 4 => e.u.idx / recGx e.u.record % recGy e.u.record
        | _ => e.u.idx / (recGx e.u.record * recGy e.u.record)))], [], 0⟩)) ∧
    (f.e.bs = true → laneWord (.movs f) (fun _ => movsLegal f) (fun e => e.viewX? f.g [] (dstS f.d) (fun _ _ => []) none)
      (fun e w => if w.act.isEmpty then e.popped w (dstS f.d) else { e.popped w (dstS f.d) with g := (e.popped w (dstS f.d)).g.putS f.d (BitVec.ofNat 64 (match f.b with
        | 1 => e.c.grp | 2 => e.u.idx | 3 => e.u.idx % recGx e.u.record | 4 => e.u.idx / recGx e.u.record % recGy e.u.record
        | 5 => e.u.idx / (recGx e.u.record * recGy e.u.record) | _ => e.g.regc)) })
      (fun _ _ _ => ⟨[], [], 0⟩))

/-- R145 to R148, R186 to R188: floating arithmetic, minimum and maximum, scaling and comparison, with their sticky flags. -/
def Obligations.FloatResults : Prop :=
  ∀ f : LW,
    fpIs (.fadd f) f [0, 1, 2, 3] true false (fun t m a b _ => t.add m a b) ∧ fpIs (.fsub f) f [0, 1, 2, 3] true false (fun t m a b _ => t.sub m a b) ∧
    fpIs (.fmul f) f [0, 1, 2, 3] true false (fun t m a b _ => t.mul m a b) ∧ fpIs (.ffma f) f [0, 1, 2, 3] true true (fun t m a b c => t.fma m a b c) ∧
    fpIs (.fdiv f) f [0, 1] true false (fun t m a b _ => t.div m a b) ∧
    fpIs (.fmin f) f [0, 1, 2, 3] false false (fun t _ a b _ => t.pick false a b) ∧ fpIs (.fmax f) f [0, 1, 2, 3] false false (fun t _ a b _ => t.pick true a b) ∧
    laneWord (.fscl f) (fun _ => fsclLegal f) (fun e => e.view? f.g (srcV (f.e.fs == 1) f.a f.ea ++ srcB f false ++ dstV (f.e.fs == 1) f.d)) (fun e w => e.popped w (srcV (f.e.fs == 1) f.a f.ea ++ srcB f false ++ dstV (f.e.fs == 1) f.d))
      (fun _ w l =>
        let r := (fmtOf f.e.fs).scl (f.e.subop % 4) (w.fp f.e.fs l f.a) (toInt 32 (w.bBits f false l))
        ⟨wv (f.e.fs == 1) f.d r.1, [], r.2⟩) ∧
    laneWord (.fcmp f) (fun _ => fcmpLegal f) (fun e => e.view? f.g (srcV (f.e.fs == 1) f.a f.ea ++ srcB f (f.e.fs == 1))) (fun e w => e.popped w (srcV (f.e.fs == 1) f.a f.ea ++ srcB f (f.e.fs == 1)))
      (fun _ w l =>
        let r := (fmtOf f.e.fs).cmp f.e.subop (w.fp f.e.fs l f.a) (w.fpB f l)
        ⟨[], [(f.d, r.1)], r.2⟩)

/-- R149, R150, R189, R190: the floating unary instructions. Where the interval search does not decide a rounding, the value is free (log 9). -/
def Obligations.FloatUnary : Prop :=
  ∀ f : LW,
    fpUnaryIs (.fabs f) f [0, 1, 2, 3] false false (fun t _ a => (a % 2 ^ (t.width - 1), 0)) ∧
    fpUnaryIs (.fneg f) f [0, 1, 2, 3] false false (fun t _ a => (a ^^^ 2 ^ (t.width - 1), 0)) ∧
    fpUnaryIs (.fsqrt f) f [0, 1] true false (fun t m a => t.sqrt m a) ∧ fpUnaryIs (.frcp f) f [0, 1] true false (fun t m a => t.rcp m a) ∧
    fpUnaryIs (.frsq f) f [0, 1] true false (fun t m a => t.rsq m a) ∧ fpUnaryIs (.fexp2 f) f [0, 1] true false (fun t m a => t.exp2 m a) ∧
    fpUnaryIs (.flog2 f) f [0, 1] true false (fun t m a => t.log2 m a) ∧ fpUnaryIs (.fclass f) f [0, 1, 2, 3] false true (fun t _ a => (t.classMask a, 0)) ∧
    fpUnaryIs (.frnd f) f [0, 1, 2, 3] true false (fun t m a => t.rnd m a) ∧ fpUnaryIs (.fgete f) f [0, 1, 2, 3] false true (fun t _ a => (t.getExp a, 0)) ∧
    fpUnaryIs (.sinT f) f [0] false false (fun _ _ a => turnFn false a) ∧ fpUnaryIs (.cosT f) f [0] false false (fun _ _ a => turnFn true a) ∧
    fpUnaryIs (.fredT f) f [0] false false (fun _ _ a => fred a) ∧
    laneWord (.sincosT f) (fun _ => sincosLegal f) (fun e => e.view? f.g (srcV false f.a f.ea ++ dstV true f.d)) (fun e w => e.popped w (srcV false f.a f.ea ++ dstV true f.d))
      (fun _ w l => ⟨[(f.d, BitVec.ofNat 32 (turnFn false (w.fp 0 l f.a)).1), (f.d + 1, BitVec.ofNat 32 (turnFn true (w.fp 0 l f.a)).1)], [],
        (turnFn false (w.fp 0 l f.a)).2 ||| (turnFn true (w.fp 0 l f.a)).2⟩)

/-- R137, R191: conversions of a float or an integer through the slot that fs names. That an infinity stays one in a wider format (log 10), and how an integer is converted to a wider integer of the other signedness (log 67), are the model's readings. -/
def Obligations.Conversions : Prop :=
  ∀ f : LW,
    cvtIs (.cvt f) f false (fun k a => cvtFloat k f.e.subop (a % 2 ^ (fmtOf f.e.subop).width)) ∧
    cvtIs (.cvti f) f true (fun k a => cvtInt k ((intTy f.e.subop).val a))

/-- R142 to R144, R193 to R196: QPACK, QUNPK and HAD. That a signalling NaN in a BF16 scale raises no flag is the model's choice (log 78). -/
def Obligations.BlockFormats : Prop :=
  ∀ f : LW,
    blockIs (.qpack f) f qpackLegal (fun _ => false) (·.block) (fun w k l => w.qpacked f k l) ∧
    blockIs (.qunpk f) f qunpkLegal (fun k => !k.had) (·.block) (fun w k l => if k.had then w.unpackedHad f k l else w.unpacked f k l) ∧
    blockIs (.had f) f hadLegal (fun _ => false) (fun _ => hadBlock f) (fun w k l => w.transformed f k l)

/-- R197 to R202: where each lane of a shuffle takes its value from. -/
def Obligations.Shuffles : Prop :=
  ∀ f : LW,
    shuffleIs (.shfl f) f (shflB f) (srcB f false) (fun w l => (w.bCount f l : Int)) ∧
    shuffleIs (.shflUp f) f (shflB f) (srcB f false) (fun w l => (l : Int) - (w.bCount f l : Int)) ∧
    shuffleIs (.shflDn f) f (shflB f) (srcB f false) (fun w l => (l : Int) + (w.bCount f l : Int)) ∧
    shuffleIs (.shflX f) f (shflB f) (srcB f false) (fun w l => ((l ^^^ w.bCount f l : Nat) : Int)) ∧
    shuffleIs (.perm f) f (permLegal f) [] (fun _ l => ((l - l % 4 + f.e.imm / 4 ^ (l % 4) % 4 : Nat) : Int)) ∧
    shuffleIs (.bcast f) f (shflB f && (f.e.form == 1 || f.e.bs)) (srcB f false) (fun w l => (w.bCount f l : Int)) ∧
    laneWord (.swpPair f) (fun _ => swpLegal f) (fun e => e.viewX? f.g (srcV false f.a f.ea ++ srcFill f) (srcFill f ++ dstV false f.d) (fun w l => w.reads f l ((l ^^^ 1 : Nat) : Int)) none)
      (fun e w => e.popped w (srcFill f ++ dstV false f.d))
      (fun _ w l =>
        let x := (w.from false l (l ^^^ 1) f.a).getD (w.fill f l)
        ⟨wv false f.d (if l % 2 = 1 then x else match f.e.subop % 4 with | 1 => x ^^^ 2 ^ 31 | 2 => x ^^^ 2 ^ 15 | _ => x), [], 0⟩)

/-- R203, R206: REDU and SCAN over the active lanes in ascending order, and the empty flag. -/
def Obligations.Reductions : Prop :=
  ∀ f : LW,
    laneWord (.redu f) (fun _ => reduLegal f && evenIf (reduWide f) f.a && (f.e.bs || evenIf (reduWide f) f.d))
      (fun e => e.viewX? f.g (srcV (reduWide f) f.a f.ea) (if f.e.bs then dstS f.d else dstV (reduWide f) f.d) (ownReads (reduWide f) f) (if f.e.bs then some f.d else none))
      (fun e w => e.besides w (if f.e.bs then dstS f.d else dstV (reduWide f) f.d) (if f.e.bs then some (f.d, BitVec.ofNat 64 (w.redu f w.act).1) else none) true)
      (fun _ w _ => ⟨if f.e.bs then [] else wv (reduWide f) f.d (w.redu f w.act).1, [], (w.redu f w.act).2⟩) ∧
    laneWord (.scan f) (fun _ => reduLegal f && !f.e.bs && evenIf (reduWide f) f.a && evenIf (reduWide f) f.d)
      (fun e => e.viewX? f.g (srcV (reduWide f) f.a f.ea) (dstV (reduWide f) f.d) (ownReads (reduWide f) f) none)
      (fun e w => e.besides w (dstV (reduWide f) f.d) none true)
      (fun _ w l => ⟨wv (reduWide f) f.d (w.redu f (w.act.filter (fun k => decide (k ≤ l)))).1, [], (w.redu f (w.act.filter (fun k => decide (k ≤ l)))).2⟩)

/-- R204 to R206: votes over the values of the active lanes, counts of mask bits, and MATCH. -/
def Obligations.Votes : Prop :=
  ∀ f : LW,
    voteIs (.vote f) f 0 (fun xs => ofBits 64 (fun l => xs.any (fun p => p.1 == l && p.2 != 0))) ∧
    voteIs (.voteAny f) f 1 (fun xs => if ∃ p ∈ xs, p.2 ≠ 0 then 1 else 0) ∧
    voteIs (.voteAll f) f 2 (fun xs => if ∀ p ∈ xs, p.2 ≠ 0 then 1 else 0) ∧
    voteIs (.voteUni f) f 3 (fun xs => if ∀ p ∈ xs, ∀ q ∈ xs, p.2 = q.2 then 1 else 0) ∧
    mcountIs (.mcount f) f false (fun e _ => e.G) ∧ mcountIs (.mcountPre f) f true (fun _ l => l) ∧
    laneWord (.matchI f) (fun e => matchLegal e f)
      (fun e => e.viewX? f.g (srcV (wideCode f.e.fs) f.a f.ea) (dstV (e.G == 64) f.d) (ownReads (wideCode f.e.fs) f) none)
      (fun e w => e.besides w (dstV (e.G == 64) f.d) none true)
      (fun e w l => ⟨wv (e.G == 64) f.d (ofBits 64 (fun k => decide (k ∈ w.act) && w.reg (wideCode f.e.fs) k f.a == w.reg (wideCode f.e.fs) l f.a)), [], 0⟩)

/-- R217 to R220: MKA, whose lanes with an offset outside the range fault with d unchanged, SEGNO, SEGOF, PREF, and CHKA's codes. -/
def Obligations.Addresses : Prop :=
  ∀ f : LW,
    laneWord (.mka f) (fun _ => mkaLegal f)
      (fun e => (e.view? f.g (memSrcs f ++ dstV true f.d)).filter (fun w => w.act.all (fun l => decide (0 ≤ (w.addr f l).off ∧ (w.addr f l).off < 2 ^ 40)))) (fun e w => e.popped w (memSrcs f ++ dstV true f.d))
      (fun _ w l => ⟨wv true f.d ((w.addr f l).seg * 2 ^ 40 + (w.addr f l).off.toNat), [], 0⟩) ∧
    (∀ s (e : Env) w, e.ofLanes s → wellFormed (.mka f) = true → mkaLegal f = true → e.view? f.g (memSrcs f ++ dstV true f.d) = some w →
      let inside (l : Nat) : Bool := decide (0 ≤ (w.addr f l).off ∧ (w.addr f l).off < 2 ^ 40)
      let e1 := e.popped w (memSrcs f ++ dstV true f.d)
      ∃ t, exec (.mka f) s = .next t ∧
        Env.closes { e1 with g := w.act.foldl (fun g l => g.apply l (if inside l then ⟨wv true f.d ((w.addr f l).seg * 2 ^ 40 + (w.addr f l).off.toNat), [], 0⟩ else Writes.none)) e1.g } t
          (e.outs f.g (fun l => if inside l then .next else .fault (lf 0x02 (addrNat (w.addr f l)) false)))) ∧
    laneWord (.segno f) (fun _ => segForm f) (fun e => e.view? f.g (srcV true f.a false ++ dstV false f.d)) (fun e w => e.popped w (srcV true f.a false ++ dstV false f.d))
      (fun _ w l => ⟨wv false f.d (w.pair l f.a / 2 ^ 40), [], 0⟩) ∧
    laneWord (.segof f) (fun _ => segForm f && f.d % 2 == 0) (fun e => e.view? f.g (srcV true f.a false ++ dstV true f.d)) (fun e w => e.popped w (srcV true f.a false ++ dstV true f.d))
      (fun _ w l => ⟨wv true f.d (w.pair l f.a % 2 ^ 40), [], 0⟩) ∧
    laneWord (.pref f) (fun _ => prefLegal f) (fun e => e.view? f.g (memSrcs f)) (fun e w => e.popped w (memSrcs f)) (fun _ _ _ => ⟨[], [], 0⟩) ∧
    laneWord (.chka f) (fun _ => chkaLegal f) (fun e => e.view? f.g (memSrcs f ++ dstV false f.d)) (fun e w => e.popped w (memSrcs f ++ dstV false f.d))
      (fun e w l =>
        let r := memReq (w.addr f l) (sizeBytes f.e.fs) (sizeBytes f.e.fs) (f.e.subop.testBit 0) (f.e.subop.testBit 1) (f.e.subop.testBit 2) .cells
        ⟨wv false f.d (match e.s.checks16 e.u r with | .error b => b.code | .ok _ => 0), [], 0⟩)

/-- R44, R66, R209, R210, R213 to R215, R221: the loads of lanes, one access or one per lane; each leaves memory as it is, its destinations empty, their old values in place, and a producer outstanding that names lane, destination and bytes (LDL's the second word of a bound entry; an unbound entry it swings to binding, with 0x01, and at one that is being bound it parks, R66). The accesses of an issue are outstanding together (R210). -/
def Obligations.Loads : Prop :=
  ∀ f : LW,
    loadIs (.ld f) f (ldLegal f) (sizeBytes f.e.fs) (sizeBytes f.e.fs) (ldDests f) (fun q => .load (sizeBytes f.e.fs) (LW.ty f).sgn q) ∧
    loadIs (.ldv f) f (ldvLegal f) (4 * blockCount f) (min (4 * blockCount f) 16) (upFrom f.d (blockCount f)) (fun q => .block (blockCount f) q) ∧
    onceIs (.lds f) f.g (fun _ => ldsLegal f) false (memSrcs f ++ dstS f.d) (fun e => e.loadCheck f (sizeBytes f.e.fs) (sizeBytes f.e.fs))
      (fun e act _ acc => e.loadWaits act acc.keys) (ldsStep f) always ∧
    onceIs (.ldl f) f.g (fun _ => ldlLegal f) false (dstS f.d) (fun e _ l => e.check l (ldlReq f) 5) (fun e act _ acc => e.ldlWaits act acc.keys) (ldlStep f)
      (fun e _ _ acc => e.s.rd8 (acc.keys.headD 0) / 2 ^ 48 = 2 ^ 15) ∧
    (∀ (dests : List Nat) (kind : Nat → ProdKind) (w : View) (e : Env) (l : Nat) (acc : Acc), (∀ d ∈ dests, d < 64) →
      let r := loadLane f dests kind w e l acc
      r.2 = .next ∧ r.1.s.mem = e.s.mem ∧ (∀ k n, r.1.g.getV k n = e.g.getV k n) ∧
        (∀ k n, n < 64 → r.1.g.emptyV k n = (e.g.emptyV k n || decide (k = l ∧ n ∈ dests))) ∧
        ∃ p, r.1.g.inflight = e.g.inflight ++ [p] ∧ p.kind = kind (acc.scope f.e.subop) ∧ p.commit = false ∧ p.parts.map (fun x => (x.lane, x.dest, x.keys)) = [(l, .v l f.d, acc.keys)]) ∧
    (∀ (e : Env) (n : Nat) (x : Part), x ∈ (e.merge n).g.inflight.flatMap (·.parts) ↔ x ∈ e.g.inflight.flatMap (·.parts)) ∧
    (∀ (w : View) (e : Env) (l : Nat) (acc : Acc),
      let r := ldsStep f e w l acc
      r.2 = .next ∧ r.1.s.mem = e.s.mem ∧ (∀ n, r.1.g.getS n = e.g.getS n) ∧ (∀ n, r.1.g.emptyS n = (e.g.emptyS n || decide (n = f.d))) ∧
        ∃ p, r.1.g.inflight = e.g.inflight ++ [p] ∧ p.kind = .load (sizeBytes f.e.fs) (LW.ty f).sgn (acc.scope f.e.subop) ∧ p.commit = false ∧
          p.parts.map (fun x => (x.lane, x.dest, x.keys)) = [(l, .s f.d, acc.keys)]) ∧
    (∀ (w : View) (e : Env) (l : Nat) (acc : Acc), e.s.rd8 (acc.keys.headD 0) / 2 ^ 48 = 2 ^ 15 →
      let r := ldlStep f e w l acc
      r.2 = .next ∧ r.1.s.mem = e.s.mem ∧ (∀ n, r.1.g.getS n = e.g.getS n) ∧ (∀ n, r.1.g.emptyS n = (e.g.emptyS n || decide (n = f.d))) ∧
        ∃ p, r.1.g.inflight = e.g.inflight ++ [p] ∧ p.kind = .load 8 false 5 ∧ p.commit = false ∧ p.parts.map (fun x => (x.lane, x.dest, x.keys)) = [(l, .s f.d, upFrom (acc.keys.headD 0 + 8) 8)]) ∧
    (∀ (w : View) (e : Env) (l : Nat) (acc : Acc), e.s.rd8 (acc.keys.headD 0) / 2 ^ 48 = 0 →
      (ldlStep f e w l acc).2 = .fault (lf 0x01 (addrNat ⟨4, ((16 * f.e.imm : Nat) : Int)⟩) false) ∧
        (ldlStep f e w l acc).1.s.binders = e.s.binders ++ [⟨recCtx e.u.record, acc.entry e.s, e.u.uid, e.c.grp, false, []⟩] ∧
        (acc.g.kind ≠ .repl → (ldlStep f e w l acc).1.s.rd8 (acc.keys.headD 0) = e.s.rd8 (acc.keys.headD 0) + 2 ^ 62)) ∧
    (∀ (w : View) (e : Env) (l : Nat) (acc : Acc), e.s.rd8 (acc.keys.headD 0) / 2 ^ 48 = 2 ^ 14 →
      (ldlStep f e w l acc).2 = .park .bindingEntry (addrNat ⟨4, ((16 * f.e.imm : Nat) : Int)⟩) ∧ (ldlStep f e w l acc).1.s.mem = e.s.mem)

/-- R107, R122, R209, R210, R213 to R215: the stores of lanes, in ascending order, the low bytes of d, least significant byte first. -/
def Obligations.Stores : Prop :=
  ∀ f : LW,
    storeIs (.st f) f (stLegal f) (sizeBytes f.e.fs) (sizeBytes f.e.fs) f.e.subop (srcV (LW.ty f).wide f.d false)
      (fun w l => (leBytes (sizeBytes f.e.fs) (w.reg (LW.ty f).wide l f.d % 2 ^ (8 * sizeBytes f.e.fs)), 0)) ∧
    storeIs (.stv f) f (stvLegal f) (4 * blockCount f) (min (4 * blockCount f) 16) f.e.subop ((upFrom f.d (blockCount f)).map (fun r => Src.v r false))
      (fun w l => ((upFrom f.d (blockCount f)).flatMap (fun r => leBytes 4 (w.v l r)), 0)) ∧
    onceIs (.sts f) f.g (fun _ => stsLegal f) true (memSrcs f ++ [.s f.d false]) (fun e => e.storeCheck f (sizeBytes f.e.fs) (sizeBytes f.e.fs) f.e.subop (fun _ _ => .ok ()))
      (fun e act _ acc => e.storeWaits f.e.subop 1 (act.map (fun l => (l, acc)))) (stsStep f) plainSeg

/-- R91 to R96, R216: the lattice instructions, lane by lane. That a segment which is no lattice is checked as for 4-byte accesses is the model's choice (log 78), and 0x03 for half an 8-byte cell its reading (log 53). -/
def Obligations.LatticeWords : Prop :=
  ∀ f : LW,
    eachIs (.stj f) f.g (fun _ => stjLegal f) true (fun e => e.cellSrcs f f.g [f.d] []) (fun e => e.cellCheck f false true [f.d]) (fun e w ps => e.joinWaits w.act ps) (fun _ => stjLane f)
      (fun _ e1 outs => { e1 with g := e1.g.enter (doneOf outs) e1.next }) always ∧
    eachIs (.ldj f) f.g (fun _ => ldjLegal f false) false (fun e => e.cellSrcs f f.g [f.e.c] [f.d]) (fun e => e.cellCheck f true false [f.d, f.e.c]) Env.ldjWaits (fun _ => ldjLane f) (fun _ e1 _ => e1)
      (fun e w l acc => latLe acc.g.ltype (if acc.g.ltype = 7 then f32Canon (w.reg (cellBytes acc.g.ltype == 8) l f.e.c) else w.reg (cellBytes acc.g.ltype == 8) l f.e.c) (e.cellNow acc) = true) ∧
    eachIs (.ldjNb f) f.g (fun _ => ldjLegal f true) false (fun e => e.cellSrcs f f.g [f.e.c] [f.d]) (fun e => e.cellCheck f true false [f.d, f.e.c]) Env.ldjWaits (fun _ => ldjNbLane f) (fun _ e1 _ => e1) always

/-- R222 to R225: the atomics of lanes, each with its operation; the destination is empty until the home has performed it. The store-suppressed flag of a failed atomic is the model's reading (log 15). -/
def Obligations.Atomics : Prop :=
  ∀ f : LW,
    atomIs (.amoAdd f) f (amoLegal f) (LW.ty f).wide (LW.ty f).sgn false .never (fun _ => .add) ∧
    atomIs (.amoMin f) f (amoLegal f) (LW.ty f).wide (LW.ty f).sgn false .never (fun _ => .min) ∧
    atomIs (.amoMax f) f (amoLegal f) (LW.ty f).wide (LW.ty f).sgn false .never (fun _ => .max) ∧
    atomIs (.amoAnd f) f (amoLegal f) (LW.ty f).wide (LW.ty f).sgn false .never (fun _ => .and) ∧
    atomIs (.amoOr f) f (amoLegal f) (LW.ty f).wide (LW.ty f).sgn false .never (fun _ => .or) ∧
    atomIs (.amoXor f) f (amoLegal f) (LW.ty f).wide (LW.ty f).sgn false .never (fun _ => .xor) ∧
    atomIs (.amoXchg f) f (amoLegal f) (LW.ty f).wide (LW.ty f).sgn false .never (fun _ => .xchg) ∧
    atomIs (.amoJoin f) f (amoLegal f) (LW.ty f).wide (LW.ty f).sgn false .join (fun lt => .join lt) ∧
    atomIs (.amoc f) f (amoLegal f) (LW.ty f).wide (LW.ty f).sgn true .never (fun _ => .cas) ∧
    atomIs (.amof f) f (amofLegal f) (f.e.fs == 3) false false .never (fun _ => .fadd (if f.e.fs = 1 then 0 else if f.e.fs = 3 then 1 else 3))

/-- R222 to R224: the value that an atomic of n bytes leaves, from the old value, the operand and the expected value. -/
def Obligations.AtomicValues : Prop :=
  ∀ (n : Nat) (sgn : Bool) (o x ex : Nat), o < 2 ^ (8 * n) → x < 2 ^ (8 * n) → 0 < n →
    atomNew .add n sgn o x ex = ((o + x) % 2 ^ (8 * n), 0) ∧ atomNew .and n sgn o x ex = (o &&& x, 0) ∧ atomNew .or n sgn o x ex = (o ||| x, 0) ∧
    atomNew .xor n sgn o x ex = (o ^^^ x, 0) ∧ atomNew .xchg n sgn o x ex = (x, 0) ∧ atomNew .cas n sgn o x ex = (if o = ex then x else o, 0) ∧
    atomNew .min n sgn o x ex = (ofInt (8 * n) (min ((⟨8 * n, sgn⟩ : IntTy).val o) ((⟨8 * n, sgn⟩ : IntTy).val x)), 0) ∧
    atomNew .max n sgn o x ex = (ofInt (8 * n) (max ((⟨8 * n, sgn⟩ : IntTy).val o) ((⟨8 * n, sgn⟩ : IntTy).val x)), 0)

/-- R226, R228 to R230: fences, barriers, circular buffers and waits on a count. The store-suppressed flag of CBREL and CBACQ (log 15), and the address 0 of WAITTL's 0x04 (log 78), are the model's. -/
def Obligations.Synchronisation : Prop :=
  ∀ f : LW,
    outWord (.fence f) (fun _ => fenceLegal f) (·.fenceHeld f) (fun e => { e with g := e.fenceBegun f }) (fun e => e.outs f.g (e.fenceOut f)) (fun _ t => t) ∧
    outWord (.bar f) (fun _ => barOk f) (fun e => e.releaseWaits (e.guarded f.g)) id
      (fun e => e.outs f.g (fun _ => if e.phaseDone (e.barArrived f) then .next else .park .barrier f.a))
      (fun e t => t.onUnit e.c.uid (fun u => u.barPhase f.a (e.barArrived f) [])) ∧
    outWord (.barArrive f) (fun _ => barOk f) (fun e => e.releaseWaits (e.guarded f.g)) id
      (fun e => e.outs f.g (fun l => if l ∈ e.barFresh f ∨ e.phaseDone (e.barArrived f) then .next else .park .barrier (16 + f.a)))
      (fun e t => t.onUnit e.c.uid (fun u => u.barPhase f.a (e.barArrived f) ((e.barAgain f).map (fun l => (e.c.grp, l))))) ∧
    outWord (.barWait f) (fun _ => barOk f) (fun _ => false) id
      (fun e => e.outs f.g (fun l => if (e.c.grp, l) ∈ (e.u.bar f.a).arrived then .park .barrier f.a else .next)) (fun _ t => t) ∧
    onceIf (fun e => !(e.cbUnwritten f)) (fun e => .go e 0) (.cbacq f) f.g (fun _ => cbOk f) false (memSrcs f) (fun e => e.cbKey f false) (fun e => e.cbacqWaits f) (fun _ => cbacqStep f)
      (fun e t => t.cbPollGroup e.c.uid e.c.grp) always ∧
    (∀ s (e : Env), e.ofLanes s → cbOk f = true → e.cbUnwritten f = true → exec (.cbacq f) s = .next s) ∧
    onceIf (fun e => !(e.releaseWaits (e.guarded f.g))) (fun e => .go e 0) (.cbrel f) f.g (fun _ => cbOk f && f.d == 0) true (memSrcs f) (fun e => e.cbKey f true) (fun _ _ _ _ => false)
      (fun _ => cbrelStep f) (fun e t => e.cbWoken f t) (fun e _ _ key => (cbGive (f.e.subop == 1) (e.s.rd8 key) (e.s.rd8 (key + 8))).isSome = true) ∧
    (∀ s (e : Env), e.ofLanes s → (cbOk f && f.d == 0) = true → e.releaseWaits (e.guarded f.g) = true → exec (.cbrel f) s = .next s) ∧
    (∀ s (e : Env), e.ofLanes s → wellFormed (.waittl f) = true →
      (waittlLegal f = false → exec (.waittl f) s = e.illegal) ∧
      (waittlLegal f = true → ctxOf e.u f.a = none → ∃ t, exec (.waittl f) s = .next t ∧ e.closes t (e.outs f.g (fun _ => .fault (lf 0x04 0 false)))) ∧
      (∀ k w, waittlLegal f = true → ctxOf e.u f.a = some k → e.view? f.g (srcB f false) = some w → ∃ t, exec (.waittl f) s = .next t ∧
        Env.closes (e.popped w (srcB f false)) t (e.outs f.g (fun l => waittlOut f (e.s.engine k) (waittlCount f w l)))))

/-- R231 to R235: lane transfers of control, calls and returns, exits, NOP, REGION and IFENCE. Which entry of a return stack moves, hence which push or pop meets 0x12, is the model's choice (log 68); that a misaligned target is taken and faults at its fetch is its reading (log 14), and that a deferred fault stays after EXIT's 0x18 its choice (log 67). -/
def Obligations.LaneControl : Prop :=
  ∀ f : LW,
    outWord (.nop f) (fun _ => controlOk f) (fun _ => false) id (fun e => e.outs f.g (fun _ => .next)) (fun _ t => t) ∧
    outWord (.region f) (fun _ => controlOk f) (fun _ => false) (fun e => { e with g := e.g.enter (e.guarded f.g) e.c.pc }) (fun e => e.outs f.g (fun _ => .next)) (fun _ t => t) ∧
    outWord (.br f) (fun _ => brLegal f) (fun _ => false) id (fun e => e.outs f.g (fun _ => .goto (laneTarget e.c.pc f))) (fun _ t => t) ∧
    outWord (.jmp f) (fun _ => jmpLegal f) (fun _ => false) id (fun e => e.c.act.map (fun l => (l, .goto (laneTarget e.c.pc f)))) (fun _ t => t) ∧
    outWord (.call f) (fun _ => callLegal f) (fun _ => false) (fun e => e.pushAll (e.callers f.g))
      (fun e => e.outs f.g (fun l => goesTo (laneTarget e.c.pc f) (e.pushFault l))) (fun _ t => t) ∧
    outWord (.ret f) (fun _ => controlOk f) (fun _ => false) (fun e => { e with g := (e.returners f.g).foldl (fun (g : Group) l => g.pop l) e.g })
      (fun e => e.outs f.g (fun l => goesTo (e.top l) (e.popFault l 0))) (fun _ t => t) ∧
    (∀ p ∈ [(Instr.brx f, false), (Instr.brxCall f, true)],
      eachIs p.1 f.g (fun _ => brxLegal f p.2) false (fun _ _ => brxSrcs f) (fun _ _ _ => Except.ok ()) (fun _ _ _ => false) (fun _ w e l _ => brxLane f p.2 w e l) (fun _ e1 _ => e1)
        (fun _ _ _ _ => False) ∧
      (∀ s (e : Env) w, e.ofLanes s → wellFormed p.1 = true → brxLegal f p.2 = true → e.view? f.g (brxSrcs f) = some w → (p.2 = true → ∀ l ∈ e.guarded f.g, e.pushFault l = none) →
        ∃ t, exec p.1 s = .next t ∧ (if p.2 then (e.popped w (brxSrcs f)).pushAll (e.guarded f.g) else e.popped w (brxSrcs f)).closes t
          (e.outs f.g (fun l => .goto (if f.e.bs then (e.g.getS f.b).toNat % 2 ^ 32 else w.v l f.a))))) ∧
    outWord (.exit f) (fun _ => controlOk f) (·.exitWaits f) id (fun e => e.exitOuts f) (fun e t => e.exited f t) ∧
    (∀ s (e : Env), e.ofLanes s → wellFormed (.ifence f) = true →
      (controlOk f = false → exec (.ifence f) s = e.illegal) ∧
      (controlOk f = true → (∀ c, ¬ e.lateCode c) → ∃ t, exec (.ifence f) s = .next t ∧
        Env.closes { e with g := if (e.guarded f.g).isEmpty then e.g else e.g.noCode } t (e.outs f.g (fun _ => .next))) ∧
      (controlOk f = true → (∃ c, e.lateCode c) → ∃ c t, e.lateCode c ∧ (∀ d, e.lateCode d → c.at_ ≤ d.at_) ∧ exec (.ifence f) s = .next t ∧
        e.closes t (e.outs f.g (fun _ => .fault (lf 0x0B c.num false)))))

/-- R236, R284, R329: BKPT and TRAPU take their faults in every guarded lane: a region entry, at the word or after it, then the record. -/
def Obligations.Traps : Prop :=
  ∀ f : LW,
    outWord (.bkpt f) (fun _ => controlOk f) (fun _ => false) (fun e => { e with g := e.g.enter (e.guarded f.g) e.c.pc }) (fun e => e.outs f.g (fun _ => .fault (lf 0x13 0 false))) (fun _ t => t) ∧
    outWord (.trapu f) (fun _ => trapuLegal f) (fun _ => false) (fun e => { e with g := e.g.enter (e.guarded f.g) e.next }) (fun e => e.outs f.g (fun _ => .fault (lf 0x14 f.e.imm false)))
      (fun _ t => t)

/-- R41 to R43, R237 to R240, R272: patterns, bindings, and the lighter's fetches. That an issue with no lane left pops nothing is the model's reading (log 55). -/
def Obligations.StreamWords : Prop :=
  (∀ (f : LW) s (e : Env), e.ofLanes s → wellFormed (.spbind f) = true →
    (spbindLegal f = false → exec (.spbind f) s = e.illegal) ∧
    (spbindLegal f = true → e.guarded f.g = [] → ∃ t, exec (.spbind f) s = .next t ∧ e.closes t (e.outs f.g (fun _ => .next))) ∧
    (spbindLegal f = true → e.guarded f.g ≠ [] → ¬(patOk (e.g.getSp f.a) = true ∧ (e.g.unbound f.d).length < 8) →
      ∃ t, exec (.spbind f) s = .next t ∧ e.closes t (e.outs f.g (fun _ => .fault (lf 0x04 0 false)))) ∧
    (spbindLegal f = true → e.guarded f.g ≠ [] → patOk (e.g.getSp f.a) = true → (e.g.unbound f.d).length < 8 →
      e.s.basins e.u.core < 64 + (e.g.binds.countP (fun b => b.reg == f.d)) →
      ∃ t, exec (.spbind f) s = .next t ∧ Env.closes { e with g := { e.g with binds := e.g.unbound f.d ++ [e.g.newBinding f] } } t (e.outs f.g (fun _ => .next)))) ∧
  (∀ f : LW, outWord (.sprel f) (fun _ => sprelLegal f) (fun _ => false) (fun e => { e with g := if (e.guarded f.g).isEmpty then e.g else { e.g with binds := e.g.unbound f.d } })
    (fun e => e.outs f.g (fun _ => .next)) (fun _ t => t)) ∧
  (∀ f : GW, groupCase (.spset f) (fun _ => decide (f.d < 8)) (fun _ => [f.a]) (fun e =>
    let a := ofBase (e.g.getS f.a).toNat f.imm
    match e.check e.low (memReq a 64 64 true false false .cells) 0 with
    | .error q => .fault e q
    | .ok acc => match e.readNow e.g.liveLanes acc (addrNat a) with
      | .wait e1 => .stays e1
      | .fail q => .fault e q
      | .got e1 bs =>
        let p : List DWord := (List.range 8).map (fun i => BitVec.ofNat 64 (leNat ((bs.drop (8 * i)).take 8)))
        if patOk p then .goes { e1.touched e.g.liveLanes acc true with g := (e1.touched e.g.liveLanes acc true).g.setSp f.d p } e.next else .fault e (lf 0x04 (addrNat a) false))) ∧
  (∀ f : GW, groupCase (.sploop f) (fun _ => decide (f.d < 8) && f.f6 == 0 && f.tl == 0 && f.rz == 0 && f.gimm == 0)
    (fun e => [f.a, f.b, f.f] ++ if field (e.g.getS f.f) 2 2 = 1 then [f.e] else []) (fun e =>
    let p : List DWord := [e.g.getS f.a, e.g.getS f.f, e.g.getS f.b, if field (e.g.getS f.f) 2 2 = 1 then e.g.getS f.e else 0, 0, 0, 0, 0]
    if field (e.g.getS f.f) 2 2 < 2 ∧ patOk p = true then .goes { e with g := e.g.setSp f.d p } e.next else .fault e (lf 0x04 0 false))) ∧
  (∀ s u g b entry s1, s.unit? s.arg.a = some u → u.group s.arg.b = some g → g.binds[s.arg.c]? = some b → u.res = .resident → b.basin.length < u.entriesWanted s.arg.b b.reg →
    b.pos + b.basin.length < patEntries b.pat → s.streamEntry u s.arg.b g b (b.pos + b.basin.length) s.arg.parts = some (entry, s1) →
    exec .streamFetch s = .next (s1.onGroup s.arg.a s.arg.b (fun g => { g with binds := g.binds.set s.arg.c { b with basin := b.basin ++ [entry] } })))

/-- R46, R47, R245 to R250: the lanes of a matrix word sign in ascending order, and a convergence set whose members have all signed issues its operation; a completed operation writes its tile and leaves its queue (R244). A skipped step of MMA.D (log 49), lanes that sign again after a restore (log 58) and the products under an infinite or zero scale of MMAI (log 78) are the model's readings. -/
def Obligations.MatrixWords : Prop :=
  (∀ (f : LW), ∀ p ∈ [(Instr.mma f, true, mmaPair), (Instr.mmaD f, false, mmaDPair), (Instr.mmai f, false, mmaiPair)], ∀ s (e : Env), e.ofLanes s → wellFormed p.1 = true →
    (∀ ka kb, e.slot f.e.fs = some ka → e.slot f.e.subop = some kb → (matrixLegal f p.2.1 && p.2.2 ka kb) = true →
      (e.g.fenced e.c.act = true → exec p.1 s = .next s) ∧
      (e.g.fenced e.c.act = false → ∃ t, exec p.1 s = .next (t.convergenceTest e.c.uid) ∧ Env.closes { e with u := (e.signAll f).1 } t (e.signAll f).2)) ∧
    ((∀ ka kb, e.slot f.e.fs = some ka → e.slot f.e.subop = some kb → (matrixLegal f p.2.1 && p.2.2 ka kb) = false) → exec p.1 s = e.illegal)) ∧
  (∀ s u o, s.unit? s.arg.a = some u → u.ops[s.arg.b]? = some o → o.light = false → (∀ p ∈ u.ops.takeWhile (fun p => p.id != o.id), (∀ r ∈ touches p.instr, r ∉ touches o.instr) ∨ u.stands p = false) →
    (∀ g ∈ u.groups, ∀ p ∈ g.inflight, ∀ t fs, p.kind = .tile t fs → t ∉ touches o.instr) →
    (o.begun = true → exec .matrixOperationComplete s =
      (let u1 := if (matrixLW o.instr).isSome then u.applyMatrix o else u
       let s1 := s.setUnit { u1 with ops := u1.ops.eraseIdx s.arg.b }
       .next (if o.perm then s1 else s1.leaveEnds u.die (.heavy u.uid o.id)))) ∧
    (o.begun = false → exec .matrixOperationComplete s = .next (if o.leave then (s.beginHeavy u o).getD s else s)))

/-- R242, R244, R251, R252: the words that move single elements of a tile, lane by lane. That TST's faults carry the store-suppressed flag and TLD's do not is the model's reading (log 15). -/
def Obligations.TileElements : Prop :=
  ∀ f : LW,
    eachIf Env.holdsMx (fun e => e.turn (.tld f) false (e.guarded f.g)) (.tld f) f.g (fun _ => tldLegal f) false (fun _ _ => memSrcs f ++ [.v f.e.c false]) (fun e => e.tldCheck f)
      (fun e w ps => e.loadWaits w.act (keysOf ps)) (fun _ => tldLane f) (fun e e1 _ => e1.merge e.g.inflight.length) always ∧
    eachIf Env.holdsMx (fun e => e.turn (.tst f) false (e.guarded f.g)) (.tst f) f.g (fun _ => tldLegal f) true (fun _ _ => memSrcs f ++ [.v f.e.c false])
      (fun e => e.storeCheck f (floatBytes f.e.fs) (floatBytes f.e.fs) 0 (tstPre f)) (fun e _ ps => e.storeWaits 0 ps.length ps) (fun e => storeLane f 0 (tstData f e.u)) (fun e e1 _ => e1.stored e.s.posted.length) plainSeg ∧
    eachIf Env.holdsMx (fun e => e.turn (.tread f) false (e.guarded f.g)) (.tread f) f.g (fun _ => treadLegal f) false (fun _ _ => [.v f.e.c false] ++ dstV (f.e.fs == 1) f.d) (fun _ => coordCheck f)
      (fun _ _ _ => false) (fun _ => treadLane f) (fun e e1 _ => e1.merge e.g.inflight.length) always ∧
    eachIf Env.holdsMx (fun e => e.turn (.twrite f) false (e.guarded f.g)) (.twrite f) f.g (fun _ => twriteLegal f) false (fun _ _ => srcV (f.e.fs == 1) f.a f.ea ++ [.v f.e.c false]) (fun _ => coordCheck f)
      (fun _ _ _ => false) (fun _ => twriteLane f) (fun _ e1 _ => e1) always

/-- R242: a tile or accumulator word of lanes faults with 0x04 in every guarded lane where the unit does not hold the matrix set. The store-suppressed flag of TST and FAST is the model's reading (log 15). -/
def Obligations.MatrixSetNotHeld : Prop :=
  ∀ (f : LW) s (e : Env), e.ofLanes s → e.holdsMx = false →
    (∀ p ∈ [(Instr.tld f, tldLegal f), (Instr.tread f, treadLegal f), (Instr.twrite f, twriteLegal f), (Instr.fald f, faMem f)],
      p.2 = true → ∃ t, exec p.1 s = .next t ∧ e.closes t (e.outs f.g (fun _ => .fault (lf 0x04 0 false)))) ∧
    (∀ p ∈ [(Instr.tst f, tldLegal f), (Instr.fast f, faMem f)],
      p.2 = true → ∃ t, exec p.1 s = .next t ∧ e.closes t (e.outs f.g (fun _ => .fault (lf 0x04 0 true))))

/-- R243, R253 to R259: whole tiles, edge masks and panels. -/
def Obligations.TileWords : Prop :=
  ∀ f : GW,
    groupCase (.tzero f) (fun _ => decide (f.d < 8) && f.a == 0 && f.b == 0 && f.f6 == 0) (fun _ => []) (fun e => e.tileEnd (.tzero f) (fun e => .goes { e with u := e.u.zeroTile f.d } e.next)) ∧
    (∀ (u : WorkUnit) (k w : Nat), w < 4096 → (u.zeroTile f.d).tileWord k w = if k = f.d then 0 else u.tileWord k w) ∧
    groupCase (.tcvt f) (fun e => decide (f.d < 8) && decide (f.a < 8) && f.b == 0 && decide (f.f6 < 8) && (e.slot f.f6).any (fun k => decide (k.code < 4))) (fun _ => []) (fun e =>
      e.tileEnd (.tcvt f) (fun e => .goes { e with u := e.u.fillTile f.d (fun w => (tcvtWord (e.slotD f.f6) e.u f.a w).1),
                                                   g := e.g.raise ((List.range 4096).foldl (fun x w => x ||| (tcvtWord (e.slotD f.f6) e.u f.a w).2) 0) } e.next)) ∧
    groupCase (.ttr f) (fun _ => decide (f.d < 8) && decide (f.a < 8) && f.b == 0 && decide (f.f6 < 2)) (fun _ => []) (fun e =>
      e.tileEnd (.ttr f) (fun e => .goes { e with u := e.u.fillTile f.d (ttrWord (f.f6 == 1) e.u f.a) } e.next)) ∧
    (∀ p ∈ [(Instr.ymset f, true, false), (Instr.ymsetFirst f, true, true), (Instr.xmset f, false, false), (Instr.xmsetFirst f, false, true)],
      groupCase p.1 (fun _ => decide (f.d < 4) && f.b == 0) (fun e => if e.holdsMx then [f.a] else []) (fun e =>
        let x : DWord := if p.2.2 then BitVec.ofNat 64 (2 ^ min (e.g.getS f.a).toNat 64 - 1) else e.g.getS f.a
        if e.holdsMx = false then .fault e (lf 0x04 0 false) else .goes { e with u := if p.2.1 then { e.u with ym := e.u.ym.set f.d x } else { e.u with xm := e.u.xm.set f.d x } } e.next)) ∧
    groupCase (.wbld f) (fun e => decide (f.d < 32) && f.b == 0 && decide (f.f6 < 32) && ((e.slot (f.f6 / 4)).bind (panelLen (f.f6 % 4))).isSome)
      (fun e => if f.d < recPanels e.u.record then [f.a] else []) (fun e =>
        if recPanels e.u.record ≤ f.d then .fault e (lf 0x04 0 false) else
        let a := ofBase (e.g.getS f.a).toNat 0
        match e.check e.low (memReq a (((e.slot (f.f6 / 4)).bind (panelLen (f.f6 % 4))).getD 0) 128 true false false .cells) 0 with
        | .error q => .fault e q
        | .ok acc =>
          e.turnEnd (.wbld f) (fun e0 =>
          if e.g.inflight ≠ [] ∨ e.g.acqs ≠ [] then .wait else
          match e0.readNow e0.g.liveLanes acc (addrNat a) with
          | .wait e1 => .stays { e1 with u := e.u }
          | .fail q => .fault e0 q
          | .got e1 bs =>
            if f.f6 % 4 = 1 ∧ quadsOk bs = false then .fault e0 (lf 0x04 (addrNat a) false) else
            let e2 := e1.touched e.g.liveLanes acc true
            .goes { e2 with u := { e2.u with panels := e2.u.panels.set f.d (panelOf (f.f6 % 4) (recSlot e.u.record (f.f6 / 4)) bs) } } e.next)) ∧
    groupCase (.wbfree f) (fun _ => decide (f.d < 32) && f.a == 0 && f.b == 0 && f.f6 == 0) (fun _ => []) (fun e =>
      if recPanels e.u.record ≤ f.d then .fault e (lf 0x04 0 false) else
      e.turnEnd (.wbfree f) (fun e => .goes { e with u := { e.u with panels := e.u.panels.set f.d Panel.blank } } e.next))

/-- R260 to R265: the factor words of lanes: those that ask leave, FADIAG, and the image words. An odd register under an FP64 accumulator (log 13), the store-suppressed flag of FAST (log 15), and that FADIAG is not held to n at most G (log 55) are the model's readings. -/
def Obligations.FactorWords : Prop :=
  ∀ f : LW,
    heavyIs (.faupd f) f (faupdLegal f) f.d none [(f.a, f.ea)] ∧ heavyIs (.fadwd f) f (faupdLegal f) f.d none [(f.a, f.ea)] ∧
    heavyIs (.fasolvF f) f (fasolvLegal f) f.a (some f.d) [(f.b, f.eb)] ∧ heavyIs (.fasolvB f) f (fasolvLegal f) f.a (some f.d) [(f.b, f.eb)] ∧
    heavyIs (.fasolvG f) f (fasolvLegal f) f.a (some f.d) [(f.b, f.eb)] ∧ heavyIs (.fasolvLoo f) f (!f.ea) f.a (some f.d) [(f.b, f.eb), (f.e.c, false)] ∧
    heavyIs (.famul f) f (fasolvLegal f) f.a (some f.d) [(f.b, f.eb)] ∧ heavyIs (.famulT f) f (fasolvLegal f) f.a (some f.d) [(f.b, f.eb)] ∧
    (∀ s (e0 : Env), e0.ofLanes s → wellFormed (.fadiag f) = true →
      (fadiagLegal f = false → exec (.fadiag f) s = e0.illegal) ∧
      (fadiagLegal f = true → e0.guarded f.g ≠ [] → e0.holdsMx = true → match e0.turn (.fadiag f) false (e0.guarded f.g) with
        | .wait => exec (.fadiag f) s = .next s
        | .queue e1 => exec (.fadiag f) s = .next e1.out
        | .go e _ => (e.u.fa f.a).n ≠ 0 → ((e.u.fa f.a).f64 = true → f.d % 2 = 0) →
          e.destEmpty (e.guarded f.g) (e.u.fa f.a).f64 f.d = false → ∃ t, exec (.fadiag f) s = .next t ∧
            (Env.produce { e with g := e.g.markAll (e.guarded f.g) (e.u.fa f.a).f64 f.d true }
              (vectorProducer (e.guarded f.g) (e.u.fa f.a).f64 f.d ((List.range (e.u.fa f.a).n).map (fun i => (e.u.fa f.a).get i i)) e.next)).closes t (e.c.act.map (fun l => (l, .next))))) ∧
    onceIf Env.holdsMx (fun e => e.turn (.fald f) false (e.guarded f.g)) (.fald f) f.g (fun _ => faMem f) false (memSrcs f) (fun e w l => e.check l (faReq (w.addr f 0) 8 true) 0)
      (fun e act _ acc => e.loadWaits act acc.keys) (fun e0 e w l acc => e0.keeping (faldStep f e w l acc)) (fun _ t => t) (faldReads f) ∧
    onceIf (fun e => e.holdsMx && (e.u.fa f.d).n != 0) (fun e => e.turn (.fast f) false (e.guarded f.g)) (.fast f) f.g (fun _ => faMem f) true (memSrcs f)
      (fun e w l => e.check l (faReq (w.addr f 0) (faLen (e.u.fa f.d).n (e.u.fa f.d).f64) false) 0) (fun e act _ acc => e.storeWaits 0 1 (act.map (fun l => (l, acc))))
      (fun _ e => fastStep f (e.u.fa f.d) e) (fun _ t => t) plainSeg

/-- R263: FAINIT and FASCL on an accumulator of the unit. That a zero factor raises no flag is the model's reading (log 21). -/
def Obligations.FactorGroupWords : Prop :=
  ∀ f : GW,
    groupCase (.fainit f) (fun _ => decide (f.d < 4) && f.b == 0 && f.f6 == 0) (fun e => if e.holdsMx then [f.a] else []) (fun e => e.tileEnd (.fainit f) (fun e =>
      match fainitAcc (e.g.getS f.a) with
      | none => .fault e (lf 0x04 0 false)
      | some a => .goes { e with u := { e.u with fas := e.u.fas.set f.d a } } e.next)) ∧
    groupCase (.fascl f) (fun _ => decide (f.d < 4) && f.b == 0 && f.f6 == 0) (fun e => if e.holdsMx then [f.a] else []) (fun e => e.tileEnd (.fascl f) (fun e =>
      match fasclAcc (e.g.getS f.a) (e.u.fa f.d) with
      | none => .fault e (lf 0x04 0 false)
      | some p => .goes { e with u := { e.u with fas := e.u.fas.set f.d p.1 }, g := e.g.raise p.2 } e.next))

/-- R266, R169: each group ALU instruction, in its three forms, writes its 64-bit formula to sD, SMOV its source and SMOVI its immediate or literal; nothing else changes. -/
def Obligations.GroupArithmetic : Prop :=
  aluIs .saddGr .saddGi .saddGl (fun a b => a + b) ∧ aluIs .ssubGr .ssubGi .ssubGl (fun a b => a - b) ∧ aluIs .smulGr .smulGi .smulGl (fun a b => a * b) ∧
  aluIs .sandGr .sandGi .sandGl (fun a b => a &&& b) ∧ aluIs .sorGr .sorGi .sorGl (fun a b => a ||| b) ∧ aluIs .sxorGr .sxorGi .sxorGl (fun a b => a ^^^ b) ∧
  aluIs .sshlGr .sshlGi .sshlGl (fun a b => a <<< (b.toNat % 64)) ∧ aluIs .sshrN64Gr .sshrN64Gi .sshrN64Gl (fun a b => a >>> (b.toNat % 64)) ∧
  aluIs .sshrI64Gr .sshrI64Gi .sshrI64Gl (fun a b => a.sshiftRight (b.toNat % 64)) ∧
  aluIs .sminI64Gr .sminI64Gi .sminI64Gl (fun a b => if a.toInt ≤ b.toInt then a else b) ∧ aluIs .sminN64Gr .sminN64Gi .sminN64Gl (fun a b => if a.toNat ≤ b.toNat then a else b) ∧
  aluIs .smaxI64Gr .smaxI64Gi .smaxI64Gl (fun a b => if a.toInt ≤ b.toInt then b else a) ∧ aluIs .smaxN64Gr .smaxN64Gi .smaxN64Gl (fun a b => if a.toNat ≤ b.toNat then b else a) ∧
  (∀ f : GW,
    groupWord (.smov f) (fun _ => f.b == 0) (fun _ => [f.a, f.d]) (fun e => { e with g := e.g.putS f.d (e.g.getS f.a) }) Env.next ∧
    groupWord (.smoviGi f) (fun _ => f.a == 0) (fun _ => [f.d]) (fun e => { e with g := e.g.putS f.d (BitVec.ofInt 64 f.imm) }) Env.next ∧
    groupWord (.smoviGl f) (fun _ => f.a == 0 && f.b == 0 && f.f6 == 0) (fun _ => [f.d]) (fun e => { e with g := e.g.putS f.d ((BitVec.ofNat 32 f.gx).signExtend 64) }) Env.next)

/-- R267, R169: SCMP's three condition bits in its three forms, and SSEL. -/
def Obligations.GroupConditions : Prop :=
  ∀ f : GW,
    scmpIs (.scmpGr f) f (f.f6 == 0) [f.b] (fun e => e.g.getS f.b) ∧ scmpIs (.scmpGi f) f true [] (fun _ => BitVec.ofInt 64 f.imm) ∧
    scmpIs (.scmpGl f) f (f.b == 0 && f.f6 == 0) [] (fun _ => (BitVec.ofNat 32 f.gx).signExtend 64) ∧
    groupWord (.ssel f) (fun _ => decide (f.f6 < 8)) (fun _ => [f.a, f.b, f.d])
      (fun e => { e with g := e.g.putS f.d (if e.g.cond.holds f.f6 then e.g.getS f.a else e.g.getS f.b) }) Env.next

/-- R267, R268: the uniform branches, calls and returns. Which entry of a return stack moves, hence which SCALL or SRET meets 0x12, is the model's choice (log 68). -/
def Obligations.GroupControl : Prop :=
  ∀ f : GW,
    groupWord (.sbr f) (fun _ => true) (fun _ => []) id (fun e => if e.g.cond.holds (f.d / 8) then groupTarget e.c.pc f else e.next) ∧
    groupWord (.sjmp f) (fun _ => f.d / 8 == 0) (fun _ => []) id (fun e => groupTarget e.c.pc f) ∧
    groupCase (.scall f) (fun _ => f.d / 8 == 0) (fun _ => []) (fun e =>
      match e.g.liveLanes.findSome? e.pushFault with
      | some q => .fault e q
      | none => .goes (e.pushAll e.g.liveLanes) (groupTarget e.c.pc f)) ∧
    groupCase (.sret f) (fun _ => f.d == 0 && f.a == 0 && f.b == 0 && f.f6 == 0) (fun _ => []) (fun e =>
      let t := e.top (e.g.liveLanes.headD 0)
      match e.g.liveLanes.findSome? (fun l => e.popFault l e.c.pc) with
      | some q => .fault e q
      | none => if ∃ l ∈ e.g.liveLanes, e.top l ≠ t then .fault e (lf 0x0A e.c.pc false) else
        .goes { e with g := e.g.liveLanes.foldl (fun (g : Group) l => g.pop l) e.g } t)

/-- R269: SLD is a producer to sD, SST stores sD's eight bytes; each is one access of the lowest live lane. -/
def Obligations.GroupMemory : Prop :=
  ∀ f : GW,
    groupCase (.sld f) (fun _ => true) (fun _ => [f.a, f.d]) (fun e =>
      let a := ofBase (e.g.getS f.a).toNat f.imm
      match e.check e.low (memReq a 8 8 true false false .cells) 0 with
      | .error q => .fault e q
      | .ok acc =>
        if e.loadWaits e.g.liveLanes acc.keys then .wait else
        let e1 := e.touched e.g.liveLanes acc true
        .goes (({ e1 with g := e1.g.markS f.d true }.produce { kind := .load 8 false 0, parts := [{ e.part e.low (.s f.d) acc (addrNat a) with others := e.rest }], pc := e.next, commit := false }).merge
          e.g.inflight.length) e.next) ∧
    groupCase (.sst f) (fun _ => true) (fun _ => [f.a, f.d]) (fun e =>
      let a := ofBase (e.g.getS f.a).toNat f.imm
      match e.check e.low (memReq a 8 8 false true false .cells) 0 with
      | .error q => .fault e q
      | .ok acc =>
        if e.storeWaits 0 1 (e.g.liveLanes.map (fun l => (l, acc))) then .wait else
        if acc.g.kind == .lattice then
          (let r := e.s.latticeStore e.u.die acc.g a.seg acc.off acc.keys (leBytes 8 (e.g.getS f.d).toNat)
           match r.2 with
           | some q => .fault ((e.wrote acc.keys).changed r.1 acc.keys) q
           | none => .goes ((e.wrote acc.keys).changed r.1 acc.keys) e.next)
        else .goes ((e.store e.low e.rest acc (leBytes 8 (e.g.getS f.d).toNat) 0 (addrNat a)).stored e.s.posted.length) e.next)

/-- R270, R271: declaring a convergence set, and the decision queue. -/
def Obligations.GroupSets : Prop :=
  ∀ f : GW,
    (∀ p ∈ [(Instr.cvsetGi f, ofInt 64 f.imm, true), (Instr.cvsetGl f, ofInt 64 (toInt 32 f.gx), f.b == 0 && f.f6 == 0)],
      groupCase p.1 (fun _ => p.2.2 && decide (f.d < 16) && f.a == 0 && decide (p.2.1 < 2 ^ 16)) (fun _ => []) (fun e =>
        let c := e.u.cvs.getD f.d ⟨0, 0, 0, 0, []⟩
        if c.sigs ≠ [] then .fault e (lf 0x0A (f.d + 2 ^ 63) false) else if 2 ^ e.u.groups.length ≤ p.2.1 then .fault e (lf 0x04 0 false) else
        .goes { e with u := { e.u with cvs := e.u.cvs.set f.d { c with mask := p.2.1 } } } e.next)) ∧
    groupCase (.dqpush f) (fun _ => f.d == 0 && f.b == 0 && f.f6 == 0) (fun _ => [f.a]) (fun e =>
      if 8 ≤ e.g.dq.length then .fault e (lf 0x04 0 false) else .goes { e with g := { e.g with dq := e.g.dq ++ [e.g.getS f.a] } } e.next) ∧
    groupCase (.dqpop f) (fun _ => f.a == 0 && f.b == 0 && decide (f.f6 < 2)) (fun e => if f.f6 = 0 ∧ e.g.dq ≠ [] then [f.d] else []) (fun e =>
      match e.g.dq with
      | [] => .fault e (lf 0x09 (f.d + (if f.f6 = 0 then 64 else 0)) false)
      | x :: rest =>
        if f.f6 = 0 then .goes { e with g := { e.g with dq := rest }.putS f.d x } e.next
        else if ∃ l ∈ e.g.liveLanes, e.g.emptyV l f.d = true then .wait
        else .goes { e with g := e.g.liveLanes.foldl (fun (g : Group) l => g.putV l f.d (x.setWidth 32)) { e.g with dq := rest } } e.next)

/-- R119, R273, R275, R277, R278: the engine commands. The 0x04 for a CPY length of 2^40 or more and for a CPYG count of 2^24 or more is the model's reading (log 57), and that a deferred fault stays after its 0x18 its choice (log 67). -/
def Obligations.Commands : Prop :=
  ∀ f : GW,
    commandIs (.cpy f) f (f.rz == 0 && f.f == 0 && decide (f.f6 < 4)) (· == 1) [f.a, f.b, f.e] (·.cpyRanges f)
      (fun e _ _ => if 2 ^ 40 ≤ e.countOf f then some (lf 0x04 0 false) else none) (fun e => if 4096 < e.countOf f then 4 else 0) (fun _ => []) ∧
    commandIs (.cpy2d f) f (f.rz == 0 && f.f6 == 0) (· == 1) [f.a, f.b, f.e, f.f] (·.cpy2dRanges f) (fun _ _ _ => none) (fun _ => 0) (fun _ => []) ∧
    commandIs (.cpyg f) f (f.rz == 0 && decide (f.f6 < 16)) (· == 1) [f.a, f.b, f.e, f.f] (fun e => [⟨ofBase (e.g.getS f.f).toNat 0, 4 * e.countOf f, 4, false⟩])
      (fun e _ _ => if 2 ^ 24 ≤ e.countOf f then some (lf 0x04 0 false) else none) (fun e => if 4096 < e.countOf f * 2 ^ (f.f6 % 8) then 4 else 0) (fun _ => []) ∧
    commandIs (.chain f) f (f.rz == 0 && decide (f.f6 < 8)) (· == 2) ([f.a, f.b, f.e] ++ if f.f = 0 then [] else [f.f]) (·.chainRanges f) (fun e _ _ => e.chainShort f)
      (fun _ => 6) (fun e => e.g.getSp f.f6) ∧
    commandIs (.coll f) f (f.rz == 0 && decide (f.f6 < 6)) (· == 3) [f.a, f.b, f.e, f.f] (·.collRanges f) (fun e _ _ => e.collBad f) (fun _ => 8) (fun _ => []) ∧
    commandIs (.post f) f (f.rz == 0 && f.f == 0 && f.f6 == 0) (· == 1) [f.a, f.b, f.e] (fun e => [⟨e.dstOf f, e.countOf f, 1, true⟩, ⟨e.srcOf f, e.countOf f, 1, false⟩])
      (fun e _ _ => if e.countOf f < 8 ∨ 256 < e.countOf f ∨ e.countOf f % 8 ≠ 0 then some (lf 0x04 0 false) else none) (fun _ => 0) (fun _ => []) ∧
    commandIs (.stl f) f (f.rz == 0 && f.e == 0 && f.f == 0 && f.f6 == 0 && f.gimm == 0 && decide (f.a < 8)) (fun _ => true) [f.b] (fun _ => []) (fun e => e.stlBad f)
      (fun _ => 0) (fun _ => [])

/-- R279: PERMIT returns the permit held and asks for n units, or for none; PERMQ answers. -/
def Obligations.Permits : Prop :=
  ∀ f : GW,
    (∀ s (e : Env), e.ofGroup s → wellFormed (.permit f) = true → let n := (e.g.getS f.a).toNat
      ((f.gx == 0 && f.b == 0 && decide (f.f6 < 4)) = false → exec (.permit f) s = e.groupIllegal) ∧
      ((f.gx == 0 && f.b == 0 && decide (f.f6 < 4)) = true → e.g.emptyS f.a = false → e.g.emptyS f.d = false → e.unfilled? [f.a, f.d] = none →
        ((e.permitBack.die e.u.die).budget < n → ∃ t, exec (.permit f) s = .next t ∧ Env.groupStops { e with s := e.permitBack, g := { e.g with permit := none } } t (lf 0x04 0 false)) ∧
        (n = 0 → ∃ t, exec (.permit f) s = .next t ∧ Env.groupResult { e with s := e.permitBack, g := { e.g.putS f.d 0 with permit := none } } t e.next) ∧
        (0 < n → n ≤ (e.permitBack.die e.u.die).budget → exec (.permit f) s = .next ((e.permitParked f n).out.ask e.u.die f.f6 (.permit e.u.uid e.c.grp) n)))) ∧
    groupWord (.permq f) (fun _ => f.gx == 0 && f.a == 0 && f.b == 0 && decide (f.f6 < 3)) (fun _ => [f.d])
      (fun e => { e with g := e.g.putS f.d (BitVec.ofNat 64 (e.permqVal f.f6)) }) Env.next

/-- R280, R310, R321, R323: SYSRD reads the register that [11:0] of the word names, SYSWR writes it, each in a supervisor unit only; 0x15 for a number that names none. What ZS_PARTAPPLY reads as is free (log 3). -/
def Obligations.SystemRegisters : Prop :=
  ∀ f : GW,
    sysIs (.sysrd f) (fun s => f.a == 0 && s.sysReg (GW.n12 f)) [f.d] (fun e => match e.s.sysRead e.supPart (f.b * 64 + f.f6) with
      | some w => .done (if f.b * 64 + f.f6 = 0x121 then { e.s with freeCtr := e.s.freeCtr + 1 } else e.s) (some (f.d, w))
      | none => .fault 0x15) ∧
    sysIs (.syswr f) (fun s => f.d == 0 && s.sysReg (GW.n12 f)) [f.a] (fun e => e.s.sysWrite (e.s.partOf (recCtx e.u.record)) (f.b * 64 + f.f6) (e.g.getS f.a))

/-- R280, R290, R310, R331, R347, R348, R352: a register that a write has left holds the value written, for the partition or the context that wrote it; ZS_QSCHED and ZS_PARTAPPLY answer differently. -/
def Obligations.RegisterReadBack : Prop :=
  ∀ (s : State) (part n : Nat) (v : DWord) (s1 : State) (w : Option (Nat × DWord)), n ≠ 0x102 → n ≠ 0x121 → s.sysWrite part n v = .done s1 w → s1.sysRead part n = some v ∧ w = none

/-- R125, R127, R69, R71, R280, R317, R325: TRAP, whose reply is free (log 7), the invalidations, SEGREV and ZEROBUF (log 17). What TLBINV and SEGREV wait for, and the context of scopes 0 and 1, are the model's readings (log 31). -/
def Obligations.SystemMaintenance : Prop :=
  ∀ f : GW,
    sysIs (.trap f) (fun _ => true) [f.d, f.a] (fun e =>
      .done { e.s with out := e.s.out ++ [.report 280 (f.b * 64 + f.f6)], freeCtr := e.s.freeCtr + 1 } (some (f.d, Config.trapReply (f.b * 64 + f.f6) e.s.freeCtr (e.g.getS f.a)))) ∧
    sysIs (.tlbinv f) (fun _ => f.d == 0 && f.b == 0 && decide (f.f6 < 3)) [f.a] (fun e =>
      let ctx := if f.f6 = 2 then e.sA f else e.s.ctxsel.toNat
      let s1 := State.wakeSegments { e.s with tlb := e.s.tlb.filter (fun t => !(decide (t.ctx = ctx ∧ (f.f6 = 2 ∨ t.seg = e.sA f / 2 ^ 40 ∧ (f.f6 = 1 ∨ t.base ≤ e.sA f % 2 ^ 40 ∧ e.sA f % 2 ^ 40 < t.base + t.size))))) }
        ctx (fun k => f.f6 == 2 || k == e.sA f / 2 ^ 40)
      if 2 ^ 16 ≤ ctx then .fault 0x04 else if e.s.storesDone e.c.uid e.c.grp e.g = false then .wait e.s else if s1.ctxQuiet ctx then .done s1 none else .wait s1) ∧
    sysIs (.icinv f) (fun _ => f.d == 0 && f.b == 0 && f.f6 == 0) [f.a] (fun e =>
      if (diesOf (e.sA f)).any (fun d => !((e.s.die d).present)) = true then .fault 0x04 else
      let s1 := (diesOf (e.sA f)).foldl (fun (s : State) d => s.setDie d { s.die d with icache := [] }) e.s
      .done { s1 with units := s1.units.map (fun p =>
        if p.2.die ∈ diesOf (e.sA f) then (p.1, { p.2 with groups := p.2.groups.map (fun (g : Group) => g.noCode) }) else p) } none) ∧
    sysIs (.bindinv f) (fun _ => f.d == 0 && f.f6 == 0) [f.a, f.b] (fun e =>
      let n := e.sA f % 2 ^ 24
      if 2 ^ 16 ≤ e.sB f ∨ e.s.descState (e.sB f) n ≠ 2 then .fault 0x04 else
      let at_ (c k : Nat) : Bool := decide (c = e.sB f ∧ k = n)
      let s1 : State := { ((e.s.noFerry at_).noImage at_).wr8 (e.s.descAddr (e.sB f) n) (e.s.rd8 (e.s.descAddr (e.sB f) n) % 2 ^ 62) with tlb := e.s.tlb.filter (fun t => !(decide (t.ctx = e.sB f ∧ t.seg = n))) }
      .done (match e.s.descBti (e.sB f) n with
        | some i => s1.wr8 (s1.bindRec (e.sB f) i) (s1.rd8 (s1.bindRec (e.sB f) i) % 2 ^ 62)
        | none => s1) none) ∧
    sysIs (.segrev f) (fun _ => f.d == 0 && f.f6 == 0) [f.a, f.b] (fun e =>
      let n := e.sA f % 2 ^ 24
      if 2 ^ 16 ≤ e.sB f ∨ e.s.descState (e.sB f) n = 0 then .fault 0x04 else
      let s1 := (if e.s.descState (e.sB f) n = 1 then e.s.revoke (e.sB f) n else e.s).revokeEntries (e.sB f) n
      if s1.ctxQuiet (e.sB f) = true ∧ s1.entriesAway (e.sB f) = false then .done s1 none else .wait s1) ∧
    sysIs (.zerobuf f) (fun _ => f.d == 0 && f.b == 0 && decide (f.f6 < 7)) [f.a] (fun e =>
      if e.s.coreExists (e.sA f) then .done (e.s.zeroBuf (e.sA f) f.f6) none else .fault 0x04)

/-- R25, R280, R297, R307, R309, R343: UNITSAVE and UNITLOAD of the unit on a tug thread and of an image, PREEMPT, CANCEL, and the counters. Readings and choices of the model: the test of an image (log 25), when UNITSAVE and PREEMPT save (log 33), a unit that saves itself (log 34), what CANCEL closes (log 35), the 0x04 of level records (log 56), a slot on a die under reset (log 75), the barges that PREEMPT moves (log 78). -/
def Obligations.SystemUnits : Prop :=
  ∀ f : GW,
    sysIs (.unitsave f) (fun _ => f.d == 0 && f.f6 == 0) [f.a, f.b] (fun e =>
      if 2 ^ 16 ≤ e.sA f ∨ e.sB f % 2 ^ 20 ≠ 0 ∨ e.s.physUsable (e.sB f) = false then .fault 0x04 else
      if e.s.reads (e.sB f) = false then .fault 0x0E else
      match e.s.unitOn (e.sA f / 64) (e.sA f % 64) with
      | none => .fault 0x04
      | some u => if u.stop ≠ [] ∧ u.saver ≠ some e.c.uid then .wait e.s else
        if e.s.quiet u = false then .wait (if u.uid = e.c.uid then e.s else e.s.setUnit { u with stopAt := some (u.stopAt.getD e.s.cycle), saver := some e.c.uid }) else
        if u.uid = e.c.uid then .wait ((stateOf e.s (e.sysDone e.s none)).saveAt u.uid (e.sB f)) else .done (e.s.saveAt u.uid (e.sB f)) none) ∧
    sysIs (.unitload f) (fun _ => f.d == 0 && f.f6 == 0) [f.a, f.b] (fun e =>
      if 2 ^ 42 ≤ e.sA f ∨ e.sB f % 2 ^ 20 ≠ 0 ∨ e.s.physUsable (e.sB f) = false then .fault 0x04 else
      if e.s.reads (e.sB f) = false then .fault 0x0E else
      match e.s.imageUnit (e.sB f) with
      | none => .fault 0x04
      | some u =>
        let core := if e.sA f / 2 ^ 32 % 2 ^ 10 = 0x3FF then u.core else e.sA f / 2 ^ 32 % 2 ^ 10
        match u.res with
        | .saved _ kind =>
          if u.idx ≠ e.sA f % 2 ^ 32 ∨ e.s.coreExists core = false ∨ e.s.imageOk u (e.sB f) kind = false then .fault 0x04 else
          let s1 := e.s.dropBarges u.uid
          if 256 ≤ (s1.core core).queue.length then .wait e.s else
          let s2 := s1.setUnit { u with res := .saved (e.sB f) kind, runnable := true }
          .done (State.enqueue { s2 with slots := s2.slots.map (fun (x : Slot) => if x.uid = u.uid then { x with addr := e.sB f } else x) } core u.barge true) none
        | _ => .fault 0x04) ∧
    sysIs (.preempt f) (fun _ => f.f6 == 0) [f.d, f.a, f.b] (fun e =>
      match e.s.launchOf (e.sA f % 2 ^ 10) (e.sA f / 2 ^ 10) with
      | none => .fault 0x04
      | some l =>
        let chosen := (e.s.remaining l).reverse.take (e.sB f)
        let us := chosen.flatMap (e.s.launchOn l)
        if (∃ u ∈ us, e.s.quiet u = false) ∨ (e.s.freeSlots (e.s.partOf (recCtx l.record))).length < us.length then .wait e.s else
        let d : Option (Nat × DWord) := some (f.d, BitVec.ofNat 64 chosen.length)
        let emptied (s : State) : State :=
          chosen.foldl (fun (s : State) c => s.moveQueued l c) ((chosen.flatMap (s.launchOn l)).foldl (fun (s : State) u => s.vacate u) (s.setLaunch { l with vacated := l.vacated ++ chosen, turn := 0 }))
        if ∃ u ∈ us, u.uid = e.c.uid then .wait (emptied (stateOf e.s (e.sysDone e.s d))) else .done (emptied e.s) d) ∧
    sysIs (.cancel f) (fun _ => f.d == 0 && decide (f.f6 < 5) && (f.f6 == 0 || f.b == 0)) ([f.a] ++ (if f.f6 = 0 then [f.b] else [])) (fun e =>
      if f.f6 = 0 then (match e.s.unitNamed (e.sA f) (e.sB f) with | some u => .done (e.s.cancelUnit u.uid) none | none => .fault 0x04)
      else if f.f6 = 1 then (match e.s.launchNamed (e.sA f) with | some l => .done (e.s.cancelLaunch l) none | none => .fault 0x04)
      else if e.s.levelNamed (e.sA f) (f.f6 - 1) then .done (State.cancelLevel 4 (e.sA f) e.s) none else .fail (e.s.levelWord (e.sA f)) 0x04) ∧
    (∀ p ∈ [(Instr.cntrd f, false), (Instr.cntrdSt f, true)],
      sysIs p.1 (fun _ => decide (f.f6 % 8 < 5) && (f.f6 % 8 == 0 || f.b == 0)) ([f.d, f.a] ++ (if f.f6 % 8 = 0 then [f.b] else [])) (fun e =>
        match e.s.counter (f.f6 % 8) (e.sA f) (e.sB f) with
        | some q => .done e.s (some (f.d, BitVec.ofNat 64 (if p.2 then q.2 else q.1)))
        | none => .fail (if 2 ≤ f.f6 % 8 then e.s.levelWord (e.sA f) else e.s) 0x04))

/-- R305, R358 to R360: DIECTL's reads and steps, QUIESCE, ADMIT (its self-test finds at most the units of before, how many are free values, log 18), and SLUICESET. When new traffic stops under QUIESCE (log 33), the replicas of a die under reset (log 24) and the barges of retired cores (log 18) are the model's readings. -/
def Obligations.DieWords : Prop :=
  ∀ f : GW,
    dieIs (.diectlReadState f) f 0 true true none (fun d s => .done s (some (f.d, s.dieWord d))) ∧
    dieIs (.diectlWriteBack f) f 1 true true (some 1) (fun d s => let s1 := s.setDie d { s.die d with step := 2 }; .done s1 (some (f.d, s1.dieWord d))) ∧
    dieIs (.diectlSelfRefreshEntry f) f 2 true true (some 2) (fun d s => let s1 := s.setDie d { s.die d with step := 3 }; .done s1 (some (f.d, s1.dieWord d))) ∧
    dieIs (.diectlSelfRefreshExit f) f 3 true true (some 5) (fun d s => let s1 := s.setDie d { s.die d with step := 6 }; .done s1 (some (f.d, s1.dieWord d))) ∧
    dieIs (.diectlResetDieLogic f) f 4 true true (some 3)
      (fun d s => let s0 := s.resetLogic d; let s1 := s0.setDie d { s0.die d with step := 4 }; .done s1 (some (f.d, s1.dieWord d))) ∧
    dieIs (.diectlRetrainUcie f) f 5 true true (some 4) (fun d s => let s1 := s.setDie d { s.die d with step := 5 }; .done s1 (some (f.d, s1.dieWord d))) ∧
    dieIs (.quiesce f) f 0 (f.d == 0) false (some 0) (fun d s =>
      if s.unitsOn d ≠ 0 then .fault 0x04 else
      let s1 := s.setDie d { s.die d with step := 7, savedBudget := if (s.die d).step = 7 then (s.die d).savedBudget else (s.die d).budget }
      if s.dieBusy d then .wait s1 else .done (s1.setDie d { s1.die d with step := 1 }) none) ∧
    dieIs (.admitI f) f 0 true true (some 6) (fun d s =>
      let o := s.die d
      let free (k : Nat) : Nat := (Config.freeWord (s.freeCtr + k)).toNat
      let x : Die := { o with cores := min o.cores (free 0), slices := min o.slices (max 1 (free 1)), chan := min o.chan (free 2), hbm := min o.hbm (free 3),
                              step := 0, budget := o.savedBudget }
      let s1 := State.rehome (State.copyReplicas { s.setDie d x with freeCtr := s.freeCtr + 4 } d) d o.cores
      .done (s1.mailboxes.foldl (fun (s : State) p => s.unpark p.1) ((s1.ferryReturn d).searchAgain d)) (some (f.d, BitVec.ofNat 64 x.cores))) ∧
    sysIs (.sluiceset f) (fun _ => f.d == 0 && f.f6 == 0) [f.a, f.b] (fun e =>
      if 4 ≤ e.sA f ∨ (e.s.die (e.sA f)).present = false ∨ 24000 - 3200 < e.s.budgetSum (e.sA f) (e.sB f) then .fault 0x04 else .done (e.s.setBudget (e.sA f) (e.sB f)) none)

/-- R293: MBXBIND unbinds a mailbox, at once or once its launches have completed, or binds an unbound one to the record at sB. The 0x0E is the model's reading (log 75). -/
def Obligations.MailboxBinding : Prop :=
  ∀ f : GW, sysIs (.mbxbind f) (fun _ => f.d == 0 && f.f6 == 0) [f.a, f.b] (fun e =>
    let m := e.sA f
    let record : List DWord := (List.range 16).map (fun k => BitVec.ofNat 64 (e.s.rd8 (e.sB f + 8 * k)))
    let w := e.s.rd8 (e.s.mbxAddr m)
    if 1024 ≤ m ∨ (e.s.die (m / 256)).present = false ∨ e.s.owns (e.s.partOf (recCtx e.u.record)) (0x400 + m) = false then .fault 0x04 else
    if e.sB f = 0 then
      if e.s.mbxState m = 0 then .done e.s none else
      let s1 := if e.s.mbxState m = 2 then e.s else (((e.s.setMbx m { e.s.mbx m with held := [], parked := [] }).setMbxField m 32 8 0).setMbxField m 0 8 0).setMbxField m 62 2 2
      if s1.mbxBusy m then .wait s1 else .done (s1.setMbxField m 62 2 0) none
    else if e.s.mbxState m = 0 ∧ e.sB f % 128 = 0 ∧ e.s.physUsable (e.sB f) = true ∧ e.s.reads (e.sB f) = false then .fault 0x0E
    else if e.s.mbxState m = 0 ∧ e.sB f % 128 = 0 ∧ e.s.physUsable (e.sB f) = true ∧ bits w 48 14 = 0 ∧ bits w 8 24 = 0 ∧ recordOk record = true then
      (if e.s.levelRunning (recGraph record) = true then .done (e.s.bindMbx m (e.sB f) record) none else .fail (e.s.levelWord (recGraph record)) 0x04)
    else .fault 0x04)

/-- R300, R321, R323: the events that a write of ZS_QSCHED, ZS_FLIP or ZS_PARTAPPLY is: the new register values, the copies invalidated, the frames' owner, a resource zeroed and its owner applied. The slots that en = 0 empties (log 44) and the units that bar a core's new owner (log 32) are the model's readings. -/
def Obligations.RegisterEvents : Prop :=
  (∀ s, field s.arg.v 24 40 = 0 → field s.arg.v 1 7 = 0 → 8 ≤ field s.arg.v 8 8 → field s.arg.v 8 8 ≤ 20 →
    exec .zsQsched s = .next { s with qsched := BitVec.ofNat 64 (field s.arg.v 8 8 * 2 ^ 8 + field s.arg.v 0 1), qslots := if field s.arg.v 0 1 = 0 then List.replicate 64 none else s.qslots }) ∧
  (∀ s pa n, field s.arg.v 63 1 = 1 → s.arg.a = 0 → s.flipCheck s.arg.a s.arg.v = some (pa, n) → s.inFlight pa n = false →
    exec .zsFlipToHost s = .next { (s.dropLines pa n) with bias := fillRun s.bias (pa / 2 ^ 16) (n / 2 ^ 16) true, flip := s.arg.v }) ∧
  (∀ s pa n, field s.arg.v 63 1 = 0 → s.arg.a = 0 → s.flipCheck s.arg.a s.arg.v = some (pa, n) → s.inFlight pa n = false →
    exec .zsFlipToDevice s = .next { (s.dropLines pa n) with
      hostLines := s.hostLines.filter (fun p => !(decide (pa / 128 ≤ p.1 % 2 ^ 45 ∧ p.1 % 2 ^ 45 < (pa + n) / 128))), bias := fillRun s.bias (pa / 2 ^ 16) (n / 2 ^ 16) false, flip := s.arg.v }) ∧
  (∀ s off n, let kind := field s.arg.v 60 4; let idx := field s.arg.v 0 16; let b := s.rd (s.parttab.toNat % 2 ^ 52 + off + idx) 1
    s.arg.a = 0 → partArray kind = some (off, n) → field s.arg.v 16 44 = 0 → idx < n → bits b 4 2 = 0 → (kind ≠ 2 → bits b 6 1 = 0) →
    (kind = 0 → ∀ u ∈ s.residents idx, b < 128 ∧ s.partOf (recCtx u.record) = b % 16) → (kind = 3 → s.mbxState idx ≠ 1) →
    (kind = 4 ∨ kind = 5 → s.inFlight (granuleBase kind idx) (2 ^ 26) = false) → (kind = 2 → s.inFlight (vaultKey idx 0) (2 ^ 22) = false) →
    exec .zsPartapply s = .next { (s.zeroResource kind idx) with own := SMap.put 0x80 s.own (off + idx) (BitVec.ofNat 8 b) }) ∧
  (∀ (s : State) kind idx a, kind = 2 ∧ vaultKey idx 0 ≤ a ∧ a < vaultKey idx 0 + 2 ^ 22 ∨ (kind = 4 ∨ kind = 5) ∧ granuleBase kind idx ≤ a ∧ a < granuleBase kind idx + 2 ^ 26 →
    Memory.read (s.zeroResource kind idx).mem a = 0)

/-- R27, R44, R106, R107, R121, R318: a value arrives, a register moves to segment 0x03 and back, a store is applied at its home and committed, an update of a replicated page takes its turn, a directory entry is evicted. The store-suppressed flag of a spill (log 15), which line of segment 0x03 a register has (log 26), the replicas of a die under reset (log 24) and the line that a full directory gives up (log 79) are the model's. -/
def Obligations.MemoryEvents : Prop :=
  (∀ s u g pr, s.target = some (u, g) → g.inflight[s.arg.c]? = some pr → (∀ p ∈ pr.parts, p.peer = none) → s.blocked g s.arg.c pr = false →
    exec .loadValueArrival s = .next (s.arriveAll s.arg.a s.arg.b s.arg.c pr)) ∧
  (∀ s u g, s.target = some (u, g) → u.res = .resident → SMap.get false g.spilled (regKey s.arg.reg) = false → exec .registerSpill s =
    .next (if s.arg.flag = true ∨ g.noLine (recTlen u.record) s.arg.reg = true then s.moveFault u s.arg.b g s.arg.reg true else s.onGroup s.arg.a s.arg.b (fun g => { g with spilled := SMap.put false g.spilled (regKey s.arg.reg) true }))) ∧
  (∀ s u g, s.target = some (u, g) → u.res = .resident → SMap.get false g.spilled (regKey s.arg.reg) = true → exec .registerFill s =
    .next (if s.arg.flag = true ∨ g.noLine (recTlen u.record) s.arg.reg = true then (s.moveFault u s.arg.b g s.arg.reg false).onGroup s.arg.a s.arg.b (fun g => { g with backing := SMap.put false g.backing (regKey s.arg.reg) true })
      else s.onGroup s.arg.a s.arg.b (fun g => { g with spilled := SMap.put false g.spilled (regKey s.arg.reg) false, backing := SMap.put false g.backing (regKey s.arg.reg) false }))) ∧
  (∀ s u g b, s.target = some (u, g) → u.uid = s.arg.a → g.sbuf[s.arg.c]? = some b → b.held = none → (∀ x ∈ g.together b.seq, s.mayApply s.arg.a s.arg.b g x = true) →
    ((∀ x ∈ g.together b.seq, x.rel = 0 ∧ (x.repl = true ∨ s.homeDown x.recs = false)) → ∃ t v h, exec .homeApply s = .next t ∧ t.unit? s.arg.a = some v ∧ v.group s.arg.b = some h ∧ t.mem = s.mem ∧
      h.sbuf = g.sbuf.filter (fun x => !(x.seq == b.seq && x.held.isNone)) ∧
      t.pend.map (fun p => (p.uid, p.grp, p.die, p.keys, p.bytes, p.rel, p.lane, p.repl, p.port)) =
        s.pend.map (fun p => (p.uid, p.grp, p.die, p.keys, p.bytes, p.rel, p.lane, p.repl, p.port)) ++
          (g.together b.seq).map (fun x => (s.arg.a, s.arg.b, u.die, x.keys, x.bytes, 0, x.lane, x.repl, none))) ∧
    (g.together b.seq = [b] → b.rel ≠ 0 → b.repl = true ∨ s.homeDown b.recs = false → (∀ k ∈ b.recs, s.scopeOk u s.arg.b b.lane b.rel k.1 = true) → ∃ t p, exec .homeApply s = .next t ∧ t.mem = s.mem ∧
      t.pend = s.pend ++ [p] ∧
      (p.uid, p.grp, p.die, p.keys, p.bytes, p.rel, p.lane, p.repl, p.seqd, p.port, p.recs) =
        (s.arg.a, s.arg.b, u.die, b.keys, b.bytes, b.rel, b.lane, b.repl, if b.repl then some s.nextSeq else none, none, b.recs) ∧
      (s.dir.length + b.recs.length ≤ 65536 → ∀ k ∈ b.recs, t.scopeOf k.1 = some ⟨b.rel, scopeInst b.rel u s.arg.b b.lane⟩)) ∧
    (g.together b.seq = [b] → b.repl = false → s.homeDown b.recs = true → (g.lane b.lane).st.live = true → b.lane ∉ u.faulted s.arg.b → ∃ t v, exec .homeApply s = .next t ∧ t.mem = s.mem ∧
      t.pend = s.pend ∧ t.unit? s.arg.a = some v ∧ ∃ r ∈ v.stop, r.grp = s.arg.b ∧ r.lane = b.lane ∧ r.code = 0x0E ∧ r.ss = true ∧ r.pc = b.at_ ∧ r.addr = b.addr) ∧
    (g.together b.seq = [b] → b.rel ≠ 0 → b.repl = true ∨ s.homeDown b.recs = false → (∃ k ∈ b.recs, s.scopeOk u s.arg.b b.lane b.rel k.1 = false) → (g.lane b.lane).st.live = true → b.lane ∉ u.faulted s.arg.b → ∃ t v, exec .homeApply s = .next t ∧ t.mem = s.mem ∧
      t.pend = s.pend ∧ t.unit? s.arg.a = some v ∧ ∃ r ∈ v.stop, r.grp = s.arg.b ∧ r.lane = b.lane ∧ r.code = 0x07 ∧ r.ss = true ∧ r.pc = b.at_ ∧ r.addr = b.addr)) ∧
  (∀ s p, s.pend[s.arg.a]? = some p → p.seqd = none → p.unacked = [] → (∀ q ∈ s.pend.take s.arg.a, ∀ k ∈ q.keys, k ∉ p.keys) →
    exec .storeCommit s = .next (State.expose { s with pend := s.pend.eraseIdx s.arg.a, out := s.out ++ p.cxl.toList.map (fun q => .cxlDone q) } p.die (s.landing p.repl p.keys p.bytes).1 (s.landing p.repl p.keys p.bytes).2)) ∧
  (∀ s p n, s.pend[s.arg.a]? = some p → p.seqd = some n → p.unacked = [] → (∀ q ∈ s.pend, ∀ m ∈ q.seqd, n ≤ m) → exec .replicatedUpdate s = .next (s.commitAt s.arg.a)) ∧
  (∀ s p, s.pend[s.arg.a]? = some p → p.unacked ≠ [] → exec .storeCommit s = .next s ∧ exec .replicatedUpdate s = .next s) ∧
  (∀ s e, AMap.get? s.dir s.arg.a = some e → 128 * s.arg.a < 2 ^ 52 → s.updating s.arg.a = false →
    exec .directoryEviction s = .next ({ s with dir := AMap.erase s.dir s.arg.a }.hitFences [128 * s.arg.a])) ∧
  (∀ s, 2 ^ 52 ≤ 128 * s.arg.a ∨ s.updating s.arg.a = true → exec .directoryEviction s = .next s)

/-- R113 to R115, R124: a fence that waits for nothing completes, as a commit point and a region entry of the lanes whose deferred faults it does not surface; a lane that read a line too early goes back to its FENCE. Which issue's region entry holds after a completion (log 66), and that a deferred fault stays after its 0x18 (log 67), are the model's readings. -/
def Obligations.FenceEvents : Prop :=
  (∀ s u g f, s.target = some (u, g) → g.fences[s.arg.c]? = some f → f.hit = [] → u.stop = [] → s.fenceWaits s.arg.a s.arg.b g f = false →
    let failed := if 6 ≤ f.scope then f.lanes.filterMap (fun l => (g.lane l).defer.map (fun d => (l, deferFault d))) else []
    let h := g.setLanes (failed.map (fun p => p.1)) (fun _ x => { x with rpc := f.pc, rctr := f.ctr })
    exec .fenceCompletion s = .next (s.setUnit ((u.setGroup s.arg.b (h.fenceEnds s.arg.c f)).laneFaults s.cycle s.arg.b (some (f.pc, f.seq)) failed))) ∧
  (∀ (g : Group) c f, g.fences[c]? = some f → f.lanes ≠ [] → g.fenceFaults f = [] →
    let h := g.fenceEnds c f
    h.fences = g.fences.eraseIdx c ∧ h.regc = (g.regc + 1) % 2 ^ 64 ∧
    h.sbuf = g.sbuf.map (fun (b : BufStore) => if b.lane ∈ f.lanes then { b with held := none } else b) ∧
    (∀ l, l < g.lanes.length → h.lane l = if l ∈ f.lanes ∧ (g.lane l).rseq ≤ f.seq then
      { g.lane l with rpc := f.pc + f.len, rctr := (g.regc + 1) % 2 ^ 64, rseq := f.seq, rdep := ((f.snaps.find? (fun k => k.lane == l)).map (·.dep)).getD 0 } else g.lane l) ∧
    ∀ b ∈ h.binds, b.hist.head? = some ((g.regc + 1) % 2 ^ 64, b.pos)) ∧
  (∀ s u g f k, s.target = some (u, g) → g.fences[s.arg.c]? = some f → s.arg.d ∈ f.hit → u.stop = [] → g.awaiting [s.arg.d] = false →
    f.snaps.find? (fun k => k.lane == s.arg.d) = some k → s.arg.d < g.lanes.length → u.uid = s.arg.a →
    ∃ t v h, exec .fenceRollback s = .next t ∧ t.unit? s.arg.a = some v ∧ v.group s.arg.b = some h ∧
      (h.lane s.arg.d).pc = f.pc ∧ (h.lane s.arg.d).st = .priv ∧ (h.lane s.arg.d).dep = k.dep ∧ (∀ l, l ≠ s.arg.d → h.lane l = g.lane l) ∧
      (∀ l n, l ≠ s.arg.d → n < 64 → (∀ p ∈ k.v, p.1 / 64 = s.arg.d) → h.getV l n = g.getV l n) ∧ t.mem = s.mem ∧ (∀ b ∈ h.sbuf, ¬(b.lane = s.arg.d ∧ b.held.isSome = true)) ∧ ∀ b ∈ h.blocked, s.arg.d ∉ b.lanes)

/-- R122 to R124, R351 to R353: acknowledgements, replies, accesses of peers checked, performed and answered, and a route that times out. What an acknowledgement covers (log 19), the numbers and the party of an incoming access (log 22), what leaves in State.out (log 50) and the 0x05 of an address without a granule (log 64) are the model's. -/
def Obligations.LinkEvents : Prop :=
  (∀ s p, s.arg.flag = false → s.posted[s.arg.a]? = some p →
    let s1 : State := { s with posted := (s.posted.take s.arg.a).filter (fun q => q.dev != p.dev) ++ s.posted.drop (s.arg.a + 1) }
    exec .postedStoreAcknowledgement s = .next (match if s.routeDead p.dev then some 0x0E else s.arg.reason with | none => s1 | some r => s1.deferTo p r)) ∧
  (∀ s c e rest, s.arg.flag = true → (s.engine s.arg.eng).cmds.find? (fun c => c.num == s.arg.a && !c.done) = some c → c.sent = e :: rest →
    exec .postedStoreAcknowledgement s = .next (if s.arg.reason.isSome = true ∨ s.routeDead e.1 = true then s.sendFails s.arg.eng c e else s.putCmd s.arg.eng { c with sent := rest })) ∧
  (∀ s u g r, s.target = some (u, g) → g.inflight.length ≤ s.arg.c → g.peerRead[s.arg.c - g.inflight.length]? = some r → r.ans = none →
    let r1 : PeerRead := { r with ans := if s.routeDead r.dev then some (.failed 0x0E) else s.arg.parts.head? }
    exec .peerReply s = .next (s.onGroup s.arg.a s.arg.b (fun h => { h with peerRead := h.peerRead.set (s.arg.c - g.inflight.length) r1 }))) ∧
  (∀ s u g pr, s.target = some (u, g) → g.inflight[s.arg.c]? = some pr → (∀ p ∈ pr.parts, p.peer.isSome = true) → s.arg.parts.length = pr.parts.length →
    exec .peerReply s = .next (s.replied s.arg.a s.arg.b s.arg.c pr
      (if ∃ p ∈ pr.parts, ∃ d ∈ p.peer, s.routeDead d = true then pr.parts.map (fun _ => PeerPart.failed 0x0E) else s.arg.parts))) ∧
  (∀ s q, s.arg.req = some q → 256 < peerLen q → exec .peerAccess s = .next s) ∧
  (∀ s q, s.arg.req = some q → peerLen q ≤ 256 →
    let n := peerLen q
    let keys := upFrom q.pa n
    let recs := (linesOf keys).map (fun k => (k, if 128 * k < 2 ^ 42 then 128 * k / 2 ^ 40 else 4))
    (s.peerCheck s.arg.a q.pa n ≠ 0 → exec .peerAccess s = .next { s with out := s.out ++ [.peerReply s.arg.a (s.peerCheck s.arg.a q.pa n) []] }) ∧
    (s.peerCheck s.arg.a q.pa n = 0 → (∀ p ∈ s.pend, ∀ k ∈ p.keys, k ∉ keys) → q.scope ≠ 0 → (∃ r ∈ recs, s.peerScopeOk s.arg.a q r.1 = false) →
      exec .peerAccess s = .next { s with out := s.out ++ [.peerReply s.arg.a 0x07 []] }) ∧
    (s.peerCheck s.arg.a q.pa n = 0 → (∀ p ∈ s.pend, ∀ k ∈ p.keys, k ∉ keys) → (q.scope = 0 ∨ ∀ r ∈ recs, s.peerScopeOk s.arg.a q r.1 = true) →
      let s0 := if q.scope = 0 then s else recs.foldl (fun (s : State) r => s.setScope r q.scope (peerInst s.arg.a q q.scope)) s
      let s1 := s0.hitFences keys
      let old := keys.map (Memory.read s0.mem)
      let r (op size : Nat) := atomNew (peerOp op) n (intTy size).sgn (leNat old) (leNat (q.data.take n)) (leNat ((q.data.drop n).take n))
      exec .peerAccess s = .next (match q.kind with
        | .load => { s0 with out := s0.out ++ [.peerReply s.arg.a 0 old] }
        | .store => let t := s1.expose 4 keys (q.data.take n); { t with out := t.out ++ [.peerReply s.arg.a 0 []] }
        | .join lt => let t := s1.joinCell 4 lt keys (leNat (q.data.take n)); { t with out := t.out ++ [.peerReply s.arg.a 0 []] }
        | .atomic op size => if op = 8 ∧ leNat old ≠ leNat ((q.data.drop n).take n) then { s0 with out := s0.out ++ [.peerReply s.arg.a 0 old] } else
          let t := s1.expose 4 keys (leBytes n (r op size).1); { t with out := t.out ++ [.peerReply s.arg.a 0 old] }))) ∧
  (∀ s, ∃ t, exec .routeTimeout s = .next t ∧ t.posted = s.posted.filter (fun p => p.dev != s.arg.a) ∧
    ((∀ p ∈ s.engines, ∀ c ∈ p.2.cmds, ∀ e ∈ c.sent, e.1 ≠ s.arg.a) → t.mem = s.mem))

/-- R97 to R102: ferry rounds. A die that serves begins its next round; a chunk is joined into the receiver's replica and never lowers a cell; the devices' rounds; a device lost and reached again. The rounds of more than four replicas (log 20) and the snapshots that say which chunks have changed (log 36) are the model's readings. -/
def Obligations.FerryEvents : Prop :=
  (∀ s g, s.latSeg s.arg.a s.arg.b = some g → (s.die s.arg.c).state = 1 → ((s.ferry s.arg.a s.arg.b).die s.arg.c).busy = true →
    exec .ferryRoundStart s = .next (s.ferryWithout g (s.ferry s.arg.a s.arg.b) s.arg.c (fun t => (s.die t).state != 1))) ∧
  (∀ s g, s.latSeg s.arg.a s.arg.b = some g → (s.die s.arg.c).state = 1 → ((s.ferry s.arg.a s.arg.b).die s.arg.c).busy = false →
    g.pair = 2 → s.position s.arg.c = 0 → 1 < s.presentDies.length →
    let f := s.ferry s.arg.a s.arg.b
    let x := f.die s.arg.c
    let x1 : FerryDie := { x with busy := true, sent := false, unacked := 0, awaits := s.partners f (upFrom 1 (s.presentDies.length - 1)) x.round, catchup := x.catchup.filter (fun r => decide (x.round < r + 1)),
                                  snaps := (s.replica f.ctx s.arg.c g :: x.snaps).take 2 }
    let s0 := if ∃ q ∈ upFrom 1 (s.presentDies.length - 1), ∃ e ∈ s.presentDies[q]?, (s.die e).state ≠ 1 then s.report 102 f.seg else s
    exec .ferryRoundStart s = .next (s0.scatter g (f.setDie s.arg.c x1) s.arg.c)) ∧
  (∀ s g, s.latSeg s.arg.a s.arg.b = some g → (s.die s.arg.c).state = 1 → ((s.ferry s.arg.a s.arg.b).die s.arg.c).busy = false →
    ¬(g.pair = 2 ∧ s.position s.arg.c = 0 ∧ 1 < s.presentDies.length) →
    let f := s.ferry s.arg.a s.arg.b
    let x := f.die s.arg.c
    let n := s.presentDies.length
    let from_ := receivesFrom g.pair n (s.position s.arg.c) x.round
    let to_ := sendsTo g.pair n (s.position s.arg.c) x.round
    let x1 : FerryDie := { x with busy := true, sent := true, unacked := 0, awaits := s.partners f from_ x.round, catchup := x.catchup.filter (fun r => decide (x.round < r + roundsFor g.pair n)),
                                  snaps := (s.replica f.ctx s.arg.c g :: x.snaps).take (roundsFor g.pair n + 1) }
    let s0 := if ∃ q ∈ from_ ++ to_, ∃ e ∈ s.presentDies[q]?, (s.die e).state ≠ 1 then s.report 102 f.seg else s
    let r := s0.sendChunks g (f.setDie s.arg.c x1) s.arg.c (s.partners f to_ x.round)
    exec .ferryRoundStart s = .next (r.1.setFerry (f.setDie s.arg.c r.2.settle))) ∧
  (∀ s c g, s.chunks[s.arg.a]? = some c → s.latTable c.ctx c.seg = some g → (s.die c.dst).state = 1 →
    (c.last = true → (∀ k ∈ s.chunks.take s.arg.a, ¬(k.ctx = c.ctx ∧ k.seg = c.seg ∧ k.src = c.src ∧ k.dst = c.dst)) ∧ ((s.ferry c.ctx c.seg).die c.dst).busy = true ∧
      ((s.ferry c.ctx c.seg).die c.dst).round = c.round ∧ c.src ∈ ((s.ferry c.ctx c.seg).die c.dst).awaits) →
    let f := s.ferry c.ctx c.seg
    let x := f.die c.src
    let f1 := f.setDie c.src ({ x with unacked := x.unacked - 1 } : FerryDie).settle
    let f2 := if c.last then f1.setDie c.dst { f1.die c.dst with awaits := (f1.die c.dst).awaits.erase c.src } else f1
    exec .ferryChunkReceive s = .next ((State.joinBytes { s with chunks := s.chunks.eraseIdx s.arg.a } c.ctx c.dst g (c.num * g.chunkLen) c.bytes).scatter g f2 c.dst)) ∧
  (∀ s g p, s.latSeg s.arg.a s.arg.b = some g → g.dx = true → field s.domid 10 1 = 1 → (s.exchangeSet g.dev).idxOf? (field s.domid 0 10) = some p → (s.die (s.domDie g)).state = 1 →
    let f := s.ferry s.arg.a s.arg.b
    f.domDone * roundsFor g.pair s.presentDies.length < (f.die (s.domDie g)).round →
    ∃ t, exec .domainRound s = .next t ∧ (t.ferry s.arg.a s.arg.b).domRound = f.domRound + 1 ∧ (t.ferry s.arg.a s.arg.b).domCatchup = f.domCatchup - 1 ∧
      (t.ferry s.arg.a s.arg.b).domDone = f.domDone + 1 ∧ (t.ferry s.arg.a s.arg.b).dies = f.dies) ∧
  (∀ s, s.arg.a ∉ s.absentDevs → exec .ovoftLinkLoss s = .next ({ s with absentDevs := s.absentDevs ++ [s.arg.a] }.report 102 s.arg.a)) ∧
  (∀ s, s.arg.a ∈ s.absentDevs → ∃ t, exec .ovoftLinkReturn s = .next t ∧ t.absentDevs = s.absentDevs.filter (fun x => x != s.arg.a) ∧ t.mem = s.mem ∧
    t.ferries.map (fun f => (f.ctx, f.seg, f.dies, f.domRound)) = s.ferries.map (fun f => (f.ctx, f.seg, f.dies, match s.latTable f.ctx f.seg with
      | some g => if g.dx = true ∧ s.arg.flag = true ∧ s.arg.a ∈ s.exchangeSet g.dev ∧ ((s.exchangeSet g.dev).filter (fun j => j != field s.domid 0 10)).head? = some s.arg.a then s.arg.b else f.domRound
      | none => f.domRound)))

/-- R118, R119, R274, R303, R304, R361: an engine command that runs to its end, one that waits, one that stops at a fault, service that goes on, a failed context cleared; grants and promotions of the sluice. Free bytes of a peer (log 3), when each event comes (log 2) and the address of a collective's source fault (log 78) are the model's. -/
def Obligations.EngineEvents : Prop :=
  (∀ s u c, s.running = some (u, c) →
    (∀ s1 c1, s.runCmd u s.arg.eng c = (s1, c1, .done) → exec .engineCommandComplete s = .next (s1.cmdDone s.arg.eng c1)) ∧
    (∀ s1 c1, s.runCmd u s.arg.eng c = (s1, c1, .cut) → exec .engineCommandComplete s = .next (s1.cmdDone s.arg.eng c1)) ∧
    (∀ s1 c1, s.runCmd u s.arg.eng c = (s1, c1, .wait) → exec .engineCommandComplete s = .next (s1.putCmd s.arg.eng c1)) ∧
    (∀ s1 c1 code addr ss, s.arg.flag = false → s.runCmd u s.arg.eng c = (s1, c1, .fault code addr ss) →
      exec .engineCommandFault s = .next ((s1.putCmd s.arg.eng c1).cmdRoute s.arg.eng c1 (s.partOf (recCtx u.record)) code addr ss)) ∧
    (∀ s1 c1 code addr ss, s.arg.flag = false → s.runCmd u s.arg.eng c = (s1, c1, .lost code addr ss) →
      exec .engineCommandFault s = .next ((s1.putCmd s.arg.eng c1).ctxFail s.arg.eng c1.num code addr ss)) ∧
    (∀ a, s.arg.flag = true → s.peerElem u c s.arg.b (s.arg.c == 1) = some a →
      ((∃ f, c.instr = .post f) → s.arg.b < c.e.toNat → exec .engineCommandFault s = .next (s.cmdRoute s.arg.eng c (s.partOf (recCtx u.record)) 0x0D (addrNat a) false)) ∧
      ((∃ f, c.instr = .chain f) → c.data = none → s.arg.c = 1 → exec .engineCommandFault s = .next (s.cmdRoute s.arg.eng c (s.partOf (recCtx u.record)) 0x0D (addrNat a) false)) ∧
      (∀ s1 c1 code addr ss, (∃ f, c.instr = .coll f) → s.runUntil u s.arg.eng c (some s.arg.b) = (s1, c1, .fault code addr ss) →
        exec .engineCommandFault s = .next ((s1.putCmd s.arg.eng c1).cmdRoute s.arg.eng c1 (s.partOf (recCtx u.record)) code addr ss)) ∧
      (∀ s1 c1, (∀ f, c.instr ≠ .post f ∧ c.instr ≠ .coll f ∧ (c.instr = .chain f → c.data ≠ none ∨ s.arg.c ≠ 1)) → s.runUntil u s.arg.eng c (some s.arg.b) = (s1, c1, .wait) → c1.prog = s.arg.b →
        exec .engineCommandFault s = .next ((s1.putCmd s.arg.eng c1).cmdRoute s.arg.eng c1 (s.partOf (recCtx u.record)) 0x0D (addrNat a) false)))) ∧
  (∀ s, s.running = none → exec .engineCommandComplete s = .next (s.askAfter.getD s)) ∧
  (∀ s, exec .engineFaultRetry s =
    .next (s.setEngine s.arg.eng { s.engine s.arg.eng with cmds := (s.engine s.arg.eng).cmds.map (fun (c : Command) => { c with stuck := none }) })) ∧
  (∀ s f, (s.engine s.arg.eng).failed = some f → exec .failedContextClear s =
    .next (s.setEngine s.arg.eng { s.engine s.arg.eng with failed := none, cmds := (s.engine s.arg.eng).cmds.filter (fun c => c.num != f.1) })) ∧
  (∀ s p r, (s.die s.arg.a).head = some (p, r) →
    ((s.die s.arg.a).budget < r.demand → exec .sluiceGrant s = .next (s.refuse s.arg.a r)) ∧
    (r.demand ≤ (s.die s.arg.a).budget → (s.die s.arg.a).held + r.demand ≤ (s.die s.arg.a).budget → exec .sluiceGrant s = .next (s.grantTo s.arg.a p r)) ∧
    ((s.die s.arg.a).budget < (s.die s.arg.a).held + r.demand → r.demand ≤ (s.die s.arg.a).budget → exec .sluiceGrant s = .next s)) ∧
  (∀ s r rest, s.arg.b < 3 → (s.die s.arg.a).queues.getD s.arg.b [] = r :: rest → exec .sluicePromotion s =
    .next (s.setDie s.arg.a { s.die s.arg.a with
      queues := ((s.die s.arg.a).queues.set s.arg.b rest).set (s.arg.b + 1) ((s.die s.arg.a).queues.getD (s.arg.b + 1) [] ++ [r]) }))

/-- R292 to R302: a mailbox takes its oldest firing, queues are scheduled, a core places its head barge, an idle unit makes room, a group's priority rises, barges level. The names of the recovery queues' launches (log 23), a full queue's barges (log 70) and the places of groups (log 71) are the model's choices. -/
def Obligations.LaunchEvents : Prop :=
  (∀ s, let s1 := if s.arg.bytes ≠ [] ∧ s.mbxRoom s.arg.a = true then s.fire s.arg.a (s.arg.bytes.take 256) else s
    exec .mailboxFiring s = .next (if s.arg.a < 1024 ∧ s1.mbxState s.arg.a = 1 ∧ field s1.qsched 0 1 = 0 ∧ s1.mbxServes s.arg.a = true
      then ((s1.takeFiring s.arg.a).unpark s.arg.a).deliverKept else s1)) ∧
  (∀ s : State, (s.mbx s.arg.a).held = [] → s.takeFiring s.arg.a = s) ∧
  (∀ (s : State) slot len rest, (s.mbx s.arg.a).held = (slot, len) :: rest →
    let s1 := (s.setMbx s.arg.a { s.mbx s.arg.a with held := rest }).setMbxField s.arg.a 32 8 rest.length
    let w := s.rd8 (s.mbxAddr s.arg.a)
    s.takeFiring s.arg.a = if s.levelRunning (recGraph (s.mbx s.arg.a).record) = false then (s1.reportStray (recGraph (s.mbx s.arg.a).record)).report 297 s.arg.a else
      if w % 2 ^ 8 + 1 < max 1 (w / 2 ^ 40 % 2 ^ 8) then s1.setMbxField s.arg.a 0 8 (w % 2 ^ 8 + 1) else
      ((s1.setMbxField s.arg.a 0 8 0).setMbx s.arg.a { s.mbx s.arg.a with held := rest, seq := (s.mbx s.arg.a).seq + 1 }).startLaunch s.arg.a (s.mbx s.arg.a).seq (s.mbx s.arg.a).record
        ((upFrom (s.rd8 (s.mbxAddr s.arg.a + 16) + 256 * slot) len).map (Memory.read s.mem))) ∧
  (∀ s, field s.qsched 0 1 = 0 → exec .recoveryQuantum s = .next s) ∧
  (∀ s, field s.qsched 0 1 = 1 → s.qcount = 0 → s.qslots.length = 64 → exec .recoveryQuantum s = .next { s with qslots := List.replicate 64 none }) ∧
  (∀ s, field s.qsched 0 1 = 1 →
    let slots := (List.range 64).foldl (fun (qs : List (Option Nat)) i => qs.set i (s.qnext (qs.set i none) (qs.getD i none))) s.qslots
    exec .recoveryQuantum s = .next (slots.foldl (fun (t : State) q => match q with
      | none => t
      | some i => (List.range (min (t.qlen i) 65536)).foldl (fun (t : State) _ => t.qtake i) t) { s with qslots := slots })) ∧
  (∀ s b u, s.headBarge s.arg.a = some b → s.unit? b.uid = some u → exec .bargePlacement s = .next (if s.fits s.arg.a u then s.placeBarge s.arg.a u else s.admitPending s.arg.a)) ∧
  (∀ (s : State) m msg, s.mbxRoom m = true → (s.mbx m).held.length + (s.mbx m).parked.length < 64 ∧
    (s.mbxServes m = false ∨ (s.mbx m).parked ≠ [] → (s.fire m msg).mem = s.mem ∧ ((s.fire m msg).mbx m).parked = (s.mbx m).parked ++ [msg] ∧ ((s.fire m msg).mbx m).held = (s.mbx m).held)) ∧
  (∀ s, s.headBarge s.arg.a = none → exec .bargePlacement s = .next (s.admitPending s.arg.a)) ∧
  (∀ s u addr b v, s.unit? s.arg.a = some u → u.uid = s.arg.a → u.res = .resident → u.stopAt = none → s.quiet u = true →
    (∀ g ∈ u.groups, g.lastIssue + 16384 ≤ s.cycle) → u.idle = true → (s.core u.core).queue.length < 256 →
    s.headBarge u.core = some b → s.unit? b.uid = some v → s.fits u.core v = false → s.freeSlot (s.partOf (recCtx u.record)) = some addr →
    let s1 := s.settle u.uid
    let s2 := s1.saveUnit u.uid addr 2
    (∀ x, s1.unit? u.uid = some x → x.stop = [] ∧ x.idle = true) → s1.unit? u.uid ≠ none →
    exec .idleUnitSave s = .next (State.enqueue { s2 with slots := s2.slots ++ [{ part := s.partOf (recCtx u.record), addr := addr, uid := u.uid, first := 0, nrec := 0 }] } u.core u.barge false)) ∧
  (∀ s u g l, s.target = some (u, g) → u.res = .resident → l ∈ g.liveLanes → (g.lane l).st.isParked = false → 64 ≤ g.passed →
    exec .effectivePriorityRaise s = .next (s.onGroup s.arg.a s.arg.b (fun g => { g with raised := true }))) ∧
  (∀ s, s.coreExists s.arg.a = true →
    let s1 := (s.neighbours s.arg.a).foldl (fun (s1 : State) n =>
      s1.setCore n { s1.core n with reported := (s1.core n).reported.filter (fun p => p.1 != s.arg.a) ++ [(s.arg.a, (s.core s.arg.a).queue.length)] }) s
    exec .levellingExchange s = .next (((s.neighbours s.arg.a).foldl (fun (r : State × List Nat) n => r.1.pushTo s.arg.a n r.2) (s1, [])).1.admitPending s.arg.a))

/-- R332 to R336, R361: a stop is saved and takes its route; service returns, abandons or escalates a unit or a command; the emulation of an optional opcode, whose accesses and register writes are inputs of the event (the model's choice, log 77). The test of an image (log 25), the route of several records (log 30), the slice of an image outside HBM (log 37), kept messages (log 38) and the message of a unit without a slot (log 47) are the model's. -/
def Obligations.ServiceEvents : Prop :=
  (∀ s u, s.unit? s.arg.a = some u → u.res = .resident ∨ u.res = .stopped → u.stop ≠ [] → s.quiet u = true → s.savedBy u = false →
    let part := s.partOf (recCtx u.record)
    (s.freeSlot part = none → exec .stopSave s = .next (if u.res = .stopped then s else (s.setUnit u.held).toSupervisor part (stopMsg 0 u.firstCode 0 u.stop.length))) ∧
    (∀ addr v, s.freeSlot part = some addr →
      let s3 := ((s.settle u.uid).onUnit u.uid (fun v => { v with stop := v.stop.map (s.settleCode part) })).saveUnit u.uid addr 1
      s3.unit? u.uid = some v →
      exec .stopSave s = .next (State.routeStop { s3 with slots := s3.slots ++ [{ part := part, addr := addr, uid := u.uid, first := v.firstCode, nrec := (recordOrder v.stop).length }] } v addr))) ∧
  (∀ u : WorkUnit, u.held.res = .stopped ∧ ∀ g ∈ u.held.groups, ∀ l ∈ g.liveLanes, (g.lane l).st = .parked .leave 1 (g.lane l).pc) ∧
  (∀ (s : State) u addr, let part := s.partOf (recCtx u.record); let msg := stopMsg addr u.firstCode 0 (recordOrder u.stop).length
    (s.stopRoute part (recordOrder u.stop) = 0 → s.routeStop u addr = s.endUnit u.uid 2) ∧
    (s.stopRoute part (recordOrder u.stop) = 2 → s.routeStop u addr = s.toSupervisor part msg) ∧
    (s.stopRoute part (recordOrder u.stop) = 1 → s.serviceSlice u addr = none → s.routeStop u addr = s.escalate u) ∧
    (∀ i, s.stopRoute part (recordOrder u.stop) = 1 → s.serviceSlice u addr = some i → s.routeStop u addr = ((revokedSegs u.stop).foldl (fun (s : State) p => s.countRevoked u.uid p) s).toHarbour i msg)) ∧
  (∀ s u, s.arg.flag = false → s.unit? s.arg.a = some u → u.inService = true →
    exec .serviceReturn s = .next (s.returnUnit u) ∧ exec .serviceAbandon s = .next (s.endUnit u.uid 2) ∧ exec .serviceEscalate s = .next (s.escalate u)) ∧
  (∀ s c code addr ss, s.arg.flag = true → s.stuckCmd s.arg.eng = some (c, code, addr, ss) →
    exec .serviceReturn s = .next (s.putCmd s.arg.eng { c with stuck := none }) ∧ exec .serviceAbandon s = .next (s.ctxFail s.arg.eng c.num code addr ss) ∧
    exec .serviceEscalate s = .next ((s.ctxFail s.arg.eng c.num code addr ss).toSupervisor (s.cmdPart c) (faultMsg s.arg.eng c.num code addr ss))) ∧
  (∀ s u addr, s.unit? s.arg.a = some u → u.res = .saved addr 1 → s.harboured u = true → (∃ r ∈ u.stop, r.code = 0x0C) →
    let rs := u.stop.filter (fun r => r.code == 0x0C)
    let done (s0 : State) : State := rs.foldl (fun (s : State) r => s.imageSkip addr r)
      ((s.arg.edits.filter (fun p => rs.any (fun r => r.grp * 64 + r.lane == p.1))).foldl (fun (s : State) p => s.imageEdit addr (p.1 / 64) (p.1 % 64) p.2.1 p.2.2) s0)
    exec .optionalEmulation s = .next (match s.emulate u (emuAccs rs s.arg.accs) with
      | .error bad => (s.reports bad).escalate u
      | .ok s0 => if ∀ r ∈ u.stop, r.code = 0x0C then (done s0).returnUnit u else done s0))

/-- R66 to R71: a binder resolves its entry or is escalated, a revoked segment's entries are bound again, a search is repeated, a binding abandoned. The context of the export tables (log 28), the cancelled unit (log 29), stops of several codes (log 30) and the name under which a record is bound again (log 78) are the model's readings. -/
def Obligations.BindingEvents : Prop :=
  (∀ s b u, s.binders[s.arg.a]? = some b → b.escalated = false → s.serves b.entry = true → s.unit? b.uid = some u → u.res ≠ .resident → u.res ≠ .stopped →
    let stuck (t : State) (said : List (Nat × Nat)) : State :=
      let t1 : State := { t with binders := t.binders.set s.arg.a { b with escalated := true, said := said } }
      match u.res with | .saved _ _ => t1.escalate u | _ => t1.report 68 b.entry.key
    let r := s.bind u b.entry b.said
    (s.entrySlice b.ctx b.entry = none → exec .binderResolution s = .next (stuck s b.said)) ∧
    (s.entrySlice b.ctx b.entry ≠ none → r.ok = false → exec .binderResolution s = .next (stuck r.s r.said)) ∧
    (s.entrySlice b.ctx b.entry ≠ none → r.ok = true →
      let s2 : State := { r.s with binders := r.s.binders.eraseIdx s.arg.a }
      (s2.unit? b.uid = none → exec .binderResolution s = .next s2) ∧
      (∀ v, s2.unit? b.uid = some v → exec .binderResolution s =
        .next (if s2.boundOnly v = true ∧ (∀ r ∈ v.stop, r.code = 0x01) ∧ ∀ x ∈ s2.binders, x.uid ≠ v.uid then s2.returnUnit v else s2)))) ∧
  (∀ s b, s.binders[s.arg.a]? = some b → s.serves b.entry = false → exec .binderResolution s = .next s) ∧
  (∀ s u, s.unit? s.arg.a = some u → s.boundOnly u = true → revokedSegs u.stop ≠ [] → (∀ b ∈ s.binders, b.uid ≠ u.uid) →
    let late := ∃ p ∈ revokedSegs u.stop, ∃ q ∈ s.revokedStops, q.1 = u.uid ∧ q.2.1 = p.1 ∧ q.2.2.1 = p.2 ∧ 4 ≤ q.2.2.2
    let s2 := (revokedSegs u.stop).foldl (fun (s : State) p => if s.descState (recCtx u.record) p.2 = 2 then s.rebind u p.1 p.2 else s) s
    (late → exec .revokedSegmentService s = .next ((s.escalate u).cancelUnit u.uid)) ∧
    (¬late → ∀ v, s2.unit? u.uid = some v →
      ((∃ b ∈ s2.binders, b.uid = u.uid) → exec .revokedSegmentService s = .next (s2.escalate v)) ∧
      ((∀ b ∈ s2.binders, b.uid ≠ u.uid) → exec .revokedSegmentService s = .next (s2.returnUnit v)))) ∧
  (∀ s, exec .bindingSearchRepeat s =
    .next { s with binders := s.binders.map (fun (x : Binder) => if x.ctx = s.arg.a ∧ x.entry.key = s.arg.b then { x with escalated := false } else x) }) ∧
  (∀ s b, s.binders.find? (fun x => x.ctx == s.arg.a && x.entry.key == s.arg.b && x.escalated) = some b →
    let s1 : State := { s with binders := s.binders.filter (fun x => !(x.ctx == b.ctx && x.entry.key == b.entry.key)) }
    exec .bindingAbandon s = .next (((s1.entryState b.entry 3).wakeEntry b.ctx b.entry.key).cancelUnit b.uid))

/-- R320, R346, R347, R349, R354, R356: the host's writes in order, its reads behind them, its memory requests and snoops, its warm restart and the return of its link. The model's: free bytes of a peer (log 3), the party of an inbound access (log 39), the bytes of a snoop (log 40), BAR0's one word (log 41), the key of a cached line (log 60), a CXL.mem write that fires nothing (log 62), what a restart cuts off (log 63). -/
def Obligations.HostEvents : Prop :=
  (∀ s w, s.portUp.getD s.arg.a false = true → s.arg.write = some w → exec .inboundPostedWrite s = .next (if 512 < w.data.length then s else
    { s with pop := s.pop.set s.arg.a (s.pop.getD s.arg.a [] ++ [{ num := s.popNext.getD s.arg.a 0, w := w }]), popNext := s.popNext.set s.arg.a (s.popNext.getD s.arg.a 0 + 1) })) ∧
  (∀ s before x after s1, s.portUp.getD s.arg.a false = true → s.arg.write = none → s.popReady s.arg.a = before ++ x :: after → (∀ y ∈ before, s.passPop s.arg.a y.w = none) → s.passPop s.arg.a x.w = some s1 →
    exec .inboundPostedWrite s = .next { s1 with pop := s1.pop.set s.arg.a ((s1.pop.getD s.arg.a []).filter (fun y => y.num != x.num)) }) ∧
  (∀ (s : State) port x rest, s.pop.getD port [] = x :: rest → (∀ y ∈ rest, y ∈ s.popReady port ↔ y.w.relaxed = true ∨ y = x ∧ s.portIdle port = true) ∧ (x.w.relaxed = true ∨ s.portIdle port = true → x ∈ s.popReady port)) ∧
  (∀ s, s.portUp.getD s.arg.a false = true → s.arg.d ≤ 4096 → s.pop.getD s.arg.a [] = [] → s.portIdle s.arg.a = true →
    (s.arg.flag = true → exec .inboundRead s = .next { s with out := s.out ++ [.hostData s.arg.a ((leBytes 8 s.bar0.toNat).take s.arg.d)] }) ∧
    (s.arg.flag = false → s.inbound s.arg.b s.arg.c s.arg.d false = none →
      exec .inboundRead s = .next { s.inboundNote s.arg.b s.arg.c s.arg.d with out := (s.inboundNote s.arg.b s.arg.c s.arg.d).out ++ [.hostError s.arg.a] }) ∧
    (∀ u acc, s.arg.flag = false → s.inbound s.arg.b s.arg.c s.arg.d false = some (u, acc) → (∀ p ∈ s.pend, ∀ k ∈ p.keys, k ∉ acc.keys) →
      exec .inboundRead s = .next { s with
        out := s.out ++ [.hostData s.arg.a (if acc.g.kind == .peer then acc.keys.zipIdx.map (fun q => Config.freeByte (s.freeCtr + q.2)) else acc.keys.map (Memory.read s.mem))],
        freeCtr := if acc.g.kind == .peer then s.freeCtr + acc.keys.length else s.freeCtr })) ∧
  (∀ s, s.portUp.getD s.arg.c false = true → s.cxlOk s.arg.a s.arg.b = true → (∀ p ∈ s.pend, ∀ n ∈ linesOf p.keys, n ∉ linesOf (upFrom s.arg.a s.arg.b)) →
    (s.arg.flag = false → exec .cxlMemRequest s = .next { s with
      out := s.out ++ [.hostData s.arg.c ((upFrom s.arg.a s.arg.b).map (Memory.read s.mem))],
      hostLines := if SMap.get false s.bias (s.arg.a / 2 ^ 16) then (linesOf (upFrom s.arg.a s.arg.b)).foldl (fun (m : SMap Bool) k => SMap.put false m (s.arg.c * 2 ^ 45 + k) true) s.hostLines else s.hostLines }) ∧
    (s.arg.flag = true → ∃ t, exec .cxlMemRequest s = .next t ∧ t.mem = s.mem ∧
      t.pend.map (fun p => (p.keys, p.bytes, p.cxl)) = s.pend.map (fun p => (p.keys, p.bytes, p.cxl)) ++ [(upFrom s.arg.a s.arg.b, s.arg.bytes.take s.arg.b, some s.arg.c)])) ∧
  (∀ s p, s.portUp.getD s.arg.c false = true → s.cxlOk s.arg.a s.arg.b = true → p ∈ s.pend → (∃ n ∈ linesOf p.keys, n ∈ linesOf (upFrom s.arg.a s.arg.b)) → exec .cxlMemRequest s = .next s) ∧
  (∀ s, 0x800 ≤ s.arg.a / 2 ^ 40 % 2 ^ 12 → (∀ p ∈ s.pend, ∀ k ∈ p.keys, k / 128 ∉ linesOf (s.arg.a :: upFrom s.arg.a s.arg.bytes.length)) →
    let keys := upFrom s.arg.a s.arg.bytes.length
    let s1 := { s.hitFences keys with dir := dirWithout s.dir (fun _ => true) (fun _ => true) (linesOf (s.arg.a :: keys)).contains }
    exec .hostSnoop s = .next (if s.arg.bytes = [] then s1 else s1.expose 4 keys s.arg.bytes)) ∧
  (∀ (d : AMap DirEntry) line, (∀ p ∈ dirWithout d (fun _ => true) (fun _ => true) line, line p.1 = true → p.2.cores = [] ∧ p.2.scope ≠ none) ∧
    ∀ p ∈ d, line p.1 = false → p.2.idle = false → p ∈ dirWithout d (fun _ => true) (fun _ => true) line) ∧
  (∀ s, s.arg.a < 2 → exec .hostWarmRestart s = .next { s with
    pop := s.pop.set s.arg.a [], portUp := s.portUp.set s.arg.a false, detached := (s.detached ++ s.hostDescs.map (s.arg.a * 2 ^ 52 + ·)).eraseDups, hostLines := s.hostLines.filter (fun p => p.1 / 2 ^ 45 != s.arg.a),
    dir := dirWithout s.dir (fun _ => true) (fun _ => true) (hostLineOf s.arg.a) }) ∧
  (∀ s, s.arg.a < field s.capiod 29 2 → exec .hostLinkReturn s = .next { s with portUp := s.portUp.set s.arg.a true })

/-- R305, R326, R355 to R357: power-up from three accepted images with the boot image's bytes and registers in place, the stop in the recovery state, thermal limits within ZS_PKGBUDGET less 3,200, and the removal of power, which leaves the fuses and host memory. The quantum field of ZS_QSCHED (log 4), what the boot image loads (log 12), the ports that are up (log 43), power again from the recovery state (log 52) and the fuses (log 81) are the model's choices and readings. -/
def Obligations.PowerEvents : Prop :=
  (∀ s, s.power ≠ .up → exec .powerUp s = .next (match s.bringUpFails s.arg.caps.images with
    | none => { (s.tested s.arg.caps).booted s.arg.caps with power := .up, qsched := 0x801 }
    | some (kind, row) => { (if kind = 1 then { s.unpowered with portUp := [true, true] } else s.tested s.arg.caps) with power := .recovery kind row, bar0 := BitVec.ofNat 64 (kind + row * 2 ^ 8) })) ∧
  (∀ s, s.power = .up → exec .powerUp s = .next s) ∧
  (∀ s, ∀ i ∈ [Instr.powerDown, Instr.thermalShutdown], ∃ t, exec i s = .next t ∧ t.power = .off ∧ t.units = [] ∧ t.dies = State.reset.dies ∧ t.fuseKeys = s.fuseKeys ∧ t.fuseVersions = s.fuseVersions ∧
    ∀ a, Memory.read t.mem a = if 0x800 * 2 ^ 40 ≤ a ∧ a < 2 ^ 52 then Memory.read s.mem a else 0) ∧
  (∀ s d n, s.arg.cells = [(d, n)] → d < 4 → (s.die d).present = true → n ≤ (s.die d).budget → s.budgetSum d n ≤ 20800 → exec .thermalLimit s = .next (s.setBudget d n)) ∧
  (∀ s, ∃ t, exec .thermalLimit s = .next t ∧ t.mem = s.mem)

/-- R164, R166: an optional opcode, whatever its fields hold, faults with 0x0C in the whole active set, guard or not; where the partition does not emulate it, the record leaves the device as one of 0x15. -/
def Obligations.OptionalOpcodes : Prop :=
  (∀ (n : Nat) (f : LW) s (e : Env), e.ofLanes s → ∃ t, exec (.optionalOpcode n f) s = .next t ∧ e.closes t (e.c.act.map (fun l => (l, .fault (lf 0x0C e.words false))))) ∧
  (∀ (s : State) (part : Nat) (r : FaultRec), r.code = 0x0C → s.emulated part (r.addr % 2 ^ 32) = false → s.settleCode part r = { r with code := 0x15 }) ∧
  (∀ (s : State) (part : Nat) (r : FaultRec), r.code ≠ 0x0C ∨ s.emulated part (r.addr % 2 ^ 32) = true → s.settleCode part r = r)

/-- R155, R157, R160, R164, R167 to R169: the bytes of every well-formed instruction but the events, whatever follows them, decode to it. -/
def Obligations.DecodeOfEncode : Prop :=
  ∀ (i : Instr) (rest : List Byte), wellFormed i = true → shape i ≠ .event → decode (encodeBytes i ++ rest) = .ok (i, (encodeBytes i).length)

/-- R155, R157, R160, R164, R167 to R169: words that decode are those that the instruction encodes to: no bit of a word is dropped, and what decodes is well formed. -/
def Obligations.EncodeOfDecode : Prop :=
  ∀ (w0 w1 : Nat) (i : Instr), w0 < 2 ^ 32 → w1 < 2 ^ 32 → decodeWords w0 w1 = some i →
    wellFormed i = true ∧ encode i = some (w0, if wordCount w0 = 2 then some w1 else none)

/-- R155, R164, R169: words that the spec writes out decode to their instructions. -/
def Obligations.DecodeWords : Prop :=
  decodeWords 0x010420C0 0 = some (.iadd ⟨1, 2, 3, 0, false, false, none⟩) ∧
  decodeWords 0x05105181 0x00700000 = some (.imad ⟨4, 5, 6, 0, false, false, some ⟨0, 0, 7, false, 0, 0⟩⟩) ∧
  decodeWords 0x14042101 0x08020000 = some (.icmp ⟨1, 2, 4, 0, false, false, some ⟨0, 2, 0, false, 2, 0⟩⟩) ∧
  decodeWords 0x17040001 0x20013F80 = some (.moviH ⟨1, 0, 0, 0, false, false, some ⟨1, 0, 0, false, 1, 0x3F80⟩⟩) ∧
  decodeWords 0x18040081 0x00080000 = some (.movs ⟨1, 0, 2, 0, false, false, some ⟨0, 0, 0, true, 0, 0⟩⟩) ∧
  decodeWords 0x2C185001 0x0C000000 = some (.qpack ⟨6, 5, 0, 0, false, false, some ⟨0, 3, 0, false, 0, 0⟩⟩) ∧
  decodeWords 0 0 = some (.nop ⟨0, 0, 0, 0, false, false, none⟩) ∧ wordCount 0x010420C0 = 1 ∧ wordCount 0x05105181 = 2

/-- The invariant of the package: every step leaves memory in its canonical form, so that equal memories are equal data, and every unit under its own key. -/
def Obligations.SoundStep : Prop :=
  ∀ s t : State, s.sound → step s = .next t → t.sound

/-- The reset state meets the invariant of the package: nothing is listed in memory, and no unit exists (R357). That a step without power stops, and how a program comes to run, is log 12. -/
def Obligations.SoundReset : Prop :=
  State.reset.sound ∧ State.reset.power = .off ∧ State.reset.units = [] ∧ step State.reset = .fault .poweredDown

/-- R30, R32, R37, R39, R126, R155, R156: a group whose live lanes are all subscribed issues at its broadcast address the instruction whose words stand there: step is exec of that instruction, for every live lane, in a cycle of its own, and then the registers beyond the shares of their positions go to spill lines (R27, log 80), unless the group's position goes to another group (R301). The words are the towline's first, where it stands at the address; else one fetch brings them, from the die's instruction cache where it holds them, else from memory, little-endian. -/
def Obligations.StepRunsDecoded : Prop :=
  (∀ (s : State) (uid grp : Nat) (rest : List Move) (u : WorkUnit) (g : Group), s.power = .up → s.agenda = .issue uid grp none false :: rest →
    let s0 := State.passOver { s with agenda := rest }
    s0.unit? uid = some u → u.uid = uid → u.group grp = some g → s0.mayIssue u false = true → u.faulted grp = [] → g.liveLanes ≠ [] →
    (∀ l ∈ g.liveLanes, (g.lane l).st = .subscribed ∧ (g.lane l).pc = g.bcast) →
    let g1 := Group.buffered { g with vOld := g.v } g.bcast
    let s1 := s0.tick.setUnit (u.setGroup grp { g with vOld := g.v })
    ∀ (e : Env) (w : TowWord) (i : Instr),
      Env.nextWord ⟨s1, { uid := uid, grp := grp, by_ := .broadcast, act := g.liveLanes, pc := g.bcast, len := 4, w0 := 0, w1 := 0 }, u.setGroup grp { g with vOld := g.v }, g1⟩ = .ok e w →
      decodeWords w.w0 w.w1 = some i → (isGroupWord w.w0 = false → s0.outranked uid grp false = false) →
      ∃ t e1, step s = withinShares (exec i t) ∧ t.env? = some e1 ∧
        e1.c = { uid := uid, grp := grp, by_ := if isGroupWord w.w0 then .group else .broadcast, act := g.liveLanes, pc := g.bcast, len := 4 * wordCount w.w0, w0 := w.w0, w1 := w.w1 } ∧
        e1.g = g1 ∧ { e1.u with groups := u.groups } = u ∧
        { t with units := s0.units, dies := s0.dies, tlb := s0.tlb } = { s0 with cycle := s0.cycle + 1, issued := [], cur := some e1.c } ∧ ∀ k, k ≠ uid → t.unit? k = s0.unit? k) ∧
  (∀ (s : State), s.keyed → { s.passOver with units := s.units } = s ∧ ∀ k u, s.unit? k = some u → ∃ v, s.passOver.unit? k = some v ∧ { v with groups := u.groups } = u ∧
    v.groups.map (fun (g : Group) => { g with passed := 0 }) = u.groups.map (fun (g : Group) => { g with passed := 0 })) ∧
  (∀ (e : Env) w rest, e.g.tow = w :: rest → w.pc = e.g.bcast → e.nextWord = .ok e w) ∧
  (∀ (e : Env), (∀ w ∈ e.g.tow.head?, w.pc ≠ e.g.bcast) → e.nextWord = e.read e.g.bcast) ∧
  (∀ (e : Env) (off : Nat) (a0 : Acc), e.codeAcc off = .ok a0 →
    let d := e.s.die e.u.die
    let k0 := a0.keys.headD 0
    let free (a : Acc) : Prop := ∀ p ∈ e.s.pend, ∀ k ∈ p.keys, k ∉ a.keys
    let at_ (a : Acc) : Nat := leNat (a.keys.map (Memory.read e.s.mem)) % 2 ^ 32
    (∀ c, AMap.get? d.icache k0 = some c → wordCount c.w0.toNat = 1 → ∃ e1, e.read off = .ok e1 ⟨off, 4, c.w0.toNat, 0⟩) ∧
    (AMap.get? d.icache k0 = none → free a0 → wordCount (at_ a0) = 1 → ∃ e1, e.read off = .ok e1 ⟨off, 4, at_ a0, 0⟩) ∧
    (∀ a1, e.codeAcc (off + 4) = .ok a1 →
      (∀ c, AMap.get? d.icache k0 = some c → wordCount c.w0.toNat = 2 → c.key1 = a1.keys.headD 0 → ∃ e1, e.read off = .ok e1 ⟨off, 8, c.w0.toNat, c.w1.toNat⟩) ∧
      (AMap.get? d.icache k0 = none → free a0 → free a1 → wordCount (at_ a0) = 2 → ∃ e1, e.read off = .ok e1 ⟨off, 8, at_ a0, at_ a1⟩)))

/-- R30, R31, R37: what an issue move runs is an issue of lanes of the group, each once, or a group word of all live lanes; the words of the issue decode to the instruction that runs. Which private lanes an issue takes where their buffers differ is the model's reading (log 74). -/
def Obligations.IssueMoves : Prop :=
  ∀ (s s1 : State) (uid grp : Nat) (lane : Option Nat) (same : Bool) (i : Instr), s.keyed → s.issueMove uid grp lane same = .run s1 i →
    ∃ e, s1.env? = some e ∧ e.u.uid = e.c.uid ∧ e.c.uid = uid ∧ e.c.grp = grp ∧ decodeWords e.c.w0 e.c.w1 = some i ∧ e.c.len = 4 * wordCount e.c.w0 ∧
      (if 2 ^ 31 ≤ e.c.w0 then e.c.by_ = .group ∧ e.c.act = e.g.liveLanes else e.ofLanes s1)

/-- R44, R213 to R215: the value of a relaxed load that no store of its group supplied reaches its destination full: a load of 1, 2, 4 or 8 bytes its v register, pair or s register, the bytes of memory, least significant first, extended as the type says; a block load its registers, four bytes each. Every other register of the kind, and memory, are unchanged. -/
def Obligations.LoadDelivers : Prop :=
  ∀ (s : State) (u : WorkUnit) (g : Group) (pr : Producer) (p : Part),
    s.target = some (u, g) → u.uid = s.arg.a → g.inflight[s.arg.c]? = some pr → pr.parts = [p] → p.peer = none →
    (∀ i, p.fwd.getD i none = none) → s.blocked g s.arg.c pr = false → pr.commit = false → (p.repl = true ∨ s.homeDown p.recs = false) →
    let raw := leNat (p.keys.map (Memory.read s.mem))
    (∀ n sgn l d, pr.kind = .load n sgn 0 → n ∈ [1, 2, 4, 8] → p.keys.length = n → p.dest = .v l d → d < 64 → (n = 8 → d < 63) →
      ∃ t v h, exec .loadValueArrival s = .next t ∧ t.unit? s.arg.a = some v ∧ v.group s.arg.b = some h ∧
        h.getV l d = BitVec.ofInt 32 (if sgn then toInt (8 * n) raw else (raw : Int)) ∧ h.emptyV l d = false ∧
        (n = 8 → h.getV l (d + 1) = BitVec.ofNat 32 (raw / 2 ^ 32) ∧ h.emptyV l (d + 1) = false) ∧
        (∀ k r, r < 64 → ¬(k = l ∧ (r = d ∨ n = 8 ∧ r = d + 1)) → h.getV k r = g.getV k r) ∧ h.inflight = g.inflight.eraseIdx s.arg.c ∧ t.mem = s.mem) ∧
    (∀ n sgn d, pr.kind = .load n sgn 0 → n ∈ [1, 2, 4, 8] → p.keys.length = n → p.dest = .s d →
      ∃ t v h, exec .loadValueArrival s = .next t ∧ t.unit? s.arg.a = some v ∧ v.group s.arg.b = some h ∧
        h.getS d = BitVec.ofInt 64 (if sgn then toInt (8 * n) raw else (raw : Int)) ∧ h.emptyS d = false ∧
        (∀ k, k ≠ d → h.getS k = g.getS k) ∧ (∀ k r, h.getV k r = g.getV k r) ∧ h.inflight = g.inflight.eraseIdx s.arg.c ∧ t.mem = s.mem) ∧
    (∀ c l d, pr.kind = .block c 0 → p.keys.length = 4 * c → p.dest = .v l d → d + c ≤ 64 →
      ∃ t v h, exec .loadValueArrival s = .next t ∧ t.unit? s.arg.a = some v ∧ v.group s.arg.b = some h ∧
        (∀ i, i < c → h.getV l (d + i) = BitVec.ofNat 32 (raw / 2 ^ (32 * i)) ∧ h.emptyV l (d + i) = false) ∧
        (∀ k r, r < 64 → ¬(k = l ∧ d ≤ r ∧ r < d + c) → h.getV k r = g.getV k r) ∧ h.inflight = g.inflight.eraseIdx s.arg.c ∧ t.mem = s.mem)
end

