-- ==== Sys2Proof/Laws/Maps.lean ====
section
/-! SUPPORT. The two canonical maps: reading after writing, and the canonical form that every write keeps. -/

namespace Sys2Proof

variable {α : Type}

namespace AMap

@[simp] theorem get?_nil (n : Nat) : get? ([] : AMap α) n = none := rfl

theorem get?_insertAt_self (n : Nat) (v : α) (m : AMap α) (h : ∀ p ∈ m, p.1 ≠ n) : get? (insertAt n v m) n = some v := by
  induction m with
  | nil => simp [insertAt, get?]
  | cons p m ih =>
    obtain ⟨k, w⟩ := p
    have hk : k ≠ n := h (k, w) (by simp)
    simp only [insertAt]
    split
    · simp [get?]
    · simp [get?, hk, ih (fun q hq => h q (by simp [hq]))]

theorem get?_insertAt_ne (n k : Nat) (v : α) (m : AMap α) (h : k ≠ n) : get? (insertAt n v m) k = get? m k := by
  induction m with
  | nil => simp [insertAt, get?, Ne.symm h]
  | cons p m ih =>
    obtain ⟨j, w⟩ := p
    simp only [insertAt]
    split
    · simp [get?, Ne.symm h]
    · simp only [get?]; split <;> simp_all

theorem get?_erase_self (m : AMap α) (n : Nat) : get? (erase m n) n = none := by
  induction m with
  | nil => rfl
  | cons p m ih =>
    obtain ⟨k, w⟩ := p
    by_cases hk : k = n
    · subst hk; simpa [erase] using ih
    · simp only [erase, ne_eq, hk, not_false_eq_true, bne_iff_ne, List.filter_cons_of_pos, get?, if_false]; exact ih

theorem get?_erase_ne (m : AMap α) (n k : Nat) (h : k ≠ n) : get? (erase m n) k = get? m k := by
  induction m with
  | nil => rfl
  | cons p m ih =>
    obtain ⟨j, w⟩ := p
    by_cases hj : j = n
    · subst hj
      have : erase ((j, w) :: m) j = erase m j := by simp [erase]
      rw [this, ih]; simp [get?, Ne.symm h]
    · have : erase ((j, w) :: m) n = (j, w) :: erase m n := by simp [erase, hj]
      rw [this]; simp only [get?]; split <;> simp_all

theorem not_mem_erase (m : AMap α) (n : Nat) : ∀ p ∈ erase m n, p.1 ≠ n := by
  intro p hp; simp [erase] at hp; exact hp.2

@[simp] theorem get?_set_self (m : AMap α) (n : Nat) (v : α) : get? (set m n v) n = some v :=
  get?_insertAt_self n v _ (not_mem_erase m n)

theorem get?_set_ne (m : AMap α) (n k : Nat) (v : α) (h : k ≠ n) : get? (set m n v) k = get? m k := by
  rw [set, get?_insertAt_ne n k v _ h, get?_erase_ne m n k h]

theorem mem_insertAt {n : Nat} {v : α} {m : AMap α} {p : Nat × α} : p ∈ insertAt n v m ↔ p = (n, v) ∨ p ∈ m := by
  induction m with
  | nil => simp [insertAt]
  | cons q m ih =>
    obtain ⟨k, w⟩ := q
    simp only [insertAt]
    split
    · simp
    · simp only [List.mem_cons, ih]; tauto

theorem mem_set {m : AMap α} {n : Nat} {v : α} {p : Nat × α} (h : p ∈ set m n v) : p = (n, v) ∨ p ∈ m := by
  rcases mem_insertAt.mp h with h | h
  · exact .inl h
  · exact .inr (List.mem_of_mem_filter h)

theorem get?_mem {m : AMap α} {n : Nat} {v : α} (h : get? m n = some v) : (n, v) ∈ m := by
  induction m with
  | nil => simp at h
  | cons p m ih =>
    obtain ⟨k, w⟩ := p
    simp only [get?] at h
    split at h
    · simp_all
    · simp [ih h]

/-- Rising keys, as a pairwise fact. -/
theorem sorted_iff (m : AMap α) : sorted m = true ↔ m.Pairwise (fun p q => p.1 < q.1) := by
  induction m with
  | nil => simp [sorted]
  | cons p m ih =>
    cases m with
    | nil => simp [sorted]
    | cons q m =>
      simp only [sorted, Bool.and_eq_true, decide_eq_true_eq, ih, List.pairwise_cons]
      constructor
      · rintro ⟨h, h1, h2⟩
        refine ⟨?_, h1, h2⟩
        intro a ha
        rcases List.mem_cons.mp ha with rfl | ha
        · exact h
        · exact h.trans (h1 a ha)
      · rintro ⟨h, h1, h2⟩
        exact ⟨h q (by simp), h1, h2⟩

theorem sorted_filter {m : AMap α} (f : Nat × α → Bool) (h : sorted m = true) : sorted (m.filter f) = true := by
  rw [sorted_iff] at *; exact h.filter f

theorem sorted_insertAt {n : Nat} {v : α} {m : AMap α} (h : sorted m = true) (hn : ∀ p ∈ m, p.1 ≠ n) : sorted (insertAt n v m) = true := by
  rw [sorted_iff] at *
  induction m with
  | nil => simp [insertAt]
  | cons p m ih =>
    obtain ⟨k, w⟩ := p
    rw [List.pairwise_cons] at h
    simp only [insertAt]
    split
    · rename_i hk
      refine List.pairwise_cons.mpr ⟨?_, List.pairwise_cons.mpr h⟩
      intro a ha
      rcases List.mem_cons.mp ha with rfl | ha
      · exact hk
      · exact hk.trans (h.1 a ha)
    · rename_i hk
      refine List.pairwise_cons.mpr ⟨?_, ih h.2 (fun q hq => hn q (by simp [hq]))⟩
      intro a ha
      rcases mem_insertAt.mp ha with rfl | ha
      · exact lt_of_le_of_ne (not_lt.mp hk) (hn (k, w) (by simp))
      · exact h.1 a ha

theorem sorted_set {m : AMap α} {n : Nat} {v : α} (h : sorted m = true) : sorted (set m n v) = true :=
  sorted_insertAt (sorted_filter _ h) (not_mem_erase m n)

theorem sorted_erase {m : AMap α} {n : Nat} (h : sorted m = true) : sorted (erase m n) = true := sorted_filter _ h

end AMap

namespace SMap

variable [DecidableEq α]

omit [DecidableEq α] in
@[simp] theorem get_nil (d : α) (n : Nat) : get d ([] : SMap α) n = d := rfl

/-- A key reads what was last written to it. -/
@[simp] theorem get_put_self (d : α) (m : SMap α) (n : Nat) (v : α) : get d (put d m n v) n = v := by
  unfold get put
  split
  · simp [AMap.get?_erase_self, *]
  · simp

/-- Every other key reads as before. -/
theorem get_put_ne (d : α) (m : SMap α) (n k : Nat) (v : α) (h : k ≠ n) : get d (put d m n v) k = get d m k := by
  unfold get put
  split
  · rw [AMap.get?_erase_ne m n k h]
  · rw [AMap.get?_set_ne m n k v h]

theorem get_put (d : α) (m : SMap α) (n k : Nat) (v : α) : get d (put d m n v) k = if k = n then v else get d m k := by
  split
  · subst_vars; simp
  · exact get_put_ne d m n k v ‹_›

theorem wf_iff (d : α) (m : SMap α) : wf d m = true ↔ AMap.sorted m = true ∧ ∀ p ∈ m, p.2 ≠ d := by
  simp [wf]

theorem wf_nil (d : α) : wf d ([] : SMap α) = true := rfl

/-- A write keeps the canonical form. -/
theorem wf_put {d : α} {m : SMap α} {n : Nat} {v : α} (h : wf d m = true) : wf d (put d m n v) = true := by
  rw [wf_iff] at *
  unfold put
  split
  · exact ⟨AMap.sorted_erase h.1, fun p hp => h.2 p (List.mem_of_mem_filter hp)⟩
  · rename_i hv
    refine ⟨AMap.sorted_set h.1, fun p hp => ?_⟩
    rcases AMap.mem_set hp with rfl | hp
    · exact hv
    · exact h.2 p hp

/-- Dropping entries keeps the canonical form. -/
theorem wf_filter {d : α} {m : SMap α} (f : Nat × α → Bool) (h : wf d m = true) : wf d (m.filter f) = true := by
  rw [wf_iff] at *
  exact ⟨AMap.sorted_filter f h.1, fun p hp => h.2 p (List.mem_of_mem_filter hp)⟩

omit [DecidableEq α] in
theorem get_filter (d : α) (m : SMap α) (f : Nat → Bool) (k : Nat) : get d (m.filter (fun p => f p.1)) k = if f k then get d m k else d := by
  unfold get
  induction m with
  | nil => simp
  | cons p m ih =>
    obtain ⟨j, w⟩ := p
    by_cases hj : f j
    · simp only [List.filter_cons, hj, if_true, AMap.get?]
      split
      · subst_vars; simp [hj]
      · exact ih
    · simp only [List.filter_cons, hj]
      by_cases hk : j = k
      · subst hk; simp only [hj]
        simp only [Bool.false_eq_true, if_false] at ih ⊢
        simpa [hj] using ih
      · simp only [AMap.get?, hk, if_false]; exact ih

end SMap

end Sys2Proof
end

