-- ==== Sys2Proof/Laws/State.lean ====
section
/-! SUPPORT. What each update of the state, of a unit and of a group leaves: one lemma per field. -/

namespace Sys2Proof.Machine

@[simp] theorem State.setUnit_agenda (x : State) (u : WorkUnit) : (x.setUnit u).agenda = x.agenda := rfl
@[simp] theorem State.setUnit_cur (x : State) (u : WorkUnit) : (x.setUnit u).cur = x.cur := rfl
@[simp] theorem State.setUnit_arg (x : State) (u : WorkUnit) : (x.setUnit u).arg = x.arg := rfl
@[simp] theorem State.setUnit_cycle (x : State) (u : WorkUnit) : (x.setUnit u).cycle = x.cycle := rfl
@[simp] theorem State.setUnit_freeCtr (x : State) (u : WorkUnit) : (x.setUnit u).freeCtr = x.freeCtr := rfl
@[simp] theorem State.setUnit_power (x : State) (u : WorkUnit) : (x.setUnit u).power = x.power := rfl
@[simp] theorem State.setUnit_bar0 (x : State) (u : WorkUnit) : (x.setUnit u).bar0 = x.bar0 := rfl
@[simp] theorem State.setUnit_fuseVersions (x : State) (u : WorkUnit) : (x.setUnit u).fuseVersions = x.fuseVersions := rfl
@[simp] theorem State.setUnit_fuseKeys (x : State) (u : WorkUnit) : (x.setUnit u).fuseKeys = x.fuseKeys := rfl
@[simp] theorem State.setUnit_mbxtab (x : State) (u : WorkUnit) : (x.setUnit u).mbxtab = x.mbxtab := rfl
@[simp] theorem State.setUnit_lvltab (x : State) (u : WorkUnit) : (x.setUnit u).lvltab = x.lvltab := rfl
@[simp] theorem State.setUnit_qsched (x : State) (u : WorkUnit) : (x.setUnit u).qsched = x.qsched := rfl
@[simp] theorem State.setUnit_qlist (x : State) (u : WorkUnit) : (x.setUnit u).qlist = x.qlist := rfl
@[simp] theorem State.setUnit_jobexp (x : State) (u : WorkUnit) : (x.setUnit u).jobexp = x.jobexp := rfl
@[simp] theorem State.setUnit_partexp (x : State) (u : WorkUnit) : (x.setUnit u).partexp = x.partexp := rfl
@[simp] theorem State.setUnit_ctxsel (x : State) (u : WorkUnit) : (x.setUnit u).ctxsel = x.ctxsel := rfl
@[simp] theorem State.setUnit_segbase (x : State) (u : WorkUnit) : (x.setUnit u).segbase = x.segbase := rfl
@[simp] theorem State.setUnit_bindtab (x : State) (u : WorkUnit) : (x.setUnit u).bindtab = x.bindtab := rfl
@[simp] theorem State.setUnit_namerules (x : State) (u : WorkUnit) : (x.setUnit u).namerules = x.namerules := rfl
@[simp] theorem State.setUnit_ctxpart (x : State) (u : WorkUnit) : (x.setUnit u).ctxpart = x.ctxpart := rfl
@[simp] theorem State.setUnit_parttab (x : State) (u : WorkUnit) : (x.setUnit u).parttab = x.parttab := rfl
@[simp] theorem State.setUnit_flip (x : State) (u : WorkUnit) : (x.setUnit u).flip = x.flip := rfl
@[simp] theorem State.setUnit_capiod (x : State) (u : WorkUnit) : (x.setUnit u).capiod = x.capiod := rfl
@[simp] theorem State.setUnit_svctab (x : State) (u : WorkUnit) : (x.setUnit u).svctab = x.svctab := rfl
@[simp] theorem State.setUnit_svcmbx (x : State) (u : WorkUnit) : (x.setUnit u).svcmbx = x.svcmbx := rfl
@[simp] theorem State.setUnit_savepool (x : State) (u : WorkUnit) : (x.setUnit u).savepool = x.savepool := rfl
@[simp] theorem State.setUnit_hostexp (x : State) (u : WorkUnit) : (x.setUnit u).hostexp = x.hostexp := rfl
@[simp] theorem State.setUnit_domexp (x : State) (u : WorkUnit) : (x.setUnit u).domexp = x.domexp := rfl
@[simp] theorem State.setUnit_domid (x : State) (u : WorkUnit) : (x.setUnit u).domid = x.domid := rfl
@[simp] theorem State.setUnit_dxtab (x : State) (u : WorkUnit) : (x.setUnit u).dxtab = x.dxtab := rfl
@[simp] theorem State.setUnit_routetab (x : State) (u : WorkUnit) : (x.setUnit u).routetab = x.routetab := rfl
@[simp] theorem State.setUnit_inwin (x : State) (u : WorkUnit) : (x.setUnit u).inwin = x.inwin := rfl
@[simp] theorem State.setUnit_dies (x : State) (u : WorkUnit) : (x.setUnit u).dies = x.dies := rfl
@[simp] theorem State.setUnit_mem (x : State) (u : WorkUnit) : (x.setUnit u).mem = x.mem := rfl
@[simp] theorem State.setUnit_dir (x : State) (u : WorkUnit) : (x.setUnit u).dir = x.dir := rfl
@[simp] theorem State.setUnit_pend (x : State) (u : WorkUnit) : (x.setUnit u).pend = x.pend := rfl
@[simp] theorem State.setUnit_nextSeq (x : State) (u : WorkUnit) : (x.setUnit u).nextSeq = x.nextSeq := rfl
@[simp] theorem State.setUnit_tlb (x : State) (u : WorkUnit) : (x.setUnit u).tlb = x.tlb := rfl
@[simp] theorem State.setUnit_own (x : State) (u : WorkUnit) : (x.setUnit u).own = x.own := rfl
@[simp] theorem State.setUnit_bias (x : State) (u : WorkUnit) : (x.setUnit u).bias = x.bias := rfl
@[simp] theorem State.setUnit_hostLines (x : State) (u : WorkUnit) : (x.setUnit u).hostLines = x.hostLines := rfl
@[simp] theorem State.setUnit_cores (x : State) (u : WorkUnit) : (x.setUnit u).cores = x.cores := rfl
@[simp] theorem State.setUnit_engines (x : State) (u : WorkUnit) : (x.setUnit u).engines = x.engines := rfl
@[simp] theorem State.setUnit_mailboxes (x : State) (u : WorkUnit) : (x.setUnit u).mailboxes = x.mailboxes := rfl
@[simp] theorem State.setUnit_launches (x : State) (u : WorkUnit) : (x.setUnit u).launches = x.launches := rfl
@[simp] theorem State.setUnit_nextUid (x : State) (u : WorkUnit) : (x.setUnit u).nextUid = x.nextUid := rfl
@[simp] theorem State.setUnit_qslots (x : State) (u : WorkUnit) : (x.setUnit u).qslots = x.qslots := rfl
@[simp] theorem State.setUnit_binders (x : State) (u : WorkUnit) : (x.setUnit u).binders = x.binders := rfl
@[simp] theorem State.setUnit_imgExports (x : State) (u : WorkUnit) : (x.setUnit u).imgExports = x.imgExports := rfl
@[simp] theorem State.setUnit_revokedStops (x : State) (u : WorkUnit) : (x.setUnit u).revokedStops = x.revokedStops := rfl
@[simp] theorem State.setUnit_ferries (x : State) (u : WorkUnit) : (x.setUnit u).ferries = x.ferries := rfl
@[simp] theorem State.setUnit_chunks (x : State) (u : WorkUnit) : (x.setUnit u).chunks = x.chunks := rfl
@[simp] theorem State.setUnit_posted (x : State) (u : WorkUnit) : (x.setUnit u).posted = x.posted := rfl
@[simp] theorem State.setUnit_absentDevs (x : State) (u : WorkUnit) : (x.setUnit u).absentDevs = x.absentDevs := rfl
@[simp] theorem State.setUnit_pop (x : State) (u : WorkUnit) : (x.setUnit u).pop = x.pop := rfl
@[simp] theorem State.setUnit_popNext (x : State) (u : WorkUnit) : (x.setUnit u).popNext = x.popNext := rfl
@[simp] theorem State.setUnit_portUp (x : State) (u : WorkUnit) : (x.setUnit u).portUp = x.portUp := rfl
@[simp] theorem State.setUnit_detached (x : State) (u : WorkUnit) : (x.setUnit u).detached = x.detached := rfl
@[simp] theorem State.setUnit_slots (x : State) (u : WorkUnit) : (x.setUnit u).slots = x.slots := rfl
@[simp] theorem State.setUnit_out (x : State) (u : WorkUnit) : (x.setUnit u).out = x.out := rfl
@[simp] theorem State.setUnit_issued (x : State) (u : WorkUnit) : (x.setUnit u).issued = x.issued := rfl
@[simp] theorem State.setUnit_collPeers (x : State) (u : WorkUnit) : (x.setUnit u).collPeers = x.collPeers := rfl
@[simp] theorem State.setUnit_halted (x : State) (u : WorkUnit) : (x.setUnit u).halted = x.halted := rfl

@[simp] theorem State.setDie_agenda (x : State) (d : Nat) (y : Die) : (x.setDie d y).agenda = x.agenda := rfl
@[simp] theorem State.setDie_cur (x : State) (d : Nat) (y : Die) : (x.setDie d y).cur = x.cur := rfl
@[simp] theorem State.setDie_arg (x : State) (d : Nat) (y : Die) : (x.setDie d y).arg = x.arg := rfl
@[simp] theorem State.setDie_cycle (x : State) (d : Nat) (y : Die) : (x.setDie d y).cycle = x.cycle := rfl
@[simp] theorem State.setDie_freeCtr (x : State) (d : Nat) (y : Die) : (x.setDie d y).freeCtr = x.freeCtr := rfl
@[simp] theorem State.setDie_power (x : State) (d : Nat) (y : Die) : (x.setDie d y).power = x.power := rfl
@[simp] theorem State.setDie_bar0 (x : State) (d : Nat) (y : Die) : (x.setDie d y).bar0 = x.bar0 := rfl
@[simp] theorem State.setDie_fuseVersions (x : State) (d : Nat) (y : Die) : (x.setDie d y).fuseVersions = x.fuseVersions := rfl
@[simp] theorem State.setDie_fuseKeys (x : State) (d : Nat) (y : Die) : (x.setDie d y).fuseKeys = x.fuseKeys := rfl
@[simp] theorem State.setDie_mbxtab (x : State) (d : Nat) (y : Die) : (x.setDie d y).mbxtab = x.mbxtab := rfl
@[simp] theorem State.setDie_lvltab (x : State) (d : Nat) (y : Die) : (x.setDie d y).lvltab = x.lvltab := rfl
@[simp] theorem State.setDie_qsched (x : State) (d : Nat) (y : Die) : (x.setDie d y).qsched = x.qsched := rfl
@[simp] theorem State.setDie_qlist (x : State) (d : Nat) (y : Die) : (x.setDie d y).qlist = x.qlist := rfl
@[simp] theorem State.setDie_jobexp (x : State) (d : Nat) (y : Die) : (x.setDie d y).jobexp = x.jobexp := rfl
@[simp] theorem State.setDie_partexp (x : State) (d : Nat) (y : Die) : (x.setDie d y).partexp = x.partexp := rfl
@[simp] theorem State.setDie_ctxsel (x : State) (d : Nat) (y : Die) : (x.setDie d y).ctxsel = x.ctxsel := rfl
@[simp] theorem State.setDie_segbase (x : State) (d : Nat) (y : Die) : (x.setDie d y).segbase = x.segbase := rfl
@[simp] theorem State.setDie_bindtab (x : State) (d : Nat) (y : Die) : (x.setDie d y).bindtab = x.bindtab := rfl
@[simp] theorem State.setDie_namerules (x : State) (d : Nat) (y : Die) : (x.setDie d y).namerules = x.namerules := rfl
@[simp] theorem State.setDie_ctxpart (x : State) (d : Nat) (y : Die) : (x.setDie d y).ctxpart = x.ctxpart := rfl
@[simp] theorem State.setDie_parttab (x : State) (d : Nat) (y : Die) : (x.setDie d y).parttab = x.parttab := rfl
@[simp] theorem State.setDie_flip (x : State) (d : Nat) (y : Die) : (x.setDie d y).flip = x.flip := rfl
@[simp] theorem State.setDie_capiod (x : State) (d : Nat) (y : Die) : (x.setDie d y).capiod = x.capiod := rfl
@[simp] theorem State.setDie_svctab (x : State) (d : Nat) (y : Die) : (x.setDie d y).svctab = x.svctab := rfl
@[simp] theorem State.setDie_svcmbx (x : State) (d : Nat) (y : Die) : (x.setDie d y).svcmbx = x.svcmbx := rfl
@[simp] theorem State.setDie_savepool (x : State) (d : Nat) (y : Die) : (x.setDie d y).savepool = x.savepool := rfl
@[simp] theorem State.setDie_hostexp (x : State) (d : Nat) (y : Die) : (x.setDie d y).hostexp = x.hostexp := rfl
@[simp] theorem State.setDie_domexp (x : State) (d : Nat) (y : Die) : (x.setDie d y).domexp = x.domexp := rfl
@[simp] theorem State.setDie_domid (x : State) (d : Nat) (y : Die) : (x.setDie d y).domid = x.domid := rfl
@[simp] theorem State.setDie_dxtab (x : State) (d : Nat) (y : Die) : (x.setDie d y).dxtab = x.dxtab := rfl
@[simp] theorem State.setDie_routetab (x : State) (d : Nat) (y : Die) : (x.setDie d y).routetab = x.routetab := rfl
@[simp] theorem State.setDie_inwin (x : State) (d : Nat) (y : Die) : (x.setDie d y).inwin = x.inwin := rfl
@[simp] theorem State.setDie_mem (x : State) (d : Nat) (y : Die) : (x.setDie d y).mem = x.mem := rfl
@[simp] theorem State.setDie_dir (x : State) (d : Nat) (y : Die) : (x.setDie d y).dir = x.dir := rfl
@[simp] theorem State.setDie_pend (x : State) (d : Nat) (y : Die) : (x.setDie d y).pend = x.pend := rfl
@[simp] theorem State.setDie_nextSeq (x : State) (d : Nat) (y : Die) : (x.setDie d y).nextSeq = x.nextSeq := rfl
@[simp] theorem State.setDie_tlb (x : State) (d : Nat) (y : Die) : (x.setDie d y).tlb = x.tlb := rfl
@[simp] theorem State.setDie_own (x : State) (d : Nat) (y : Die) : (x.setDie d y).own = x.own := rfl
@[simp] theorem State.setDie_bias (x : State) (d : Nat) (y : Die) : (x.setDie d y).bias = x.bias := rfl
@[simp] theorem State.setDie_hostLines (x : State) (d : Nat) (y : Die) : (x.setDie d y).hostLines = x.hostLines := rfl
@[simp] theorem State.setDie_cores (x : State) (d : Nat) (y : Die) : (x.setDie d y).cores = x.cores := rfl
@[simp] theorem State.setDie_engines (x : State) (d : Nat) (y : Die) : (x.setDie d y).engines = x.engines := rfl
@[simp] theorem State.setDie_mailboxes (x : State) (d : Nat) (y : Die) : (x.setDie d y).mailboxes = x.mailboxes := rfl
@[simp] theorem State.setDie_launches (x : State) (d : Nat) (y : Die) : (x.setDie d y).launches = x.launches := rfl
@[simp] theorem State.setDie_units (x : State) (d : Nat) (y : Die) : (x.setDie d y).units = x.units := rfl
@[simp] theorem State.setDie_nextUid (x : State) (d : Nat) (y : Die) : (x.setDie d y).nextUid = x.nextUid := rfl
@[simp] theorem State.setDie_qslots (x : State) (d : Nat) (y : Die) : (x.setDie d y).qslots = x.qslots := rfl
@[simp] theorem State.setDie_binders (x : State) (d : Nat) (y : Die) : (x.setDie d y).binders = x.binders := rfl
@[simp] theorem State.setDie_imgExports (x : State) (d : Nat) (y : Die) : (x.setDie d y).imgExports = x.imgExports := rfl
@[simp] theorem State.setDie_revokedStops (x : State) (d : Nat) (y : Die) : (x.setDie d y).revokedStops = x.revokedStops := rfl
@[simp] theorem State.setDie_ferries (x : State) (d : Nat) (y : Die) : (x.setDie d y).ferries = x.ferries := rfl
@[simp] theorem State.setDie_chunks (x : State) (d : Nat) (y : Die) : (x.setDie d y).chunks = x.chunks := rfl
@[simp] theorem State.setDie_posted (x : State) (d : Nat) (y : Die) : (x.setDie d y).posted = x.posted := rfl
@[simp] theorem State.setDie_absentDevs (x : State) (d : Nat) (y : Die) : (x.setDie d y).absentDevs = x.absentDevs := rfl
@[simp] theorem State.setDie_pop (x : State) (d : Nat) (y : Die) : (x.setDie d y).pop = x.pop := rfl
@[simp] theorem State.setDie_popNext (x : State) (d : Nat) (y : Die) : (x.setDie d y).popNext = x.popNext := rfl
@[simp] theorem State.setDie_portUp (x : State) (d : Nat) (y : Die) : (x.setDie d y).portUp = x.portUp := rfl
@[simp] theorem State.setDie_detached (x : State) (d : Nat) (y : Die) : (x.setDie d y).detached = x.detached := rfl
@[simp] theorem State.setDie_slots (x : State) (d : Nat) (y : Die) : (x.setDie d y).slots = x.slots := rfl
@[simp] theorem State.setDie_out (x : State) (d : Nat) (y : Die) : (x.setDie d y).out = x.out := rfl
@[simp] theorem State.setDie_issued (x : State) (d : Nat) (y : Die) : (x.setDie d y).issued = x.issued := rfl
@[simp] theorem State.setDie_collPeers (x : State) (d : Nat) (y : Die) : (x.setDie d y).collPeers = x.collPeers := rfl
@[simp] theorem State.setDie_halted (x : State) (d : Nat) (y : Die) : (x.setDie d y).halted = x.halted := rfl

@[simp] theorem State.setMbx_agenda (x : State) (m : Nat) (y : Mailbox) : (x.setMbx m y).agenda = x.agenda := rfl
@[simp] theorem State.setMbx_cur (x : State) (m : Nat) (y : Mailbox) : (x.setMbx m y).cur = x.cur := rfl
@[simp] theorem State.setMbx_arg (x : State) (m : Nat) (y : Mailbox) : (x.setMbx m y).arg = x.arg := rfl
@[simp] theorem State.setMbx_cycle (x : State) (m : Nat) (y : Mailbox) : (x.setMbx m y).cycle = x.cycle := rfl
@[simp] theorem State.setMbx_freeCtr (x : State) (m : Nat) (y : Mailbox) : (x.setMbx m y).freeCtr = x.freeCtr := rfl
@[simp] theorem State.setMbx_power (x : State) (m : Nat) (y : Mailbox) : (x.setMbx m y).power = x.power := rfl
@[simp] theorem State.setMbx_bar0 (x : State) (m : Nat) (y : Mailbox) : (x.setMbx m y).bar0 = x.bar0 := rfl
@[simp] theorem State.setMbx_fuseVersions (x : State) (m : Nat) (y : Mailbox) : (x.setMbx m y).fuseVersions = x.fuseVersions := rfl
@[simp] theorem State.setMbx_fuseKeys (x : State) (m : Nat) (y : Mailbox) : (x.setMbx m y).fuseKeys = x.fuseKeys := rfl
@[simp] theorem State.setMbx_mbxtab (x : State) (m : Nat) (y : Mailbox) : (x.setMbx m y).mbxtab = x.mbxtab := rfl
@[simp] theorem State.setMbx_lvltab (x : State) (m : Nat) (y : Mailbox) : (x.setMbx m y).lvltab = x.lvltab := rfl
@[simp] theorem State.setMbx_qsched (x : State) (m : Nat) (y : Mailbox) : (x.setMbx m y).qsched = x.qsched := rfl
@[simp] theorem State.setMbx_qlist (x : State) (m : Nat) (y : Mailbox) : (x.setMbx m y).qlist = x.qlist := rfl
@[simp] theorem State.setMbx_jobexp (x : State) (m : Nat) (y : Mailbox) : (x.setMbx m y).jobexp = x.jobexp := rfl
@[simp] theorem State.setMbx_partexp (x : State) (m : Nat) (y : Mailbox) : (x.setMbx m y).partexp = x.partexp := rfl
@[simp] theorem State.setMbx_ctxsel (x : State) (m : Nat) (y : Mailbox) : (x.setMbx m y).ctxsel = x.ctxsel := rfl
@[simp] theorem State.setMbx_segbase (x : State) (m : Nat) (y : Mailbox) : (x.setMbx m y).segbase = x.segbase := rfl
@[simp] theorem State.setMbx_bindtab (x : State) (m : Nat) (y : Mailbox) : (x.setMbx m y).bindtab = x.bindtab := rfl
@[simp] theorem State.setMbx_namerules (x : State) (m : Nat) (y : Mailbox) : (x.setMbx m y).namerules = x.namerules := rfl
@[simp] theorem State.setMbx_ctxpart (x : State) (m : Nat) (y : Mailbox) : (x.setMbx m y).ctxpart = x.ctxpart := rfl
@[simp] theorem State.setMbx_parttab (x : State) (m : Nat) (y : Mailbox) : (x.setMbx m y).parttab = x.parttab := rfl
@[simp] theorem State.setMbx_flip (x : State) (m : Nat) (y : Mailbox) : (x.setMbx m y).flip = x.flip := rfl
@[simp] theorem State.setMbx_capiod (x : State) (m : Nat) (y : Mailbox) : (x.setMbx m y).capiod = x.capiod := rfl
@[simp] theorem State.setMbx_svctab (x : State) (m : Nat) (y : Mailbox) : (x.setMbx m y).svctab = x.svctab := rfl
@[simp] theorem State.setMbx_svcmbx (x : State) (m : Nat) (y : Mailbox) : (x.setMbx m y).svcmbx = x.svcmbx := rfl
@[simp] theorem State.setMbx_savepool (x : State) (m : Nat) (y : Mailbox) : (x.setMbx m y).savepool = x.savepool := rfl
@[simp] theorem State.setMbx_hostexp (x : State) (m : Nat) (y : Mailbox) : (x.setMbx m y).hostexp = x.hostexp := rfl
@[simp] theorem State.setMbx_domexp (x : State) (m : Nat) (y : Mailbox) : (x.setMbx m y).domexp = x.domexp := rfl
@[simp] theorem State.setMbx_domid (x : State) (m : Nat) (y : Mailbox) : (x.setMbx m y).domid = x.domid := rfl
@[simp] theorem State.setMbx_dxtab (x : State) (m : Nat) (y : Mailbox) : (x.setMbx m y).dxtab = x.dxtab := rfl
@[simp] theorem State.setMbx_routetab (x : State) (m : Nat) (y : Mailbox) : (x.setMbx m y).routetab = x.routetab := rfl
@[simp] theorem State.setMbx_inwin (x : State) (m : Nat) (y : Mailbox) : (x.setMbx m y).inwin = x.inwin := rfl
@[simp] theorem State.setMbx_dies (x : State) (m : Nat) (y : Mailbox) : (x.setMbx m y).dies = x.dies := rfl
@[simp] theorem State.setMbx_mem (x : State) (m : Nat) (y : Mailbox) : (x.setMbx m y).mem = x.mem := rfl
@[simp] theorem State.setMbx_dir (x : State) (m : Nat) (y : Mailbox) : (x.setMbx m y).dir = x.dir := rfl
@[simp] theorem State.setMbx_pend (x : State) (m : Nat) (y : Mailbox) : (x.setMbx m y).pend = x.pend := rfl
@[simp] theorem State.setMbx_nextSeq (x : State) (m : Nat) (y : Mailbox) : (x.setMbx m y).nextSeq = x.nextSeq := rfl
@[simp] theorem State.setMbx_tlb (x : State) (m : Nat) (y : Mailbox) : (x.setMbx m y).tlb = x.tlb := rfl
@[simp] theorem State.setMbx_own (x : State) (m : Nat) (y : Mailbox) : (x.setMbx m y).own = x.own := rfl
@[simp] theorem State.setMbx_bias (x : State) (m : Nat) (y : Mailbox) : (x.setMbx m y).bias = x.bias := rfl
@[simp] theorem State.setMbx_hostLines (x : State) (m : Nat) (y : Mailbox) : (x.setMbx m y).hostLines = x.hostLines := rfl
@[simp] theorem State.setMbx_cores (x : State) (m : Nat) (y : Mailbox) : (x.setMbx m y).cores = x.cores := rfl
@[simp] theorem State.setMbx_engines (x : State) (m : Nat) (y : Mailbox) : (x.setMbx m y).engines = x.engines := rfl
@[simp] theorem State.setMbx_launches (x : State) (m : Nat) (y : Mailbox) : (x.setMbx m y).launches = x.launches := rfl
@[simp] theorem State.setMbx_units (x : State) (m : Nat) (y : Mailbox) : (x.setMbx m y).units = x.units := rfl
@[simp] theorem State.setMbx_nextUid (x : State) (m : Nat) (y : Mailbox) : (x.setMbx m y).nextUid = x.nextUid := rfl
@[simp] theorem State.setMbx_qslots (x : State) (m : Nat) (y : Mailbox) : (x.setMbx m y).qslots = x.qslots := rfl
@[simp] theorem State.setMbx_binders (x : State) (m : Nat) (y : Mailbox) : (x.setMbx m y).binders = x.binders := rfl
@[simp] theorem State.setMbx_imgExports (x : State) (m : Nat) (y : Mailbox) : (x.setMbx m y).imgExports = x.imgExports := rfl
@[simp] theorem State.setMbx_revokedStops (x : State) (m : Nat) (y : Mailbox) : (x.setMbx m y).revokedStops = x.revokedStops := rfl
@[simp] theorem State.setMbx_ferries (x : State) (m : Nat) (y : Mailbox) : (x.setMbx m y).ferries = x.ferries := rfl
@[simp] theorem State.setMbx_chunks (x : State) (m : Nat) (y : Mailbox) : (x.setMbx m y).chunks = x.chunks := rfl
@[simp] theorem State.setMbx_posted (x : State) (m : Nat) (y : Mailbox) : (x.setMbx m y).posted = x.posted := rfl
@[simp] theorem State.setMbx_absentDevs (x : State) (m : Nat) (y : Mailbox) : (x.setMbx m y).absentDevs = x.absentDevs := rfl
@[simp] theorem State.setMbx_pop (x : State) (m : Nat) (y : Mailbox) : (x.setMbx m y).pop = x.pop := rfl
@[simp] theorem State.setMbx_popNext (x : State) (m : Nat) (y : Mailbox) : (x.setMbx m y).popNext = x.popNext := rfl
@[simp] theorem State.setMbx_portUp (x : State) (m : Nat) (y : Mailbox) : (x.setMbx m y).portUp = x.portUp := rfl
@[simp] theorem State.setMbx_detached (x : State) (m : Nat) (y : Mailbox) : (x.setMbx m y).detached = x.detached := rfl
@[simp] theorem State.setMbx_slots (x : State) (m : Nat) (y : Mailbox) : (x.setMbx m y).slots = x.slots := rfl
@[simp] theorem State.setMbx_out (x : State) (m : Nat) (y : Mailbox) : (x.setMbx m y).out = x.out := rfl
@[simp] theorem State.setMbx_issued (x : State) (m : Nat) (y : Mailbox) : (x.setMbx m y).issued = x.issued := rfl
@[simp] theorem State.setMbx_collPeers (x : State) (m : Nat) (y : Mailbox) : (x.setMbx m y).collPeers = x.collPeers := rfl
@[simp] theorem State.setMbx_halted (x : State) (m : Nat) (y : Mailbox) : (x.setMbx m y).halted = x.halted := rfl

@[simp] theorem State.setEngine_agenda (x : State) (k : EngId) (y : Engine) : (x.setEngine k y).agenda = x.agenda := rfl
@[simp] theorem State.setEngine_cur (x : State) (k : EngId) (y : Engine) : (x.setEngine k y).cur = x.cur := rfl
@[simp] theorem State.setEngine_arg (x : State) (k : EngId) (y : Engine) : (x.setEngine k y).arg = x.arg := rfl
@[simp] theorem State.setEngine_cycle (x : State) (k : EngId) (y : Engine) : (x.setEngine k y).cycle = x.cycle := rfl
@[simp] theorem State.setEngine_freeCtr (x : State) (k : EngId) (y : Engine) : (x.setEngine k y).freeCtr = x.freeCtr := rfl
@[simp] theorem State.setEngine_power (x : State) (k : EngId) (y : Engine) : (x.setEngine k y).power = x.power := rfl
@[simp] theorem State.setEngine_bar0 (x : State) (k : EngId) (y : Engine) : (x.setEngine k y).bar0 = x.bar0 := rfl
@[simp] theorem State.setEngine_fuseVersions (x : State) (k : EngId) (y : Engine) : (x.setEngine k y).fuseVersions = x.fuseVersions := rfl
@[simp] theorem State.setEngine_fuseKeys (x : State) (k : EngId) (y : Engine) : (x.setEngine k y).fuseKeys = x.fuseKeys := rfl
@[simp] theorem State.setEngine_mbxtab (x : State) (k : EngId) (y : Engine) : (x.setEngine k y).mbxtab = x.mbxtab := rfl
@[simp] theorem State.setEngine_lvltab (x : State) (k : EngId) (y : Engine) : (x.setEngine k y).lvltab = x.lvltab := rfl
@[simp] theorem State.setEngine_qsched (x : State) (k : EngId) (y : Engine) : (x.setEngine k y).qsched = x.qsched := rfl
@[simp] theorem State.setEngine_qlist (x : State) (k : EngId) (y : Engine) : (x.setEngine k y).qlist = x.qlist := rfl
@[simp] theorem State.setEngine_jobexp (x : State) (k : EngId) (y : Engine) : (x.setEngine k y).jobexp = x.jobexp := rfl
@[simp] theorem State.setEngine_partexp (x : State) (k : EngId) (y : Engine) : (x.setEngine k y).partexp = x.partexp := rfl
@[simp] theorem State.setEngine_ctxsel (x : State) (k : EngId) (y : Engine) : (x.setEngine k y).ctxsel = x.ctxsel := rfl
@[simp] theorem State.setEngine_segbase (x : State) (k : EngId) (y : Engine) : (x.setEngine k y).segbase = x.segbase := rfl
@[simp] theorem State.setEngine_bindtab (x : State) (k : EngId) (y : Engine) : (x.setEngine k y).bindtab = x.bindtab := rfl
@[simp] theorem State.setEngine_namerules (x : State) (k : EngId) (y : Engine) : (x.setEngine k y).namerules = x.namerules := rfl
@[simp] theorem State.setEngine_ctxpart (x : State) (k : EngId) (y : Engine) : (x.setEngine k y).ctxpart = x.ctxpart := rfl
@[simp] theorem State.setEngine_parttab (x : State) (k : EngId) (y : Engine) : (x.setEngine k y).parttab = x.parttab := rfl
@[simp] theorem State.setEngine_flip (x : State) (k : EngId) (y : Engine) : (x.setEngine k y).flip = x.flip := rfl
@[simp] theorem State.setEngine_capiod (x : State) (k : EngId) (y : Engine) : (x.setEngine k y).capiod = x.capiod := rfl
@[simp] theorem State.setEngine_svctab (x : State) (k : EngId) (y : Engine) : (x.setEngine k y).svctab = x.svctab := rfl
@[simp] theorem State.setEngine_svcmbx (x : State) (k : EngId) (y : Engine) : (x.setEngine k y).svcmbx = x.svcmbx := rfl
@[simp] theorem State.setEngine_savepool (x : State) (k : EngId) (y : Engine) : (x.setEngine k y).savepool = x.savepool := rfl
@[simp] theorem State.setEngine_hostexp (x : State) (k : EngId) (y : Engine) : (x.setEngine k y).hostexp = x.hostexp := rfl
@[simp] theorem State.setEngine_domexp (x : State) (k : EngId) (y : Engine) : (x.setEngine k y).domexp = x.domexp := rfl
@[simp] theorem State.setEngine_domid (x : State) (k : EngId) (y : Engine) : (x.setEngine k y).domid = x.domid := rfl
@[simp] theorem State.setEngine_dxtab (x : State) (k : EngId) (y : Engine) : (x.setEngine k y).dxtab = x.dxtab := rfl
@[simp] theorem State.setEngine_routetab (x : State) (k : EngId) (y : Engine) : (x.setEngine k y).routetab = x.routetab := rfl
@[simp] theorem State.setEngine_inwin (x : State) (k : EngId) (y : Engine) : (x.setEngine k y).inwin = x.inwin := rfl
@[simp] theorem State.setEngine_dies (x : State) (k : EngId) (y : Engine) : (x.setEngine k y).dies = x.dies := rfl
@[simp] theorem State.setEngine_mem (x : State) (k : EngId) (y : Engine) : (x.setEngine k y).mem = x.mem := rfl
@[simp] theorem State.setEngine_dir (x : State) (k : EngId) (y : Engine) : (x.setEngine k y).dir = x.dir := rfl
@[simp] theorem State.setEngine_pend (x : State) (k : EngId) (y : Engine) : (x.setEngine k y).pend = x.pend := rfl
@[simp] theorem State.setEngine_nextSeq (x : State) (k : EngId) (y : Engine) : (x.setEngine k y).nextSeq = x.nextSeq := rfl
@[simp] theorem State.setEngine_tlb (x : State) (k : EngId) (y : Engine) : (x.setEngine k y).tlb = x.tlb := rfl
@[simp] theorem State.setEngine_own (x : State) (k : EngId) (y : Engine) : (x.setEngine k y).own = x.own := rfl
@[simp] theorem State.setEngine_bias (x : State) (k : EngId) (y : Engine) : (x.setEngine k y).bias = x.bias := rfl
@[simp] theorem State.setEngine_hostLines (x : State) (k : EngId) (y : Engine) : (x.setEngine k y).hostLines = x.hostLines := rfl
@[simp] theorem State.setEngine_cores (x : State) (k : EngId) (y : Engine) : (x.setEngine k y).cores = x.cores := rfl
@[simp] theorem State.setEngine_mailboxes (x : State) (k : EngId) (y : Engine) : (x.setEngine k y).mailboxes = x.mailboxes := rfl
@[simp] theorem State.setEngine_launches (x : State) (k : EngId) (y : Engine) : (x.setEngine k y).launches = x.launches := rfl
@[simp] theorem State.setEngine_units (x : State) (k : EngId) (y : Engine) : (x.setEngine k y).units = x.units := rfl
@[simp] theorem State.setEngine_nextUid (x : State) (k : EngId) (y : Engine) : (x.setEngine k y).nextUid = x.nextUid := rfl
@[simp] theorem State.setEngine_qslots (x : State) (k : EngId) (y : Engine) : (x.setEngine k y).qslots = x.qslots := rfl
@[simp] theorem State.setEngine_binders (x : State) (k : EngId) (y : Engine) : (x.setEngine k y).binders = x.binders := rfl
@[simp] theorem State.setEngine_imgExports (x : State) (k : EngId) (y : Engine) : (x.setEngine k y).imgExports = x.imgExports := rfl
@[simp] theorem State.setEngine_revokedStops (x : State) (k : EngId) (y : Engine) : (x.setEngine k y).revokedStops = x.revokedStops := rfl
@[simp] theorem State.setEngine_ferries (x : State) (k : EngId) (y : Engine) : (x.setEngine k y).ferries = x.ferries := rfl
@[simp] theorem State.setEngine_chunks (x : State) (k : EngId) (y : Engine) : (x.setEngine k y).chunks = x.chunks := rfl
@[simp] theorem State.setEngine_posted (x : State) (k : EngId) (y : Engine) : (x.setEngine k y).posted = x.posted := rfl
@[simp] theorem State.setEngine_absentDevs (x : State) (k : EngId) (y : Engine) : (x.setEngine k y).absentDevs = x.absentDevs := rfl
@[simp] theorem State.setEngine_pop (x : State) (k : EngId) (y : Engine) : (x.setEngine k y).pop = x.pop := rfl
@[simp] theorem State.setEngine_popNext (x : State) (k : EngId) (y : Engine) : (x.setEngine k y).popNext = x.popNext := rfl
@[simp] theorem State.setEngine_portUp (x : State) (k : EngId) (y : Engine) : (x.setEngine k y).portUp = x.portUp := rfl
@[simp] theorem State.setEngine_detached (x : State) (k : EngId) (y : Engine) : (x.setEngine k y).detached = x.detached := rfl
@[simp] theorem State.setEngine_slots (x : State) (k : EngId) (y : Engine) : (x.setEngine k y).slots = x.slots := rfl
@[simp] theorem State.setEngine_out (x : State) (k : EngId) (y : Engine) : (x.setEngine k y).out = x.out := rfl
@[simp] theorem State.setEngine_issued (x : State) (k : EngId) (y : Engine) : (x.setEngine k y).issued = x.issued := rfl
@[simp] theorem State.setEngine_collPeers (x : State) (k : EngId) (y : Engine) : (x.setEngine k y).collPeers = x.collPeers := rfl
@[simp] theorem State.setEngine_halted (x : State) (k : EngId) (y : Engine) : (x.setEngine k y).halted = x.halted := rfl

@[simp] theorem State.report_agenda (x : State) (r a : Nat) : (x.report r a).agenda = x.agenda := rfl
@[simp] theorem State.report_cur (x : State) (r a : Nat) : (x.report r a).cur = x.cur := rfl
@[simp] theorem State.report_arg (x : State) (r a : Nat) : (x.report r a).arg = x.arg := rfl
@[simp] theorem State.report_cycle (x : State) (r a : Nat) : (x.report r a).cycle = x.cycle := rfl
@[simp] theorem State.report_freeCtr (x : State) (r a : Nat) : (x.report r a).freeCtr = x.freeCtr := rfl
@[simp] theorem State.report_power (x : State) (r a : Nat) : (x.report r a).power = x.power := rfl
@[simp] theorem State.report_bar0 (x : State) (r a : Nat) : (x.report r a).bar0 = x.bar0 := rfl
@[simp] theorem State.report_fuseVersions (x : State) (r a : Nat) : (x.report r a).fuseVersions = x.fuseVersions := rfl
@[simp] theorem State.report_fuseKeys (x : State) (r a : Nat) : (x.report r a).fuseKeys = x.fuseKeys := rfl
@[simp] theorem State.report_mbxtab (x : State) (r a : Nat) : (x.report r a).mbxtab = x.mbxtab := rfl
@[simp] theorem State.report_lvltab (x : State) (r a : Nat) : (x.report r a).lvltab = x.lvltab := rfl
@[simp] theorem State.report_qsched (x : State) (r a : Nat) : (x.report r a).qsched = x.qsched := rfl
@[simp] theorem State.report_qlist (x : State) (r a : Nat) : (x.report r a).qlist = x.qlist := rfl
@[simp] theorem State.report_jobexp (x : State) (r a : Nat) : (x.report r a).jobexp = x.jobexp := rfl
@[simp] theorem State.report_partexp (x : State) (r a : Nat) : (x.report r a).partexp = x.partexp := rfl
@[simp] theorem State.report_ctxsel (x : State) (r a : Nat) : (x.report r a).ctxsel = x.ctxsel := rfl
@[simp] theorem State.report_segbase (x : State) (r a : Nat) : (x.report r a).segbase = x.segbase := rfl
@[simp] theorem State.report_bindtab (x : State) (r a : Nat) : (x.report r a).bindtab = x.bindtab := rfl
@[simp] theorem State.report_namerules (x : State) (r a : Nat) : (x.report r a).namerules = x.namerules := rfl
@[simp] theorem State.report_ctxpart (x : State) (r a : Nat) : (x.report r a).ctxpart = x.ctxpart := rfl
@[simp] theorem State.report_parttab (x : State) (r a : Nat) : (x.report r a).parttab = x.parttab := rfl
@[simp] theorem State.report_flip (x : State) (r a : Nat) : (x.report r a).flip = x.flip := rfl
@[simp] theorem State.report_capiod (x : State) (r a : Nat) : (x.report r a).capiod = x.capiod := rfl
@[simp] theorem State.report_svctab (x : State) (r a : Nat) : (x.report r a).svctab = x.svctab := rfl
@[simp] theorem State.report_svcmbx (x : State) (r a : Nat) : (x.report r a).svcmbx = x.svcmbx := rfl
@[simp] theorem State.report_savepool (x : State) (r a : Nat) : (x.report r a).savepool = x.savepool := rfl
@[simp] theorem State.report_hostexp (x : State) (r a : Nat) : (x.report r a).hostexp = x.hostexp := rfl
@[simp] theorem State.report_domexp (x : State) (r a : Nat) : (x.report r a).domexp = x.domexp := rfl
@[simp] theorem State.report_domid (x : State) (r a : Nat) : (x.report r a).domid = x.domid := rfl
@[simp] theorem State.report_dxtab (x : State) (r a : Nat) : (x.report r a).dxtab = x.dxtab := rfl
@[simp] theorem State.report_routetab (x : State) (r a : Nat) : (x.report r a).routetab = x.routetab := rfl
@[simp] theorem State.report_inwin (x : State) (r a : Nat) : (x.report r a).inwin = x.inwin := rfl
@[simp] theorem State.report_dies (x : State) (r a : Nat) : (x.report r a).dies = x.dies := rfl
@[simp] theorem State.report_mem (x : State) (r a : Nat) : (x.report r a).mem = x.mem := rfl
@[simp] theorem State.report_dir (x : State) (r a : Nat) : (x.report r a).dir = x.dir := rfl
@[simp] theorem State.report_pend (x : State) (r a : Nat) : (x.report r a).pend = x.pend := rfl
@[simp] theorem State.report_nextSeq (x : State) (r a : Nat) : (x.report r a).nextSeq = x.nextSeq := rfl
@[simp] theorem State.report_tlb (x : State) (r a : Nat) : (x.report r a).tlb = x.tlb := rfl
@[simp] theorem State.report_own (x : State) (r a : Nat) : (x.report r a).own = x.own := rfl
@[simp] theorem State.report_bias (x : State) (r a : Nat) : (x.report r a).bias = x.bias := rfl
@[simp] theorem State.report_hostLines (x : State) (r a : Nat) : (x.report r a).hostLines = x.hostLines := rfl
@[simp] theorem State.report_cores (x : State) (r a : Nat) : (x.report r a).cores = x.cores := rfl
@[simp] theorem State.report_engines (x : State) (r a : Nat) : (x.report r a).engines = x.engines := rfl
@[simp] theorem State.report_mailboxes (x : State) (r a : Nat) : (x.report r a).mailboxes = x.mailboxes := rfl
@[simp] theorem State.report_launches (x : State) (r a : Nat) : (x.report r a).launches = x.launches := rfl
@[simp] theorem State.report_units (x : State) (r a : Nat) : (x.report r a).units = x.units := rfl
@[simp] theorem State.report_nextUid (x : State) (r a : Nat) : (x.report r a).nextUid = x.nextUid := rfl
@[simp] theorem State.report_qslots (x : State) (r a : Nat) : (x.report r a).qslots = x.qslots := rfl
@[simp] theorem State.report_binders (x : State) (r a : Nat) : (x.report r a).binders = x.binders := rfl
@[simp] theorem State.report_imgExports (x : State) (r a : Nat) : (x.report r a).imgExports = x.imgExports := rfl
@[simp] theorem State.report_revokedStops (x : State) (r a : Nat) : (x.report r a).revokedStops = x.revokedStops := rfl
@[simp] theorem State.report_ferries (x : State) (r a : Nat) : (x.report r a).ferries = x.ferries := rfl
@[simp] theorem State.report_chunks (x : State) (r a : Nat) : (x.report r a).chunks = x.chunks := rfl
@[simp] theorem State.report_posted (x : State) (r a : Nat) : (x.report r a).posted = x.posted := rfl
@[simp] theorem State.report_absentDevs (x : State) (r a : Nat) : (x.report r a).absentDevs = x.absentDevs := rfl
@[simp] theorem State.report_pop (x : State) (r a : Nat) : (x.report r a).pop = x.pop := rfl
@[simp] theorem State.report_popNext (x : State) (r a : Nat) : (x.report r a).popNext = x.popNext := rfl
@[simp] theorem State.report_portUp (x : State) (r a : Nat) : (x.report r a).portUp = x.portUp := rfl
@[simp] theorem State.report_detached (x : State) (r a : Nat) : (x.report r a).detached = x.detached := rfl
@[simp] theorem State.report_slots (x : State) (r a : Nat) : (x.report r a).slots = x.slots := rfl
@[simp] theorem State.report_issued (x : State) (r a : Nat) : (x.report r a).issued = x.issued := rfl
@[simp] theorem State.report_collPeers (x : State) (r a : Nat) : (x.report r a).collPeers = x.collPeers := rfl
@[simp] theorem State.report_halted (x : State) (r a : Nat) : (x.report r a).halted = x.halted := rfl

@[simp] theorem State.wr_agenda (x : State) (k n v : Nat) : (x.wr k n v).agenda = x.agenda := rfl
@[simp] theorem State.wr_cur (x : State) (k n v : Nat) : (x.wr k n v).cur = x.cur := rfl
@[simp] theorem State.wr_arg (x : State) (k n v : Nat) : (x.wr k n v).arg = x.arg := rfl
@[simp] theorem State.wr_cycle (x : State) (k n v : Nat) : (x.wr k n v).cycle = x.cycle := rfl
@[simp] theorem State.wr_freeCtr (x : State) (k n v : Nat) : (x.wr k n v).freeCtr = x.freeCtr := rfl
@[simp] theorem State.wr_power (x : State) (k n v : Nat) : (x.wr k n v).power = x.power := rfl
@[simp] theorem State.wr_bar0 (x : State) (k n v : Nat) : (x.wr k n v).bar0 = x.bar0 := rfl
@[simp] theorem State.wr_fuseVersions (x : State) (k n v : Nat) : (x.wr k n v).fuseVersions = x.fuseVersions := rfl
@[simp] theorem State.wr_fuseKeys (x : State) (k n v : Nat) : (x.wr k n v).fuseKeys = x.fuseKeys := rfl
@[simp] theorem State.wr_mbxtab (x : State) (k n v : Nat) : (x.wr k n v).mbxtab = x.mbxtab := rfl
@[simp] theorem State.wr_lvltab (x : State) (k n v : Nat) : (x.wr k n v).lvltab = x.lvltab := rfl
@[simp] theorem State.wr_qsched (x : State) (k n v : Nat) : (x.wr k n v).qsched = x.qsched := rfl
@[simp] theorem State.wr_qlist (x : State) (k n v : Nat) : (x.wr k n v).qlist = x.qlist := rfl
@[simp] theorem State.wr_jobexp (x : State) (k n v : Nat) : (x.wr k n v).jobexp = x.jobexp := rfl
@[simp] theorem State.wr_partexp (x : State) (k n v : Nat) : (x.wr k n v).partexp = x.partexp := rfl
@[simp] theorem State.wr_ctxsel (x : State) (k n v : Nat) : (x.wr k n v).ctxsel = x.ctxsel := rfl
@[simp] theorem State.wr_segbase (x : State) (k n v : Nat) : (x.wr k n v).segbase = x.segbase := rfl
@[simp] theorem State.wr_bindtab (x : State) (k n v : Nat) : (x.wr k n v).bindtab = x.bindtab := rfl
@[simp] theorem State.wr_namerules (x : State) (k n v : Nat) : (x.wr k n v).namerules = x.namerules := rfl
@[simp] theorem State.wr_ctxpart (x : State) (k n v : Nat) : (x.wr k n v).ctxpart = x.ctxpart := rfl
@[simp] theorem State.wr_parttab (x : State) (k n v : Nat) : (x.wr k n v).parttab = x.parttab := rfl
@[simp] theorem State.wr_flip (x : State) (k n v : Nat) : (x.wr k n v).flip = x.flip := rfl
@[simp] theorem State.wr_capiod (x : State) (k n v : Nat) : (x.wr k n v).capiod = x.capiod := rfl
@[simp] theorem State.wr_svctab (x : State) (k n v : Nat) : (x.wr k n v).svctab = x.svctab := rfl
@[simp] theorem State.wr_svcmbx (x : State) (k n v : Nat) : (x.wr k n v).svcmbx = x.svcmbx := rfl
@[simp] theorem State.wr_savepool (x : State) (k n v : Nat) : (x.wr k n v).savepool = x.savepool := rfl
@[simp] theorem State.wr_hostexp (x : State) (k n v : Nat) : (x.wr k n v).hostexp = x.hostexp := rfl
@[simp] theorem State.wr_domexp (x : State) (k n v : Nat) : (x.wr k n v).domexp = x.domexp := rfl
@[simp] theorem State.wr_domid (x : State) (k n v : Nat) : (x.wr k n v).domid = x.domid := rfl
@[simp] theorem State.wr_dxtab (x : State) (k n v : Nat) : (x.wr k n v).dxtab = x.dxtab := rfl
@[simp] theorem State.wr_routetab (x : State) (k n v : Nat) : (x.wr k n v).routetab = x.routetab := rfl
@[simp] theorem State.wr_inwin (x : State) (k n v : Nat) : (x.wr k n v).inwin = x.inwin := rfl
@[simp] theorem State.wr_dies (x : State) (k n v : Nat) : (x.wr k n v).dies = x.dies := rfl
@[simp] theorem State.wr_dir (x : State) (k n v : Nat) : (x.wr k n v).dir = x.dir := rfl
@[simp] theorem State.wr_pend (x : State) (k n v : Nat) : (x.wr k n v).pend = x.pend := rfl
@[simp] theorem State.wr_nextSeq (x : State) (k n v : Nat) : (x.wr k n v).nextSeq = x.nextSeq := rfl
@[simp] theorem State.wr_tlb (x : State) (k n v : Nat) : (x.wr k n v).tlb = x.tlb := rfl
@[simp] theorem State.wr_own (x : State) (k n v : Nat) : (x.wr k n v).own = x.own := rfl
@[simp] theorem State.wr_bias (x : State) (k n v : Nat) : (x.wr k n v).bias = x.bias := rfl
@[simp] theorem State.wr_hostLines (x : State) (k n v : Nat) : (x.wr k n v).hostLines = unhost x.hostLines k n := rfl
@[simp] theorem State.wr_cores (x : State) (k n v : Nat) : (x.wr k n v).cores = x.cores := rfl
@[simp] theorem State.wr_engines (x : State) (k n v : Nat) : (x.wr k n v).engines = x.engines := rfl
@[simp] theorem State.wr_mailboxes (x : State) (k n v : Nat) : (x.wr k n v).mailboxes = x.mailboxes := rfl
@[simp] theorem State.wr_launches (x : State) (k n v : Nat) : (x.wr k n v).launches = x.launches := rfl
@[simp] theorem State.wr_units (x : State) (k n v : Nat) : (x.wr k n v).units = x.units := rfl
@[simp] theorem State.wr_nextUid (x : State) (k n v : Nat) : (x.wr k n v).nextUid = x.nextUid := rfl
@[simp] theorem State.wr_qslots (x : State) (k n v : Nat) : (x.wr k n v).qslots = x.qslots := rfl
@[simp] theorem State.wr_binders (x : State) (k n v : Nat) : (x.wr k n v).binders = x.binders := rfl
@[simp] theorem State.wr_imgExports (x : State) (k n v : Nat) : (x.wr k n v).imgExports = x.imgExports := rfl
@[simp] theorem State.wr_revokedStops (x : State) (k n v : Nat) : (x.wr k n v).revokedStops = x.revokedStops := rfl
@[simp] theorem State.wr_ferries (x : State) (k n v : Nat) : (x.wr k n v).ferries = x.ferries := rfl
@[simp] theorem State.wr_chunks (x : State) (k n v : Nat) : (x.wr k n v).chunks = x.chunks := rfl
@[simp] theorem State.wr_posted (x : State) (k n v : Nat) : (x.wr k n v).posted = x.posted := rfl
@[simp] theorem State.wr_absentDevs (x : State) (k n v : Nat) : (x.wr k n v).absentDevs = x.absentDevs := rfl
@[simp] theorem State.wr_pop (x : State) (k n v : Nat) : (x.wr k n v).pop = x.pop := rfl
@[simp] theorem State.wr_popNext (x : State) (k n v : Nat) : (x.wr k n v).popNext = x.popNext := rfl
@[simp] theorem State.wr_portUp (x : State) (k n v : Nat) : (x.wr k n v).portUp = x.portUp := rfl
@[simp] theorem State.wr_detached (x : State) (k n v : Nat) : (x.wr k n v).detached = x.detached := rfl
@[simp] theorem State.wr_slots (x : State) (k n v : Nat) : (x.wr k n v).slots = x.slots := rfl
@[simp] theorem State.wr_out (x : State) (k n v : Nat) : (x.wr k n v).out = x.out := rfl
@[simp] theorem State.wr_issued (x : State) (k n v : Nat) : (x.wr k n v).issued = x.issued := rfl
@[simp] theorem State.wr_collPeers (x : State) (k n v : Nat) : (x.wr k n v).collPeers = x.collPeers := rfl
@[simp] theorem State.wr_halted (x : State) (k n v : Nat) : (x.wr k n v).halted = x.halted := rfl

@[simp] theorem State.wr8_agenda (x : State) (k v : Nat) : (x.wr8 k v).agenda = x.agenda := rfl
@[simp] theorem State.wr8_cur (x : State) (k v : Nat) : (x.wr8 k v).cur = x.cur := rfl
@[simp] theorem State.wr8_arg (x : State) (k v : Nat) : (x.wr8 k v).arg = x.arg := rfl
@[simp] theorem State.wr8_cycle (x : State) (k v : Nat) : (x.wr8 k v).cycle = x.cycle := rfl
@[simp] theorem State.wr8_freeCtr (x : State) (k v : Nat) : (x.wr8 k v).freeCtr = x.freeCtr := rfl
@[simp] theorem State.wr8_power (x : State) (k v : Nat) : (x.wr8 k v).power = x.power := rfl
@[simp] theorem State.wr8_bar0 (x : State) (k v : Nat) : (x.wr8 k v).bar0 = x.bar0 := rfl
@[simp] theorem State.wr8_fuseVersions (x : State) (k v : Nat) : (x.wr8 k v).fuseVersions = x.fuseVersions := rfl
@[simp] theorem State.wr8_fuseKeys (x : State) (k v : Nat) : (x.wr8 k v).fuseKeys = x.fuseKeys := rfl
@[simp] theorem State.wr8_mbxtab (x : State) (k v : Nat) : (x.wr8 k v).mbxtab = x.mbxtab := rfl
@[simp] theorem State.wr8_lvltab (x : State) (k v : Nat) : (x.wr8 k v).lvltab = x.lvltab := rfl
@[simp] theorem State.wr8_qsched (x : State) (k v : Nat) : (x.wr8 k v).qsched = x.qsched := rfl
@[simp] theorem State.wr8_qlist (x : State) (k v : Nat) : (x.wr8 k v).qlist = x.qlist := rfl
@[simp] theorem State.wr8_jobexp (x : State) (k v : Nat) : (x.wr8 k v).jobexp = x.jobexp := rfl
@[simp] theorem State.wr8_partexp (x : State) (k v : Nat) : (x.wr8 k v).partexp = x.partexp := rfl
@[simp] theorem State.wr8_ctxsel (x : State) (k v : Nat) : (x.wr8 k v).ctxsel = x.ctxsel := rfl
@[simp] theorem State.wr8_segbase (x : State) (k v : Nat) : (x.wr8 k v).segbase = x.segbase := rfl
@[simp] theorem State.wr8_bindtab (x : State) (k v : Nat) : (x.wr8 k v).bindtab = x.bindtab := rfl
@[simp] theorem State.wr8_namerules (x : State) (k v : Nat) : (x.wr8 k v).namerules = x.namerules := rfl
@[simp] theorem State.wr8_ctxpart (x : State) (k v : Nat) : (x.wr8 k v).ctxpart = x.ctxpart := rfl
@[simp] theorem State.wr8_parttab (x : State) (k v : Nat) : (x.wr8 k v).parttab = x.parttab := rfl
@[simp] theorem State.wr8_flip (x : State) (k v : Nat) : (x.wr8 k v).flip = x.flip := rfl
@[simp] theorem State.wr8_capiod (x : State) (k v : Nat) : (x.wr8 k v).capiod = x.capiod := rfl
@[simp] theorem State.wr8_svctab (x : State) (k v : Nat) : (x.wr8 k v).svctab = x.svctab := rfl
@[simp] theorem State.wr8_svcmbx (x : State) (k v : Nat) : (x.wr8 k v).svcmbx = x.svcmbx := rfl
@[simp] theorem State.wr8_savepool (x : State) (k v : Nat) : (x.wr8 k v).savepool = x.savepool := rfl
@[simp] theorem State.wr8_hostexp (x : State) (k v : Nat) : (x.wr8 k v).hostexp = x.hostexp := rfl
@[simp] theorem State.wr8_domexp (x : State) (k v : Nat) : (x.wr8 k v).domexp = x.domexp := rfl
@[simp] theorem State.wr8_domid (x : State) (k v : Nat) : (x.wr8 k v).domid = x.domid := rfl
@[simp] theorem State.wr8_dxtab (x : State) (k v : Nat) : (x.wr8 k v).dxtab = x.dxtab := rfl
@[simp] theorem State.wr8_routetab (x : State) (k v : Nat) : (x.wr8 k v).routetab = x.routetab := rfl
@[simp] theorem State.wr8_inwin (x : State) (k v : Nat) : (x.wr8 k v).inwin = x.inwin := rfl
@[simp] theorem State.wr8_dies (x : State) (k v : Nat) : (x.wr8 k v).dies = x.dies := rfl
@[simp] theorem State.wr8_dir (x : State) (k v : Nat) : (x.wr8 k v).dir = x.dir := rfl
@[simp] theorem State.wr8_pend (x : State) (k v : Nat) : (x.wr8 k v).pend = x.pend := rfl
@[simp] theorem State.wr8_nextSeq (x : State) (k v : Nat) : (x.wr8 k v).nextSeq = x.nextSeq := rfl
@[simp] theorem State.wr8_tlb (x : State) (k v : Nat) : (x.wr8 k v).tlb = x.tlb := rfl
@[simp] theorem State.wr8_own (x : State) (k v : Nat) : (x.wr8 k v).own = x.own := rfl
@[simp] theorem State.wr8_bias (x : State) (k v : Nat) : (x.wr8 k v).bias = x.bias := rfl
@[simp] theorem State.wr8_hostLines (x : State) (k v : Nat) : (x.wr8 k v).hostLines = unhost x.hostLines k 8 := rfl
@[simp] theorem State.wr8_cores (x : State) (k v : Nat) : (x.wr8 k v).cores = x.cores := rfl
@[simp] theorem State.wr8_engines (x : State) (k v : Nat) : (x.wr8 k v).engines = x.engines := rfl
@[simp] theorem State.wr8_mailboxes (x : State) (k v : Nat) : (x.wr8 k v).mailboxes = x.mailboxes := rfl
@[simp] theorem State.wr8_launches (x : State) (k v : Nat) : (x.wr8 k v).launches = x.launches := rfl
@[simp] theorem State.wr8_units (x : State) (k v : Nat) : (x.wr8 k v).units = x.units := rfl
@[simp] theorem State.wr8_nextUid (x : State) (k v : Nat) : (x.wr8 k v).nextUid = x.nextUid := rfl
@[simp] theorem State.wr8_qslots (x : State) (k v : Nat) : (x.wr8 k v).qslots = x.qslots := rfl
@[simp] theorem State.wr8_binders (x : State) (k v : Nat) : (x.wr8 k v).binders = x.binders := rfl
@[simp] theorem State.wr8_imgExports (x : State) (k v : Nat) : (x.wr8 k v).imgExports = x.imgExports := rfl
@[simp] theorem State.wr8_revokedStops (x : State) (k v : Nat) : (x.wr8 k v).revokedStops = x.revokedStops := rfl
@[simp] theorem State.wr8_ferries (x : State) (k v : Nat) : (x.wr8 k v).ferries = x.ferries := rfl
@[simp] theorem State.wr8_chunks (x : State) (k v : Nat) : (x.wr8 k v).chunks = x.chunks := rfl
@[simp] theorem State.wr8_posted (x : State) (k v : Nat) : (x.wr8 k v).posted = x.posted := rfl
@[simp] theorem State.wr8_absentDevs (x : State) (k v : Nat) : (x.wr8 k v).absentDevs = x.absentDevs := rfl
@[simp] theorem State.wr8_pop (x : State) (k v : Nat) : (x.wr8 k v).pop = x.pop := rfl
@[simp] theorem State.wr8_popNext (x : State) (k v : Nat) : (x.wr8 k v).popNext = x.popNext := rfl
@[simp] theorem State.wr8_portUp (x : State) (k v : Nat) : (x.wr8 k v).portUp = x.portUp := rfl
@[simp] theorem State.wr8_detached (x : State) (k v : Nat) : (x.wr8 k v).detached = x.detached := rfl
@[simp] theorem State.wr8_slots (x : State) (k v : Nat) : (x.wr8 k v).slots = x.slots := rfl
@[simp] theorem State.wr8_out (x : State) (k v : Nat) : (x.wr8 k v).out = x.out := rfl
@[simp] theorem State.wr8_issued (x : State) (k v : Nat) : (x.wr8 k v).issued = x.issued := rfl
@[simp] theorem State.wr8_collPeers (x : State) (k v : Nat) : (x.wr8 k v).collPeers = x.collPeers := rfl
@[simp] theorem State.wr8_halted (x : State) (k v : Nat) : (x.wr8 k v).halted = x.halted := rfl

@[simp] theorem State.zeroRange_agenda (x : State) (a n : Nat) : (x.zeroRange a n).agenda = x.agenda := rfl
@[simp] theorem State.zeroRange_cur (x : State) (a n : Nat) : (x.zeroRange a n).cur = x.cur := rfl
@[simp] theorem State.zeroRange_arg (x : State) (a n : Nat) : (x.zeroRange a n).arg = x.arg := rfl
@[simp] theorem State.zeroRange_cycle (x : State) (a n : Nat) : (x.zeroRange a n).cycle = x.cycle := rfl
@[simp] theorem State.zeroRange_freeCtr (x : State) (a n : Nat) : (x.zeroRange a n).freeCtr = x.freeCtr := rfl
@[simp] theorem State.zeroRange_power (x : State) (a n : Nat) : (x.zeroRange a n).power = x.power := rfl
@[simp] theorem State.zeroRange_bar0 (x : State) (a n : Nat) : (x.zeroRange a n).bar0 = x.bar0 := rfl
@[simp] theorem State.zeroRange_fuseVersions (x : State) (a n : Nat) : (x.zeroRange a n).fuseVersions = x.fuseVersions := rfl
@[simp] theorem State.zeroRange_fuseKeys (x : State) (a n : Nat) : (x.zeroRange a n).fuseKeys = x.fuseKeys := rfl
@[simp] theorem State.zeroRange_mbxtab (x : State) (a n : Nat) : (x.zeroRange a n).mbxtab = x.mbxtab := rfl
@[simp] theorem State.zeroRange_lvltab (x : State) (a n : Nat) : (x.zeroRange a n).lvltab = x.lvltab := rfl
@[simp] theorem State.zeroRange_qsched (x : State) (a n : Nat) : (x.zeroRange a n).qsched = x.qsched := rfl
@[simp] theorem State.zeroRange_qlist (x : State) (a n : Nat) : (x.zeroRange a n).qlist = x.qlist := rfl
@[simp] theorem State.zeroRange_jobexp (x : State) (a n : Nat) : (x.zeroRange a n).jobexp = x.jobexp := rfl
@[simp] theorem State.zeroRange_partexp (x : State) (a n : Nat) : (x.zeroRange a n).partexp = x.partexp := rfl
@[simp] theorem State.zeroRange_ctxsel (x : State) (a n : Nat) : (x.zeroRange a n).ctxsel = x.ctxsel := rfl
@[simp] theorem State.zeroRange_segbase (x : State) (a n : Nat) : (x.zeroRange a n).segbase = x.segbase := rfl
@[simp] theorem State.zeroRange_bindtab (x : State) (a n : Nat) : (x.zeroRange a n).bindtab = x.bindtab := rfl
@[simp] theorem State.zeroRange_namerules (x : State) (a n : Nat) : (x.zeroRange a n).namerules = x.namerules := rfl
@[simp] theorem State.zeroRange_ctxpart (x : State) (a n : Nat) : (x.zeroRange a n).ctxpart = x.ctxpart := rfl
@[simp] theorem State.zeroRange_parttab (x : State) (a n : Nat) : (x.zeroRange a n).parttab = x.parttab := rfl
@[simp] theorem State.zeroRange_flip (x : State) (a n : Nat) : (x.zeroRange a n).flip = x.flip := rfl
@[simp] theorem State.zeroRange_capiod (x : State) (a n : Nat) : (x.zeroRange a n).capiod = x.capiod := rfl
@[simp] theorem State.zeroRange_svctab (x : State) (a n : Nat) : (x.zeroRange a n).svctab = x.svctab := rfl
@[simp] theorem State.zeroRange_svcmbx (x : State) (a n : Nat) : (x.zeroRange a n).svcmbx = x.svcmbx := rfl
@[simp] theorem State.zeroRange_savepool (x : State) (a n : Nat) : (x.zeroRange a n).savepool = x.savepool := rfl
@[simp] theorem State.zeroRange_hostexp (x : State) (a n : Nat) : (x.zeroRange a n).hostexp = x.hostexp := rfl
@[simp] theorem State.zeroRange_domexp (x : State) (a n : Nat) : (x.zeroRange a n).domexp = x.domexp := rfl
@[simp] theorem State.zeroRange_domid (x : State) (a n : Nat) : (x.zeroRange a n).domid = x.domid := rfl
@[simp] theorem State.zeroRange_dxtab (x : State) (a n : Nat) : (x.zeroRange a n).dxtab = x.dxtab := rfl
@[simp] theorem State.zeroRange_routetab (x : State) (a n : Nat) : (x.zeroRange a n).routetab = x.routetab := rfl
@[simp] theorem State.zeroRange_inwin (x : State) (a n : Nat) : (x.zeroRange a n).inwin = x.inwin := rfl
@[simp] theorem State.zeroRange_dies (x : State) (a n : Nat) : (x.zeroRange a n).dies = x.dies := rfl
@[simp] theorem State.zeroRange_pend (x : State) (a n : Nat) : (x.zeroRange a n).pend = x.pend := rfl
@[simp] theorem State.zeroRange_nextSeq (x : State) (a n : Nat) : (x.zeroRange a n).nextSeq = x.nextSeq := rfl
@[simp] theorem State.zeroRange_tlb (x : State) (a n : Nat) : (x.zeroRange a n).tlb = x.tlb := rfl
@[simp] theorem State.zeroRange_own (x : State) (a n : Nat) : (x.zeroRange a n).own = x.own := rfl
@[simp] theorem State.zeroRange_bias (x : State) (a n : Nat) : (x.zeroRange a n).bias = x.bias := rfl
@[simp] theorem State.zeroRange_hostLines (x : State) (a n : Nat) : (x.zeroRange a n).hostLines = unhost x.hostLines a n := rfl
@[simp] theorem State.zeroRange_cores (x : State) (a n : Nat) : (x.zeroRange a n).cores = x.cores := rfl
@[simp] theorem State.zeroRange_engines (x : State) (a n : Nat) : (x.zeroRange a n).engines = x.engines := rfl
@[simp] theorem State.zeroRange_mailboxes (x : State) (a n : Nat) : (x.zeroRange a n).mailboxes = x.mailboxes := rfl
@[simp] theorem State.zeroRange_launches (x : State) (a n : Nat) : (x.zeroRange a n).launches = x.launches := rfl
@[simp] theorem State.zeroRange_units (x : State) (a n : Nat) : (x.zeroRange a n).units = x.units := rfl
@[simp] theorem State.zeroRange_nextUid (x : State) (a n : Nat) : (x.zeroRange a n).nextUid = x.nextUid := rfl
@[simp] theorem State.zeroRange_qslots (x : State) (a n : Nat) : (x.zeroRange a n).qslots = x.qslots := rfl
@[simp] theorem State.zeroRange_binders (x : State) (a n : Nat) : (x.zeroRange a n).binders = x.binders := rfl
@[simp] theorem State.zeroRange_imgExports (x : State) (a n : Nat) : (x.zeroRange a n).imgExports = x.imgExports := rfl
@[simp] theorem State.zeroRange_revokedStops (x : State) (a n : Nat) : (x.zeroRange a n).revokedStops = x.revokedStops := rfl
@[simp] theorem State.zeroRange_ferries (x : State) (a n : Nat) : (x.zeroRange a n).ferries = x.ferries := rfl
@[simp] theorem State.zeroRange_chunks (x : State) (a n : Nat) : (x.zeroRange a n).chunks = x.chunks := rfl
@[simp] theorem State.zeroRange_posted (x : State) (a n : Nat) : (x.zeroRange a n).posted = x.posted := rfl
@[simp] theorem State.zeroRange_absentDevs (x : State) (a n : Nat) : (x.zeroRange a n).absentDevs = x.absentDevs := rfl
@[simp] theorem State.zeroRange_pop (x : State) (a n : Nat) : (x.zeroRange a n).pop = x.pop := rfl
@[simp] theorem State.zeroRange_popNext (x : State) (a n : Nat) : (x.zeroRange a n).popNext = x.popNext := rfl
@[simp] theorem State.zeroRange_portUp (x : State) (a n : Nat) : (x.zeroRange a n).portUp = x.portUp := rfl
@[simp] theorem State.zeroRange_detached (x : State) (a n : Nat) : (x.zeroRange a n).detached = x.detached := rfl
@[simp] theorem State.zeroRange_slots (x : State) (a n : Nat) : (x.zeroRange a n).slots = x.slots := rfl
@[simp] theorem State.zeroRange_out (x : State) (a n : Nat) : (x.zeroRange a n).out = x.out := rfl
@[simp] theorem State.zeroRange_issued (x : State) (a n : Nat) : (x.zeroRange a n).issued = x.issued := rfl
@[simp] theorem State.zeroRange_collPeers (x : State) (a n : Nat) : (x.zeroRange a n).collPeers = x.collPeers := rfl
@[simp] theorem State.zeroRange_halted (x : State) (a n : Nat) : (x.zeroRange a n).halted = x.halted := rfl

@[simp] theorem State.setLaunch_agenda (x : State) (l : Launch) : (x.setLaunch l).agenda = x.agenda := rfl
@[simp] theorem State.setLaunch_cur (x : State) (l : Launch) : (x.setLaunch l).cur = x.cur := rfl
@[simp] theorem State.setLaunch_arg (x : State) (l : Launch) : (x.setLaunch l).arg = x.arg := rfl
@[simp] theorem State.setLaunch_cycle (x : State) (l : Launch) : (x.setLaunch l).cycle = x.cycle := rfl
@[simp] theorem State.setLaunch_freeCtr (x : State) (l : Launch) : (x.setLaunch l).freeCtr = x.freeCtr := rfl
@[simp] theorem State.setLaunch_power (x : State) (l : Launch) : (x.setLaunch l).power = x.power := rfl
@[simp] theorem State.setLaunch_bar0 (x : State) (l : Launch) : (x.setLaunch l).bar0 = x.bar0 := rfl
@[simp] theorem State.setLaunch_fuseVersions (x : State) (l : Launch) : (x.setLaunch l).fuseVersions = x.fuseVersions := rfl
@[simp] theorem State.setLaunch_fuseKeys (x : State) (l : Launch) : (x.setLaunch l).fuseKeys = x.fuseKeys := rfl
@[simp] theorem State.setLaunch_mbxtab (x : State) (l : Launch) : (x.setLaunch l).mbxtab = x.mbxtab := rfl
@[simp] theorem State.setLaunch_lvltab (x : State) (l : Launch) : (x.setLaunch l).lvltab = x.lvltab := rfl
@[simp] theorem State.setLaunch_qsched (x : State) (l : Launch) : (x.setLaunch l).qsched = x.qsched := rfl
@[simp] theorem State.setLaunch_qlist (x : State) (l : Launch) : (x.setLaunch l).qlist = x.qlist := rfl
@[simp] theorem State.setLaunch_jobexp (x : State) (l : Launch) : (x.setLaunch l).jobexp = x.jobexp := rfl
@[simp] theorem State.setLaunch_partexp (x : State) (l : Launch) : (x.setLaunch l).partexp = x.partexp := rfl
@[simp] theorem State.setLaunch_ctxsel (x : State) (l : Launch) : (x.setLaunch l).ctxsel = x.ctxsel := rfl
@[simp] theorem State.setLaunch_segbase (x : State) (l : Launch) : (x.setLaunch l).segbase = x.segbase := rfl
@[simp] theorem State.setLaunch_bindtab (x : State) (l : Launch) : (x.setLaunch l).bindtab = x.bindtab := rfl
@[simp] theorem State.setLaunch_namerules (x : State) (l : Launch) : (x.setLaunch l).namerules = x.namerules := rfl
@[simp] theorem State.setLaunch_ctxpart (x : State) (l : Launch) : (x.setLaunch l).ctxpart = x.ctxpart := rfl
@[simp] theorem State.setLaunch_parttab (x : State) (l : Launch) : (x.setLaunch l).parttab = x.parttab := rfl
@[simp] theorem State.setLaunch_flip (x : State) (l : Launch) : (x.setLaunch l).flip = x.flip := rfl
@[simp] theorem State.setLaunch_capiod (x : State) (l : Launch) : (x.setLaunch l).capiod = x.capiod := rfl
@[simp] theorem State.setLaunch_svctab (x : State) (l : Launch) : (x.setLaunch l).svctab = x.svctab := rfl
@[simp] theorem State.setLaunch_svcmbx (x : State) (l : Launch) : (x.setLaunch l).svcmbx = x.svcmbx := rfl
@[simp] theorem State.setLaunch_savepool (x : State) (l : Launch) : (x.setLaunch l).savepool = x.savepool := rfl
@[simp] theorem State.setLaunch_hostexp (x : State) (l : Launch) : (x.setLaunch l).hostexp = x.hostexp := rfl
@[simp] theorem State.setLaunch_domexp (x : State) (l : Launch) : (x.setLaunch l).domexp = x.domexp := rfl
@[simp] theorem State.setLaunch_domid (x : State) (l : Launch) : (x.setLaunch l).domid = x.domid := rfl
@[simp] theorem State.setLaunch_dxtab (x : State) (l : Launch) : (x.setLaunch l).dxtab = x.dxtab := rfl
@[simp] theorem State.setLaunch_routetab (x : State) (l : Launch) : (x.setLaunch l).routetab = x.routetab := rfl
@[simp] theorem State.setLaunch_inwin (x : State) (l : Launch) : (x.setLaunch l).inwin = x.inwin := rfl
@[simp] theorem State.setLaunch_dies (x : State) (l : Launch) : (x.setLaunch l).dies = x.dies := rfl
@[simp] theorem State.setLaunch_mem (x : State) (l : Launch) : (x.setLaunch l).mem = x.mem := rfl
@[simp] theorem State.setLaunch_dir (x : State) (l : Launch) : (x.setLaunch l).dir = x.dir := rfl
@[simp] theorem State.setLaunch_pend (x : State) (l : Launch) : (x.setLaunch l).pend = x.pend := rfl
@[simp] theorem State.setLaunch_nextSeq (x : State) (l : Launch) : (x.setLaunch l).nextSeq = x.nextSeq := rfl
@[simp] theorem State.setLaunch_tlb (x : State) (l : Launch) : (x.setLaunch l).tlb = x.tlb := rfl
@[simp] theorem State.setLaunch_own (x : State) (l : Launch) : (x.setLaunch l).own = x.own := rfl
@[simp] theorem State.setLaunch_bias (x : State) (l : Launch) : (x.setLaunch l).bias = x.bias := rfl
@[simp] theorem State.setLaunch_hostLines (x : State) (l : Launch) : (x.setLaunch l).hostLines = x.hostLines := rfl
@[simp] theorem State.setLaunch_cores (x : State) (l : Launch) : (x.setLaunch l).cores = x.cores := rfl
@[simp] theorem State.setLaunch_engines (x : State) (l : Launch) : (x.setLaunch l).engines = x.engines := rfl
@[simp] theorem State.setLaunch_mailboxes (x : State) (l : Launch) : (x.setLaunch l).mailboxes = x.mailboxes := rfl
@[simp] theorem State.setLaunch_units (x : State) (l : Launch) : (x.setLaunch l).units = x.units := rfl
@[simp] theorem State.setLaunch_nextUid (x : State) (l : Launch) : (x.setLaunch l).nextUid = x.nextUid := rfl
@[simp] theorem State.setLaunch_qslots (x : State) (l : Launch) : (x.setLaunch l).qslots = x.qslots := rfl
@[simp] theorem State.setLaunch_binders (x : State) (l : Launch) : (x.setLaunch l).binders = x.binders := rfl
@[simp] theorem State.setLaunch_imgExports (x : State) (l : Launch) : (x.setLaunch l).imgExports = x.imgExports := rfl
@[simp] theorem State.setLaunch_revokedStops (x : State) (l : Launch) : (x.setLaunch l).revokedStops = x.revokedStops := rfl
@[simp] theorem State.setLaunch_ferries (x : State) (l : Launch) : (x.setLaunch l).ferries = x.ferries := rfl
@[simp] theorem State.setLaunch_chunks (x : State) (l : Launch) : (x.setLaunch l).chunks = x.chunks := rfl
@[simp] theorem State.setLaunch_posted (x : State) (l : Launch) : (x.setLaunch l).posted = x.posted := rfl
@[simp] theorem State.setLaunch_absentDevs (x : State) (l : Launch) : (x.setLaunch l).absentDevs = x.absentDevs := rfl
@[simp] theorem State.setLaunch_pop (x : State) (l : Launch) : (x.setLaunch l).pop = x.pop := rfl
@[simp] theorem State.setLaunch_popNext (x : State) (l : Launch) : (x.setLaunch l).popNext = x.popNext := rfl
@[simp] theorem State.setLaunch_portUp (x : State) (l : Launch) : (x.setLaunch l).portUp = x.portUp := rfl
@[simp] theorem State.setLaunch_detached (x : State) (l : Launch) : (x.setLaunch l).detached = x.detached := rfl
@[simp] theorem State.setLaunch_slots (x : State) (l : Launch) : (x.setLaunch l).slots = x.slots := rfl
@[simp] theorem State.setLaunch_out (x : State) (l : Launch) : (x.setLaunch l).out = x.out := rfl
@[simp] theorem State.setLaunch_issued (x : State) (l : Launch) : (x.setLaunch l).issued = x.issued := rfl
@[simp] theorem State.setLaunch_collPeers (x : State) (l : Launch) : (x.setLaunch l).collPeers = x.collPeers := rfl
@[simp] theorem State.setLaunch_halted (x : State) (l : Launch) : (x.setLaunch l).halted = x.halted := rfl

@[simp] theorem WorkUnit.setGroup_uid (x : WorkUnit) (i : Nat) (g : Group) : (x.setGroup i g).uid = x.uid := rfl
@[simp] theorem WorkUnit.setGroup_mbx (x : WorkUnit) (i : Nat) (g : Group) : (x.setGroup i g).mbx = x.mbx := rfl
@[simp] theorem WorkUnit.setGroup_seq (x : WorkUnit) (i : Nat) (g : Group) : (x.setGroup i g).seq = x.seq := rfl
@[simp] theorem WorkUnit.setGroup_idx (x : WorkUnit) (i : Nat) (g : Group) : (x.setGroup i g).idx = x.idx := rfl
@[simp] theorem WorkUnit.setGroup_record (x : WorkUnit) (i : Nat) (g : Group) : (x.setGroup i g).record = x.record := rfl
@[simp] theorem WorkUnit.setGroup_msgLen (x : WorkUnit) (i : Nat) (g : Group) : (x.setGroup i g).msgLen = x.msgLen := rfl
@[simp] theorem WorkUnit.setGroup_res (x : WorkUnit) (i : Nat) (g : Group) : (x.setGroup i g).res = x.res := rfl
@[simp] theorem WorkUnit.setGroup_core (x : WorkUnit) (i : Nat) (g : Group) : (x.setGroup i g).core = x.core := rfl
@[simp] theorem WorkUnit.setGroup_runnable (x : WorkUnit) (i : Nat) (g : Group) : (x.setGroup i g).runnable = x.runnable := rfl
@[simp] theorem WorkUnit.setGroup_cvs (x : WorkUnit) (i : Nat) (g : Group) : (x.setGroup i g).cvs = x.cvs := rfl
@[simp] theorem WorkUnit.setGroup_bars (x : WorkUnit) (i : Nat) (g : Group) : (x.setGroup i g).bars = x.bars := rfl
@[simp] theorem WorkUnit.setGroup_tiles (x : WorkUnit) (i : Nat) (g : Group) : (x.setGroup i g).tiles = x.tiles := rfl
@[simp] theorem WorkUnit.setGroup_fas (x : WorkUnit) (i : Nat) (g : Group) : (x.setGroup i g).fas = x.fas := rfl
@[simp] theorem WorkUnit.setGroup_ym (x : WorkUnit) (i : Nat) (g : Group) : (x.setGroup i g).ym = x.ym := rfl
@[simp] theorem WorkUnit.setGroup_xm (x : WorkUnit) (i : Nat) (g : Group) : (x.setGroup i g).xm = x.xm := rfl
@[simp] theorem WorkUnit.setGroup_panels (x : WorkUnit) (i : Nat) (g : Group) : (x.setGroup i g).panels = x.panels := rfl
@[simp] theorem WorkUnit.setGroup_ops (x : WorkUnit) (i : Nat) (g : Group) : (x.setGroup i g).ops = x.ops := rfl
@[simp] theorem WorkUnit.setGroup_nextOp (x : WorkUnit) (i : Nat) (g : Group) : (x.setGroup i g).nextOp = x.nextOp := rfl
@[simp] theorem WorkUnit.setGroup_stop (x : WorkUnit) (i : Nat) (g : Group) : (x.setGroup i g).stop = x.stop := rfl
@[simp] theorem WorkUnit.setGroup_stopAt (x : WorkUnit) (i : Nat) (g : Group) : (x.setGroup i g).stopAt = x.stopAt := rfl
@[simp] theorem WorkUnit.setGroup_status (x : WorkUnit) (i : Nat) (g : Group) : (x.setGroup i g).status = x.status := rfl
@[simp] theorem WorkUnit.setGroup_threads (x : WorkUnit) (i : Nat) (g : Group) : (x.setGroup i g).threads = x.threads := rfl
@[simp] theorem WorkUnit.setGroup_places (x : WorkUnit) (i : Nat) (g : Group) : (x.setGroup i g).places = x.places := rfl
@[simp] theorem WorkUnit.setGroup_saver (x : WorkUnit) (i : Nat) (g : Group) : (x.setGroup i g).saver = x.saver := rfl

@[simp] theorem WorkUnit.setTileWord_uid (x : WorkUnit) (t w : Nat) (v : Word) : (x.setTileWord t w v).uid = x.uid := rfl
@[simp] theorem WorkUnit.setTileWord_mbx (x : WorkUnit) (t w : Nat) (v : Word) : (x.setTileWord t w v).mbx = x.mbx := rfl
@[simp] theorem WorkUnit.setTileWord_seq (x : WorkUnit) (t w : Nat) (v : Word) : (x.setTileWord t w v).seq = x.seq := rfl
@[simp] theorem WorkUnit.setTileWord_idx (x : WorkUnit) (t w : Nat) (v : Word) : (x.setTileWord t w v).idx = x.idx := rfl
@[simp] theorem WorkUnit.setTileWord_record (x : WorkUnit) (t w : Nat) (v : Word) : (x.setTileWord t w v).record = x.record := rfl
@[simp] theorem WorkUnit.setTileWord_msgLen (x : WorkUnit) (t w : Nat) (v : Word) : (x.setTileWord t w v).msgLen = x.msgLen := rfl
@[simp] theorem WorkUnit.setTileWord_res (x : WorkUnit) (t w : Nat) (v : Word) : (x.setTileWord t w v).res = x.res := rfl
@[simp] theorem WorkUnit.setTileWord_core (x : WorkUnit) (t w : Nat) (v : Word) : (x.setTileWord t w v).core = x.core := rfl
@[simp] theorem WorkUnit.setTileWord_runnable (x : WorkUnit) (t w : Nat) (v : Word) : (x.setTileWord t w v).runnable = x.runnable := rfl
@[simp] theorem WorkUnit.setTileWord_groups (x : WorkUnit) (t w : Nat) (v : Word) : (x.setTileWord t w v).groups = x.groups := rfl
@[simp] theorem WorkUnit.setTileWord_cvs (x : WorkUnit) (t w : Nat) (v : Word) : (x.setTileWord t w v).cvs = x.cvs := rfl
@[simp] theorem WorkUnit.setTileWord_bars (x : WorkUnit) (t w : Nat) (v : Word) : (x.setTileWord t w v).bars = x.bars := rfl
@[simp] theorem WorkUnit.setTileWord_fas (x : WorkUnit) (t w : Nat) (v : Word) : (x.setTileWord t w v).fas = x.fas := rfl
@[simp] theorem WorkUnit.setTileWord_ym (x : WorkUnit) (t w : Nat) (v : Word) : (x.setTileWord t w v).ym = x.ym := rfl
@[simp] theorem WorkUnit.setTileWord_xm (x : WorkUnit) (t w : Nat) (v : Word) : (x.setTileWord t w v).xm = x.xm := rfl
@[simp] theorem WorkUnit.setTileWord_panels (x : WorkUnit) (t w : Nat) (v : Word) : (x.setTileWord t w v).panels = x.panels := rfl
@[simp] theorem WorkUnit.setTileWord_ops (x : WorkUnit) (t w : Nat) (v : Word) : (x.setTileWord t w v).ops = x.ops := rfl
@[simp] theorem WorkUnit.setTileWord_nextOp (x : WorkUnit) (t w : Nat) (v : Word) : (x.setTileWord t w v).nextOp = x.nextOp := rfl
@[simp] theorem WorkUnit.setTileWord_stop (x : WorkUnit) (t w : Nat) (v : Word) : (x.setTileWord t w v).stop = x.stop := rfl
@[simp] theorem WorkUnit.setTileWord_stopAt (x : WorkUnit) (t w : Nat) (v : Word) : (x.setTileWord t w v).stopAt = x.stopAt := rfl
@[simp] theorem WorkUnit.setTileWord_status (x : WorkUnit) (t w : Nat) (v : Word) : (x.setTileWord t w v).status = x.status := rfl
@[simp] theorem WorkUnit.setTileWord_threads (x : WorkUnit) (t w : Nat) (v : Word) : (x.setTileWord t w v).threads = x.threads := rfl
@[simp] theorem WorkUnit.setTileWord_places (x : WorkUnit) (t w : Nat) (v : Word) : (x.setTileWord t w v).places = x.places := rfl
@[simp] theorem WorkUnit.setTileWord_saver (x : WorkUnit) (t w : Nat) (v : Word) : (x.setTileWord t w v).saver = x.saver := rfl

@[simp] theorem WorkUnit.raiseIn_uid (x : WorkUnit) (m fl : Nat) : (x.raiseIn m fl).uid = x.uid := rfl
@[simp] theorem WorkUnit.raiseIn_mbx (x : WorkUnit) (m fl : Nat) : (x.raiseIn m fl).mbx = x.mbx := rfl
@[simp] theorem WorkUnit.raiseIn_seq (x : WorkUnit) (m fl : Nat) : (x.raiseIn m fl).seq = x.seq := rfl
@[simp] theorem WorkUnit.raiseIn_idx (x : WorkUnit) (m fl : Nat) : (x.raiseIn m fl).idx = x.idx := rfl
@[simp] theorem WorkUnit.raiseIn_record (x : WorkUnit) (m fl : Nat) : (x.raiseIn m fl).record = x.record := rfl
@[simp] theorem WorkUnit.raiseIn_msgLen (x : WorkUnit) (m fl : Nat) : (x.raiseIn m fl).msgLen = x.msgLen := rfl
@[simp] theorem WorkUnit.raiseIn_res (x : WorkUnit) (m fl : Nat) : (x.raiseIn m fl).res = x.res := rfl
@[simp] theorem WorkUnit.raiseIn_core (x : WorkUnit) (m fl : Nat) : (x.raiseIn m fl).core = x.core := rfl
@[simp] theorem WorkUnit.raiseIn_runnable (x : WorkUnit) (m fl : Nat) : (x.raiseIn m fl).runnable = x.runnable := rfl
@[simp] theorem WorkUnit.raiseIn_cvs (x : WorkUnit) (m fl : Nat) : (x.raiseIn m fl).cvs = x.cvs := rfl
@[simp] theorem WorkUnit.raiseIn_bars (x : WorkUnit) (m fl : Nat) : (x.raiseIn m fl).bars = x.bars := rfl
@[simp] theorem WorkUnit.raiseIn_tiles (x : WorkUnit) (m fl : Nat) : (x.raiseIn m fl).tiles = x.tiles := rfl
@[simp] theorem WorkUnit.raiseIn_fas (x : WorkUnit) (m fl : Nat) : (x.raiseIn m fl).fas = x.fas := rfl
@[simp] theorem WorkUnit.raiseIn_ym (x : WorkUnit) (m fl : Nat) : (x.raiseIn m fl).ym = x.ym := rfl
@[simp] theorem WorkUnit.raiseIn_xm (x : WorkUnit) (m fl : Nat) : (x.raiseIn m fl).xm = x.xm := rfl
@[simp] theorem WorkUnit.raiseIn_panels (x : WorkUnit) (m fl : Nat) : (x.raiseIn m fl).panels = x.panels := rfl
@[simp] theorem WorkUnit.raiseIn_ops (x : WorkUnit) (m fl : Nat) : (x.raiseIn m fl).ops = x.ops := rfl
@[simp] theorem WorkUnit.raiseIn_nextOp (x : WorkUnit) (m fl : Nat) : (x.raiseIn m fl).nextOp = x.nextOp := rfl
@[simp] theorem WorkUnit.raiseIn_stop (x : WorkUnit) (m fl : Nat) : (x.raiseIn m fl).stop = x.stop := rfl
@[simp] theorem WorkUnit.raiseIn_stopAt (x : WorkUnit) (m fl : Nat) : (x.raiseIn m fl).stopAt = x.stopAt := rfl
@[simp] theorem WorkUnit.raiseIn_status (x : WorkUnit) (m fl : Nat) : (x.raiseIn m fl).status = x.status := rfl
@[simp] theorem WorkUnit.raiseIn_threads (x : WorkUnit) (m fl : Nat) : (x.raiseIn m fl).threads = x.threads := rfl
@[simp] theorem WorkUnit.raiseIn_places (x : WorkUnit) (m fl : Nat) : (x.raiseIn m fl).places = x.places := rfl
@[simp] theorem WorkUnit.raiseIn_saver (x : WorkUnit) (m fl : Nat) : (x.raiseIn m fl).saver = x.saver := rfl

@[simp] theorem Group.setLane_bcast (x : Group) (l : Nat) (y : Lane) : (x.setLane l y).bcast = x.bcast := rfl
@[simp] theorem Group.setLane_v (x : Group) (l : Nat) (y : Lane) : (x.setLane l y).v = x.v := rfl
@[simp] theorem Group.setLane_vOld (x : Group) (l : Nat) (y : Lane) : (x.setLane l y).vOld = x.vOld := rfl
@[simp] theorem Group.setLane_ve (x : Group) (l : Nat) (y : Lane) : (x.setLane l y).ve = x.ve := rfl
@[simp] theorem Group.setLane_s (x : Group) (l : Nat) (y : Lane) : (x.setLane l y).s = x.s := rfl
@[simp] theorem Group.setLane_se (x : Group) (l : Nat) (y : Lane) : (x.setLane l y).se = x.se := rfl
@[simp] theorem Group.setLane_m (x : Group) (l : Nat) (y : Lane) : (x.setLane l y).m = x.m := rfl
@[simp] theorem Group.setLane_regc (x : Group) (l : Nat) (y : Lane) : (x.setLane l y).regc = x.regc := rfl
@[simp] theorem Group.setLane_sticky (x : Group) (l : Nat) (y : Lane) : (x.setLane l y).sticky = x.sticky := rfl
@[simp] theorem Group.setLane_cond (x : Group) (l : Nat) (y : Lane) : (x.setLane l y).cond = x.cond := rfl
@[simp] theorem Group.setLane_dq (x : Group) (l : Nat) (y : Lane) : (x.setLane l y).dq = x.dq := rfl
@[simp] theorem Group.setLane_sp (x : Group) (l : Nat) (y : Lane) : (x.setLane l y).sp = x.sp := rfl
@[simp] theorem Group.setLane_binds (x : Group) (l : Nat) (y : Lane) : (x.setLane l y).binds = x.binds := rfl
@[simp] theorem Group.setLane_acqs (x : Group) (l : Nat) (y : Lane) : (x.setLane l y).acqs = x.acqs := rfl
@[simp] theorem Group.setLane_stack (x : Group) (l : Nat) (y : Lane) : (x.setLane l y).stack = x.stack := rfl
@[simp] theorem Group.setLane_inflight (x : Group) (l : Nat) (y : Lane) : (x.setLane l y).inflight = x.inflight := rfl
@[simp] theorem Group.setLane_thr (x : Group) (l : Nat) (y : Lane) : (x.setLane l y).thr = x.thr := rfl
@[simp] theorem Group.setLane_sbuf (x : Group) (l : Nat) (y : Lane) : (x.setLane l y).sbuf = x.sbuf := rfl
@[simp] theorem Group.setLane_fences (x : Group) (l : Nat) (y : Lane) : (x.setLane l y).fences = x.fences := rfl
@[simp] theorem Group.setLane_permit (x : Group) (l : Nat) (y : Lane) : (x.setLane l y).permit = x.permit := rfl
@[simp] theorem Group.setLane_permitWait (x : Group) (l : Nat) (y : Lane) : (x.setLane l y).permitWait = x.permitWait := rfl
@[simp] theorem Group.setLane_spilled (x : Group) (l : Nat) (y : Lane) : (x.setLane l y).spilled = x.spilled := rfl
@[simp] theorem Group.setLane_backing (x : Group) (l : Nat) (y : Lane) : (x.setLane l y).backing = x.backing := rfl
@[simp] theorem Group.setLane_wrote (x : Group) (l : Nat) (y : Lane) : (x.setLane l y).wrote = x.wrote := rfl
@[simp] theorem Group.setLane_spAt (x : Group) (l : Nat) (y : Lane) : (x.setLane l y).spAt = x.spAt := rfl
@[simp] theorem Group.setLane_lastIssue (x : Group) (l : Nat) (y : Lane) : (x.setLane l y).lastIssue = x.lastIssue := rfl
@[simp] theorem Group.setLane_raised (x : Group) (l : Nat) (y : Lane) : (x.setLane l y).raised = x.raised := rfl
@[simp] theorem Group.setLane_tow (x : Group) (l : Nat) (y : Lane) : (x.setLane l y).tow = x.tow := rfl
@[simp] theorem Group.setLane_ibuf (x : Group) (l : Nat) (y : Lane) : (x.setLane l y).ibuf = x.ibuf := rfl
@[simp] theorem Group.setLane_blocked (x : Group) (l : Nat) (y : Lane) : (x.setLane l y).blocked = x.blocked := rfl
@[simp] theorem Group.setLane_holes (x : Group) (l : Nat) (y : Lane) : (x.setLane l y).holes = x.holes := rfl
@[simp] theorem Group.setLane_seq (x : Group) (l : Nat) (y : Lane) : (x.setLane l y).seq = x.seq := rfl
@[simp] theorem Group.setLane_spSeq (x : Group) (l : Nat) (y : Lane) : (x.setLane l y).spSeq = x.spSeq := rfl
@[simp] theorem Group.setLane_peerRead (x : Group) (l : Nat) (y : Lane) : (x.setLane l y).peerRead = x.peerRead := rfl
@[simp] theorem Group.setLane_passed (x : Group) (l : Nat) (y : Lane) : (x.setLane l y).passed = x.passed := rfl
@[simp] theorem Group.setLane_lastPc (x : Group) (l : Nat) (y : Lane) : (x.setLane l y).lastPc = x.lastPc := rfl
@[simp] theorem Group.setLane_lastSeq (x : Group) (l : Nat) (y : Lane) : (x.setLane l y).lastSeq = x.lastSeq := rfl
@[simp] theorem Group.setLane_lastLanes (x : Group) (l : Nat) (y : Lane) : (x.setLane l y).lastLanes = x.lastLanes := rfl

@[simp] theorem Group.setLanes_bcast (x : Group) (ls : List Nat) (f : Nat → Lane → Lane) : (x.setLanes ls f).bcast = x.bcast := rfl
@[simp] theorem Group.setLanes_v (x : Group) (ls : List Nat) (f : Nat → Lane → Lane) : (x.setLanes ls f).v = x.v := rfl
@[simp] theorem Group.setLanes_vOld (x : Group) (ls : List Nat) (f : Nat → Lane → Lane) : (x.setLanes ls f).vOld = x.vOld := rfl
@[simp] theorem Group.setLanes_ve (x : Group) (ls : List Nat) (f : Nat → Lane → Lane) : (x.setLanes ls f).ve = x.ve := rfl
@[simp] theorem Group.setLanes_s (x : Group) (ls : List Nat) (f : Nat → Lane → Lane) : (x.setLanes ls f).s = x.s := rfl
@[simp] theorem Group.setLanes_se (x : Group) (ls : List Nat) (f : Nat → Lane → Lane) : (x.setLanes ls f).se = x.se := rfl
@[simp] theorem Group.setLanes_m (x : Group) (ls : List Nat) (f : Nat → Lane → Lane) : (x.setLanes ls f).m = x.m := rfl
@[simp] theorem Group.setLanes_regc (x : Group) (ls : List Nat) (f : Nat → Lane → Lane) : (x.setLanes ls f).regc = x.regc := rfl
@[simp] theorem Group.setLanes_sticky (x : Group) (ls : List Nat) (f : Nat → Lane → Lane) : (x.setLanes ls f).sticky = x.sticky := rfl
@[simp] theorem Group.setLanes_cond (x : Group) (ls : List Nat) (f : Nat → Lane → Lane) : (x.setLanes ls f).cond = x.cond := rfl
@[simp] theorem Group.setLanes_dq (x : Group) (ls : List Nat) (f : Nat → Lane → Lane) : (x.setLanes ls f).dq = x.dq := rfl
@[simp] theorem Group.setLanes_sp (x : Group) (ls : List Nat) (f : Nat → Lane → Lane) : (x.setLanes ls f).sp = x.sp := rfl
@[simp] theorem Group.setLanes_binds (x : Group) (ls : List Nat) (f : Nat → Lane → Lane) : (x.setLanes ls f).binds = x.binds := rfl
@[simp] theorem Group.setLanes_acqs (x : Group) (ls : List Nat) (f : Nat → Lane → Lane) : (x.setLanes ls f).acqs = x.acqs := rfl
@[simp] theorem Group.setLanes_stack (x : Group) (ls : List Nat) (f : Nat → Lane → Lane) : (x.setLanes ls f).stack = x.stack := rfl
@[simp] theorem Group.setLanes_inflight (x : Group) (ls : List Nat) (f : Nat → Lane → Lane) : (x.setLanes ls f).inflight = x.inflight := rfl
@[simp] theorem Group.setLanes_thr (x : Group) (ls : List Nat) (f : Nat → Lane → Lane) : (x.setLanes ls f).thr = x.thr := rfl
@[simp] theorem Group.setLanes_sbuf (x : Group) (ls : List Nat) (f : Nat → Lane → Lane) : (x.setLanes ls f).sbuf = x.sbuf := rfl
@[simp] theorem Group.setLanes_fences (x : Group) (ls : List Nat) (f : Nat → Lane → Lane) : (x.setLanes ls f).fences = x.fences := rfl
@[simp] theorem Group.setLanes_permit (x : Group) (ls : List Nat) (f : Nat → Lane → Lane) : (x.setLanes ls f).permit = x.permit := rfl
@[simp] theorem Group.setLanes_permitWait (x : Group) (ls : List Nat) (f : Nat → Lane → Lane) : (x.setLanes ls f).permitWait = x.permitWait := rfl
@[simp] theorem Group.setLanes_spilled (x : Group) (ls : List Nat) (f : Nat → Lane → Lane) : (x.setLanes ls f).spilled = x.spilled := rfl
@[simp] theorem Group.setLanes_backing (x : Group) (ls : List Nat) (f : Nat → Lane → Lane) : (x.setLanes ls f).backing = x.backing := rfl
@[simp] theorem Group.setLanes_wrote (x : Group) (ls : List Nat) (f : Nat → Lane → Lane) : (x.setLanes ls f).wrote = x.wrote := rfl
@[simp] theorem Group.setLanes_spAt (x : Group) (ls : List Nat) (f : Nat → Lane → Lane) : (x.setLanes ls f).spAt = x.spAt := rfl
@[simp] theorem Group.setLanes_lastIssue (x : Group) (ls : List Nat) (f : Nat → Lane → Lane) : (x.setLanes ls f).lastIssue = x.lastIssue := rfl
@[simp] theorem Group.setLanes_raised (x : Group) (ls : List Nat) (f : Nat → Lane → Lane) : (x.setLanes ls f).raised = x.raised := rfl
@[simp] theorem Group.setLanes_tow (x : Group) (ls : List Nat) (f : Nat → Lane → Lane) : (x.setLanes ls f).tow = x.tow := rfl
@[simp] theorem Group.setLanes_ibuf (x : Group) (ls : List Nat) (f : Nat → Lane → Lane) : (x.setLanes ls f).ibuf = x.ibuf := rfl
@[simp] theorem Group.setLanes_blocked (x : Group) (ls : List Nat) (f : Nat → Lane → Lane) : (x.setLanes ls f).blocked = x.blocked := rfl
@[simp] theorem Group.setLanes_holes (x : Group) (ls : List Nat) (f : Nat → Lane → Lane) : (x.setLanes ls f).holes = x.holes := rfl
@[simp] theorem Group.setLanes_seq (x : Group) (ls : List Nat) (f : Nat → Lane → Lane) : (x.setLanes ls f).seq = x.seq := rfl
@[simp] theorem Group.setLanes_spSeq (x : Group) (ls : List Nat) (f : Nat → Lane → Lane) : (x.setLanes ls f).spSeq = x.spSeq := rfl
@[simp] theorem Group.setLanes_peerRead (x : Group) (ls : List Nat) (f : Nat → Lane → Lane) : (x.setLanes ls f).peerRead = x.peerRead := rfl
@[simp] theorem Group.setLanes_passed (x : Group) (ls : List Nat) (f : Nat → Lane → Lane) : (x.setLanes ls f).passed = x.passed := rfl
@[simp] theorem Group.setLanes_lastPc (x : Group) (ls : List Nat) (f : Nat → Lane → Lane) : (x.setLanes ls f).lastPc = x.lastPc := rfl
@[simp] theorem Group.setLanes_lastSeq (x : Group) (ls : List Nat) (f : Nat → Lane → Lane) : (x.setLanes ls f).lastSeq = x.lastSeq := rfl
@[simp] theorem Group.setLanes_lastLanes (x : Group) (ls : List Nat) (f : Nat → Lane → Lane) : (x.setLanes ls f).lastLanes = x.lastLanes := rfl

@[simp] theorem Group.putV_bcast (x : Group) (l n : Nat) (w : Word) : (x.putV l n w).bcast = x.bcast := rfl
@[simp] theorem Group.putV_lanes (x : Group) (l n : Nat) (w : Word) : (x.putV l n w).lanes = x.lanes := rfl
@[simp] theorem Group.putV_vOld (x : Group) (l n : Nat) (w : Word) : (x.putV l n w).vOld = x.vOld := rfl
@[simp] theorem Group.putV_ve (x : Group) (l n : Nat) (w : Word) : (x.putV l n w).ve = x.ve := rfl
@[simp] theorem Group.putV_s (x : Group) (l n : Nat) (w : Word) : (x.putV l n w).s = x.s := rfl
@[simp] theorem Group.putV_se (x : Group) (l n : Nat) (w : Word) : (x.putV l n w).se = x.se := rfl
@[simp] theorem Group.putV_m (x : Group) (l n : Nat) (w : Word) : (x.putV l n w).m = x.m := rfl
@[simp] theorem Group.putV_regc (x : Group) (l n : Nat) (w : Word) : (x.putV l n w).regc = x.regc := rfl
@[simp] theorem Group.putV_sticky (x : Group) (l n : Nat) (w : Word) : (x.putV l n w).sticky = x.sticky := rfl
@[simp] theorem Group.putV_cond (x : Group) (l n : Nat) (w : Word) : (x.putV l n w).cond = x.cond := rfl
@[simp] theorem Group.putV_dq (x : Group) (l n : Nat) (w : Word) : (x.putV l n w).dq = x.dq := rfl
@[simp] theorem Group.putV_sp (x : Group) (l n : Nat) (w : Word) : (x.putV l n w).sp = x.sp := rfl
@[simp] theorem Group.putV_binds (x : Group) (l n : Nat) (w : Word) : (x.putV l n w).binds = x.binds := rfl
@[simp] theorem Group.putV_acqs (x : Group) (l n : Nat) (w : Word) : (x.putV l n w).acqs = x.acqs := rfl
@[simp] theorem Group.putV_stack (x : Group) (l n : Nat) (w : Word) : (x.putV l n w).stack = x.stack := rfl
@[simp] theorem Group.putV_inflight (x : Group) (l n : Nat) (w : Word) : (x.putV l n w).inflight = x.inflight := rfl
@[simp] theorem Group.putV_thr (x : Group) (l n : Nat) (w : Word) : (x.putV l n w).thr = x.thr := rfl
@[simp] theorem Group.putV_sbuf (x : Group) (l n : Nat) (w : Word) : (x.putV l n w).sbuf = x.sbuf := rfl
@[simp] theorem Group.putV_fences (x : Group) (l n : Nat) (w : Word) : (x.putV l n w).fences = x.fences := rfl
@[simp] theorem Group.putV_permit (x : Group) (l n : Nat) (w : Word) : (x.putV l n w).permit = x.permit := rfl
@[simp] theorem Group.putV_permitWait (x : Group) (l n : Nat) (w : Word) : (x.putV l n w).permitWait = x.permitWait := rfl
@[simp] theorem Group.putV_spilled (x : Group) (l n : Nat) (w : Word) : (x.putV l n w).spilled = x.spilled := rfl
@[simp] theorem Group.putV_backing (x : Group) (l n : Nat) (w : Word) : (x.putV l n w).backing = x.backing := rfl
@[simp] theorem Group.putV_wrote (x : Group) (l n : Nat) (w : Word) : (x.putV l n w).wrote = x.wrote := rfl
@[simp] theorem Group.putV_spAt (x : Group) (l n : Nat) (w : Word) : (x.putV l n w).spAt = x.spAt := rfl
@[simp] theorem Group.putV_lastIssue (x : Group) (l n : Nat) (w : Word) : (x.putV l n w).lastIssue = x.lastIssue := rfl
@[simp] theorem Group.putV_raised (x : Group) (l n : Nat) (w : Word) : (x.putV l n w).raised = x.raised := rfl
@[simp] theorem Group.putV_tow (x : Group) (l n : Nat) (w : Word) : (x.putV l n w).tow = x.tow := rfl
@[simp] theorem Group.putV_ibuf (x : Group) (l n : Nat) (w : Word) : (x.putV l n w).ibuf = x.ibuf := rfl
@[simp] theorem Group.putV_blocked (x : Group) (l n : Nat) (w : Word) : (x.putV l n w).blocked = x.blocked := rfl
@[simp] theorem Group.putV_holes (x : Group) (l n : Nat) (w : Word) : (x.putV l n w).holes = x.holes := rfl
@[simp] theorem Group.putV_seq (x : Group) (l n : Nat) (w : Word) : (x.putV l n w).seq = x.seq := rfl
@[simp] theorem Group.putV_spSeq (x : Group) (l n : Nat) (w : Word) : (x.putV l n w).spSeq = x.spSeq := rfl
@[simp] theorem Group.putV_peerRead (x : Group) (l n : Nat) (w : Word) : (x.putV l n w).peerRead = x.peerRead := rfl
@[simp] theorem Group.putV_passed (x : Group) (l n : Nat) (w : Word) : (x.putV l n w).passed = x.passed := rfl
@[simp] theorem Group.putV_lastPc (x : Group) (l n : Nat) (w : Word) : (x.putV l n w).lastPc = x.lastPc := rfl
@[simp] theorem Group.putV_lastSeq (x : Group) (l n : Nat) (w : Word) : (x.putV l n w).lastSeq = x.lastSeq := rfl
@[simp] theorem Group.putV_lastLanes (x : Group) (l n : Nat) (w : Word) : (x.putV l n w).lastLanes = x.lastLanes := rfl

@[simp] theorem Group.markV_bcast (x : Group) (l n : Nat) (b : Bool) : (x.markV l n b).bcast = x.bcast := rfl
@[simp] theorem Group.markV_lanes (x : Group) (l n : Nat) (b : Bool) : (x.markV l n b).lanes = x.lanes := rfl
@[simp] theorem Group.markV_v (x : Group) (l n : Nat) (b : Bool) : (x.markV l n b).v = x.v := rfl
@[simp] theorem Group.markV_vOld (x : Group) (l n : Nat) (b : Bool) : (x.markV l n b).vOld = x.vOld := rfl
@[simp] theorem Group.markV_s (x : Group) (l n : Nat) (b : Bool) : (x.markV l n b).s = x.s := rfl
@[simp] theorem Group.markV_se (x : Group) (l n : Nat) (b : Bool) : (x.markV l n b).se = x.se := rfl
@[simp] theorem Group.markV_m (x : Group) (l n : Nat) (b : Bool) : (x.markV l n b).m = x.m := rfl
@[simp] theorem Group.markV_regc (x : Group) (l n : Nat) (b : Bool) : (x.markV l n b).regc = x.regc := rfl
@[simp] theorem Group.markV_sticky (x : Group) (l n : Nat) (b : Bool) : (x.markV l n b).sticky = x.sticky := rfl
@[simp] theorem Group.markV_cond (x : Group) (l n : Nat) (b : Bool) : (x.markV l n b).cond = x.cond := rfl
@[simp] theorem Group.markV_dq (x : Group) (l n : Nat) (b : Bool) : (x.markV l n b).dq = x.dq := rfl
@[simp] theorem Group.markV_sp (x : Group) (l n : Nat) (b : Bool) : (x.markV l n b).sp = x.sp := rfl
@[simp] theorem Group.markV_binds (x : Group) (l n : Nat) (b : Bool) : (x.markV l n b).binds = x.binds := rfl
@[simp] theorem Group.markV_acqs (x : Group) (l n : Nat) (b : Bool) : (x.markV l n b).acqs = x.acqs := rfl
@[simp] theorem Group.markV_stack (x : Group) (l n : Nat) (b : Bool) : (x.markV l n b).stack = x.stack := rfl
@[simp] theorem Group.markV_inflight (x : Group) (l n : Nat) (b : Bool) : (x.markV l n b).inflight = x.inflight := rfl
@[simp] theorem Group.markV_thr (x : Group) (l n : Nat) (b : Bool) : (x.markV l n b).thr = x.thr := rfl
@[simp] theorem Group.markV_sbuf (x : Group) (l n : Nat) (b : Bool) : (x.markV l n b).sbuf = x.sbuf := rfl
@[simp] theorem Group.markV_fences (x : Group) (l n : Nat) (b : Bool) : (x.markV l n b).fences = x.fences := rfl
@[simp] theorem Group.markV_permit (x : Group) (l n : Nat) (b : Bool) : (x.markV l n b).permit = x.permit := rfl
@[simp] theorem Group.markV_permitWait (x : Group) (l n : Nat) (b : Bool) : (x.markV l n b).permitWait = x.permitWait := rfl
@[simp] theorem Group.markV_spilled (x : Group) (l n : Nat) (b : Bool) : (x.markV l n b).spilled = x.spilled := rfl
@[simp] theorem Group.markV_backing (x : Group) (l n : Nat) (b : Bool) : (x.markV l n b).backing = x.backing := rfl
@[simp] theorem Group.markV_wrote (x : Group) (l n : Nat) (b : Bool) : (x.markV l n b).wrote = x.wrote := rfl
@[simp] theorem Group.markV_spAt (x : Group) (l n : Nat) (b : Bool) : (x.markV l n b).spAt = x.spAt := rfl
@[simp] theorem Group.markV_lastIssue (x : Group) (l n : Nat) (b : Bool) : (x.markV l n b).lastIssue = x.lastIssue := rfl
@[simp] theorem Group.markV_raised (x : Group) (l n : Nat) (b : Bool) : (x.markV l n b).raised = x.raised := rfl
@[simp] theorem Group.markV_tow (x : Group) (l n : Nat) (b : Bool) : (x.markV l n b).tow = x.tow := rfl
@[simp] theorem Group.markV_ibuf (x : Group) (l n : Nat) (b : Bool) : (x.markV l n b).ibuf = x.ibuf := rfl
@[simp] theorem Group.markV_blocked (x : Group) (l n : Nat) (b : Bool) : (x.markV l n b).blocked = x.blocked := rfl
@[simp] theorem Group.markV_holes (x : Group) (l n : Nat) (b : Bool) : (x.markV l n b).holes = x.holes := rfl
@[simp] theorem Group.markV_seq (x : Group) (l n : Nat) (b : Bool) : (x.markV l n b).seq = x.seq := rfl
@[simp] theorem Group.markV_spSeq (x : Group) (l n : Nat) (b : Bool) : (x.markV l n b).spSeq = x.spSeq := rfl
@[simp] theorem Group.markV_peerRead (x : Group) (l n : Nat) (b : Bool) : (x.markV l n b).peerRead = x.peerRead := rfl
@[simp] theorem Group.markV_passed (x : Group) (l n : Nat) (b : Bool) : (x.markV l n b).passed = x.passed := rfl
@[simp] theorem Group.markV_lastPc (x : Group) (l n : Nat) (b : Bool) : (x.markV l n b).lastPc = x.lastPc := rfl
@[simp] theorem Group.markV_lastSeq (x : Group) (l n : Nat) (b : Bool) : (x.markV l n b).lastSeq = x.lastSeq := rfl
@[simp] theorem Group.markV_lastLanes (x : Group) (l n : Nat) (b : Bool) : (x.markV l n b).lastLanes = x.lastLanes := rfl

@[simp] theorem Group.putS_bcast (x : Group) (n : Nat) (w : DWord) : (x.putS n w).bcast = x.bcast := rfl
@[simp] theorem Group.putS_lanes (x : Group) (n : Nat) (w : DWord) : (x.putS n w).lanes = x.lanes := rfl
@[simp] theorem Group.putS_v (x : Group) (n : Nat) (w : DWord) : (x.putS n w).v = x.v := rfl
@[simp] theorem Group.putS_vOld (x : Group) (n : Nat) (w : DWord) : (x.putS n w).vOld = x.vOld := rfl
@[simp] theorem Group.putS_ve (x : Group) (n : Nat) (w : DWord) : (x.putS n w).ve = x.ve := rfl
@[simp] theorem Group.putS_se (x : Group) (n : Nat) (w : DWord) : (x.putS n w).se = x.se := rfl
@[simp] theorem Group.putS_m (x : Group) (n : Nat) (w : DWord) : (x.putS n w).m = x.m := rfl
@[simp] theorem Group.putS_regc (x : Group) (n : Nat) (w : DWord) : (x.putS n w).regc = x.regc := rfl
@[simp] theorem Group.putS_sticky (x : Group) (n : Nat) (w : DWord) : (x.putS n w).sticky = x.sticky := rfl
@[simp] theorem Group.putS_cond (x : Group) (n : Nat) (w : DWord) : (x.putS n w).cond = x.cond := rfl
@[simp] theorem Group.putS_dq (x : Group) (n : Nat) (w : DWord) : (x.putS n w).dq = x.dq := rfl
@[simp] theorem Group.putS_sp (x : Group) (n : Nat) (w : DWord) : (x.putS n w).sp = x.sp := rfl
@[simp] theorem Group.putS_binds (x : Group) (n : Nat) (w : DWord) : (x.putS n w).binds = x.binds := rfl
@[simp] theorem Group.putS_acqs (x : Group) (n : Nat) (w : DWord) : (x.putS n w).acqs = x.acqs := rfl
@[simp] theorem Group.putS_stack (x : Group) (n : Nat) (w : DWord) : (x.putS n w).stack = x.stack := rfl
@[simp] theorem Group.putS_inflight (x : Group) (n : Nat) (w : DWord) : (x.putS n w).inflight = x.inflight := rfl
@[simp] theorem Group.putS_thr (x : Group) (n : Nat) (w : DWord) : (x.putS n w).thr = x.thr := rfl
@[simp] theorem Group.putS_sbuf (x : Group) (n : Nat) (w : DWord) : (x.putS n w).sbuf = x.sbuf := rfl
@[simp] theorem Group.putS_fences (x : Group) (n : Nat) (w : DWord) : (x.putS n w).fences = x.fences := rfl
@[simp] theorem Group.putS_permit (x : Group) (n : Nat) (w : DWord) : (x.putS n w).permit = x.permit := rfl
@[simp] theorem Group.putS_permitWait (x : Group) (n : Nat) (w : DWord) : (x.putS n w).permitWait = x.permitWait := rfl
@[simp] theorem Group.putS_spilled (x : Group) (n : Nat) (w : DWord) : (x.putS n w).spilled = x.spilled := rfl
@[simp] theorem Group.putS_backing (x : Group) (n : Nat) (w : DWord) : (x.putS n w).backing = x.backing := rfl
@[simp] theorem Group.putS_wrote (x : Group) (n : Nat) (w : DWord) : (x.putS n w).wrote = x.wrote := rfl
@[simp] theorem Group.putS_spAt (x : Group) (n : Nat) (w : DWord) : (x.putS n w).spAt = x.spAt := rfl
@[simp] theorem Group.putS_lastIssue (x : Group) (n : Nat) (w : DWord) : (x.putS n w).lastIssue = x.lastIssue := rfl
@[simp] theorem Group.putS_raised (x : Group) (n : Nat) (w : DWord) : (x.putS n w).raised = x.raised := rfl
@[simp] theorem Group.putS_tow (x : Group) (n : Nat) (w : DWord) : (x.putS n w).tow = x.tow := rfl
@[simp] theorem Group.putS_ibuf (x : Group) (n : Nat) (w : DWord) : (x.putS n w).ibuf = x.ibuf := rfl
@[simp] theorem Group.putS_blocked (x : Group) (n : Nat) (w : DWord) : (x.putS n w).blocked = x.blocked := rfl
@[simp] theorem Group.putS_holes (x : Group) (n : Nat) (w : DWord) : (x.putS n w).holes = x.holes := rfl
@[simp] theorem Group.putS_seq (x : Group) (n : Nat) (w : DWord) : (x.putS n w).seq = x.seq := rfl
@[simp] theorem Group.putS_spSeq (x : Group) (n : Nat) (w : DWord) : (x.putS n w).spSeq = x.spSeq := rfl
@[simp] theorem Group.putS_peerRead (x : Group) (n : Nat) (w : DWord) : (x.putS n w).peerRead = x.peerRead := rfl
@[simp] theorem Group.putS_passed (x : Group) (n : Nat) (w : DWord) : (x.putS n w).passed = x.passed := rfl
@[simp] theorem Group.putS_lastPc (x : Group) (n : Nat) (w : DWord) : (x.putS n w).lastPc = x.lastPc := rfl
@[simp] theorem Group.putS_lastSeq (x : Group) (n : Nat) (w : DWord) : (x.putS n w).lastSeq = x.lastSeq := rfl
@[simp] theorem Group.putS_lastLanes (x : Group) (n : Nat) (w : DWord) : (x.putS n w).lastLanes = x.lastLanes := rfl

@[simp] theorem Group.markS_bcast (x : Group) (n : Nat) (b : Bool) : (x.markS n b).bcast = x.bcast := rfl
@[simp] theorem Group.markS_lanes (x : Group) (n : Nat) (b : Bool) : (x.markS n b).lanes = x.lanes := rfl
@[simp] theorem Group.markS_v (x : Group) (n : Nat) (b : Bool) : (x.markS n b).v = x.v := rfl
@[simp] theorem Group.markS_vOld (x : Group) (n : Nat) (b : Bool) : (x.markS n b).vOld = x.vOld := rfl
@[simp] theorem Group.markS_ve (x : Group) (n : Nat) (b : Bool) : (x.markS n b).ve = x.ve := rfl
@[simp] theorem Group.markS_s (x : Group) (n : Nat) (b : Bool) : (x.markS n b).s = x.s := rfl
@[simp] theorem Group.markS_m (x : Group) (n : Nat) (b : Bool) : (x.markS n b).m = x.m := rfl
@[simp] theorem Group.markS_regc (x : Group) (n : Nat) (b : Bool) : (x.markS n b).regc = x.regc := rfl
@[simp] theorem Group.markS_sticky (x : Group) (n : Nat) (b : Bool) : (x.markS n b).sticky = x.sticky := rfl
@[simp] theorem Group.markS_cond (x : Group) (n : Nat) (b : Bool) : (x.markS n b).cond = x.cond := rfl
@[simp] theorem Group.markS_dq (x : Group) (n : Nat) (b : Bool) : (x.markS n b).dq = x.dq := rfl
@[simp] theorem Group.markS_sp (x : Group) (n : Nat) (b : Bool) : (x.markS n b).sp = x.sp := rfl
@[simp] theorem Group.markS_binds (x : Group) (n : Nat) (b : Bool) : (x.markS n b).binds = x.binds := rfl
@[simp] theorem Group.markS_acqs (x : Group) (n : Nat) (b : Bool) : (x.markS n b).acqs = x.acqs := rfl
@[simp] theorem Group.markS_stack (x : Group) (n : Nat) (b : Bool) : (x.markS n b).stack = x.stack := rfl
@[simp] theorem Group.markS_inflight (x : Group) (n : Nat) (b : Bool) : (x.markS n b).inflight = x.inflight := rfl
@[simp] theorem Group.markS_thr (x : Group) (n : Nat) (b : Bool) : (x.markS n b).thr = x.thr := rfl
@[simp] theorem Group.markS_sbuf (x : Group) (n : Nat) (b : Bool) : (x.markS n b).sbuf = x.sbuf := rfl
@[simp] theorem Group.markS_fences (x : Group) (n : Nat) (b : Bool) : (x.markS n b).fences = x.fences := rfl
@[simp] theorem Group.markS_permit (x : Group) (n : Nat) (b : Bool) : (x.markS n b).permit = x.permit := rfl
@[simp] theorem Group.markS_permitWait (x : Group) (n : Nat) (b : Bool) : (x.markS n b).permitWait = x.permitWait := rfl
@[simp] theorem Group.markS_spilled (x : Group) (n : Nat) (b : Bool) : (x.markS n b).spilled = x.spilled := rfl
@[simp] theorem Group.markS_backing (x : Group) (n : Nat) (b : Bool) : (x.markS n b).backing = x.backing := rfl
@[simp] theorem Group.markS_wrote (x : Group) (n : Nat) (b : Bool) : (x.markS n b).wrote = x.wrote := rfl
@[simp] theorem Group.markS_spAt (x : Group) (n : Nat) (b : Bool) : (x.markS n b).spAt = x.spAt := rfl
@[simp] theorem Group.markS_lastIssue (x : Group) (n : Nat) (b : Bool) : (x.markS n b).lastIssue = x.lastIssue := rfl
@[simp] theorem Group.markS_raised (x : Group) (n : Nat) (b : Bool) : (x.markS n b).raised = x.raised := rfl
@[simp] theorem Group.markS_tow (x : Group) (n : Nat) (b : Bool) : (x.markS n b).tow = x.tow := rfl
@[simp] theorem Group.markS_ibuf (x : Group) (n : Nat) (b : Bool) : (x.markS n b).ibuf = x.ibuf := rfl
@[simp] theorem Group.markS_blocked (x : Group) (n : Nat) (b : Bool) : (x.markS n b).blocked = x.blocked := rfl
@[simp] theorem Group.markS_holes (x : Group) (n : Nat) (b : Bool) : (x.markS n b).holes = x.holes := rfl
@[simp] theorem Group.markS_seq (x : Group) (n : Nat) (b : Bool) : (x.markS n b).seq = x.seq := rfl
@[simp] theorem Group.markS_spSeq (x : Group) (n : Nat) (b : Bool) : (x.markS n b).spSeq = x.spSeq := rfl
@[simp] theorem Group.markS_peerRead (x : Group) (n : Nat) (b : Bool) : (x.markS n b).peerRead = x.peerRead := rfl
@[simp] theorem Group.markS_passed (x : Group) (n : Nat) (b : Bool) : (x.markS n b).passed = x.passed := rfl
@[simp] theorem Group.markS_lastPc (x : Group) (n : Nat) (b : Bool) : (x.markS n b).lastPc = x.lastPc := rfl
@[simp] theorem Group.markS_lastSeq (x : Group) (n : Nat) (b : Bool) : (x.markS n b).lastSeq = x.lastSeq := rfl
@[simp] theorem Group.markS_lastLanes (x : Group) (n : Nat) (b : Bool) : (x.markS n b).lastLanes = x.lastLanes := rfl

@[simp] theorem Group.putM_bcast (x : Group) (n : Nat) (w : DWord) : (x.putM n w).bcast = x.bcast := rfl
@[simp] theorem Group.putM_lanes (x : Group) (n : Nat) (w : DWord) : (x.putM n w).lanes = x.lanes := rfl
@[simp] theorem Group.putM_v (x : Group) (n : Nat) (w : DWord) : (x.putM n w).v = x.v := rfl
@[simp] theorem Group.putM_vOld (x : Group) (n : Nat) (w : DWord) : (x.putM n w).vOld = x.vOld := rfl
@[simp] theorem Group.putM_ve (x : Group) (n : Nat) (w : DWord) : (x.putM n w).ve = x.ve := rfl
@[simp] theorem Group.putM_s (x : Group) (n : Nat) (w : DWord) : (x.putM n w).s = x.s := rfl
@[simp] theorem Group.putM_se (x : Group) (n : Nat) (w : DWord) : (x.putM n w).se = x.se := rfl
@[simp] theorem Group.putM_regc (x : Group) (n : Nat) (w : DWord) : (x.putM n w).regc = x.regc := rfl
@[simp] theorem Group.putM_sticky (x : Group) (n : Nat) (w : DWord) : (x.putM n w).sticky = x.sticky := rfl
@[simp] theorem Group.putM_cond (x : Group) (n : Nat) (w : DWord) : (x.putM n w).cond = x.cond := rfl
@[simp] theorem Group.putM_dq (x : Group) (n : Nat) (w : DWord) : (x.putM n w).dq = x.dq := rfl
@[simp] theorem Group.putM_sp (x : Group) (n : Nat) (w : DWord) : (x.putM n w).sp = x.sp := rfl
@[simp] theorem Group.putM_binds (x : Group) (n : Nat) (w : DWord) : (x.putM n w).binds = x.binds := rfl
@[simp] theorem Group.putM_acqs (x : Group) (n : Nat) (w : DWord) : (x.putM n w).acqs = x.acqs := rfl
@[simp] theorem Group.putM_stack (x : Group) (n : Nat) (w : DWord) : (x.putM n w).stack = x.stack := rfl
@[simp] theorem Group.putM_inflight (x : Group) (n : Nat) (w : DWord) : (x.putM n w).inflight = x.inflight := rfl
@[simp] theorem Group.putM_thr (x : Group) (n : Nat) (w : DWord) : (x.putM n w).thr = x.thr := rfl
@[simp] theorem Group.putM_sbuf (x : Group) (n : Nat) (w : DWord) : (x.putM n w).sbuf = x.sbuf := rfl
@[simp] theorem Group.putM_fences (x : Group) (n : Nat) (w : DWord) : (x.putM n w).fences = x.fences := rfl
@[simp] theorem Group.putM_permit (x : Group) (n : Nat) (w : DWord) : (x.putM n w).permit = x.permit := rfl
@[simp] theorem Group.putM_permitWait (x : Group) (n : Nat) (w : DWord) : (x.putM n w).permitWait = x.permitWait := rfl
@[simp] theorem Group.putM_spilled (x : Group) (n : Nat) (w : DWord) : (x.putM n w).spilled = x.spilled := rfl
@[simp] theorem Group.putM_backing (x : Group) (n : Nat) (w : DWord) : (x.putM n w).backing = x.backing := rfl
@[simp] theorem Group.putM_wrote (x : Group) (n : Nat) (w : DWord) : (x.putM n w).wrote = x.wrote := rfl
@[simp] theorem Group.putM_spAt (x : Group) (n : Nat) (w : DWord) : (x.putM n w).spAt = x.spAt := rfl
@[simp] theorem Group.putM_lastIssue (x : Group) (n : Nat) (w : DWord) : (x.putM n w).lastIssue = x.lastIssue := rfl
@[simp] theorem Group.putM_raised (x : Group) (n : Nat) (w : DWord) : (x.putM n w).raised = x.raised := rfl
@[simp] theorem Group.putM_tow (x : Group) (n : Nat) (w : DWord) : (x.putM n w).tow = x.tow := rfl
@[simp] theorem Group.putM_ibuf (x : Group) (n : Nat) (w : DWord) : (x.putM n w).ibuf = x.ibuf := rfl
@[simp] theorem Group.putM_blocked (x : Group) (n : Nat) (w : DWord) : (x.putM n w).blocked = x.blocked := rfl
@[simp] theorem Group.putM_holes (x : Group) (n : Nat) (w : DWord) : (x.putM n w).holes = x.holes := rfl
@[simp] theorem Group.putM_seq (x : Group) (n : Nat) (w : DWord) : (x.putM n w).seq = x.seq := rfl
@[simp] theorem Group.putM_spSeq (x : Group) (n : Nat) (w : DWord) : (x.putM n w).spSeq = x.spSeq := rfl
@[simp] theorem Group.putM_peerRead (x : Group) (n : Nat) (w : DWord) : (x.putM n w).peerRead = x.peerRead := rfl
@[simp] theorem Group.putM_passed (x : Group) (n : Nat) (w : DWord) : (x.putM n w).passed = x.passed := rfl
@[simp] theorem Group.putM_lastPc (x : Group) (n : Nat) (w : DWord) : (x.putM n w).lastPc = x.lastPc := rfl
@[simp] theorem Group.putM_lastSeq (x : Group) (n : Nat) (w : DWord) : (x.putM n w).lastSeq = x.lastSeq := rfl
@[simp] theorem Group.putM_lastLanes (x : Group) (n : Nat) (w : DWord) : (x.putM n w).lastLanes = x.lastLanes := rfl

@[simp] theorem Group.putBit_bcast (x : Group) (n l : Nat) (b : Bool) : (x.putBit n l b).bcast = x.bcast := rfl
@[simp] theorem Group.putBit_lanes (x : Group) (n l : Nat) (b : Bool) : (x.putBit n l b).lanes = x.lanes := rfl
@[simp] theorem Group.putBit_v (x : Group) (n l : Nat) (b : Bool) : (x.putBit n l b).v = x.v := rfl
@[simp] theorem Group.putBit_vOld (x : Group) (n l : Nat) (b : Bool) : (x.putBit n l b).vOld = x.vOld := rfl
@[simp] theorem Group.putBit_ve (x : Group) (n l : Nat) (b : Bool) : (x.putBit n l b).ve = x.ve := rfl
@[simp] theorem Group.putBit_s (x : Group) (n l : Nat) (b : Bool) : (x.putBit n l b).s = x.s := rfl
@[simp] theorem Group.putBit_se (x : Group) (n l : Nat) (b : Bool) : (x.putBit n l b).se = x.se := rfl
@[simp] theorem Group.putBit_regc (x : Group) (n l : Nat) (b : Bool) : (x.putBit n l b).regc = x.regc := rfl
@[simp] theorem Group.putBit_sticky (x : Group) (n l : Nat) (b : Bool) : (x.putBit n l b).sticky = x.sticky := rfl
@[simp] theorem Group.putBit_cond (x : Group) (n l : Nat) (b : Bool) : (x.putBit n l b).cond = x.cond := rfl
@[simp] theorem Group.putBit_dq (x : Group) (n l : Nat) (b : Bool) : (x.putBit n l b).dq = x.dq := rfl
@[simp] theorem Group.putBit_sp (x : Group) (n l : Nat) (b : Bool) : (x.putBit n l b).sp = x.sp := rfl
@[simp] theorem Group.putBit_binds (x : Group) (n l : Nat) (b : Bool) : (x.putBit n l b).binds = x.binds := rfl
@[simp] theorem Group.putBit_acqs (x : Group) (n l : Nat) (b : Bool) : (x.putBit n l b).acqs = x.acqs := rfl
@[simp] theorem Group.putBit_stack (x : Group) (n l : Nat) (b : Bool) : (x.putBit n l b).stack = x.stack := rfl
@[simp] theorem Group.putBit_inflight (x : Group) (n l : Nat) (b : Bool) : (x.putBit n l b).inflight = x.inflight := rfl
@[simp] theorem Group.putBit_thr (x : Group) (n l : Nat) (b : Bool) : (x.putBit n l b).thr = x.thr := rfl
@[simp] theorem Group.putBit_sbuf (x : Group) (n l : Nat) (b : Bool) : (x.putBit n l b).sbuf = x.sbuf := rfl
@[simp] theorem Group.putBit_fences (x : Group) (n l : Nat) (b : Bool) : (x.putBit n l b).fences = x.fences := rfl
@[simp] theorem Group.putBit_permit (x : Group) (n l : Nat) (b : Bool) : (x.putBit n l b).permit = x.permit := rfl
@[simp] theorem Group.putBit_permitWait (x : Group) (n l : Nat) (b : Bool) : (x.putBit n l b).permitWait = x.permitWait := rfl
@[simp] theorem Group.putBit_spilled (x : Group) (n l : Nat) (b : Bool) : (x.putBit n l b).spilled = x.spilled := rfl
@[simp] theorem Group.putBit_backing (x : Group) (n l : Nat) (b : Bool) : (x.putBit n l b).backing = x.backing := rfl
@[simp] theorem Group.putBit_wrote (x : Group) (n l : Nat) (b : Bool) : (x.putBit n l b).wrote = x.wrote := rfl
@[simp] theorem Group.putBit_spAt (x : Group) (n l : Nat) (b : Bool) : (x.putBit n l b).spAt = x.spAt := rfl
@[simp] theorem Group.putBit_lastIssue (x : Group) (n l : Nat) (b : Bool) : (x.putBit n l b).lastIssue = x.lastIssue := rfl
@[simp] theorem Group.putBit_raised (x : Group) (n l : Nat) (b : Bool) : (x.putBit n l b).raised = x.raised := rfl
@[simp] theorem Group.putBit_tow (x : Group) (n l : Nat) (b : Bool) : (x.putBit n l b).tow = x.tow := rfl
@[simp] theorem Group.putBit_ibuf (x : Group) (n l : Nat) (b : Bool) : (x.putBit n l b).ibuf = x.ibuf := rfl
@[simp] theorem Group.putBit_blocked (x : Group) (n l : Nat) (b : Bool) : (x.putBit n l b).blocked = x.blocked := rfl
@[simp] theorem Group.putBit_holes (x : Group) (n l : Nat) (b : Bool) : (x.putBit n l b).holes = x.holes := rfl
@[simp] theorem Group.putBit_seq (x : Group) (n l : Nat) (b : Bool) : (x.putBit n l b).seq = x.seq := rfl
@[simp] theorem Group.putBit_spSeq (x : Group) (n l : Nat) (b : Bool) : (x.putBit n l b).spSeq = x.spSeq := rfl
@[simp] theorem Group.putBit_peerRead (x : Group) (n l : Nat) (b : Bool) : (x.putBit n l b).peerRead = x.peerRead := rfl
@[simp] theorem Group.putBit_passed (x : Group) (n l : Nat) (b : Bool) : (x.putBit n l b).passed = x.passed := rfl
@[simp] theorem Group.putBit_lastPc (x : Group) (n l : Nat) (b : Bool) : (x.putBit n l b).lastPc = x.lastPc := rfl
@[simp] theorem Group.putBit_lastSeq (x : Group) (n l : Nat) (b : Bool) : (x.putBit n l b).lastSeq = x.lastSeq := rfl
@[simp] theorem Group.putBit_lastLanes (x : Group) (n l : Nat) (b : Bool) : (x.putBit n l b).lastLanes = x.lastLanes := rfl

@[simp] theorem Group.raise_bcast (x : Group) (fl : Nat) : (x.raise fl).bcast = x.bcast := rfl
@[simp] theorem Group.raise_lanes (x : Group) (fl : Nat) : (x.raise fl).lanes = x.lanes := rfl
@[simp] theorem Group.raise_v (x : Group) (fl : Nat) : (x.raise fl).v = x.v := rfl
@[simp] theorem Group.raise_vOld (x : Group) (fl : Nat) : (x.raise fl).vOld = x.vOld := rfl
@[simp] theorem Group.raise_ve (x : Group) (fl : Nat) : (x.raise fl).ve = x.ve := rfl
@[simp] theorem Group.raise_s (x : Group) (fl : Nat) : (x.raise fl).s = x.s := rfl
@[simp] theorem Group.raise_se (x : Group) (fl : Nat) : (x.raise fl).se = x.se := rfl
@[simp] theorem Group.raise_m (x : Group) (fl : Nat) : (x.raise fl).m = x.m := rfl
@[simp] theorem Group.raise_regc (x : Group) (fl : Nat) : (x.raise fl).regc = x.regc := rfl
@[simp] theorem Group.raise_cond (x : Group) (fl : Nat) : (x.raise fl).cond = x.cond := rfl
@[simp] theorem Group.raise_dq (x : Group) (fl : Nat) : (x.raise fl).dq = x.dq := rfl
@[simp] theorem Group.raise_sp (x : Group) (fl : Nat) : (x.raise fl).sp = x.sp := rfl
@[simp] theorem Group.raise_binds (x : Group) (fl : Nat) : (x.raise fl).binds = x.binds := rfl
@[simp] theorem Group.raise_acqs (x : Group) (fl : Nat) : (x.raise fl).acqs = x.acqs := rfl
@[simp] theorem Group.raise_stack (x : Group) (fl : Nat) : (x.raise fl).stack = x.stack := rfl
@[simp] theorem Group.raise_inflight (x : Group) (fl : Nat) : (x.raise fl).inflight = x.inflight := rfl
@[simp] theorem Group.raise_thr (x : Group) (fl : Nat) : (x.raise fl).thr = x.thr := rfl
@[simp] theorem Group.raise_sbuf (x : Group) (fl : Nat) : (x.raise fl).sbuf = x.sbuf := rfl
@[simp] theorem Group.raise_fences (x : Group) (fl : Nat) : (x.raise fl).fences = x.fences := rfl
@[simp] theorem Group.raise_permit (x : Group) (fl : Nat) : (x.raise fl).permit = x.permit := rfl
@[simp] theorem Group.raise_permitWait (x : Group) (fl : Nat) : (x.raise fl).permitWait = x.permitWait := rfl
@[simp] theorem Group.raise_spilled (x : Group) (fl : Nat) : (x.raise fl).spilled = x.spilled := rfl
@[simp] theorem Group.raise_backing (x : Group) (fl : Nat) : (x.raise fl).backing = x.backing := rfl
@[simp] theorem Group.raise_wrote (x : Group) (fl : Nat) : (x.raise fl).wrote = x.wrote := rfl
@[simp] theorem Group.raise_spAt (x : Group) (fl : Nat) : (x.raise fl).spAt = x.spAt := rfl
@[simp] theorem Group.raise_lastIssue (x : Group) (fl : Nat) : (x.raise fl).lastIssue = x.lastIssue := rfl
@[simp] theorem Group.raise_raised (x : Group) (fl : Nat) : (x.raise fl).raised = x.raised := rfl
@[simp] theorem Group.raise_tow (x : Group) (fl : Nat) : (x.raise fl).tow = x.tow := rfl
@[simp] theorem Group.raise_ibuf (x : Group) (fl : Nat) : (x.raise fl).ibuf = x.ibuf := rfl
@[simp] theorem Group.raise_blocked (x : Group) (fl : Nat) : (x.raise fl).blocked = x.blocked := rfl
@[simp] theorem Group.raise_holes (x : Group) (fl : Nat) : (x.raise fl).holes = x.holes := rfl
@[simp] theorem Group.raise_seq (x : Group) (fl : Nat) : (x.raise fl).seq = x.seq := rfl
@[simp] theorem Group.raise_spSeq (x : Group) (fl : Nat) : (x.raise fl).spSeq = x.spSeq := rfl
@[simp] theorem Group.raise_peerRead (x : Group) (fl : Nat) : (x.raise fl).peerRead = x.peerRead := rfl
@[simp] theorem Group.raise_passed (x : Group) (fl : Nat) : (x.raise fl).passed = x.passed := rfl
@[simp] theorem Group.raise_lastPc (x : Group) (fl : Nat) : (x.raise fl).lastPc = x.lastPc := rfl
@[simp] theorem Group.raise_lastSeq (x : Group) (fl : Nat) : (x.raise fl).lastSeq = x.lastSeq := rfl
@[simp] theorem Group.raise_lastLanes (x : Group) (fl : Nat) : (x.raise fl).lastLanes = x.lastLanes := rfl

@[simp] theorem Group.setEmp_bcast (x : Group) (b : Bool) : (x.setEmp b).bcast = x.bcast := rfl
@[simp] theorem Group.setEmp_lanes (x : Group) (b : Bool) : (x.setEmp b).lanes = x.lanes := rfl
@[simp] theorem Group.setEmp_v (x : Group) (b : Bool) : (x.setEmp b).v = x.v := rfl
@[simp] theorem Group.setEmp_vOld (x : Group) (b : Bool) : (x.setEmp b).vOld = x.vOld := rfl
@[simp] theorem Group.setEmp_ve (x : Group) (b : Bool) : (x.setEmp b).ve = x.ve := rfl
@[simp] theorem Group.setEmp_s (x : Group) (b : Bool) : (x.setEmp b).s = x.s := rfl
@[simp] theorem Group.setEmp_se (x : Group) (b : Bool) : (x.setEmp b).se = x.se := rfl
@[simp] theorem Group.setEmp_m (x : Group) (b : Bool) : (x.setEmp b).m = x.m := rfl
@[simp] theorem Group.setEmp_regc (x : Group) (b : Bool) : (x.setEmp b).regc = x.regc := rfl
@[simp] theorem Group.setEmp_sticky (x : Group) (b : Bool) : (x.setEmp b).sticky = x.sticky := rfl
@[simp] theorem Group.setEmp_dq (x : Group) (b : Bool) : (x.setEmp b).dq = x.dq := rfl
@[simp] theorem Group.setEmp_sp (x : Group) (b : Bool) : (x.setEmp b).sp = x.sp := rfl
@[simp] theorem Group.setEmp_binds (x : Group) (b : Bool) : (x.setEmp b).binds = x.binds := rfl
@[simp] theorem Group.setEmp_acqs (x : Group) (b : Bool) : (x.setEmp b).acqs = x.acqs := rfl
@[simp] theorem Group.setEmp_stack (x : Group) (b : Bool) : (x.setEmp b).stack = x.stack := rfl
@[simp] theorem Group.setEmp_inflight (x : Group) (b : Bool) : (x.setEmp b).inflight = x.inflight := rfl
@[simp] theorem Group.setEmp_thr (x : Group) (b : Bool) : (x.setEmp b).thr = x.thr := rfl
@[simp] theorem Group.setEmp_sbuf (x : Group) (b : Bool) : (x.setEmp b).sbuf = x.sbuf := rfl
@[simp] theorem Group.setEmp_fences (x : Group) (b : Bool) : (x.setEmp b).fences = x.fences := rfl
@[simp] theorem Group.setEmp_permit (x : Group) (b : Bool) : (x.setEmp b).permit = x.permit := rfl
@[simp] theorem Group.setEmp_permitWait (x : Group) (b : Bool) : (x.setEmp b).permitWait = x.permitWait := rfl
@[simp] theorem Group.setEmp_spilled (x : Group) (b : Bool) : (x.setEmp b).spilled = x.spilled := rfl
@[simp] theorem Group.setEmp_backing (x : Group) (b : Bool) : (x.setEmp b).backing = x.backing := rfl
@[simp] theorem Group.setEmp_wrote (x : Group) (b : Bool) : (x.setEmp b).wrote = x.wrote := rfl
@[simp] theorem Group.setEmp_spAt (x : Group) (b : Bool) : (x.setEmp b).spAt = x.spAt := rfl
@[simp] theorem Group.setEmp_lastIssue (x : Group) (b : Bool) : (x.setEmp b).lastIssue = x.lastIssue := rfl
@[simp] theorem Group.setEmp_raised (x : Group) (b : Bool) : (x.setEmp b).raised = x.raised := rfl
@[simp] theorem Group.setEmp_tow (x : Group) (b : Bool) : (x.setEmp b).tow = x.tow := rfl
@[simp] theorem Group.setEmp_ibuf (x : Group) (b : Bool) : (x.setEmp b).ibuf = x.ibuf := rfl
@[simp] theorem Group.setEmp_blocked (x : Group) (b : Bool) : (x.setEmp b).blocked = x.blocked := rfl
@[simp] theorem Group.setEmp_holes (x : Group) (b : Bool) : (x.setEmp b).holes = x.holes := rfl
@[simp] theorem Group.setEmp_seq (x : Group) (b : Bool) : (x.setEmp b).seq = x.seq := rfl
@[simp] theorem Group.setEmp_spSeq (x : Group) (b : Bool) : (x.setEmp b).spSeq = x.spSeq := rfl
@[simp] theorem Group.setEmp_peerRead (x : Group) (b : Bool) : (x.setEmp b).peerRead = x.peerRead := rfl
@[simp] theorem Group.setEmp_passed (x : Group) (b : Bool) : (x.setEmp b).passed = x.passed := rfl
@[simp] theorem Group.setEmp_lastPc (x : Group) (b : Bool) : (x.setEmp b).lastPc = x.lastPc := rfl
@[simp] theorem Group.setEmp_lastSeq (x : Group) (b : Bool) : (x.setEmp b).lastSeq = x.lastSeq := rfl
@[simp] theorem Group.setEmp_lastLanes (x : Group) (b : Bool) : (x.setEmp b).lastLanes = x.lastLanes := rfl

@[simp] theorem Group.compare_bcast (x : Group) (ty a b : Nat) : (x.compare ty a b).bcast = x.bcast := rfl
@[simp] theorem Group.compare_lanes (x : Group) (ty a b : Nat) : (x.compare ty a b).lanes = x.lanes := rfl
@[simp] theorem Group.compare_v (x : Group) (ty a b : Nat) : (x.compare ty a b).v = x.v := rfl
@[simp] theorem Group.compare_vOld (x : Group) (ty a b : Nat) : (x.compare ty a b).vOld = x.vOld := rfl
@[simp] theorem Group.compare_ve (x : Group) (ty a b : Nat) : (x.compare ty a b).ve = x.ve := rfl
@[simp] theorem Group.compare_s (x : Group) (ty a b : Nat) : (x.compare ty a b).s = x.s := rfl
@[simp] theorem Group.compare_se (x : Group) (ty a b : Nat) : (x.compare ty a b).se = x.se := rfl
@[simp] theorem Group.compare_m (x : Group) (ty a b : Nat) : (x.compare ty a b).m = x.m := rfl
@[simp] theorem Group.compare_regc (x : Group) (ty a b : Nat) : (x.compare ty a b).regc = x.regc := rfl
@[simp] theorem Group.compare_sticky (x : Group) (ty a b : Nat) : (x.compare ty a b).sticky = x.sticky := rfl
@[simp] theorem Group.compare_dq (x : Group) (ty a b : Nat) : (x.compare ty a b).dq = x.dq := rfl
@[simp] theorem Group.compare_sp (x : Group) (ty a b : Nat) : (x.compare ty a b).sp = x.sp := rfl
@[simp] theorem Group.compare_binds (x : Group) (ty a b : Nat) : (x.compare ty a b).binds = x.binds := rfl
@[simp] theorem Group.compare_acqs (x : Group) (ty a b : Nat) : (x.compare ty a b).acqs = x.acqs := rfl
@[simp] theorem Group.compare_stack (x : Group) (ty a b : Nat) : (x.compare ty a b).stack = x.stack := rfl
@[simp] theorem Group.compare_inflight (x : Group) (ty a b : Nat) : (x.compare ty a b).inflight = x.inflight := rfl
@[simp] theorem Group.compare_thr (x : Group) (ty a b : Nat) : (x.compare ty a b).thr = x.thr := rfl
@[simp] theorem Group.compare_sbuf (x : Group) (ty a b : Nat) : (x.compare ty a b).sbuf = x.sbuf := rfl
@[simp] theorem Group.compare_fences (x : Group) (ty a b : Nat) : (x.compare ty a b).fences = x.fences := rfl
@[simp] theorem Group.compare_permit (x : Group) (ty a b : Nat) : (x.compare ty a b).permit = x.permit := rfl
@[simp] theorem Group.compare_permitWait (x : Group) (ty a b : Nat) : (x.compare ty a b).permitWait = x.permitWait := rfl
@[simp] theorem Group.compare_spilled (x : Group) (ty a b : Nat) : (x.compare ty a b).spilled = x.spilled := rfl
@[simp] theorem Group.compare_backing (x : Group) (ty a b : Nat) : (x.compare ty a b).backing = x.backing := rfl
@[simp] theorem Group.compare_wrote (x : Group) (ty a b : Nat) : (x.compare ty a b).wrote = x.wrote := rfl
@[simp] theorem Group.compare_spAt (x : Group) (ty a b : Nat) : (x.compare ty a b).spAt = x.spAt := rfl
@[simp] theorem Group.compare_lastIssue (x : Group) (ty a b : Nat) : (x.compare ty a b).lastIssue = x.lastIssue := rfl
@[simp] theorem Group.compare_raised (x : Group) (ty a b : Nat) : (x.compare ty a b).raised = x.raised := rfl
@[simp] theorem Group.compare_tow (x : Group) (ty a b : Nat) : (x.compare ty a b).tow = x.tow := rfl
@[simp] theorem Group.compare_ibuf (x : Group) (ty a b : Nat) : (x.compare ty a b).ibuf = x.ibuf := rfl
@[simp] theorem Group.compare_blocked (x : Group) (ty a b : Nat) : (x.compare ty a b).blocked = x.blocked := rfl
@[simp] theorem Group.compare_holes (x : Group) (ty a b : Nat) : (x.compare ty a b).holes = x.holes := rfl
@[simp] theorem Group.compare_seq (x : Group) (ty a b : Nat) : (x.compare ty a b).seq = x.seq := rfl
@[simp] theorem Group.compare_spSeq (x : Group) (ty a b : Nat) : (x.compare ty a b).spSeq = x.spSeq := rfl
@[simp] theorem Group.compare_peerRead (x : Group) (ty a b : Nat) : (x.compare ty a b).peerRead = x.peerRead := rfl
@[simp] theorem Group.compare_passed (x : Group) (ty a b : Nat) : (x.compare ty a b).passed = x.passed := rfl
@[simp] theorem Group.compare_lastPc (x : Group) (ty a b : Nat) : (x.compare ty a b).lastPc = x.lastPc := rfl
@[simp] theorem Group.compare_lastSeq (x : Group) (ty a b : Nat) : (x.compare ty a b).lastSeq = x.lastSeq := rfl
@[simp] theorem Group.compare_lastLanes (x : Group) (ty a b : Nat) : (x.compare ty a b).lastLanes = x.lastLanes := rfl

@[simp] theorem Group.fillV_bcast (x : Group) (l n : Nat) (w : Word) : (x.fillV l n w).bcast = x.bcast := rfl
@[simp] theorem Group.fillV_lanes (x : Group) (l n : Nat) (w : Word) : (x.fillV l n w).lanes = x.lanes := rfl
@[simp] theorem Group.fillV_s (x : Group) (l n : Nat) (w : Word) : (x.fillV l n w).s = x.s := rfl
@[simp] theorem Group.fillV_se (x : Group) (l n : Nat) (w : Word) : (x.fillV l n w).se = x.se := rfl
@[simp] theorem Group.fillV_m (x : Group) (l n : Nat) (w : Word) : (x.fillV l n w).m = x.m := rfl
@[simp] theorem Group.fillV_regc (x : Group) (l n : Nat) (w : Word) : (x.fillV l n w).regc = x.regc := rfl
@[simp] theorem Group.fillV_sticky (x : Group) (l n : Nat) (w : Word) : (x.fillV l n w).sticky = x.sticky := rfl
@[simp] theorem Group.fillV_cond (x : Group) (l n : Nat) (w : Word) : (x.fillV l n w).cond = x.cond := rfl
@[simp] theorem Group.fillV_dq (x : Group) (l n : Nat) (w : Word) : (x.fillV l n w).dq = x.dq := rfl
@[simp] theorem Group.fillV_sp (x : Group) (l n : Nat) (w : Word) : (x.fillV l n w).sp = x.sp := rfl
@[simp] theorem Group.fillV_binds (x : Group) (l n : Nat) (w : Word) : (x.fillV l n w).binds = x.binds := rfl
@[simp] theorem Group.fillV_acqs (x : Group) (l n : Nat) (w : Word) : (x.fillV l n w).acqs = x.acqs := rfl
@[simp] theorem Group.fillV_stack (x : Group) (l n : Nat) (w : Word) : (x.fillV l n w).stack = x.stack := rfl
@[simp] theorem Group.fillV_inflight (x : Group) (l n : Nat) (w : Word) : (x.fillV l n w).inflight = x.inflight := rfl
@[simp] theorem Group.fillV_thr (x : Group) (l n : Nat) (w : Word) : (x.fillV l n w).thr = x.thr := rfl
@[simp] theorem Group.fillV_sbuf (x : Group) (l n : Nat) (w : Word) : (x.fillV l n w).sbuf = x.sbuf := rfl
@[simp] theorem Group.fillV_fences (x : Group) (l n : Nat) (w : Word) : (x.fillV l n w).fences = x.fences := rfl
@[simp] theorem Group.fillV_permit (x : Group) (l n : Nat) (w : Word) : (x.fillV l n w).permit = x.permit := rfl
@[simp] theorem Group.fillV_permitWait (x : Group) (l n : Nat) (w : Word) : (x.fillV l n w).permitWait = x.permitWait := rfl
@[simp] theorem Group.fillV_spilled (x : Group) (l n : Nat) (w : Word) : (x.fillV l n w).spilled = x.spilled := rfl
@[simp] theorem Group.fillV_backing (x : Group) (l n : Nat) (w : Word) : (x.fillV l n w).backing = x.backing := rfl
@[simp] theorem Group.fillV_wrote (x : Group) (l n : Nat) (w : Word) : (x.fillV l n w).wrote = x.wrote := rfl
@[simp] theorem Group.fillV_spAt (x : Group) (l n : Nat) (w : Word) : (x.fillV l n w).spAt = x.spAt := rfl
@[simp] theorem Group.fillV_lastIssue (x : Group) (l n : Nat) (w : Word) : (x.fillV l n w).lastIssue = x.lastIssue := rfl
@[simp] theorem Group.fillV_raised (x : Group) (l n : Nat) (w : Word) : (x.fillV l n w).raised = x.raised := rfl
@[simp] theorem Group.fillV_tow (x : Group) (l n : Nat) (w : Word) : (x.fillV l n w).tow = x.tow := rfl
@[simp] theorem Group.fillV_ibuf (x : Group) (l n : Nat) (w : Word) : (x.fillV l n w).ibuf = x.ibuf := rfl
@[simp] theorem Group.fillV_blocked (x : Group) (l n : Nat) (w : Word) : (x.fillV l n w).blocked = x.blocked := rfl
@[simp] theorem Group.fillV_holes (x : Group) (l n : Nat) (w : Word) : (x.fillV l n w).holes = x.holes := rfl
@[simp] theorem Group.fillV_seq (x : Group) (l n : Nat) (w : Word) : (x.fillV l n w).seq = x.seq := rfl
@[simp] theorem Group.fillV_spSeq (x : Group) (l n : Nat) (w : Word) : (x.fillV l n w).spSeq = x.spSeq := rfl
@[simp] theorem Group.fillV_peerRead (x : Group) (l n : Nat) (w : Word) : (x.fillV l n w).peerRead = x.peerRead := rfl
@[simp] theorem Group.fillV_passed (x : Group) (l n : Nat) (w : Word) : (x.fillV l n w).passed = x.passed := rfl
@[simp] theorem Group.fillV_lastPc (x : Group) (l n : Nat) (w : Word) : (x.fillV l n w).lastPc = x.lastPc := rfl
@[simp] theorem Group.fillV_lastSeq (x : Group) (l n : Nat) (w : Word) : (x.fillV l n w).lastSeq = x.lastSeq := rfl
@[simp] theorem Group.fillV_lastLanes (x : Group) (l n : Nat) (w : Word) : (x.fillV l n w).lastLanes = x.lastLanes := rfl

@[simp] theorem Group.chosen_bcast (x : Group) (c : Nat) : (x.chosen c).bcast = x.bcast := rfl
@[simp] theorem Group.chosen_lanes (x : Group) (c : Nat) : (x.chosen c).lanes = x.lanes := rfl
@[simp] theorem Group.chosen_v (x : Group) (c : Nat) : (x.chosen c).v = x.v := rfl
@[simp] theorem Group.chosen_vOld (x : Group) (c : Nat) : (x.chosen c).vOld = x.vOld := rfl
@[simp] theorem Group.chosen_ve (x : Group) (c : Nat) : (x.chosen c).ve = x.ve := rfl
@[simp] theorem Group.chosen_s (x : Group) (c : Nat) : (x.chosen c).s = x.s := rfl
@[simp] theorem Group.chosen_se (x : Group) (c : Nat) : (x.chosen c).se = x.se := rfl
@[simp] theorem Group.chosen_m (x : Group) (c : Nat) : (x.chosen c).m = x.m := rfl
@[simp] theorem Group.chosen_regc (x : Group) (c : Nat) : (x.chosen c).regc = x.regc := rfl
@[simp] theorem Group.chosen_sticky (x : Group) (c : Nat) : (x.chosen c).sticky = x.sticky := rfl
@[simp] theorem Group.chosen_cond (x : Group) (c : Nat) : (x.chosen c).cond = x.cond := rfl
@[simp] theorem Group.chosen_dq (x : Group) (c : Nat) : (x.chosen c).dq = x.dq := rfl
@[simp] theorem Group.chosen_sp (x : Group) (c : Nat) : (x.chosen c).sp = x.sp := rfl
@[simp] theorem Group.chosen_binds (x : Group) (c : Nat) : (x.chosen c).binds = x.binds := rfl
@[simp] theorem Group.chosen_acqs (x : Group) (c : Nat) : (x.chosen c).acqs = x.acqs := rfl
@[simp] theorem Group.chosen_stack (x : Group) (c : Nat) : (x.chosen c).stack = x.stack := rfl
@[simp] theorem Group.chosen_inflight (x : Group) (c : Nat) : (x.chosen c).inflight = x.inflight := rfl
@[simp] theorem Group.chosen_thr (x : Group) (c : Nat) : (x.chosen c).thr = x.thr := rfl
@[simp] theorem Group.chosen_sbuf (x : Group) (c : Nat) : (x.chosen c).sbuf = x.sbuf := rfl
@[simp] theorem Group.chosen_fences (x : Group) (c : Nat) : (x.chosen c).fences = x.fences := rfl
@[simp] theorem Group.chosen_permit (x : Group) (c : Nat) : (x.chosen c).permit = x.permit := rfl
@[simp] theorem Group.chosen_permitWait (x : Group) (c : Nat) : (x.chosen c).permitWait = x.permitWait := rfl
@[simp] theorem Group.chosen_tow (x : Group) (c : Nat) : (x.chosen c).tow = x.tow := rfl
@[simp] theorem Group.chosen_ibuf (x : Group) (c : Nat) : (x.chosen c).ibuf = x.ibuf := rfl
@[simp] theorem Group.chosen_blocked (x : Group) (c : Nat) : (x.chosen c).blocked = x.blocked := rfl
@[simp] theorem Group.chosen_holes (x : Group) (c : Nat) : (x.chosen c).holes = x.holes := rfl
@[simp] theorem Group.chosen_seq (x : Group) (c : Nat) : (x.chosen c).seq = x.seq := rfl
@[simp] theorem Group.chosen_spilled (x : Group) (c : Nat) : (x.chosen c).spilled = x.spilled := rfl
@[simp] theorem Group.chosen_backing (x : Group) (c : Nat) : (x.chosen c).backing = x.backing := rfl
@[simp] theorem Group.chosen_wrote (x : Group) (c : Nat) : (x.chosen c).wrote = x.wrote := rfl
@[simp] theorem Group.chosen_spAt (x : Group) (c : Nat) : (x.chosen c).spAt = x.spAt := rfl
@[simp] theorem Group.chosen_spSeq (x : Group) (c : Nat) : (x.chosen c).spSeq = x.spSeq := rfl
@[simp] theorem Group.chosen_peerRead (x : Group) (c : Nat) : (x.chosen c).peerRead = x.peerRead := rfl
@[simp] theorem Group.chosen_lastPc (x : Group) (c : Nat) : (x.chosen c).lastPc = x.lastPc := rfl
@[simp] theorem Group.chosen_lastSeq (x : Group) (c : Nat) : (x.chosen c).lastSeq = x.lastSeq := rfl
@[simp] theorem Group.chosen_lastLanes (x : Group) (c : Nat) : (x.chosen c).lastLanes = x.lastLanes := rfl

@[simp] theorem State.tick_agenda (x : State) : (x.tick).agenda = x.agenda := rfl
@[simp] theorem State.tick_cur (x : State) : (x.tick).cur = x.cur := rfl
@[simp] theorem State.tick_arg (x : State) : (x.tick).arg = x.arg := rfl
@[simp] theorem State.tick_freeCtr (x : State) : (x.tick).freeCtr = x.freeCtr := rfl
@[simp] theorem State.tick_power (x : State) : (x.tick).power = x.power := rfl
@[simp] theorem State.tick_bar0 (x : State) : (x.tick).bar0 = x.bar0 := rfl
@[simp] theorem State.tick_fuseVersions (x : State) : (x.tick).fuseVersions = x.fuseVersions := rfl
@[simp] theorem State.tick_fuseKeys (x : State) : (x.tick).fuseKeys = x.fuseKeys := rfl
@[simp] theorem State.tick_mbxtab (x : State) : (x.tick).mbxtab = x.mbxtab := rfl
@[simp] theorem State.tick_lvltab (x : State) : (x.tick).lvltab = x.lvltab := rfl
@[simp] theorem State.tick_qsched (x : State) : (x.tick).qsched = x.qsched := rfl
@[simp] theorem State.tick_qlist (x : State) : (x.tick).qlist = x.qlist := rfl
@[simp] theorem State.tick_jobexp (x : State) : (x.tick).jobexp = x.jobexp := rfl
@[simp] theorem State.tick_partexp (x : State) : (x.tick).partexp = x.partexp := rfl
@[simp] theorem State.tick_ctxsel (x : State) : (x.tick).ctxsel = x.ctxsel := rfl
@[simp] theorem State.tick_segbase (x : State) : (x.tick).segbase = x.segbase := rfl
@[simp] theorem State.tick_bindtab (x : State) : (x.tick).bindtab = x.bindtab := rfl
@[simp] theorem State.tick_namerules (x : State) : (x.tick).namerules = x.namerules := rfl
@[simp] theorem State.tick_ctxpart (x : State) : (x.tick).ctxpart = x.ctxpart := rfl
@[simp] theorem State.tick_parttab (x : State) : (x.tick).parttab = x.parttab := rfl
@[simp] theorem State.tick_flip (x : State) : (x.tick).flip = x.flip := rfl
@[simp] theorem State.tick_capiod (x : State) : (x.tick).capiod = x.capiod := rfl
@[simp] theorem State.tick_svctab (x : State) : (x.tick).svctab = x.svctab := rfl
@[simp] theorem State.tick_svcmbx (x : State) : (x.tick).svcmbx = x.svcmbx := rfl
@[simp] theorem State.tick_savepool (x : State) : (x.tick).savepool = x.savepool := rfl
@[simp] theorem State.tick_hostexp (x : State) : (x.tick).hostexp = x.hostexp := rfl
@[simp] theorem State.tick_domexp (x : State) : (x.tick).domexp = x.domexp := rfl
@[simp] theorem State.tick_domid (x : State) : (x.tick).domid = x.domid := rfl
@[simp] theorem State.tick_dxtab (x : State) : (x.tick).dxtab = x.dxtab := rfl
@[simp] theorem State.tick_routetab (x : State) : (x.tick).routetab = x.routetab := rfl
@[simp] theorem State.tick_inwin (x : State) : (x.tick).inwin = x.inwin := rfl
@[simp] theorem State.tick_dies (x : State) : (x.tick).dies = x.dies := rfl
@[simp] theorem State.tick_mem (x : State) : (x.tick).mem = x.mem := rfl
@[simp] theorem State.tick_dir (x : State) : (x.tick).dir = x.dir := rfl
@[simp] theorem State.tick_pend (x : State) : (x.tick).pend = x.pend := rfl
@[simp] theorem State.tick_nextSeq (x : State) : (x.tick).nextSeq = x.nextSeq := rfl
@[simp] theorem State.tick_tlb (x : State) : (x.tick).tlb = x.tlb := rfl
@[simp] theorem State.tick_own (x : State) : (x.tick).own = x.own := rfl
@[simp] theorem State.tick_bias (x : State) : (x.tick).bias = x.bias := rfl
@[simp] theorem State.tick_hostLines (x : State) : (x.tick).hostLines = x.hostLines := rfl
@[simp] theorem State.tick_cores (x : State) : (x.tick).cores = x.cores := rfl
@[simp] theorem State.tick_engines (x : State) : (x.tick).engines = x.engines := rfl
@[simp] theorem State.tick_mailboxes (x : State) : (x.tick).mailboxes = x.mailboxes := rfl
@[simp] theorem State.tick_launches (x : State) : (x.tick).launches = x.launches := rfl
@[simp] theorem State.tick_units (x : State) : (x.tick).units = x.units := rfl
@[simp] theorem State.tick_nextUid (x : State) : (x.tick).nextUid = x.nextUid := rfl
@[simp] theorem State.tick_qslots (x : State) : (x.tick).qslots = x.qslots := rfl
@[simp] theorem State.tick_binders (x : State) : (x.tick).binders = x.binders := rfl
@[simp] theorem State.tick_imgExports (x : State) : (x.tick).imgExports = x.imgExports := rfl
@[simp] theorem State.tick_revokedStops (x : State) : (x.tick).revokedStops = x.revokedStops := rfl
@[simp] theorem State.tick_collPeers (x : State) : (x.tick).collPeers = x.collPeers := rfl
@[simp] theorem State.tick_halted (x : State) : (x.tick).halted = x.halted := rfl
@[simp] theorem State.tick_ferries (x : State) : (x.tick).ferries = x.ferries := rfl
@[simp] theorem State.tick_chunks (x : State) : (x.tick).chunks = x.chunks := rfl
@[simp] theorem State.tick_posted (x : State) : (x.tick).posted = x.posted := rfl
@[simp] theorem State.tick_absentDevs (x : State) : (x.tick).absentDevs = x.absentDevs := rfl
@[simp] theorem State.tick_pop (x : State) : (x.tick).pop = x.pop := rfl
@[simp] theorem State.tick_popNext (x : State) : (x.tick).popNext = x.popNext := rfl
@[simp] theorem State.tick_portUp (x : State) : (x.tick).portUp = x.portUp := rfl
@[simp] theorem State.tick_detached (x : State) : (x.tick).detached = x.detached := rfl
@[simp] theorem State.tick_slots (x : State) : (x.tick).slots = x.slots := rfl
@[simp] theorem State.tick_out (x : State) : (x.tick).out = x.out := rfl

end Sys2Proof.Machine
end

