-- ==== Sys2Proof/Laws/Memory.lean ====
section
/-! SUPPORT. Memory: a byte reads what was last written to it, a write leaves every other byte alone, and every operation keeps the canonical form. -/

namespace Sys2Proof.Machine

/-- Read after write, same byte. -/
@[simp] theorem Memory.read_write_self (m : SMap Byte) (k : Nat) (b : Byte) : Memory.read (Memory.write m k b) k = b := SMap.get_put_self _ _ _ _

/-- Read after write, another byte. -/
theorem Memory.read_write_ne (m : SMap Byte) (k j : Nat) (b : Byte) (h : j ≠ k) : Memory.read (Memory.write m k b) j = Memory.read m j :=
  SMap.get_put_ne _ _ _ _ _ h

theorem Memory.wf_write {m : SMap Byte} {k : Nat} {b : Byte} (h : Memory.wf m = true) : Memory.wf (Memory.write m k b) = true := SMap.wf_put h

theorem Memory.wf_writeAll {m : SMap Byte} {ks : List Nat} {bs : List Byte} (h : Memory.wf m = true) : Memory.wf (Memory.writeAll m ks bs) = true := by
  induction ks generalizing m bs with
  | nil => simpa [Memory.writeAll] using h
  | cons k ks ih =>
    cases bs with
    | nil => simpa [Memory.writeAll] using h
    | cons b bs => exact ih (Memory.wf_write h)

theorem Memory.wf_clear {m : SMap Byte} {a n : Nat} (h : Memory.wf m = true) : Memory.wf (Memory.clear m a n) = true := SMap.wf_filter _ h

/-- Bytes outside the keys written read as before. -/
theorem Memory.read_writeAll_ne (m : SMap Byte) (ks : List Nat) (bs : List Byte) (j : Nat) (h : j ∉ ks) :
    Memory.read (Memory.writeAll m ks bs) j = Memory.read m j := by
  induction ks generalizing m bs with
  | nil => simp [Memory.writeAll]
  | cons k ks ih =>
    cases bs with
    | nil => simp [Memory.writeAll]
    | cons b bs =>
      simp only [List.mem_cons, not_or] at h
      rw [Memory.writeAll, ih _ _ h.2, Memory.read_write_ne _ _ _ _ h.1]

/-- Bytes at distinct keys read back in order. -/
theorem Memory.map_read_writeAll (m : SMap Byte) (ks : List Nat) (bs : List Byte) (hk : ks.Nodup) (hl : ks.length = bs.length) :
    ks.map (Memory.read (Memory.writeAll m ks bs)) = bs := by
  induction ks generalizing m bs with
  | nil => cases bs <;> simp_all
  | cons k ks ih =>
    cases bs with
    | nil => simp at hl
    | cons b bs =>
      rw [List.nodup_cons] at hk
      simp only [List.length_cons, Nat.add_right_cancel_iff] at hl
      simp only [Memory.writeAll, List.map_cons]
      rw [Memory.read_writeAll_ne _ _ _ _ hk.1, Memory.read_write_self, ih _ _ hk.2 hl]

/-- A cleared range reads blank; every other byte reads as before. -/
theorem Memory.read_clear (m : SMap Byte) (a n k : Nat) :
    Memory.read (Memory.clear m a n) k = if a ≤ k ∧ k < a + n then Memory.blank else Memory.read m k := by
  unfold Memory.read Memory.clear
  rw [SMap.get_filter Memory.blank m (fun j => !(decide (a ≤ j) && decide (j < a + n))) k]
  by_cases h : a ≤ k ∧ k < a + n
  · simp [h.1, h.2]
  · rw [if_neg h]; rw [if_pos]; simp only [Bool.not_eq_true', Bool.and_eq_false_iff, decide_eq_false_iff_not]; tauto

@[simp] theorem State.wr_mem (s : State) (k n v : Nat) : (s.wr k n v).mem = Memory.writeAll s.mem (upFrom k n) (leBytes n v) := rfl
@[simp] theorem State.wr8_mem (s : State) (k v : Nat) : (s.wr8 k v).mem = Memory.writeAll s.mem (upFrom k 8) (leBytes 8 v) := rfl

theorem State.wf_wr {s : State} {k n v : Nat} (h : Memory.wf s.mem = true) : Memory.wf (s.wr k n v).mem = true := Memory.wf_writeAll h
theorem State.wf_wr8 {s : State} {k v : Nat} (h : Memory.wf s.mem = true) : Memory.wf (s.wr8 k v).mem = true := Memory.wf_writeAll h
theorem State.wf_zeroRange {s : State} {a n : Nat} (h : Memory.wf s.mem = true) : Memory.wf (s.zeroRange a n).mem = true := Memory.wf_clear h

end Sys2Proof.Machine
end

