-- ==== Sys2Proof/Laws/Units.lean ====
section
/-! SUPPORT. Reading units, groups, lanes and registers after they were put back. -/

namespace Sys2Proof.Machine

@[simp] theorem State.unit?_setUnit_self (s : State) (u : WorkUnit) : (s.setUnit u).unit? u.uid = some u := AMap.get?_set_self _ _ _
theorem State.unit?_setUnit_ne (s : State) (u : WorkUnit) (k : Nat) (h : k ≠ u.uid) : (s.setUnit u).unit? k = s.unit? k := AMap.get?_set_ne _ _ _ _ h

/-- A unit put back under its own key keeps all keys right. -/
theorem State.keyed_setUnit {s : State} {u : WorkUnit} (h : s.keyed) : (s.setUnit u).keyed := by
  intro p hp
  rcases AMap.mem_set hp with rfl | hp
  · rfl
  · exact h p hp

theorem State.unit?_uid {s : State} {k : Nat} {u : WorkUnit} (h : s.keyed) (hu : s.unit? k = some u) : u.uid = k := h (k, u) (AMap.get?_mem hu)

theorem WorkUnit.group_setGroup_self {u : WorkUnit} {i : Nat} {g h : Group} (hg : u.group i = some h) : (u.setGroup i g).group i = some g := by
  have : i < u.groups.length := (List.getElem?_eq_some_iff.mp hg).1
  simp [WorkUnit.group, WorkUnit.setGroup, this]

theorem WorkUnit.group_setGroup_ne (u : WorkUnit) (i k : Nat) (g : Group) (h : k ≠ i) : (u.setGroup i g).group k = u.group k := by
  simp [WorkUnit.group, WorkUnit.setGroup, Ne.symm h]

theorem WorkUnit.setGroup_rest (u : WorkUnit) (i : Nat) (g : Group) : { u.setGroup i g with groups := u.groups } = u := rfl

theorem Group.length_setLanes (g : Group) (ls : List Nat) (f : Nat → Lane → Lane) : (g.setLanes ls f).lanes.length = g.lanes.length := by simp [Group.setLanes]

theorem Group.lane_setLanes (g : Group) (ls : List Nat) (f : Nat → Lane → Lane) (l : Nat) :
    (g.setLanes ls f).lane l = if l ∈ ls ∧ l < g.lanes.length then f l (g.lane l) else g.lane l := by
  unfold Group.lane Group.setLanes
  by_cases hl : l < g.lanes.length
  · simp only [List.getD_eq_getElem?_getD, List.getElem?_map, List.getElem?_range hl, Option.map_some, Option.getD_some, hl, and_true]
    by_cases h : l ∈ ls <;> simp [h, Group.lane]
  · rw [not_lt] at hl
    simp [hl, List.getD_eq_getElem?_getD]

/-! Registers. -/

theorem Group.key_inj {l n l' n' : Nat} (h : n < 64) (h' : n' < 64) (he : 64 * l + n = 64 * l' + n') : l = l' ∧ n = n' := by omega

theorem Group.getV_putV (g : Group) (l n l' n' : Nat) (w : Word) (h : n < 64) (h' : n' < 64) :
    (g.putV l n w).getV l' n' = if l' = l ∧ n' = n then w else g.getV l' n' := by
  unfold Group.getV Group.putV
  rw [SMap.get_put]
  by_cases he : l' = l ∧ n' = n
  · obtain ⟨rfl, rfl⟩ := he; simp
  · rw [if_neg he, if_neg]
    intro hk; exact he (Group.key_inj h' h hk)

@[simp] theorem Group.getS_putS_self (g : Group) (n : Nat) (w : DWord) : (g.putS n w).getS n = w := SMap.get_put_self _ _ _ _
theorem Group.getS_putS_ne (g : Group) (n k : Nat) (w : DWord) (h : k ≠ n) : (g.putS n w).getS k = g.getS k := SMap.get_put_ne _ _ _ _ _ h
theorem Group.getM_putM_ne (g : Group) (n k : Nat) (w : DWord) (h : k ≠ n) : (g.putM n w).getM k = g.getM k := SMap.get_put_ne _ _ _ _ _ h
@[simp] theorem Group.getM_putM_self (g : Group) (n : Nat) (w : DWord) : (g.putM n w).getM n = BitVec.ofNat 64 (w.toNat % 2 ^ g.lanes.length) := SMap.get_put_self _ _ _ _

theorem testBit_setBit (w : DWord) (l k : Nat) (b : Bool) (hk : k < 64) : (setBit w l b).getLsbD k = if k = l then b else w.getLsbD k := by
  unfold setBit
  have hp : (BitVec.ofNat 64 (2 ^ l)).getLsbD k = decide (l = k) := by
    simp only [BitVec.getLsbD_ofNat, Nat.testBit_two_pow, hk, decide_true, Bool.true_and]
  cases b
  · simp only [Bool.false_eq_true, if_false, BitVec.getLsbD_and, BitVec.getLsbD_not, hp, hk, decide_true, Bool.true_and]
    by_cases h : k = l
    · simp [h]
    · simp [h, Ne.symm h]
  · simp only [if_true, BitVec.getLsbD_or, hp]
    by_cases h : k = l
    · simp [h]
    · simp [h, Ne.symm h]

/-- One lane's bit of a mask register, read back. -/
theorem Group.bit_putBit (g : Group) (n l k j : Nat) (b : Bool) (hj : j < g.lanes.length) (h64 : j < 64) :
    ((g.putBit n l b).getM k).getLsbD j = if k = n ∧ j = l then b else (g.getM k).getLsbD j := by
  unfold Group.putBit
  by_cases hk : k = n
  · subst hk
    rw [Group.getM_putM_self]
    have : (BitVec.ofNat 64 ((setBit (g.getM k) l b).toNat % 2 ^ g.lanes.length)).getLsbD j = (setBit (g.getM k) l b).getLsbD j := by
      simp only [BitVec.getLsbD_ofNat, Nat.testBit_mod_two_pow, hj, decide_true, Bool.true_and]
      rw [BitVec.testBit_toNat]
      simp [h64]
    rw [this, testBit_setBit _ _ _ _ h64]
    simp
  · rw [Group.getM_putM_ne _ _ _ _ hk]; simp [hk]

end Sys2Proof.Machine
end

