-- ==== Sys2Proof/Laws/Issue.lean ====
section
/-! SUPPORT. What the shared operations of a lane issue come to: the writes of a lane, the close of an issue that completes for every lane, and the per-lane issue. -/

namespace Sys2Proof.Machine

/-! One lane's writes. -/

theorem Group.foldPutV_other (vs : List (Nat × Word)) (g : Group) (l : Nat) :
    (vs.foldl (fun g p => g.putV l p.1 p.2) g) = { g with v := (vs.foldl (fun g p => g.putV l p.1 p.2) g).v } := by
  induction vs generalizing g with
  | nil => rfl
  | cons p vs ih => simp only [List.foldl_cons]; rw [ih]; rfl

theorem Group.foldPutBit_other (ms : List (Nat × Bool)) (g : Group) (l : Nat) :
    (ms.foldl (fun g p => g.putBit p.1 l p.2) g) = { g with m := (ms.foldl (fun g p => g.putBit p.1 l p.2) g).m } := by
  induction ms generalizing g with
  | nil => rfl
  | cons p ms ih => simp only [List.foldl_cons]; rw [ih]; rfl

/-- A lane's writes touch v registers, masks and flags only. -/
theorem Group.apply_other (g : Group) (l : Nat) (w : Writes) :
    { g.apply l w with v := g.v, m := g.m, sticky := g.sticky } = g := by
  unfold Group.apply Group.raise
  rw [Group.foldPutBit_other, Group.foldPutV_other]

@[simp] theorem Group.apply_lanes (g : Group) (l : Nat) (w : Writes) : (g.apply l w).lanes = g.lanes := by
  have := congrArg Group.lanes (Group.apply_other g l w); exact this

theorem Group.foldPutV_getV (vs : List (Nat × Word)) (g : Group) (l l' n : Nat) (hn : n < 64) (hr : ∀ p ∈ vs, p.1 < 64) (hd : (vs.map (·.1)).Nodup) :
    (vs.foldl (fun g p => g.putV l p.1 p.2) g).getV l' n = if l' = l then (vs.lookup n).getD (g.getV l' n) else g.getV l' n := by
  induction vs generalizing g with
  | nil => simp
  | cons p vs ih =>
    obtain ⟨r, w⟩ := p
    simp only [List.map_cons, List.nodup_cons] at hd
    rw [List.foldl_cons, ih _ (fun q hq => hr q (by simp [hq])) hd.2]
    rw [Group.getV_putV _ _ _ _ _ _ (hr (r, w) (by simp)) hn]
    by_cases hl : l' = l
    · subst hl
      simp only [if_true, true_and, List.lookup_cons]
      by_cases h : n = r
      · subst h
        have : vs.lookup n = none := by
          rw [List.lookup_eq_none_iff]
          intro q hq
          simp only [bne_iff_ne, ne_eq]
          intro he
          exact hd.1 (List.mem_map.mpr ⟨q, hq, he.symm⟩)
        simp [this]
      · have hb : (n == r) = false := by simp [h]
        simp [hb, h]
    · simp [hl]

theorem Group.foldPutBit_bit (ms : List (Nat × Bool)) (g : Group) (l k j : Nat) (hj : j < g.lanes.length) (h64 : j < 64) (hd : (ms.map (·.1)).Nodup) :
    ((ms.foldl (fun g p => g.putBit p.1 l p.2) g).getM k).getLsbD j = if j = l then (ms.lookup k).getD ((g.getM k).getLsbD j) else (g.getM k).getLsbD j := by
  induction ms generalizing g with
  | nil => simp
  | cons p ms ih =>
    obtain ⟨n, b⟩ := p
    simp only [List.map_cons, List.nodup_cons] at hd
    rw [List.foldl_cons, ih _ (by simpa using hj) hd.2, Group.bit_putBit _ _ _ _ _ _ hj h64]
    by_cases hl : j = l
    · subst hl
      simp only [if_true, and_true, List.lookup_cons]
      by_cases h : k = n
      · subst h
        have : ms.lookup k = none := by
          rw [List.lookup_eq_none_iff]
          intro q hq
          simp only [bne_iff_ne, ne_eq]
          intro he
          exact hd.1 (List.mem_map.mpr ⟨q, hq, he.symm⟩)
        simp [this]
      · have hb : (k == n) = false := by simp [h]
        simp [hb, h]
    · simp [hl]

theorem Group.foldPutBit_getM (ms : List (Nat × Bool)) (g : Group) (l k : Nat) (h : ms.lookup k = none) :
    (ms.foldl (fun g p => g.putBit p.1 l p.2) g).getM k = g.getM k := by
  induction ms generalizing g with
  | nil => rfl
  | cons p ms ih =>
    obtain ⟨n, b⟩ := p
    simp only [List.lookup_cons] at h
    split at h
    · simp at h
    · rename_i hb
      rw [List.foldl_cons, ih _ h]
      exact Group.getM_putM_ne _ _ _ _ (by simpa using hb)

/-- Writes of a lane have no register twice and no register beyond v63. -/
def Writes.plain (w : Writes) : Prop := (∀ p ∈ w.v, p.1 < 64) ∧ (w.v.map (·.1)).Nodup ∧ (w.m.map (·.1)).Nodup

theorem Group.apply_getV (g : Group) (l l' n : Nat) (w : Writes) (hw : w.plain) (hn : n < 64) :
    (g.apply l w).getV l' n = if l' = l then w.at n (g.getV l' n) else g.getV l' n := by
  have : (g.apply l w).getV l' n = (w.v.foldl (fun g p => g.putV l p.1 p.2) g).getV l' n := by
    unfold Group.apply Group.raise; rw [Group.foldPutBit_other]; rfl
  rw [this, Group.foldPutV_getV _ _ _ _ _ hn hw.1 hw.2.1]; rfl

theorem Group.apply_bit (g : Group) (l k j : Nat) (w : Writes) (hw : w.plain) (hj : j < g.lanes.length) (h64 : j < 64) :
    ((g.apply l w).getM k).getLsbD j = if j = l then w.bit k ((g.getM k).getLsbD j) else (g.getM k).getLsbD j := by
  have h1 : ∀ k, (w.v.foldl (fun g p => g.putV l p.1 p.2) g).getM k = g.getM k := by intro k; rw [Group.foldPutV_other]; rfl
  have h2 : (w.v.foldl (fun g p => g.putV l p.1 p.2) g).lanes = g.lanes := by rw [Group.foldPutV_other]
  have : ((g.apply l w).getM k) = ((w.m.foldl (fun g p => g.putBit p.1 l p.2) (w.v.foldl (fun g p => g.putV l p.1 p.2) g)).getM k) := rfl
  rw [this, Group.foldPutBit_bit _ _ _ _ _ (by rw [h2]; exact hj) h64 hw.2.2, h1]; rfl

theorem Group.apply_getM (g : Group) (l k : Nat) (w : Writes) (h : w.m.lookup k = none) : (g.apply l w).getM k = g.getM k := by
  have h1 : (w.v.foldl (fun g p => g.putV l p.1 p.2) g).getM k = g.getM k := by rw [Group.foldPutV_other]; rfl
  have : ((g.apply l w).getM k) = ((w.m.foldl (fun g p => g.putBit p.1 l p.2) (w.v.foldl (fun g p => g.putV l p.1 p.2) g)).getM k) := rfl
  rw [this, Group.foldPutBit_getM _ _ _ _ h, h1]

theorem Group.apply_sticky (g : Group) (l k : Nat) (w : Writes) (hk : k < 5) : (g.apply l w).sticky.testBit k = (g.sticky.testBit k || w.fl.testBit k) := by
  have h1 : (w.m.foldl (fun g p => g.putBit p.1 l p.2) (w.v.foldl (fun g p => g.putV l p.1 p.2) g)).sticky = g.sticky := by
    rw [Group.foldPutBit_other, Group.foldPutV_other]
  have : (g.apply l w).sticky = (g.sticky ||| w.fl) % 2 ^ 5 := by rw [← h1]; rfl
  rw [this, Nat.testBit_mod_two_pow, Nat.testBit_or]; simp [hk]

/-- The writes of a list of lanes, each lane once. -/
theorem Group.foldApply (ls : List Nat) (g : Group) (wr : Nat → Writes) (hn : ls.Nodup) (hw : ∀ l ∈ ls, (wr l).plain) :
    let g' := ls.foldl (fun g l => g.apply l (wr l)) g
    (∀ l n, n < 64 → g'.getV l n = if l ∈ ls then (wr l).at n (g.getV l n) else g.getV l n) ∧
      (∀ n, (∀ l ∈ ls, (wr l).m.lookup n = none) → g'.getM n = g.getM n) ∧
      (∀ l n, l < g.lanes.length → l < 64 → (g'.getM n).getLsbD l = if l ∈ ls then (wr l).bit n ((g.getM n).getLsbD l) else (g.getM n).getLsbD l) ∧
      (∀ k, k < 5 → g'.sticky.testBit k = (g.sticky.testBit k || ls.any (fun l => (wr l).fl.testBit k))) ∧
      { g' with v := g.v, m := g.m, sticky := g.sticky } = g := by
  induction ls generalizing g with
  | nil => simp
  | cons a ls ih =>
    rw [List.nodup_cons] at hn
    obtain ⟨i1, i2, i3, i4, i5⟩ := ih (g.apply a (wr a)) hn.2 (fun l hl => hw l (by simp [hl]))
    have ha := hw a (by simp)
    refine ⟨?_, ?_, ?_, ?_, ?_⟩
    · intro l n h
      rw [List.foldl_cons, i1 l n h, Group.apply_getV _ _ _ _ _ ha h]
      by_cases hl : l = a
      · subst hl; simp [hn.1]
      · simp [hl]
    · intro n h
      rw [List.foldl_cons, i2 n (fun l hl => h l (by simp [hl])), Group.apply_getM _ _ _ _ (h a (by simp))]
    · intro l n h h64
      rw [List.foldl_cons, i3 l n (by simpa using h) h64, Group.apply_bit _ _ _ _ _ ha h h64]
      by_cases hl : l = a
      · subst hl; simp [hn.1]
      · simp [hl]
    · intro k hk
      rw [List.foldl_cons, i4 k hk, Group.apply_sticky _ _ _ _ hk]
      simp [Bool.or_assoc]
    · rw [List.foldl_cons]
      have h1 := Group.apply_other g a (wr a)
      generalize ls.foldl (fun g l => g.apply l (wr l)) (g.apply a (wr a)) = x at *
      generalize g.apply a (wr a) = y at *
      cases x; cases y; cases g; simp_all

/-! The close of an issue. -/

@[simp] theorem Env.stop_g (e : Env) (fs : List (Nat × LFault)) : (e.stop fs).g = e.g := by unfold Env.stop; dsimp only; split <;> rfl
@[simp] theorem Env.stop_c (e : Env) (fs : List (Nat × LFault)) : (e.stop fs).c = e.c := by unfold Env.stop; dsimp only; split <;> rfl

theorem Env.stop_u (e : Env) (fs : List (Nat × LFault)) :
    (e.stop fs).u = { e.u with stop := e.u.stop ++ (e.fresh fs).map (fun p => e.record p.1 p.2), stopAt := if (e.fresh fs).isEmpty then e.u.stopAt else some (e.u.stopAt.getD e.s.cycle) } := by
  unfold Env.stop; dsimp only; split
  · rename_i h; rw [List.isEmpty_iff] at h; simp [h]
  · rfl

theorem Env.stop_s (e : Env) (fs : List (Nat × LFault)) :
    (e.stop fs).s = { e.s with out := e.s.out ++ ((e.fresh fs).filter (fun p => p.2.report)).map (fun p => Output.report 314 p.2.addr) } := by
  unfold Env.stop; dsimp only; split
  · rename_i h; rw [List.isEmpty_iff] at h; simp [h]
  · rfl

@[simp] theorem Env.fresh_nil (e : Env) : e.fresh [] = [] := rfl

/-- Lanes that have no record yet: every fault of theirs makes one. -/
theorem Env.fresh_all (e : Env) (fs : List (Nat × LFault)) (h : e.u.faulted e.c.grp = []) : e.fresh fs = fs := by
  unfold Env.fresh; simp [h]

/-- No lane of the last broadcast issue has come to fault: the broadcast stands where it stood. -/
@[simp] theorem Group.backTo_nil (g : Group) (pc : Nat) (seq : Option Nat) : g.backTo [] pc seq = g := by
  unfold Group.backTo
  split
  · rfl
  · rename_i h
    simp only [Bool.or_eq_true, not_or, Bool.not_eq_true] at h
    have hl : (g.lastLanes.filter (fun l => !([].contains l))) = g.lastLanes := by simp
    simp only [hl, h.2, Bool.false_eq_true, if_false]

/-- What `backTo` leaves: the broadcast address and the lanes of the last broadcast issue, from those of the group. -/
theorem Group.backTo_front (g h : Group) (ls : List Nat) (pc : Nat) (seq : Option Nat)
    (h0 : g.bcast = h.bcast) (h1 : g.lastPc = h.lastPc) (h2 : g.lastSeq = h.lastSeq) (h3 : g.lastLanes = h.lastLanes) :
    (g.backTo ls pc seq).bcast = (h.backTo ls pc seq).bcast ∧ (g.backTo ls pc seq).lastPc = (h.backTo ls pc seq).lastPc ∧
      (g.backTo ls pc seq).lastSeq = (h.backTo ls pc seq).lastSeq ∧ (g.backTo ls pc seq).lastLanes = (h.backTo ls pc seq).lastLanes := by
  unfold Group.backTo
  simp only [h1, h2, h3, h0]
  split <;> simp_all

/-- `backTo` changes nothing else. -/
theorem Group.backTo_like (g : Group) (ls : List Nat) (pc : Nat) (seq : Option Nat) :
    { g.backTo ls pc seq with bcast := g.bcast, lastLanes := g.lastLanes } = g := by
  unfold Group.backTo; split <;> rfl

theorem Env.stop_nil (e : Env) : e.stop [] = e := rfl

theorem Group.lane_congr {g h : Group} (hl : g.lanes = h.lanes) (l : Nat) : g.lane l = h.lane l := by unfold Group.lane; rw [hl]

/-- The lanes of a closed issue. -/
theorem Env.close_lanes (e : Env) (outs : List (Nat × LaneOut)) :
    (e.close outs).g.lanes = (e.g.setLanes (outs.map (·.1)) (fun l x => match outs.find? (fun p => p.1 == l) with
      | some p => laneAfter (e.c.by_ == .broadcast) e.next (e.after outs) p.2 x
      | none => x)).lanes := by
  unfold Env.close; rw [Env.stop_g]; rfl

/-- A lane of a closed issue stands where its outcome sends it. -/
theorem Env.close_lane (e : Env) (outs : List (Nat × LaneOut)) (l : Nat) (o : LaneOut) (hl : l < e.G) (h : outs.find? (fun p => p.1 == l) = some (l, o)) :
    (e.close outs).g.lane l = laneAfter (e.c.by_ == .broadcast) e.next (e.after outs) o (e.g.lane l) := by
  have hm : l ∈ outs.map (·.1) := List.mem_map.mpr ⟨(l, o), List.mem_of_find?_eq_some h, rfl⟩
  rw [Group.lane_congr (Env.close_lanes e outs), Group.lane_setLanes, if_pos ⟨hm, hl⟩, h]

/-- A lane that is not of the issue stands as it stood. -/
theorem Env.close_lane_other (e : Env) (outs : List (Nat × LaneOut)) (l : Nat) (h : l ∉ outs.map (·.1)) : (e.close outs).g.lane l = e.g.lane l := by
  rw [Group.lane_congr (Env.close_lanes e outs), Group.lane_setLanes, if_neg (fun x => h x.1)]

@[simp] theorem Env.close_bcast (e : Env) (outs : List (Nat × LaneOut)) : (e.close outs).g.bcast = (e.broadcastAt outs).bcast := by
  unfold Env.close; rw [Env.stop_g]; rfl

theorem Env.close_last (e : Env) (outs : List (Nat × LaneOut)) : ((e.close outs).g.lastPc, (e.close outs).g.lastSeq, (e.close outs).g.lastLanes) =
    ((e.broadcastAt outs).lastPc, (e.broadcastAt outs).lastSeq, (e.broadcastAt outs).lastLanes) := by
  unfold Env.close; rw [Env.stop_g]; rfl

theorem Env.close_tow (e : Env) (outs : List (Nat × LaneOut)) : (e.close outs).g.tow = if e.c.by_ == .broadcast then towAfter e.c.pc (e.after outs) e.g.tow else e.g.tow := by
  unfold Env.close; rw [Env.stop_g]; rfl

theorem Env.close_blocked (e : Env) (outs : List (Nat × LaneOut)) : (e.close outs).g.blocked = e.c.blocks outs e.g.blocked := by
  unfold Env.close; rw [Env.stop_g]; rfl

/-- Of the group, a close changes lanes, the broadcast address and what fetches and schedules. -/
theorem Env.close_like (e : Env) (outs : List (Nat × LaneOut)) : (e.close outs).g.likeBut e.g := by
  unfold Env.close Group.likeBut; rw [Env.stop_g]; rfl

theorem Env.close_c (e : Env) (outs : List (Nat × LaneOut)) : (e.close outs).c = e.c := by unfold Env.close; simp only [Env.stop_c]

/-- What a close leaves in its cycle. -/
theorem Env.close_issued (e : Env) (outs : List (Nat × LaneOut)) : (e.close outs).s.issued = e.s.issued ++ (if outs.all (fun p => p.2.isStay) then [] else [e.issuedAs]) := by
  unfold Env.close; rw [Env.stop_s]

/-- Of the package, a close changes that and the reports. -/
theorem Env.close_s (e : Env) (outs : List (Nat × LaneOut)) :
    { (e.close outs).s with issued := e.s.issued } = { e.s with out := e.s.out ++ ((e.fresh (faultsOf outs)).filter (fun p => p.2.report)).map (fun p => Output.report 314 p.2.addr) } := by
  unfold Env.close; rw [Env.stop_s]; rfl

theorem Env.close_u (e : Env) (outs : List (Nat × LaneOut)) :
    (e.close outs).u = { e.u with stop := e.u.stop ++ (e.fresh (faultsOf outs)).map (fun p => Env.record { e with g := (e.close outs).g } p.1 p.2),
                                  stopAt := if (e.fresh (faultsOf outs)).isEmpty then e.u.stopAt else some (e.u.stopAt.getD e.s.cycle) } := by
  unfold Env.close; rw [Env.stop_u, Env.stop_g]; rfl

/-- An issue without a faulting lane. -/
theorem faultsOf_calm {outs : List (Nat × LaneOut)} (h : ∀ p ∈ outs, p.2.isFault = false) : faultsOf outs = [] := by
  unfold faultsOf
  rw [List.filterMap_eq_nil_iff]
  intro p hp
  have := h p hp
  cases ho : p.2 <;> simp_all [LaneOut.isFault]

/-- A close without a faulting lane changes nothing of the unit, and of the package what the cycle has issued. -/
theorem Env.close_calm (e : Env) (outs : List (Nat × LaneOut)) (h : ∀ p ∈ outs, p.2.isFault = false) :
    { (e.close outs).s with issued := e.s.issued } = e.s ∧ (e.close outs).u = e.u := by
  rw [Env.close_s, Env.close_u, faultsOf_calm h]
  constructor <;> simp

theorem find?_map_pair {α : Type} (ls : List Nat) (f : Nat → α) (l : Nat) : (ls.map (fun l => (l, f l))).find? (fun r => r.1 == l) = if l ∈ ls then some (l, f l) else none := by
  induction ls with
  | nil => simp
  | cons a ls ih =>
    simp only [List.map_cons, List.find?_cons]
    by_cases h : a = l
    · subst h; simp
    · have : (a == l) = false := by simp [h]
      simp only [this, ih, List.mem_cons, Ne.symm h, false_or]

/-- The broadcast after an issue that completes for every lane. -/
theorem Env.after_next (e : Env) (ha : e.c.act ≠ []) : e.after (e.c.act.map (fun l => (l, LaneOut.next))) = if e.c.by_ = .broadcast then e.next else e.g.bcast := by
  unfold Env.after pathOf
  simp only [List.filterMap_map, Function.comp_def, List.filterMap_none, beq_iff_eq]
  cases h : e.c.act with
  | nil => exact absurd h ha
  | cons a ls => simp [LaneOut.isFault, LaneOut.isStay]

/-- The broadcast after it stands at that address. -/
theorem Env.broadcastAt_next (e : Env) (ha : e.c.act ≠ []) : (e.broadcastAt (e.c.act.map (fun l => (l, LaneOut.next)))).bcast = if e.c.by_ = .broadcast then e.next else e.g.bcast := by
  have hf : faultsOf (e.c.act.map (fun l => (l, LaneOut.next))) = [] := faultsOf_calm (by simp [LaneOut.isFault])
  unfold Env.broadcastAt
  rw [Env.after_next e ha, hf]
  split <;> simp

/-- What the last broadcast issue is after an issue rests on these of the group. -/
theorem Env.broadcastAt_front (e : Env) (g : Group) (outs : List (Nat × LaneOut)) (hb : g.bcast = e.g.bcast) (hi : g.ibuf = e.g.ibuf) (hq : g.seq = e.g.seq)
    (h1 : g.lastPc = e.g.lastPc) (h2 : g.lastSeq = e.g.lastSeq) (h3 : g.lastLanes = e.g.lastLanes) :
    (Env.broadcastAt { e with g := g } outs).lastPc = (e.broadcastAt outs).lastPc ∧ (Env.broadcastAt { e with g := g } outs).lastSeq = (e.broadcastAt outs).lastSeq ∧
      (Env.broadcastAt { e with g := g } outs).lastLanes = (e.broadcastAt outs).lastLanes := by
  have ha : Env.after { e with g := g } outs = e.after outs := by
    show (if _ then pathOf _ _ g.ibuf.contains outs else g.bcast) = _
    rw [hb, hi]; rfl
  unfold Env.broadcastAt
  rw [ha]
  split
  · exact ⟨rfl, hq, rfl⟩
  · exact (Group.backTo_front { g with bcast := e.after outs } { e.g with bcast := e.after outs } ((faultsOf outs).map (fun p => p.1)) e.c.pc none rfl h1 h2 h3).2

/-- An issue that completes for every lane closes with its lanes at the next word. -/
theorem Env.close_next (e : Env) (ha : e.c.act ≠ []) (hG : ∀ l ∈ e.c.act, l < e.G) : e.goOn (e.close (e.c.act.map (fun l => (l, LaneOut.next)))).g := by
  have hp := Env.after_next e ha
  refine ⟨fun l hl => ?_, fun l hl => ?_, ?_⟩
  · rw [Env.close_lane e _ l .next (hG l hl) (by rw [find?_map_pair e.c.act (fun _ => LaneOut.next)]; simp [hl]), hp]
    cases e.c.by_ <;> simp [laneAfter]
  · exact Env.close_lane_other e _ l (by simpa using hl)
  · rw [Env.close_bcast, Env.broadcastAt_next e ha]

/-- Where the group of an issue is put back into a unit and a package that are otherwise those of the issue, nothing else changes. -/
theorem Env.out_onlyGroup (e e' : Env) {h : Group} (hg : e.u.group e.c.grp = some h) (hu : e.u.uid = e.c.uid) (h1 : { e'.s with issued := e.s.issued } = e.s) (h2 : e'.u = e.u) (h3 : e'.c = e.c) :
    ∃ u, e.onlyGroup e'.out u e'.g := by
  have hun : e'.s.units = e.s.units := by have := congrArg State.units h1; exact this
  have hmem : e'.s.mem = e.s.mem := by have := congrArg State.mem h1; exact this
  refine ⟨e.u.setGroup e.c.grp e'.g, ⟨?_, WorkUnit.group_setGroup_self hg, ?_, ?_⟩, WorkUnit.setGroup_rest _ _ _, ?_, ?_⟩
  · unfold Env.out; rw [h2, h3, ← hu]; exact State.unit?_setUnit_self _ _
  · intro k hk; unfold Env.out; rw [h2, h3, State.unit?_setUnit_ne _ _ _ (by rw [← hu] at hk; exact hk)]; unfold State.unit?; rw [hun]
  · intro i hi; exact WorkUnit.group_setGroup_ne _ _ _ _ hi
  · have : ({ e'.out with units := e.s.units, issued := e.s.issued } : State) = { { e'.s with issued := e.s.issued } with units := e.s.units } := rfl
    rw [this, h1]
  · intro a; show Memory.read e'.s.mem a = _; rw [hmem]

/-- A completed lane issue with its writes. -/
theorem Env.laneResult_finish' (e : Env) (h : Group) (w : View) (wr : Nat → Writes) (hu : e.u.uid = e.c.uid) (hgr : e.u.group e.c.grp = some h) (ha : e.c.act ≠ []) (hG : ∀ l ∈ e.c.act, l < e.G)
    (hact : w.act.Nodup) (hw : ∀ l ∈ w.act, (wr l).plain) :
    ∃ t, Env.finish { e with g := w.act.foldl (fun g l => g.apply l (wr l)) e.g } (e.c.act.map (fun l => (l, .next))) = .next t ∧ e.laneResult t w wr := by
  obtain ⟨f1, f2, f3, f4, f5⟩ := Group.foldApply w.act e.g wr hact hw
  generalize w.act.foldl (fun g l => g.apply l (wr l)) e.g = g' at *
  have hl : g'.lanes = e.g.lanes := by have := congrArg Group.lanes f5; exact this
  have hb : g'.bcast = e.g.bcast := by have := congrArg Group.bcast f5; exact this
  have hlast := Env.broadcastAt_front e g' (e.c.act.map (fun l => (l, LaneOut.next))) hb (by have := congrArg Group.ibuf f5; exact this) (by have := congrArg Group.seq f5; exact this)
    (by have := congrArg Group.lastPc f5; exact this) (by have := congrArg Group.lastSeq f5; exact this) (by have := congrArg Group.lastLanes f5; exact this)
  have ht : g'.tow = e.g.tow := by have := congrArg Group.tow f5; exact this
  have hk : g'.blocked = e.g.blocked := by have := congrArg Group.blocked f5; exact this
  have hlane : ∀ l, g'.lane l = e.g.lane l := Group.lane_congr hl
  generalize ho : e.c.act.map (fun l => (l, LaneOut.next)) = outs
  have c4 := Env.close_next { e with g := g' } ha (by intro l hx; show l < g'.lanes.length; rw [hl]; exact hG l hx)
  have hp := Env.after_next { e with g := g' } ha
  have cb := Env.close_blocked { e with g := g' } outs
  have ct := Env.close_tow { e with g := g' } outs
  have cz := Env.close_last { e with g := g' } outs
  have ci := Env.close_issued { e with g := g' } outs
  have cl := Env.close_like { e with g := g' } outs
  have cc := Env.close_c { e with g := g' } outs
  obtain ⟨c1, c2⟩ := Env.close_calm { e with g := g' } outs (by subst ho; simp [LaneOut.isFault])
  change Env.goOn _ (Env.close { e with g := g' } (e.c.act.map (fun l => (l, LaneOut.next)))).g at c4
  change Env.after _ (e.c.act.map (fun l => (l, LaneOut.next))) = _ at hp
  rw [ho] at c4 hp
  rw [hp] at ct
  refine ⟨_, rfl, ?_⟩
  generalize Env.close { e with g := g' } outs = ec at *
  obtain ⟨u, hon⟩ := Env.out_onlyGroup e ec hgr hu c1 c2 cc
  have clv : ec.g.v = g'.v := by have := congrArg Group.v cl; exact this
  have clm : ec.g.m = g'.m := by have := congrArg Group.m cl; exact this
  have cls : ec.g.sticky = g'.sticky := by have := congrArg Group.sticky cl; exact this
  refine ⟨u, ec.g, hon, ?_, ⟨?_, ?_, ?_, ?_⟩, ?_, ?_, ?_, ?_, ?_⟩
  · obtain ⟨g1, g2, g3⟩ := c4
    refine ⟨?_, ?_, ?_⟩
    · intro l hx; rw [g1 l hx]; simp only [hlane]; rfl
    · intro l hx; rw [g2 l hx]; exact hlane l
    · rw [g3]; simp only [hb]; rfl
  · rw [ct]; simp only [ht, hb]; rfl
  · rw [cb, ho]; simp only [hk]
  · rw [ho]; exact ci
  · rw [cz, ho]; rw [ho] at hlast; rw [hlast.1, hlast.2.1, hlast.2.2]
  · intro l n hx
    have h2 : ec.g.getV l n = g'.getV l n := by unfold Group.getV; rw [clv]
    rw [h2]; exact f1 l n hx
  · intro n hx
    have h2 : ec.g.getM n = g'.getM n := by unfold Group.getM; rw [clm]
    rw [h2]; exact f2 n hx
  · intro l n hx h64
    have h2 : ec.g.getM n = g'.getM n := by unfold Group.getM; rw [clm]
    rw [h2]; exact f3 l n hx h64
  · intro k hk
    rw [cls]; exact f4 k hk
  · clear f1 f2 f3 f4 c4 c1 c2 hon clv clm cls ct cb ci cc hp hlane hlast cz
    unfold Group.likeBut at *
    generalize ec.g = x at *
    generalize e.g = y at *
    cases x; cases g'; cases y; simp_all

/-- The issue in progress belongs to a group of its unit. -/
theorem Env.group_of_lanes {e : Env} {s : State} (h : e.ofLanes s) : e.u.group e.c.grp = some e.g := by
  have h := h.1
  unfold State.env? at h
  split at h
  · simp at h
  · split at h
    · simp at h
    · split at h
      · simp at h
      · simp only [Option.some.injEq] at h; subst h; assumption

/-! The per-lane issue. -/

/-- The pops of an issue leave its unit, its lanes and the package as they are. -/
@[simp] theorem Env.popped_s (e : Env) (w : View) (xs : List Src) : (e.popped w xs).s = e.s := rfl
@[simp] theorem Env.popped_u (e : Env) (w : View) (xs : List Src) : (e.popped w xs).u = e.u := rfl
@[simp] theorem Env.popped_lanes (e : Env) (w : View) (xs : List Src) : (e.popped w xs).g.lanes = e.g.lanes := rfl
@[simp] theorem Env.popped_act (e : Env) (w : View) (xs : List Src) : (e.popped w xs).c.act = e.c.act := rfl
@[simp] theorem Env.view_act (e : Env) (act : List Nat) (xs : List Src) : (e.view act xs).act = act := rfl
@[simp] theorem Env.view_g (e : Env) (act : List Nat) (xs : List Src) : (e.view act xs).g = e.g := rfl

/-- What a view of an issue says. -/
theorem Env.view?_spec {e : Env} {gn : Nat} {xs : List Src} {w : View} (h : e.view? gn xs = some w) :
    w = e.view (e.guarded gn) xs ∧ ∀ l ∈ e.guarded gn, w.checks l xs = none := by
  unfold Env.view? at h
  split at h
  · rename_i hc
    simp only [Option.some.injEq] at h
    subst h
    exact ⟨rfl, fun l hl => by simpa using List.all_eq_true.mp hc l hl⟩
  · simp at h

theorem Env.guarded_nodup {e : Env} {s : State} (h : e.ofLanes s) (gn : Nat) : (e.guarded gn).Nodup := by
  unfold Env.guarded; split
  · exact h.2.2.2.2.1
  · exact h.2.2.2.2.1.filter _

/-- A lane issue that has popped its sources completes with the writes given. -/
theorem Env.popped_result (e : Env) (s : State) (gn : Nat) (xs xs' : List Src) (e1 : Env) (wr : Nat → Writes) (h : e.ofLanes s) (h1 : e1.u = e.u) (h2 : e1.c = (e.popped (e.view (e.guarded gn) xs) xs').c)
    (h3 : e1.g.lanes = e.g.lanes) (hw : ∀ l ∈ e.guarded gn, (wr l).plain) :
    ∃ t, Env.finish { e1 with g := (e.guarded gn).foldl (fun g l => g.apply l (wr l)) e1.g } (e.c.act.map (fun l => (l, .next))) = .next t ∧ e1.laneResult t (e.view (e.guarded gn) xs) wr := by
  have hc : e1.c.act = e.c.act := by rw [h2]; rfl
  have := Env.laneResult_finish' e1 e.g (e.view (e.guarded gn) xs) wr (by rw [h1, h2]; exact h.2.1) (by rw [h1, h2]; exact Env.group_of_lanes h) (by rw [hc]; exact h.2.2.2.1)
    (by intro l hl; rw [hc] at hl; show l < e1.g.lanes.length; rw [h3]; exact h.2.2.2.2.2 l hl) (Env.guarded_nodup h gn) hw
  rw [hc] at this
  exact this

/-- A per-lane issue that can read its sources, and whose computation gives `wr` for every guarded lane, completes with exactly those writes. -/
theorem Env.run_result (e : Env) (s : State) (gn : Nat) (xs : List Src) (f : View → Nat → Except LFault Writes) (w : View) (wr : Nat → Writes)
    (h : e.ofLanes s) (hv : e.view? gn xs = some w) (hf : ∀ l ∈ e.guarded gn, f w l = .ok (wr l)) (hw : ∀ l ∈ e.guarded gn, (wr l).plain) :
    ∃ t, e.run gn xs f = .next t ∧ (e.popped w xs).laneResult t w wr := by
  obtain ⟨v1, v4⟩ := Env.view?_spec hv
  have hfin : e.run gn xs f = Env.finish { e.popped w xs with g := (e.guarded gn).foldl (fun g l => g.apply l (wr l)) (e.popped w xs).g } (e.c.act.map (fun l => (l, .next))) := by
    unfold Env.run
    simp only [← v1]
    rw [List.map_congr_left (l := e.guarded gn) (g := fun l => (l, LaneOut.next, wr l)) ?_]
    · simp only [List.foldl_map]
      congr 1
      apply List.map_congr_left
      intro l _
      simp only [find?_map_pair (e.guarded gn) (fun l => (LaneOut.next, wr l)) l]
      by_cases hl : l ∈ e.guarded gn <;> simp [hl]
    · intro l hl
      simp only [v4 l hl, hf l hl]
  rw [hfin]
  subst v1
  exact Env.popped_result e s gn xs xs _ wr h rfl rfl rfl hw

/-- A meaning of a lane word acts in the issue in progress. -/
theorem State.issue_lanes (s : State) (e : Env) (h : e.ofLanes s) (k : Env → Out) : s.issue k = k e := by
  unfold State.issue
  rw [h.1]
  have : (e.c.by_ == .group) = false := by simpa using h.2.2.1
  simp [this]

/-- A meaning of a group word acts at its convergence point. -/
theorem State.issue_group (s : State) (e : Env) (h : e.ofGroup s) (k : Env → Out) : s.issue k = k e := by
  unfold State.issue
  rw [h.1]
  simp [h.2.2.2]

end Sys2Proof.Machine
end

