-- ==== Sys2Proof/Laws/Close.lean ====
section
/-! SUPPORT. How issues close in general: the outcome of every lane, of words taken lane by lane, of words of one access, of cross-lane words and of group words. -/

namespace Sys2Proof.Machine

/-- The issue of an environment stands in the package. -/
theorem State.env?_spec {s : State} {e : Env} (h : s.env? = some e) : e.s = s ∧ s.cur = some e.c ∧ s.unit? e.c.uid = some e.u ∧ e.u.group e.c.grp = some e.g := by
  unfold State.env? at h
  split at h
  · simp at h
  · split at h
    · simp at h
    · split at h
      · simp at h
      · simp only [Option.some.injEq] at h; subst h; exact ⟨rfl, by assumption, by assumption, by assumption⟩

/-- The unit and the group of an environment put back: no other unit or group changes. -/
theorem Env.out_into (e : Env) {h : Group} (hu : e.u.uid = e.c.uid) (hg : e.u.group e.c.grp = some h) : e.into e.out (e.u.setGroup e.c.grp e.g) e.g := by
  refine ⟨?_, WorkUnit.group_setGroup_self hg, ?_, ?_⟩
  · unfold Env.out; rw [← hu]; exact State.unit?_setUnit_self _ _
  · intro k hk; unfold Env.out; exact State.unit?_setUnit_ne _ _ _ (by rw [← hu] at hk; exact hk)
  · intro i hi; exact WorkUnit.group_setGroup_ne _ _ _ _ hi

/-- The record of a lane rests on its program counter, its region counter and the group's fences. -/
theorem Env.record_congr (e : Env) (g : Group) (l : Nat) (f : LFault) (h1 : g.fences = e.g.fences) (h2 : (g.lane l).pc = (e.g.lane l).pc) (h3 : (g.lane l).rctr = (e.g.lane l).rctr) :
    Env.record { e with g := g } l f = e.record l f := by
  unfold Env.record
  simp only [h1, h2, h3]

/-- The faults of an issue are those of its lanes, each once. -/
theorem faultsOf_find {outs : List (Nat × LaneOut)} (hn : (outs.map (·.1)).Nodup) {p : Nat × LFault} (hp : p ∈ faultsOf outs) : outs.find? (fun r => r.1 == p.1) = some (p.1, .fault p.2) := by
  unfold faultsOf at hp
  rw [List.mem_filterMap] at hp
  obtain ⟨q, hq, hqe⟩ := hp
  have hpq : q = (p.1, .fault p.2) := by
    obtain ⟨q1, q2⟩ := q
    cases q2 <;> simp only [Option.some.injEq, reduceCtorEq] at hqe
    subst hqe; rfl
  subst hpq
  clear hqe
  induction outs with
  | nil => simp at hq
  | cons a as ih =>
    rw [List.map_cons, List.nodup_cons] at hn
    rw [List.find?_cons]
    rcases List.mem_cons.mp hq with rfl | hq'
    · simp
    · have : (a.1 == p.1) = false := by
        simp only [beq_eq_false_iff_ne, ne_eq]; intro h
        exact hn.1 (List.mem_map.mpr ⟨_, hq', h.symm⟩)
      rw [this]; exact ih hn.2 hq'

/-- Where a lane of a closed issue stands. -/
theorem Env.close_lane_all (e : Env) (outs : List (Nat × LaneOut)) (hl : ∀ p ∈ outs, p.1 < e.G) (l : Nat) : (e.close outs).g.lane l = match outs.find? (fun p => p.1 == l) with
      | some p => laneAfter (e.c.by_ == .broadcast) e.next (e.after outs) p.2 (e.g.lane l)
      | none => e.g.lane l := by
  cases hfd : outs.find? (fun p => p.1 == l) with
  | none =>
    refine Env.close_lane_other e outs l ?_
    rw [List.find?_eq_none] at hfd
    simp only [List.mem_map, not_exists, not_and]
    intro p hp he; exact absurd he (by simpa using hfd p hp)
  | some p =>
    have hp := List.mem_of_find?_eq_some hfd
    have he : p.1 = l := by simpa using List.find?_some hfd
    obtain ⟨l', o⟩ := p
    simp only at he; subst he
    exact Env.close_lane e outs l' o (hl _ hp) hfd

/-- Every outcome of a lane issue. -/
theorem Env.finish_closes (e : Env) (outs : List (Nat × LaneOut)) {h : Group} (hu : e.u.uid = e.c.uid) (hg : e.u.group e.c.grp = some h)
    (hl : ∀ p ∈ outs, p.1 < e.G) (hn : (outs.map (·.1)).Nodup) : ∃ t, e.finish outs = .next t ∧ e.closes t outs := by
  refine ⟨_, rfl, ?_⟩
  have hc := Env.close_c e outs
  have hu' := Env.close_u e outs
  have hs := Env.close_s e outs
  have hlane := Env.close_lane_all e outs hl
  have hrest := Env.close_like e outs
  have hb := Env.close_bcast e outs
  have hfronts : (e.close outs).g.tow = _ ∧ (e.close outs).g.blocked = _ ∧ (e.close outs).s.issued = _ := ⟨Env.close_tow e outs, Env.close_blocked e outs, Env.close_issued e outs⟩
  have hlast := Env.close_last e outs
  have hfen : (e.close outs).g.fences = e.g.fences := by have := congrArg Group.fences hrest; exact this
  have hrec : (e.fresh (faultsOf outs)).map (fun p => Env.record { e with g := (e.close outs).g } p.1 p.2) = (e.fresh (faultsOf outs)).map (fun p => e.record p.1 p.2) := by
    refine List.map_congr_left fun p hp => ?_
    replace hp := (List.mem_filter.mp hp).1
    have := hlane p.1
    rw [faultsOf_find hn hp] at this
    simp only [laneAfter] at this
    exact Env.record_congr e _ p.1 p.2 hfen (by rw [this]) (by rw [this])
  rw [hrec] at hu'
  clear hrec hfen
  unfold Env.closes
  generalize Env.close e outs = ec at *
  have hu1 : ec.u.uid = ec.c.uid := by rw [hc, hu']; exact hu
  have hug : ec.u.group ec.c.grp = some h := by rw [hc, hu']; exact hg
  have hun : ec.s.units = e.s.units := by have := congrArg State.units hs; exact this
  have hmem : ec.s.mem = e.s.mem := by have := congrArg State.mem hs; exact this
  have hout : ec.s.out = e.s.out ++ ((e.fresh (faultsOf outs)).filter (fun p => p.2.report)).map (fun p => Output.report 314 p.2.addr) := by have := congrArg State.out hs; exact this
  obtain ⟨i1, i2, i3, i4⟩ := Env.out_into ec hu1 hug
  rw [hc] at i1 i2 i3 i4
  refine ⟨ec.u.setGroup ec.c.grp ec.g, ec.g, ⟨by rw [hc]; exact i1, by rw [hc]; exact i2, ?_, ?_⟩, hlane, hb, ⟨hfronts.1, hfronts.2.1, hfronts.2.2, hlast⟩, hrest, ?_, ?_, ?_, hout, ?_, ?_⟩
  · intro k hk; rw [i3 k hk]; unfold State.unit?; rw [hun]
  · intro i hi; rw [hc, i4 i hi, hu']; rfl
  · show ec.u.stop = _; rw [hu']
  · show ec.u.stopAt = _; rw [hu']
  · show { ec.u with groups := e.u.groups, stop := e.u.stop, stopAt := e.u.stopAt } = e.u; rw [hu']
  · have : ({ ec.out with units := e.s.units, out := e.s.out, issued := e.s.issued } : State) = { { ec.s with issued := e.s.issued } with units := e.s.units, out := e.s.out } := rfl
    rw [this, hs]
  · intro a; show Memory.read ec.s.mem a = _; rw [hmem]

/-! Words taken lane by lane. -/

theorem View.foldl_turn {α : Type} (w : View) (k : View → Env → Nat → α → Env × LaneOut) (ps : List (Nat × α)) (e : Env) (os : List (Nat × LaneOut)) :
    ps.foldl (w.turn k) (e, os) = ((e.steps (k w) ps).1, os ++ (e.steps (k w) ps).2) := by
  induction ps generalizing e os with
  | nil => simp [Env.steps]
  | cons p ps ih =>
    rw [List.foldl_cons]
    show ps.foldl (w.turn k) ((k w e p.1 p.2).1, os ++ [(p.1, (k w e p.1 p.2).2)]) = _
    rw [ih]
    simp [Env.steps]

theorem Env.steps_lanes {α : Type} (k : Env → Nat → α → Env × LaneOut) (ps : List (Nat × α)) (e : Env) : ((e.steps k ps).2).map (·.1) = ps.map (·.1) := by
  induction ps generalizing e with
  | nil => rfl
  | cons p ps ih => simp [Env.steps, ih]

/-- An issue taken lane by lane, in the terms that claims use. -/
theorem Env.each_steps {α : Type} (e : Env) (gn : Nat) (ss : Bool) (xs : Nat → List Src) (chk : View → Nat → Except LFault α) (waits : View → List (Nat × α) → Bool)
    (k : View → Env → Nat → α → Env × LaneOut) (after : Env → List (Nat × LaneOut) → Env) :
    e.each gn ss xs chk waits k after =
      let act := e.guarded gn
      let w := e.view act (act.flatMap xs)
      let rs := act.map (fun l => (l, w.tries ss xs chk l))
      let r := Env.steps (e.popped w (act.flatMap xs)) (k w) (passes rs)
      if waits w (passes rs) then e.stall else (after r.1 r.2).finish (e.all (settles rs ++ r.2)) := by
  unfold Env.each
  simp only [View.foldl_turn, List.nil_append]

/-- The lanes of `all` are those of the issue. -/
theorem Env.all_lanes (e : Env) (outs : List (Nat × LaneOut)) : (e.all outs).map (·.1) = e.c.act := by
  unfold Env.all; simp [List.map_map, Function.comp_def]

theorem Env.outs_lanes (e : Env) (gn : Nat) (o : Nat → LaneOut) : (e.outs gn o).map (·.1) = e.c.act := by
  unfold Env.outs; simp [List.map_map, Function.comp_def]

/-! Cross-lane words. -/

theorem Env.viewX?_spec {e : Env} {gn : Nat} {pop xs : List Src} {reads : View → Nat → List (Nat × Src)} {sw : Option Nat} {w : View} (h : e.viewX? gn pop xs reads sw = some w) :
    w = e.view (e.guarded gn) pop ∧ (∀ l ∈ e.guarded gn, w.meets xs reads l = none) ∧ sw.any e.g.emptyS = false := by
  unfold Env.viewX? at h
  split at h
  · rename_i hc
    simp only [Option.some.injEq] at h
    subst h
    simp only [Bool.and_eq_true, Bool.not_eq_true'] at hc
    exact ⟨rfl, fun l hl => by simpa using List.all_eq_true.mp hc.1 l hl, hc.2⟩
  · simp at h

@[simp] theorem Group.beside_lanes (g : Group) (sw : Option (Nat × DWord)) (emp b : Bool) : (g.beside sw emp b).lanes = g.lanes := by cases sw <;> cases emp <;> rfl

/-- A lane that meets nothing waits for no register. -/
theorem View.blockedOn_none {w : View} {xs : List Src} {reads : View → Nat → List (Nat × Src)} {l : Nat} (h : w.meets xs reads l = none) : w.blockedOn xs reads l = [] := by
  unfold View.meets at h
  split at h
  · simp at h
  · rename_i hc
    unfold View.checks at hc
    rw [List.findSome?_eq_none_iff] at hc h
    unfold View.blockedOn
    rw [List.filterMap_eq_nil_iff]
    intro p hp
    have hn : w.check p.1 p.2 = none := by
      rcases List.mem_append.mp hp with hp | hp
      · obtain ⟨x, hx, rfl⟩ := List.mem_map.mp hp; exact hc x hx
      · exact h p hp
    rw [hn]

/-- A cross-lane issue whose reads and write are not blocked completes with its writes, its s register and the empty flag. -/
theorem Env.runX_result (e : Env) (s : State) (gn : Nat) (pop xs : List Src) (reads : View → Nat → List (Nat × Src)) (f : View → Nat → Writes) (sw : View → Option (Nat × DWord)) (sn : Option Nat) (emp : Bool) (w : View)
    (h : e.ofLanes s) (hv : e.viewX? gn pop xs reads sn = some w) (hs : (sw w).map (·.1) = sn) (hw : ∀ l ∈ e.guarded gn, (f w l).plain) :
    ∃ t, e.runX gn pop xs reads f sw emp = .next t ∧ (e.besides w xs (sw w) emp).laneResult t w (f w) := by
  obtain ⟨v1, v2, v3⟩ := Env.viewX?_spec hv
  have hrs : (e.guarded gn).filterMap (fun l => (w.meets xs reads l).map (fun o => (l, o))) = [] := by
    rw [List.filterMap_eq_nil_iff]
    intro l hl
    rw [v2 l hl]; rfl
  have hbl : (e.guarded gn).flatMap (w.blockedOn xs reads) = [] := by
    rw [List.flatMap_eq_nil_iff]
    exact fun l hl => View.blockedOn_none (v2 l hl)
  have hsw : ∀ p, sw w = some p → e.g.emptyS p.1 = false := by
    intro p hp; subst hs; rw [hp] at v3; simpa using v3
  have heq : e.runX gn pop xs reads f sw emp = Env.finish { e.popped w xs with g := (e.guarded gn).foldl (fun g l => g.apply l (f w l)) ((e.popped w xs).g.beside (sw w) emp (e.guarded gn).isEmpty) } (e.c.act.map (fun l => (l, .next))) := by
    unfold Env.runX
    simp only [← v1, hrs, hbl, List.any_nil, Bool.false_eq_true, if_false, List.nil_append]
    cases hq : sw w with
    | none => rfl
    | some p => simp only [hsw p hq, Bool.false_eq_true, if_false]; rfl
  rw [heq]
  have ha : w.act = e.guarded gn := by rw [v1]; rfl
  have := Env.popped_result e s gn pop xs (e.besides w xs (sw w) emp) (f w) h rfl (by rw [← v1]; rfl) (by unfold Env.besides; simp) hw
  rw [← v1] at this
  unfold Env.besides at this ⊢
  rw [ha] at this ⊢
  exact this

/-! Group words. -/

/-- A lane of the group that is live is one of its lanes. -/
theorem Group.liveLanes_lt {g : Group} {l : Nat} (h : l ∈ g.liveLanes) : l < g.lanes.length := by
  unfold Group.liveLanes Group.which at h
  simp only [List.mem_filter, List.mem_range] at h
  exact h.1

/-- A group word that completes. -/
theorem Env.groupTo_result (e : Env) (pc : Nat) {h : Group} (hu : e.u.uid = e.c.uid) (hg : e.u.group e.c.grp = some h) : ∃ t, e.groupTo pc = .next t ∧ e.groupResult t pc := by
  refine ⟨_, rfl, ?_⟩
  obtain ⟨i1, i2, i3, i4⟩ := Env.out_into { e with g := { (e.g.setLanes e.g.liveLanes (fun _ x => { x with pc := pc, st := .subscribed })).chosen e.s.cycle with bcast := pc, tow := [], peerRead := [], lastLanes := [] } } hu hg
  refine ⟨_, _, ⟨⟨i1, i2, i3, i4⟩, WorkUnit.setGroup_rest _ _ _, rfl, fun a => rfl⟩, rfl, rfl, ?_, rfl, rfl, rfl⟩
  intro l
  have : ∀ g : Group, ({ g.chosen e.s.cycle with bcast := pc, tow := [], peerRead := [], lastLanes := [] } : Group).lane l = g.lane l := fun _ => rfl
  rw [this, Group.lane_setLanes]
  by_cases hl : l ∈ e.g.liveLanes
  · simp [hl, Group.liveLanes_lt hl]
  · simp [hl]

/-- A group word that faults. -/
theorem Env.groupFault_stops (e : Env) (f : LFault) {h : Group} (hu : e.u.uid = e.c.uid) (hg : e.u.group e.c.grp = some h) : ∃ t, e.groupFault f = .next t ∧ e.groupStops t f := by
  refine ⟨_, rfl, ?_⟩
  generalize he : ({ e with g := { e.g.setLanes e.g.liveLanes (fun _ x => { x with pc := e.c.pc }) with bcast := e.c.pc, peerRead := [] } } : Env) = e1
  have h1 : e1.s = e.s := by subst he; rfl
  have h2 : e1.c = e.c := by subst he; rfl
  have h3 : e1.u = e.u := by subst he; rfl
  have hl : ∀ l, e1.g.lane l = if l ∈ e.g.liveLanes then { e.g.lane l with pc := e.c.pc } else e.g.lane l := by
    intro l; subst he
    have : ∀ g : Group, ({ g with bcast := e.c.pc, peerRead := [] } : Group).lane l = g.lane l := fun _ => rfl
    simp only [this, Group.lane_setLanes]
    by_cases hl : l ∈ e.g.liveLanes
    · simp [hl, Group.liveLanes_lt hl]
    · simp [hl]
  have hrest : { e1.g with lanes := e.g.lanes, bcast := e.g.bcast, peerRead := e.g.peerRead } = e.g := by subst he; rfl
  have hb : e1.g.bcast = e.c.pc := by subst he; rfl
  obtain ⟨i1, i2, i3, i4⟩ := Env.out_into (e1.stop (e.g.liveLanes.map (fun l => (l, f)))) (h := h) (by rw [Env.stop_u, Env.stop_c, h2, h3]; exact hu) (by rw [Env.stop_u, Env.stop_c, h2, h3]; exact hg)
  rw [Env.stop_c, h2] at i1 i2 i3 i4
  have hgs : (e1.stop (e.g.liveLanes.map (fun l => (l, f)))).g = e1.g := Env.stop_g _ _
  rw [hgs] at i1 i2 i4
  have hfr : e1.fresh (e.g.liveLanes.map (fun l => (l, f))) = e.fresh (e.g.liveLanes.map (fun l => (l, f))) := by unfold Env.fresh; rw [h3, h2]
  refine ⟨_, e1.g, ⟨i1, i2, fun k hk => ?_, fun i hi => ?_⟩, hb, hl, hrest, ?_, ?_, ?_, ?_, fun a => ?_⟩
  · rw [i3 k hk, Env.stop_s, h1]; rfl
  · rw [i4 i hi, Env.stop_u, h3]; rfl
  · rw [Env.stop_u, h3, hfr]
    show List.map _ (e.u.stop ++ _) = _
    rw [List.map_append]
    congr 1
    rw [List.map_map]
    refine List.map_congr_left (fun p hp => ?_)
    obtain ⟨l, hm, rfl⟩ := List.mem_map.mp (List.mem_filter.mp hp).1
    simp only [Function.comp, Env.record, hl, hm, if_true, h2]
  · rw [Env.stop_u, h3, hfr, h1]; rfl
  · rw [Env.stop_u, h3]; rfl
  · unfold Env.out; rw [Env.stop_s, h1]; rfl
  · unfold Env.out; rw [Env.stop_s, h1]; rfl

end Sys2Proof.Machine
end

