-- ==== Sys2Proof/Laws/Words.lean ====
section
/-! SUPPORT. From the shared operations to the shapes in which Safety states what a word does. -/

namespace Sys2Proof.Machine

/-- A meaning that issues within an issue acts in the same environment. -/
theorem State.issue_nest (s : State) (c : Env → Bool) (a : Env → Out) (k : Env → Env → Out) :
    s.issue (fun e => if c e then a e else s.issue (k e)) = s.issue (fun e => if c e then a e else k e e) := by
  unfold State.issue
  cases s.env? with
  | none => rfl
  | some e => simp only []; split <;> rfl

/-- An issue of one access always comes to a next state. -/
theorem Env.once_next {α : Type} (e : Env) (gn : Nat) (ss : Bool) (xs : List Src) (chk : View → Nat → Except LFault α) (waits : List Nat → Nat → α → Bool) (k : View → Nat → α → Env × LaneOut) :
    e.once gn ss xs chk waits k = .next (stateOf e.s (e.once gn ss xs chk waits k)) := by
  unfold Env.once; simp only []; split
  · rfl
  · split
    · rfl
    · split <;> rfl

@[simp] theorem Group.enterAt_lanes (g : Group) (ls : List Nat) (rpc seq : Nat) (dep : Nat → Nat) (ent : Option Nat) : (g.enterAt ls rpc seq dep ent).lanes.length = g.lanes.length := by
  unfold Group.enterAt
  split
  · rfl
  · simp only []; split <;> simp only [Group.length_setLanes]
@[simp] theorem Group.enter_lanes (g : Group) (ls : List Nat) (r : Nat) : (g.enter ls r).lanes.length = g.lanes.length := by
  unfold Group.enter; split
  · rfl
  · rw [Group.enterAt_lanes]

/-- A per-lane word. -/
theorem laneWord_run (i : Instr) (gn : Nat) (ok : Env → Bool) (xs : Env → List Src) (f : Env → View → Nat → Except LFault Writes) (wr : Env → View → Nat → Writes)
    (hx : ∀ s, exec i s = s.issue (fun e => if !(ok e) then e.illegal else e.run gn (xs e) (f e)))
    (hf : ∀ e w l, f e w l = .ok (wr e w l)) (hp : wellFormed i = true → ∀ e w l, ok e = true → (wr e w l).plain) :
    laneWord i ok (fun e => e.view? gn (xs e)) (fun e w => e.popped w (xs e)) wr := by
  intro s e h hw
  rw [hx, State.issue_lanes s e h]
  refine ⟨fun ho w hv => ?_, fun ho => by simp [ho]⟩
  simp only [ho, Bool.not_true, Bool.false_eq_true, if_false]
  exact Env.run_result e s gn (xs e) (f e) w (wr e w) h hv (fun l _ => hf e w l) (fun l _ => hp hw e w l ho)

/-- A cross-lane word. -/
theorem laneWord_runX (i : Instr) (gn : Nat) (ok : Env → Bool) (pop xs : Env → List Src) (reads : Env → View → Nat → List (Nat × Src)) (wr : Env → View → Nat → Writes)
    (sw : Env → View → Option (Nat × DWord)) (sn : Env → Option Nat) (emp : Bool)
    (hx : ∀ s, exec i s = s.issue (fun e => if !(ok e) then e.illegal else e.runX gn (pop e) (xs e) (reads e) (wr e) (sw e) emp))
    (hs : ∀ e w, (sw e w).map (·.1) = sn e) (hp : wellFormed i = true → ∀ e w l, ok e = true → (wr e w l).plain) :
    laneWord i ok (fun e => e.viewX? gn (pop e) (xs e) (reads e) (sn e)) (fun e w => e.besides w (xs e) (sw e w) emp) wr := by
  intro s e h hw
  rw [hx, State.issue_lanes s e h]
  refine ⟨fun ho w hv => ?_, fun ho => by simp [ho]⟩
  simp only [ho, Bool.not_true, Bool.false_eq_true, if_false]
  exact Env.runX_result e s gn (pop e) (xs e) (reads e) (wr e) (sw e) (sn e) emp w h hv (hs e w) (fun l _ => hp hw e w l ho)

/-- What `steps` keeps of the issue where every lane's step keeps it. -/
theorem Env.steps_keep {α : Type} (P : Env → Prop) (k : Env → Nat → α → Env × LaneOut) (hk : ∀ e l a, P e → P (k e l a).1) (ps : List (Nat × α)) (e : Env) (h : P e) : P (e.steps k ps).1 := by
  induction ps generalizing e with
  | nil => exact h
  | cons p ps ih => exact ih _ (hk e p.1 p.2 h)

/-- Steps each of which completes leave every lane with its completion. -/
theorem Env.steps_next {α : Type} (P : Env → Prop) (k : Env → Nat → α → Env × LaneOut) (ps : List (Nat × α)) (hP : ∀ e l a, P e → P (k e l a).1) (hk : ∀ p ∈ ps, ∀ e, P e → (k e p.1 p.2).2 = .next)
    (e : Env) (h : P e) : (e.steps k ps).2 = ps.map (fun p => (p.1, LaneOut.next)) := by
  induction ps generalizing e with
  | nil => rfl
  | cons p ps ih =>
    simp only [Env.steps, List.map_cons, hk p (by simp) e h]
    rw [ih (fun q hq => hk q (by simp [hq])) _ (hP e p.1 p.2 h)]

/-- What every meaning of a lane word keeps of its issue: the issue but for the stream entries it holds, the unit's key, that the unit holds the group, and its lanes. -/
abbrev Env.keeps (e e1 : Env) : Prop := { e1.c with held := e.c.held } = e.c ∧ e1.u.uid = e.u.uid ∧ e1.u.groups.length = e.u.groups.length ∧ e1.g.lanes.length = e.g.lanes.length

theorem Env.keeps_refl (e : Env) : e.keeps e := ⟨rfl, rfl, rfl, rfl⟩

theorem Env.keeps_popped (e : Env) (w : View) (xs : List Src) : e.keeps (e.popped w xs) := ⟨rfl, rfl, rfl, rfl⟩

theorem Env.keeps_trans {e e1 e2 : Env} (h : e.keeps e1) (k : e1.keeps e2) : e.keeps e2 := by
  refine ⟨?_, k.2.1.trans h.2.1, k.2.2.1.trans h.2.2.1, k.2.2.2.trans h.2.2.2⟩
  have h1 := h.1
  rw [← k.1] at h1
  exact h1

theorem Env.keeps_act {e e1 : Env} (h : e.keeps e1) : e1.c.act = e.c.act := by have := congrArg Issue.act h.1; exact this
theorem Env.keeps_uid {e e1 : Env} (h : e.keeps e1) : e1.c.uid = e.c.uid := by have := congrArg Issue.uid h.1; exact this
theorem Env.keeps_grp {e e1 : Env} (h : e.keeps e1) : e1.c.grp = e.c.grp := by have := congrArg Issue.grp h.1; exact this

theorem WorkUnit.group_lt {u : WorkUnit} {i : Nat} {g : Group} (h : u.group i = some g) : i < u.groups.length := (List.getElem?_eq_some_iff.mp h).1
theorem WorkUnit.group_of_lt {u : WorkUnit} {i : Nat} (h : i < u.groups.length) : ∃ g, u.group i = some g := ⟨_, List.getElem?_eq_getElem h⟩

theorem Env.keeps_group {e e1 : Env} {s : State} (h : e.ofLanes s) (hk : e.keeps e1) : ∃ g, e1.u.group e1.c.grp = some g :=
  WorkUnit.group_of_lt (by rw [Env.keeps_grp hk, hk.2.2.1]; exact WorkUnit.group_lt (Env.group_of_lanes h))

/-- An issue that kept what it must closes with the outcomes given. -/
theorem Env.finish_keeps {e e1 : Env} {s : State} (h : e.ofLanes s) (hk : e.keeps e1) (outs : List (Nat × LaneOut)) (ho : outs.map (·.1) = e.c.act) :
    ∃ t, e1.finish outs = .next t ∧ e1.closes t outs := by
  obtain ⟨g, hg⟩ := Env.keeps_group h hk
  refine Env.finish_closes e1 outs (by rw [hk.2.1, Env.keeps_uid hk]; exact h.2.1) hg ?_ (by rw [ho]; exact h.2.2.2.2.1)
  intro p hp
  have : p.1 ∈ e.c.act := by rw [← ho]; exact List.mem_map.mpr ⟨p, hp, rfl⟩
  show p.1 < e1.g.lanes.length
  rw [hk.2.2.2]; exact h.2.2.2.2.2 _ this

/-- The outcomes of an issue whose guarded lanes all go on. -/
theorem Env.all_next (e : Env) (ls : List Nat) : e.all (ls.map (fun l => (l, LaneOut.next))) = e.c.act.map (fun l => (l, .next)) := by
  unfold Env.all
  refine List.map_congr_left fun l _ => ?_
  rw [find?_map_pair ls (fun _ => LaneOut.next)]
  by_cases hl : l ∈ ls <;> simp [hl]

theorem Env.outs_next (e : Env) (gn : Nat) : e.outs gn (fun _ => .next) = e.c.act.map (fun l => (l, .next)) := by
  unfold Env.outs; simp

/-- Where all lanes pass, they all have their step and none is through already. -/
theorem passes_all {α : Type} {rs : List (Nat × Except LaneOut α)} (h : ∀ r ∈ rs, ∃ a, r.2 = .ok a) : settles rs = [] ∧ (passes rs).map (·.1) = rs.map (·.1) := by
  induction rs with
  | nil => exact ⟨rfl, rfl⟩
  | cons r rs ih =>
    obtain ⟨a, ha⟩ := h r (by simp)
    obtain ⟨i1, i2⟩ := ih (fun q hq => h q (by simp [hq]))
    unfold settles passes at *
    simp only [List.filterMap_cons, ha, List.map_cons]
    exact ⟨i1, by rw [i2]⟩

theorem mem_passes {α : Type} {rs : List (Nat × Except LaneOut α)} {p : Nat × α} (h : p ∈ passes rs) : (p.1, .ok p.2) ∈ rs := by
  unfold passes at h
  rw [List.mem_filterMap] at h
  obtain ⟨⟨l, r⟩, hq, hp⟩ := h
  cases r with
  | error o => simp at hp
  | ok a => simp only [Option.some.injEq] at hp; subst hp; exact hq

/-- A word's turn in the queues leaves its issue as it is, but for the queue. -/
def Turn.keeps (e0 : Env) : Turn → Prop
  | .go e _ => e.s = e0.s ∧ e0.keeps e
  | _ => True

theorem Env.turn_keeps (e : Env) (i : Instr) (heavy : Bool) (ls : List Nat) : (e.turn i heavy ls).keeps e := by
  unfold Env.turn
  simp only []
  split
  · split
    · trivial
    · exact ⟨rfl, rfl, rfl, rfl, rfl⟩
  · split
    · trivial
    · exact ⟨rfl, e.keeps_refl⟩

/-- A word taken lane by lane, with any relation `P` between the issue and its steps that implies `keeps`. -/
theorem eachIf_each {α : Type} (pre : Env → Bool) (enter : Env → Turn) (i : Instr) (gn : Nat) (ok : Env → Bool) (ss : Bool) (xs : Env → Nat → List Src) (chk : Env → View → Nat → Except LFault α)
    (waits : Env → View → List (Nat × α) → Bool) (k : Env → View → Env → Nat → α → Env × LaneOut) (after : Env → Env → List (Nat × LaneOut) → Env) (fine : Env → View → Nat → α → Prop)
    (P : Env → Env → Prop) (K : Env → Out) (hx : ∀ s, exec i s = s.issue (fun e => if !(ok e) then e.illegal else K e))
    (hK : ∀ e0, ok e0 = true → pre e0 = true → K e0 = match enter e0 with
      | .wait => e0.stall
      | .queue e1 => .next e1.out
      | .go e _ => e.each gn ss (xs e) (chk e) (waits e) (k e) (after e))
    (he : ∀ e0, (enter e0).keeps e0) (h0 : ∀ (e : Env) w xs, P e (e.popped w xs)) (hk : ∀ (e : Env) (w : View) (e1 : Env) (l : Nat) (a : α), P e e1 → P e (k e w e1 l a).1)
    (ha : ∀ (e e1 : Env) os, P e e1 → e.keeps (after e e1 os)) (hf : ∀ (e : Env) (w : View) (e1 : Env) (l : Nat) (a : α), P e e1 → fine e w l a → (k e w e1 l a).2 = .next) :
    eachIf pre enter i gn ok ss xs chk waits k after fine := by
  intro s e0 h _
  rw [hx, State.issue_lanes s e0 h]
  refine ⟨fun ho => by simp [ho], fun ho hp => ?_⟩
  have hs : e0.s = s := (State.env?_spec h.1).1
  simp only [ho, Bool.not_true, Bool.false_eq_true, if_false, hK e0 ho hp]
  have hek := he e0
  cases hen : enter e0 with
  | wait => simp only []; unfold Env.stall; rw [hs]
  | queue e1 => rfl
  | go e n =>
    rw [hen] at hek
    obtain ⟨hes, hek⟩ := hek
    simp only [Env.each_steps]
    generalize hw : e.view (e.guarded gn) ((e.guarded gn).flatMap (xs e)) = w
    generalize hr : Env.steps (e.popped w ((e.guarded gn).flatMap (xs e))) (k e w) _ = r
    have hP : P e r.1 := by rw [← hr]; exact Env.steps_keep (P e) (k e w) (fun e1 l a => hk e w e1 l a) _ _ (h0 _ _ _)
    have hact : e.c.act = e0.c.act := Env.keeps_act hek
    have hkk := Env.keeps_trans hek (ha e r.1 r.2 hP)
    refine ⟨fun hwt => ?_, fun hwt => ?_, fun hwt hall => ?_⟩
    · simp only [hwt, if_true]; unfold Env.stall; rw [hes, hs]
    · simp only [hwt, Bool.false_eq_true, if_false]
      exact Env.finish_keeps h hkk _ (by rw [Env.all_lanes, hact])
    · simp only [hwt, Bool.false_eq_true, if_false]
      obtain ⟨h1, h2⟩ := passes_all (rs := (e.guarded gn).map (fun l => (l, w.tries ss (xs e) (chk e) l))) (by
        intro q hq
        obtain ⟨l, hl, rfl⟩ := List.mem_map.mp hq
        obtain ⟨a, h3, -⟩ := hall l hl
        exact ⟨a, h3⟩)
      have hn : r.2 = (passes ((e.guarded gn).map (fun l => (l, w.tries ss (xs e) (chk e) l)))).map (fun p => (p.1, LaneOut.next)) := by
        rw [← hr]
        refine Env.steps_next (P e) _ _ (fun e1 l a => hk e w e1 l a) (fun p hp e1 h1 => ?_) _ (h0 _ _ _)
        obtain ⟨l, hl, heq⟩ := List.mem_map.mp (mem_passes hp)
        obtain ⟨a, h3, h4⟩ := hall l hl
        rw [h3] at heq
        injection heq with ha1 ha2
        injection ha2 with ha2
        subst ha1; rw [← ha2]
        exact hf e w e1 _ _ h1 h4
      rw [h1, List.nil_append]
      have h5 : e.all r.2 = e.c.act.map (fun l => (l, LaneOut.next)) := by
        rw [hn]
        have := Env.all_next e ((passes ((e.guarded gn).map (fun l => (l, w.tries ss (xs e) (chk e) l)))).map (·.1))
        rw [List.map_map] at this
        exact this
      rw [h5]
      exact Env.finish_keeps h hkk _ (by rw [hact]; simp [List.map_map, Function.comp_def])

/-- The same for a word that takes no turn in a queue. -/
theorem eachIs_each {α : Type} (i : Instr) (gn : Nat) (ok : Env → Bool) (ss : Bool) (xs : Env → Nat → List Src) (chk : Env → View → Nat → Except LFault α)
    (waits : Env → View → List (Nat × α) → Bool) (k : Env → View → Env → Nat → α → Env × LaneOut) (after : Env → Env → List (Nat × LaneOut) → Env) (fine : Env → View → Nat → α → Prop) (P : Env → Env → Prop)
    (hx : ∀ s, exec i s = s.issue (fun e => if !(ok e) then e.illegal else e.each gn ss (xs e) (chk e) (waits e) (k e) (after e)))
    (h0 : ∀ (e : Env) w xs, P e (e.popped w xs)) (hk : ∀ (e : Env) (w : View) (e1 : Env) (l : Nat) (a : α), P e e1 → P e (k e w e1 l a).1)
    (ha : ∀ (e e1 : Env) os, P e e1 → e.keeps (after e e1 os)) (hf : ∀ (e : Env) (w : View) (e1 : Env) (l : Nat) (a : α), P e e1 → fine e w l a → (k e w e1 l a).2 = .next) :
    eachIs i gn ok ss xs chk waits k after fine :=
  eachIf_each (fun _ => true) (fun e => .go e 0) i gn ok ss xs chk waits k after fine P _ hx (fun _ _ _ => rfl) (fun e => ⟨rfl, e.keeps_refl⟩) h0 hk ha hf

/-- A word of one access. -/
theorem onceIf_once {α : Type} (pre : Env → Bool) (enter : Env → Turn) (i : Instr) (gn : Nat) (ok : Env → Bool) (ss : Bool) (xs : List Src) (chk : Env → View → Nat → Except LFault α)
    (waits : Env → List Nat → Nat → α → Bool) (k : Env → Env → View → Nat → α → Env × LaneOut) (post : Env → State → State) (fine : Env → View → Nat → α → Prop)
    (K : Env → Out) (hx : ∀ s, exec i s = s.issue (fun e => if !(ok e) then e.illegal else K e))
    (hK : ∀ e0, ok e0 = true → pre e0 = true → K e0 = match enter e0 with
      | .wait => e0.stall
      | .queue e1 => .next e1.out
      | .go e _ => .next (post e (stateOf e0.s (e.once gn ss xs (chk e) (waits e) (k e0 e)))))
    (he : ∀ e0, (enter e0).keeps e0) (hk : ∀ (e0 e : Env) (w : View) (l : Nat) (a : α), e0.keeps e → e.keeps (k e0 e w l a).1)
    (hf : ∀ (e0 e : Env) (w : View) (l : Nat) (a : α), fine e w l a → (k e0 e w l a).2 = .next) :
    onceIf pre enter i gn ok ss xs chk waits k post fine := by
  intro s e0 h _
  rw [hx, State.issue_lanes s e0 h]
  refine ⟨fun ho => by simp [ho], fun ho hp => ?_⟩
  have hs : e0.s = s := (State.env?_spec h.1).1
  simp only [ho, Bool.not_true, Bool.false_eq_true, if_false, hK e0 ho hp]
  have hek := he e0
  cases hen : enter e0 with
  | wait => simp only []; unfold Env.stall; rw [hs]
  | queue e1 => rfl
  | go e n =>
    rw [hen] at hek
    obtain ⟨hes, hek⟩ := hek
    have hact : e.c.act = e0.c.act := Env.keeps_act hek
    have hlanes : ∀ o, (e.outs gn o).map (·.1) = e0.c.act := fun o => by rw [Env.outs_lanes, hact]
    have hnext : (e.c.act.map (fun l => (l, LaneOut.next))).map (·.1) = e0.c.act := by rw [hact]; simp [List.map_map, Function.comp_def]
    have hfin : ∀ e1 outs, e0.keeps e1 → outs.map (·.1) = e0.c.act → ∃ t, Host.Outcome.next (post e (stateOf e0.s (e1.finish outs))) = (Host.Outcome.next (post e t) : Out) ∧ e1.closes t outs := by
      intro e1 outs hk1 ho1
      obtain ⟨t, h1, h2⟩ := Env.finish_keeps h hk1 outs ho1
      exact ⟨t, by rw [h1]; rfl, h2⟩
    refine ⟨fun hg => ?_, fun low rest hg => ⟨fun o hq => ?_, fun a hq => ⟨fun hwt => ?_, fun hwt => ?_, fun hwt hfn => ?_⟩⟩⟩
    · have : e.once gn ss xs (chk e) (waits e) (k e0 e) = e.finish (e.c.act.map (fun l => (l, .next))) := by unfold Env.once; simp [hg]
      simp only [this]
      exact hfin e _ hek hnext
    · have : e.once gn ss xs (chk e) (waits e) (k e0 e) = e.finish (e.outs gn (fun _ => o)) := by
        unfold Env.once Env.outs; simp only [hg] at hq ⊢; simp only [hq]
      simp only [this]
      exact hfin e _ hek (hlanes _)
    · have : e.once gn ss xs (chk e) (waits e) (k e0 e) = e.stall := by
        unfold Env.once; simp only [hg] at hq hwt ⊢; simp only [hq, hwt, if_true]
      simp only [this]
      unfold Env.stall stateOf; rw [hes, hs]
    · have : e.once gn ss xs (chk e) (waits e) (k e0 e) = (k e0 e (e.view (e.guarded gn) []) low a).1.finish (e.outs gn (fun _ => (k e0 e (e.view (e.guarded gn) []) low a).2)) := by
        unfold Env.once Env.outs; simp only [hg] at hq hwt ⊢; simp only [hq, hwt, Bool.false_eq_true, if_false]
      simp only [this]
      exact hfin _ _ (Env.keeps_trans hek (hk e0 e _ low a hek)) (hlanes _)
    · have : e.once gn ss xs (chk e) (waits e) (k e0 e) = (k e0 e (e.view (e.guarded gn) []) low a).1.finish (e.outs gn (fun _ => (k e0 e (e.view (e.guarded gn) []) low a).2)) := by
        unfold Env.once Env.outs; simp only [hg] at hq hwt ⊢; simp only [hq, hwt, Bool.false_eq_true, if_false]
      simp only [this, hf e0 e _ low a hfn, Env.outs_next]
      exact hfin _ _ (Env.keeps_trans hek (hk e0 e _ low a hek)) hnext

/-- A word that comes to given outcomes. -/
theorem outWord_finish (i : Instr) (ok waits : Env → Bool) (left : Env → Env) (outs : Env → List (Nat × LaneOut)) (post : Env → State → State)
    (hx : ∀ s, exec i s = s.issue (fun e => if !(ok e) then e.illegal else if waits e then e.stall else .next (post e ((left e).close (outs e)).out)))
    (hk : ∀ e : Env, e.keeps (left e)) (ho : ∀ e : Env, (outs e).map (·.1) = e.c.act) : outWord i ok waits left outs post := by
  intro s e h _
  rw [hx, State.issue_lanes s e h]
  refine ⟨fun hl hwt => ?_, fun hl hwt => ?_, fun hl => by simp [hl]⟩
  · simp only [hl, hwt, Bool.not_true, Bool.false_eq_true, if_false]
    obtain ⟨t, h1, h2⟩ := Env.finish_keeps h (hk e) (outs e) (ho e)
    injection h1 with h1
    exact ⟨t, by rw [← h1], h2⟩
  · simp only [hl, hwt, Bool.not_true, Bool.false_eq_true, if_false, if_true]
    unfold Env.stall; rw [(State.env?_spec h.1).1]

/-! Group words. -/

/-- What a group word's meaning keeps of its issue. -/
abbrev Env.keepsG (e e1 : Env) : Prop := e1.c = e.c ∧ e1.u.uid = e.u.uid ∧ e1.u.groups.length = e.u.groups.length

/-- A group word that kept what it must goes on at its next word. -/
theorem Env.groupTo_keeps {e e1 : Env} {s : State} (h : e.ofGroup s) (hk : e.keepsG e1) (pc : Nat) : ∃ t, e1.groupTo pc = .next t ∧ e1.groupResult t pc := by
  obtain ⟨g, hg⟩ := WorkUnit.group_of_lt (u := e1.u) (i := e1.c.grp) (by rw [hk.1, hk.2.2]; exact WorkUnit.group_lt (State.env?_spec h.1).2.2.2)
  exact Env.groupTo_result e1 pc (by rw [hk.2.1, hk.1]; exact h.2.1) hg

/-- A group word that kept what it must and faults. -/
theorem Env.groupFault_keeps {e e1 : Env} {s : State} (h : e.ofGroup s) (hk : e.keepsG e1) (f : LFault) : ∃ t, e1.groupFault f = .next t ∧ e1.groupStops t f := by
  obtain ⟨g, hg⟩ := WorkUnit.group_of_lt (u := e1.u) (i := e1.c.grp) (by rw [hk.1, hk.2.2]; exact WorkUnit.group_lt (State.env?_spec h.1).2.2.2)
  exact Env.groupFault_stops e1 f (by rw [hk.2.1, hk.1]; exact h.2.1) hg

/-- How a group word meets its s registers. -/
theorem Env.whenFull_wait {e : Env} {ss : List Nat} (h : ss.any e.g.emptyS = true) (k : Out) : e.whenFull ss k = e.stall := by simp [Env.whenFull, h]
theorem Env.whenFull_fault {e : Env} {ss : List Nat} {f : LFault} (h : ss.any e.g.emptyS = false) (hu : e.unfilled? ss = some f) (k : Out) : e.whenFull ss k = e.groupFault f := by
  unfold Env.unfilled? at hu; simp [Env.whenFull, h, hu]
theorem Env.whenFull_go {e : Env} {ss : List Nat} (h : ss.any e.g.emptyS = false) (hu : e.unfilled? ss = none) (k : Out) : e.whenFull ss k = k := by
  unfold Env.unfilled? at hu; simp [Env.whenFull, h, hu]

/-- A group word. -/
theorem groupWord_next (i : Instr) (ok : Env → Bool) (ss : Env → List Nat) (left : Env → Env) (pc : Env → Nat)
    (hx : ∀ s, exec i s = s.issue (fun e => if !(ok e) then e.groupIllegal else e.whenFull (ss e) ((left e).groupTo (pc e))))
    (hk : ∀ e : Env, e.keepsG (left e)) : groupWord i ok ss left pc := by
  intro s e h _
  rw [hx, State.issue_group s e h]
  refine ⟨fun ho hf hu => ?_, fun ho hf f hu => ?_, fun ho hf => ?_, fun ho => by simp [ho]⟩ <;> simp only [ho, Bool.not_true, Bool.false_eq_true, if_false]
  · rw [Env.whenFull_go hf hu]; exact Env.groupTo_keeps h (hk e) (pc e)
  · rw [Env.whenFull_fault hf hu]; exact Env.groupFault_keeps h ⟨rfl, rfl, rfl⟩ f
  · rw [Env.whenFull_wait hf]; unfold Env.stall; rw [(State.env?_spec h.1).1]

/-- What a group word's end keeps of its issue. -/
def Env.keepsEnd (e : Env) : GroupEnd → Prop
  | .wait => True
  | .stays _ => True
  | .fault e1 _ => e.keepsG e1
  | .goes e1 _ => e.keepsG e1

/-- A group word that may wait or fault. -/
theorem groupCase_ends (i : Instr) (ok : Env → Bool) (ss : Env → List Nat) (k : Env → GroupEnd) (K : Env → Out)
    (hx : ∀ s, exec i s = s.issue (fun e => if !(ok e) then e.groupIllegal else e.whenFull (ss e) (K e)))
    (hK : ∀ e, ok e = true → K e = (k e).out e.s) (hk : ∀ e : Env, e.keepsEnd (k e)) : groupCase i ok ss k := by
  intro s e h _
  rw [hx, State.issue_group s e h]
  refine ⟨fun ho hf f hu => ?_, fun ho hf hu => ?_, fun ho hf => ?_, fun ho => by simp [ho]⟩ <;> simp only [ho, Bool.not_true, Bool.false_eq_true, if_false]
  · rw [Env.whenFull_fault hf hu]; exact Env.groupFault_keeps h ⟨rfl, rfl, rfl⟩ f
  · rw [Env.whenFull_go hf hu, hK e ho]
    have hke := hk e
    rw [← (State.env?_spec h.1).1]
    cases hq : k e with
    | wait => rfl
    | stays e1 => rfl
    | fault e1 f => rw [hq] at hke; exact Env.groupFault_keeps h hke f
    | goes e1 pc => rw [hq] at hke; exact Env.groupTo_keeps h hke pc
  · rw [Env.whenFull_wait hf]; unfold Env.stall; rw [(State.env?_spec h.1).1]

/-- A system word that has completed in a state: its register is written and its group goes on where its unit is still on its core (R280). -/
theorem Env.sysDone_result (e : Env) (s1 : State) (w : Option (Nat × DWord)) (hu : ∀ u, s1.unit? e.c.uid = some u → u.uid = e.c.uid) : ∃ t, e.sysDone s1 w = .next t ∧ e.sysResult s1 w t := by
  unfold Env.sysDone Env.sysResult
  cases h : State.env? { s1 with cur := some e.c } with
  | none => exact ⟨s1, rfl, rfl⟩
  | some e1 =>
    obtain ⟨-, h2, h3, h4⟩ := State.env?_spec h
    have hc : e1.c = e.c := by injection h2.symm
    have hid : e1.u.uid = e1.c.uid := by rw [hc]; exact hu _ (by rw [hc] at h3; exact h3)
    by_cases hr : e1.u.res = .resident
    · have : (e1.u.res != Residence.resident) = false := by simp [hr]
      simp only [hr, if_true]
      cases w with
      | none => exact Env.groupTo_result e1 e1.next hid h4
      | some p => exact Env.groupTo_result { e1 with g := e1.g.putS p.1 p.2 } e1.next hid h4
    · have : (e1.u.res != Residence.resident) = true := by simp [hr]
      simp only [this, if_true, hr, if_false]
      exact ⟨s1, rfl, rfl⟩

/-- A system word. -/
theorem sysIs_word (i : Instr) (ok : State → Bool) (ss : List Nat) (k K : Env → SysEnd) (hx : ∀ s, exec i s = sysWord (ok s) ss K s)
    (hk : ∀ s (e : Env), e.ofGroup s → ok s = true → K e = k e) : sysIs i ok ss k := by
  intro s e h _
  rw [hx]; unfold sysWord; rw [State.issue_group s e h]
  refine ⟨fun hs => by simp [hs], fun hs ho => by simp [hs, ho], fun hs ho hf => ?_, fun hs ho hf f hu => ?_, fun hs ho hf hu => ?_⟩ <;> simp only [hs, ho, Bool.not_true, Bool.false_eq_true, if_false]
  · rw [Env.whenFull_wait hf]; unfold Env.stall; rw [(State.env?_spec h.1).1]
  · rw [Env.whenFull_fault hf hu]
  · rw [Env.whenFull_go hf hu, hk s e h ho]
    cases k e with
    | wait s1 => rfl
    | fault code => rfl
    | fail s1 code => rfl
    | done s1 w => exact fun hu => Env.sysDone_result e s1 w hu

end Sys2Proof.Machine
end

