-- ==== Sys2Proof/Laws/Access.lean ====
section
/-! SUPPORT. What the steps of memory words keep of their issue, and when a lane's step completes. -/

namespace Sys2Proof.Machine

@[simp] theorem Group.setLane_length (g : Group) (l : Nat) (x : Lane) : (g.setLane l x).lanes.length = g.lanes.length := by simp [Group.setLane]
@[simp] theorem Group.pop_length (g : Group) (l : Nat) : (g.pop l).lanes.length = g.lanes.length := by simp [Group.pop]

/-- A fold keeps what each of its steps keeps. -/
theorem foldl_keep {α β γ : Type} (m : β → γ) (k : β → α → β) (hk : ∀ b a, m (k b a) = m b) (xs : List α) (b : β) : m (xs.foldl k b) = m b := by
  induction xs generalizing b with
  | nil => rfl
  | cons x xs ih => rw [List.foldl_cons, ih, hk]

@[simp] theorem Group.fillV_length (g : Group) (l n : Nat) (w : Word) : (g.fillV l n w).lanes.length = g.lanes.length := rfl

@[simp] theorem State.wakeThrGroup_length (s : State) (g : Group) : (s.wakeThrGroup g).lanes.length = g.lanes.length := by
  unfold State.wakeThrGroup
  simp only []
  split
  · rfl
  · refine foldl_keep (fun g : Group => g.lanes.length) _ (fun g t => ?_) _ g
    simp only [Group.setLane_length]
    split <;> simp

/-- Two issues are alike in what a meaning keeps. -/
theorem Env.keeps_of {e e1 e2 : Env} (h : e.keeps e1) (hc : e2.c = e1.c) (hu : e2.u.uid = e1.u.uid) (hn : e2.u.groups.length = e1.u.groups.length) (hl : e2.g.lanes.length = e1.g.lanes.length) : e.keeps e2 :=
  Env.keeps_trans h ⟨by rw [hc], hu, hn, hl⟩

theorem Env.keeps_touched (e : Env) (ls : List Nat) (a : Acc) (b : Bool) : e.keeps (e.touched ls a b) := by
  refine ⟨rfl, rfl, by simp [Env.touched], ?_⟩
  unfold Env.touched Group.hitFences; simp only []; split <;> rfl

theorem Env.keeps_produce (e : Env) (p : Producer) : e.keeps (e.produce p) := by
  unfold Env.produce; split
  · exact e.keeps_refl
  · exact ⟨rfl, rfl, rfl, rfl⟩

theorem Env.keeps_merge (e : Env) (n : Nat) : e.keeps (e.merge n) := ⟨rfl, rfl, rfl, rfl⟩

theorem Env.keeps_wrote (e : Env) (ks : List Nat) : e.keeps (e.wrote ks) := by
  unfold Env.wrote; split
  · exact e.keeps_refl
  · exact ⟨rfl, rfl, rfl, rfl⟩

theorem Env.keeps_store (e : Env) (l : Nat) (os : List Nat) (a : Acc) (bs : List Byte) (r x : Nat) : e.keeps (e.store l os a bs r x) := by
  unfold Env.store
  have h := Env.keeps_trans (e.keeps_touched (l :: os) a false) (Env.keeps_wrote _ a.keys)
  simp only []
  split <;> exact h

theorem Env.keeps_changed (e : Env) (s1 : State) (ks : List Nat) : e.keeps (e.changed s1 ks) := by
  unfold Env.changed
  exact ⟨rfl, rfl, by simp, by simp [Group.hitFences]⟩

@[simp] theorem Group.deferTo_length (g : Group) (p : Posted) (r : Nat) : (g.deferTo p r).lanes.length = g.lanes.length := by simp [Group.deferTo, Group.setLanes]

theorem Env.keeps_stored (e : Env) (n : Nat) : e.keeps (e.stored n) := by
  unfold Env.stored; simp only []; split
  · exact ⟨rfl, rfl, rfl, rfl⟩
  · refine ⟨rfl, rfl, rfl, ?_⟩
    refine (foldl_keep (fun g : Group => g.lanes.length) _ (fun g p => by simp) _ _).trans ?_
    rw [Group.enter_lanes]

theorem Env.keeps_raise (e : Env) (fl : Nat) : e.keeps { e with g := e.g.raise fl } := ⟨rfl, rfl, rfl, rfl⟩

theorem Env.keeps_apply (e : Env) (l : Nat) (w : Writes) : e.keeps { e with g := e.g.apply l w } := ⟨rfl, rfl, rfl, by simp⟩

theorem Env.keeps_push (e : Env) (l ret : Nat) : e.keeps (e.push l ret) := by
  unfold Env.push; simp only []
  split <;> exact ⟨rfl, rfl, rfl, by simp [Group.setLane]⟩

theorem Env.keeps_pushAll (e : Env) (ls : List Nat) : e.keeps (e.pushAll ls) := by
  unfold Env.pushAll
  induction ls generalizing e with
  | nil => exact e.keeps_refl
  | cons l ls ih => exact Env.keeps_trans (e.keeps_push l e.next) (ih _)

/-! The steps of lanes. -/

theorem loadLane_keeps (f : LW) (ds : List Nat) (kind : Nat → ProdKind) {e e1 : Env} (w : View) (l : Nat) (acc : Acc) (h : e.keeps e1) : e.keeps (loadLane f ds kind w e1 l acc).1 := by
  unfold loadLane
  refine Env.keeps_trans h (Env.keeps_trans (Env.keeps_touched e1 [l] acc true) (Env.keeps_trans ?_ (Env.keeps_produce _ _)))
  exact ⟨rfl, rfl, rfl, foldl_keep (fun g : Group => g.lanes.length) (fun (g : Group) d => g.markV l d true) (fun _ _ => rfl) ds _⟩

theorem storeLane_keeps (f : LW) (sc : Nat) (data : View → Nat → List Byte × Nat) {e e1 : Env} (w : View) (l : Nat) (acc : Acc) (h : e.keeps e1) : e.keeps (storeLane f sc data w e1 l acc).1 := by
  unfold storeLane; simp only []
  have h2 := Env.keeps_trans h (Env.keeps_raise e1 (data w l).2)
  split
  · exact Env.keeps_trans h2 (Env.keeps_trans (Env.keeps_wrote _ _) (Env.keeps_changed _ _ _))
  · exact Env.keeps_trans h2 (Env.keeps_store _ _ _ _ _ _ _)

/-- A store of bytes that are no lattice cells completes for its lane. -/
theorem storeLane_next (f : LW) (sc : Nat) (data : View → Nat → List Byte × Nat) (w : View) (e1 : Env) (l : Nat) (acc : Acc) (h : acc.g.kind ≠ .lattice) : (storeLane f sc data w e1 l acc).2 = .next := by
  unfold storeLane; simp [h]

theorem atomLane_keeps (f : LW) (n : Nat) (wide sgn : Bool) (op : Nat → AtomOp) {e e1 : Env} (w : View) (l : Nat) (acc : Acc) (h : e.keeps e1) : e.keeps (atomLane f n wide sgn op w e1 l acc).1 := by
  unfold atomLane
  refine Env.keeps_trans h (Env.keeps_trans (Env.keeps_touched e1 [l] acc false) (Env.keeps_trans ?_ (Env.keeps_produce _ _)))
  refine ⟨rfl, rfl, rfl, ?_⟩
  simp only []; split <;> rfl

theorem stjLane_keeps (f : LW) {e e1 : Env} (w : View) (l : Nat) (acc : Acc) (h : e.keeps e1) : e.keeps (stjLane f w e1 l acc).1 :=
  Env.keeps_trans h (Env.keeps_trans (Env.keeps_touched e1 [l] acc false) (Env.keeps_changed _ _ _))

theorem ldjLane_keeps (f : LW) {e e1 : Env} (w : View) (l : Nat) (acc : Acc) (h : e.keeps e1) : e.keeps (ldjLane f w e1 l acc).1 := by
  have h2 := Env.keeps_trans h (Env.keeps_touched e1 [l] acc true)
  unfold ldjLane
  generalize e1.touched [l] acc true = e2 at *
  simp only []
  split_ifs <;> first | exact Env.keeps_trans h2 (Env.keeps_apply _ _ _) | exact Env.keeps_trans h2 ⟨rfl, rfl, rfl, rfl⟩

theorem ldjNbLane_keeps (f : LW) {e e1 : Env} (w : View) (l : Nat) (acc : Acc) (h : e.keeps e1) : e.keeps (ldjNbLane f w e1 l acc).1 :=
  Env.keeps_trans h (Env.keeps_trans (Env.keeps_touched e1 [l] acc true) (Env.keeps_apply _ _ _))

/-- What one lane reads of a cell does not depend on what its issue has done before. -/
theorem Env.cellNow_touched (e : Env) (ls : List Nat) (a : Acc) (b : Bool) (acc : Acc) : (e.touched ls a b).cellNow acc = e.cellNow acc := by
  have hk : ∀ (s : State) x, (s.keepDie x).mem = s.mem := by
    intro s x; unfold State.keepDie; simp only []; split
    · rfl
    · split
      · rfl
      · split <;> rfl
  have hc : ∀ (s : State) x, (s.keepCore x).mem = s.mem := by intro s x; unfold State.keepCore; simp only []; split <;> rfl
  have hl : ∀ (s : State) c t, (s.learnAt c t).mem = s.mem := by
    intro s c t; unfold State.learnAt; split
    · rw [hc, hk]
    · rfl
  have hm : ∀ (s : State) n h, (s.makeRoom n h).mem = s.mem := by
    intro s n h; unfold State.makeRoom; simp only []
    split
    · rfl
    · split
      · rfl
      · split <;> rfl
  have he : ∀ (s : State) n h, (s.entryFor n h).1.mem = s.mem := by
    intro s n h; unfold State.entryFor; split
    · rfl
    · exact hm s n h
  have hs : ∀ (s : State) c ls, (s.share c ls).mem = s.mem := by
    intro s c ls; unfold State.share
    exact foldl_keep (fun s : State => s.mem) _ (fun s l => by
      simp only []; split
      · rfl
      · exact he s l.1 l.2) _ _
  unfold Env.cellNow Env.touched
  simp only [hs, hl]

/-- A producer to an s register. -/
theorem Env.keeps_produceS (e : Env) (n : Nat) (p : Producer) (k : Nat) : e.keeps ((Env.produce { e with g := e.g.markS n true } p).merge k) := by
  have h : e.keeps (Env.produce { e with g := e.g.markS n true } p) := Env.keeps_trans (e1 := { e with g := e.g.markS n true }) ⟨rfl, rfl, rfl, rfl⟩ (Env.keeps_produce _ p)
  exact Env.keeps_trans h (Env.keeps_merge _ k)

theorem ldsStep_keeps (f : LW) {e0 e : Env} (w : View) (l : Nat) (acc : Acc) (h : e0.keeps e) : e0.keeps (ldsStep f e w l acc).1 := by
  refine Env.keeps_trans h ?_
  exact Env.keeps_trans (Env.keeps_touched e w.act acc true) (Env.keeps_produceS _ _ _ _)

theorem stsStep_keeps (f : LW) {e0 e : Env} (w : View) (l : Nat) (acc : Acc) (h : e0.keeps e) : e0.keeps (stsStep f e w l acc).1 := by
  refine Env.keeps_trans h ?_
  unfold stsStep; simp only []; split
  · exact Env.keeps_trans (Env.keeps_wrote _ _) (Env.keeps_changed _ _ _)
  · exact Env.keeps_trans (Env.keeps_store _ _ _ _ _ _ _) (Env.keeps_stored _ _)

theorem ldlStep_keeps (f : LW) {e0 e : Env} (w : View) (l : Nat) (acc : Acc) (h : e0.keeps e) : e0.keeps (ldlStep f e w l acc).1 := by
  refine Env.keeps_trans h ?_
  have h1 := Env.keeps_touched e w.act acc true
  unfold ldlStep; simp only []
  split
  · exact h1
  · split
    · exact Env.keeps_trans h1 (Env.keeps_produceS _ _ _ _)
    · exact h1
    · exact Env.keeps_trans h1 ⟨rfl, rfl, rfl, rfl⟩

end Sys2Proof.Machine
end

