-- ==== Sys2Proof/Laws/PerInstr.lean ====
section
/-! SUPPORT. The round trip of the encoder, one lemma per instruction: the words of a well-formed instruction decode to it, and an event has no words. -/

namespace Sys2Proof.Laws.RoundTrip

set_option Elab.async false

/-- The words that `encode` gives a well-formed instruction decode to that instruction. -/
def Statement (i : Instr) : Prop :=
  wellFormed i = true → match encode i with
    | some (w0, w1) => w0 < 2 ^ 32 ∧ (∀ w, w1 = some w → w < 2 ^ 32) ∧ wordCount w0 = (if w1.isSome then 2 else 1) ∧ decodeWords w0 (w1.getD 0) = some i
    | none => shape i = .event

/-- A field of a word laid out from the top. -/
theorem bits_field (hi lo x n k : Nat) (hlo : lo < 2 ^ k) (hx : x < 2 ^ n) : bits (hi * 2 ^ (k + n) + x * 2 ^ k + lo) k n = x := by
  have h1 : hi * 2 ^ (k + n) + x * 2 ^ k + lo = (hi * 2 ^ n + x) * 2 ^ k + lo := by rw [pow_add]; ring
  unfold bits
  rw [h1, Nat.add_comm, Nat.add_mul_div_right _ _ (Nat.two_pow_pos k), Nat.div_eq_of_lt hlo, Nat.zero_add, Nat.add_comm, Nat.add_mul_mod_self_right, Nat.mod_eq_of_lt hx]

theorem ext_fields (e : Ext) (h : extFits e = true) : extWord e < 2 ^ 32 ∧ extOf (extWord e) = e := by
  simp only [extFits, Bool.and_eq_true, decide_eq_true_eq] at h
  obtain ⟨⟨⟨⟨h1, h2⟩, h3⟩, h4⟩, h5⟩ := h
  obtain ⟨form, fs, c, bs, subop, imm⟩ := e
  simp only at h1 h2 h3 h4 h5
  constructor
  · unfold extWord; cases bs <;> simp <;> omega
  · unfold extOf extWord bits
    cases bs <;> simp only [Bool.false_eq_true, if_false, if_true, Ext.mk.injEq, beq_iff_eq, beq_eq_false_iff_ne] <;> (refine ⟨?_, ?_, ?_, ?_, ?_, ?_⟩ <;> omega)

theorem lane_word (op : Nat) (f : LW) (ho : op < 128) (h : lwFits f = true) :
    laneWordOf op f < 2 ^ 32 ∧ (∀ w, f.ext.map extWord = some w → w < 2 ^ 32) ∧ wordCount (laneWordOf op f) = (if (f.ext.map extWord).isSome then 2 else 1) ∧
      decodeWords (laneWordOf op f) ((f.ext.map extWord).getD 0) = laneInstr op f := by
  simp only [lwFits, Bool.and_eq_true, decide_eq_true_eq] at h
  obtain ⟨⟨⟨⟨h1, h2⟩, h3⟩, h4⟩, h5⟩ := h
  obtain ⟨d, a, b, g, ea, eb, ext⟩ := f
  simp only at h1 h2 h3 h4 h5
  have key : laneWordOf op ⟨d, a, b, g, ea, eb, ext⟩ < 2 ^ 31 ∧ bits (laneWordOf op ⟨d, a, b, g, ea, eb, ext⟩) 31 1 = 0 ∧ bits (laneWordOf op ⟨d, a, b, g, ea, eb, ext⟩) 24 7 = op ∧
      bits (laneWordOf op ⟨d, a, b, g, ea, eb, ext⟩) 18 6 = d ∧ bits (laneWordOf op ⟨d, a, b, g, ea, eb, ext⟩) 12 6 = a ∧ bits (laneWordOf op ⟨d, a, b, g, ea, eb, ext⟩) 6 6 = b ∧
      bits (laneWordOf op ⟨d, a, b, g, ea, eb, ext⟩) 3 3 = g ∧ bits (laneWordOf op ⟨d, a, b, g, ea, eb, ext⟩) 2 1 = (if ea then 1 else 0) ∧
      bits (laneWordOf op ⟨d, a, b, g, ea, eb, ext⟩) 1 1 = (if eb then 1 else 0) ∧ bits (laneWordOf op ⟨d, a, b, g, ea, eb, ext⟩) 0 1 = (if ext.isSome then 1 else 0) := by
    unfold laneWordOf bits
    cases ea <;> cases eb <;> cases ext <;> simp <;> omega
  obtain ⟨k0, k1, k2, k3, k4, k5, k6, k7, k8, k9⟩ := key
  refine ⟨by omega, ?_, ?_, ?_⟩
  · intro w hw
    cases ext with
    | none => simp at hw
    | some e => simp only [Option.map_some, Option.some.injEq] at hw; exact hw ▸ (ext_fields e h5).1
  · unfold wordCount; rw [k1, k9]; cases ext <;> simp
  · unfold decodeWords lwOf
    rw [k1, k2, k3, k4, k5, k6, k7, k8, k9]
    simp only [Nat.zero_ne_one, if_false]
    congr 1
    cases ext with
    | none => cases ea <;> cases eb <;> rfl
    | some e =>
      simp only [Option.isSome_some, if_true, Option.map_some, Option.getD_some, (ext_fields e h5).2]
      cases ea <;> cases eb <;> rfl

theorem group_word (op : Nat) (f : GW) (ho : op < 128) (h : gwFits (groupTwo op) f = true) :
    groupWordOf op f < 2 ^ 32 ∧ (∀ w, f.w1 = some w → w < 2 ^ 32) ∧ wordCount (groupWordOf op f) = (if f.w1.isSome then 2 else 1) ∧
      decodeWords (groupWordOf op f) (f.w1.getD 0) = groupInstr op f := by
  simp only [gwFits, Bool.and_eq_true, decide_eq_true_eq] at h
  obtain ⟨⟨⟨⟨h1, h2⟩, h3⟩, h4⟩, h5⟩ := h
  obtain ⟨d, a, b, f6, w1⟩ := f
  simp only at h1 h2 h3 h4 h5
  have key : groupWordOf op ⟨d, a, b, f6, w1⟩ < 2 ^ 32 ∧ bits (groupWordOf op ⟨d, a, b, f6, w1⟩) 31 1 = 1 ∧ bits (groupWordOf op ⟨d, a, b, f6, w1⟩) 24 7 = op ∧
      bits (groupWordOf op ⟨d, a, b, f6, w1⟩) 18 6 = d ∧ bits (groupWordOf op ⟨d, a, b, f6, w1⟩) 12 6 = a ∧ bits (groupWordOf op ⟨d, a, b, f6, w1⟩) 6 6 = b ∧
      bits (groupWordOf op ⟨d, a, b, f6, w1⟩) 0 6 = f6 := by
    unfold groupWordOf bits; simp; omega
  obtain ⟨k0, k1, k2, k3, k4, k5, k6⟩ := key
  refine ⟨k0, ?_, ?_, ?_⟩
  · intro w hw; simp only at hw; subst hw; simp only [Bool.and_eq_true, decide_eq_true_eq] at h5; exact h5.2
  · unfold wordCount; rw [k1, k2]; cases w1 <;> simp_all
  · unfold decodeWords gwOf
    rw [k1, k2, k3, k4, k5, k6]
    simp only [if_true]
    congr 1
    cases w1 <;> simp_all

theorem nop (f : LW) : Statement (.nop f) := by
  intro h
  simp only [wellFormed, Bool.and_eq_true, beq_iff_eq] at h
  obtain ⟨a, b, c, d⟩ := lane_word 0x00 f (by decide) h.1
  refine ⟨a, b, c, d.trans ?_⟩
  show sel00 f = _
  unfold sel00; rw [h.2]; rfl
theorem ret (f : LW) : Statement (.ret f) := by
  intro h
  simp only [wellFormed, Bool.and_eq_true, beq_iff_eq] at h
  obtain ⟨a, b, c, d⟩ := lane_word 0x00 f (by decide) h.1
  refine ⟨a, b, c, d.trans ?_⟩
  show sel00 f = _
  unfold sel00; rw [h.2]; rfl
theorem exit (f : LW) : Statement (.exit f) := by
  intro h
  simp only [wellFormed, Bool.and_eq_true, beq_iff_eq] at h
  obtain ⟨a, b, c, d⟩ := lane_word 0x00 f (by decide) h.1
  refine ⟨a, b, c, d.trans ?_⟩
  show sel00 f = _
  unfold sel00; rw [h.2]; rfl
theorem region (f : LW) : Statement (.region f) := by
  intro h
  simp only [wellFormed, Bool.and_eq_true, beq_iff_eq] at h
  obtain ⟨a, b, c, d⟩ := lane_word 0x00 f (by decide) h.1
  refine ⟨a, b, c, d.trans ?_⟩
  show sel00 f = _
  unfold sel00; rw [h.2]; rfl
theorem ifence (f : LW) : Statement (.ifence f) := by
  intro h
  simp only [wellFormed, Bool.and_eq_true, beq_iff_eq] at h
  obtain ⟨a, b, c, d⟩ := lane_word 0x00 f (by decide) h.1
  refine ⟨a, b, c, d.trans ?_⟩
  show sel00 f = _
  unfold sel00; rw [h.2]; rfl
theorem bkpt (f : LW) : Statement (.bkpt f) := by
  intro h
  simp only [wellFormed, Bool.and_eq_true, beq_iff_eq] at h
  obtain ⟨a, b, c, d⟩ := lane_word 0x00 f (by decide) h.1
  refine ⟨a, b, c, d.trans ?_⟩
  show sel00 f = _
  unfold sel00; rw [h.2]; rfl
theorem iadd (f : LW) : Statement (.iadd f) := fun h => lane_word 0x01 f (by decide) h
theorem isub (f : LW) : Statement (.isub f) := fun h => lane_word 0x02 f (by decide) h
theorem imul (f : LW) : Statement (.imul f) := fun h => lane_word 0x03 f (by decide) h
theorem imulh (f : LW) : Statement (.imulh f) := fun h => lane_word 0x04 f (by decide) h
theorem imad (f : LW) : Statement (.imad f) := fun h => lane_word 0x05 f (by decide) h
theorem idiv (f : LW) : Statement (.idiv f) := fun h => lane_word 0x06 f (by decide) h
theorem irem (f : LW) : Statement (.irem f) := fun h => lane_word 0x07 f (by decide) h
theorem imin (f : LW) : Statement (.imin f) := fun h => lane_word 0x08 f (by decide) h
theorem imax (f : LW) : Statement (.imax f) := fun h => lane_word 0x09 f (by decide) h
theorem andI (f : LW) : Statement (.andI f) := fun h => lane_word 0x0A f (by decide) h
theorem orI (f : LW) : Statement (.orI f) := fun h => lane_word 0x0B f (by decide) h
theorem xor (f : LW) : Statement (.xor f) := fun h => lane_word 0x0C f (by decide) h
theorem shl (f : LW) : Statement (.shl f) := fun h => lane_word 0x0D f (by decide) h
theorem shr (f : LW) : Statement (.shr f) := fun h => lane_word 0x0E f (by decide) h
theorem sar (f : LW) : Statement (.sar f) := fun h => lane_word 0x0F f (by decide) h
theorem rol (f : LW) : Statement (.rol f) := fun h => lane_word 0x10 f (by decide) h
theorem bfx (f : LW) : Statement (.bfx f) := fun h => lane_word 0x11 f (by decide) h
theorem bfi (f : LW) : Statement (.bfi f) := fun h => lane_word 0x12 f (by decide) h
theorem sel (f : LW) : Statement (.sel f) := fun h => lane_word 0x13 f (by decide) h
theorem icmp (f : LW) : Statement (.icmp f) := fun h => lane_word 0x14 f (by decide) h
theorem isat (f : LW) : Statement (.isat f) := fun h => lane_word 0x15 f (by decide) h
theorem mov (f : LW) : Statement (.mov f) := fun h => lane_word 0x16 f (by decide) h
theorem movi (f : LW) : Statement (.movi f) := by
  intro h
  simp only [wellFormed, Bool.and_eq_true, beq_iff_eq] at h
  obtain ⟨a, b, c, d⟩ := lane_word 0x17 f (by decide) h.1
  refine ⟨a, b, c, d.trans ?_⟩
  show sel17 f = _
  unfold sel17; rw [h.2]; rfl
theorem moviH (f : LW) : Statement (.moviH f) := by
  intro h
  simp only [wellFormed, Bool.and_eq_true, beq_iff_eq] at h
  obtain ⟨a, b, c, d⟩ := lane_word 0x17 f (by decide) h.1
  refine ⟨a, b, c, d.trans ?_⟩
  show sel17 f = _
  unfold sel17; rw [h.2]; rfl
theorem movs (f : LW) : Statement (.movs f) := fun h => lane_word 0x18 f (by decide) h
theorem ineg (f : LW) : Statement (.ineg f) := by
  intro h
  simp only [wellFormed, Bool.and_eq_true, beq_iff_eq] at h
  obtain ⟨a, b, c, d⟩ := lane_word 0x19 f (by decide) h.1
  refine ⟨a, b, c, d.trans ?_⟩
  show sel19 f = _
  unfold sel19; rw [h.2]; rfl
theorem iabs (f : LW) : Statement (.iabs f) := by
  intro h
  simp only [wellFormed, Bool.and_eq_true, beq_iff_eq] at h
  obtain ⟨a, b, c, d⟩ := lane_word 0x19 f (by decide) h.1
  refine ⟨a, b, c, d.trans ?_⟩
  show sel19 f = _
  unfold sel19; rw [h.2]; rfl
theorem notI (f : LW) : Statement (.notI f) := by
  intro h
  simp only [wellFormed, Bool.and_eq_true, beq_iff_eq] at h
  obtain ⟨a, b, c, d⟩ := lane_word 0x19 f (by decide) h.1
  refine ⟨a, b, c, d.trans ?_⟩
  show sel19 f = _
  unfold sel19; rw [h.2]; rfl
theorem popc (f : LW) : Statement (.popc f) := by
  intro h
  simp only [wellFormed, Bool.and_eq_true, beq_iff_eq] at h
  obtain ⟨a, b, c, d⟩ := lane_word 0x19 f (by decide) h.1
  refine ⟨a, b, c, d.trans ?_⟩
  show sel19 f = _
  unfold sel19; rw [h.2]; rfl
theorem clz (f : LW) : Statement (.clz f) := by
  intro h
  simp only [wellFormed, Bool.and_eq_true, beq_iff_eq] at h
  obtain ⟨a, b, c, d⟩ := lane_word 0x19 f (by decide) h.1
  refine ⟨a, b, c, d.trans ?_⟩
  show sel19 f = _
  unfold sel19; rw [h.2]; rfl
theorem ctz (f : LW) : Statement (.ctz f) := by
  intro h
  simp only [wellFormed, Bool.and_eq_true, beq_iff_eq] at h
  obtain ⟨a, b, c, d⟩ := lane_word 0x19 f (by decide) h.1
  refine ⟨a, b, c, d.trans ?_⟩
  show sel19 f = _
  unfold sel19; rw [h.2]; rfl
theorem brev (f : LW) : Statement (.brev f) := by
  intro h
  simp only [wellFormed, Bool.and_eq_true, beq_iff_eq] at h
  obtain ⟨a, b, c, d⟩ := lane_word 0x19 f (by decide) h.1
  refine ⟨a, b, c, d.trans ?_⟩
  show sel19 f = _
  unfold sel19; rw [h.2]; rfl
theorem fald (f : LW) : Statement (.fald f) := fun h => lane_word 0x1A f (by decide) h
theorem fast (f : LW) : Statement (.fast f) := fun h => lane_word 0x1B f (by decide) h
theorem faupd (f : LW) : Statement (.faupd f) := fun h => lane_word 0x1C f (by decide) h
theorem fadwd (f : LW) : Statement (.fadwd f) := fun h => lane_word 0x1D f (by decide) h
theorem fasolvF (f : LW) : Statement (.fasolvF f) := by
  intro h
  simp only [wellFormed, Bool.and_eq_true, beq_iff_eq] at h
  obtain ⟨a, b, c, d⟩ := lane_word 0x1E f (by decide) h.1
  refine ⟨a, b, c, d.trans ?_⟩
  show sel1E f = _
  unfold sel1E; rw [h.2]; rfl
theorem fasolvB (f : LW) : Statement (.fasolvB f) := by
  intro h
  simp only [wellFormed, Bool.and_eq_true, beq_iff_eq] at h
  obtain ⟨a, b, c, d⟩ := lane_word 0x1E f (by decide) h.1
  refine ⟨a, b, c, d.trans ?_⟩
  show sel1E f = _
  unfold sel1E; rw [h.2]; rfl
theorem fasolvG (f : LW) : Statement (.fasolvG f) := by
  intro h
  simp only [wellFormed, Bool.and_eq_true, beq_iff_eq] at h
  obtain ⟨a, b, c, d⟩ := lane_word 0x1E f (by decide) h.1
  refine ⟨a, b, c, d.trans ?_⟩
  show sel1E f = _
  unfold sel1E; rw [h.2]; rfl
theorem fasolvLoo (f : LW) : Statement (.fasolvLoo f) := by
  intro h
  simp only [wellFormed, Bool.and_eq_true, beq_iff_eq] at h
  obtain ⟨a, b, c, d⟩ := lane_word 0x1E f (by decide) h.1
  refine ⟨a, b, c, d.trans ?_⟩
  show sel1E f = _
  unfold sel1E; rw [h.2]; rfl
theorem fadiag (f : LW) : Statement (.fadiag f) := fun h => lane_word 0x1F f (by decide) h
theorem famul (f : LW) : Statement (.famul f) := by
  intro h
  simp only [wellFormed, Bool.and_eq_true, beq_iff_eq] at h
  obtain ⟨a, b, c, d⟩ := lane_word 0x2F f (by decide) h.1
  refine ⟨a, b, c, d.trans ?_⟩
  show sel2F f = _
  unfold sel2F; rw [h.2]; rfl
theorem famulT (f : LW) : Statement (.famulT f) := by
  intro h
  simp only [wellFormed, Bool.and_eq_true, beq_iff_eq] at h
  obtain ⟨a, b, c, d⟩ := lane_word 0x2F f (by decide) h.1
  refine ⟨a, b, c, d.trans ?_⟩
  show sel2F f = _
  unfold sel2F; rw [h.2]; rfl
theorem fadd (f : LW) : Statement (.fadd f) := fun h => lane_word 0x20 f (by decide) h
theorem fsub (f : LW) : Statement (.fsub f) := fun h => lane_word 0x21 f (by decide) h
theorem fmul (f : LW) : Statement (.fmul f) := fun h => lane_word 0x22 f (by decide) h
theorem ffma (f : LW) : Statement (.ffma f) := fun h => lane_word 0x23 f (by decide) h
theorem fmin (f : LW) : Statement (.fmin f) := fun h => lane_word 0x24 f (by decide) h
theorem fmax (f : LW) : Statement (.fmax f) := fun h => lane_word 0x25 f (by decide) h
theorem fcmp (f : LW) : Statement (.fcmp f) := fun h => lane_word 0x26 f (by decide) h
theorem fdiv (f : LW) : Statement (.fdiv f) := fun h => lane_word 0x27 f (by decide) h
theorem fscl (f : LW) : Statement (.fscl f) := fun h => lane_word 0x28 f (by decide) h
theorem fabs (f : LW) : Statement (.fabs f) := by
  intro h
  simp only [wellFormed, Bool.and_eq_true, beq_iff_eq] at h
  obtain ⟨a, b, c, d⟩ := lane_word 0x29 f (by decide) h.1
  refine ⟨a, b, c, d.trans ?_⟩
  show sel29 f = _
  unfold sel29; rw [h.2]; rfl
theorem fneg (f : LW) : Statement (.fneg f) := by
  intro h
  simp only [wellFormed, Bool.and_eq_true, beq_iff_eq] at h
  obtain ⟨a, b, c, d⟩ := lane_word 0x29 f (by decide) h.1
  refine ⟨a, b, c, d.trans ?_⟩
  show sel29 f = _
  unfold sel29; rw [h.2]; rfl
theorem fsqrt (f : LW) : Statement (.fsqrt f) := by
  intro h
  simp only [wellFormed, Bool.and_eq_true, beq_iff_eq] at h
  obtain ⟨a, b, c, d⟩ := lane_word 0x29 f (by decide) h.1
  refine ⟨a, b, c, d.trans ?_⟩
  show sel29 f = _
  unfold sel29; rw [h.2]; rfl
theorem frcp (f : LW) : Statement (.frcp f) := by
  intro h
  simp only [wellFormed, Bool.and_eq_true, beq_iff_eq] at h
  obtain ⟨a, b, c, d⟩ := lane_word 0x29 f (by decide) h.1
  refine ⟨a, b, c, d.trans ?_⟩
  show sel29 f = _
  unfold sel29; rw [h.2]; rfl
theorem frsq (f : LW) : Statement (.frsq f) := by
  intro h
  simp only [wellFormed, Bool.and_eq_true, beq_iff_eq] at h
  obtain ⟨a, b, c, d⟩ := lane_word 0x29 f (by decide) h.1
  refine ⟨a, b, c, d.trans ?_⟩
  show sel29 f = _
  unfold sel29; rw [h.2]; rfl
theorem fexp2 (f : LW) : Statement (.fexp2 f) := by
  intro h
  simp only [wellFormed, Bool.and_eq_true, beq_iff_eq] at h
  obtain ⟨a, b, c, d⟩ := lane_word 0x29 f (by decide) h.1
  refine ⟨a, b, c, d.trans ?_⟩
  show sel29 f = _
  unfold sel29; rw [h.2]; rfl
theorem flog2 (f : LW) : Statement (.flog2 f) := by
  intro h
  simp only [wellFormed, Bool.and_eq_true, beq_iff_eq] at h
  obtain ⟨a, b, c, d⟩ := lane_word 0x29 f (by decide) h.1
  refine ⟨a, b, c, d.trans ?_⟩
  show sel29 f = _
  unfold sel29; rw [h.2]; rfl
theorem fclass (f : LW) : Statement (.fclass f) := by
  intro h
  simp only [wellFormed, Bool.and_eq_true, beq_iff_eq] at h
  obtain ⟨a, b, c, d⟩ := lane_word 0x29 f (by decide) h.1
  refine ⟨a, b, c, d.trans ?_⟩
  show sel29 f = _
  unfold sel29; rw [h.2]; rfl
theorem frnd (f : LW) : Statement (.frnd f) := by
  intro h
  simp only [wellFormed, Bool.and_eq_true, beq_iff_eq] at h
  obtain ⟨a, b, c, d⟩ := lane_word 0x29 f (by decide) h.1
  refine ⟨a, b, c, d.trans ?_⟩
  show sel29 f = _
  unfold sel29; rw [h.2]; rfl
theorem fgete (f : LW) : Statement (.fgete f) := by
  intro h
  simp only [wellFormed, Bool.and_eq_true, beq_iff_eq] at h
  obtain ⟨a, b, c, d⟩ := lane_word 0x29 f (by decide) h.1
  refine ⟨a, b, c, d.trans ?_⟩
  show sel29 f = _
  unfold sel29; rw [h.2]; rfl
theorem sinT (f : LW) : Statement (.sinT f) := by
  intro h
  simp only [wellFormed, Bool.and_eq_true, beq_iff_eq] at h
  obtain ⟨a, b, c, d⟩ := lane_word 0x29 f (by decide) h.1
  refine ⟨a, b, c, d.trans ?_⟩
  show sel29 f = _
  unfold sel29; rw [h.2]; rfl
theorem cosT (f : LW) : Statement (.cosT f) := by
  intro h
  simp only [wellFormed, Bool.and_eq_true, beq_iff_eq] at h
  obtain ⟨a, b, c, d⟩ := lane_word 0x29 f (by decide) h.1
  refine ⟨a, b, c, d.trans ?_⟩
  show sel29 f = _
  unfold sel29; rw [h.2]; rfl
theorem sincosT (f : LW) : Statement (.sincosT f) := by
  intro h
  simp only [wellFormed, Bool.and_eq_true, beq_iff_eq] at h
  obtain ⟨a, b, c, d⟩ := lane_word 0x29 f (by decide) h.1
  refine ⟨a, b, c, d.trans ?_⟩
  show sel29 f = _
  unfold sel29; rw [h.2]; rfl
theorem fredT (f : LW) : Statement (.fredT f) := by
  intro h
  simp only [wellFormed, Bool.and_eq_true, beq_iff_eq] at h
  obtain ⟨a, b, c, d⟩ := lane_word 0x29 f (by decide) h.1
  refine ⟨a, b, c, d.trans ?_⟩
  show sel29 f = _
  unfold sel29; rw [h.2]; rfl
theorem cvt (f : LW) : Statement (.cvt f) := fun h => lane_word 0x2A f (by decide) h
theorem cvti (f : LW) : Statement (.cvti f) := fun h => lane_word 0x2B f (by decide) h
theorem qpack (f : LW) : Statement (.qpack f) := fun h => lane_word 0x2C f (by decide) h
theorem qunpk (f : LW) : Statement (.qunpk f) := fun h => lane_word 0x2D f (by decide) h
theorem had (f : LW) : Statement (.had f) := fun h => lane_word 0x2E f (by decide) h
theorem shfl (f : LW) : Statement (.shfl f) := fun h => lane_word 0x30 f (by decide) h
theorem shflUp (f : LW) : Statement (.shflUp f) := fun h => lane_word 0x31 f (by decide) h
theorem shflDn (f : LW) : Statement (.shflDn f) := fun h => lane_word 0x32 f (by decide) h
theorem shflX (f : LW) : Statement (.shflX f) := fun h => lane_word 0x33 f (by decide) h
theorem swpPair (f : LW) : Statement (.swpPair f) := fun h => lane_word 0x34 f (by decide) h
theorem perm (f : LW) : Statement (.perm f) := fun h => lane_word 0x35 f (by decide) h
theorem bcast (f : LW) : Statement (.bcast f) := fun h => lane_word 0x36 f (by decide) h
theorem redu (f : LW) : Statement (.redu f) := fun h => lane_word 0x37 f (by decide) h
theorem scan (f : LW) : Statement (.scan f) := fun h => lane_word 0x38 f (by decide) h
theorem vote (f : LW) : Statement (.vote f) := by
  intro h
  simp only [wellFormed, Bool.and_eq_true, beq_iff_eq] at h
  obtain ⟨a, b, c, d⟩ := lane_word 0x39 f (by decide) h.1
  refine ⟨a, b, c, d.trans ?_⟩
  show sel39 f = _
  unfold sel39; rw [h.2]; rfl
theorem voteAny (f : LW) : Statement (.voteAny f) := by
  intro h
  simp only [wellFormed, Bool.and_eq_true, beq_iff_eq] at h
  obtain ⟨a, b, c, d⟩ := lane_word 0x39 f (by decide) h.1
  refine ⟨a, b, c, d.trans ?_⟩
  show sel39 f = _
  unfold sel39; rw [h.2]; rfl
theorem voteAll (f : LW) : Statement (.voteAll f) := by
  intro h
  simp only [wellFormed, Bool.and_eq_true, beq_iff_eq] at h
  obtain ⟨a, b, c, d⟩ := lane_word 0x39 f (by decide) h.1
  refine ⟨a, b, c, d.trans ?_⟩
  show sel39 f = _
  unfold sel39; rw [h.2]; rfl
theorem voteUni (f : LW) : Statement (.voteUni f) := by
  intro h
  simp only [wellFormed, Bool.and_eq_true, beq_iff_eq] at h
  obtain ⟨a, b, c, d⟩ := lane_word 0x39 f (by decide) h.1
  refine ⟨a, b, c, d.trans ?_⟩
  show sel39 f = _
  unfold sel39; rw [h.2]; rfl
theorem mcount (f : LW) : Statement (.mcount f) := by
  intro h
  simp only [wellFormed, Bool.and_eq_true, beq_iff_eq] at h
  obtain ⟨a, b, c, d⟩ := lane_word 0x3A f (by decide) h.1
  refine ⟨a, b, c, d.trans ?_⟩
  show sel3A f = _
  unfold sel3A; rw [h.2]; rfl
theorem mcountPre (f : LW) : Statement (.mcountPre f) := by
  intro h
  simp only [wellFormed, Bool.and_eq_true, beq_iff_eq] at h
  obtain ⟨a, b, c, d⟩ := lane_word 0x3A f (by decide) h.1
  refine ⟨a, b, c, d.trans ?_⟩
  show sel3A f = _
  unfold sel3A; rw [h.2]; rfl
theorem matchI (f : LW) : Statement (.matchI f) := fun h => lane_word 0x3B f (by decide) h
theorem ld (f : LW) : Statement (.ld f) := fun h => lane_word 0x40 f (by decide) h
theorem st (f : LW) : Statement (.st f) := fun h => lane_word 0x41 f (by decide) h
theorem lds (f : LW) : Statement (.lds f) := fun h => lane_word 0x42 f (by decide) h
theorem sts (f : LW) : Statement (.sts f) := fun h => lane_word 0x43 f (by decide) h
theorem ldv (f : LW) : Statement (.ldv f) := fun h => lane_word 0x44 f (by decide) h
theorem stv (f : LW) : Statement (.stv f) := fun h => lane_word 0x45 f (by decide) h
theorem ldj (f : LW) : Statement (.ldj f) := fun h => lane_word 0x46 f (by decide) h
theorem ldjNb (f : LW) : Statement (.ldjNb f) := fun h => lane_word 0x47 f (by decide) h
theorem stj (f : LW) : Statement (.stj f) := fun h => lane_word 0x48 f (by decide) h
theorem pref (f : LW) : Statement (.pref f) := fun h => lane_word 0x49 f (by decide) h
theorem mka (f : LW) : Statement (.mka f) := fun h => lane_word 0x4A f (by decide) h
theorem segno (f : LW) : Statement (.segno f) := fun h => lane_word 0x4B f (by decide) h
theorem segof (f : LW) : Statement (.segof f) := fun h => lane_word 0x4C f (by decide) h
theorem chka (f : LW) : Statement (.chka f) := fun h => lane_word 0x4D f (by decide) h
theorem ldl (f : LW) : Statement (.ldl f) := fun h => lane_word 0x4E f (by decide) h
theorem amoAdd (f : LW) : Statement (.amoAdd f) := fun h => lane_word 0x50 f (by decide) h
theorem amoMin (f : LW) : Statement (.amoMin f) := fun h => lane_word 0x51 f (by decide) h
theorem amoMax (f : LW) : Statement (.amoMax f) := fun h => lane_word 0x52 f (by decide) h
theorem amoAnd (f : LW) : Statement (.amoAnd f) := fun h => lane_word 0x53 f (by decide) h
theorem amoOr (f : LW) : Statement (.amoOr f) := fun h => lane_word 0x54 f (by decide) h
theorem amoXor (f : LW) : Statement (.amoXor f) := fun h => lane_word 0x55 f (by decide) h
theorem amoXchg (f : LW) : Statement (.amoXchg f) := fun h => lane_word 0x56 f (by decide) h
theorem amoJoin (f : LW) : Statement (.amoJoin f) := fun h => lane_word 0x57 f (by decide) h
theorem amoc (f : LW) : Statement (.amoc f) := fun h => lane_word 0x58 f (by decide) h
theorem amof (f : LW) : Statement (.amof f) := fun h => lane_word 0x59 f (by decide) h
theorem fence (f : LW) : Statement (.fence f) := fun h => lane_word 0x5A f (by decide) h
theorem bar (f : LW) : Statement (.bar f) := by
  intro h
  simp only [wellFormed, Bool.and_eq_true, beq_iff_eq] at h
  obtain ⟨a, b, c, d⟩ := lane_word 0x5B f (by decide) h.1
  refine ⟨a, b, c, d.trans ?_⟩
  show sel5B f = _
  unfold sel5B; rw [h.2]; rfl
theorem barArrive (f : LW) : Statement (.barArrive f) := by
  intro h
  simp only [wellFormed, Bool.and_eq_true, beq_iff_eq] at h
  obtain ⟨a, b, c, d⟩ := lane_word 0x5B f (by decide) h.1
  refine ⟨a, b, c, d.trans ?_⟩
  show sel5B f = _
  unfold sel5B; rw [h.2]; rfl
theorem barWait (f : LW) : Statement (.barWait f) := by
  intro h
  simp only [wellFormed, Bool.and_eq_true, beq_iff_eq] at h
  obtain ⟨a, b, c, d⟩ := lane_word 0x5B f (by decide) h.1
  refine ⟨a, b, c, d.trans ?_⟩
  show sel5B f = _
  unfold sel5B; rw [h.2]; rfl
theorem cbacq (f : LW) : Statement (.cbacq f) := fun h => lane_word 0x5C f (by decide) h
theorem cbrel (f : LW) : Statement (.cbrel f) := fun h => lane_word 0x5D f (by decide) h
theorem waittl (f : LW) : Statement (.waittl f) := fun h => lane_word 0x5E f (by decide) h
theorem br (f : LW) : Statement (.br f) := fun h => lane_word 0x60 f (by decide) h
theorem jmp (f : LW) : Statement (.jmp f) := fun h => lane_word 0x61 f (by decide) h
theorem brx (f : LW) : Statement (.brx f) := by
  intro h
  simp only [wellFormed, Bool.and_eq_true, beq_iff_eq] at h
  obtain ⟨a, b, c, d⟩ := lane_word 0x62 f (by decide) h.1
  refine ⟨a, b, c, d.trans ?_⟩
  show sel62 f = _
  unfold sel62; rw [h.2]; rfl
theorem brxCall (f : LW) : Statement (.brxCall f) := by
  intro h
  simp only [wellFormed, Bool.and_eq_true, beq_iff_eq] at h
  obtain ⟨a, b, c, d⟩ := lane_word 0x62 f (by decide) h.1
  refine ⟨a, b, c, d.trans ?_⟩
  show sel62 f = _
  unfold sel62; rw [h.2]; rfl
theorem call (f : LW) : Statement (.call f) := fun h => lane_word 0x63 f (by decide) h
theorem trapu (f : LW) : Statement (.trapu f) := fun h => lane_word 0x64 f (by decide) h
theorem spbind (f : LW) : Statement (.spbind f) := fun h => lane_word 0x65 f (by decide) h
theorem sprel (f : LW) : Statement (.sprel f) := fun h => lane_word 0x66 f (by decide) h
theorem mma (f : LW) : Statement (.mma f) := fun h => lane_word 0x67 f (by decide) h
theorem mmaD (f : LW) : Statement (.mmaD f) := fun h => lane_word 0x68 f (by decide) h
theorem mmai (f : LW) : Statement (.mmai f) := fun h => lane_word 0x69 f (by decide) h
theorem tld (f : LW) : Statement (.tld f) := fun h => lane_word 0x6A f (by decide) h
theorem tst (f : LW) : Statement (.tst f) := fun h => lane_word 0x6B f (by decide) h
theorem tread (f : LW) : Statement (.tread f) := fun h => lane_word 0x6C f (by decide) h
theorem twrite (f : LW) : Statement (.twrite f) := fun h => lane_word 0x6D f (by decide) h
theorem optionalOpcode (n : Nat) (f : LW) : Statement (.optionalOpcode n f) := by
  intro h
  simp only [wellFormed, Bool.and_eq_true, decide_eq_true_eq] at h
  obtain ⟨a, b, c, d⟩ := lane_word (0x70 + n) f (by omega) h.2
  refine ⟨a, b, c, d.trans ?_⟩
  simp [laneInstr]
theorem saddGr (f : GW) : Statement (.saddGr f) := by
  intro h
  simp only [wellFormed, Bool.and_eq_true, beq_iff_eq] at h
  obtain ⟨a, b, c, d⟩ := group_word 0x00 f (by decide) h.1
  refine ⟨a, b, c, d.trans ?_⟩
  show gsel00 f = _
  unfold gsel00; rw [h.2]; rfl
theorem ssubGr (f : GW) : Statement (.ssubGr f) := by
  intro h
  simp only [wellFormed, Bool.and_eq_true, beq_iff_eq] at h
  obtain ⟨a, b, c, d⟩ := group_word 0x00 f (by decide) h.1
  refine ⟨a, b, c, d.trans ?_⟩
  show gsel00 f = _
  unfold gsel00; rw [h.2]; rfl
theorem smulGr (f : GW) : Statement (.smulGr f) := by
  intro h
  simp only [wellFormed, Bool.and_eq_true, beq_iff_eq] at h
  obtain ⟨a, b, c, d⟩ := group_word 0x00 f (by decide) h.1
  refine ⟨a, b, c, d.trans ?_⟩
  show gsel00 f = _
  unfold gsel00; rw [h.2]; rfl
theorem sandGr (f : GW) : Statement (.sandGr f) := by
  intro h
  simp only [wellFormed, Bool.and_eq_true, beq_iff_eq] at h
  obtain ⟨a, b, c, d⟩ := group_word 0x00 f (by decide) h.1
  refine ⟨a, b, c, d.trans ?_⟩
  show gsel00 f = _
  unfold gsel00; rw [h.2]; rfl
theorem sorGr (f : GW) : Statement (.sorGr f) := by
  intro h
  simp only [wellFormed, Bool.and_eq_true, beq_iff_eq] at h
  obtain ⟨a, b, c, d⟩ := group_word 0x00 f (by decide) h.1
  refine ⟨a, b, c, d.trans ?_⟩
  show gsel00 f = _
  unfold gsel00; rw [h.2]; rfl
theorem sxorGr (f : GW) : Statement (.sxorGr f) := by
  intro h
  simp only [wellFormed, Bool.and_eq_true, beq_iff_eq] at h
  obtain ⟨a, b, c, d⟩ := group_word 0x00 f (by decide) h.1
  refine ⟨a, b, c, d.trans ?_⟩
  show gsel00 f = _
  unfold gsel00; rw [h.2]; rfl
theorem sshlGr (f : GW) : Statement (.sshlGr f) := by
  intro h
  simp only [wellFormed, Bool.and_eq_true, beq_iff_eq] at h
  obtain ⟨a, b, c, d⟩ := group_word 0x00 f (by decide) h.1
  refine ⟨a, b, c, d.trans ?_⟩
  show gsel00 f = _
  unfold gsel00; rw [h.2]; rfl
theorem sshrN64Gr (f : GW) : Statement (.sshrN64Gr f) := by
  intro h
  simp only [wellFormed, Bool.and_eq_true, beq_iff_eq] at h
  obtain ⟨a, b, c, d⟩ := group_word 0x00 f (by decide) h.1
  refine ⟨a, b, c, d.trans ?_⟩
  show gsel00 f = _
  unfold gsel00; rw [h.2]; rfl
theorem sshrI64Gr (f : GW) : Statement (.sshrI64Gr f) := by
  intro h
  simp only [wellFormed, Bool.and_eq_true, beq_iff_eq] at h
  obtain ⟨a, b, c, d⟩ := group_word 0x00 f (by decide) h.1
  refine ⟨a, b, c, d.trans ?_⟩
  show gsel00 f = _
  unfold gsel00; rw [h.2]; rfl
theorem sminI64Gr (f : GW) : Statement (.sminI64Gr f) := by
  intro h
  simp only [wellFormed, Bool.and_eq_true, beq_iff_eq] at h
  obtain ⟨a, b, c, d⟩ := group_word 0x00 f (by decide) h.1
  refine ⟨a, b, c, d.trans ?_⟩
  show gsel00 f = _
  unfold gsel00; rw [h.2]; rfl
theorem sminN64Gr (f : GW) : Statement (.sminN64Gr f) := by
  intro h
  simp only [wellFormed, Bool.and_eq_true, beq_iff_eq] at h
  obtain ⟨a, b, c, d⟩ := group_word 0x00 f (by decide) h.1
  refine ⟨a, b, c, d.trans ?_⟩
  show gsel00 f = _
  unfold gsel00; rw [h.2]; rfl
theorem smaxI64Gr (f : GW) : Statement (.smaxI64Gr f) := by
  intro h
  simp only [wellFormed, Bool.and_eq_true, beq_iff_eq] at h
  obtain ⟨a, b, c, d⟩ := group_word 0x00 f (by decide) h.1
  refine ⟨a, b, c, d.trans ?_⟩
  show gsel00 f = _
  unfold gsel00; rw [h.2]; rfl
theorem smaxN64Gr (f : GW) : Statement (.smaxN64Gr f) := by
  intro h
  simp only [wellFormed, Bool.and_eq_true, beq_iff_eq] at h
  obtain ⟨a, b, c, d⟩ := group_word 0x00 f (by decide) h.1
  refine ⟨a, b, c, d.trans ?_⟩
  show gsel00 f = _
  unfold gsel00; rw [h.2]; rfl
theorem smov (f : GW) : Statement (.smov f) := by
  intro h
  simp only [wellFormed, Bool.and_eq_true, beq_iff_eq] at h
  obtain ⟨a, b, c, d⟩ := group_word 0x00 f (by decide) h.1
  refine ⟨a, b, c, d.trans ?_⟩
  show gsel00 f = _
  unfold gsel00; rw [h.2]; rfl
theorem saddGi (f : GW) : Statement (.saddGi f) := fun h => group_word 0x01 f (by decide) h
theorem ssubGi (f : GW) : Statement (.ssubGi f) := fun h => group_word 0x02 f (by decide) h
theorem smulGi (f : GW) : Statement (.smulGi f) := fun h => group_word 0x03 f (by decide) h
theorem sandGi (f : GW) : Statement (.sandGi f) := fun h => group_word 0x04 f (by decide) h
theorem sorGi (f : GW) : Statement (.sorGi f) := fun h => group_word 0x05 f (by decide) h
theorem sxorGi (f : GW) : Statement (.sxorGi f) := fun h => group_word 0x06 f (by decide) h
theorem sshlGi (f : GW) : Statement (.sshlGi f) := fun h => group_word 0x07 f (by decide) h
theorem sshrN64Gi (f : GW) : Statement (.sshrN64Gi f) := fun h => group_word 0x08 f (by decide) h
theorem sshrI64Gi (f : GW) : Statement (.sshrI64Gi f) := fun h => group_word 0x09 f (by decide) h
theorem sminI64Gi (f : GW) : Statement (.sminI64Gi f) := fun h => group_word 0x0A f (by decide) h
theorem sminN64Gi (f : GW) : Statement (.sminN64Gi f) := fun h => group_word 0x0B f (by decide) h
theorem smaxI64Gi (f : GW) : Statement (.smaxI64Gi f) := fun h => group_word 0x0C f (by decide) h
theorem smaxN64Gi (f : GW) : Statement (.smaxN64Gi f) := fun h => group_word 0x0D f (by decide) h
theorem smoviGi (f : GW) : Statement (.smoviGi f) := fun h => group_word 0x0E f (by decide) h
theorem scmpGi (f : GW) : Statement (.scmpGi f) := fun h => group_word 0x0F f (by decide) h
theorem saddGl (f : GW) : Statement (.saddGl f) := fun h => group_word 0x41 f (by decide) h
theorem ssubGl (f : GW) : Statement (.ssubGl f) := fun h => group_word 0x42 f (by decide) h
theorem smulGl (f : GW) : Statement (.smulGl f) := fun h => group_word 0x43 f (by decide) h
theorem sandGl (f : GW) : Statement (.sandGl f) := fun h => group_word 0x44 f (by decide) h
theorem sorGl (f : GW) : Statement (.sorGl f) := fun h => group_word 0x45 f (by decide) h
theorem sxorGl (f : GW) : Statement (.sxorGl f) := fun h => group_word 0x46 f (by decide) h
theorem sshlGl (f : GW) : Statement (.sshlGl f) := fun h => group_word 0x47 f (by decide) h
theorem sshrN64Gl (f : GW) : Statement (.sshrN64Gl f) := fun h => group_word 0x48 f (by decide) h
theorem sshrI64Gl (f : GW) : Statement (.sshrI64Gl f) := fun h => group_word 0x49 f (by decide) h
theorem sminI64Gl (f : GW) : Statement (.sminI64Gl f) := fun h => group_word 0x4A f (by decide) h
theorem sminN64Gl (f : GW) : Statement (.sminN64Gl f) := fun h => group_word 0x4B f (by decide) h
theorem smaxI64Gl (f : GW) : Statement (.smaxI64Gl f) := fun h => group_word 0x4C f (by decide) h
theorem smaxN64Gl (f : GW) : Statement (.smaxN64Gl f) := fun h => group_word 0x4D f (by decide) h
theorem smoviGl (f : GW) : Statement (.smoviGl f) := fun h => group_word 0x4E f (by decide) h
theorem scmpGl (f : GW) : Statement (.scmpGl f) := fun h => group_word 0x4F f (by decide) h
theorem scmpGr (f : GW) : Statement (.scmpGr f) := fun h => group_word 0x10 f (by decide) h
theorem ssel (f : GW) : Statement (.ssel f) := fun h => group_word 0x11 f (by decide) h
theorem sld (f : GW) : Statement (.sld f) := fun h => group_word 0x12 f (by decide) h
theorem sst (f : GW) : Statement (.sst f) := fun h => group_word 0x13 f (by decide) h
theorem sbr (f : GW) : Statement (.sbr f) := fun h => group_word 0x14 f (by decide) h
theorem sjmp (f : GW) : Statement (.sjmp f) := fun h => group_word 0x15 f (by decide) h
theorem scall (f : GW) : Statement (.scall f) := fun h => group_word 0x16 f (by decide) h
theorem sret (f : GW) : Statement (.sret f) := fun h => group_word 0x17 f (by decide) h
theorem cvsetGi (f : GW) : Statement (.cvsetGi f) := fun h => group_word 0x18 f (by decide) h
theorem cvsetGl (f : GW) : Statement (.cvsetGl f) := fun h => group_word 0x40 f (by decide) h
theorem dqpush (f : GW) : Statement (.dqpush f) := fun h => group_word 0x19 f (by decide) h
theorem dqpop (f : GW) : Statement (.dqpop f) := fun h => group_word 0x1A f (by decide) h
theorem cpy (f : GW) : Statement (.cpy f) := fun h => group_word 0x1B f (by decide) h
theorem cpy2d (f : GW) : Statement (.cpy2d f) := fun h => group_word 0x1C f (by decide) h
theorem cpyg (f : GW) : Statement (.cpyg f) := fun h => group_word 0x1D f (by decide) h
theorem chain (f : GW) : Statement (.chain f) := fun h => group_word 0x1E f (by decide) h
theorem coll (f : GW) : Statement (.coll f) := fun h => group_word 0x1F f (by decide) h
theorem post (f : GW) : Statement (.post f) := fun h => group_word 0x20 f (by decide) h
theorem stl (f : GW) : Statement (.stl f) := fun h => group_word 0x21 f (by decide) h
theorem permit (f : GW) : Statement (.permit f) := fun h => group_word 0x22 f (by decide) h
theorem permq (f : GW) : Statement (.permq f) := fun h => group_word 0x23 f (by decide) h
theorem sploop (f : GW) : Statement (.sploop f) := fun h => group_word 0x24 f (by decide) h
theorem spset (f : GW) : Statement (.spset f) := fun h => group_word 0x25 f (by decide) h
theorem tzero (f : GW) : Statement (.tzero f) := fun h => group_word 0x26 f (by decide) h
theorem tcvt (f : GW) : Statement (.tcvt f) := fun h => group_word 0x27 f (by decide) h
theorem ttr (f : GW) : Statement (.ttr f) := fun h => group_word 0x28 f (by decide) h
theorem fainit (f : GW) : Statement (.fainit f) := fun h => group_word 0x29 f (by decide) h
theorem fascl (f : GW) : Statement (.fascl f) := fun h => group_word 0x2A f (by decide) h
theorem ymset (f : GW) : Statement (.ymset f) := by
  intro h
  simp only [wellFormed, Bool.and_eq_true, beq_iff_eq] at h
  obtain ⟨a, b, c, d⟩ := group_word 0x2B f (by decide) h.1
  refine ⟨a, b, c, d.trans ?_⟩
  show gsel2B f = _
  unfold gsel2B; rw [h.2]; rfl
theorem ymsetFirst (f : GW) : Statement (.ymsetFirst f) := by
  intro h
  simp only [wellFormed, Bool.and_eq_true, beq_iff_eq] at h
  obtain ⟨a, b, c, d⟩ := group_word 0x2B f (by decide) h.1
  refine ⟨a, b, c, d.trans ?_⟩
  show gsel2B f = _
  unfold gsel2B; rw [h.2]; rfl
theorem xmset (f : GW) : Statement (.xmset f) := by
  intro h
  simp only [wellFormed, Bool.and_eq_true, beq_iff_eq] at h
  obtain ⟨a, b, c, d⟩ := group_word 0x2C f (by decide) h.1
  refine ⟨a, b, c, d.trans ?_⟩
  show gsel2C f = _
  unfold gsel2C; rw [h.2]; rfl
theorem xmsetFirst (f : GW) : Statement (.xmsetFirst f) := by
  intro h
  simp only [wellFormed, Bool.and_eq_true, beq_iff_eq] at h
  obtain ⟨a, b, c, d⟩ := group_word 0x2C f (by decide) h.1
  refine ⟨a, b, c, d.trans ?_⟩
  show gsel2C f = _
  unfold gsel2C; rw [h.2]; rfl
theorem wbld (f : GW) : Statement (.wbld f) := fun h => group_word 0x2D f (by decide) h
theorem wbfree (f : GW) : Statement (.wbfree f) := fun h => group_word 0x2E f (by decide) h
theorem sysrd (f : GW) : Statement (.sysrd f) := fun h => group_word 0x50 f (by decide) h
theorem syswr (f : GW) : Statement (.syswr f) := fun h => group_word 0x51 f (by decide) h
theorem zsQsched : Statement .zsQsched := fun _ => rfl
theorem zsFlipToHost : Statement .zsFlipToHost := fun _ => rfl
theorem zsFlipToDevice : Statement .zsFlipToDevice := fun _ => rfl
theorem zsPartapply : Statement .zsPartapply := fun _ => rfl
theorem trap (f : GW) : Statement (.trap f) := fun h => group_word 0x52 f (by decide) h
theorem tlbinv (f : GW) : Statement (.tlbinv f) := fun h => group_word 0x53 f (by decide) h
theorem icinv (f : GW) : Statement (.icinv f) := fun h => group_word 0x54 f (by decide) h
theorem bindinv (f : GW) : Statement (.bindinv f) := fun h => group_word 0x55 f (by decide) h
theorem segrev (f : GW) : Statement (.segrev f) := fun h => group_word 0x56 f (by decide) h
theorem unitsave (f : GW) : Statement (.unitsave f) := fun h => group_word 0x57 f (by decide) h
theorem unitload (f : GW) : Statement (.unitload f) := fun h => group_word 0x58 f (by decide) h
theorem preempt (f : GW) : Statement (.preempt f) := fun h => group_word 0x59 f (by decide) h
theorem cancel (f : GW) : Statement (.cancel f) := fun h => group_word 0x5A f (by decide) h
theorem cntrd (f : GW) : Statement (.cntrd f) := by
  intro h
  simp only [wellFormed, Bool.and_eq_true, decide_eq_true_eq] at h
  obtain ⟨a, b, c, d⟩ := group_word 0x5B f (by decide) h.1
  refine ⟨a, b, c, d.trans ?_⟩
  show (if f.f6 / 16 != 0 then none else if f.f6 / 8 = 1 then some (Instr.cntrdSt f) else some (Instr.cntrd f)) = _
  have h1 : f.f6 / 16 = 0 := by omega
  have h2 : f.f6 / 8 = 0 := by omega
  simp [h1, h2]
theorem cntrdSt (f : GW) : Statement (.cntrdSt f) := by
  intro h
  simp only [wellFormed, Bool.and_eq_true, beq_iff_eq] at h
  obtain ⟨a, b, c, d⟩ := group_word 0x5B f (by decide) h.1
  refine ⟨a, b, c, d.trans ?_⟩
  show (if f.f6 / 16 != 0 then none else if f.f6 / 8 = 1 then some (Instr.cntrdSt f) else some (Instr.cntrd f)) = _
  have h1 : f.f6 / 16 = 0 := by omega
  have h2 : f.f6 / 8 = 1 := by omega
  simp [h1, h2]
theorem zerobuf (f : GW) : Statement (.zerobuf f) := fun h => group_word 0x5C f (by decide) h
theorem diectlReadState (f : GW) : Statement (.diectlReadState f) := by
  intro h
  simp only [wellFormed, Bool.and_eq_true, beq_iff_eq] at h
  obtain ⟨a, b, c, d⟩ := group_word 0x5D f (by decide) h.1
  refine ⟨a, b, c, d.trans ?_⟩
  show gsel5D f = _
  unfold gsel5D; rw [h.2]; rfl
theorem diectlWriteBack (f : GW) : Statement (.diectlWriteBack f) := by
  intro h
  simp only [wellFormed, Bool.and_eq_true, beq_iff_eq] at h
  obtain ⟨a, b, c, d⟩ := group_word 0x5D f (by decide) h.1
  refine ⟨a, b, c, d.trans ?_⟩
  show gsel5D f = _
  unfold gsel5D; rw [h.2]; rfl
theorem diectlSelfRefreshEntry (f : GW) : Statement (.diectlSelfRefreshEntry f) := by
  intro h
  simp only [wellFormed, Bool.and_eq_true, beq_iff_eq] at h
  obtain ⟨a, b, c, d⟩ := group_word 0x5D f (by decide) h.1
  refine ⟨a, b, c, d.trans ?_⟩
  show gsel5D f = _
  unfold gsel5D; rw [h.2]; rfl
theorem diectlSelfRefreshExit (f : GW) : Statement (.diectlSelfRefreshExit f) := by
  intro h
  simp only [wellFormed, Bool.and_eq_true, beq_iff_eq] at h
  obtain ⟨a, b, c, d⟩ := group_word 0x5D f (by decide) h.1
  refine ⟨a, b, c, d.trans ?_⟩
  show gsel5D f = _
  unfold gsel5D; rw [h.2]; rfl
theorem diectlResetDieLogic (f : GW) : Statement (.diectlResetDieLogic f) := by
  intro h
  simp only [wellFormed, Bool.and_eq_true, beq_iff_eq] at h
  obtain ⟨a, b, c, d⟩ := group_word 0x5D f (by decide) h.1
  refine ⟨a, b, c, d.trans ?_⟩
  show gsel5D f = _
  unfold gsel5D; rw [h.2]; rfl
theorem diectlRetrainUcie (f : GW) : Statement (.diectlRetrainUcie f) := by
  intro h
  simp only [wellFormed, Bool.and_eq_true, beq_iff_eq] at h
  obtain ⟨a, b, c, d⟩ := group_word 0x5D f (by decide) h.1
  refine ⟨a, b, c, d.trans ?_⟩
  show gsel5D f = _
  unfold gsel5D; rw [h.2]; rfl
theorem quiesce (f : GW) : Statement (.quiesce f) := fun h => group_word 0x5E f (by decide) h
theorem admitI (f : GW) : Statement (.admitI f) := fun h => group_word 0x5F f (by decide) h
theorem sluiceset (f : GW) : Statement (.sluiceset f) := fun h => group_word 0x60 f (by decide) h
theorem mbxbind (f : GW) : Statement (.mbxbind f) := fun h => group_word 0x61 f (by decide) h
theorem loadValueArrival : Statement .loadValueArrival := fun _ => rfl
theorem registerSpill : Statement .registerSpill := fun _ => rfl
theorem registerFill : Statement .registerFill := fun _ => rfl
theorem streamFetch : Statement .streamFetch := fun _ => rfl
theorem homeApply : Statement .homeApply := fun _ => rfl
theorem storeCommit : Statement .storeCommit := fun _ => rfl
theorem directoryEviction : Statement .directoryEviction := fun _ => rfl
theorem fenceCompletion : Statement .fenceCompletion := fun _ => rfl
theorem fenceRollback : Statement .fenceRollback := fun _ => rfl
theorem postedStoreAcknowledgement : Statement .postedStoreAcknowledgement := fun _ => rfl
theorem peerReply : Statement .peerReply := fun _ => rfl
theorem peerAccess : Statement .peerAccess := fun _ => rfl
theorem routeTimeout : Statement .routeTimeout := fun _ => rfl
theorem ferryRoundStart : Statement .ferryRoundStart := fun _ => rfl
theorem ferryChunkReceive : Statement .ferryChunkReceive := fun _ => rfl
theorem domainRound : Statement .domainRound := fun _ => rfl
theorem replicatedUpdate : Statement .replicatedUpdate := fun _ => rfl
theorem engineCommandComplete : Statement .engineCommandComplete := fun _ => rfl
theorem engineCommandFault : Statement .engineCommandFault := fun _ => rfl
theorem engineFaultRetry : Statement .engineFaultRetry := fun _ => rfl
theorem sluiceGrant : Statement .sluiceGrant := fun _ => rfl
theorem sluicePromotion : Statement .sluicePromotion := fun _ => rfl
theorem matrixOperationComplete : Statement .matrixOperationComplete := fun _ => rfl
theorem mailboxFiring : Statement .mailboxFiring := fun _ => rfl
theorem recoveryQuantum : Statement .recoveryQuantum := fun _ => rfl
theorem bargePlacement : Statement .bargePlacement := fun _ => rfl
theorem idleUnitSave : Statement .idleUnitSave := fun _ => rfl
theorem effectivePriorityRaise : Statement .effectivePriorityRaise := fun _ => rfl
theorem levellingExchange : Statement .levellingExchange := fun _ => rfl
theorem stopSave : Statement .stopSave := fun _ => rfl
theorem binderResolution : Statement .binderResolution := fun _ => rfl
theorem revokedSegmentService : Statement .revokedSegmentService := fun _ => rfl
theorem optionalEmulation : Statement .optionalEmulation := fun _ => rfl
theorem serviceReturn : Statement .serviceReturn := fun _ => rfl
theorem serviceAbandon : Statement .serviceAbandon := fun _ => rfl
theorem serviceEscalate : Statement .serviceEscalate := fun _ => rfl
theorem inboundPostedWrite : Statement .inboundPostedWrite := fun _ => rfl
theorem inboundRead : Statement .inboundRead := fun _ => rfl
theorem cxlMemRequest : Statement .cxlMemRequest := fun _ => rfl
theorem hostSnoop : Statement .hostSnoop := fun _ => rfl
theorem hostWarmRestart : Statement .hostWarmRestart := fun _ => rfl
theorem powerUp : Statement .powerUp := fun _ => rfl
theorem thermalLimit : Statement .thermalLimit := fun _ => rfl
theorem thermalShutdown : Statement .thermalShutdown := fun _ => rfl
theorem bindingSearchRepeat : Statement .bindingSearchRepeat := fun _ => rfl
theorem bindingAbandon : Statement .bindingAbandon := fun _ => rfl
theorem failedContextClear : Statement .failedContextClear := fun _ => rfl
theorem ovoftLinkLoss : Statement .ovoftLinkLoss := fun _ => rfl
theorem ovoftLinkReturn : Statement .ovoftLinkReturn := fun _ => rfl
theorem hostLinkReturn : Statement .hostLinkReturn := fun _ => rfl
theorem powerDown : Statement .powerDown := fun _ => rfl

end Sys2Proof.Laws.RoundTrip
end

