-- ==== Sys2Proof/Tests/Slice0.lean ====
section
/-! SUPPORT. The model's own tests: ill-formed terms, words written out from the encoding tables of the spec, states that meet the hypotheses of the statements, and results worked by hand from the rules. -/

namespace Sys2Proof.Tests

open Sys2Proof.Machine

set_option Elab.async false

/-! Ill-formed terms, one for each check of WellFormed. -/

theorem test_illformed_lane_fields :
    [Instr.iadd ⟨64, 0, 0, 0, false, false, none⟩, .iadd ⟨0, 64, 0, 0, false, false, none⟩, .iadd ⟨0, 0, 64, 0, false, false, none⟩, .iadd ⟨0, 0, 0, 8, false, false, none⟩].any wellFormed = false := by
  decide +kernel
theorem test_illformed_extension :
    [Ext.mk 8 0 0 false 0 0, ⟨0, 8, 0, false, 0, 0⟩, ⟨0, 0, 64, false, 0, 0⟩, ⟨0, 0, 0, false, 8, 0⟩, ⟨0, 0, 0, false, 0, 65536⟩].any
      (fun e => wellFormed (.iadd ⟨0, 0, 0, 0, false, false, some e⟩)) = false := by decide +kernel
theorem test_illformed_group_fields :
    [GW.mk 64 0 0 0 none, ⟨0, 64, 0, 0, none⟩, ⟨0, 0, 64, 0, none⟩, ⟨0, 0, 0, 64, none⟩].any (fun f => wellFormed (.ssel f)) = false ∧
    wellFormed (.ssel ⟨0, 0, 0, 0, some 0⟩) = false ∧ wellFormed (.saddGl ⟨0, 0, 0, 0, none⟩) = false ∧ wellFormed (.saddGl ⟨0, 0, 0, 0, some (2 ^ 32)⟩) = false := by decide +kernel
theorem test_illformed_selector :
    [Instr.ret ⟨0, 0, 0, 0, false, false, none⟩, .nop ⟨0, 0, 1, 0, false, false, none⟩, .moviH ⟨0, 0, 0, 0, false, false, none⟩, .fneg ⟨0, 0, 2, 0, false, false, none⟩,
      .voteAny ⟨0, 0, 0, 0, false, false, none⟩, .optionalOpcode 16 ⟨0, 0, 0, 0, false, false, none⟩, .saddGr ⟨0, 0, 0, 1, none⟩, .cntrd ⟨0, 0, 0, 8, none⟩, .cntrdSt ⟨0, 0, 0, 7, none⟩,
      .xmsetFirst ⟨0, 0, 0, 0, none⟩, .quiesce ⟨0, 0, 0, 64, none⟩, .diectlRetrainUcie ⟨0, 0, 0, 4, none⟩].any wellFormed = false := by decide +kernel
theorem test_wellformed :
    wellFormed (.iadd ⟨63, 63, 63, 7, true, true, some ⟨7, 7, 63, true, 7, 65535⟩⟩) = true ∧ wellFormed (.saddGl ⟨63, 63, 63, 63, some (2 ^ 32 - 1)⟩) = true ∧
    wellFormed (.optionalOpcode 15 ⟨0, 0, 0, 0, false, false, none⟩) = true := by decide +kernel

/-! Words laid out from R157, R160, R167 and R168 with the majors and function codes of R164 and R169: (first word, second word, instruction). -/

/-- Each pair of words decodes to its instruction. -/
def allDecode (l : List (Nat × Nat × Instr)) : Bool := l.all (fun p => decodeWords p.1 p.2.1 == some p.2.2)

/-- The words that the spec writes out itself, in R157 to R184 and the worked programs. -/
theorem test_decode_worked : allDecode [
   (0x010420C0, 0, .iadd ⟨1, 2, 3, 0, false, false, none⟩), (0x05105181, 0x00700000, .imad ⟨4, 5, 6, 0, false, false, some ⟨0, 0, 7, false, 0, 0⟩⟩),
   (0x14042101, 0x08020000, .icmp ⟨1, 2, 4, 0, false, false, some ⟨0, 2, 0, false, 2, 0⟩⟩), (0x17040001, 0x20013F80, .moviH ⟨1, 0, 0, 0, false, false, some ⟨1, 0, 0, false, 1, 0x3F80⟩⟩),
   (0x18000000, 0, .movs ⟨0, 0, 0, 0, false, false, none⟩), (0x18040081, 0x00080000, .movs ⟨1, 0, 2, 0, false, false, some ⟨0, 0, 0, true, 0, 0⟩⟩),
   (0x2C185001, 0x0C000000, .qpack ⟨6, 5, 0, 0, false, false, some ⟨0, 3, 0, false, 0, 0⟩⟩)] := by decide +kernel

/-- Rows 0x00 and 0x10 of R164. -/
theorem test_decode_control_integer : allDecode [
   (0x00000014, 0, .nop ⟨0, 0, 0, 2, true, false, none⟩),
   (0x00000048, 0, .ret ⟨0, 0, 1, 1, false, false, none⟩),
   (0x00000080, 0, .exit ⟨0, 0, 2, 0, false, false, none⟩),
   (0x000000F4, 0, .region ⟨0, 0, 3, 6, true, false, none⟩),
   (0x0000010C, 0, .ifence ⟨0, 0, 4, 1, true, false, none⟩),
   (0x00000148, 0, .bkpt ⟨0, 0, 5, 1, false, false, none⟩),
   (0x01A699A5, 0x1830442F, .iadd ⟨41, 41, 38, 4, true, false, some ⟨0, 6, 3, false, 0, 0x442F⟩⟩),
   (0x028C8949, 0x486531E2, .isub ⟨35, 8, 37, 1, false, false, some ⟨2, 2, 6, false, 5, 0x31E2⟩⟩),
   (0x0382C8D9, 0x75DD997B, .imul ⟨32, 44, 35, 3, false, false, some ⟨3, 5, 29, true, 5, 0x997B⟩⟩),
   (0x041A550B, 0x9F8F936C, .imulh ⟨6, 37, 20, 1, false, true, some ⟨4, 7, 56, true, 7, 0x936C⟩⟩),
   (0x052F15AF, 0x3DA1A0A3, .imad ⟨11, 49, 22, 5, true, true, some ⟨1, 7, 26, false, 1, 0xA0A3⟩⟩),
   (0x069B4787, 0x07CF2147, .idiv ⟨38, 52, 30, 0, true, true, some ⟨0, 1, 60, true, 7, 0x2147⟩⟩),
   (0x074EE64D, 0xB41D560A, .irem ⟨19, 46, 25, 1, true, false, some ⟨5, 5, 1, true, 5, 0x560A⟩⟩),
   (0x083B24D7, 0x2D9F2941, .imin ⟨14, 50, 19, 2, true, true, some ⟨1, 3, 25, true, 7, 0x2941⟩⟩),
   (0x09912E71, 0x3B7EB7B0, .imax ⟨36, 18, 57, 6, false, false, some ⟨1, 6, 55, true, 6, 0xB7B0⟩⟩),
   (0x0A18C2A1, 0x2C0A8686, .andI ⟨6, 12, 10, 4, false, false, some ⟨1, 3, 0, true, 2, 0x8686⟩⟩),
   (0x0B6E3637, 0x97C0E9CD, .orI ⟨27, 35, 24, 6, true, true, some ⟨4, 5, 60, false, 0, 0xE9CD⟩⟩),
   (0x0C6877F9, 0xB8316AE3, .xor ⟨26, 7, 31, 7, false, false, some ⟨5, 6, 3, false, 1, 0x6AE3⟩⟩),
   (0x0D5A7101, 0x0241BA2B, .shl ⟨22, 39, 4, 0, false, false, some ⟨0, 0, 36, false, 1, 0xBA2B⟩⟩),
   (0x0EA1928B, 0xB3DDF2C3, .shr ⟨40, 25, 10, 1, false, true, some ⟨5, 4, 61, true, 5, 0xF2C3⟩⟩),
   (0x0F79F7F9, 0x4495878E, .sar ⟨30, 31, 31, 7, false, false, some ⟨2, 1, 9, false, 5, 0x878E⟩⟩),
   (0x103BDF65, 0x94942E98, .rol ⟨14, 61, 61, 4, true, false, some ⟨4, 5, 9, false, 4, 0x2E98⟩⟩),
   (0x115F23F1, 0x96837A91, .bfx ⟨23, 50, 15, 6, false, false, some ⟨4, 5, 40, false, 3, 0x7A91⟩⟩),
   (0x128A05DF, 0xA01F84B2, .bfi ⟨34, 32, 23, 3, true, true, some ⟨5, 0, 1, true, 7, 0x84B2⟩⟩),
   (0x13D3CBFB, 0x54517425, .sel ⟨52, 60, 47, 7, false, true, some ⟨2, 5, 5, false, 1, 0x7425⟩⟩),
   (0x1439FA33, 0x81E93D64, .icmp ⟨14, 31, 40, 6, false, true, some ⟨4, 0, 30, true, 1, 0x3D64⟩⟩),
   (0x15E4C709, 0xB45FCD82, .isat ⟨57, 12, 28, 1, false, false, some ⟨5, 5, 5, true, 7, 0xCD82⟩⟩),
   (0x16242291, 0x9F37B368, .mov ⟨9, 2, 10, 2, false, false, some ⟨4, 7, 51, false, 7, 0xB368⟩⟩),
   (0x17074BDB, 0xA610DE1C, .movi ⟨1, 52, 47, 3, false, true, some ⟨5, 1, 33, false, 0, 0xDE1C⟩⟩),
   (0x17393847, 0x3509431C, .moviH ⟨14, 19, 33, 0, true, true, some ⟨1, 5, 16, true, 1, 0x431C⟩⟩),
   (0x18AE6D79, 0x9B420993, .movs ⟨43, 38, 53, 7, false, false, some ⟨4, 6, 52, false, 2, 0x993⟩⟩),
   (0x19CB402D, 0x28991F9E, .ineg ⟨50, 52, 0, 5, true, false, some ⟨1, 2, 9, true, 1, 0x1F9E⟩⟩),
   (0x19E64079, 0x0CC8320B, .iabs ⟨57, 36, 1, 7, false, false, some ⟨0, 3, 12, true, 0, 0x320B⟩⟩),
   (0x1975509D, 0x8ECFF4C1, .notI ⟨29, 21, 2, 3, true, false, some ⟨4, 3, 44, true, 7, 0xF4C1⟩⟩),
   (0x19D9D0CB, 0x387FA1C8, .popc ⟨54, 29, 3, 1, false, true, some ⟨1, 6, 7, true, 7, 0xA1C8⟩⟩),
   (0x1914E115, 0xB322BB7C, .clz ⟨5, 14, 4, 2, true, false, some ⟨5, 4, 50, false, 2, 0xBB7C⟩⟩),
   (0x19F9E157, 0x259A728A, .ctz ⟨62, 30, 5, 2, true, true, some ⟨1, 1, 25, true, 2, 0x728A⟩⟩),
   (0x1959B1AF, 0x354509F9, .brev ⟨22, 27, 6, 5, true, true, some ⟨1, 5, 20, false, 5, 0x9F9⟩⟩)] := by decide +kernel

/-- R164: the factor majors. -/
theorem test_decode_factor : allDecode [
   (0x1AB8264B, 0x52017505, .fald ⟨46, 2, 25, 1, false, true, some ⟨2, 4, 32, false, 1, 0x7505⟩⟩),
   (0x1B483EB3, 0x33068468, .fast ⟨18, 3, 58, 6, false, true, some ⟨1, 4, 48, false, 6, 0x8468⟩⟩),
   (0x1CB551A1, 0x43362513, .faupd ⟨45, 21, 6, 4, false, false, some ⟨2, 0, 51, false, 6, 0x2513⟩⟩),
   (0x1DD11187, 0x8C49E855, .fadwd ⟨52, 17, 6, 0, true, true, some ⟨4, 3, 4, true, 1, 0xE855⟩⟩),
   (0x1EF3B4A1, 0x8820380A, .fasolvF ⟨60, 59, 18, 4, false, false, some ⟨4, 2, 2, false, 0, 0x380A⟩⟩),
   (0x1E37C53B, 0xB2119475, .fasolvB ⟨13, 60, 20, 7, false, true, some ⟨5, 4, 33, false, 1, 0x9475⟩⟩),
   (0x1E5F40BB, 0x40026100, .fasolvG ⟨23, 52, 2, 7, false, true, some ⟨2, 0, 0, false, 2, 0x6100⟩⟩),
   (0x1E1EBD61, 0xBAABC942, .fasolvLoo ⟨7, 43, 53, 4, false, false, some ⟨5, 6, 42, true, 3, 0xC942⟩⟩),
   (0x1F58DD83, 0xA9984277, .fadiag ⟨22, 13, 54, 0, false, true, some ⟨5, 2, 25, true, 0, 0x4277⟩⟩),
   (0x2FF89A63, 0x5AC032EA, .famul ⟨62, 9, 41, 4, false, true, some ⟨2, 6, 44, false, 0, 0x32EA⟩⟩),
   (0x2F44FCE5, 0x8009EBDF, .famulT ⟨17, 15, 51, 4, true, false, some ⟨4, 0, 0, true, 1, 0xEBDF⟩⟩)] := by decide +kernel

/-- R164: rows 0x20. -/
theorem test_decode_float : allDecode [
   (0x2070B105, 0x1B7B960B, .fadd ⟨28, 11, 4, 0, true, false, some ⟨0, 6, 55, true, 3, 0x960B⟩⟩),
   (0x212D2745, 0x117D7D28, .fsub ⟨11, 18, 29, 0, true, false, some ⟨0, 4, 23, true, 5, 0x7D28⟩⟩),
   (0x225CC059, 0x585C66E6, .fmul ⟨23, 12, 1, 3, false, false, some ⟨2, 6, 5, true, 4, 0x66E6⟩⟩),
   (0x234751A5, 0x3A560B84, .ffma ⟨17, 53, 6, 4, true, false, some ⟨1, 6, 37, false, 6, 0xB84⟩⟩),
   (0x241A6F95, 0x8AADFD06, .fmin ⟨6, 38, 62, 2, true, false, some ⟨4, 2, 42, true, 5, 0xFD06⟩⟩),
   (0x250F5D89, 0xBAE075BA, .fmax ⟨3, 53, 54, 1, false, false, some ⟨5, 6, 46, false, 0, 0x75BA⟩⟩),
   (0x2626961F, 0x1B5809A5, .fcmp ⟨9, 41, 24, 3, true, true, some ⟨0, 6, 53, true, 0, 0x9A5⟩⟩),
   (0x2705ED0D, 0x06A7811F, .fdiv ⟨1, 30, 52, 1, true, false, some ⟨0, 1, 42, false, 7, 0x811F⟩⟩),
   (0x28BF13A1, 0x3DF9F540, .fscl ⟨47, 49, 14, 4, false, false, some ⟨1, 7, 31, true, 1, 0xF540⟩⟩),
   (0x2916703B, 0x350A0662, .fabs ⟨5, 39, 0, 7, false, true, some ⟨1, 5, 16, true, 2, 0x662⟩⟩),
   (0x294AC07F, 0x0EBC9232, .fneg ⟨18, 44, 1, 7, true, true, some ⟨0, 3, 43, true, 4, 0x9232⟩⟩),
   (0x29C880A5, 0x8D3708F6, .fsqrt ⟨50, 8, 2, 4, true, false, some ⟨4, 3, 19, false, 7, 0x8F6⟩⟩),
   (0x29D610CB, 0x71832633, .frcp ⟨53, 33, 3, 1, false, true, some ⟨3, 4, 24, false, 3, 0x2633⟩⟩),
   (0x29F5813F, 0x33857677, .frsq ⟨61, 24, 4, 7, true, true, some ⟨1, 4, 56, false, 5, 0x7677⟩⟩),
   (0x2908B157, 0x1EBE9A99, .fexp2 ⟨2, 11, 5, 2, true, true, some ⟨0, 7, 43, true, 6, 0x9A99⟩⟩),
   (0x29655189, 0x140DCBE8, .flog2 ⟨25, 21, 6, 1, false, false, some ⟨0, 5, 0, true, 5, 0xCBE8⟩⟩),
   (0x29EB01CF, 0x5176C7C3, .fclass ⟨58, 48, 7, 1, true, true, some ⟨2, 4, 23, false, 6, 0xC7C3⟩⟩),
   (0x29C5221F, 0x10644C3E, .frnd ⟨49, 18, 8, 3, true, true, some ⟨0, 4, 6, false, 4, 0x4C3E⟩⟩),
   (0x29855259, 0x3728CCD2, .fgete ⟨33, 21, 9, 3, false, false, some ⟨1, 5, 50, true, 0, 0xCCD2⟩⟩),
   (0x29F2F281, 0x7E74F89D, .sinT ⟨60, 47, 10, 0, false, false, some ⟨3, 7, 39, false, 4, 0xF89D⟩⟩),
   (0x297DB2DF, 0x513CCFFA, .cosT ⟨31, 27, 11, 3, true, true, some ⟨2, 4, 19, true, 4, 0xCFFA⟩⟩),
   (0x2992B33B, 0x64A16A6E, .sincosT ⟨36, 43, 12, 7, false, true, some ⟨3, 1, 10, false, 1, 0x6A6E⟩⟩),
   (0x29ED6355, 0x78832E72, .fredT ⟨59, 22, 13, 2, true, false, some ⟨3, 6, 8, false, 3, 0x2E72⟩⟩),
   (0x2A550633, 0x4F86C403, .cvt ⟨21, 16, 24, 6, false, true, some ⟨2, 3, 56, false, 6, 0xC403⟩⟩),
   (0x2B496C4D, 0x1D1A6E92, .cvti ⟨18, 22, 49, 1, true, false, some ⟨0, 7, 17, true, 2, 0x6E92⟩⟩),
   (0x2C65AA87, 0x7BD84126, .qpack ⟨25, 26, 42, 0, true, true, some ⟨3, 6, 61, true, 0, 0x4126⟩⟩),
   (0x2DFA6809, 0x059F7F36, .qunpk ⟨62, 38, 32, 1, false, false, some ⟨0, 1, 25, true, 7, 0x7F36⟩⟩),
   (0x2E2A2B1B, 0x1C504055, .had ⟨10, 34, 44, 3, false, true, some ⟨0, 7, 5, false, 0, 0x4055⟩⟩)] := by decide +kernel

/-- R164: row 0x30. -/
theorem test_decode_cross_lane : allDecode [
   (0x307E2403, 0x8C1C1C51, .shfl ⟨31, 34, 16, 0, false, true, some ⟨4, 3, 1, true, 4, 0x1C51⟩⟩),
   (0x31E6CA9D, 0x6506BD8D, .shflUp ⟨57, 44, 42, 3, true, false, some ⟨3, 1, 16, false, 6, 0xBD8D⟩⟩),
   (0x32B56BA1, 0x76BB0375, .shflDn ⟨45, 22, 46, 4, false, false, some ⟨3, 5, 43, true, 3, 0x375⟩⟩),
   (0x3380D50D, 0x2DD49701, .shflX ⟨32, 13, 20, 1, true, false, some ⟨1, 3, 29, false, 4, 0x9701⟩⟩),
   (0x34E8F819, 0x63C61BD4, .swpPair ⟨58, 15, 32, 3, false, false, some ⟨3, 0, 60, false, 6, 0x1BD4⟩⟩),
   (0x356C4B8B, 0x099D39F6, .perm ⟨27, 4, 46, 1, false, true, some ⟨0, 2, 25, true, 5, 0x39F6⟩⟩),
   (0x3634CAAD, 0x9C2EBF6D, .bcast ⟨13, 12, 42, 5, true, false, some ⟨4, 7, 2, true, 6, 0xBF6D⟩⟩),
   (0x371C11B7, 0x45696A30, .redu ⟨7, 1, 6, 6, true, true, some ⟨2, 1, 22, true, 1, 0x6A30⟩⟩),
   (0x38D7473B, 0x02DBBED4, .scan ⟨53, 52, 28, 7, false, true, some ⟨0, 0, 45, true, 3, 0xBED4⟩⟩),
   (0x39630E84, 0, .vote ⟨24, 48, 58, 0, true, false, none⟩),
   (0x39785D2F, 0x10C1AD9A, .voteAny ⟨30, 5, 52, 5, true, true, some ⟨0, 4, 12, false, 1, 0xAD9A⟩⟩),
   (0x39FBEA21, 0x12FA8D1F, .voteAll ⟨62, 62, 40, 4, false, false, some ⟨0, 4, 47, true, 2, 0x8D1F⟩⟩),
   (0x390B53E7, 0x1EDBC5E5, .voteUni ⟨2, 53, 15, 4, true, true, some ⟨0, 7, 45, true, 3, 0xC5E5⟩⟩),
   (0x3A27C82F, 0x23384D79, .mcount ⟨9, 60, 32, 5, true, true, some ⟨1, 0, 51, true, 0, 0x4D79⟩⟩),
   (0x3A633CD3, 0x8601C88A, .mcountPre ⟨24, 51, 51, 2, false, true, some ⟨4, 1, 32, false, 1, 0xC88A⟩⟩),
   (0x3B16A0E1, 0x74A924F2, .matchI ⟨5, 42, 3, 4, false, false, some ⟨3, 5, 10, true, 1, 0x24F2⟩⟩)] := by decide +kernel

/-- R164: row 0x40. -/
theorem test_decode_memory : allDecode [
   (0x401DB839, 0xBCB2D56C, .ld ⟨7, 27, 32, 7, false, false, some ⟨5, 7, 11, false, 2, 0xD56C⟩⟩),
   (0x41CB64E3, 0x524D8213, .st ⟨50, 54, 19, 4, false, true, some ⟨2, 4, 36, true, 5, 0x8213⟩⟩),
   (0x4240C435, 0x2925212E, .lds ⟨16, 12, 16, 6, true, false, some ⟨1, 2, 18, false, 5, 0x212E⟩⟩),
   (0x438623C5, 0xA6983464, .sts ⟨33, 34, 15, 0, true, false, some ⟨5, 1, 41, true, 0, 0x3464⟩⟩),
   (0x44D9DEC1, 0x438B3D09, .ldv ⟨54, 29, 59, 0, false, false, some ⟨2, 0, 56, true, 3, 0x3D09⟩⟩),
   (0x45F05629, 0x89C83628, .stv ⟨60, 5, 24, 5, false, false, some ⟨4, 2, 28, true, 0, 0x3628⟩⟩),
   (0x466162AF, 0x0D0305D3, .ldj ⟨24, 22, 10, 5, true, true, some ⟨0, 3, 16, false, 3, 0x5D3⟩⟩),
   (0x47328533, 0x0C2F2065, .ldjNb ⟨12, 40, 20, 6, false, true, some ⟨0, 3, 2, true, 7, 0x2065⟩⟩),
   (0x48AE42B7, 0xA6968AD6, .stj ⟨43, 36, 10, 6, true, true, some ⟨5, 1, 41, false, 6, 0x8AD6⟩⟩),
   (0x496FE11F, 0x55A8BA41, .pref ⟨27, 62, 4, 3, true, true, some ⟨2, 5, 26, true, 0, 0xBA41⟩⟩),
   (0x4A3BD06D, 0x69B1CFFB, .mka ⟨14, 61, 1, 5, true, false, some ⟨3, 2, 27, false, 1, 0xCFFB⟩⟩),
   (0x4B241113, 0x8A99BDDF, .segno ⟨9, 1, 4, 2, false, true, some ⟨4, 2, 41, true, 1, 0xBDDF⟩⟩),
   (0x4C4CB8A1, 0x246F6509, .segof ⟨19, 11, 34, 4, false, false, some ⟨1, 1, 6, true, 7, 0x6509⟩⟩),
   (0x4DEDF55D, 0x1853CF18, .chka ⟨59, 31, 21, 3, true, false, some ⟨0, 6, 5, false, 3, 0xCF18⟩⟩),
   (0x4E94E0D9, 0x69894C86, .ldl ⟨37, 14, 3, 3, false, false, some ⟨3, 2, 24, true, 1, 0x4C86⟩⟩)] := by decide +kernel

/-- R164: row 0x50. -/
theorem test_decode_atomic_sync : allDecode [
   (0x50E64DBF, 0xA2A9C798, .amoAdd ⟨57, 36, 54, 7, true, true, some ⟨5, 0, 42, true, 1, 0xC798⟩⟩),
   (0x51526411, 0x7AAFE06F, .amoMin ⟨20, 38, 16, 2, false, false, some ⟨3, 6, 42, true, 7, 0xE06F⟩⟩),
   (0x52A207B1, 0x3F0AF249, .amoMax ⟨40, 32, 30, 6, false, false, some ⟨1, 7, 48, true, 2, 0xF249⟩⟩),
   (0x53257713, 0x473814D0, .amoAnd ⟨9, 23, 28, 2, false, true, some ⟨2, 1, 51, true, 0, 0x14D0⟩⟩),
   (0x54CAF849, 0x030A0D3D, .amoOr ⟨50, 47, 33, 1, false, false, some ⟨0, 0, 48, true, 2, 0xD3D⟩⟩),
   (0x55279823, 0x4AB1B3A8, .amoXor ⟨9, 57, 32, 4, false, true, some ⟨2, 2, 43, false, 1, 0xB3A8⟩⟩),
   (0x56EA849F, 0x690B8696, .amoXchg ⟨58, 40, 18, 3, true, true, some ⟨3, 2, 16, true, 3, 0x8696⟩⟩),
   (0x570CD315, 0x6A8DC0F1, .amoJoin ⟨3, 13, 12, 2, true, false, some ⟨3, 2, 40, true, 5, 0xC0F1⟩⟩),
   (0x58CA2137, 0xB7D9810A, .amoc ⟨50, 34, 4, 6, true, true, some ⟨5, 5, 61, true, 1, 0x810A⟩⟩),
   (0x59658953, 0x355775C8, .amof ⟨25, 24, 37, 2, false, true, some ⟨1, 5, 21, false, 7, 0x75C8⟩⟩),
   (0x5AD62457, 0x56E0717A, .fence ⟨53, 34, 17, 2, true, true, some ⟨2, 5, 46, false, 0, 0x717A⟩⟩),
   (0x5B6E1001, 0x408B1756, .bar ⟨27, 33, 0, 0, false, false, some ⟨2, 0, 8, true, 3, 0x1756⟩⟩),
   (0x5B957061, 0x461BD393, .barArrive ⟨37, 23, 1, 4, false, false, some ⟨2, 1, 33, true, 3, 0xD393⟩⟩),
   (0x5B6280B9, 0x68834C72, .barWait ⟨24, 40, 2, 7, false, false, some ⟨3, 2, 8, false, 3, 0x4C72⟩⟩),
   (0x5CA4AE2F, 0xB1981CBD, .cbacq ⟨41, 10, 56, 5, true, true, some ⟨5, 4, 25, true, 0, 0x1CBD⟩⟩),
   (0x5D40BE99, 0x00365F0E, .cbrel ⟨16, 11, 58, 3, false, false, some ⟨0, 0, 3, false, 6, 0x5F0E⟩⟩),
   (0x5EEF21D5, 0x0C9BD49A, .waittl ⟨59, 50, 7, 2, true, false, some ⟨0, 3, 9, true, 3, 0xD49A⟩⟩)] := by decide +kernel

/-- R164: rows 0x60 and 0x70. -/
theorem test_decode_transfer_matrix : allDecode [
   (0x6052913B, 0xBED6DF90, .br ⟨20, 41, 4, 7, false, true, some ⟨5, 7, 45, false, 6, 0xDF90⟩⟩),
   (0x6130F1E3, 0x4E91ABC8, .jmp ⟨12, 15, 7, 4, false, true, some ⟨2, 3, 41, false, 1, 0xABC8⟩⟩),
   (0x62A64B15, 0x71202BBC, .brx ⟨41, 36, 44, 2, true, false, some ⟨3, 4, 18, false, 0, 0x2BBC⟩⟩),
   (0x62DB035F, 0x34C9A838, .brxCall ⟨54, 48, 13, 3, true, true, some ⟨1, 5, 12, true, 1, 0xA838⟩⟩),
   (0x637F68A3, 0xA36677B8, .call ⟨31, 54, 34, 4, false, true, some ⟨5, 0, 54, false, 6, 0x77B8⟩⟩),
   (0x64A2614B, 0x8890394A, .trapu ⟨40, 38, 5, 1, false, true, some ⟨4, 2, 9, false, 0, 0x394A⟩⟩),
   (0x652AD08D, 0x008117E7, .spbind ⟨10, 45, 2, 1, true, false, some ⟨0, 0, 8, false, 1, 0x17E7⟩⟩),
   (0x66D7ED59, 0x87897E3F, .sprel ⟨53, 62, 53, 3, false, false, some ⟨4, 1, 56, true, 1, 0x7E3F⟩⟩),
   (0x670C3F51, 0xA74F3323, .mma ⟨3, 3, 61, 2, false, false, some ⟨5, 1, 52, true, 7, 0x3323⟩⟩),
   (0x684D5587, 0x701C90B0, .mmaD ⟨19, 21, 22, 0, true, true, some ⟨3, 4, 1, true, 4, 0x90B0⟩⟩),
   (0x69CBE9C5, 0x9F68D36A, .mmai ⟨50, 62, 39, 0, true, false, some ⟨4, 7, 54, true, 0, 0xD36A⟩⟩),
   (0x6A5DFBB1, 0x0ED4573A, .tld ⟨23, 31, 46, 6, false, false, some ⟨0, 3, 45, false, 4, 0x573A⟩⟩),
   (0x6B4F1C57, 0x0169FBA3, .tst ⟨19, 49, 49, 2, true, true, some ⟨0, 0, 22, true, 1, 0xFBA3⟩⟩),
   (0x6CFB6851, 0x4923FF23, .tread ⟨62, 54, 33, 2, false, false, some ⟨2, 2, 18, false, 3, 0xFF23⟩⟩),
   (0x6D833B75, 0x868D30B7, .twrite ⟨32, 51, 45, 6, true, false, some ⟨4, 1, 40, true, 5, 0x30B7⟩⟩),
   (0x70739A95, 0x14DCDB2A, .optionalOpcode 0 ⟨28, 57, 42, 2, true, false, some ⟨0, 5, 13, true, 4, 0xDB2A⟩⟩),
   (0x7FF5E26B, 0x816AE68E, .optionalOpcode 15 ⟨61, 30, 9, 5, false, true, some ⟨4, 0, 22, true, 2, 0xE68E⟩⟩)] := by decide +kernel

/-- R169: row 0x00. -/
theorem test_decode_group_alu : allDecode [
   (0x8076D800, 0, .saddGr ⟨29, 45, 32, 0, none⟩),
   (0x8098F401, 0, .ssubGr ⟨38, 15, 16, 1, none⟩),
   (0x8059E782, 0, .smulGr ⟨22, 30, 30, 2, none⟩),
   (0x8084D883, 0, .sandGr ⟨33, 13, 34, 3, none⟩),
   (0x805314C4, 0, .sorGr ⟨20, 49, 19, 4, none⟩),
   (0x80BCA7C5, 0, .sxorGr ⟨47, 10, 31, 5, none⟩),
   (0x80BD5B06, 0, .sshlGr ⟨47, 21, 44, 6, none⟩),
   (0x802D0A47, 0, .sshrN64Gr ⟨11, 16, 41, 7, none⟩),
   (0x80F8D848, 0, .sshrI64Gr ⟨62, 13, 33, 8, none⟩),
   (0x80FAF349, 0, .sminI64Gr ⟨62, 47, 13, 9, none⟩),
   (0x802FE34A, 0, .sminN64Gr ⟨11, 62, 13, 10, none⟩),
   (0x803594CB, 0, .smaxI64Gr ⟨13, 25, 19, 11, none⟩),
   (0x802B398C, 0, .smaxN64Gr ⟨10, 51, 38, 12, none⟩),
   (0x80BD4DCD, 0, .smov ⟨47, 20, 55, 13, none⟩),
   (0x8148D34D, 0, .saddGi ⟨18, 13, 13, 13, none⟩),
   (0x8248EC7B, 0, .ssubGi ⟨18, 14, 49, 59, none⟩),
   (0x830C1CF7, 0, .smulGi ⟨3, 1, 51, 55, none⟩),
   (0x84B4F97B, 0, .sandGi ⟨45, 15, 37, 59, none⟩),
   (0x8508A833, 0, .sorGi ⟨2, 10, 32, 51, none⟩),
   (0x860707F7, 0, .sxorGi ⟨1, 48, 31, 55, none⟩),
   (0x87B65D5D, 0, .sshlGi ⟨45, 37, 53, 29, none⟩),
   (0x88AEF757, 0, .sshrN64Gi ⟨43, 47, 29, 23, none⟩),
   (0x89A88EB7, 0, .sshrI64Gi ⟨42, 8, 58, 55, none⟩),
   (0x8A551335, 0, .sminI64Gi ⟨21, 17, 12, 53, none⟩),
   (0x8B433CD4, 0, .sminN64Gi ⟨16, 51, 51, 20, none⟩),
   (0x8C477DBD, 0, .smaxI64Gi ⟨17, 55, 54, 61, none⟩),
   (0x8D782D17, 0, .smaxN64Gi ⟨30, 2, 52, 23, none⟩),
   (0x8EEAAA41, 0, .smoviGi ⟨58, 42, 41, 1, none⟩),
   (0x8F676F8D, 0, .scmpGi ⟨25, 54, 62, 13, none⟩)] := by decide +kernel

/-- R169: row 0x10. -/
theorem test_decode_group_control : allDecode [
   (0x900D16D4, 0, .scmpGr ⟨3, 17, 27, 20, none⟩),
   (0x91BB366C, 0, .ssel ⟨46, 51, 25, 44, none⟩),
   (0x921F7E9A, 0, .sld ⟨7, 55, 58, 26, none⟩),
   (0x93B9F0AF, 0, .sst ⟨46, 31, 2, 47, none⟩),
   (0x94896D3A, 0, .sbr ⟨34, 22, 52, 58, none⟩),
   (0x953AC5F2, 0, .sjmp ⟨14, 44, 23, 50, none⟩),
   (0x968713ED, 0, .scall ⟨33, 49, 15, 45, none⟩),
   (0x97A44823, 0, .sret ⟨41, 4, 32, 35, none⟩),
   (0x9865A1C1, 0, .cvsetGi ⟨25, 26, 7, 1, none⟩),
   (0x9915BD6D, 0, .dqpush ⟨5, 27, 53, 45, none⟩),
   (0x9A99135C, 0, .dqpop ⟨38, 17, 13, 28, none⟩),
   (0x9B530CDC, 0xF5FA5D74, .cpy ⟨20, 48, 51, 28, some 0xF5FA5D74⟩),
   (0x9C78E550, 0x3173B8D9, .cpy2d ⟨30, 14, 21, 16, some 0x3173B8D9⟩),
   (0x9DAA4712, 0xD0F11E05, .cpyg ⟨42, 36, 28, 18, some 0xD0F11E05⟩),
   (0x9E79343C, 0xD9C57C3C, .chain ⟨30, 19, 16, 60, some 0xD9C57C3C⟩),
   (0x9F4AEC20, 0xFB9EBFB8, .coll ⟨18, 46, 48, 32, some 0xFB9EBFB8⟩)] := by decide +kernel

/-- R169: row 0x20. -/
theorem test_decode_group_units : allDecode [
   (0xA0B0CF40, 0xCC858EE3, .post ⟨44, 12, 61, 0, some 0xCC858EE3⟩),
   (0xA15D09A9, 0x7AC3CAF8, .stl ⟨23, 16, 38, 41, some 0x7AC3CAF8⟩),
   (0xA27282AE, 0x62969D5A, .permit ⟨28, 40, 10, 46, some 0x62969D5A⟩),
   (0xA31B5A51, 0x951BCB26, .permq ⟨6, 53, 41, 17, some 0x951BCB26⟩),
   (0xA4AC1689, 0xA7ECC7EE, .sploop ⟨43, 1, 26, 9, some 0xA7ECC7EE⟩),
   (0xA5467312, 0, .spset ⟨17, 39, 12, 18, none⟩),
   (0xA6DCF5F9, 0, .tzero ⟨55, 15, 23, 57, none⟩),
   (0xA75F34DA, 0, .tcvt ⟨23, 51, 19, 26, none⟩),
   (0xA8E9A54B, 0, .ttr ⟨58, 26, 21, 11, none⟩),
   (0xA9AFA999, 0, .fainit ⟨43, 58, 38, 25, none⟩),
   (0xAA82D6CA, 0, .fascl ⟨32, 45, 27, 10, none⟩),
   (0xABC36E00, 0, .ymset ⟨48, 54, 56, 0, none⟩),
   (0xABAF9381, 0, .ymsetFirst ⟨43, 57, 14, 1, none⟩),
   (0xAC908840, 0, .xmset ⟨36, 8, 33, 0, none⟩),
   (0xAC6CF441, 0, .xmsetFirst ⟨27, 15, 17, 1, none⟩),
   (0xAD7E01FD, 0, .wbld ⟨31, 32, 7, 61, none⟩),
   (0xAE7BA4BE, 0, .wbfree ⟨30, 58, 18, 62, none⟩)] := by decide +kernel

/-- R169: row 0x40. -/
theorem test_decode_group_literal : allDecode [
   (0xC0420540, 0x521858F4, .cvsetGl ⟨16, 32, 21, 0, some 0x521858F4⟩),
   (0xC1B65FE5, 0xD72F537C, .saddGl ⟨45, 37, 63, 37, some 0xD72F537C⟩),
   (0xC261CD49, 0xA5826FB2, .ssubGl ⟨24, 28, 53, 9, some 0xA5826FB2⟩),
   (0xC30A816A, 0x7BF2A7F5, .smulGl ⟨2, 40, 5, 42, some 0x7BF2A7F5⟩),
   (0xC4C7A484, 0x207C9F6C, .sandGl ⟨49, 58, 18, 4, some 0x207C9F6C⟩),
   (0xC51F8BAB, 0x35F217B0, .sorGl ⟨7, 56, 46, 43, some 0x35F217B0⟩),
   (0xC6716DA0, 0x8DD4C0F7, .sxorGl ⟨28, 22, 54, 32, some 0x8DD4C0F7⟩),
   (0xC7D5396D, 0xD3E66159, .sshlGl ⟨53, 19, 37, 45, some 0xD3E66159⟩),
   (0xC86968AC, 0xF9994F18, .sshrN64Gl ⟨26, 22, 34, 44, some 0xF9994F18⟩),
   (0xC9AA03EA, 0x313B259A, .sshrI64Gl ⟨42, 32, 15, 42, some 0x313B259A⟩),
   (0xCAB9440B, 0x0A40C9E8, .sminI64Gl ⟨46, 20, 16, 11, some 0xA40C9E8⟩),
   (0xCBBE4CC6, 0x6602EC12, .sminN64Gl ⟨47, 36, 51, 6, some 0x6602EC12⟩),
   (0xCC1C1158, 0x153FB2CD, .smaxI64Gl ⟨7, 1, 5, 24, some 0x153FB2CD⟩),
   (0xCD0EBE96, 0x09775DF3, .smaxN64Gl ⟨3, 43, 58, 22, some 0x9775DF3⟩),
   (0xCEC8706F, 0xB5CB42F6, .smoviGl ⟨50, 7, 1, 47, some 0xB5CB42F6⟩),
   (0xCFE145F5, 0x08C401A1, .scmpGl ⟨56, 20, 23, 53, some 0x8C401A1⟩)] := by decide +kernel

/-- R169: the system set. -/
theorem test_decode_system : allDecode [
   (0xD009C1BF, 0, .sysrd ⟨2, 28, 6, 63, none⟩),
   (0xD196214F, 0, .syswr ⟨37, 34, 5, 15, none⟩),
   (0xD2CB4D73, 0, .trap ⟨50, 52, 53, 51, none⟩),
   (0xD3745071, 0, .tlbinv ⟨29, 5, 1, 49, none⟩),
   (0xD49E64FC, 0, .icinv ⟨39, 38, 19, 60, none⟩),
   (0xD5C9B34A, 0, .bindinv ⟨50, 27, 13, 10, none⟩),
   (0xD6A9F6D3, 0, .segrev ⟨42, 31, 27, 19, none⟩),
   (0xD7A41D80, 0, .unitsave ⟨41, 1, 54, 0, none⟩),
   (0xD806C3CB, 0, .unitload ⟨1, 44, 15, 11, none⟩),
   (0xD93B83D0, 0, .preempt ⟨14, 56, 15, 16, none⟩),
   (0xDA7C28DF, 0, .cancel ⟨31, 2, 35, 31, none⟩),
   (0xDB76F5C3, 0, .cntrd ⟨29, 47, 23, 3, none⟩),
   (0xDBF04B8C, 0, .cntrdSt ⟨60, 4, 46, 12, none⟩),
   (0xDCCB048A, 0, .zerobuf ⟨50, 48, 18, 10, none⟩),
   (0xDD4E9FC0, 0, .diectlReadState ⟨19, 41, 63, 0, none⟩),
   (0xDD7AB801, 0, .diectlWriteBack ⟨30, 43, 32, 1, none⟩),
   (0xDDEFE182, 0, .diectlSelfRefreshEntry ⟨59, 62, 6, 2, none⟩),
   (0xDDB83043, 0, .diectlSelfRefreshExit ⟨46, 3, 1, 3, none⟩),
   (0xDD101284, 0, .diectlResetDieLogic ⟨4, 1, 10, 4, none⟩),
   (0xDD6549C5, 0, .diectlRetrainUcie ⟨25, 20, 39, 5, none⟩),
   (0xDEBE757E, 0, .quiesce ⟨47, 39, 21, 62, none⟩),
   (0xDF9C4A2F, 0, .admitI ⟨39, 4, 40, 47, none⟩),
   (0xE0F65E3C, 0, .sluiceset ⟨61, 37, 56, 60, none⟩),
   (0xE1B0B48E, 0, .mbxbind ⟨44, 11, 18, 14, none⟩)] := by decide +kernel

/-- Unassigned codes of R164, R165 and R169 decode to nothing. -/
theorem test_decode_unassigned :
    [0x3C000000, 0x4F000000, 0x5F000000, 0x6E000000, 0x00000180, 0x190001C0, 0x29000380, 0x5B0000C0, 0x8000000E, 0xAF000000, 0xB0000000, 0xE2000000, 0xF0000000].all
      (fun w => decodeWords w 0 == none) = true := by decide +kernel

/-! States that meet the hypotheses of the statements. -/

/-- The issue of the given words as it stands before `exec`: the words placed where the next step fetches, the state prepared by `p`, and the fetch done. -/
def issued (w0 w1 : Nat) (p : State → State := id) : Option Env :=
  match (p (State.reset.withFetchWord 64 (w0 + w1 * 2 ^ 32))).issueMove 0 0 none false with
  | .run s _ => s.env?
  | _ => none
/-- The probe's group prepared. -/
def grp (f : Group → Group) (s : State) : State := s.onGroup 0 0 f
/-- The probe's unit with other words of its launch record, and a group of G lanes. -/
def unit (ws : List (Nat × DWord)) (G : Nat) (s : State) : State :=
  s.onUnit 0 (fun u => { u with record := ws.foldl (fun r p => r.set p.1 p.2) u.record, groups := [Group.start G G 0] })

/-- Some state issues the words as a lane word and `ok` holds. -/
def laneMet (w0 w1 : Nat) (ok : Env → LW → Bool) (p : State → State := id) : Bool :=
  (issued w0 w1 p).any (fun e => decide (e.ofLanes e.s) && (decodeWords w0 w1).any wellFormed && ok e (lwOf w0 w1))
/-- The same for a group word. -/
def groupMet (w0 w1 : Nat) (ok : Env → GW → Bool) (p : State → State := id) : Bool :=
  (issued w0 w1 p).any (fun e => decide (e.ofGroup e.s) && (decodeWords w0 w1).any wellFormed && ok e (gwOf w0 w1))

/-- Where the registers of a group are all full and bound to nothing, and nothing is held, its words meet nothing at their registers. -/
theorem calm_of {e : Env} (h : (e.c.held.isEmpty && e.g.binds.isEmpty && e.g.holes.isEmpty && e.g.ve.isEmpty && e.g.se.isEmpty) = true) : e.calm := by
  simp only [Bool.and_eq_true, List.isEmpty_iff] at h
  obtain ⟨⟨⟨⟨h1, h2⟩, h3⟩, h4⟩, h5⟩ := h
  exact ⟨h1, h2, h3, fun l n => by unfold Group.emptyV; rw [h4]; rfl, fun n => by unfold Group.emptyS; rw [h5]; rfl⟩
def calm (e : Env) : Bool := e.c.held.isEmpty && e.g.binds.isEmpty && e.g.holes.isEmpty && e.g.ve.isEmpty && e.g.se.isEmpty

/-- How a word taken lane by lane, at its turn, stands in a state: whether it waits, and whether every lane passes its checks and is fine. -/
def eachSees {α : Type} (w0 w1 : Nat) (pre : Env → Bool) (enter : Env → LW → Turn) (ok : Env → LW → Bool) (ss : Bool) (xs : Env → LW → Nat → List Src) (chk : Env → LW → View → Nat → Except LFault α)
    (waits : Env → LW → View → List (Nat × α) → Bool) (fine : Env → LW → View → Nat → α → Bool) (p : State → State) : Option (Bool × Bool) :=
  (issued w0 w1 p).bind (fun e0 =>
    let f := lwOf w0 w1
    if !(decide (e0.ofLanes e0.s) && (decodeWords w0 w1).any wellFormed && ok e0 f && pre e0) then none else
    match enter e0 f with
    | .go e _ =>
      let act := e.guarded f.g
      let w := e.view act (act.flatMap (xs e f))
      let rs := act.map (fun l => (l, w.tries ss (xs e f) (chk e f) l))
      some (waits e f w (passes rs), !act.isEmpty && rs.all (fun r => match r.2 with | .ok a => fine e f w r.1 a | .error _ => false))
    | _ => none)
/-- The same for a word of one access. -/
def onceSees {α : Type} (w0 w1 : Nat) (pre : Env → LW → Bool) (enter : Env → LW → Turn) (ok : LW → Bool) (ss : Bool) (xs : LW → List Src) (chk : Env → LW → View → Nat → Except LFault α)
    (waits : Env → LW → List Nat → Nat → α → Bool) (fine : Env → LW → View → Nat → α → Bool) (p : State → State) : Option (Bool × Bool) :=
  (issued w0 w1 p).bind (fun e0 =>
    let f := lwOf w0 w1
    if !(decide (e0.ofLanes e0.s) && (decodeWords w0 w1).any wellFormed && ok f && pre e0 f) then none else
    match enter e0 f with
    | .go e _ =>
      let w := e.view (e.guarded f.g) []
      (e.guarded f.g).head?.bind (fun low => match w.tries ss (fun _ => xs f) (chk e f) low with
        | .ok a => some (waits e f (e.guarded f.g) low a, fine e f w low a)
        | .error _ => none)
    | _ => none)
def atOnce (e : Env) (_ : LW) : Turn := .go e 0
def ever {α : Type} (_ : Env) (_ : LW) (_ : View) (_ : Nat) (_ : α) : Bool := true
def never {α : Type} (_ : Env) (_ : LW) (_ : View) (_ : List (Nat × α)) : Bool := false
def notCells (_ : Env) (_ : LW) (_ : View) (_ : Nat) (acc : Acc) : Bool := acc.g.kind != .lattice

theorem test_met_integerResults :
    (∀ op ∈ [1, 2, 3, 4, 6, 7, 8, 9, 0xA, 0xB, 0xC, 0xD, 0xE, 0xF, 0x10],
      laneMet (op * 2 ^ 24 + 0x0420C0) 0 (fun e f => intLegal f (LW.ty f).wide false && (e.view? f.g (intSrcs f false)).isSome) = true) ∧
    (∀ op ∈ [5, 0x15], laneMet (op * 2 ^ 24 + 0x105181) 0x00700000 (fun e f => intLegal f (LW.ty f).wide true && (e.view? f.g (intSrcs f true)).isSome) = true) ∧
    laneMet 0x010420C1 0x40000000 (fun _ f => !(intLegal f (LW.ty f).wide false)) = true := by decide +kernel
theorem test_met_integerUnary :
    (∀ b ∈ [0, 2, 6], laneMet (0x19042000 + b * 64) 0 (fun e f => unaryLegal f false false && (e.view? f.g (unarySrcs f false)).isSome) = true) ∧
    (∀ b ∈ [3, 4, 5], laneMet (0x19042000 + b * 64) 0 (fun e f => unaryLegal f false true && (e.view? f.g (unarySrcs f true)).isSome) = true) ∧
    laneMet 0x19042040 0 (fun e f => unaryLegal f true false && (e.view? f.g (unarySrcs f false)).isSome) = true ∧
    laneMet 0x19042041 0x04000000 (fun _ f => !(unaryLegal f true false)) = true := by decide +kernel
theorem test_met_bitFields :
    laneMet 0x110420C0 0 (fun e f => descLegal f false && (e.view? f.g (descSrcs f false)).isSome) = true ∧
    laneMet 0x12105181 0x00700000 (fun e f => descLegal f true && (e.view? f.g (descSrcs f true)).isSome) = true ∧
    laneMet 0x11042001 0x20000040 (fun _ f => !(descLegal f false)) = true := by decide +kernel
theorem test_met_integerMoves :
    laneMet 0x14042101 0x08020000 (fun e f => icmpLegal f && (e.view? f.g (srcV (LW.ty f).wide f.a f.ea ++ srcB f (LW.ty f).wide)).isSome) = true ∧
    laneMet 0x130420C1 0x00100000 (fun e f => selLegal f && (e.view? f.g (intSrcs f false)).isSome) = true ∧
    laneMet 0x16042000 0 (fun e f => movLegal f && (e.view? f.g (movSrcs f)).isSome) = true ∧
    laneMet 0x17040001 0x20000005 (fun e f => moviLegal f && f.e.subop == 0 && evenIf (LW.ty f).wide f.d && (e.view? f.g (dstV (LW.ty f).wide f.d)).isSome) = true ∧
    laneMet 0x17040001 0x20013F80 (fun e f => moviLegal f && f.e.subop == 1 && decide (f.e.fs < 2) && (e.view? f.g [.v f.d false]).isSome) = true ∧
    laneMet 0x18000000 0 (fun e f => movsLegal f && !f.e.bs && (e.view? f.g (dstV false f.d)).isSome) = true ∧
    laneMet 0x18040081 0x00080000 (fun e f => movsLegal f && f.e.bs && (e.viewX? f.g [] (dstS f.d) (fun _ _ => []) none).isSome) = true ∧
    laneMet 0x18000180 0 (fun _ f => !(movsLegal f)) = true ∧ laneMet 0x14002000 0 (fun _ f => !(icmpLegal f)) = true := by decide +kernel
theorem test_met_floatResults :
    (∀ op ∈ [0x20, 0x21, 0x22], laneMet (op * 2 ^ 24 + 0x0420C0) 0 (fun e f => fpLegal f [0, 1, 2, 3] true true false && (e.view? f.g (fpSrcs f false)).isSome) = true) ∧
    (∀ op ∈ [0x24, 0x25], laneMet (op * 2 ^ 24 + 0x0420C0) 0 (fun e f => fpLegal f [0, 1, 2, 3] false true false && (e.view? f.g (fpSrcs f false)).isSome) = true) ∧
    laneMet 0x23105181 0x00700000 (fun e f => fpLegal f [0, 1, 2, 3] true true true && (e.view? f.g (fpSrcs f true)).isSome) = true ∧
    laneMet 0x270420C0 0 (fun e f => fpLegal f [0, 1] true true false && (e.view? f.g (fpSrcs f false)).isSome) = true ∧
    laneMet 0x280420C0 0 (fun e f => fsclLegal f && (e.view? f.g (srcV (f.e.fs == 1) f.a f.ea ++ srcB f false ++ dstV (f.e.fs == 1) f.d)).isSome) = true ∧
    laneMet 0x260420C0 0 (fun e f => fcmpLegal f && (e.view? f.g (srcV (f.e.fs == 1) f.a f.ea ++ srcB f (f.e.fs == 1))).isSome) = true ∧
    laneMet 0x270420C1 0x08000000 (fun _ f => !(fpLegal f [0, 1] true true false)) = true := by decide +kernel
theorem test_met_floatUnary :
    (∀ p ∈ [(0, [0, 1, 2, 3], false, false), (1, [0, 1, 2, 3], false, false), (2, [0, 1], true, false), (3, [0, 1], true, false), (4, [0, 1], true, false), (5, [0, 1], true, false),
        (6, [0, 1], true, false), (7, [0, 1, 2, 3], false, true), (8, [0, 1, 2, 3], true, false), (9, [0, 1, 2, 3], false, true), (10, [0], false, false), (11, [0], false, false), (13, [0], false, false)],
      laneMet (0x29082000 + p.1 * 64) 0 (fun e f => fpUnaryLegal f p.2.1 p.2.2.1 p.2.2.2 && (e.view? f.g (fpUnarySrcs f p.2.2.2)).isSome) = true) ∧
    laneMet 0x29082300 0 (fun e f => sincosLegal f && (e.view? f.g (srcV false f.a f.ea ++ dstV true f.d)).isSome) = true ∧
    laneMet 0x29042300 0 (fun _ f => !(sincosLegal f)) = true := by decide +kernel
theorem test_met_conversions :
    laneMet 0x2A042000 0 (fun e f => (e.slot f.e.fs).any (cvtLegal f false) && (e.view? f.g (cvtSrcs f false (e.slotD f.e.fs))).isSome) = true ∧
    laneMet 0x2B042000 0 (fun e f => (e.slot f.e.fs).any (cvtLegal f true) && (e.view? f.g (cvtSrcs f true (e.slotD f.e.fs))).isSome) = true ∧
    laneMet 0x2A042001 0x00050000 (fun e f => !((e.slot f.e.fs).any (cvtLegal f false))) = true := by decide +kernel
/-- Slot 0 is a quantised format of two planes over blocks of 16, with and without the transform (R138). -/
theorem test_met_blockFormats :
    laneMet 0x2C042000 0 (fun e f => (e.slot f.e.fs).any (qpackLegal e f) && calm e && (e.viewX? f.g [.v f.a f.ea] (blockXs f false) (fun w l => w.blockReads (e.slotD f.e.fs).block l f.a f.ea) none).isSome) (unit [(6, 0x52C)] 16) = true ∧
    laneMet 0x2D042000 0 (fun e f => (e.slot f.e.fs).any (qunpkLegal e f) && !(e.slotD f.e.fs).had && calm e && (e.view? f.g (blockXs f true)).isSome) (unit [(6, 0x52C)] 16) = true ∧
    laneMet 0x2D042000 0 (fun e f => (e.slot f.e.fs).any (qunpkLegal e f) && (e.slotD f.e.fs).had && calm e && (e.viewX? f.g [.v f.a f.ea] (blockXs f false) (fun w l => w.blockReads (e.slotD f.e.fs).block l f.a f.ea) none).isSome) (unit [(6, 0x252C)] 16) = true ∧
    laneMet 0x2E042000 0 (fun e f => (e.slot f.e.fs).any (hadLegal e f) && calm e && (e.viewX? f.g [.v f.a f.ea] (blockXs f false) (fun w l => w.blockReads (hadBlock f) l f.a f.ea) none).isSome) (unit [] 16) = true ∧
    laneMet 0x2C042000 0 (fun e f => !((e.slot f.e.fs).any (qpackLegal e f))) (unit [(6, 0x52C)] 8) = true := by decide +kernel
/-- A source lane inside the group and one outside it (R198). -/
theorem test_met_shuffles :
    (∀ op ∈ [0x30, 0x31, 0x32, 0x33], laneMet (op * 2 ^ 24 + 0x0420C0) 0
      (fun e f => shflB f && shuffleLegal f && (e.viewX? f.g (srcV (wideCode f.e.fs) f.a f.ea ++ srcB f false ++ srcFill f) (srcB f false ++ srcFill f ++ dstV (wideCode f.e.fs) f.d) (fun w l => w.reads f l (w.bCount f l : Int)) none).isSome) = true) ∧
    laneMet 0x35042001 0x2000001B (fun e f => permLegal f && shuffleLegal f && (e.viewX? f.g (srcV (wideCode f.e.fs) f.a f.ea ++ srcFill f) (srcFill f ++ dstV (wideCode f.e.fs) f.d)
      (fun w l => w.reads f l ((l - l % 4 + f.e.imm / 4 ^ (l % 4) % 4 : Nat) : Int)) none).isSome) = true ∧
    (∀ w1 ∈ [0x20000007, 0x20000008], laneMet 0x36042001 w1
      (fun e f => shflB f && (f.e.form == 1 || f.e.bs) && shuffleLegal f && (e.viewX? f.g (srcV (wideCode f.e.fs) f.a f.ea ++ srcFill f) (srcFill f ++ dstV (wideCode f.e.fs) f.d) (fun w l => w.reads f l (w.bCount f l : Int)) none).isSome) = true) ∧
    laneMet 0x34042000 0 (fun e f => swpLegal f && (e.viewX? f.g (srcV false f.a f.ea ++ srcFill f) (srcFill f ++ dstV false f.d) (fun w l => w.reads f l ((l ^^^ 1 : Nat) : Int)) none).isSome) = true ∧
    laneMet 0x360420C0 0 (fun _ f => !(shflB f && (f.e.form == 1 || f.e.bs) && shuffleLegal f)) = true := by decide +kernel
theorem test_met_reductions :
    laneMet 0x37042000 0 (fun e f => reduLegal f && evenIf (reduWide f) f.a && evenIf (reduWide f) f.d && !f.e.bs && (e.viewX? f.g (srcV (reduWide f) f.a f.ea) (dstV (reduWide f) f.d) (ownReads (reduWide f) f) none).isSome) = true ∧
    laneMet 0x37042001 0x00080000 (fun e f => reduLegal f && evenIf (reduWide f) f.a && f.e.bs && (e.viewX? f.g (srcV (reduWide f) f.a f.ea) (dstS f.d) (ownReads (reduWide f) f) (some f.d)).isSome) = true ∧
    laneMet 0x38042000 0 (fun e f => reduLegal f && !f.e.bs && evenIf (reduWide f) f.a && evenIf (reduWide f) f.d && (e.viewX? f.g (srcV (reduWide f) f.a f.ea) (dstV (reduWide f) f.d) (ownReads (reduWide f) f) none).isSome) = true ∧
    laneMet 0x38042001 0x00080000 (fun _ f => !(reduLegal f && !f.e.bs)) = true := by decide +kernel
theorem test_met_votes :
    (∀ k ∈ [0, 1, 2, 3], laneMet 0x39042001 (k * 2 ^ 16) (fun e f => voteLegal e f k && (e.viewX? f.g (srcV (wideCode f.e.fs) f.a f.ea) (dstV (ballotPair e k) f.d) (ownReads (wideCode f.e.fs) f) none).isSome) = true) ∧
    (∀ k ∈ [0, 1], laneMet 0x3A041001 (k * 2 ^ 16) (fun e f => mcountLegal f (k == 1) && (e.viewX? f.g [] (dstV false f.d) (fun _ _ => []) none).isSome) = true) ∧
    laneMet 0x39042001 0x00080000 (fun e f => voteLegal e f 0 && f.e.bs && (e.viewX? f.g (srcV (wideCode f.e.fs) f.a f.ea) (dstS f.d) (ownReads (wideCode f.e.fs) f) (some f.d)).isSome) = true ∧
    laneMet 0x3B042000 0 (fun e f => matchLegal e f && (e.viewX? f.g (srcV (wideCode f.e.fs) f.a f.ea) (dstV (e.G == 64) f.d) (ownReads (wideCode f.e.fs) f) none).isSome) = true ∧
    laneMet 0x3A048000 0 (fun _ f => !(mcountLegal f false)) = true := by decide +kernel
theorem test_met_addresses :
    laneMet 0x4A0810C1 0x40000000 (fun e f => mkaLegal f && ((e.view? f.g (memSrcs f ++ dstV true f.d)).filter (fun w => w.act.all (fun l => decide (0 ≤ (w.addr f l).off ∧ (w.addr f l).off < 2 ^ 40)))).isSome) = true ∧
    laneMet 0x4B042000 0 (fun e f => segForm f && (e.view? f.g (srcV true f.a false ++ dstV false f.d)).isSome) = true ∧
    laneMet 0x4C082000 0 (fun e f => segForm f && f.d % 2 == 0 && (e.view? f.g (srcV true f.a false ++ dstV true f.d)).isSome) = true ∧
    laneMet 0x490010C1 0x40000000 (fun e f => prefLegal f && (e.view? f.g (memSrcs f)).isSome) = true ∧
    laneMet 0x4D0410C1 0x40010000 (fun e f => chkaLegal f && (e.view? f.g (memSrcs f ++ dstV false f.d)).isSome) = true ∧
    laneMet 0x4C042000 0 (fun _ f => !(segForm f && f.d % 2 == 0)) = true := by decide +kernel
/-- s1 points to the unit's scratch segment (R55). -/
def scratch (s : State) : State := grp (fun g => g.putS 1 0x10000000000) (unit [(3, 0x12040)] 8 s)
/-- Segment 0x101 of context 0 is a lattice segment of max-of-unsigned cells, and s1 points to its cells (R56, R90). -/
def cells (s : State) : State :=
  grp (fun g => g.putS 1 0x1010000000000) (((({ s with segbase := SMap.put 0 s.segbase 0 0x1010000000001 }).wr8 0x3020 0x545C000000000FFF).wr8 0x3028 0x4000).wr8 0x3030 0x18400)
/-- The unit's linkage segment is segment 0x100, whose entry 4 is bound (R65, R66). -/
def linked (s : State) : State := (unit [(1, 0x1000000000000)] 8 s).wr8 0x4000040 0x8000000000000000
theorem test_met_loads :
    eachSees 0x400410C1 0x40000000 (fun _ => true) atOnce (fun _ f => ldLegal f) false (fun _ f _ => loadSrcs f (ldDests f)) (fun e f => e.loadCheck f (sizeBytes f.e.fs) (sizeBytes f.e.fs)) (fun e _ w ps => e.loadWaits w.act (keysOf ps)) ever scratch = some (false, true) ∧
    eachSees 0x440810C1 0x40000000 (fun _ => true) atOnce (fun _ f => ldvLegal f) false (fun _ f _ => loadSrcs f (upFrom f.d (blockCount f))) (fun e f => e.loadCheck f (4 * blockCount f) (min (4 * blockCount f) 16))
      (fun e _ w ps => e.loadWaits w.act (keysOf ps)) ever scratch = some (false, true) ∧
    onceSees 0x42041001 0x60000000 (fun _ _ => true) atOnce ldsLegal false (fun f => memSrcs f ++ dstS f.d) (fun e f => e.loadCheck f (sizeBytes f.e.fs) (sizeBytes f.e.fs)) (fun e _ act _ acc => e.loadWaits act acc.keys) ever scratch = some (false, true) ∧
    onceSees 0x4E040001 0xA0000004 (fun _ _ => true) atOnce ldlLegal false (fun f => dstS f.d) (fun e f _ l => e.check l (ldlReq f) 5) (fun e _ act _ acc => e.ldlWaits act acc.keys)
      (fun e _ _ _ acc => e.s.rd8 (acc.keys.headD 0) / 2 ^ 48 == 2 ^ 15) linked = some (false, true) ∧
    laneMet 0x42041009 0x60000000 (fun e f => ldsLegal f && (e.guarded f.g).isEmpty) = true ∧ laneMet 0x40041000 0 (fun _ f => !(ldLegal f)) = true := by decide +kernel
/-- LDL's entry, found by its checks, is in a state, in a segment that is not replicated (R66). -/
def ldlFinds (st : Nat) (e : Env) (f : LW) : Bool :=
  match e.check 0 (ldlReq f) 5 with
  | .ok acc => ldlLegal f && e.s.rd8 (acc.keys.headD 0) / 2 ^ 48 == st && acc.g.kind != .repl
  | .error _ => false
theorem test_met_ldlEntries :
    laneMet 0x4E040001 0xA0000004 (ldlFinds (2 ^ 15)) linked = true ∧ laneMet 0x4E040001 0xA0000004 (ldlFinds (2 ^ 14)) (fun s => (linked s).wr8 0x4000040 0x4000000000000000) = true ∧
    laneMet 0x4E040001 0xA0000004 (ldlFinds 0) (fun s => (linked s).wr8 0x4000040 0) = true := by decide +kernel
theorem test_met_stores :
    eachSees 0x410410C1 0x40000000 (fun _ => true) atOnce (fun _ f => stLegal f) true (fun _ f _ => memSrcs f ++ srcV (LW.ty f).wide f.d false) (fun e f => e.storeCheck f (sizeBytes f.e.fs) (sizeBytes f.e.fs) f.e.subop (fun _ _ => .ok ()))
      (fun e f _ ps => e.storeWaits f.e.subop ps.length ps) notCells scratch = some (false, true) ∧
    eachSees 0x450810C1 0x40000000 (fun _ => true) atOnce (fun _ f => stvLegal f) true (fun _ f _ => memSrcs f ++ (upFrom f.d (blockCount f)).map (fun r => Src.v r false))
      (fun e f => e.storeCheck f (4 * blockCount f) (min (4 * blockCount f) 16) f.e.subop (fun _ _ => .ok ())) (fun e f _ ps => e.storeWaits f.e.subop ps.length ps) notCells scratch = some (false, true) ∧
    onceSees 0x43041001 0x60000000 (fun _ _ => true) atOnce stsLegal true (fun f => memSrcs f ++ [.s f.d false]) (fun e f => e.storeCheck f (sizeBytes f.e.fs) (sizeBytes f.e.fs) f.e.subop (fun _ _ => .ok ()))
      (fun e f act _ acc => e.storeWaits f.e.subop 1 (act.map (fun l => (l, acc)))) notCells scratch = some (false, true) ∧
    laneMet 0x41041000 0 (fun _ f => !(stLegal f)) = true := by decide +kernel
theorem test_met_latticeWords :
    eachSees 0x480410C1 0x40000000 (fun _ => true) atOnce (fun _ f => stjLegal f) true (fun e f => e.cellSrcs f f.g [f.d] []) (fun e f => e.cellCheck f false true [f.d]) (fun e _ w ps => e.joinWaits w.act ps) ever cells = some (false, true) ∧
    eachSees 0x460410C1 0x40400000 (fun _ => true) atOnce (fun _ f => ldjLegal f false) false (fun e f => e.cellSrcs f f.g [f.e.c] [f.d]) (fun e f => e.cellCheck f true false [f.d, f.e.c]) (fun e _ => e.ldjWaits)
      (fun e f w l acc => latLe acc.g.ltype (w.reg (cellBytes acc.g.ltype == 8) l f.e.c) (e.cellNow acc)) cells = some (false, true) ∧
    eachSees 0x470410C1 0x40410000 (fun _ => true) atOnce (fun _ f => ldjLegal f true) false (fun e f => e.cellSrcs f f.g [f.e.c] [f.d]) (fun e f => e.cellCheck f true false [f.d, f.e.c]) (fun e _ => e.ldjWaits) ever cells = some (false, true) ∧
    laneMet 0x470410C1 0x40400000 (fun _ f => !(ldjLegal f true)) = true := by decide +kernel
/-- An atomic of a state: its operand registers, its check, its wait. -/
def atomSees (w0 w1 : Nat) (ok : LW → Bool) (wide exp : Bool) (use : LatUse) (p : State → State) : Option (Bool × Bool) :=
  eachSees w0 w1 (fun _ => true) atOnce (fun _ f => ok f) true (fun _ f _ => atomSrcs f wide exp) (fun e f => e.atomCheck f (sizeBytes f.e.fs) use) (fun e f _ ps => e.atomWaits f ps) ever p
theorem test_met_atomics :
    (∀ op ∈ [0x50, 0x51, 0x52, 0x53, 0x54, 0x55, 0x56], atomSees (op * 2 ^ 24 + 0x0410C1) 0x40400000 amoLegal false false .never scratch = some (false, true)) ∧
    atomSees 0x570410C1 0x40400000 amoLegal false false .join cells = some (false, true) ∧ atomSees 0x580410C1 0x40400000 amoLegal false true .never scratch = some (false, true) ∧
    atomSees 0x590410C1 0x44400000 amofLegal false false .never scratch = some (false, true) ∧
    laneMet 0x590410C1 0x40400000 (fun _ f => !(amofLegal f)) = true := by decide +kernel
/-- An incomplete fence of every lane that has read 64 lines past it (R113, R115). -/
def fencedGroup : State → State := grp (fun g => { g with fences := [⟨List.range 8, 4, 0, 8, [], (List.range 64).map (fun n => (0, n)), 0, [], 0⟩] })
/-- A store of lane 0 of one byte. -/
def oneStore (keys : List Nat) : BufStore := { lane := 0, keys := keys, bytes := keys.map (fun _ => 7), held := none, rel := 0, repl := false, code := false }
/-- The accumulators of the unit initialised with n rows and columns (R260). -/
def withFa (n : Nat) (s : State) : State := s.onUnit 0 (fun u => { u with fas := List.replicate 4 ⟨n, false, []⟩ })
/-- The unit's record without the matrix set (R242). -/
def noMx : State → State := unit [(3, 0)] 8

theorem test_met_waits :
    eachSees 0x400410C1 0x40000000 (fun _ => true) atOnce (fun _ f => ldLegal f) false (fun _ f _ => loadSrcs f (ldDests f)) (fun e f => e.loadCheck f (sizeBytes f.e.fs) (sizeBytes f.e.fs)) (fun e _ w ps => e.loadWaits w.act (keysOf ps)) ever
      (fun s => fencedGroup (scratch s)) = some (true, true) ∧
    eachSees 0x480410C1 0x40000000 (fun _ => true) atOnce (fun _ f => stjLegal f) true (fun e f => e.cellSrcs f f.g [f.d] []) (fun e f => e.cellCheck f false true [f.d]) (fun e _ w ps => e.joinWaits w.act ps) ever (fun s => fencedGroup (cells s)) = some (true, true) ∧
    atomSees 0x500410C1 0x40400000 amoLegal false false .never (fun s => fencedGroup (scratch s)) = some (true, true) ∧
    eachSees 0x410410C1 0x40000000 (fun _ => true) atOnce (fun _ f => stLegal f) true (fun _ f _ => memSrcs f ++ srcV (LW.ty f).wide f.d false) (fun e f => e.storeCheck f (sizeBytes f.e.fs) (sizeBytes f.e.fs) f.e.subop (fun _ _ => .ok ()))
      (fun e f _ ps => e.storeWaits f.e.subop ps.length ps) notCells (fun s => grp (fun g => { g with sbuf := List.replicate 57 (oneStore []) }) (scratch s)) = some (true, true) ∧
    laneMet 0x5A000001 0x00010000 (fun e f => fenceLegal f && e.fenceHeld f) fencedGroup = true ∧
    laneMet 0x00000080 0 (fun e f => controlOk f && e.exitWaits f) fencedGroup = true ∧ laneMet 0x5B000000 0 (fun e f => barOk f && e.releaseWaits (e.guarded f.g)) fencedGroup = true := by decide +kernel
/-- The header of a circular buffer of four slots of 64 bytes at 0x40 of the unit's scratch segment, with so many slots that a producer holds (R81, R82). -/
def buffer (held : Nat) (s : State) : State :=
  (((grp (fun g => g.putS 1 0x10000000000) (unit [(3, 0x12040)] 8 s)).wr8 (scratchKey 0 0) 0x406000004).wr8 (scratchKey 0 8) (held * 2 ^ 18))
theorem test_met_synchronisation :
    laneMet 0x5A000001 0x00010000 (fun e f => fenceLegal f && !(e.fenceHeld f)) = true ∧
    (∀ w ∈ [0x5B000000, 0x5B000040], laneMet w 0 (fun e f => barOk f && !(e.releaseWaits (e.guarded f.g))) = true) ∧ laneMet 0x5B000080 0 (fun _ f => barOk f) = true ∧
    onceSees 0x5C041001 0x60000000 (fun _ _ => true) atOnce cbOk false memSrcs (fun e f => e.cbKey f false) (fun e f => e.cbacqWaits f) ever (buffer 0) = some (false, true) ∧
    onceSees 0x5D001001 0x60000000 (fun e f => !(e.releaseWaits (e.guarded f.g))) atOnce (fun f => cbOk f && f.d == 0) true memSrcs (fun e f => e.cbKey f true) (fun _ _ _ _ _ => false)
      (fun e f _ _ key => (cbGive (f.e.subop == 1) (e.s.rd8 key) (e.s.rd8 (key + 8))).isSome) (buffer 1) = some (false, true) ∧
    laneMet 0x5D001001 0x60000000 (fun e f => cbOk f && f.d == 0 && e.releaseWaits (e.guarded f.g)) fencedGroup = true ∧
    laneMet 0x5E001001 0x20000000 (fun e f => waittlLegal f && decide (ctxOf e.u f.a = none)) = true ∧
    laneMet 0x5E001001 0x20000000 (fun e f => waittlLegal f && (ctxOf e.u f.a).isSome && (e.view? f.g (srcB f false)).isSome) (unit [(4, 0x4000)] 8) = true ∧
    laneMet 0x5E041001 0x20000000 (fun _ f => !(waittlLegal f)) = true := by decide +kernel
theorem test_met_laneControl :
    (∀ w ∈ [0, 0xC0], laneMet w 0 (fun _ f => controlOk f) = true) ∧ laneMet 0x60000048 0 (fun _ f => brLegal f) = true ∧ laneMet 0x61000040 0 (fun _ f => jmpLegal f) = true ∧
    laneMet 0x63000040 0 (fun e f => callLegal f && (e.guarded f.g).all (fun l => (e.g.lane l).dep < 1024)) = true ∧
    laneMet 0x63000040 0 (fun e f => callLegal f && (e.guarded f.g).all (fun l => (e.g.lane l).dep = 1024)) (grp (fun g => g.setLanes (List.range 8) (fun _ x => { x with dep := 1024 }))) = true ∧
    laneMet 0x40 0 (fun e f => controlOk f && (e.guarded f.g).all (fun l => (e.g.lane l).dep = 0)) = true ∧
    laneMet 0x40 0 (fun e f => controlOk f && (e.guarded f.g).all (fun l => (e.g.lane l).dep = 1)) (grp (fun g => g.setLanes (List.range 8) (fun _ x => { x with dep := 1 }))) = true ∧
    laneMet 0x62002000 0 (fun e f => brxLegal f false && (e.view? f.g (brxSrcs f)).isSome) = true ∧ laneMet 0x62002001 0x00010000 (fun e f => brxLegal f true && (e.view? f.g (brxSrcs f)).isSome && (e.guarded f.g).all (fun l => (e.pushFault l).isNone)) = true ∧
    laneMet 0x62000081 0x00080000 (fun e f => brxLegal f false && f.e.bs && (e.view? f.g (brxSrcs f)).isSome) = true ∧
    laneMet 0x80 0 (fun e f => controlOk f && !(e.exitWaits f)) = true ∧ laneMet 0x60000040 0 (fun _ f => !(brLegal f)) = true := by decide +kernel
/-- IFENCE without a late command that writes code, and with one (R227). -/
theorem test_met_ifence :
    laneMet 0x100 0 (fun e f => controlOk f && e.s.engines.isEmpty) = true ∧
    laneMet 0x100 0 (fun e f => controlOk f && e.s.engines.any (fun q => q.2.cmds.any (fun c => c.uid == e.c.uid && c.grp == e.c.grp && c.code && decide (q.2.tl < c.num)))) (fun s => s.setEngine ⟨1, 0, 0⟩ { s.engine ⟨1, 0, 0⟩ with
      cmds := [⟨1, .nop ⟨0, 0, 0, 0, false, false, none⟩, 0, 0, 0, 0, [], 0, 0, 0, 0, none, false, true, 0, false, 0, 0, 0, 0, none, []⟩] }) = true := by decide +kernel
theorem test_met_traps :
    laneMet 0x140 0 (fun _ f => controlOk f) = true ∧ laneMet 0x64000001 0x20000007 (fun _ f => trapuLegal f) = true ∧ laneMet 0x64000001 0x20010007 (fun _ f => !(trapuLegal f)) = true := by decide +kernel
/-- A pattern of one dimension of one element in sp2 (R238). -/
def onePattern : State → State := grp (fun g => g.setSp 2 [0, 0, 1, 0, 0, 0, 0, 0])
theorem test_met_streamWords :
    laneMet 0x65042000 0 (fun e f => spbindLegal f && !(e.guarded f.g).isEmpty && patOk (e.g.getSp f.a) && decide ((e.g.unbound f.d).length < 8) && decide (e.s.basins e.u.core < 64)) onePattern = true ∧
    laneMet 0x65042000 0 (fun e f => spbindLegal f && !(e.guarded f.g).isEmpty && !(patOk (e.g.getSp f.a))) = true ∧ laneMet 0x65042008 0 (fun e f => spbindLegal f && (e.guarded f.g).isEmpty) = true ∧
    laneMet 0x65042040 0 (fun _ f => !(spbindLegal f)) = true ∧ laneMet 0x66040000 0 (fun _ f => sprelLegal f) = true ∧
    groupMet 0xA5041000 0 (fun e f => decide (f.d < 8) && !(e.g.emptyS f.a)) = true ∧ groupMet 0xA5201000 0 (fun _ f => decide (8 ≤ f.d)) = true ∧
    groupMet 0xA4041080 0x0C300000 (fun e f => decide (f.d < 8) && f.f6 == 0 && f.tl == 0 && f.rz == 0 && f.gimm == 0 && !([f.a, f.b, f.f, f.e].any e.g.emptyS)) = true := by decide +kernel
/-- Slots 0 and 1 are BF16, FP64 and a quantised format (R138). -/
theorem test_met_matrixWords :
    laneMet 0x67041001 0 (fun e f => (e.slot f.e.fs).any (fun ka => (e.slot f.e.subop).any (fun kb => matrixLegal f true && mmaPair ka kb)) && !(e.g.fenced e.c.act)) (unit [(6, 2)] 8) = true ∧
    laneMet 0x68041001 0 (fun e f => (e.slot f.e.fs).any (fun ka => (e.slot f.e.subop).any (fun kb => matrixLegal f false && mmaDPair ka kb)) && !(e.g.fenced e.c.act)) (unit [(6, 1)] 8) = true ∧
    laneMet 0x69041001 0 (fun e f => (e.slot f.e.fs).any (fun ka => (e.slot f.e.subop).any (fun kb => matrixLegal f false && mmaiPair ka kb)) && !(e.g.fenced e.c.act)) (unit [(6, 0x52C)] 8) = true ∧
    laneMet 0x67041001 0 (fun e f => (e.slot f.e.fs).all (fun ka => (e.slot f.e.subop).all (fun kb => !(matrixLegal f true && mmaPair ka kb)))) = true := by decide +kernel
/-- An operation that stands in the queue of tile 1: begun by other lanes, or a word of the lanes at offset 0 behind it (R244). -/
def before : HeavyOp := { id := 0, instr := .mma ⟨1, 2, 3, 0, false, false, none⟩, pc := 0, row := 0, col := 0, k := 0, grp := 0, lanes := [], cv := 0, begun := true, perm := false, xs := [], ys := [] }
def behind : HeavyOp := { before with id := 1, instr := .tld ⟨1, 1, 3, 0, false, false, none⟩, lanes := (List.range 8).map (fun l => (0, l)), light := true }
def queue (os : List HeavyOp) (s : State) : State := s.onUnit 0 (fun u => { u with ops := os, nextOp := 2 })
theorem test_met_tileElements :
    eachSees 0x6A0410C1 0x40400000 Env.holdsMx (fun e f => e.turn (.tld f) false (e.guarded f.g)) (fun _ f => tldLegal f) false (fun _ f _ => memSrcs f ++ [.v f.e.c false]) Env.tldCheck (fun e _ w ps => e.loadWaits w.act (keysOf ps)) ever scratch = some (false, true) ∧
    eachSees 0x6B0410C1 0x40400000 Env.holdsMx (fun e f => e.turn (.tst f) false (e.guarded f.g)) (fun _ f => tldLegal f) true (fun _ f _ => memSrcs f ++ [.v f.e.c false]) (fun e f => e.storeCheck f (floatBytes f.e.fs) (floatBytes f.e.fs) 0 (tstPre f))
      (fun e _ _ ps => e.storeWaits 0 ps.length ps) notCells scratch = some (false, true) ∧
    eachSees 0x6C042001 0x00400000 Env.holdsMx (fun e f => e.turn (.tread f) false (e.guarded f.g)) (fun _ f => treadLegal f) false (fun _ f _ => [.v f.e.c false] ++ dstV (f.e.fs == 1) f.d) (fun _ => coordCheck) never ever id = some (false, true) ∧
    eachSees 0x6D042001 0x00400000 Env.holdsMx (fun e f => e.turn (.twrite f) false (e.guarded f.g)) (fun _ f => twriteLegal f) false (fun _ f _ => srcV (f.e.fs == 1) f.a f.ea ++ [.v f.e.c false]) (fun _ => coordCheck) never ever id = some (false, true) ∧
    laneMet 0x6A0410C1 0x40400000 (fun e f => e.holdsMx && tldLegal f && (match e.turn (.tld f) false (e.guarded f.g) with | .queue _ => true | _ => false)) (queue [before]) = true ∧
    laneMet 0x6A0410C1 0x40400000 (fun e f => e.holdsMx && tldLegal f && decide (e.turn (.tld f) false (e.guarded f.g) = .wait)) (queue [before, behind]) = true ∧
    laneMet 0x6C042001 0x08400000 (fun _ f => !(treadLegal f)) = true := by decide +kernel
theorem test_met_matrixSetNotHeld :
    (∀ w ∈ [0x6A0410C1, 0x6B0410C1], laneMet w 0x40400000 (fun e f => !e.holdsMx && tldLegal f) noMx = true) ∧ laneMet 0x6C042001 0x00400000 (fun e f => !e.holdsMx && treadLegal f) noMx = true ∧
    laneMet 0x6D042001 0x00400000 (fun e f => !e.holdsMx && twriteLegal f) noMx = true ∧ (∀ w ∈ [0x1A041001, 0x1B041001], laneMet w 0x60000000 (fun e f => !e.holdsMx && faMem f) noMx = true) := by decide +kernel
theorem test_met_tileWords :
    groupMet 0xA6040000 0 (fun _ f => decide (f.d < 8) && f.a == 0 && f.b == 0 && f.f6 == 0) = true ∧ (0 < 4096 ∧ 4095 < 4096) ∧
    groupMet 0xA7041000 0 (fun e f => decide (f.d < 8) && decide (f.a < 8) && f.b == 0 && decide (f.f6 < 8) && (e.slot f.f6).any (fun k => decide (k.code < 4))) = true ∧
    groupMet 0xA8041001 0 (fun _ f => decide (f.d < 8) && decide (f.a < 8) && f.b == 0 && decide (f.f6 < 2)) = true ∧
    (∀ w ∈ [0xAB042000, 0xAB042001, 0xAC042000, 0xAC042001], groupMet w 0 (fun e f => decide (f.d < 4) && f.b == 0 && e.holdsMx && !(e.g.emptyS f.a)) = true) ∧
    groupMet 0xAD042000 0 (fun e f => decide (f.d < 32) && f.b == 0 && decide (f.f6 < 32) && ((e.slot (f.f6 / 4)).bind (panelLen (f.f6 % 4))).isSome && decide (f.d < recPanels e.u.record) && !(e.g.emptyS f.a))
      (unit [(3, 0x2140), (6, 2)] 8) = true ∧
    groupMet 0xAE040000 0 (fun _ f => decide (f.d < 32) && f.a == 0 && f.b == 0 && f.f6 == 0) = true ∧ groupMet 0xA6200000 0 (fun _ f => !(decide (f.d < 8))) = true := by decide +kernel
/-- A heavy factor word at its turn on an accumulator of order 4 in FP32, with its vectors read and its destination full (R260, R261). -/
def heavyMet (w0 w1 : Nat) (i : LW → Instr) (ok : LW → Bool) (acc : LW → Nat) (dest : LW → Option Nat) (xs : LW → List (Nat × Bool)) : Bool :=
  laneMet w0 w1 (fun e0 f => ok f && heavyLegal f (acc f) && !(e0.guarded f.g).isEmpty && e0.holdsMx && (match e0.turn (i f) true (e0.guarded f.g) with
    | .go e _ => decide ((e.u.fa (acc f)).n = 4) && !(e.u.fa (acc f)).f64 && decide (4 ≤ e.G) && !(e.g.fenced (e.guarded f.g)) && (dest f).all (fun d => !(e.destEmpty (e.guarded f.g) false d)) &&
        decide (heavyDemand (i f) ≤ (e.s.die e.u.die).budget) && (match e.vectors (e.guarded f.g) 4 false (xs f) with | .ok _ _ => true | _ => false)
    | _ => false)) (withFa 4)
theorem test_met_factorWords :
    heavyMet 0x1C042000 0 .faupd faupdLegal (·.d) (fun _ => none) (fun f => [(f.a, f.ea)]) = true ∧ heavyMet 0x1D042000 0 .fadwd faupdLegal (·.d) (fun _ => none) (fun f => [(f.a, f.ea)]) = true ∧
    (∀ p ∈ [(0x1E0820C0, 0, Instr.fasolvF), (0x1E0820C1, 0x10000, .fasolvB), (0x1E0820C1, 0x20000, .fasolvG), (0x2F0820C0, 0, .famul), (0x2F0820C1, 0x10000, .famulT)],
      heavyMet p.1 p.2.1 p.2.2 fasolvLegal (·.a) (fun f => some f.d) (fun f => [(f.b, f.eb)]) = true) ∧
    heavyMet 0x1E0820C1 0x00430000 .fasolvLoo (fun f => !f.ea) (·.a) (fun f => some f.d) (fun f => [(f.b, f.eb), (f.e.c, false)]) = true ∧
    laneMet 0x1F082000 0 (fun e0 f => fadiagLegal f && !(e0.guarded f.g).isEmpty && e0.holdsMx && (match e0.turn (.fadiag f) false (e0.guarded f.g) with
      | .go e _ => decide ((e.u.fa f.a).n = 4) && !(e.u.fa f.a).f64 && !(e.destEmpty (e.guarded f.g) false f.d) | _ => false)) (withFa 4) = true ∧
    onceSees 0x1A041001 0x60000000 (fun e _ => e.holdsMx) (fun e f => e.turn (.fald f) false (e.guarded f.g)) faMem false memSrcs (fun e f w l => e.check l (faReq (w.addr f 0) 8 true) 0) (fun e _ act _ acc => e.loadWaits act acc.keys)
      (fun e f w l acc => match e.readNow (e.guarded f.g) acc (addrNat (w.addr f 0)) with
        | .got _ h => orderOk (leNat h % 128) ((leNat h).testBit 7) && decide (leNat h < 256) && (match e.check l (faReq (w.addr f 0) (faLen (leNat h % 128) ((leNat h).testBit 7)) true) 0 with
          | .ok all => (match e.readNow (e.guarded f.g) all (addrNat (w.addr f 0)) with | .got _ _ => true | _ => false) | .error _ => false)
        | _ => false) (fun s => (scratch s).wr8 (scratchKey 0 0) 4) = some (false, true) ∧
    onceSees 0x1B041001 0x60000000 (fun e f => e.holdsMx && (e.u.fa f.d).n != 0) (fun e f => e.turn (.fast f) false (e.guarded f.g)) faMem true memSrcs (fun e f w l => e.check l (faReq (w.addr f 0) (faLen (e.u.fa f.d).n (e.u.fa f.d).f64) false) 0)
      (fun e _ act _ acc => e.storeWaits 0 1 (act.map (fun l => (l, acc)))) notCells (fun s => withFa 4 (scratch s)) = some (false, true) ∧
    laneMet 0x1C102000 0 (fun _ f => !(heavyLegal f f.d)) = true := by decide +kernel
theorem test_met_factorGroupWords :
    (∀ w ∈ [0xA9041000, 0xAA041000], groupMet w 0 (fun e f => decide (f.d < 4) && f.b == 0 && f.f6 == 0 && e.holdsMx && !(e.g.emptyS f.a)) = true) ∧ groupMet 0xA9101000 0 (fun _ f => decide (4 ≤ f.d)) = true := by decide +kernel
theorem test_met_groupAlu :
    (∀ f6 ∈ List.range 14, groupMet (0x80042000 + f6 + (if f6 = 13 then 0 else 0xC0)) 0 (fun e f => !([f.a, f.d, f.b].any e.g.emptyS)) = true) ∧
    (∀ op ∈ List.range 15, groupMet (0x81000000 + op * 2 ^ 24 + 0x040FFF + (if op = 13 then 0 else 0x2000)) 0 (fun e f => !([f.a, f.d].any e.g.emptyS)) = true) ∧
    (∀ op ∈ List.range 15, groupMet (0xC1000000 + op * 2 ^ 24 + 0x040000) 0x80000000 (fun e f => f.b == 0 && f.f6 == 0 && !([f.a, f.d].any e.g.emptyS)) = true) ∧
    groupMet 0x80042000 0 (fun e f => [f.a, f.d, f.b].any e.g.emptyS) (grp (fun g => g.markS 2 true)) = true ∧ groupMet 0xC1042001 0 (fun _ f => !(f.b == 0 && f.f6 == 0)) = true := by decide +kernel
theorem test_met_groupConditions :
    groupMet 0x90042080 0 (fun e f => f.f6 == 0 && decide (f.d < 4) && !([f.a, f.b].any e.g.emptyS)) = true ∧ groupMet 0x91042087 0 (fun e f => decide (f.f6 < 8) && !([f.a, f.b, f.d].any e.g.emptyS)) = true ∧
    groupMet 0x91042088 0 (fun _ f => decide (8 ≤ f.f6)) = true := by decide +kernel
theorem test_met_groupControl :
    groupMet 0x94000004 0 (fun _ _ => true) = true ∧ groupMet 0x95000004 0 (fun _ f => f.d / 8 == 0) = true ∧ groupMet 0x96000004 0 (fun _ f => f.d / 8 == 0) = true ∧
    groupMet 0x97000000 0 (fun _ f => f.d == 0 && f.a == 0 && f.b == 0 && f.f6 == 0) = true ∧ groupMet 0x95200004 0 (fun _ f => f.d / 8 != 0) = true := by decide +kernel
theorem test_met_groupMemory :
    (∀ w ∈ [0x92042008, 0x93042008], groupMet w 0 (fun e f => !([f.a, f.d].any e.g.emptyS)) = true ∧ groupMet w 0 (fun e f => [f.a, f.d].any e.g.emptyS) (grp (fun g => g.markS 1 true)) = true) := by decide +kernel
theorem test_met_groupSets :
    groupMet 0x983C0001 0 (fun _ f => decide (f.d < 16) && f.a == 0 && decide (ofInt 64 f.imm < 2 ^ 16)) = true ∧ groupMet 0xC03C0000 1 (fun _ f => f.b == 0 && f.f6 == 0 && decide (f.d < 16) && decide (ofInt 64 (toInt 32 f.gx) < 2 ^ 16)) = true ∧
    groupMet 0x99002000 0 (fun e f => f.d == 0 && f.b == 0 && f.f6 == 0 && !(e.g.emptyS f.a)) = true ∧ (∀ f6 ∈ [0, 1], groupMet (0x9A040000 + f6) 0 (fun e f => f.a == 0 && f.b == 0 && !(e.g.emptyS f.d)) = true) ∧
    groupMet 0x98400001 0 (fun _ f => decide (16 ≤ f.d)) = true := by decide +kernel
/-- tl0, tl1 and tl2 stand for a copy, a chain and a collective context; s1 and s2 point into the unit's scratch segment, s3 and s5 are given (R291, R55). -/
def contexts (s3 s5 : DWord) (s : State) : State :=
  onePattern (grp (fun g => (((g.putS 1 0x10000000000).putS 2 0x10000000080).putS 3 s3).putS 5 s5) (unit [(3, 0x12040), (4, 0xC08040)] 8 s))
/-- A command word whose ranges and contexts are good, that does not wait and meets no deferred fault. -/
def commandMet (w0 w1 : Nat) (s3 s5 : DWord) (i : GW → Instr) (ok : GW → Bool) (kind : Nat → Bool) (regs : GW → List Nat) (ranges : Env → GW → List Range) (extra : Env → GW → EngId → Nat → Option LFault) : Bool :=
  groupMet w0 w1 (fun e f => ok f && !((f.d :: regs f).any e.g.emptyS) && (e.unfilled? (f.d :: regs f)).isNone && (e.commandBad f kind (ranges e f) (extra e f)).isNone && !(e.commandWaits (i f)) && (e.commandFails (i f)).isEmpty) (contexts s3 s5)
theorem test_met_commands :
    commandMet 0x9B101080 0x0C000000 64 0 .cpy (fun f => f.rz == 0 && f.f == 0 && decide (f.f6 < 4)) (· == 1) (fun f => [f.a, f.b, f.e]) Env.cpyRanges (fun e f _ _ => if 2 ^ 40 ≤ e.countOf f then some (lf 0x04 0 false) else none) = true ∧
    commandMet 0x9C101080 0x0C500000 0x200000010 0x2000000020 .cpy2d (fun f => f.rz == 0 && f.f6 == 0) (· == 1) (fun f => [f.a, f.b, f.e, f.f]) Env.cpy2dRanges (fun _ _ _ _ => none) = true ∧
    commandMet 0x9D101082 0x0C500000 4 0x10000000100 .cpyg (fun f => f.rz == 0 && decide (f.f6 < 16)) (· == 1) (fun f => [f.a, f.b, f.e, f.f]) (fun e f => [⟨ofBase (e.g.getS f.f).toNat 0, 4 * e.countOf f, 4, false⟩])
      (fun e f _ _ => if 2 ^ 24 ≤ e.countOf f then some (lf 0x04 0 false) else none) = true ∧
    commandMet 0x9E101082 0x0C020000 4 0 .chain (fun f => f.rz == 0 && decide (f.f6 < 8)) (· == 2) (fun f => [f.a, f.b, f.e]) Env.chainRanges (fun e f _ _ => e.chainShort f) = true ∧
    commandMet 0x9F101080 0x0C540000 64 0x2000000000000 .coll (fun f => f.rz == 0 && decide (f.f6 < 6)) (· == 3) (fun f => [f.a, f.b, f.e, f.f]) Env.collRanges (fun e f _ _ => e.collBad f) = true ∧
    commandMet 0xA0101080 0x0C000000 8 0 .post (fun f => f.rz == 0 && f.f == 0 && f.f6 == 0) (· == 1) (fun f => [f.a, f.b, f.e]) (fun e f => [⟨e.dstOf f, e.countOf f, 1, true⟩, ⟨e.srcOf f, e.countOf f, 1, false⟩])
      (fun e f _ _ => if e.countOf f < 8 ∨ 256 < e.countOf f ∨ e.countOf f % 8 ≠ 0 then some (lf 0x04 0 false) else none) = true ∧
    commandMet 0xA1100080 0x00020000 0 0 .stl (fun f => f.rz == 0 && f.e == 0 && f.f == 0 && f.f6 == 0 && f.gimm == 0 && decide (f.a < 8)) (fun _ => true) (fun f => [f.b]) (fun _ _ => []) Env.stlBad = true := by decide +kernel
/-- A command of another kind of context, one of a length that POST does not have, and one that waits for a store of its group. -/
theorem test_met_commandBounds :
    groupMet 0x9B101080 0x0C020000 (fun e f => (e.commandBad f (· == 1) (e.cpyRanges f) (fun _ _ => none)).isSome) (contexts 64 0) = true ∧
    groupMet 0xA0101080 0x0C000000 (fun e f => (e.commandBad f (· == 1) [] (fun _ _ => if e.countOf f < 8 then some (lf 0x04 0 false) else none)).isSome) (contexts 7 0) = true ∧
    groupMet 0x9B101080 0x0C000000 (fun e f => e.commandWaits (.cpy f)) (fun s => grp (fun g => { g with sbuf := [oneStore []] }) (contexts 64 0 s)) = true ∧
    groupMet 0x9B101080 0x0C001000 (fun _ f => !(f.rz == 0)) (contexts 64 0) = true := by decide +kernel
theorem test_met_permits :
    groupMet 0xA2041000 0 (fun e f => f.gx == 0 && f.b == 0 && decide (f.f6 < 4) && !(e.g.emptyS f.a) && !(e.g.emptyS f.d) && (e.g.getS f.a).toNat == 0) = true ∧
    groupMet 0xA2041000 0 (fun e f => decide (0 < (e.g.getS f.a).toNat) && decide ((e.g.getS f.a).toNat ≤ (e.permitBack.die e.u.die).budget)) (grp (fun g => g.putS 1 1)) = true ∧
    groupMet 0xA2041000 0 (fun e f => decide ((e.permitBack.die e.u.die).budget < (e.g.getS f.a).toNat)) (grp (fun g => g.putS 1 0xFFFFFFFF)) = true ∧
    groupMet 0xA3040002 0 (fun e f => f.gx == 0 && f.a == 0 && f.b == 0 && decide (f.f6 < 3) && !(e.g.emptyS f.d)) = true ∧ groupMet 0xA3040003 0 (fun _ f => decide (3 ≤ f.f6)) = true := by decide +kernel
/-- A system word of a supervisor unit with legal fields and full registers; and the same word outside one. -/
def sysMet (w : Nat) (ok : State → GW → Bool) (regs : GW → List Nat) (p : State → State := id) : Bool :=
  groupMet w 0 (fun e f => recSup e.u.record && ok e.s f && !((regs f).any e.g.emptyS)) p && groupMet w 0 (fun e _ => !(recSup e.u.record)) (fun s => noMx (p s))
theorem test_met_systemRegisters :
    (∀ n ∈ [0x00F, 0x010, 0x102, 0x110, 0x120, 0x121, 0x130, 0x142, 0x158, 0x167], sysMet (0xD0040000 + n) (fun s f => f.a == 0 && s.sysReg (GW.n12 f)) (fun f => [f.d]) = true) ∧
    (∀ n ∈ [0x00F, 0x102, 0x120, 0x121], sysMet (0xD1001000 + n) (fun s f => f.d == 0 && s.sysReg (GW.n12 f)) (fun f => [f.a]) = true) ∧
    groupMet 0xD0040FFF 0 (fun e f => recSup e.u.record && !(f.a == 0 && e.s.sysReg (GW.n12 f))) = true ∧ groupMet 0xD004000F 0 (fun e f => e.g.emptyS f.d) (grp (fun g => g.markS 1 true)) = true := by decide +kernel
theorem test_met_registerReadBack :
    [0x00F, 0x010, 0x100].all (fun n => match State.reset.sysWrite 0 n 0 with | .done s1 w => s1.sysRead 0 n == some 0 && w.isNone | _ => false) = true := by decide +kernel
theorem test_met_systemMaintenance :
    sysMet 0xD2041005 (fun _ _ => true) (fun f => [f.d, f.a]) = true ∧ (∀ f6 ∈ [0, 2], sysMet (0xD3001000 + f6) (fun _ f => f.d == 0 && f.b == 0 && decide (f.f6 < 3)) (fun f => [f.a]) = true) ∧
    sysMet 0xD4001000 (fun _ f => f.d == 0 && f.b == 0 && f.f6 == 0) (fun f => [f.a]) = true ∧ (∀ op ∈ [0xD5, 0xD6], sysMet (op * 2 ^ 24 + 0x1080) (fun _ f => f.d == 0 && f.f6 == 0) (fun f => [f.a, f.b]) = true) ∧
    sysMet 0xDC001006 (fun _ f => f.d == 0 && f.b == 0 && decide (f.f6 < 7)) (fun f => [f.a]) = true ∧ groupMet 0xDC001007 0 (fun _ f => !(decide (f.f6 < 7))) = true := by decide +kernel
theorem test_met_systemUnits :
    (∀ op ∈ [0xD7, 0xD8], sysMet (op * 2 ^ 24 + 0x1080) (fun _ f => f.d == 0 && f.f6 == 0) (fun f => [f.a, f.b]) = true) ∧ sysMet 0xD9041080 (fun _ f => f.f6 == 0) (fun f => [f.d, f.a, f.b]) = true ∧
    sysMet 0xDA001080 (fun _ f => f.d == 0 && decide (f.f6 < 5) && (f.f6 == 0 || f.b == 0)) (fun f => [f.a, f.b]) = true ∧ sysMet 0xDA001004 (fun _ f => f.d == 0 && decide (f.f6 < 5) && (f.f6 == 0 || f.b == 0)) (fun f => [f.a]) = true ∧
    (∀ f6 ∈ [4, 12], sysMet (0xDB041000 + f6) (fun _ f => decide (f.f6 % 8 < 5) && (f.f6 % 8 == 0 || f.b == 0)) (fun f => [f.d, f.a]) = true) ∧ groupMet 0xDB041005 0 (fun _ f => !(decide (f.f6 % 8 < 5))) = true := by decide +kernel
/-- Die 1 is present and stands at a step of its reset (R358); s1 names it. -/
def dieStep (n : Nat) (s : State) : State := grp (fun g => g.putS 1 1) (s.setDie 1 { s.die 0 with step := n })
/-- Die 1 as the words on dies find it. -/
def dieAt (n : Nat) (e : Env) (f : GW) : Bool := f.b == 0 && e.sA f == 1 && (e.s.die 1).present && (e.s.die 1).at_ == n
theorem test_met_dieWords :
    (∀ p ∈ [(0, 0), (1, 1), (2, 2), (3, 5), (4, 3), (5, 4)], groupMet (0xDD041000 + p.1) 0 (fun e f => recSup e.u.record && dieAt p.2 e f && f.f6 == p.1 && !([f.d, f.a].any e.g.emptyS)) (dieStep p.2) = true) ∧
    groupMet 0xDE001000 0 (fun e f => recSup e.u.record && dieAt 0 e f && f.d == 0 && f.f6 == 0) (dieStep 0) = true ∧ groupMet 0xDF041000 0 (fun e f => recSup e.u.record && dieAt 6 e f && f.f6 == 0 && !([f.d, f.a].any e.g.emptyS)) (dieStep 6) = true ∧
    groupMet 0xE0001080 0 (fun e f => recSup e.u.record && f.d == 0 && f.f6 == 0 && !([f.a, f.b].any e.g.emptyS)) = true ∧ groupMet 0xDE041000 0 (fun _ f => f.d != 0) = true := by decide +kernel
theorem test_met_mailboxBinding :
    sysMet 0xE1001080 (fun _ f => f.d == 0 && f.f6 == 0) (fun f => [f.a, f.b]) = true ∧ groupMet 0xE1041080 0 (fun _ f => f.d != 0) = true := by decide +kernel

/-! Events. -/

/-- The probe with nothing on its agenda: unit 0 of context 0 is resident on core 0 with one group of eight lanes. -/
def base : State := { State.reset.withFetchWord 64 0 with agenda := [] }
/-- The same as an event with these operands meets it. -/
def ev (a b c d : Nat) (p : State → State := id) (q : EvArg → EvArg := id) : State := { p base with arg := q { EvArg.none with a := a, b := b, c := c, d := d } }
def onArg (s : State) (q : EvArg → EvArg) : State := { s with arg := q s.arg }
/-- Granule 0 of die 0 is owned by partition 0 (R322). -/
theorem test_met_registerEvents :
    ([0x800, 0x801, 0x1401].all (fun v => field v 24 40 == 0 && field v 1 7 == 0 && decide (8 ≤ field v 8 8 ∧ field v 8 8 ≤ 20))) = true ∧
    (base.flipCheck 0 0x8000000004000000).isSome = true ∧ field 0x8000000004000000 63 1 = 1 ∧ (base.flipCheck 0 0x4000000).isSome = true ∧ base.inFlight 0x4000000 (2 ^ 16) = false ∧
    (∀ kind ∈ [0, 1, 2, 3, 4, 5], (partArray kind).isSome = true) ∧ bits (base.rd (base.parttab.toNat % 2 ^ 52) 1) 4 2 = 0 := by decide +kernel
/-- A load of a word at physical address 0x4000000, into v5 of lane 0. -/
def part (keys : List Nat) (peer : Option Nat) : Part := { lane := 0, dest := .v 0 5, keys := keys, fwd := [], x := 0, e := 0, addr := 0, peer := peer }
def load (n : Nat) (k : ProdKind) (s : State) : State := grp (fun g => { g with inflight := [{ kind := k, parts := [part (upFrom 0x4000000 n) none], pc := 4, commit := false }] }) s
/-- A store applied at its home and not committed. -/
def pending (keys : List Nat) (repl : Bool) (n : Option Nat) : PendStore := { uid := 0, grp := 0, die := 0, keys := keys, bytes := keys.map (fun _ => 7), rel := 0, lane := 0, repl := repl, seqd := n, port := none }
theorem test_met_memoryEvents :
    (let s := ev 0 0 0 0 (load 4 (.load 4 false 0)); s.target.any (fun p => (p.2.inflight[s.arg.c]?).any (fun pr => pr.parts.all (fun x => x.peer.isNone) && !(s.blocked p.2 s.arg.c pr)))) = true ∧
    (let s := ev 0 0 0 0 id (fun x => { x with reg := .s 3 }); s.target.any (fun p => p.1.res == .resident && !(SMap.get false p.2.spilled (regKey s.arg.reg)))) = true ∧
    (let s := ev 0 0 0 0 (grp (fun g => { g with spilled := [(regKey (.v 1 2), true)] })) (fun x => { x with reg := .v 1 2 }); s.target.any (fun p => p.1.res == .resident && SMap.get false p.2.spilled (regKey s.arg.reg))) = true ∧
    (let s := ev 0 0 0 0 (grp (fun g => { g with sbuf := [oneStore [0x4000000]] })); s.target.any (fun p => p.1.uid == s.arg.a && (p.2.sbuf[s.arg.c]?).any (fun b => b.held.isNone &&
      (p.2.together b.seq).all (fun x => x.rel == 0 && s.mayApply s.arg.a s.arg.b p.2 x)))) = true ∧
    (∀ q ∈ [(6, true), (7, false)], (let s := ev 0 0 0 0 (fun s => { grp (fun g => { g with sbuf := [{ oneStore [0x4000000] with rel := 6, recs := [(0x80000, 0)] }] }) s with dir := [(0x80000, ⟨0, [], [], some ⟨q.1, 99⟩⟩)] });
      s.target.any (fun p => p.1.uid == s.arg.a && (p.2.sbuf[s.arg.c]?).any (fun b => b.held.isNone && b.rel != 0 && p.2.together b.seq == [b] && s.mayApply s.arg.a s.arg.b p.2 b && (p.2.lane b.lane).st.live && (p.1.faulted s.arg.b).isEmpty &&
        b.recs.all (fun k => s.scopeOk p.1 s.arg.b b.lane b.rel k.1) == q.2))) = true) ∧
    (let s := ev 0 0 0 0 (fun s => { s with pend := [pending [0x4000000] false none] }); (s.pend[s.arg.a]?).any (fun p => p.seqd.isNone)) = true ∧
    (let s := ev 0 0 0 0 (fun s => { s with pend := [pending [0x4000000] true (some 3)] }); (s.pend[s.arg.a]?).any (fun p => p.seqd == some 3)) = true ∧
    (let s := ev 5 0 0 0 (fun s => { s with dir := [(5, ⟨0, [0], [], none⟩)] }); (AMap.get? s.dir s.arg.a).isSome) = true := by decide +kernel
/-- A fence of all lanes with a snapshot of each, whose lane 2 has read too early. -/
def fenced (hit : List Nat) : State → State := grp (fun g => { g with fences := [⟨List.range 8, 4, 0, 8, (List.range 8).map g.snap, [], 0, hit, 0⟩] })
theorem test_met_fenceEvents :
    (let s := ev 0 0 0 0 (fenced []); s.target.any (fun p => p.1.stop.isEmpty && (p.2.fences[s.arg.c]?).any (fun f => f.hit.isEmpty && !f.lanes.isEmpty && (p.2.fenceFaults f).isEmpty && !(s.fenceWaits s.arg.a s.arg.b p.2 f)))) = true ∧
    (let s := ev 0 0 0 2 (fenced [2]); s.target.any (fun p => p.1.stop.isEmpty && !(p.2.awaiting [s.arg.d]) && (p.2.fences[s.arg.c]?).any (fun f => f.hit.contains s.arg.d && (f.snaps.find? (fun k => k.lane == s.arg.d)).isSome &&
      decide (s.arg.d < p.2.lanes.length) && p.1.uid == s.arg.a))) = true := by decide +kernel
/-- Copy context 0 of core 0 with one command of group 0, and its operands: 8 bytes within the unit's scratch segment. -/
def engine (c : Command → Command) (s : State) : State :=
  (unit [(3, 0x12040)] 8 s).setEngine ⟨1, 0, 0⟩ { Engine.init with issued := 1, cmds := [c ⟨1, .cpy ⟨0, 0, 0, 0, some 0⟩, 0x10000000000, 0x10000000080, 8, 0, [], 0, 0, 0, 0, none, false, false, 0, false, 0, 0, 0, 0, none, []⟩] }
def engArg (x : EvArg) : EvArg := { x with eng := ⟨1, 0, 0⟩ }
/-- Device 5's route leads to partition 0 (R348). -/
def peerReqOf (k : PeerKind) : PeerReq := { kind := k, pa := 0x4000000, len := 4, data := [1, 0, 0, 0] }
theorem test_met_linkEvents :
    (let s := ev 0 0 0 0 (fun s => { s with posted := [{ uid := 0, grp := 0, lane := 0, dev := 5, addr := 0, pa := 0, ctr := 0, bytes := [] }] }); !s.arg.flag && (s.posted[s.arg.a]?).isSome) = true ∧
    (let s := ev 1 0 0 0 (engine (fun c => { c with sent := [(5, 0, 0)] })) (fun x => { engArg x with flag := true }); s.arg.flag && ((s.engine s.arg.eng).cmds.find? (fun c => c.num == s.arg.a && !c.done)).any (fun c => !c.sent.isEmpty)) = true ∧
    (let s := ev 0 0 0 0 (grp (fun g => { g with peerRead := [⟨0, 5, [0], none⟩] })) (fun x => { x with parts := [.ok 7] }); s.target.any (fun p => decide (p.2.inflight.length ≤ s.arg.c) && (p.2.peerRead[s.arg.c - p.2.inflight.length]?).any (fun r => r.ans.isNone))) = true ∧
    (let s := ev 0 0 0 0 (grp (fun g => { g with inflight := [{ kind := .load 4 false 0, parts := [part [0] (some 5)], pc := 4, commit := false }] })) (fun x => { x with parts := [.ok 7] });
      s.target.any (fun p => (p.2.inflight[s.arg.c]?).any (fun pr => pr.parts.all (fun x => x.peer.isSome) && s.arg.parts.length == pr.parts.length))) = true ∧
    (let s := ev 5 0 0 0 id (fun x => { x with req := some (peerReqOf .load) }); s.arg.req.any (fun q => s.peerCheck s.arg.a q.pa (peerLen q) == 4)) = true ∧
    (let s := ev 5 0 0 0 (fun s => (({ s with routetab := 0x7000 }).wr8 (0x7000 + 16 * 5 + 8) 0x10)) (fun x => { x with req := some (peerReqOf .store) }); s.arg.req.any (fun q => s.pend.isEmpty && decide (peerLen q = 4))) = true := by decide +kernel
/-- Segment 0x100 of context 0 as a lattice segment of max-of-unsigned cells, chunks of 64 bytes; pairing, and a domain exchange with set 0 (R56, R90). -/
def lattice (pair : Nat) (dx : Bool) (s : State) : State := (s.wr8 0x3000 0x545C000000000FFF).wr8 0x3010 (0x18400 + pair * 2 ^ 12 + (if dx then 2 ^ 18 else 0))
/-- Dies 0 and 1 are present. -/
def twoDies (s : State) : State := s.setDie 1 (s.die 0)
/-- The exchange of segment 0x100 in which die 0 stands as `x` and the others as they began. -/
def ferryOf (x : FerryDie) (s : State) : State := { s with ferries := [{ Ferry.init 0 0x100 with dies := [x, FerryDie.init, FerryDie.init, FerryDie.init] }] }
theorem test_met_ferryEvents :
    (let s := ev 0 0x100 0 0 (fun s => ferryOf { FerryDie.init with busy := true } (lattice 0 false s)); (s.latSeg s.arg.a s.arg.b).isSome && (s.die 0).state == 1 && ((s.ferry 0 0x100).die 0).busy) = true ∧
    (let s := ev 0 0x100 0 0 (fun s => twoDies (lattice 2 false s)); (s.latSeg 0 0x100).any (fun g => g.pair == 2) && (s.die 0).state == 1 && !((s.ferry 0 0x100).die 0).busy && s.position 0 == 0 && decide (1 < s.presentDies.length)) = true ∧
    (∀ pair ∈ [0, 1], (let s := ev 0 0x100 0 0 (fun s => twoDies (lattice pair false s)); (s.latSeg 0 0x100).any (fun g => g.pair == pair) && (s.die 0).state == 1 && !((s.ferry 0 0x100).die 0).busy) = true) ∧
    (let s := ev 0 0 0 0 (fun s => { ferryOf { FerryDie.init with busy := true, awaits := [1] } (twoDies (lattice 0 false s)) with chunks := [⟨0, 0x100, 1, 0, 0, 0, [], true⟩] });
      (s.chunks[s.arg.a]?).any (fun c => (s.latTable c.ctx c.seg).isSome && (s.die c.dst).state == 1 && c.last && ((s.ferry c.ctx c.seg).die c.dst).busy && ((s.ferry c.ctx c.seg).die c.dst).round == c.round &&
        ((s.ferry c.ctx c.seg).die c.dst).awaits.contains c.src)) = true ∧
    (let s := ev 0 0x100 0 0 (fun s => { ferryOf { FerryDie.init with round := 1 } (lattice 0 true s) with domid := 0x403, dxtab := 0x8000 }.wr8 0x8000 8);
      (s.latSeg 0 0x100).any (fun g => g.dx && field s.domid 10 1 == 1 && ((s.exchangeSet g.dev).idxOf? (field s.domid 0 10)).isSome && (s.die (s.domDie g)).state == 1 &&
        decide ((s.ferry 0 0x100).domDone * roundsFor g.pair s.presentDies.length < ((s.ferry 0 0x100).die (s.domDie g)).round))) = true ∧
    (let s := ev 5 0 0 0; !(s.absentDevs.contains s.arg.a)) = true ∧ (let s := ev 5 0 0 0 (fun s => { s with absentDevs := [5] }); s.absentDevs.contains s.arg.a) = true := by decide +kernel
/-- How the command of this state ends: 0 done, 1 waits, 2 a fault, 3 lost, 4 cut off. -/
def endOf (s : State) : Option Nat := s.running.map (fun p => match (s.runCmd p.1 s.arg.eng p.2).2.2 with | .done => 0 | .wait => 1 | .fault _ _ _ => 2 | .lost _ _ _ => 3 | .cut => 4)
/-- An STL of the context that tl0 names: copy context 1 of core 0 (R275, R291). -/
def waitsOn (c : Command) : Command := { c with instr := .stl ⟨0, 0, 2, 0, some 0⟩, b := 5 }
def tl0 (failed : Option (Nat × Nat × Nat × Bool)) (s : State) : State := (engine waitsOn s).onUnit 0 (fun u => { u with record := u.record.set 4 0x41 }) |>.setEngine ⟨1, 0, 1⟩ { Engine.init with failed := failed }
/-- Commands that run to the end, wait (STL on a count not reached), meet a fault, and cannot go on (their context has failed). -/
theorem test_met_engineEvents :
    endOf (ev 1 0 0 0 (engine id) engArg) = some 0 ∧ endOf (ev 1 0 0 0 (tl0 none) engArg) = some 1 ∧ endOf (ev 1 0 0 0 (engine (fun c => { c with a := 0 })) engArg) = some 2 ∧
    endOf (ev 1 0 0 0 (tl0 (some (1, 4, 0, false))) engArg) = some 3 ∧
    (let s := ev 1 0 0 0 (fun s => (engine (fun c => { c with b := 0x1000000000000 }) s).wr8 0x3000 0x4C1C000000000FFF) (fun x => { engArg x with flag := true });
      s.arg.flag && s.running.any (fun p => (s.peerElem p.1 p.2 s.arg.b false).isSome && (match s.runUntil p.1 s.arg.eng p.2 (some s.arg.b) with | (_, c1, .wait) => c1.prog == s.arg.b | _ => false))) = true ∧
    (let s := ev 1 0 0 0 (fun s => (engine (fun c => { c with b := 0x1000000000000, instr := .post ⟨0, 0, 2, 0, some 0⟩ }) s).wr8 0x3000 0x4C1C000000000FFF) (fun x => { engArg x with flag := true });
      s.running.any (fun p => (s.peerElem p.1 p.2 s.arg.b false).isSome && decide (s.arg.b < p.2.e.toNat))) = true ∧
    (let s := ev 0 0 0 0 (fun s => s.setEngine ⟨1, 0, 0⟩ { Engine.init with failed := some (1, 4, 0, false) }) engArg; (s.engine s.arg.eng).failed.isSome) = true ∧
    (let s := ev 0 0 0 0 (fun s => s.setDie 0 { s.die 0 with queues := [[⟨.permit 0 0, 9, 0⟩], [], [], []] }); (s.die s.arg.a).head.any (fun p => decide (p.2.demand ≤ (s.die s.arg.a).budget ∧ (s.die s.arg.a).held + p.2.demand ≤ (s.die s.arg.a).budget))) = true ∧
    (let s := ev 0 0 0 0 (fun s => s.setDie 0 { s.die 0 with queues := [[⟨.permit 0 0, 6000, 0⟩], [], [], []] }); (s.die s.arg.a).head.any (fun p => decide ((s.die s.arg.a).budget < p.2.demand))) = true ∧
    (let s := ev 0 0 0 0 (fun s => s.setDie 0 { s.die 0 with held := 5200, queues := [[⟨.permit 0 0, 9, 0⟩], [], [], []] }); (s.die s.arg.a).head.any (fun p => decide ((s.die s.arg.a).budget < (s.die s.arg.a).held + p.2.demand ∧ p.2.demand ≤ (s.die s.arg.a).budget))) = true ∧
    (∀ b ∈ [0, 2], (let s := ev 0 b 0 0 (fun s => s.setDie 0 { s.die 0 with queues := List.replicate 4 [⟨.permit 0 0, 9, 0⟩] }); decide (s.arg.b < 3) && !((s.die s.arg.a).queues.getD s.arg.b []).isEmpty) = true) := by decide +kernel
/-- A matrix operation that may begin and has begun. -/
theorem test_met_matrixOperation :
    (let s := ev 0 0 0 0 (fun s => s.onUnit 0 (fun u => { u with ops := [before] }));
      (s.unit? s.arg.a).any (fun u => (u.ops[s.arg.b]?).any (fun o => o.begun && !o.light && u.groups.all (fun g => g.inflight.isEmpty)))) = true ∧
    (let s := ev 0 0 0 0 (fun s => s.onUnit 0 (fun u => { u with ops := [{ before with begun := false, leave := true }] })); (s.unit? s.arg.a).any (fun u => (u.ops[s.arg.b]?).any (fun o => !o.begun && !o.light && o.leave))) = true := by decide +kernel
/-- Mailbox 0, bound, its area at 0xA000, with held firings (R294). -/
def mailbox (held : List (Nat × Nat)) (s : State) : State := ({ s with mbxtab := 0x9000 }.wr8 0x9000 0x4000000000000000).wr8 0x9010 0xA000 |>.setMbx 0 { Mailbox.init with held := held }
/-- A barge of the unit in the queue of core 0. -/
def queued (s : State) : State := s.setCore 0 { s.core 0 with queue := [⟨0, 0, false⟩] }
/-- Every lane of the group parked at a barrier, which counts as long. -/
def parkedGroup : State → State := grp (fun g => g.setLanes (List.range 8) (fun _ x => { x with st := .parked .barrier 0 4 }))
/-- A second unit that core 0 cannot hold beside the first: both take the matrix set. -/
def second (s : State) : State := { s with units := s.units ++ s.units.map (fun (p : Nat × WorkUnit) => (1, { p.2 with uid := 1, res := .waiting })) }.setCore 0 { s.core 0 with queue := [⟨1, 0, false⟩] }
/-- A save pool of four slots at 0x100000 for partition 0 (R331). -/
def pool (s : State) : State := { s with savepool := [(0, 0x100004)] }
theorem test_met_launchEvents :
    (let s := ev 0 0 0 0 (mailbox []); (s.mbx s.arg.a).held.isEmpty && s.mbxState 0 == 1 && s.mbxRoom 0) = true ∧ (let s := ev 0 0 0 0 (mailbox [(3, 8)]); (s.mbx s.arg.a).held == [(3, 8)]) = true ∧ (let s := ev 0 0 0 0; s.coreExists s.arg.a) = true ∧
    field State.reset.qsched 0 1 = 0 ∧ (let s := ev 0 0 0 0 (fun s => { s with qsched := 0x801 }); field s.qsched 0 1 == 1 && s.qcount == 0 && s.qslots.length == 64) = true ∧
    (let s := ev 0 0 0 0 (fun s => queued (s.onUnit 0 (fun u => { u with res := .waiting }))); (s.headBarge s.arg.a).any (fun b => (s.unit? b.uid).isSome)) = true ∧ (let s := ev 0 0 0 0; (s.headBarge s.arg.a).isNone) = true ∧
    (let s := ev 0 0 0 0 (fun s => { pool (second (parkedGroup s)) with cycle := 20000 }); (s.unit? s.arg.a).any (fun u => u.uid == s.arg.a && u.res == .resident && u.stopAt.isNone && s.quiet u &&
      u.groups.all (fun g => decide (g.lastIssue + 16384 ≤ s.cycle)) && u.idle && decide ((s.core u.core).queue.length < 256) &&
      (s.headBarge u.core).any (fun b => (s.unit? b.uid).any (fun v => !(s.fits u.core v))) && (s.freeSlot (s.partOf (recCtx u.record))).isSome &&
      ((s.settle u.uid).unit? u.uid).any (fun x => x.stop.isEmpty && x.idle))) = true ∧
    (let s := ev 0 0 0 0 (grp (fun g => { g with passed := 64 })); s.target.any (fun p => p.1.res == .resident && p.2.liveLanes.any (fun l => !(p.2.lane l).st.isParked) && decide (64 ≤ p.2.passed))) = true ∧
    base.coreExists 0 = true := by decide +kernel
/-- A fault record of lane 0 with a code. -/
def rec (code : Nat) : FaultRec := { grp := 0, lane := 0, code := code, ss := false, rmt := false, reason := 0, pc := 0, regc := 0, addr := 0 }
/-- The unit, saved at 0x100000 with a stop (R332). -/
def serviced (code : Nat) (s : State) : State := s.onUnit 0 (fun u => { u with res := .saved 0x100000 1, stop := [rec code] })
/-- Die 0 with 16 slices, of which partition 0 owns the first (R324). -/
def sliced (s : State) : State := { s.setDie 0 { s.die 0 with slices := 16 } with own := SMap.put 0x80 s.own 0x140 0 }
theorem test_met_serviceEvents :
    (∀ p ∈ [id, pool], (let s := ev 0 0 0 0 (fun s => p (s.onUnit 0 (fun u => { u with stop := [rec 4] }))); (s.unit? s.arg.a).any (fun u => u.res == .resident && !u.stop.isEmpty && s.quiet u)) = true) ∧
    (let s := ev 0 0 0 0 pool; (s.freeSlot 0).isSome && (base.freeSlot 0).isNone) = true ∧
    (let s := ev 0 0 0 0 (serviced 4); !s.arg.flag && (s.unit? s.arg.a).any WorkUnit.inService) = true ∧
    (let s := ev 0 0 0 0 (engine (fun c => { c with stuck := some (4, 0, false) })) (fun x => { engArg x with flag := true }); s.arg.flag && (s.stuckCmd s.arg.eng).isSome) = true ∧
    (let s := ev 0 0 0 0 (fun s => sliced (serviced 0x0C s)); (s.unit? s.arg.a).any (fun u => u.res == .saved 0x100000 1 && s.harboured u && u.stop.any (fun r => r.code == 0x0C))) = true := by decide +kernel
/-- A binder of an entry at a key of die 0. -/
def binderOf (key : Nat) (esc : Bool) : Binder := { ctx := 0, entry := ⟨key, false, 0x40, 0, (key / 128, 0)⟩, uid := 0, grp := 0, escalated := esc, said := [] }
/-- The harbourmaster serves every code of partition 0: the service table sends none elsewhere (R331). -/
theorem test_met_bindingEvents :
    (let s := ev 0 0 0 0 (fun s => { sliced (serviced 1 s) with binders := [binderOf 0xB000 false] }); (s.binders[s.arg.a]?).any (fun b => !b.escalated && s.serves b.entry && (s.entrySlice b.ctx b.entry).isSome && (base.entrySlice b.ctx b.entry).isNone && (s.unit? b.uid).any (fun u => u.res != .resident && u.res != .stopped))) = true ∧
    (let s := ev 0 0 0 0 (fun s => { (sliced s).onUnit 0 (fun u => { u with res := .saved 0x100000 1, stop := [{ rec 0x0F with addr := 0x10000000000000 }] }) with svctab := [(0, 0x5555555555555555)] });
      (s.unit? s.arg.a).any (fun u => s.boundOnly u && !(revokedSegs u.stop).isEmpty && s.binders.isEmpty)) = true ∧
    (let s := ev 0 5 0 0 (fun s => { s with binders := [binderOf 5 true] }); (s.binders.find? (fun x => x.ctx == s.arg.a && x.entry.key == s.arg.b && x.escalated)).isSome) = true := by decide +kernel
/-- A write of four bytes through window 2, which names segment 0x100 of context 0 (R346). -/
def inWrite : InWrite := ⟨2, 0, false, [1, 2, 3, 4]⟩
theorem test_met_hostEvents :
    (let s := ev 0 0 0 0 id (fun x => { x with write := some inWrite }); s.portUp.getD s.arg.a false && s.arg.write.isSome) = true ∧
    (let s := ev 0 0 0 0 (fun s => { s with pop := [[⟨0, inWrite⟩], []] }); s.arg.write.isNone && (s.popReady s.arg.a).any (fun x => (s.passPop s.arg.a x.w).isSome)) = true ∧
    (let s := ev 0 2 0 4; (s.pop.getD s.arg.a []).isEmpty && s.portIdle s.arg.a && (s.inbound s.arg.b s.arg.c s.arg.d false).isNone) = true ∧
    (let s := ev 0 2 0 4 (fun s => { s with inwin := [(2, 0x100000001)] }.wr8 0x3000 0x401C000000000FFF); (s.inbound s.arg.b s.arg.c s.arg.d false).isSome && s.pend.isEmpty) = true ∧
    (let s := ev 0x4000000 128 1 0; s.portUp.getD s.arg.c false && s.cxlOk s.arg.a s.arg.b) = true ∧ (let s := ev 0x80000000000000 0 0 0; decide (0x800 ≤ s.arg.a / 2 ^ 40 % 2 ^ 12)) = false ∧
    (let s := ev 0x8000000000000 0 0 0; decide (0x800 ≤ s.arg.a / 2 ^ 40 % 2 ^ 12) && s.pend.isEmpty) = true ∧ (let s := ev 1 0 0 0 (fun s => { s with capiod := 0x40000000 }); decide (s.arg.a < field s.capiod 29 2)) = true := by decide +kernel
theorem test_met_powerEvents :
    State.reset.power ≠ .up ∧ base.power = .up ∧ (base.die 0).present = true ∧ base.budgetSum 0 5200 ≤ 20800 ∧ (rec 0x0C).code = 0x0C ∧ base.emulated 0 0 = false ∧ (rec 4).code ≠ 0x0C ∧
    laneMet 0x70000000 0 (fun _ _ => true) = true := by decide +kernel

/-! States that meet the hypotheses of single clauses, where the ones above do not. -/

/-- MKA of the last offset of segment 1 plus one: an offset of 2^40 in every lane (R217). -/
theorem test_met_mkaOutside :
    laneMet 0x4A0810C1 0x40000000 (fun e f => mkaLegal f && ((e.view? f.g (memSrcs f ++ dstV true f.d)).filter (fun w => w.act.any (fun l => decide ((w.addr f l).off = 2 ^ 40)))).isSome)
      (grp (fun g => (List.range 8).foldl (fun g l => g.putV l 3 1) (g.putS 1 0x1FFFFFFFFFF))) = true := by decide +kernel
/-- A CBACQ whose header the group has stored and not performed (R106, R107). -/
theorem test_met_headerUnwritten :
    laneMet 0x5C041001 0x60000000 (fun e f => cbOk f && e.cbUnwritten f) (fun s => grp (fun g => { g with sbuf := [oneStore [scratchKey 0 8]] }) (buffer 0 s)) = true := by decide +kernel
/-- An update that a sharer has not acknowledged; a store whose home has stopped serving; lines that are not evicted. -/
theorem test_met_memoryWaits :
    (let s := ev 0 0 0 0 (fun s => { s with pend := [{ pending [0x4000000] false none with unacked := [3] }] }); (s.pend[s.arg.a]?).any (fun p => !p.unacked.isEmpty)) = true ∧
    (let s := ev 0 0 0 0 (fun s => grp (fun g => { g with sbuf := [{ oneStore [0x4000000] with recs := [(0x80000, 0)] }] }) (dieStep 0 s |>.setDie 0 { s.die 0 with step := 1 })); s.target.any (fun p => (p.2.sbuf[s.arg.c]?).any (fun b => !b.repl &&
      s.homeDown b.recs && p.2.together b.seq == [b] && s.mayApply s.arg.a s.arg.b p.2 b && (p.2.lane b.lane).st.live && (p.1.faulted s.arg.b).isEmpty))) = true ∧
    (let s := ev (2 ^ 45) 0 0 0; decide (2 ^ 52 ≤ 128 * s.arg.a)) = true ∧ (let s := ev 0x80000 0 0 0 (fun s => { s with pend := [pending [0x4000000] false none] }); s.updating s.arg.a) = true := by decide +kernel
/-- A peer's request of 257 bytes; a release that a scope record refuses (R117). -/
theorem test_met_peerBounds :
    (let s := ev 5 0 0 0 id (fun x => { x with req := some { peerReqOf .load with len := 257 } }); s.arg.req.any (fun q => decide (256 < peerLen q))) = true ∧
    (let s := ev 5 0 0 0 (fun s => { ({ s with routetab := 0x7000 }.wr8 (0x7000 + 16 * 5 + 8) 0x10) with dir := [(0x80000, ⟨0, [], [], some ⟨6, 1⟩⟩)] }) (fun x => { x with req := some { peerReqOf .store with scope := 5 } });
      s.arg.req.any (fun q => s.pend.isEmpty && decide (peerLen q = 4) && q.scope != 0 && !(s.peerScopeOk s.arg.a q 0x80000))) = true := by decide +kernel
/-- A write of the host's memory protocol, and an access that waits for a line's store (R347). -/
theorem test_met_hostMemory :
    (let s := ev 0x4000000 128 1 0 id (fun x => { x with flag := true }); s.portUp.getD s.arg.c false && s.cxlOk s.arg.a s.arg.b && s.arg.flag && s.pend.isEmpty) = true ∧
    (let s := ev 0x4000000 64 1 0 (fun s => { s with pend := [pending [0x4000050] false none] }); s.portUp.getD s.arg.c false && s.cxlOk s.arg.a s.arg.b && s.pend.any (fun p => (linesOf p.keys).any (linesOf (upFrom s.arg.a s.arg.b)).contains)) = true ∧
    (let s := ev 0 0 0 4096 id (fun x => { x with flag := true }); s.portUp.getD s.arg.a false && decide (s.arg.d ≤ 4096) && s.portIdle s.arg.a && s.arg.flag) = true ∧
    (let s : State := { base with pop := [[⟨0, inWrite⟩, ⟨1, { inWrite with relaxed := true }⟩], []], pend := [{ pending [] false none with port := some 0 }] }; (s.popReady 0).length) = 1 := by decide +kernel
/-- An entry whose home die does not serve; a unit that a resident supervisor unit saves; a stop with no slice to serve it. -/
theorem test_met_serviceBounds :
    (let s := ev 0 0 0 0 (fun s => { serviced 1 s with binders := [binderOf 0xB000 false] }.setDie 0 { s.die 0 with step := 1 }); (s.binders[s.arg.a]?).any (fun b => !(s.serves b.entry))) = true ∧
    (let s := ev 0 0 0 0 (fun s => { sliced (serviced 1 s) with binders := [binderOf 0xB000 false] }); s.binders.any (fun b => s.serves b.entry && (s.unit? 0).any (fun u => !(s.bind u b.entry b.said).ok))) = true ∧
    (let s := ev 0 0 0 0 (fun s => { sliced (serviced 0x0F s) with svctab := [(0, 0x5555555555555555)] }); (s.unit? 0).any (fun u => s.stopRoute 0 (recordOrder u.stop) == 1 && (s.serviceSlice u 0x100000).isSome && (base.serviceSlice u 0x100000).isNone)) = true := by decide +kernel
/-- A mailbox whose home die does not serve keeps firings at the IOD (R358). -/
theorem test_met_firingParked :
    (let s := (mailbox [] base).setDie 0 { base.die 0 with step := 1 }; s.mbxRoom 0 && !(s.mbxServes 0)) = true ∧ (let s := (mailbox [] base).setMbx 0 { Mailbox.init with parked := [[]] }; s.mbxRoom 0 && !(s.mbx 0).parked.isEmpty) = true := by decide +kernel
/-- A load into an s register, and a block load (R214, R215). -/
theorem test_met_otherLoads :
    (let s := ev 0 0 0 0 (fun s => grp (fun g => { g with inflight := [{ kind := .load 8 false 0, parts := [{ part (upFrom 0x4000000 8) none with dest := .s 63 }], pc := 4, commit := false }] }) s);
      s.target.any (fun p => p.1.uid == s.arg.a && (p.2.inflight[s.arg.c]?).any (fun pr => !pr.commit && !(s.blocked p.2 s.arg.c pr) && pr.parts.all (fun x => !(s.homeDown x.recs))))) = true ∧
    (let s := ev 0 0 0 0 (fun s => grp (fun g => { g with inflight := [{ kind := .block 16 0, parts := [{ part (upFrom 0x4000000 64) none with dest := .v 7 48 }], pc := 4, commit := false }] }) s);
      s.target.any (fun p => p.1.uid == s.arg.a && (p.2.inflight[s.arg.c]?).any (fun pr => !pr.commit && !(s.blocked p.2 s.arg.c pr) && pr.parts.all (fun x => x.keys.length == 64)))) = true := by decide +kernel

/-! The statements on steps. -/

theorem test_met_encoding :
    wellFormed (.iadd ⟨1, 2, 3, 0, false, false, none⟩) = true ∧ shape (.iadd ⟨1, 2, 3, 0, false, false, none⟩) ≠ .event ∧ decodeWords 0x010420C0 0 = some (.iadd ⟨1, 2, 3, 0, false, false, none⟩) := by decide +kernel
theorem test_met_sound : base.sound ∧ (match step (State.reset.withFetchWord 64 0) with | .next _ => true | _ => false) = true := by decide +kernel
/-- A word on the towline, one that memory holds, and one of the instruction cache (R39, R155). -/
def held (w : TowWord) : State → State := grp (fun g => { g with tow := [w] })
theorem test_met_step :
    (∀ p ∈ [held ⟨0, 4, 0x010420C0, 0⟩, id], (let s := p (State.reset.withFetchWord 64 0x010420C0);
      s.power == .up && (match s.agenda with | .issue 0 0 none false :: rest => (let s0 := State.passOver { s with agenda := rest }; (s0.unit? 0).any (fun u => u.uid == 0 && s0.mayIssue u false && !(s0.outranked 0 0 false) &&
        (u.group 0).any (fun g => !g.liveLanes.isEmpty && g.liveLanes.all (fun l => (g.lane l).st == .subscribed && (g.lane l).pc == g.bcast) &&
          (match Env.nextWord ⟨s0.tick.setUnit (u.setGroup 0 { g with vOld := g.v }), { uid := 0, grp := 0, by_ := .broadcast, act := g.liveLanes, pc := g.bcast, len := 4, w0 := 0, w1 := 0 }, u.setGroup 0 { g with vOld := g.v },
              Group.buffered { g with vOld := g.v } g.bcast⟩ with
            | .ok _ w => (decodeWords w.w0 w.w1).isSome | _ => false)))) | _ => false)) = true) ∧
    ((issued 0 0).any (fun e => (match e.codeAcc 0, e.codeAcc 4 with
      | .ok a0, .ok a1 => (AMap.get? (e.s.die e.u.die).icache (a0.keys.headD 0)).isSome && e.s.pend.isEmpty && (AMap.get? (e.s.die e.u.die).icache (a1.keys.headD 0)).isNone | _, _ => false))) = true ∧
    ((match (State.reset.withFetchWord 64 0).issueMove 0 0 none false with | .run _ _ => true | _ => false) && decide (State.keyed (State.reset.withFetchWord 64 0))) = true := by decide +kernel
theorem test_met_loadDelivers :
    (∀ n ∈ [1, 2, 4, 8], (let s := ev 0 0 0 0 (load n (.load n false 0)); s.target.any (fun p => p.1.uid == s.arg.a && (s.die 0).state == 1 && (p.2.inflight[s.arg.c]?).any (fun pr => !pr.commit && !(s.blocked p.2 s.arg.c pr) &&
      pr.parts.all (fun x => x.keys.length == n && x.peer.isNone && x.keys.all (fun k => decide (k / 2 ^ 40 = 0)))))) = true) ∧
    (0x80 < 2 ^ (8 * 1) ∧ 0xFF < 2 ^ (8 * 1)) := by decide +kernel

/-! Results of one step, worked by hand from the rules. -/

/-- The unit after the step that runs the given words. -/
def ran (w0 w1 : Nat) (p : State → State := id) : Option WorkUnit := match step (p (State.reset.withFetchWord 64 (w0 + w1 * 2 ^ 32))) with | .next s => s.unit? 0 | _ => none
/-- v registers of lane 0 before the step. -/
def v (xs : List (Nat × Word)) : State → State := grp (fun g => xs.foldl (fun g x => g.putV 0 x.1 x.2) g)
def sreg (xs : List (Nat × DWord)) : State → State := grp (fun g => xs.foldl (fun g x => g.putS x.1 x.2) g)
/-- A v register of lane 0, and an s register, after the step. -/
def vAfter (w0 w1 n : Nat) (p : State → State) : Option Word := ((ran w0 w1 p).bind (·.group 0)).map (fun g => g.getV 0 n)
def sAfter (w0 w1 n : Nat) (p : State → State) : Option DWord := ((ran w0 w1 p).bind (·.group 0)).map (fun g => g.getS n)
/-- The codes of the records of a stop, by lane. -/
def codes (w0 w1 : Nat) (p : State → State := id) : Option (List Nat) := (ran w0 w1 p).map (fun u => u.stop.map (·.code))

/-- R178: sums wrap at the type's width. -/
theorem test_iadd_wraps : vAfter 0x010420C0 0 1 (v [(2, 0x7FFFFFFF), (3, 1)]) = some 0x80000000 := by decide +kernel
/-- R178: a quotient by 0 is all ones, the remainder by 0 the dividend; −7 div 2 is −3, −7 rem 2 is −1. -/
theorem test_idiv : vAfter 0x060420C0 0 1 (v [(2, 7), (3, 0)]) = some 0xFFFFFFFF ∧ vAfter 0x070420C0 0 1 (v [(2, 7), (3, 0)]) = some 7 ∧
    vAfter 0x060420C0 0 1 (v [(2, 0xFFFFFFF9), (3, 2)]) = some 0xFFFFFFFD ∧ vAfter 0x070420C0 0 1 (v [(2, 0xFFFFFFF9), (3, 2)]) = some 0xFFFFFFFF := by decide +kernel
/-- R178: a shift count is taken modulo the width; SAR keeps the sign. -/
theorem test_shifts : vAfter 0x0D0420C0 0 1 (v [(2, 1), (3, 33)]) = some 2 ∧ vAfter 0x0F0420C0 0 1 (v [(2, 0x80000000), (3, 31)]) = some 0xFFFFFFFF ∧
    vAfter 0x100420C0 0 1 (v [(2, 0x80000001), (3, 1)]) = some 3 := by decide +kernel
/-- R180: POPC, CLZ, CTZ of 0x00F0 and BREV of 1. -/
theorem test_unary : vAfter 0x190420C0 0 1 (v [(2, 0xF0)]) = some 4 ∧ vAfter 0x19042100 0 1 (v [(2, 0xF0)]) = some 24 ∧ vAfter 0x19042140 0 1 (v [(2, 0xF0)]) = some 4 ∧
    vAfter 0x19042180 0 1 (v [(2, 1)]) = some 0x80000000 := by decide +kernel
/-- R181: m1 of ICMP.lt.i64 v2, v4 has lane 0's bit, −1 < 0. -/
theorem test_icmp : ((ran 0x14042101 0x08020000 (v [(2, 0xFFFFFFFF), (3, 0xFFFFFFFF)])).bind (·.group 0)).map (fun g => g.getM 1) = some 1 := by decide +kernel
/-- R183: MOVI.H writes the high half and keeps the low half. -/
theorem test_movi_h : vAfter 0x17040001 0x20013F80 1 (v [(1, 0x12345678)]) = some 0x3F805678 := by decide +kernel
/-- R186: 1 + 2^−24 is a tie and rounds to the even 1; 1 ÷ 0 is +∞; the square root of 4 is 2 (R189). -/
theorem test_float : vAfter 0x200420C0 0 1 (v [(2, 0x3F800000), (3, 0x33800000)]) = some 0x3F800000 ∧ vAfter 0x270420C0 0 1 (v [(2, 0x3F800000), (3, 0)]) = some 0x7F800000 ∧
    vAfter 0x29042080 0 1 (v [(2, 0x40800000)]) = some 0x40000000 := by decide +kernel
/-- R197, R199: SHFL.DN by one in lane 0 reads lane 1; SHFL.UP by one has no source lane and fills with 0. -/
theorem test_shfl : vAfter 0x32042001 0x20000001 1 (grp (fun g => (g.putV 1 2 9).putV 0 2 5)) = some 9 ∧ vAfter 0x31042001 0x20000001 1 (v [(1, 7), (2, 5)]) = some 0 := by decide +kernel
/-- R203, R204: the sum over the active lanes, and the ballot. -/
theorem test_redu_vote : vAfter 0x37042000 0 1 (grp (fun g => (g.putV 1 2 9).putV 0 2 5)) = some 14 ∧ vAfter 0x39042000 0 1 (grp (fun g => (g.putV 1 2 9).putV 3 2 5)) = some 10 := by decide +kernel
/-- R219: SEGNO and SEGOF of the pair v2, v3. -/
theorem test_segno : vAfter 0x4B042000 0 1 (v [(2, 0x89ABCDEF), (3, 0x00012345)]) = some 0x123 ∧ vAfter 0x4C102000 0 4 (v [(2, 0x89ABCDEF), (3, 0x00012345)]) = some 0x89ABCDEF ∧
    vAfter 0x4C102000 0 5 (v [(2, 0x89ABCDEF), (3, 0x00012345)]) = some 0x45 := by decide +kernel
/-- R44: a load's destination is empty until its value arrives, and one producer is outstanding. -/
theorem test_ld : ((ran 0x42041001 0x60000000 (sreg [(1, 0x60000000000)])).bind (·.group 0)).map (fun g => (g.emptyS 1, g.inflight.length)) = some (true, 1) := by decide +kernel
/-- R231, R267: a branch is relative to its own address, in words. -/
theorem test_jmp : ((ran 0x610000C0 0).bind (·.group 0)).map (fun g => g.bcast) = some 12 ∧ ((ran 0x94000005 0).bind (·.group 0)).map (fun g => g.bcast) = some 20 := by decide +kernel
/-- R233, R45: CALL pushes the address after it. -/
theorem test_call : ((ran 0x630000C0 0).bind (·.group 0)).map (fun g => (g.bcast, (g.lane 3).dep, AMap.get? g.stack (1024 * 3))) = some (12, 1, some 4) := by decide +kernel
/-- R234: EXIT of every lane ends the unit. -/
theorem test_exit : (ran 0x80 0).map (fun u => u.res == .done) = some true := by decide +kernel
/-- R170, R166, R236: the codes of an illegal form, an optional opcode, a breakpoint and TRAPU, in every one of the eight lanes. -/
theorem test_fault_codes : codes 0x010420C1 0x40000000 = some (List.replicate 8 0x15) ∧ codes 0x70000000 0 = some (List.replicate 8 0x0C) ∧ codes 0x140 0 = some (List.replicate 8 0x13) ∧
    codes 0x64000001 0x20000007 = some (List.replicate 8 0x14) := by decide +kernel
/-- R170: a system word outside a supervisor unit. -/
theorem test_fault_supervisor : codes 0xD0040102 0 noMx = some (List.replicate 8 0x16) ∧ sAfter 0xD0040102 0 1 id = some 0x800 := by decide +kernel
/-- R266: group arithmetic in 64 bits; an immediate and a literal are sign-extended. -/
theorem test_group_alu : sAfter 0x81042FFF 0 1 (sreg [(2, 0)]) = some 0xFFFFFFFFFFFFFFFF ∧ sAfter 0xC1042000 0x80000000 1 (sreg [(2, 0)]) = some 0xFFFFFFFF80000000 ∧
    sAfter 0x80042088 0 1 (sreg [(2, 0x8000000000000000)]) = some 0x8000000000000000 ∧ sAfter 0x800420C8 0 1 (sreg [(2, 0x8000000000000000), (3, 63)]) = some 0xFFFFFFFFFFFFFFFF := by decide +kernel
/-- R267: the compare type says signed or not. -/
theorem test_scmp : ((ran 0x90002080 0 (sreg [(2, 0xFFFFFFFFFFFFFFFF)])).bind (·.group 0)).map (fun g => (g.cond.eq, g.cond.ltn)) = some (true, false) ∧
    ((ran 0x900020C0 0 (sreg [(2, 0xFFFFFFFFFFFFFFFF)])).bind (·.group 0)).map (fun g => (g.cond.lt, g.cond.ltn)) = some (true, false) := by decide +kernel
/-- R271: the decision queue is first in, first out; a pop from an empty one faults with 0x09. -/
theorem test_dqpop : sAfter 0x9A040000 0 1 (grp (fun g => { g with dq := [7, 8] })) = some 7 ∧ codes 0x9A040000 0 = some (List.replicate 8 0x09) := by decide +kernel
/-- R256: YMSET.FIRST sets the first n bits. -/
theorem test_ymset : (ran 0xAB042001 0 (sreg [(2, 5)])).map (fun u => u.ym.getD 1 0) = some 0x1F := by decide +kernel
/-- R242: a tile word without the matrix set. -/
theorem test_tzero_fault : codes 0xA6040000 0 noMx = some (List.replicate 8 0x04) := by decide +kernel
/-- R305: SLUICESET gives die 0 a budget of 5000. -/
theorem test_sluiceset : (match step (sreg [(2, 5000)] (State.reset.withFetchWord 64 0xE0001080)) with | .next s => some (s.die 0).budget | _ => none) = some 5000 := by decide +kernel
/-- R357: without power nothing executes. -/
theorem test_no_power : (match step State.reset with | .fault .poweredDown => true | _ => false) = true := by decide +kernel
/-- R107: a committed store is in memory, and a byte beside it is not. -/
theorem test_storeCommit : (match exec .storeCommit (ev 0 0 0 0 (fun s => { s with pend := [pending [0x4000100] false none] })) with
    | .next s => some (Memory.read s.mem 0x4000100, Memory.read s.mem 0x4000101) | _ => none) = some (7, 0) := by decide +kernel
/-- R357 step 7, R300: the boot image's queue list, record, level record and registers stand as it starts; a quantum starts its launch, and core 0 takes the unit. -/
def bootArg : BringUp :=
  let ws (a : Nat) (vs : List Nat) : List (Nat × Byte) := vs.zipIdx.flatMap (fun p => (leBytes 8 p.1).zipIdx.map (fun q => (a + 8 * p.2 + q.2, q.1)))
  { images := [], dies := [⟨true, 80, 16, 64, 128⟩], iod := 0,
    bytes := ws 0x10000 [1, 0xFFFFFF5000000000] ++ ws 0x20000 [1, 0x20100, 1, 0, 1] ++ ws 0x20100 [0x20200] ++ ws 0x20200 (probeRecord.map (·.toNat)),
    regs := [(0x010, 0x1000000000001), (0x101, 0x10000), (0x103, 0x20000), (0x120, 0x30000), (0x121, 0)] }
def booting : State := { (State.reset.tested bootArg).booted bootArg with power := .up, qsched := 0x801 }
theorem test_boot : (match exec .recoveryQuantum booting with
    | .next s => (match exec .bargePlacement s with | .next s1 => some (s.launches.length, (s1.unit? 0).map (fun u => (u.res == .resident, u.core))) | _ => none)
    | _ => none) = some (1, some (true, 0)) := by decide +kernel

end Sys2Proof.Tests
end

section
/-! The numbers of R136: numbers given by their bits, reduction by a type's width, and bit counts. -/

namespace Sys2Proof.Machine

/-! Numbers given by their bits. -/

@[simp] theorem ofBits_zero (p : Nat → Bool) : ofBits 0 p = 0 := rfl

theorem ofBits_succ (n : Nat) (p : Nat → Bool) : ofBits (n + 1) p = ofBits n p + if p n then 2 ^ n else 0 := by
  simp [ofBits, List.range_succ]

theorem ofBits_lt (n : Nat) (p : Nat → Bool) : ofBits n p < 2 ^ n := by
  induction n with
  | zero => simp
  | succ n ih => rw [ofBits_succ, pow_succ]; split <;> omega

theorem ofBits_congr {n : Nat} {p q : Nat → Bool} (h : ∀ i < n, p i = q i) : ofBits n p = ofBits n q := by
  unfold ofBits
  rw [List.map_congr_left fun i hi => by rw [h i (List.mem_range.mp hi)]]

theorem testBit_ofBits (n : Nat) (p : Nat → Bool) (i : Nat) : (ofBits n p).testBit i = (decide (i < n) && p i) := by
  induction n with
  | zero => simp
  | succ n ih =>
    have hadd : ofBits (n + 1) p = 2 ^ n * (p n).toNat + ofBits n p := by
      rw [ofBits_succ, Nat.add_comm]; cases p n <;> simp
    rw [hadd, Nat.testBit_two_pow_mul_add _ (ofBits_lt n p), ih]
    rcases Nat.lt_trichotomy i n with h | rfl | h
    · simp [h, Nat.lt_succ_of_lt h]
    · cases p i <;> simp
    · obtain ⟨k, rfl⟩ : ∃ k, i = n + 1 + k := ⟨i - (n + 1), by omega⟩
      have hk : n + 1 + k - n = k + 1 := by omega
      have hn : ¬ n + 1 + k ≤ n := by omega
      cases p n <;> simp [hk, hn, h.asymm, Nat.testBit_succ]

/-- A number is known by its bits below its width. -/
theorem eq_ofBits {n x : Nat} {p : Nat → Bool} (hx : x < 2 ^ n) (h : ∀ i < n, x.testBit i = p i) : x = ofBits n p := by
  refine Nat.eq_of_testBit_eq fun i => ?_
  rw [testBit_ofBits]
  by_cases hi : i < n
  · simp [hi, h i hi]
  · simp [hi, Nat.testBit_lt_two_pow (lt_of_lt_of_le hx (Nat.pow_le_pow_right two_pos (Nat.not_lt.mp hi)))]

/-- The number that has the bits of a list set. -/
theorem testBit_foldl_or (ks : List Nat) (x i : Nat) : (ks.foldl (fun a k => a ||| 2 ^ k) x).testBit i = (x.testBit i || decide (i ∈ ks)) := by
  induction ks generalizing x with
  | nil => simp
  | cons k ks ih =>
    rw [List.foldl_cons, ih, Nat.testBit_or, Nat.testBit_two_pow]
    simp [Bool.or_assoc, eq_comm]

/-! Reduction by a type's width. -/

theorem ofInt_natCast (n x : Nat) : ofInt n (x : Int) = x % 2 ^ n := by
  unfold ofInt; rw [← Int.natCast_mod, Int.toNat_natCast]

theorem natCast_ofInt (n : Nat) (x : Int) : ((ofInt n x : Nat) : Int) = x % ((2 ^ n : Nat) : Int) :=
  Int.toNat_of_nonneg (Int.emod_nonneg _ (by positivity))

theorem ofInt_lt (n : Nat) (x : Int) : ofInt n x < 2 ^ n := by
  have := Int.emod_lt_of_pos x (b := ((2 ^ n : Nat) : Int)) (by positivity)
  rw [← natCast_ofInt] at this
  exact_mod_cast this

@[simp] theorem low_ofInt (n : Nat) (x : Int) : low n (ofInt n x) = ofInt n x := Nat.mod_eq_of_lt (ofInt_lt n x)

@[simp] theorem ofInt_ofInt (n : Nat) (x : Int) : ofInt n ((ofInt n x : Nat) : Int) = ofInt n x := by
  rw [ofInt_natCast]; exact low_ofInt n x

theorem low_lt (n x : Nat) : low n x < 2 ^ n := Nat.mod_lt _ (Nat.two_pow_pos n)

/-- Every integer type has a power of two below 64 bits as its width (R136). -/
theorem intTy_n_dvd (code : Nat) : (intTy code).n ∣ 2 ^ 64 := by
  unfold intTy; split <;> norm_num

/-- A shift counts by B's low log2(N) bits (R177). -/
theorem ofInt_mod_of_dvd {n : Nat} (h : n ∣ 2 ^ 64) (b : Int) : ofInt 64 b % n = (b % (n : Int)).toNat := by
  have hd : (n : Int) ∣ ((2 ^ 64 : Nat) : Int) := Int.natCast_dvd_natCast.mpr h
  rw [← Int.emod_emod_of_dvd b hd, ← natCast_ofInt, ← Int.natCast_mod, Int.toNat_natCast]

/-- `wr` sees a number modulo 2^N only. -/
theorem IntTy.wr_congr (t : IntTy) {x y : Int} (h : ofInt t.n x = ofInt t.n y) : t.wr x = t.wr y := by
  unfold IntTy.wr; rw [h]

theorem IntTy.wr_ofInt (t : IntTy) (x : Int) : t.wr ((ofInt t.n x : Nat) : Int) = t.wr x := t.wr_congr (ofInt_ofInt _ _)

theorem IntTy.wr_low (t : IntTy) (x : Nat) : t.wr ((low t.n x : Nat) : Int) = t.wr (x : Int) := by
  refine t.wr_congr ?_
  rw [ofInt_natCast, ofInt_natCast]; exact Nat.mod_mod _ _

/-! Bit counts (R180). -/

theorem popc_eq_countP (n w : Nat) : popc n w = (List.range n).countP (fun i => w.testBit i) := by
  induction n generalizing w with
  | zero => rfl
  | succ n ih =>
    rw [List.range_succ_eq_map, List.countP_cons, List.countP_map, popc, ih]
    simp only [Function.comp_def, Nat.succ_eq_add_one, Nat.testBit_succ, Nat.testBit_zero, decide_eq_true_eq]
    have := Nat.mod_two_eq_zero_or_one w
    split <;> omega

theorem ctz_eq_findIdx (n w : Nat) : ctz n w = (List.range n).findIdx (fun i => w.testBit i) := by
  induction n generalizing w with
  | zero => rfl
  | succ n ih =>
    rw [List.range_succ_eq_map, List.findIdx_cons, List.findIdx_map, ctz, ih]
    simp only [Function.comp_def, Nat.succ_eq_add_one, Nat.testBit_succ, Nat.testBit_zero]
    by_cases h : w % 2 = 1 <;> simp [h, Nat.add_comm]

theorem clz_eq_findIdx {n w : Nat} (hw : w < 2 ^ n) : clz n w = (List.range n).findIdx (fun i => w.testBit (n - 1 - i)) := by
  unfold clz
  rw [Nat.mod_eq_of_lt hw]
  by_cases h0 : w = 0
  · subst h0
    simp [List.findIdx_eq_length_of_false]
  · have hlog : Nat.log2 w < n := (Nat.log2_lt h0).mpr hw
    rw [if_neg h0, eq_comm, List.findIdx_eq (by simp; omega)]
    simp only [List.getElem_range]
    refine ⟨?_, fun j hj => ?_⟩
    · have : n - 1 - (n - 1 - Nat.log2 w) = Nat.log2 w := by omega
      rw [this]; exact Nat.testBit_log2 h0
    · exact Nat.testBit_lt_two_pow ((Nat.log2_lt h0).mp (by omega))

theorem brev_eq_ofBits (n w : Nat) : brev n w = ofBits n (fun i => w.testBit (n - 1 - i)) := by
  induction n generalizing w with
  | zero => rfl
  | succ n ih =>
    have hlow : ofBits n (fun i => w.testBit (n - i)) = ofBits n (fun i => (w / 2).testBit (n - 1 - i)) :=
      ofBits_congr fun i hi => by
        have : n - i = n - 1 - i + 1 := by omega
        simp only [this, Nat.testBit_succ]
    rw [ofBits_succ, brev, ih]
    simp only [Nat.add_sub_cancel, hlow, Nat.sub_self, Nat.testBit_zero, decide_eq_true_eq]
    rcases Nat.mod_two_eq_zero_or_one w with h | h <;> simp [h, Nat.add_comm]

/-! Bit fields (R179). -/

theorem bits_desc_pos (d : Nat) : bits d 0 6 = d % 64 := by simp [bits]
theorem bits_desc_width (d : Nat) : bits d 8 6 = d / 2 ^ 8 % 64 := rfl

theorem testBit_slice (a pos wid i : Nat) : (a / 2 ^ pos % 2 ^ wid).testBit i = (decide (i < wid) && a.testBit (pos + i)) := by
  rw [Nat.testBit_mod_two_pow, Nat.testBit_div_two_pow, Nat.add_comm]

/-- The field that BFX extracts: bits at or above N read as 0. -/
theorem low_slice_eq_ofBits (n a pos wid : Nat) : low n a / 2 ^ pos % 2 ^ wid = ofBits wid (fun i => decide (pos + i < n) && a.testBit (pos + i)) := by
  refine eq_ofBits (Nat.mod_lt _ (Nat.two_pow_pos wid)) fun i hi => ?_
  rw [testBit_slice, low, Nat.testBit_mod_two_pow]
  simp [hi]

theorem fieldOf_eq (t : IntTy) (a d : Nat) : fieldOf t a d =
    let wid := min (d / 2 ^ 8 % 64) t.n
    let x := ofBits wid (fun i => decide (d % 64 + i < t.n) && a.testBit (d % 64 + i))
    if t.sgn then toInt wid x else (x : Int) := by
  unfold fieldOf
  simp only [bits_desc_pos, bits_desc_width, low_slice_eq_ofBits]

/-- A number whose slice is taken out and replaced. -/
theorem testBit_replace_slice (c pos wid x i : Nat) (hx : x < 2 ^ wid) :
    (c - c / 2 ^ pos % 2 ^ wid * 2 ^ pos + x * 2 ^ pos).testBit i = if pos ≤ i ∧ i < pos + wid then x.testBit (i - pos) else c.testBit i := by
  have hsplit : c - c / 2 ^ pos % 2 ^ wid * 2 ^ pos + x * 2 ^ pos = 2 ^ pos * (2 ^ wid * (c / 2 ^ pos / 2 ^ wid) + x) + c % 2 ^ pos := by
    have h1 := Nat.div_add_mod c (2 ^ pos)
    have h2 := Nat.div_add_mod (c / 2 ^ pos) (2 ^ wid)
    generalize c / 2 ^ pos % 2 ^ wid = m at *
    generalize c / 2 ^ pos / 2 ^ wid = q at *
    generalize c % 2 ^ pos = r at *
    rw [← h1, ← h2, Nat.mul_add, Nat.mul_add, Nat.mul_comm m, Nat.mul_comm x]
    omega
  rw [hsplit, Nat.testBit_two_pow_mul_add _ (Nat.mod_lt _ (Nat.two_pow_pos pos))]
  by_cases hlo : i < pos
  · simp [hlo, Nat.testBit_mod_two_pow, Nat.not_le.mpr hlo]
  · have hpos : pos ≤ i := Nat.not_lt.mp hlo
    rw [if_neg hlo, Nat.testBit_two_pow_mul_add _ hx]
    by_cases hin : i < pos + wid
    · simp [hpos, hin, show i - pos < wid by omega]
    · rw [if_neg (by omega), if_neg (by omega), Nat.testBit_div_two_pow, Nat.testBit_div_two_pow]
      congr 1; omega

theorem insertOf_eq (t : IntTy) (a d c : Nat) : insertOf t a d c =
    ofBits t.n (fun i => if d % 64 ≤ i ∧ i < d % 64 + min (d / 2 ^ 8 % 64) t.n then a.testBit (i - d % 64) else c.testBit i) := by
  unfold insertOf
  simp only [bits_desc_pos, bits_desc_width]
  generalize d % 64 = pos
  generalize min (d / 2 ^ 8 % 64) t.n = wid
  have hbit (i : Nat) := testBit_replace_slice (low t.n c) pos (min wid (t.n - pos)) (low (min wid (t.n - pos)) a) i (low_lt _ _)
  refine Nat.eq_of_testBit_eq fun i => ?_
  rw [hbit, testBit_ofBits, low, low, Nat.testBit_mod_two_pow, Nat.testBit_mod_two_pow]
  by_cases hn : i < t.n
  · by_cases hf : pos ≤ i ∧ i < pos + wid
    · rw [if_pos (by omega), if_pos hf]; simp [hn]; omega
    · rw [if_neg (by omega), if_neg hf]
  · rw [if_neg (by omega)]; simp [hn]

end Sys2Proof.Machine
end

section
/-! What is asked of the writes of a lane word, and the shapes of integer, shuffle and vote words, from their meanings. -/

namespace Sys2Proof.Machine

/-! The writes of a lane word. -/

theorem lwFits_d {f : LW} (h : lwFits f = true) : f.d < 64 := by
  simp only [lwFits, Bool.and_eq_true, decide_eq_true_eq] at h
  obtain ⟨⟨⟨⟨hd, -⟩, -⟩, -⟩, -⟩ := h
  exact hd

/-- The words that share an opcode are told apart by a code besides their fields. -/
theorem lwFits_of_and {f : LW} {c : Bool} (h : (lwFits f && c) = true) : lwFits f = true := (Bool.and_eq_true_iff.mp h).1

/-- The writes of a number to a v register, or to an even pair, and of a list of different mask bits. -/
theorem Writes.plain_wv {wide : Bool} {d : Nat} (x : Nat) {m : List (Nat × Bool)} (fl : Nat) (hd : d < 64) (he : evenIf wide d = true) (hm : (m.map (·.1)).Nodup) :
    Writes.plain ⟨wv wide d x, m, fl⟩ := by
  cases wide with
  | false => exact ⟨by simp [wv, hd], by simp [wv], hm⟩
  | true =>
    have heven : d % 2 = 0 := by simpa [evenIf] using he
    have hd1 : d + 1 < 64 := by omega
    exact ⟨by simp [wv, hd, hd1], by simp [wv], hm⟩

theorem evenIf_false (n : Nat) : evenIf false n = true := rfl

/-- A register or a pair receives a number modulo 2^64 at most. -/
theorem wv_congr (wide : Bool) (d : Nat) {x y : Nat} (h : x % 2 ^ 64 = y % 2 ^ 64) : wv wide d x = wv wide d y := by
  have hlo : BitVec.ofNat 32 x = BitVec.ofNat 32 y := BitVec.eq_of_toNat_eq (by simp only [BitVec.toNat_ofNat]; omega)
  have hhi : BitVec.ofNat 32 (x / 2 ^ 32) = BitVec.ofNat 32 (y / 2 ^ 32) := BitVec.eq_of_toNat_eq (by simp only [BitVec.toNat_ofNat]; omega)
  unfold wv; rw [hlo, hhi]

/-- What each lane of a word writes may be given in other terms. -/
theorem laneWord_congr {i : Instr} {ok : Env → Bool} {see : Env → Option View} {left : Env → View → Env} {wr wr' : Env → View → Nat → Writes}
    (h : laneWord i ok see left wr) (hw : ∀ e w l, wr e w l = wr' e w l) : laneWord i ok see left wr' := by
  rwa [show wr' = wr from (funext fun e => funext fun w => funext fun l => (hw e w l).symm)]

/-! The integer words. -/

theorem intLegal_evenIf_d {f : LW} {wide c : Bool} (h : intLegal f wide c = true) : evenIf wide f.d = true := by
  simp only [intLegal, Bool.and_eq_true] at h
  obtain ⟨⟨⟨⟨-, hd⟩, -⟩, -⟩, -⟩ := h
  exact hd

theorem unaryLegal_evenIf_d {f : LW} {sg c : Bool} (h : unaryLegal f sg c = true) : c = true ∨ evenIf (LW.ty f).wide f.d = true := by
  simp only [unaryLegal, Bool.and_eq_true, Bool.or_eq_true] at h
  exact h.2

theorem descLegal_evenIf_d {f : LW} {c : Bool} (h : descLegal f c = true) : evenIf (LW.ty f).wide f.d = true := by
  simp only [descLegal, Bool.and_eq_true] at h
  obtain ⟨⟨⟨⟨-, hd⟩, -⟩, -⟩, -⟩ := h
  exact hd

/-- A word with two or three integer operands writes the result of its operation. -/
theorem intIs_intWord {i : Instr} {f : LW} {cSrc : Bool} (op : IntTy → Int → Int → Int → Int) (hx : ∀ s, exec i s = intWord f cSrc op s) (hf : wellFormed i = true → lwFits f = true) :
    intIs i f cSrc op :=
  laneWord_run i f.g (fun _ => intLegal f (LW.ty f).wide cSrc) (fun _ => intSrcs f cSrc) _ _ hx (fun _ _ _ => rfl)
    fun hw _ _ _ ho => Writes.plain_wv _ _ (lwFits_d (hf hw)) (intLegal_evenIf_d ho) List.nodup_nil

/-- Another formula for the same word has the same results once they are reduced to the type. -/
theorem intIs_congr {i : Instr} {f : LW} {cSrc : Bool} {op op' : IntTy → Int → Int → Int → Int} (h : intIs i f cSrc op)
    (hop : ∀ a b c, (LW.ty f).wr (op (LW.ty f) a b c) = (LW.ty f).wr (op' (LW.ty f) a b c)) : intIs i f cSrc op' :=
  laneWord_congr h fun e w l => by simp only [hop]

/-- An integer unary word writes the result of its operation. -/
theorem unaryIs_unaryWord {i : Instr} {f : LW} {sg count : Bool} (op : IntTy → Nat → Int) (hx : ∀ s, exec i s = unaryWord f sg count op s) (hf : wellFormed i = true → lwFits f = true) :
    unaryIs i f sg count op := by
  refine laneWord_run i f.g (fun _ => unaryLegal f sg count) (fun _ => unarySrcs f count) _ _ hx (fun _ _ _ => rfl) fun hw e w l ho => ?_
  cases count with
  | true => exact Writes.plain_wv _ _ (lwFits_d (hf hw)) (evenIf_false _) List.nodup_nil
  | false => exact Writes.plain_wv _ _ (lwFits_d (hf hw)) ((unaryLegal_evenIf_d ho).resolve_left Bool.false_ne_true) List.nodup_nil

/-- The operand of a unary word is below 2^N. -/
theorem unaryIs_congr {i : Instr} {f : LW} {sg count : Bool} {op op' : IntTy → Nat → Int} (h : unaryIs i f sg count op) (hop : ∀ a, a < 2 ^ (LW.ty f).n → op (LW.ty f) a = op' (LW.ty f) a) :
    unaryIs i f sg count op' :=
  laneWord_congr h fun e w l => by simp only [hop _ (low_lt _ _)]

/-- A word whose b is a field descriptor writes the result of its operation. -/
theorem fieldIs_descWord {i : Instr} {f : LW} {cSrc : Bool} (op : IntTy → Nat → Nat → Nat → Int) (hx : ∀ s, exec i s = descWord f cSrc op s) (hf : wellFormed i = true → lwFits f = true) :
    fieldIs i f cSrc op :=
  laneWord_run i f.g (fun _ => descLegal f cSrc) (fun _ => descSrcs f cSrc) _ _ hx (fun _ _ _ => rfl)
    fun hw _ _ _ ho => Writes.plain_wv _ _ (lwFits_d (hf hw)) (descLegal_evenIf_d ho) List.nodup_nil

theorem fieldIs_congr {i : Instr} {f : LW} {cSrc : Bool} {op op' : IntTy → Nat → Nat → Nat → Int} (h : fieldIs i f cSrc op)
    (hop : ∀ a d c, op (LW.ty f) a d c = op' (LW.ty f) a d c) : fieldIs i f cSrc op' :=
  laneWord_congr h fun e w l => by simp only [hop]

/-! The cross-lane words. -/

theorem shuffleLegal_evenIf_d {f : LW} (h : shuffleLegal f = true) : evenIf (wideCode f.e.fs) f.d = true := by
  simp only [shuffleLegal, Bool.and_eq_true] at h
  obtain ⟨⟨⟨-, hd⟩, -⟩, -⟩ := h
  exact hd

theorem voteLegal_evenIf_d {e : Env} {f : LW} {kind : Nat} (h : voteLegal e f kind = true) : f.e.bs = true ∨ evenIf (ballotPair e kind) f.d = true := by
  simp only [voteLegal, Bool.and_eq_true, Bool.or_eq_true] at h
  exact h.2

theorem matchLegal_evenIf_d {e : Env} {f : LW} (h : matchLegal e f = true) : evenIf (e.G == 64) f.d = true := by
  simp only [matchLegal, Bool.and_eq_true] at h
  exact h.2

/-- A shuffle takes a of the source lanes that its meaning computes; it sets neither an s register nor the empty flag, so that it leaves what its pops leave. -/
theorem shuffleIs_shuffle {i : Instr} {f : LW} {ok : Bool} {own : List Src} (idx : View → Nat → Int) (hx : ∀ s, exec i s = shuffle f ok own idx s) (hf : wellFormed i = true → lwFits f = true) :
    shuffleIs i f ok own idx := by
  refine laneWord_runX i f.g (fun _ => ok && shuffleLegal f) (fun _ => srcV (wideCode f.e.fs) f.a f.ea ++ own ++ srcFill f) (fun _ => own ++ srcFill f ++ dstV (wideCode f.e.fs) f.d)
    (fun _ w l => w.reads f l (idx w l)) _ (fun _ _ => none) (fun _ => none) false hx (fun _ _ => rfl) fun hw e w l ho => ?_
  obtain ⟨-, hsh⟩ := Bool.and_eq_true_iff.mp ho
  refine Writes.plain_wv _ _ (lwFits_d (hf hw)) (shuffleLegal_evenIf_d hsh) ?_
  split
  · exact List.nodup_nil
  · exact List.nodup_singleton _

theorem shuffleIs_congr {i : Instr} {f : LW} {ok : Bool} {own : List Src} {idx idx' : View → Nat → Int} (h : shuffleIs i f ok own idx) (hidx : ∀ w l, idx w l = idx' w l) : shuffleIs i f ok own idx' := by
  rwa [show idx' = idx from (funext fun w => funext fun l => (hidx w l).symm)]

/-- A vote word writes the result of its meaning, to every lane or to one s register. -/
theorem voteIs_voteWord {i : Instr} {f : LW} {kind : Nat} (result : List (Nat × Nat) → Nat) (hx : ∀ s, exec i s = voteWord f kind result s) (hf : wellFormed i = true → lwFits f = true) :
    voteIs i f kind result := by
  refine laneWord_runX i f.g (fun e => voteLegal e f kind) (fun _ => srcV (wideCode f.e.fs) f.a f.ea) (fun e => if f.e.bs then dstS f.d else dstV (ballotPair e kind) f.d)
    (fun _ => ownReads (wideCode f.e.fs) f) _ (fun _ w => if f.e.bs then some (f.d, BitVec.ofNat 64 (result (w.act.map (fun l => (l, w.reg (wideCode f.e.fs) l f.a))))) else none)
    (fun _ => if f.e.bs then some f.d else none) true hx (fun _ _ => by split <;> rfl) fun hw e w l ho => ?_
  cases hb : f.e.bs with
  | true => simp [Writes.plain]
  | false => exact Writes.plain_wv _ _ (lwFits_d (hf hw)) ((voteLegal_evenIf_d ho).resolve_left (by simp [hb])) List.nodup_nil

/-- A result of a vote counts modulo 2^64: no register that receives it holds more. -/
theorem voteIs_congr {i : Instr} {f : LW} {kind : Nat} {result result' : List (Nat × Nat) → Nat} (h : voteIs i f kind result) (hr : ∀ xs, result xs % 2 ^ 64 = result' xs % 2 ^ 64) :
    voteIs i f kind result' := by
  have hs (xs : List (Nat × Nat)) : BitVec.ofNat 64 (result' xs) = BitVec.ofNat 64 (result xs) := BitVec.eq_of_toNat_eq (by simpa using (hr xs).symm)
  have hv (e : Env) (xs : List (Nat × Nat)) : wv (ballotPair e kind) f.d (result' xs) = wv (ballotPair e kind) f.d (result xs) := wv_congr _ _ (hr xs).symm
  unfold voteIs at h ⊢
  simpa only [hs, hv] using h

/-- A mask count is of the lanes of the group, or of those below each lane. -/
theorem mcountIs_mcountWord {i : Instr} {f : LW} {pre : Bool} {below : Env → Nat → Nat} (hx : ∀ s, exec i s = mcountWord f pre s) (hf : wellFormed i = true → lwFits f = true)
    (hb : ∀ e l, below e l = if pre then l else e.G) : mcountIs i f pre below := by
  refine laneWord_congr (laneWord_runX i f.g (fun _ => mcountLegal f pre) (fun _ => []) (fun _ => dstV false f.d) (fun _ _ _ => []) _ (fun _ _ => none) (fun _ => none) true hx (fun _ _ => rfl) ?_) fun e w l => ?_
  · exact fun hw e w l _ => Writes.plain_wv _ _ (lwFits_d (hf hw)) (evenIf_false _) List.nodup_nil
  · rw [popc_eq_countP, hb]; rfl

end Sys2Proof.Machine
end

section
/-! The statements about integer words (R176 to R180): the operations that spec and model write differently, on the N bits of a type, then each word. -/

namespace Sys2Proof.Machine

/-! Shifts and rotates (R177). -/

/-- A shift or rotate in the model is one of the N bits by B mod N. -/
theorem shiftOp_eq (kind : Nat) {t : IntTy} (hn : t.n ∣ 2 ^ 64) (a b : Int) : shiftOp kind t a b = ((shiftBits kind t.n (ofInt t.n a) (b % t.n).toNat : Nat) : Int) := by
  unfold shiftOp; rw [ofInt_mod_of_dvd hn]

theorem shiftBits_shl (n w sh : Nat) : shiftBits 0 n w sh = low n (low n w * 2 ^ sh) := rfl
theorem shiftBits_shr (n w sh : Nat) : shiftBits 1 n w sh = low n w / 2 ^ sh := rfl
theorem shiftBits_sar (n w sh : Nat) : shiftBits 2 n w sh = ofInt n (toInt n (low n w) / ((2 ^ sh : Nat) : Int)) := rfl
theorem shiftBits_rol (n w sh : Nat) : shiftBits 3 n w sh = low n (low n w * 2 ^ sh) + low n w / 2 ^ (n - sh) := rfl

theorem IntTy.wr_shl {t : IntTy} (hn : t.n ∣ 2 ^ 64) (a b : Int) : t.wr (shiftOp 0 t a b) = t.wr (a * ((2 ^ (b % t.n).toNat : Nat) : Int)) := by
  rw [shiftOp_eq 0 hn, shiftBits_shl, low_ofInt, t.wr_low, Nat.cast_mul, natCast_ofInt]
  exact t.wr_congr (congrArg Int.toNat ((Int.mod_modEq a _).mul_right _))

theorem shiftOp_shr {t : IntTy} (hn : t.n ∣ 2 ^ 64) (a b : Int) : shiftOp 1 t a b = ((ofInt t.n a / 2 ^ (b % t.n).toNat : Nat) : Int) := by
  rw [shiftOp_eq 1 hn, shiftBits_shr, low_ofInt]

theorem IntTy.wr_sar {t : IntTy} (hn : t.n ∣ 2 ^ 64) (a b : Int) : t.wr (shiftOp 2 t a b) = t.wr (toInt t.n (ofInt t.n a) / ((2 ^ (b % t.n).toNat : Nat) : Int)) := by
  rw [shiftOp_eq 2 hn, shiftBits_sar, low_ofInt, t.wr_ofInt]

theorem IntTy.wr_rol {t : IntTy} (hn : t.n ∣ 2 ^ 64) (a b : Int) :
    t.wr (shiftOp 3 t a b) = t.wr ((ofInt t.n a * 2 ^ (b % t.n).toNat + ofInt t.n a / 2 ^ (t.n - (b % t.n).toNat) : Nat) : Int) := by
  rw [shiftOp_eq 3 hn, shiftBits_rol, low_ofInt]
  refine t.wr_congr ?_
  rw [ofInt_natCast, ofInt_natCast]
  exact Nat.mod_add_mod _ _ _

theorem LW.ty_n_dvd (f : LW) : (LW.ty f).n ∣ 2 ^ 64 := intTy_n_dvd _

/-! Division (R178). -/

theorem divide_fst (t : IntTy) (a b : Int) : (divide t a b).1 = if b = 0 then -1 else if t.sgn && a == t.least && b == -1 then a else Int.tdiv a b := by
  unfold divide; split
  · rfl
  · split <;> rfl

/-- The remainder is what the truncated quotient leaves. -/
theorem divide_snd (t : IntTy) (a b : Int) : (divide t a b).2 = if b = 0 then a else if t.sgn && a == t.least && b == -1 then 0 else a - Int.tdiv a b * b := by
  unfold divide; split
  · rfl
  · split
    · rfl
    · rw [Int.tmod_def, Int.mul_comm]

/-- Settles O1: every word is an `intWord`; the formulas of shifts and divisions agree with its operation after reduction to the type. -/
theorem integerResults : Obligations.IntegerResults := by
  unfold Obligations.IntegerResults
  intro f
  have hn := LW.ty_n_dvd f
  refine ⟨?iadd, ?isub, ?imul, ?imulh, ?imad, ?idiv, ?irem, ?imin, ?imax, ?and, ?or, ?xor, ?shl, ?shr, ?sar, ?rol, ?isat⟩
  case shl => exact intIs_congr (intIs_intWord (fun t a b _ => shiftOp 0 t a b) (fun _ => rfl) id) fun a b _ => IntTy.wr_shl hn a b
  case shr => exact intIs_congr (intIs_intWord (fun t a b _ => shiftOp 1 t a b) (fun _ => rfl) id) fun a b _ => congrArg _ (shiftOp_shr hn a b)
  case sar => exact intIs_congr (intIs_intWord (fun t a b _ => shiftOp 2 t a b) (fun _ => rfl) id) fun a b _ => IntTy.wr_sar hn a b
  case rol => exact intIs_congr (intIs_intWord (fun t a b _ => shiftOp 3 t a b) (fun _ => rfl) id) fun a b _ => IntTy.wr_rol hn a b
  case idiv => exact intIs_congr (intIs_intWord (fun t a b _ => (divide t a b).1) (fun _ => rfl) id) fun a b _ => congrArg _ (divide_fst (LW.ty f) a b)
  case irem => exact intIs_congr (intIs_intWord (fun t a b _ => (divide t a b).2) (fun _ => rfl) id) fun a b _ => congrArg _ (divide_snd (LW.ty f) a b)
  all_goals exact intIs_intWord _ (fun _ => rfl) id

/-- The absolute value as IABS takes it. -/
theorem abs_of_sign (x : Int) : (if x < 0 then -x else x) = |x| := by
  split
  · next h => rw [abs_of_neg h]
  · next h => rw [abs_of_nonneg (not_lt.mp h)]

/-- Settles O2: every word is a `unaryWord`; each count and the reversal is read off the bits below N. -/
theorem integerUnary : Obligations.IntegerUnary := by
  unfold Obligations.IntegerUnary
  intro f
  refine ⟨?ineg, ?iabs, ?not, ?popc, ?clz, ?ctz, ?brev⟩
  case ineg => exact unaryIs_unaryWord _ (fun _ => rfl) lwFits_of_and
  case iabs => exact unaryIs_congr (unaryIs_unaryWord (fun t a => if t.val a < 0 then -(t.val a) else t.val a) (fun _ => rfl) lwFits_of_and) fun a _ => abs_of_sign _
  case not => exact unaryIs_unaryWord _ (fun _ => rfl) lwFits_of_and
  case popc => exact unaryIs_congr (unaryIs_unaryWord (fun t a => (popc t.n a : Int)) (fun _ => rfl) lwFits_of_and) fun a _ => congrArg _ (popc_eq_countP (LW.ty f).n a)
  case clz => exact unaryIs_congr (unaryIs_unaryWord (fun t a => (clz t.n a : Int)) (fun _ => rfl) lwFits_of_and) fun _ ha => congrArg _ (clz_eq_findIdx ha)
  case ctz => exact unaryIs_congr (unaryIs_unaryWord (fun t a => (ctz t.n a : Int)) (fun _ => rfl) lwFits_of_and) fun a _ => congrArg _ (ctz_eq_findIdx (LW.ty f).n a)
  case brev => exact unaryIs_congr (unaryIs_unaryWord (fun t a => (brev t.n a : Int)) (fun _ => rfl) lwFits_of_and) fun a _ => congrArg _ (brev_eq_ofBits (LW.ty f).n a)

/-- Settles O3: both words are a `descWord`, and the model's quotients and differences have the bits that R179 gives. -/
theorem bitFields : Obligations.BitFields := by
  unfold Obligations.BitFields
  intro f
  refine ⟨?bfx, ?bfi⟩
  case bfx => exact fieldIs_congr (fieldIs_descWord (fun t a d _ => fieldOf t a d) (fun _ => rfl) id) fun a d _ => fieldOf_eq (LW.ty f) a d
  case bfi => exact fieldIs_congr (fieldIs_descWord (fun t a d c => (insertOf t a d c : Int)) (fun _ => rfl) id) fun a d c => congrArg _ (insertOf_eq (LW.ty f) a d c)

end Sys2Proof.Machine
end

section
/-! The statements about cross-lane words (R197 to R206). -/

namespace Sys2Proof.Machine

/-- PERM's source lane: the own slice's first lane and two bits of the immediate (R201). -/
theorem perm_source (imm l : Nat) : l / 4 * 4 + bits imm (2 * (l % 4)) 2 = l - l % 4 + imm / 4 ^ (l % 4) % 4 := by
  have hsel : bits imm (2 * (l % 4)) 2 = imm / 4 ^ (l % 4) % 4 := by unfold bits; rw [pow_mul]; rfl
  rw [hsel]; omega

/-- Settles O9: every word but SWP.PAIR is a `shuffle`, and PERM's source lane is the one of R201; SWP.PAIR is a cross-lane issue of its own, which writes one v register. -/
theorem shuffles : Obligations.Shuffles := by
  unfold Obligations.Shuffles
  intro f
  refine ⟨?shfl, ?up, ?down, ?xor, ?perm, ?bcast, ?swp⟩
  case perm =>
    exact shuffleIs_congr (shuffleIs_shuffle (fun _ l => ((l / 4 * 4 + bits f.e.imm (2 * (l % 4)) 2 : Nat) : Int)) (fun _ => rfl) id) fun _ l => congrArg _ (perm_source f.e.imm l)
  case swp =>
    refine laneWord_runX (.swpPair f) f.g (fun _ => swpLegal f) (fun _ => srcV false f.a f.ea ++ srcFill f) (fun _ => srcFill f ++ dstV false f.d) (fun _ w l => w.reads f l ((l ^^^ 1 : Nat) : Int)) _
      (fun _ _ => none) (fun _ => none) false (fun _ => rfl) (fun _ _ => rfl) fun hw e w l _ => ?_
    exact Writes.plain_wv _ _ (lwFits_d hw) (evenIf_false _) List.nodup_nil
  all_goals exact shuffleIs_shuffle _ (fun _ => rfl) id

/-! Votes (R204): the model's folds over the active lanes. -/

/-- VOTE's ballot as the model folds it: bit l for each active lane l whose value is not 0. -/
def ballotOf (xs : List (Nat × Nat)) : Nat := xs.foldl (fun a p => if p.2 = 0 then a else a ||| 2 ^ p.1) 0

theorem exec_vote (f : LW) (s : State) : exec (.vote f) s = voteWord f 0 ballotOf s := rfl

theorem ballotOf_eq_foldl (xs : List (Nat × Nat)) : ballotOf xs = ((xs.filter (fun p => p.2 != 0)).map (·.1)).foldl (fun a k => a ||| 2 ^ k) 0 := by
  rw [List.foldl_map, List.foldl_filter, ballotOf]
  congr 1; funext a p; by_cases h : p.2 = 0 <;> simp [h]

/-- A fold over lanes of any number has the bits of the lanes below 64. -/
theorem foldl_or_mod {ks : List Nat} {p : Nat → Bool} (h : ∀ k, k ∈ ks ↔ p k = true) : ks.foldl (fun a k => a ||| 2 ^ k) 0 % 2 ^ 64 = ofBits 64 p % 2 ^ 64 := by
  rw [Nat.mod_eq_of_lt (ofBits_lt 64 p)]
  refine eq_ofBits (Nat.mod_lt _ (Nat.two_pow_pos 64)) fun k hk => ?_
  rw [Nat.testBit_mod_two_pow, testBit_foldl_or, Bool.eq_iff_iff]
  simp [hk, h]

theorem ballotOf_mod (xs : List (Nat × Nat)) : ballotOf xs % 2 ^ 64 = ofBits 64 (fun l => xs.any (fun p => p.1 == l && p.2 != 0)) % 2 ^ 64 := by
  rw [ballotOf_eq_foldl]
  exact foldl_or_mod fun k => by simp [and_comm]

/-- VOTE.UNI as the model computes it: every value is compared with the first. -/
def uniformOf : List (Nat × Nat) → Nat
  | [] => 1
  | x :: r => if r.all (fun p => p.2 == x.2) then 1 else 0

theorem exec_voteUni (f : LW) (s : State) : exec (.voteUni f) s = voteWord f 3 uniformOf s := rfl

/-- All values agree with the first one exactly where they agree with each other. -/
theorem uniformOf_eq (xs : List (Nat × Nat)) : uniformOf xs = if ∀ p ∈ xs, ∀ q ∈ xs, p.2 = q.2 then 1 else 0 := by
  cases xs with
  | nil => simp [uniformOf]
  | cons x r =>
    have hiff : (r.all (fun p => p.2 == x.2)) = true ↔ ∀ p ∈ x :: r, ∀ q ∈ x :: r, p.2 = q.2 := by
      rw [List.all_eq_true]
      constructor
      · intro h
        have hx (p) (hp : p ∈ x :: r) : p.2 = x.2 := by
          rcases List.mem_cons.mp hp with rfl | hp
          · rfl
          · exact beq_iff_eq.mp (h p hp)
        exact fun p hp q hq => (hx p hp).trans (hx q hq).symm
      · exact fun h p hp => beq_iff_eq.mpr (h p (List.mem_cons_of_mem _ hp) x List.mem_cons_self)
    simp only [uniformOf, hiff]

/-- Settles O11: the four votes are a `voteWord`, whose results agree with the formulas in the 64 bits that a register or a pair can receive; the counts are an `mcountWord`; MATCH folds the lanes with an equal value. -/
theorem votes : Obligations.Votes := by
  unfold Obligations.Votes
  intro f
  refine ⟨?vote, ?any, ?all, ?uni, ?mcount, ?pre, ?same⟩
  case vote => exact voteIs_congr (voteIs_voteWord ballotOf (exec_vote f) lwFits_of_and) ballotOf_mod
  case any => exact voteIs_congr (voteIs_voteWord (fun xs => if xs.any (fun p => p.2 != 0) then 1 else 0) (fun _ => rfl) lwFits_of_and) fun _ => congrArg (· % 2 ^ 64) (if_congr (by simp) rfl rfl)
  case all => exact voteIs_congr (voteIs_voteWord (fun xs => if xs.all (fun p => p.2 != 0) then 1 else 0) (fun _ => rfl) lwFits_of_and) fun _ => congrArg (· % 2 ^ 64) (if_congr (by simp) rfl rfl)
  case uni => exact voteIs_congr (voteIs_voteWord uniformOf (exec_voteUni f) lwFits_of_and) fun xs => congrArg (· % 2 ^ 64) (uniformOf_eq xs)
  case mcount => exact mcountIs_mcountWord (fun _ => rfl) lwFits_of_and fun _ _ => rfl
  case pre => exact mcountIs_mcountWord (fun _ => rfl) lwFits_of_and fun _ _ => rfl
  case same =>
    refine laneWord_congr (laneWord_runX (.matchI f) f.g (fun e => matchLegal e f) (fun _ => srcV (wideCode f.e.fs) f.a f.ea) (fun e => dstV (e.G == 64) f.d) (fun _ => ownReads (wideCode f.e.fs) f) _
      (fun _ _ => none) (fun _ => none) true (fun _ => rfl) (fun _ _ => rfl) ?_) fun e w l => ?_
    · exact fun hw e w l ho => Writes.plain_wv _ _ (lwFits_d hw) (matchLegal_evenIf_d ho) List.nodup_nil
    · exact congrArg (fun v => Writes.mk v [] 0) (wv_congr _ _ (foldl_or_mod fun k => by simp))

end Sys2Proof.Machine
end

section
/-! The statements about addresses (R217 to R220) and traps (R236). -/

namespace Sys2Proof.Machine

/-! A per-lane issue some of whose lanes fault in their computation. -/

/-- What a lane writes whose computation may fault: nothing where it does (R171). -/
def runWrites : Except LFault Writes → Writes
  | .ok x => x
  | .error _ => Writes.none

/-- Where such a computation leaves its lane. -/
def runEnd : Except LFault Writes → LaneOut
  | .ok _ => .next
  | .error k => .fault k

theorem Env.keeps_applyAll (e : Env) (ls : List Nat) (wr : Nat → Writes) : e.keeps { e with g := ls.foldl (fun g l => g.apply l (wr l)) e.g } :=
  ⟨rfl, rfl, rfl, foldl_keep (fun g : Group => g.lanes.length) _ (fun g l => by simp) ls e.g⟩

/-- A per-lane issue that can read its sources, as the writes and the outcomes of its lanes. -/
theorem Env.run_eq_finish {e : Env} {gn : Nat} {xs : List Src} {w : View} (f : View → Nat → Except LFault Writes) (hv : e.view? gn xs = some w) :
    e.run gn xs f = Env.finish { e.popped w xs with g := w.act.foldl (fun g l => g.apply l (runWrites (f w l))) (e.popped w xs).g } (e.outs gn (fun l => runEnd (f w l))) := by
  obtain ⟨hw, hread⟩ := Env.view?_spec hv
  have hact : w.act = e.guarded gn := by rw [hw]; rfl
  unfold Env.run Env.outs
  simp only [← hw, hact]
  rw [List.map_congr_left (l := e.guarded gn) (g := fun l => (l, runEnd (f w l), runWrites (f w l))) fun l hl => ?lane]
  case lane =>
    simp only [hread l hl]
    cases f w l <;> rfl
  rw [List.foldl_map]
  congr 1
  refine List.map_congr_left fun l _ => ?_
  rw [find?_map_pair (e.guarded gn) (fun l => (runEnd (f w l), runWrites (f w l))) l]
  by_cases hl : l ∈ e.guarded gn <;> simp [hl]

/-- A per-lane issue that can read its sources closes with the outcome of each lane's computation, and only the lanes whose computation does not fault write. -/
theorem Env.run_closes {e : Env} {s : State} {gn : Nat} {xs : List Src} {w : View} (f : View → Nat → Except LFault Writes) (h : e.ofLanes s) (hv : e.view? gn xs = some w) :
    ∃ t, e.run gn xs f = .next t ∧
      Env.closes { e.popped w xs with g := w.act.foldl (fun g l => g.apply l (runWrites (f w l))) (e.popped w xs).g } t (e.outs gn (fun l => runEnd (f w l))) := by
  rw [Env.run_eq_finish f hv]
  exact Env.finish_keeps h (Env.keeps_trans (e.keeps_popped w xs) (Env.keeps_applyAll _ w.act _)) _ (e.outs_lanes gn _)

/-- What each lane of a word with legal fields writes may be given in other terms. -/
theorem laneWord_congr_legal {i : Instr} {ok : Env → Bool} {see : Env → Option View} {left : Env → View → Env} {wr wr' : Env → View → Nat → Writes}
    (h : laneWord i ok see left wr) (hw : ∀ e w l, ok e = true → wr e w l = wr' e w l) : laneWord i ok see left wr' := by
  intro s e he hf
  obtain ⟨hlegal, hillegal⟩ := h s e he hf
  refine ⟨fun ho w hv => ?_, hillegal⟩
  rw [← show wr e w = wr' e w from funext fun l => hw e w l ho]
  exact hlegal ho w hv

/-! MKA (R217). -/

/-- The offset of an address lies within a segment's range, 0 to 2^40 - 1. -/
abbrev Addr.inRange (a : Addr) : Prop := 0 ≤ a.off ∧ a.off < 2 ^ 40

/-- An address in range is its segment above its offset. -/
theorem addrNat_inRange {a : Addr} (h : a.inRange) : addrNat a = a.seg * 2 ^ 40 + a.off.toNat := by
  have hoff : ofInt 40 a.off = a.off.toNat := congrArg Int.toNat (Int.emod_eq_of_lt h.1 h.2)
  rw [addrNat, addrOf, hoff]

/-- What MKA makes of an address: the number for the pair d, or the fault 0x02. -/
def mkaOf (f : LW) (a : Addr) : Except LFault Writes :=
  if a.off < 0 ∨ 2 ^ 40 ≤ a.off then .error (lf 0x02 (addrNat a) false) else .ok ⟨wv true f.d (addrNat a), [], 0⟩

theorem mkaOf_inRange (f : LW) {a : Addr} (h : a.inRange) : mkaOf f a = .ok ⟨wv true f.d (a.seg * 2 ^ 40 + a.off.toNat), [], 0⟩ := by
  have hno : ¬(a.off < 0 ∨ 2 ^ 40 ≤ a.off) := fun ho => ho.elim (not_lt.mpr h.1) (not_le.mpr h.2)
  rw [mkaOf, if_neg hno, addrNat_inRange h]

theorem mkaOf_outside (f : LW) {a : Addr} (h : ¬ a.inRange) : mkaOf f a = .error (lf 0x02 (addrNat a) false) := by
  rw [mkaOf, if_pos]
  rwa [not_and_or, not_le, not_lt] at h

/-- MKA with legal fields is the per-lane issue of `mkaOf` on the addresses formed. -/
theorem exec_mka {f : LW} {s : State} {e : Env} (h : e.ofLanes s) (hf : mkaLegal f = true) :
    exec (.mka f) s = e.run f.g (memSrcs f ++ dstV true f.d) (fun w l => mkaOf f (w.addr f l)) := by
  show execMka f s = _
  rw [execMka, State.issue_lanes s e h]
  simp only [hf]
  rfl

theorem exec_mka_illegal {f : LW} {s : State} {e : Env} (h : e.ofLanes s) (hf : mkaLegal f = false) : exec (.mka f) s = e.illegal := by
  show execMka f s = _
  rw [execMka, State.issue_lanes s e h]
  simp [hf]

theorem mkaLegal_evenIf_d {f : LW} (h : mkaLegal f = true) : evenIf true f.d = true := by
  simp only [mkaLegal, Bool.and_eq_true] at h
  exact h.2

/-- Every lane of MKA whose offset is in range has the address in its pair d. -/
theorem mka_completes (f : LW) :
    laneWord (.mka f) (fun _ => mkaLegal f)
      (fun e => (e.view? f.g (memSrcs f ++ dstV true f.d)).filter (fun w => w.act.all (fun l => decide (w.addr f l).inRange))) (fun e w => e.popped w (memSrcs f ++ dstV true f.d))
      (fun _ w l => ⟨wv true f.d ((w.addr f l).seg * 2 ^ 40 + (w.addr f l).off.toNat), [], 0⟩) := by
  intro s e h hwf
  refine ⟨fun ho w hv => ?_, exec_mka_illegal h⟩
  obtain ⟨hview, hin⟩ := Option.filter_eq_some_iff.mp hv
  have hact : w.act = e.guarded f.g := by rw [(Env.view?_spec hview).1]; rfl
  rw [exec_mka h ho]
  refine Env.run_result e s f.g _ _ w _ h hview (fun l hl => mkaOf_inRange f ?_) fun l _ => Writes.plain_wv _ _ (lwFits_d hwf) (mkaLegal_evenIf_d ho) List.nodup_nil
  exact of_decide_eq_true (List.all_eq_true.mp hin l (hact ▸ hl))

/-- A lane of MKA whose offset is outside the range faults with 0x02 and writes nothing; the others complete. -/
theorem mka_closes {f : LW} {s : State} {e : Env} {w : View} (h : e.ofLanes s) (ho : mkaLegal f = true) (hv : e.view? f.g (memSrcs f ++ dstV true f.d) = some w) :
    let inside (l : Nat) : Bool := decide (w.addr f l).inRange
    let e1 := e.popped w (memSrcs f ++ dstV true f.d)
    ∃ t, exec (.mka f) s = .next t ∧
      Env.closes { e1 with g := w.act.foldl (fun g l => g.apply l (if inside l then ⟨wv true f.d ((w.addr f l).seg * 2 ^ 40 + (w.addr f l).off.toNat), [], 0⟩ else Writes.none)) e1.g } t
        (e.outs f.g (fun l => if inside l then .next else .fault (lf 0x02 (addrNat (w.addr f l)) false))) := by
  intro inside e1
  have hmka (l : Nat) : runWrites (mkaOf f (w.addr f l)) = (if inside l then ⟨wv true f.d ((w.addr f l).seg * 2 ^ 40 + (w.addr f l).off.toNat), [], 0⟩ else Writes.none) ∧
      runEnd (mkaOf f (w.addr f l)) = if inside l then .next else .fault (lf 0x02 (addrNat (w.addr f l)) false) := by
    by_cases hin : (w.addr f l).inRange
    · simp only [inside, mkaOf_inRange f hin, decide_eq_true hin, if_true]; exact ⟨rfl, rfl⟩
    · simp only [inside, mkaOf_outside f hin, decide_eq_false hin, Bool.false_eq_true, if_false]; exact ⟨rfl, rfl⟩
  rw [exec_mka h ho]
  simpa only [hmka] using Env.run_closes (fun w l => mkaOf f (w.addr f l)) h hv

/-! CHKA (R220). -/

/-- The access kinds that CHKA names are the three bits of its subop. -/
theorem chkaLegal_bits {f : LW} (h : chkaLegal f = true) :
    (f.e.subop % 2 == 1) = f.e.subop.testBit 0 ∧ (f.e.subop / 2 % 2 == 1) = f.e.subop.testBit 1 ∧ (f.e.subop / 4 == 1) = f.e.subop.testBit 2 := by
  have hkinds : f.e.subop ∈ [1, 2, 3, 6, 7] := by
    simp only [chkaLegal, Bool.and_eq_true] at h
    exact List.contains_iff_mem.mp h.2
  generalize f.e.subop = n at hkinds
  revert n
  decide

/-- What CHKA writes for a lane, from the kinds of access that it asks about: the code of the first of checks 1 to 6 that would fail, or 0. -/
def chkaWrites (f : LW) (e : Env) (w : View) (l : Nat) (rd wr at_ : Bool) : Writes :=
  ⟨wv false f.d (match e.s.checks16 e.u (memReq (w.addr f l) (sizeBytes f.e.fs) (sizeBytes f.e.fs) rd wr at_ .cells) with | .error b => b.code | .ok _ => 0), [], 0⟩

/-- CHKA, with the kinds of access as the model computes them from its subop. -/
theorem chka_computes (f : LW) :
    laneWord (.chka f) (fun _ => chkaLegal f) (fun e => e.view? f.g (memSrcs f ++ dstV false f.d)) (fun e w => e.popped w (memSrcs f ++ dstV false f.d))
      (fun e w l => chkaWrites f e w l (f.e.subop % 2 == 1) (f.e.subop / 2 % 2 == 1) (f.e.subop / 4 == 1)) :=
  laneWord_run (.chka f) f.g (fun _ => chkaLegal f) (fun _ => memSrcs f ++ dstV false f.d) _ _ (fun _ => rfl) (fun _ _ _ => rfl)
    fun hw _ _ _ _ => Writes.plain_wv _ _ (lwFits_d hw) (evenIf_false _) List.nodup_nil

/-- Settles O12: the words but MKA compute one number for every lane or nothing; MKA's lanes are split by the range of their offset, and CHKA's access kinds are read off its subop's bits. -/
theorem addresses : Obligations.Addresses := by
  unfold Obligations.Addresses
  intro f
  refine ⟨mka_completes f, fun s e w h _ ho hv => mka_closes h ho hv, ?segno, ?segof, ?pref, ?chka⟩
  case segno =>
    exact laneWord_run (.segno f) f.g (fun _ => segForm f) (fun _ => srcV true f.a false ++ dstV false f.d) _ _ (fun _ => rfl) (fun _ _ _ => rfl)
      fun hw _ _ _ _ => Writes.plain_wv _ _ (lwFits_d hw) (evenIf_false _) List.nodup_nil
  case segof =>
    exact laneWord_run (.segof f) f.g (fun _ => segForm f && f.d % 2 == 0) (fun _ => srcV true f.a false ++ dstV true f.d) _ _ (fun _ => rfl) (fun _ _ _ => rfl)
      fun hw _ _ _ ho => Writes.plain_wv _ _ (lwFits_d hw) (Bool.and_eq_true_iff.mp ho).2 List.nodup_nil
  case pref =>
    exact laneWord_run (.pref f) f.g (fun _ => prefLegal f) (fun _ => memSrcs f) _ _ (fun _ => rfl) (fun _ _ _ => rfl)
      fun _ _ _ _ _ => ⟨by simp, List.nodup_nil, List.nodup_nil⟩
  case chka =>
    refine laneWord_congr_legal (chka_computes f) fun e w l ho => ?_
    obtain ⟨hread, hwrite, hatomic⟩ := chkaLegal_bits ho
    show _ = chkaWrites f e w l (f.e.subop.testBit 0) (f.e.subop.testBit 1) (f.e.subop.testBit 2)
    rw [hread, hwrite, hatomic]

/-! Traps (R236). -/

theorem Env.keeps_enter (e : Env) (ls : List Nat) (r : Nat) : e.keeps { e with g := e.g.enter ls r } := ⟨rfl, rfl, rfl, Group.enter_lanes e.g ls r⟩

/-- A word that makes a region entry for its guarded lanes and comes to one outcome for all of them. -/
theorem outWord_enter (i : Instr) (gn : Nat) (ok : Env → Bool) (resume : Env → Nat) (o : LaneOut)
    (hx : ∀ s, exec i s = s.issue (fun e => if !(ok e) then e.illegal else Env.finish { e with g := e.g.enter (e.guarded gn) (resume e) } (e.outs gn (fun _ => o)))) :
    outWord i ok (fun _ => false) (fun e => { e with g := e.g.enter (e.guarded gn) (resume e) }) (fun e => e.outs gn (fun _ => o)) (fun _ t => t) :=
  outWord_finish i ok _ _ _ _ hx (fun e => e.keeps_enter _ _) fun e => e.outs_lanes gn _

/-- Settles O20: both words are a region entry, at the word or after it, and one fault for every guarded lane. -/
theorem traps : Obligations.Traps := by
  unfold Obligations.Traps
  intro f
  refine ⟨?bkpt, ?trapu⟩
  case bkpt => exact outWord_enter (.bkpt f) f.g (fun _ => controlOk f) (fun e => e.c.pc) (.fault (lf 0x13 0 false)) fun _ => rfl
  case trapu => exact outWord_enter (.trapu f) f.g (fun _ => trapuLegal f) (fun e => e.next) (.fault (lf 0x14 f.e.imm false)) fun _ => rfl

end Sys2Proof.Machine
end

section
/-! The statement about group arithmetic (R266): the model's operations on numbers are those of 64-bit words, and every ALU word is `aluWord` in one of three forms. -/

namespace Sys2Proof.Machine

/-! The numbers of R136 as words of bits. -/

theorem toInt_toNat {n : Nat} (x : BitVec n) : toInt n x.toNat = x.toInt := by
  unfold toInt
  rw [Nat.mod_eq_of_lt x.isLt, BitVec.toInt_eq_toNat_cond]
  cases n with
  | zero => simp [Subsingleton.elim x 0#0]
  | succ n =>
    have hhalf : x.toNat < 2 ^ (n + 1 - 1) ∨ n + 1 = 0 ↔ 2 * x.toNat < 2 ^ (n + 1) := by
      rw [Nat.add_sub_cancel, Nat.pow_succ]; omega
    simp only [hhalf]

/-- A number stands for the word of bits that it is the number of. -/
theorem ofNat_of_toNat_eq {n x : Nat} {y : BitVec n} (h : y.toNat = x) : BitVec.ofNat n x = y := by
  rw [← h, BitVec.ofNat_toNat, BitVec.setWidth_eq]

theorem ofNat_ofInt (n : Nat) (x : Int) : BitVec.ofNat n (ofInt n x) = BitVec.ofInt n x := ofNat_of_toNat_eq (BitVec.toNat_ofInt x)

theorem low_toNat {n : Nat} (x : BitVec n) : low n x.toNat = x.toNat := Nat.mod_eq_of_lt x.isLt

/-- Sign extension of a literal is that of its bits (R22). -/
theorem ofNat_toInt_signExtend (n w x : Nat) : BitVec.ofNat w (ofInt w (toInt n x)) = (BitVec.ofNat n x).signExtend w := by
  have hbits : toInt n x = (BitVec.ofNat n x).toInt := by
    rw [← toInt_toNat, BitVec.toNat_ofNat]; unfold toInt; rw [Nat.mod_mod]
  rw [ofNat_ofInt, hbits]; rfl

/-! The operations of R266. -/

theorem ofNat_sub (a b : DWord) : BitVec.ofNat 64 (ofInt 64 ((a.toNat : Int) - (b.toNat : Int))) = a - b := by
  refine ofNat_of_toNat_eq ?_
  rw [BitVec.toNat_sub, ofInt]
  omega

theorem ofNat_shl (a : DWord) (k : Nat) : BitVec.ofNat 64 (shiftBits 0 64 a.toNat k) = a <<< k := by
  rw [shiftBits_shl, low_toNat, ← Nat.shiftLeft_eq]
  exact ofNat_of_toNat_eq BitVec.toNat_shiftLeft

theorem ofNat_shr (a : DWord) (k : Nat) : BitVec.ofNat 64 (shiftBits 1 64 a.toNat k) = a >>> k := by
  rw [shiftBits_shr, low_toNat, ← Nat.shiftRight_eq_div_pow]
  exact ofNat_of_toNat_eq (BitVec.toNat_ushiftRight a k)

theorem ofNat_sar (a : DWord) (k : Nat) : BitVec.ofNat 64 (shiftBits 2 64 a.toNat k) = a.sshiftRight k := by
  rw [shiftBits_sar, low_toNat, ofNat_ofInt, toInt_toNat, ← Int.shiftRight_eq_div_pow]; rfl

/-- The lesser or the greater of two words is one of them. -/
theorem ofNat_ite (p : Prop) [Decidable p] (a b : DWord) : BitVec.ofNat 64 (if p then a.toNat else b.toNat) = if p then a else b :=
  ofNat_of_toNat_eq (apply_ite BitVec.toNat p a b)

/-! The words. -/

/-- The second operand of a group ALU word in a form, as a word of bits (R266). -/
def GForm.operand (k : GForm) (g : Group) (f : GW) : DWord :=
  match k with
  | .gr => g.getS f.b
  | .gi => BitVec.ofInt 64 f.imm
  | .gl => (BitVec.ofNat 32 f.gx).signExtend 64

theorem GForm.ofNat_value (k : GForm) (g : Group) (f : GW) : BitVec.ofNat 64 (k.value g f) = k.operand g f := by
  cases k with
  | gr => exact ofNat_of_toNat_eq rfl
  | gi => exact ofNat_ofInt 64 f.imm
  | gl => exact ofNat_toInt_signExtend 32 64 f.gx

theorem GForm.value_eq (k : GForm) (g : Group) (f : GW) : k.value g f = (k.operand g f).toNat := by
  have hlt : k.value g f < 2 ^ 64 := by
    cases k with
    | gr => exact (g.getS f.b).isLt
    | gi => exact ofInt_lt 64 _
    | gl => exact ofInt_lt 64 _
  rw [← k.ofNat_value, BitVec.toNat_ofNat, Nat.mod_eq_of_lt hlt]

/-- A group ALU word of a form, its operation given on words of bits. -/
theorem groupWord_aluWord {i : Instr} {f : GW} {k : GForm} {op : Nat → Nat → Nat} {bop : DWord → DWord → DWord} (hx : ∀ s, exec i s = aluWord f k op s)
    (hop : ∀ a b : DWord, BitVec.ofNat 64 (op a.toNat b.toNat) = bop a b) :
    groupWord i (fun _ => k.ok f) (fun _ => [f.a, f.d] ++ k.reads f) (fun e => { e with g := e.g.putS f.d (bop (e.g.getS f.a) (k.operand e.g f)) }) Env.next := by
  refine groupWord_next i _ _ _ _ (fun s => ?_) fun _ => ⟨rfl, rfl, rfl⟩
  rw [hx, aluWord]
  simp only [GForm.value_eq, hop]
  rfl

/-- A group ALU word in its three forms. -/
theorem aluIs_aluWord {gr gi gl : GW → Instr} (op : Nat → Nat → Nat) {bop : DWord → DWord → DWord} (hr : ∀ f s, exec (gr f) s = aluWord f .gr op s)
    (hi : ∀ f s, exec (gi f) s = aluWord f .gi op s) (hl : ∀ f s, exec (gl f) s = aluWord f .gl op s) (hop : ∀ a b : DWord, BitVec.ofNat 64 (op a.toNat b.toNat) = bop a b) : aluIs gr gi gl bop :=
  fun f => ⟨groupWord_aluWord (hr f) hop, groupWord_aluWord (hi f) hop, groupWord_aluWord (hl f) hop⟩

/-- SMOVI in a form. -/
theorem groupWord_smoviWord {i : Instr} {f : GW} {k : GForm} {ok : Bool} (hx : ∀ s, exec i s = smoviWord f k s) (hok : (k.ok f && f.a == 0) = ok) :
    groupWord i (fun _ => ok) (fun _ => [f.d]) (fun e => { e with g := e.g.putS f.d (k.operand e.g f) }) Env.next := by
  refine groupWord_next i _ _ _ _ (fun s => ?_) fun _ => ⟨rfl, rfl, rfl⟩
  rw [hx, smoviWord, hok]
  simp only [GForm.ofNat_value]
  rfl

/-- Settles O28: every ALU word is an `aluWord` whose operation on numbers is that of 64-bit words. -/
theorem groupArithmetic : Obligations.GroupArithmetic := by
  unfold Obligations.GroupArithmetic
  refine ⟨?sadd, ?ssub, ?smul, ?sand, ?sor, ?sxor, ?sshl, ?sshrN, ?sshrI, ?sminI, ?sminN, ?smaxI, ?smaxN, fun f => ⟨?smov, ?smoviGi, ?smoviGl⟩⟩
  case sadd => exact aluIs_aluWord (fun a b => low 64 (a + b)) (fun _ _ => rfl) (fun _ _ => rfl) (fun _ _ => rfl) fun a b => ofNat_of_toNat_eq (BitVec.toNat_add a b)
  case ssub => exact aluIs_aluWord (fun a b => ofInt 64 ((a : Int) - (b : Int))) (fun _ _ => rfl) (fun _ _ => rfl) (fun _ _ => rfl) ofNat_sub
  case smul => exact aluIs_aluWord (fun a b => low 64 (a * b)) (fun _ _ => rfl) (fun _ _ => rfl) (fun _ _ => rfl) fun a b => ofNat_of_toNat_eq (BitVec.toNat_mul a b)
  case sand => exact aluIs_aluWord (fun a b => a &&& b) (fun _ _ => rfl) (fun _ _ => rfl) (fun _ _ => rfl) fun a b => ofNat_of_toNat_eq (BitVec.toNat_and a b)
  case sor => exact aluIs_aluWord (fun a b => a ||| b) (fun _ _ => rfl) (fun _ _ => rfl) (fun _ _ => rfl) fun a b => ofNat_of_toNat_eq (BitVec.toNat_or a b)
  case sxor => exact aluIs_aluWord (fun a b => a ^^^ b) (fun _ _ => rfl) (fun _ _ => rfl) (fun _ _ => rfl) fun a b => ofNat_of_toNat_eq (BitVec.toNat_xor a b)
  case sshl => exact aluIs_aluWord (fun a b => shiftBits 0 64 a (b % 64)) (fun _ _ => rfl) (fun _ _ => rfl) (fun _ _ => rfl) fun a _ => ofNat_shl a _
  case sshrN => exact aluIs_aluWord (fun a b => shiftBits 1 64 a (b % 64)) (fun _ _ => rfl) (fun _ _ => rfl) (fun _ _ => rfl) fun a _ => ofNat_shr a _
  case sshrI => exact aluIs_aluWord (fun a b => shiftBits 2 64 a (b % 64)) (fun _ _ => rfl) (fun _ _ => rfl) (fun _ _ => rfl) fun a _ => ofNat_sar a _
  case sminI => exact aluIs_aluWord (fun a b => if toInt 64 a ≤ toInt 64 b then a else b) (fun _ _ => rfl) (fun _ _ => rfl) (fun _ _ => rfl) fun a b => by simp only [toInt_toNat, ofNat_ite]
  case sminN => exact aluIs_aluWord (fun a b => min a b) (fun _ _ => rfl) (fun _ _ => rfl) (fun _ _ => rfl) fun a b => ofNat_ite (a.toNat ≤ b.toNat) a b
  case smaxI => exact aluIs_aluWord (fun a b => if toInt 64 a ≤ toInt 64 b then b else a) (fun _ _ => rfl) (fun _ _ => rfl) (fun _ _ => rfl) fun a b => by simp only [toInt_toNat, ofNat_ite]
  case smaxN => exact aluIs_aluWord (fun a b => max a b) (fun _ _ => rfl) (fun _ _ => rfl) (fun _ _ => rfl) fun a b => ofNat_ite (a.toNat ≤ b.toNat) b a
  case smov => exact groupWord_next (.smov f) _ _ _ _ (fun _ => rfl) fun _ => ⟨rfl, rfl, rfl⟩
  case smoviGi => exact groupWord_smoviWord (k := .gi) (fun _ => rfl) rfl
  case smoviGl => exact groupWord_smoviWord (k := .gl) (fun _ => rfl) ((Bool.and_comm _ _).trans (Bool.and_assoc _ _ _).symm)

end Sys2Proof.Machine
end

section
/-! The statement about whole tiles, edge masks and panels (R243, R253 to R259). -/

namespace Sys2Proof.Machine

/-! Tiles (R243). -/

/-- The words of two tiles stand apart. -/
theorem tile_of_key {t k w : Nat} (hw : w < 4096) : (4096 * t ≤ 4096 * k + w ∧ 4096 * k + w < 4096 * t + 4096) ↔ k = t := by omega

theorem WorkUnit.tileWord_zeroTile (u : WorkUnit) (t k : Nat) {w : Nat} (hw : w < 4096) : (u.zeroTile t).tileWord k w = if k = t then 0 else u.tileWord k w := by
  unfold WorkUnit.zeroTile WorkUnit.tileWord
  rw [SMap.get_filter 0 u.tiles (fun n => !(decide (4096 * t ≤ n ∧ n < 4096 * t + 4096)))]
  simp only [tile_of_key hw]
  by_cases h : k = t <;> simp [h]

theorem WorkUnit.fillTile_uid (u : WorkUnit) (t : Nat) (x : Nat → Word) : (u.fillTile t x).uid = u.uid :=
  foldl_keep WorkUnit.uid (fun (u : WorkUnit) w => u.setTileWord t w (x w)) (fun _ _ => rfl) _ u

theorem WorkUnit.fillTile_groups (u : WorkUnit) (t : Nat) (x : Nat → Word) : (u.fillTile t x).groups = u.groups :=
  foldl_keep WorkUnit.groups (fun (u : WorkUnit) w => u.setTileWord t w (x w)) (fun _ _ => rfl) _ u

/-! What a group word keeps of its issue. -/

theorem Env.keepsG_refl (e : Env) : e.keepsG e := ⟨rfl, rfl, rfl⟩

theorem Env.keepsG_trans {e e1 e2 : Env} (h : e.keepsG e1) (k : e1.keepsG e2) : e.keepsG e2 := ⟨k.1.trans h.1, k.2.1.trans h.2.1, k.2.2.trans h.2.2⟩

theorem Env.keepsEnd_trans {e e1 : Env} {x : GroupEnd} (h : e.keepsG e1) (hx : e1.keepsEnd x) : e.keepsEnd x := by
  cases x with
  | wait => trivial
  | stays _ => trivial
  | fault _ _ => exact Env.keepsG_trans h hx
  | goes _ _ => exact Env.keepsG_trans h hx

theorem Env.keepsG_touched (e : Env) (ls : List Nat) (a : Acc) (b : Bool) : e.keepsG (e.touched ls a b) := by
  obtain ⟨-, huid, hgroups, -⟩ := e.keeps_touched ls a b
  exact ⟨rfl, huid, hgroups⟩

/-! The meaning of a group word, as a function of its issue. -/

/-- An issue acts in the environment that stands in the package only. -/
theorem State.issue_congr {s : State} {k k' : Env → Out} (h : ∀ e, s.env? = some e → k e = k' e) : s.issue k = s.issue k' := by
  unfold State.issue
  cases he : s.env? with
  | none => rfl
  | some e => simp only [h e he]

/-- A group word whose meaning is the outcome of an end, after its fields and its s registers. -/
theorem groupCase_of_issue {i : Instr} {ok : Env → Bool} {ss : Env → List Nat} {k : Env → GroupEnd} (body : State → Env → Out) (hx : ∀ s, exec i s = s.issue (body s))
    (hbad : ∀ s e, s.env? = some e → ok e = false → body s e = e.groupIllegal) (hok : ∀ s e, s.env? = some e → ok e = true → body s e = e.whenFull (ss e) ((k e).out e.s))
    (hk : ∀ e : Env, e.keepsEnd (k e)) : groupCase i ok ss k := by
  refine groupCase_ends i ok ss k (fun e => (k e).out e.s) (fun s => ?_) (fun _ _ => rfl) hk
  rw [hx]
  refine State.issue_congr fun e he => ?_
  cases ho : ok e with
  | false => exact hbad s e he ho
  | true => exact hok s e he ho

/-- A word that changes its unit and its group and goes on. -/
theorem Env.groupNext_goes (e : Env) (s : State) (u : WorkUnit) (g : Group) : Env.groupNext { e with u := u, g := g } = (GroupEnd.goes { e with u := u, g := g } e.next).out s := rfl

/-! Words at their turn (R244). -/

/-- The issue with other operations in the queues of its unit. -/
def Env.withOps (e : Env) (ops : List HeavyOp) : Env := { e with u := { e.u with ops := ops } }

theorem Env.keepsG_withOps (e : Env) (ops : List HeavyOp) : e.keepsG (e.withOps ops) := ⟨rfl, rfl, rfl⟩

/-- A word whose turn it is leaves the queues and nothing else. -/
theorem Env.turn_go {e e1 : Env} {i : Instr} {heavy : Bool} {ls : List Nat} {n : Nat} (h : e.turn i heavy ls = .go e1 n) : ∃ ops, e1 = e.withOps ops := by
  unfold Env.turn at h
  simp only [] at h
  split at h
  · split at h
    · cases h
    · injection h with h1; exact ⟨_, h1.symm⟩
  · split at h
    · cases h
    · injection h with h1; exact ⟨e.u.ops, h1.symm⟩

theorem Env.keepsEnd_turnEnd {e : Env} {i : Instr} {k : Env → GroupEnd} (hk : ∀ ops, (e.withOps ops).keepsEnd (k (e.withOps ops))) : e.keepsEnd (e.turnEnd i k) := by
  unfold Env.turnEnd
  cases ht : e.turn i false e.g.liveLanes with
  | wait => trivial
  | queue e1 => trivial
  | go e1 n =>
    obtain ⟨ops, rfl⟩ := Env.turn_go ht
    exact Env.keepsEnd_trans (e.keepsG_withOps ops) (hk ops)

theorem Env.keepsEnd_tileEnd {e : Env} {i : Instr} {k : Env → GroupEnd} (hk : ∀ ops, (e.withOps ops).keepsEnd (k (e.withOps ops))) : e.keepsEnd (e.tileEnd i k) := by
  unfold Env.tileEnd
  split
  · exact e.keepsG_refl
  · exact Env.keepsEnd_turnEnd hk

/-- A meaning at its turn is the outcome of its end there. -/
theorem Env.inTurn_eq_turnEnd {e : Env} {i : Instr} {K : Env → Out} {k : Env → GroupEnd} (h : ∀ ops, K (e.withOps ops) = (k (e.withOps ops)).out e.s) :
    e.inTurn i e.g.liveLanes K = (e.turnEnd i k).out e.s := by
  unfold Env.inTurn Env.inLine Env.turnEnd
  cases ht : e.turn i false e.g.liveLanes with
  | wait => rfl
  | queue e1 => rfl
  | go e1 n =>
    obtain ⟨ops, rfl⟩ := Env.turn_go ht
    exact h ops

/-- A word on tiles is one at its turn where the unit holds the matrix set (R242). -/
theorem Env.tiles_eq_tileEnd {e : Env} {i : Instr} {K : Env → Out} {k : Env → GroupEnd} (h : ∀ ops, K (e.withOps ops) = (k (e.withOps ops)).out e.s) :
    e.tiles i K = (e.tileEnd i k).out e.s := by
  unfold Env.tiles Env.tileEnd
  cases e.holdsMx with
  | false => rfl
  | true => exact Env.inTurn_eq_turnEnd h

/-- A word on whole tiles, which reads no s register. -/
theorem groupCase_tiles {i : Instr} {ok : Env → Bool} {k : Env → GroupEnd} (K : Env → Env → Out) (hx : ∀ s, exec i s = s.issue (fun e => if !(ok e) then e.groupIllegal else e.tiles i (K e)))
    (hK : ∀ e ops, ok e = true → K e (e.withOps ops) = (k (e.withOps ops)).out e.s) (hk : ∀ e : Env, e.keepsEnd (k e)) : groupCase i ok (fun _ => []) (fun e => e.tileEnd i k) :=
  groupCase_ends i ok _ _ (fun e => e.tiles i (K e)) hx (fun e ho => Env.tiles_eq_tileEnd fun ops => hK e ops ho) fun _ => Env.keepsEnd_tileEnd fun _ => hk _

theorem keepsEnd_fillTile (e : Env) (t : Nat) (x : Nat → Word) (g : Group) (pc : Nat) : e.keepsEnd (.goes { e with u := e.u.fillTile t x, g := g } pc) :=
  ⟨rfl, e.u.fillTile_uid t x, congrArg List.length (e.u.fillTile_groups t x)⟩

/-- The fields of TCVT are legal where the slot that f6 names converts to a floating format of a tile (R254). -/
theorem exec_tcvt (f : GW) (s : State) : exec (.tcvt f) s = s.issue (fun e =>
    if !(decide (f.d < 8) && decide (f.a < 8) && f.b == 0 && decide (f.f6 < 8) && (e.slot f.f6).any (fun k => decide (k.code < 4))) then e.groupIllegal else
    e.tiles (.tcvt f) (fun e1 => Env.groupNext { e1 with u := e1.u.fillTile f.d (fun w => (tcvtWord (e.slotD f.f6) e1.u f.a w).1),
                                                          g := e1.g.raise ((List.range 4096).foldl (fun x w => x ||| (tcvtWord (e.slotD f.f6) e1.u f.a w).2) 0) })) := by
  refine State.issue_congr (s := s) fun e _ => ?_
  unfold Env.slotD
  cases decide (f.d < 8) && decide (f.a < 8) && f.b == 0 && decide (f.f6 < 8) with
  | false => rfl
  | true =>
    cases e.slot f.f6 with
    | none => rfl
    | some k =>
      by_cases hk : k.code < 4
      · simp [hk, Nat.not_le.mpr hk]
      · simp [hk, Nat.not_lt.mp hk]

/-! Edge masks (R256). -/

/-- A Y or X mask set. -/
def WorkUnit.putMask (u : WorkUnit) (y : Bool) (n : Nat) (x : DWord) : WorkUnit := if y then { u with ym := u.ym.set n x } else { u with xm := u.xm.set n x }

theorem WorkUnit.putMask_uid (u : WorkUnit) (y : Bool) (n : Nat) (x : DWord) : (u.putMask y n x).uid = u.uid := by cases y <;> rfl
theorem WorkUnit.putMask_groups (u : WorkUnit) (y : Bool) (n : Nat) (x : DWord) : (u.putMask y n x).groups = u.groups := by cases y <;> rfl

theorem State.sOf_eq {s : State} {e : Env} (h : s.env? = some e) (n : Nat) : s.sOf n = e.g.getS n := by
  unfold State.sOf; rw [h]

/-- A word that sets a mask of either kind. -/
theorem groupCase_maskWord {i : Instr} {f : GW} (y first : Bool) (hx : ∀ s, exec i s = maskWord f (fun u => u.putMask y f.d (maskVal first (s.sOf f.a))) s) :
    groupCase i (fun _ => decide (f.d < 4) && f.b == 0) (fun e => if e.holdsMx then [f.a] else [])
      (fun e => if e.holdsMx = false then .fault e (lf 0x04 0 false) else .goes { e with u := e.u.putMask y f.d (maskVal first (e.g.getS f.a)) } e.next) := by
  refine groupCase_of_issue _ hx (fun s e _ ho => ?_) (fun s e he ho => ?_) fun e => ?_
  · simp only [ho, Bool.not_false, if_true]
  · simp only [ho, Bool.not_true, Bool.false_eq_true, if_false, State.sOf_eq he]
    cases e.holdsMx with
    | false => rfl
    | true => rfl
  · split
    · exact e.keepsG_refl
    · exact ⟨rfl, e.u.putMask_uid .., congrArg List.length (e.u.putMask_groups ..)⟩

/-! Panels (R257, R259). -/

/-- A read within a word's own step leaves its issue as it is where its bytes are at hand. -/
theorem Env.readNow_got {e e1 : Env} {ls : List Nat} {acc : Acc} {a : Nat} {bs : List Byte} (h : e.readNow ls acc a = .got e1 bs) : e1 = e := by
  unfold Env.readNow at h
  split at h
  · split at h
    · injection h with h1; exact h1.symm
    · cases h
    · cases h
    · split at h <;> cases h
  · split at h
    · cases h
    · injection h with h1; exact h1.symm

/-- The length that WBLD reads: by its mode, from the slot it names (R257). -/
def Env.panelLen? (e : Env) (f : GW) : Option Nat := (e.slot (f.f6 / 4)).bind (panelLen (f.f6 % 4))

/-- What WBLD comes to at its turn `e0`, its access checked: it waits for the group's earlier accesses, and where its bytes are at hand and their indices in order it leaves the panel (R257, R258). -/
def wbldAt (f : GW) (e : Env) (acc : Acc) (e0 : Env) : GroupEnd :=
  if e.g.inflight ≠ [] ∨ e.g.acqs ≠ [] then .wait else
  match e0.readNow e0.g.liveLanes acc (addrNat (ofBase (e.g.getS f.a).toNat 0)) with
  | .wait e1 => .stays { e1 with u := e.u }
  | .fail q => .fault e0 q
  | .got e1 bs =>
    if f.f6 % 4 = 1 ∧ quadsOk bs = false then .fault e0 (lf 0x04 (addrNat (ofBase (e.g.getS f.a).toNat 0)) false) else
    let e2 := e1.touched e.g.liveLanes acc true
    .goes { e2 with u := { e2.u with panels := e2.u.panels.set f.d (panelOf (f.f6 % 4) (recSlot e.u.record (f.f6 / 4)) bs) } } e.next

theorem keepsEnd_wbldAt (f : GW) (e : Env) (acc : Acc) (e0 : Env) : e0.keepsEnd (wbldAt f e acc e0) := by
  unfold wbldAt
  split
  · trivial
  · cases hread : e0.readNow e0.g.liveLanes acc (addrNat (ofBase (e.g.getS f.a).toNat 0)) with
    | wait e1 => trivial
    | fail q => exact e0.keepsG_refl
    | got e1 bs =>
      obtain rfl := Env.readNow_got hread
      simp only []
      split
      · exact e1.keepsG_refl
      · exact e1.keepsG_touched e.g.liveLanes acc true

/-- What WBLD comes to with legal fields and a full s register: a fault, or its end at its turn. -/
def wbldEnd (f : GW) (e : Env) : GroupEnd :=
  if recPanels e.u.record ≤ f.d then .fault e (lf 0x04 0 false) else
  match e.check e.low (memReq (ofBase (e.g.getS f.a).toNat 0) ((e.panelLen? f).getD 0) 128 true false false .cells) 0 with
  | .error q => .fault e q
  | .ok acc => e.turnEnd (.wbld f) (wbldAt f e acc)

theorem keepsEnd_wbldEnd (f : GW) (e : Env) : e.keepsEnd (wbldEnd f e) := by
  unfold wbldEnd
  split
  · exact e.keepsG_refl
  · split
    · exact e.keepsG_refl
    · exact Env.keepsEnd_turnEnd fun _ => keepsEnd_wbldAt f e _ _

/-- WBLD (R257): its meaning is the outcome of its end. -/
theorem groupCase_wbld (f : GW) :
    groupCase (.wbld f) (fun e => decide (f.d < 32) && f.b == 0 && decide (f.f6 < 32) && (e.panelLen? f).isSome) (fun e => if f.d < recPanels e.u.record then [f.a] else []) (wbldEnd f) := by
  unfold Env.panelLen?
  refine groupCase_of_issue _ (fun _ => rfl) (fun _ e _ ho => ?bad) (fun _ e _ ho => ?legal) (keepsEnd_wbldEnd f)
  case bad =>
    cases hf : decide (f.d < 32) && f.b == 0 && decide (f.f6 < 32) with
    | false => rfl
    | true =>
      have hlen : (e.slot (f.f6 / 4)).bind (panelLen (f.f6 % 4)) = none := by simpa [hf] using ho
      simp only [hlen]; rfl
  case legal =>
    obtain ⟨hf, hsome⟩ := Bool.and_eq_true_iff.mp ho
    obtain ⟨n, hlen⟩ := Option.isSome_iff_exists.mp hsome
    unfold wbldEnd Env.panelLen?
    simp only [hf, hlen, Bool.not_true, Bool.false_eq_true, if_false, Option.getD_some]
    by_cases hp : recPanels e.u.record ≤ f.d
    · simp only [hp, Nat.not_lt.mpr hp, if_true, if_false]; rfl
    · simp only [hp, Nat.not_le.mp hp, if_true, if_false]
      congr 1
      cases e.check e.low (memReq (ofBase (e.g.getS f.a).toNat 0) n 128 true false false .cells) 0 with
      | error q => rfl
      | ok acc =>
        refine Env.inTurn_eq_turnEnd fun ops => ?_
        unfold wbldAt
        have hwait : (!e.g.inflight.isEmpty || !e.g.acqs.isEmpty) = true ↔ e.g.inflight ≠ [] ∨ e.g.acqs ≠ [] := by simp
        simp only [hwait]
        split
        · rfl
        · cases hread : (e.withOps ops).readNow (e.withOps ops).g.liveLanes acc (addrNat (ofBase (e.g.getS f.a).toNat 0)) with
          | wait e1 => rfl
          | fail q => rfl
          | got e1 bs =>
            obtain rfl := Env.readNow_got hread
            have hbad : (decide (f.f6 % 4 = 1) && !quadsOk bs) = true ↔ f.f6 % 4 = 1 ∧ quadsOk bs = false := by simp
            simp only [hbad]
            split
            · rfl
            · rfl

/-- Settles O25: each word is the outcome of its end, the words on tiles at their turn; TZERO's words are those whose keys lie outside the tile. -/
theorem tileWords : Obligations.TileWords := by
  unfold Obligations.TileWords
  intro f
  refine ⟨?tzero, fun u k w hw => u.tileWord_zeroTile f.d k hw, ?tcvt, ?ttr, ?masks, ?wbld, ?wbfree⟩
  case tzero => exact groupCase_tiles _ (fun _ => rfl) (fun _ _ _ => rfl) fun _ => ⟨rfl, rfl, rfl⟩
  case tcvt => exact groupCase_tiles _ (exec_tcvt f) (fun e ops _ => Env.groupNext_goes (e.withOps ops) _ _ _) fun e => keepsEnd_fillTile e _ _ _ _
  case ttr =>
    refine groupCase_tiles _ (fun _ => rfl) (fun e ops ho => ?_) fun e => keepsEnd_fillTile e _ _ _ _
    have hview : (f.f6 != 0) = (f.f6 == 1) := by
      simp only [Bool.and_eq_true, decide_eq_true_eq] at ho
      rw [Bool.eq_iff_iff]; simp; omega
    rw [hview]; exact Env.groupNext_goes (e.withOps ops) _ _ _
  case masks =>
    intro p hp
    simp only [List.mem_cons, List.not_mem_nil, or_false] at hp
    rcases hp with rfl | rfl | rfl | rfl
    · exact groupCase_maskWord true false fun _ => rfl
    · exact groupCase_maskWord true true fun _ => rfl
    · exact groupCase_maskWord false false fun _ => rfl
    · exact groupCase_maskWord false true fun _ => rfl
  case wbld => exact groupCase_wbld f
  case wbfree =>
    refine groupCase_of_issue _ (fun _ => rfl) (fun _ e _ ho => by simp only [ho, Bool.not_false, if_true]) (fun _ e _ ho => ?_) fun e => ?_
    · simp only [ho, Bool.not_true, Bool.false_eq_true, if_false]
      by_cases hp : recPanels e.u.record ≤ f.d
      · simp only [hp, if_true]; rfl
      · simp only [hp, if_false]; exact Env.inTurn_eq_turnEnd fun _ => rfl
    · split
      · exact e.keepsG_refl
      · exact Env.keepsEnd_turnEnd fun _ => ⟨rfl, rfl, rfl⟩

end Sys2Proof.Machine
end

section
/-! The statements about the encoding (R155, R157, R160, R164, R167 to R169): the words of an instruction and its bytes, in both directions. -/

namespace Sys2Proof.Laws

/-! From an instruction to its bytes and back. -/

/-- The words of every instruction decode to it: one lemma of the round trip each. -/
theorem roundTrip : ∀ i : Instr, RoundTrip.Statement i
  | .nop f => RoundTrip.nop f
  | .ret f => RoundTrip.ret f
  | .exit f => RoundTrip.exit f
  | .region f => RoundTrip.region f
  | .ifence f => RoundTrip.ifence f
  | .bkpt f => RoundTrip.bkpt f
  | .iadd f => RoundTrip.iadd f
  | .isub f => RoundTrip.isub f
  | .imul f => RoundTrip.imul f
  | .imulh f => RoundTrip.imulh f
  | .imad f => RoundTrip.imad f
  | .idiv f => RoundTrip.idiv f
  | .irem f => RoundTrip.irem f
  | .imin f => RoundTrip.imin f
  | .imax f => RoundTrip.imax f
  | .andI f => RoundTrip.andI f
  | .orI f => RoundTrip.orI f
  | .xor f => RoundTrip.xor f
  | .shl f => RoundTrip.shl f
  | .shr f => RoundTrip.shr f
  | .sar f => RoundTrip.sar f
  | .rol f => RoundTrip.rol f
  | .bfx f => RoundTrip.bfx f
  | .bfi f => RoundTrip.bfi f
  | .sel f => RoundTrip.sel f
  | .icmp f => RoundTrip.icmp f
  | .isat f => RoundTrip.isat f
  | .mov f => RoundTrip.mov f
  | .movi f => RoundTrip.movi f
  | .moviH f => RoundTrip.moviH f
  | .movs f => RoundTrip.movs f
  | .ineg f => RoundTrip.ineg f
  | .iabs f => RoundTrip.iabs f
  | .notI f => RoundTrip.notI f
  | .popc f => RoundTrip.popc f
  | .clz f => RoundTrip.clz f
  | .ctz f => RoundTrip.ctz f
  | .brev f => RoundTrip.brev f
  | .fald f => RoundTrip.fald f
  | .fast f => RoundTrip.fast f
  | .faupd f => RoundTrip.faupd f
  | .fadwd f => RoundTrip.fadwd f
  | .fasolvF f => RoundTrip.fasolvF f
  | .fasolvB f => RoundTrip.fasolvB f
  | .fasolvG f => RoundTrip.fasolvG f
  | .fasolvLoo f => RoundTrip.fasolvLoo f
  | .fadiag f => RoundTrip.fadiag f
  | .famul f => RoundTrip.famul f
  | .famulT f => RoundTrip.famulT f
  | .fadd f => RoundTrip.fadd f
  | .fsub f => RoundTrip.fsub f
  | .fmul f => RoundTrip.fmul f
  | .ffma f => RoundTrip.ffma f
  | .fmin f => RoundTrip.fmin f
  | .fmax f => RoundTrip.fmax f
  | .fcmp f => RoundTrip.fcmp f
  | .fdiv f => RoundTrip.fdiv f
  | .fscl f => RoundTrip.fscl f
  | .fabs f => RoundTrip.fabs f
  | .fneg f => RoundTrip.fneg f
  | .fsqrt f => RoundTrip.fsqrt f
  | .frcp f => RoundTrip.frcp f
  | .frsq f => RoundTrip.frsq f
  | .fexp2 f => RoundTrip.fexp2 f
  | .flog2 f => RoundTrip.flog2 f
  | .fclass f => RoundTrip.fclass f
  | .frnd f => RoundTrip.frnd f
  | .fgete f => RoundTrip.fgete f
  | .sinT f => RoundTrip.sinT f
  | .cosT f => RoundTrip.cosT f
  | .sincosT f => RoundTrip.sincosT f
  | .fredT f => RoundTrip.fredT f
  | .cvt f => RoundTrip.cvt f
  | .cvti f => RoundTrip.cvti f
  | .qpack f => RoundTrip.qpack f
  | .qunpk f => RoundTrip.qunpk f
  | .had f => RoundTrip.had f
  | .shfl f => RoundTrip.shfl f
  | .shflUp f => RoundTrip.shflUp f
  | .shflDn f => RoundTrip.shflDn f
  | .shflX f => RoundTrip.shflX f
  | .swpPair f => RoundTrip.swpPair f
  | .perm f => RoundTrip.perm f
  | .bcast f => RoundTrip.bcast f
  | .redu f => RoundTrip.redu f
  | .scan f => RoundTrip.scan f
  | .vote f => RoundTrip.vote f
  | .voteAny f => RoundTrip.voteAny f
  | .voteAll f => RoundTrip.voteAll f
  | .voteUni f => RoundTrip.voteUni f
  | .mcount f => RoundTrip.mcount f
  | .mcountPre f => RoundTrip.mcountPre f
  | .matchI f => RoundTrip.matchI f
  | .ld f => RoundTrip.ld f
  | .st f => RoundTrip.st f
  | .lds f => RoundTrip.lds f
  | .sts f => RoundTrip.sts f
  | .ldv f => RoundTrip.ldv f
  | .stv f => RoundTrip.stv f
  | .ldj f => RoundTrip.ldj f
  | .ldjNb f => RoundTrip.ldjNb f
  | .stj f => RoundTrip.stj f
  | .pref f => RoundTrip.pref f
  | .mka f => RoundTrip.mka f
  | .segno f => RoundTrip.segno f
  | .segof f => RoundTrip.segof f
  | .chka f => RoundTrip.chka f
  | .ldl f => RoundTrip.ldl f
  | .amoAdd f => RoundTrip.amoAdd f
  | .amoMin f => RoundTrip.amoMin f
  | .amoMax f => RoundTrip.amoMax f
  | .amoAnd f => RoundTrip.amoAnd f
  | .amoOr f => RoundTrip.amoOr f
  | .amoXor f => RoundTrip.amoXor f
  | .amoXchg f => RoundTrip.amoXchg f
  | .amoJoin f => RoundTrip.amoJoin f
  | .amoc f => RoundTrip.amoc f
  | .amof f => RoundTrip.amof f
  | .fence f => RoundTrip.fence f
  | .bar f => RoundTrip.bar f
  | .barArrive f => RoundTrip.barArrive f
  | .barWait f => RoundTrip.barWait f
  | .cbacq f => RoundTrip.cbacq f
  | .cbrel f => RoundTrip.cbrel f
  | .waittl f => RoundTrip.waittl f
  | .br f => RoundTrip.br f
  | .jmp f => RoundTrip.jmp f
  | .brx f => RoundTrip.brx f
  | .brxCall f => RoundTrip.brxCall f
  | .call f => RoundTrip.call f
  | .trapu f => RoundTrip.trapu f
  | .spbind f => RoundTrip.spbind f
  | .sprel f => RoundTrip.sprel f
  | .mma f => RoundTrip.mma f
  | .mmaD f => RoundTrip.mmaD f
  | .mmai f => RoundTrip.mmai f
  | .tld f => RoundTrip.tld f
  | .tst f => RoundTrip.tst f
  | .tread f => RoundTrip.tread f
  | .twrite f => RoundTrip.twrite f
  | .optionalOpcode n f => RoundTrip.optionalOpcode n f
  | .saddGr f => RoundTrip.saddGr f
  | .ssubGr f => RoundTrip.ssubGr f
  | .smulGr f => RoundTrip.smulGr f
  | .sandGr f => RoundTrip.sandGr f
  | .sorGr f => RoundTrip.sorGr f
  | .sxorGr f => RoundTrip.sxorGr f
  | .sshlGr f => RoundTrip.sshlGr f
  | .sshrN64Gr f => RoundTrip.sshrN64Gr f
  | .sshrI64Gr f => RoundTrip.sshrI64Gr f
  | .sminI64Gr f => RoundTrip.sminI64Gr f
  | .sminN64Gr f => RoundTrip.sminN64Gr f
  | .smaxI64Gr f => RoundTrip.smaxI64Gr f
  | .smaxN64Gr f => RoundTrip.smaxN64Gr f
  | .smov f => RoundTrip.smov f
  | .saddGi f => RoundTrip.saddGi f
  | .ssubGi f => RoundTrip.ssubGi f
  | .smulGi f => RoundTrip.smulGi f
  | .sandGi f => RoundTrip.sandGi f
  | .sorGi f => RoundTrip.sorGi f
  | .sxorGi f => RoundTrip.sxorGi f
  | .sshlGi f => RoundTrip.sshlGi f
  | .sshrN64Gi f => RoundTrip.sshrN64Gi f
  | .sshrI64Gi f => RoundTrip.sshrI64Gi f
  | .sminI64Gi f => RoundTrip.sminI64Gi f
  | .sminN64Gi f => RoundTrip.sminN64Gi f
  | .smaxI64Gi f => RoundTrip.smaxI64Gi f
  | .smaxN64Gi f => RoundTrip.smaxN64Gi f
  | .smoviGi f => RoundTrip.smoviGi f
  | .scmpGi f => RoundTrip.scmpGi f
  | .saddGl f => RoundTrip.saddGl f
  | .ssubGl f => RoundTrip.ssubGl f
  | .smulGl f => RoundTrip.smulGl f
  | .sandGl f => RoundTrip.sandGl f
  | .sorGl f => RoundTrip.sorGl f
  | .sxorGl f => RoundTrip.sxorGl f
  | .sshlGl f => RoundTrip.sshlGl f
  | .sshrN64Gl f => RoundTrip.sshrN64Gl f
  | .sshrI64Gl f => RoundTrip.sshrI64Gl f
  | .sminI64Gl f => RoundTrip.sminI64Gl f
  | .sminN64Gl f => RoundTrip.sminN64Gl f
  | .smaxI64Gl f => RoundTrip.smaxI64Gl f
  | .smaxN64Gl f => RoundTrip.smaxN64Gl f
  | .smoviGl f => RoundTrip.smoviGl f
  | .scmpGl f => RoundTrip.scmpGl f
  | .scmpGr f => RoundTrip.scmpGr f
  | .ssel f => RoundTrip.ssel f
  | .sld f => RoundTrip.sld f
  | .sst f => RoundTrip.sst f
  | .sbr f => RoundTrip.sbr f
  | .sjmp f => RoundTrip.sjmp f
  | .scall f => RoundTrip.scall f
  | .sret f => RoundTrip.sret f
  | .cvsetGi f => RoundTrip.cvsetGi f
  | .cvsetGl f => RoundTrip.cvsetGl f
  | .dqpush f => RoundTrip.dqpush f
  | .dqpop f => RoundTrip.dqpop f
  | .cpy f => RoundTrip.cpy f
  | .cpy2d f => RoundTrip.cpy2d f
  | .cpyg f => RoundTrip.cpyg f
  | .chain f => RoundTrip.chain f
  | .coll f => RoundTrip.coll f
  | .post f => RoundTrip.post f
  | .stl f => RoundTrip.stl f
  | .permit f => RoundTrip.permit f
  | .permq f => RoundTrip.permq f
  | .sploop f => RoundTrip.sploop f
  | .spset f => RoundTrip.spset f
  | .tzero f => RoundTrip.tzero f
  | .tcvt f => RoundTrip.tcvt f
  | .ttr f => RoundTrip.ttr f
  | .fainit f => RoundTrip.fainit f
  | .fascl f => RoundTrip.fascl f
  | .ymset f => RoundTrip.ymset f
  | .ymsetFirst f => RoundTrip.ymsetFirst f
  | .xmset f => RoundTrip.xmset f
  | .xmsetFirst f => RoundTrip.xmsetFirst f
  | .wbld f => RoundTrip.wbld f
  | .wbfree f => RoundTrip.wbfree f
  | .sysrd f => RoundTrip.sysrd f
  | .syswr f => RoundTrip.syswr f
  | .zsQsched => RoundTrip.zsQsched
  | .zsFlipToHost => RoundTrip.zsFlipToHost
  | .zsFlipToDevice => RoundTrip.zsFlipToDevice
  | .zsPartapply => RoundTrip.zsPartapply
  | .trap f => RoundTrip.trap f
  | .tlbinv f => RoundTrip.tlbinv f
  | .icinv f => RoundTrip.icinv f
  | .bindinv f => RoundTrip.bindinv f
  | .segrev f => RoundTrip.segrev f
  | .unitsave f => RoundTrip.unitsave f
  | .unitload f => RoundTrip.unitload f
  | .preempt f => RoundTrip.preempt f
  | .cancel f => RoundTrip.cancel f
  | .cntrd f => RoundTrip.cntrd f
  | .cntrdSt f => RoundTrip.cntrdSt f
  | .zerobuf f => RoundTrip.zerobuf f
  | .diectlReadState f => RoundTrip.diectlReadState f
  | .diectlWriteBack f => RoundTrip.diectlWriteBack f
  | .diectlSelfRefreshEntry f => RoundTrip.diectlSelfRefreshEntry f
  | .diectlSelfRefreshExit f => RoundTrip.diectlSelfRefreshExit f
  | .diectlResetDieLogic f => RoundTrip.diectlResetDieLogic f
  | .diectlRetrainUcie f => RoundTrip.diectlRetrainUcie f
  | .quiesce f => RoundTrip.quiesce f
  | .admitI f => RoundTrip.admitI f
  | .sluiceset f => RoundTrip.sluiceset f
  | .mbxbind f => RoundTrip.mbxbind f
  | .loadValueArrival => RoundTrip.loadValueArrival
  | .registerSpill => RoundTrip.registerSpill
  | .registerFill => RoundTrip.registerFill
  | .streamFetch => RoundTrip.streamFetch
  | .homeApply => RoundTrip.homeApply
  | .storeCommit => RoundTrip.storeCommit
  | .directoryEviction => RoundTrip.directoryEviction
  | .fenceCompletion => RoundTrip.fenceCompletion
  | .fenceRollback => RoundTrip.fenceRollback
  | .postedStoreAcknowledgement => RoundTrip.postedStoreAcknowledgement
  | .peerReply => RoundTrip.peerReply
  | .peerAccess => RoundTrip.peerAccess
  | .routeTimeout => RoundTrip.routeTimeout
  | .ferryRoundStart => RoundTrip.ferryRoundStart
  | .ferryChunkReceive => RoundTrip.ferryChunkReceive
  | .domainRound => RoundTrip.domainRound
  | .replicatedUpdate => RoundTrip.replicatedUpdate
  | .engineCommandComplete => RoundTrip.engineCommandComplete
  | .engineCommandFault => RoundTrip.engineCommandFault
  | .engineFaultRetry => RoundTrip.engineFaultRetry
  | .sluiceGrant => RoundTrip.sluiceGrant
  | .sluicePromotion => RoundTrip.sluicePromotion
  | .matrixOperationComplete => RoundTrip.matrixOperationComplete
  | .mailboxFiring => RoundTrip.mailboxFiring
  | .recoveryQuantum => RoundTrip.recoveryQuantum
  | .bargePlacement => RoundTrip.bargePlacement
  | .idleUnitSave => RoundTrip.idleUnitSave
  | .effectivePriorityRaise => RoundTrip.effectivePriorityRaise
  | .levellingExchange => RoundTrip.levellingExchange
  | .stopSave => RoundTrip.stopSave
  | .binderResolution => RoundTrip.binderResolution
  | .revokedSegmentService => RoundTrip.revokedSegmentService
  | .optionalEmulation => RoundTrip.optionalEmulation
  | .serviceReturn => RoundTrip.serviceReturn
  | .serviceAbandon => RoundTrip.serviceAbandon
  | .serviceEscalate => RoundTrip.serviceEscalate
  | .inboundPostedWrite => RoundTrip.inboundPostedWrite
  | .inboundRead => RoundTrip.inboundRead
  | .cxlMemRequest => RoundTrip.cxlMemRequest
  | .hostSnoop => RoundTrip.hostSnoop
  | .hostWarmRestart => RoundTrip.hostWarmRestart
  | .powerUp => RoundTrip.powerUp
  | .thermalLimit => RoundTrip.thermalLimit
  | .thermalShutdown => RoundTrip.thermalShutdown
  | .bindingSearchRepeat => RoundTrip.bindingSearchRepeat
  | .bindingAbandon => RoundTrip.bindingAbandon
  | .failedContextClear => RoundTrip.failedContextClear
  | .ovoftLinkLoss => RoundTrip.ovoftLinkLoss
  | .ovoftLinkReturn => RoundTrip.ovoftLinkReturn
  | .hostLinkReturn => RoundTrip.hostLinkReturn
  | .powerDown => RoundTrip.powerDown

theorem length_leBytes (n w : Nat) : (leBytes n w).length = n := by
  induction n generalizing w with
  | zero => rfl
  | succ n ih => rw [leBytes, List.length_cons, ih]

theorem leNat_leBytes {n w : Nat} (h : w < 256 ^ n) : leNat (leBytes n w) = w := by
  induction n generalizing w with
  | zero => simp at h; simp [h, leBytes, leNat]
  | succ n ih =>
    have hdiv : w / 256 < 256 ^ n := by rw [Nat.div_lt_iff_lt_mul (by norm_num), ← pow_succ]; exact h
    rw [leBytes, leNat, ih hdiv, BitVec.toNat_ofNat]
    omega

theorem leNat_leBytes_four {w : Nat} (h : w < 2 ^ 32) : leNat (leBytes 4 w) = w := leNat_leBytes (by norm_num; omega)

theorem lwOf_short {w0 : Nat} (hx : bits w0 0 1 ≠ 1) (w1 w1' : Nat) : lwOf w0 w1 = lwOf w0 w1' := by
  simp only [lwOf, hx, if_false]

theorem gwOf_short {w0 : Nat} (hx : groupTwo (bits w0 24 7) = false) (w1 w1' : Nat) : gwOf w0 w1 = gwOf w0 w1' := by
  simp only [gwOf, hx, Bool.false_eq_true, if_false]

/-- A first word that stands alone decodes whatever word comes after it (R155). -/
theorem decodeWords_short {w0 : Nat} (h : wordCount w0 = 1) (w1 w1' : Nat) : decodeWords w0 w1 = decodeWords w0 w1' := by
  unfold wordCount at h
  unfold decodeWords
  by_cases hset : bits w0 31 1 = 1
  · have hone : groupTwo (bits w0 24 7) = false := by
      cases hg : groupTwo (bits w0 24 7) with
      | false => rfl
      | true => simp [hset, hg] at h
    rw [if_pos hset, if_pos hset, gwOf_short hone w1 w1']
  · have hx : bits w0 0 1 ≠ 1 := fun hx => by simp [hset, hx] at h
    rw [if_neg hset, if_neg hset, lwOf_short hx w1 w1']

/-- The decoder at bytes that begin with a first word. -/
theorem decode_first {w0 : Nat} (bs : List Byte) (hw : w0 < 2 ^ 32) (hlen : 4 * wordCount w0 ≤ 4 + bs.length) {i : Instr} (hi : decodeWords w0 (leNat (bs.take 4)) = some i) :
    decode (leBytes 4 w0 ++ bs) = .ok (i, 4 * wordCount w0) := by
  have h4 : (leBytes 4 w0).length = 4 := length_leBytes 4 w0
  have htake : (leBytes 4 w0 ++ bs).take 4 = leBytes 4 w0 := List.take_left' h4
  have hdrop : (leBytes 4 w0 ++ bs).drop 4 = bs := List.drop_left' h4
  unfold decode
  simp only [htake, hdrop, leNat_leBytes_four hw, List.length_append, h4, hi]
  rw [if_neg (by omega), if_neg (by omega)]

/-- Settles O53: the words of an instruction decode to it (`roundTrip`), and the bytes of its first word fix how many of the bytes after it are read. -/
theorem decodeOfEncode : Obligations.DecodeOfEncode := by
  unfold Obligations.DecodeOfEncode
  intro i rest hwf hev
  have hrt := roundTrip i hwf
  unfold encodeBytes
  cases henc : encode i with
  | none => rw [henc] at hrt; exact absurd hrt hev
  | some p =>
    obtain ⟨w0, w1⟩ := p
    rw [henc] at hrt
    obtain ⟨hw0, hw1, hcount, hdec⟩ := hrt
    cases w1 with
    | none =>
      have hone : wordCount w0 = 1 := by simpa using hcount
      have := decode_first rest hw0 (by omega) ((decodeWords_short hone _ 0).trans hdec)
      simpa only [hone, length_leBytes] using this
    | some w1 =>
      have htwo : wordCount w0 = 2 := by simpa using hcount
      have hsecond : (leBytes 4 w1 ++ rest).take 4 = leBytes 4 w1 := List.take_left' (length_leBytes 4 w1)
      have := decode_first (leBytes 4 w1 ++ rest) hw0 (by simp only [List.length_append, length_leBytes]; omega)
        (i := i) (by rw [hsecond, leNat_leBytes_four (hw1 w1 rfl)]; exact hdec)
      simpa only [htwo, List.append_assoc, List.length_append, length_leBytes] using this

/-! From words to the instruction and back. -/

theorem bits_lt (w lo n : Nat) : bits w lo n < 2 ^ n := Nat.mod_lt _ (Nat.two_pow_pos n)

theorem lwFits_lwOf (w0 w1 : Nat) : lwFits (lwOf w0 w1) = true := by
  have hext : extFits (extOf w1) = true := by
    simp only [extFits, Bool.and_eq_true, decide_eq_true_eq]
    exact ⟨⟨⟨⟨bits_lt w1 29 3, bits_lt w1 26 3⟩, bits_lt w1 20 6⟩, bits_lt w1 16 3⟩, bits_lt w1 0 16⟩
  simp only [lwFits, Bool.and_eq_true, decide_eq_true_eq]
  refine ⟨⟨⟨⟨bits_lt w0 18 6, bits_lt w0 12 6⟩, bits_lt w0 6 6⟩, bits_lt w0 3 3⟩, ?_⟩
  unfold lwOf
  by_cases hx : bits w0 0 1 = 1
  · simp only [hx, if_true, hext]
  · simp only [hx, if_false]

theorem gwFits_gwOf {w0 w1 : Nat} (h1 : w1 < 2 ^ 32) : gwFits (groupTwo (bits w0 24 7)) (gwOf w0 w1) = true := by
  simp only [gwFits, Bool.and_eq_true, decide_eq_true_eq]
  refine ⟨⟨⟨⟨bits_lt w0 18 6, bits_lt w0 12 6⟩, bits_lt w0 6 6⟩, bits_lt w0 0 6⟩, ?_⟩
  unfold gwOf
  cases groupTwo (bits w0 24 7) with
  | false => rfl
  | true => simp only [if_true, Bool.true_and, decide_eq_true h1]

/-- A bit of a word, back from the flag that says whether it is 1. -/
theorem flag_eq (w lo k : Nat) : (if (bits w lo 1 == 1) = true then k else 0) = bits w lo 1 * k := by
  have : bits w lo 1 = 0 ∨ bits w lo 1 = 1 := by have := bits_lt w lo 1; omega
  rcases this with h | h <;> simp [h]

theorem extWord_extOf {w : Nat} (h : w < 2 ^ 32) : extWord (extOf w) = w := by
  have hflag := flag_eq w 19 (2 ^ 19)
  unfold extWord extOf
  simp only [hflag]
  unfold bits; omega

theorem laneWordOf_lwOf {w0 : Nat} (w1 : Nat) (h : w0 < 2 ^ 32) (hs : bits w0 31 1 ≠ 1) : laneWordOf (bits w0 24 7) (lwOf w0 w1) = w0 := by
  have hx : (if (lwOf w0 w1).ext.isSome then 1 else 0) = bits w0 0 1 := by
    have : bits w0 0 1 = 0 ∨ bits w0 0 1 = 1 := by have := bits_lt w0 0 1; omega
    rcases this with h | h <;> simp [lwOf, h]
  have hea : (if (lwOf w0 w1).ea then 4 else 0) = bits w0 2 1 * 4 := flag_eq w0 2 4
  have heb : (if (lwOf w0 w1).eb then 2 else 0) = bits w0 1 1 * 2 := flag_eq w0 1 2
  unfold laneWordOf
  rw [hx, hea, heb]
  simp only [lwOf]
  unfold bits at hs ⊢; omega

theorem groupWordOf_gwOf {w0 : Nat} (w1 : Nat) (h : w0 < 2 ^ 32) (hs : bits w0 31 1 = 1) : groupWordOf (bits w0 24 7) (gwOf w0 w1) = w0 := by
  simp only [groupWordOf, gwOf]
  unfold bits at hs ⊢; omega

theorem lwOf_second {w0 w1 : Nat} (h1 : w1 < 2 ^ 32) (hs : bits w0 31 1 ≠ 1) : (lwOf w0 w1).ext.map extWord = if wordCount w0 = 2 then some w1 else none := by
  unfold wordCount
  rw [if_neg hs]
  by_cases hx : bits w0 0 1 = 1
  · simp [lwOf, hx, extWord_extOf h1]
  · simp [lwOf, hx]

theorem gwOf_second {w0 : Nat} (w1 : Nat) (hs : bits w0 31 1 = 1) : (gwOf w0 w1).w1 = if wordCount w0 = 2 then some w1 else none := by
  unfold wordCount
  rw [if_pos hs]
  cases hg : groupTwo (bits w0 24 7) <;> simp [gwOf, hg]

/-- Whatever instruction an entry of an opcode map gives stands at a place of the maps, and is well formed. -/
def Stands (place : Shape) (entry : Option Instr) : Prop := ∀ i, entry = some i → shape i = place ∧ wellFormed i = true

theorem stands_none (place : Shape) : Stands place none := fun _ h => nomatch h

theorem stands_some {place : Shape} {i : Instr} (hs : shape i = place) (hw : wellFormed i = true) : Stands place (some i) := by
  rintro _ ⟨⟩
  exact ⟨hs, hw⟩

/-- An instruction that shares its opcode with others, told apart by a code. -/
theorem stands_coded {place : Shape} {i : Instr} {fits : Bool} {code k : Nat} (hf : fits = true) (hc : code = k) (hs : shape i = place) (hw : wellFormed i = (fits && code == k)) : Stands place (some i) :=
  stands_some hs (by rw [hw, hf, hc]; simp)

section
variable {f : LW} (hf : lwFits f = true)
include hf

theorem stands_sel00 : Stands (.lane 0x00 f) (sel00 f) := by
  unfold sel00; split
  case h_7 => exact stands_none _
  all_goals exact stands_coded hf ‹_› rfl rfl

theorem stands_sel19 : Stands (.lane 0x19 f) (sel19 f) := by
  unfold sel19; split
  case h_8 => exact stands_none _
  all_goals exact stands_coded hf ‹_› rfl rfl

theorem stands_sel29 : Stands (.lane 0x29 f) (sel29 f) := by
  unfold sel29; split
  case h_15 => exact stands_none _
  all_goals exact stands_coded hf ‹_› rfl rfl

theorem stands_sel5B : Stands (.lane 0x5B f) (sel5B f) := by
  unfold sel5B; split
  case h_4 => exact stands_none _
  all_goals exact stands_coded hf ‹_› rfl rfl

theorem stands_sel17 : Stands (.lane 0x17 f) (sel17 f) := by
  unfold sel17; split
  case h_3 => exact stands_none _
  all_goals exact stands_coded hf ‹_› rfl rfl

theorem stands_sel1E : Stands (.lane 0x1E f) (sel1E f) := by
  unfold sel1E; split
  case h_5 => exact stands_none _
  all_goals exact stands_coded hf ‹_› rfl rfl

theorem stands_sel2F : Stands (.lane 0x2F f) (sel2F f) := by
  unfold sel2F; split
  case h_3 => exact stands_none _
  all_goals exact stands_coded hf ‹_› rfl rfl

theorem stands_sel39 : Stands (.lane 0x39 f) (sel39 f) := by
  unfold sel39; split
  case h_5 => exact stands_none _
  all_goals exact stands_coded hf ‹_› rfl rfl

theorem stands_sel3A : Stands (.lane 0x3A f) (sel3A f) := by
  unfold sel3A; split
  case h_3 => exact stands_none _
  all_goals exact stands_coded hf ‹_› rfl rfl

theorem stands_sel62 : Stands (.lane 0x62 f) (sel62 f) := by
  unfold sel62; split
  case h_3 => exact stands_none _
  all_goals exact stands_coded hf ‹_› rfl rfl

/-- The lane opcode map (R164, R166): every opcode gives one instruction or selects by a code. -/
theorem stands_laneInstr {op : Nat} (ho : op < 128) : Stands (.lane op f) (laneInstr op f) := by
  unfold laneInstr
  split
  case isTrue h =>
    refine stands_some ?_ (by simp only [wellFormed, hf, Bool.and_true, decide_eq_true_eq]; omega)
    simp only [shape, Nat.add_sub_cancel' h]
  case isFalse =>
    split
    case h_1 => exact stands_sel00 hf
    case h_24 => exact stands_sel17 hf
    case h_26 => exact stands_sel19 hf
    case h_31 => exact stands_sel1E hf
    case h_42 => exact stands_sel29 hf
    case h_48 => exact stands_sel2F hf
    case h_58 => exact stands_sel39 hf
    case h_59 => exact stands_sel3A hf
    case h_87 => exact stands_sel5B hf
    case h_93 => exact stands_sel62 hf
    case h_105 => exact stands_none _
    all_goals exact stands_some rfl hf

end

section
variable {f : GW}

theorem stands_gsel00 (hf : gwFits false f = true) : Stands (.group 0x00 f) (gsel00 f) := by
  unfold gsel00; split
  case h_15 => exact stands_none _
  all_goals exact stands_coded hf ‹_› rfl rfl

theorem stands_gsel2B (hf : gwFits false f = true) : Stands (.group 0x2B f) (gsel2B f) := by
  unfold gsel2B; split
  case h_3 => exact stands_none _
  all_goals exact stands_coded hf ‹_› rfl rfl

theorem stands_gsel2C (hf : gwFits false f = true) : Stands (.group 0x2C f) (gsel2C f) := by
  unfold gsel2C; split
  case h_3 => exact stands_none _
  all_goals exact stands_coded hf ‹_› rfl rfl

theorem stands_gsel5D (hf : gwFits false f = true) : Stands (.group 0x5D f) (gsel5D f) := by
  unfold gsel5D; split
  case h_7 => exact stands_none _
  all_goals exact stands_coded hf ‹_› rfl rfl

/-- CNTRD and CNTRD.ST, which f6 tells apart by its bit 3 (R280). -/
theorem stands_cntrd (hf : gwFits false f = true) : Stands (.group 0x5B f) (if f.f6 / 16 != 0 then none else if f.f6 / 8 = 1 then some (.cntrdSt f) else some (.cntrd f)) := by
  split
  · exact stands_none _
  · next h16 =>
    split
    · next h8 => exact stands_coded hf h8 rfl rfl
    · next h8 =>
      have hlow : f.f6 < 8 := by simp at h16; omega
      exact stands_some rfl (by simp only [wellFormed, hf, hlow, decide_true, Bool.and_true])

/-- The group opcode map (R169). -/
theorem stands_groupInstr {op : Nat} (hf : gwFits (groupTwo op) f = true) : Stands (.group op f) (groupInstr op f) := by
  unfold groupInstr
  split
  case h_1 => exact stands_gsel00 hf
  case h_44 => exact stands_gsel2B hf
  case h_45 => exact stands_gsel2C hf
  case h_75 => exact stands_cntrd hf
  case h_77 => exact stands_gsel5D hf
  case h_82 => exact stands_none _
  all_goals exact stands_some rfl hf

end

/-- Settles O54: what a word's opcode and fields map to stands at that opcode with those fields, and the fields are the word's. -/
theorem encodeOfDecode : Obligations.EncodeOfDecode := by
  unfold Obligations.EncodeOfDecode
  intro w0 w1 i h0 h1 hd
  unfold decodeWords at hd
  by_cases hs : bits w0 31 1 = 1
  · rw [if_pos hs] at hd
    obtain ⟨hshape, hwf⟩ := stands_groupInstr (gwFits_gwOf h1) i hd
    refine ⟨hwf, ?_⟩
    simp only [encode, hshape, groupWordOf_gwOf w1 h0 hs, gwOf_second w1 hs]
  · rw [if_neg hs] at hd
    obtain ⟨hshape, hwf⟩ := stands_laneInstr (lwFits_lwOf w0 w1) (bits_lt w0 24 7) i hd
    refine ⟨hwf, ?_⟩
    simp only [encode, hshape, laneWordOf_lwOf w1 h0 hs, lwOf_second h1 hs]

/-- Settles O55: each word decoded by the opcode maps. -/
theorem decodeWords : Obligations.DecodeWords := by
  unfold Obligations.DecodeWords
  decide

end Sys2Proof.Laws
end

section
/-! The statements about moves, floating words, conversions and reductions (R181 to R191, R203). -/

namespace Sys2Proof.Machine

/-! The numbers of moves (R183). -/

theorem intTy_n_cases (code : Nat) : (intTy code).n = 8 ∨ (intTy code).n = 16 ∨ (intTy code).n = 32 ∨ (intTy code).n = 64 := by
  unfold intTy; split <;> simp

theorem intTy_n_le (code : Nat) : (intTy code).n ≤ 64 := by
  rcases intTy_n_cases code with h | h | h | h <;> omega

/-- A pattern and the number it stands for agree modulo 2^n. -/
theorem ofInt_toInt (n w : Nat) : ofInt n (toInt n w) = low n w := by
  unfold toInt
  split
  · rw [ofInt_natCast]; exact Nat.mod_mod _ _
  · unfold ofInt low
    rw [Int.sub_emod_right, ← Int.natCast_mod, Int.toNat_natCast, Nat.mod_mod]

/-- Reduction to 64 bits first does not show in fewer. -/
theorem ofInt_ofInt_le {n m : Nat} (h : n ≤ m) (x : Int) : ofInt n ((ofInt m x : Nat) : Int) = ofInt n x := by
  have hd : ((2 ^ n : Nat) : Int) ∣ ((2 ^ m : Nat) : Int) := Int.natCast_dvd_natCast.mpr (pow_dvd_pow 2 h)
  show Int.toNat _ = Int.toNat _
  rw [natCast_ofInt, Int.emod_emod_of_dvd x hd]

theorem IntTy.ofInt_val (t : IntTy) (w : Nat) : ofInt t.n (t.val w) = low t.n w := by
  unfold IntTy.val
  split
  · exact ofInt_toInt t.n w
  · rw [ofInt_natCast]; exact Nat.mod_mod _ _

/-- The immediate of an integer word, reduced to the type: extended by the type's sign (R173, R183). -/
theorem wr_bInt_immediate {f : LW} (w : View) (l : Nat) (hform : f.e.form = 1) :
    (LW.ty f).wr (w.bInt f (LW.ty f) l) = (LW.ty f).wr (if (LW.ty f).sgn then toInt 16 f.e.imm else (f.e.imm : Int)) := by
  unfold View.bInt
  rw [if_pos hform]
  split
  · refine IntTy.wr_congr _ ?_
    rw [IntTy.ofInt_val, low, ← ofInt_natCast, sext]
    exact ofInt_ofInt_le (intTy_n_le _) _
  · exact IntTy.wr_low _ _

/-- Comparisons by code, as R181 writes them. -/
theorem intCompare_eq (code : Nat) (a b : Int) : intCompare code a b =
    match code with | 0 => a == b | 1 => a != b | 2 => decide (a < b) | 3 => decide (a ≤ b) | 4 => decide (a > b) | _ => decide (a ≥ b) := by
  match code with
  | 0 => exact (beq_eq_decide a b).symm
  | 1 => simp [intCompare, bne, beq_eq_decide]
  | 2 | 3 | 4 => rfl
  | _ + 5 => rfl

/-! What the fields of each word say of its destination. -/

theorem selLegal_evenIf_d {f : LW} (h : selLegal f = true) : evenIf (LW.ty f).wide f.d = true := by
  simp only [selLegal, Bool.and_eq_true] at h
  obtain ⟨⟨⟨-, hd⟩, -⟩, -⟩ := h
  exact hd

theorem movLegal_evenIf_d {f : LW} (h : movLegal f = true) : evenIf (LW.ty f).wide f.d = true := by
  simp only [movLegal, Bool.and_eq_true] at h
  obtain ⟨⟨-, hd⟩, -⟩ := h
  exact hd

theorem moviLegal_form {f : LW} (h : moviLegal f = true) : f.e.form = 1 := by
  simp only [moviLegal, Bool.and_eq_true, beq_iff_eq] at h
  obtain ⟨⟨⟨⟨⟨⟨hform, -⟩, -⟩, -⟩, -⟩, -⟩, -⟩ := h
  exact hform

theorem fpLegal_evenIf_d {f : LW} {types : List Nat} {rounds imm cSrc : Bool} (h : fpLegal f types rounds imm cSrc = true) : evenIf (f.e.fs == 1) f.d = true := by
  simp only [fpLegal, Bool.and_eq_true] at h
  obtain ⟨⟨⟨⟨-, hd⟩, -⟩, -⟩, -⟩ := h
  exact hd

theorem fsclLegal_evenIf_d {f : LW} (h : fsclLegal f = true) : evenIf (f.e.fs == 1) f.d = true := by
  simp only [fsclLegal, Bool.and_eq_true] at h
  obtain ⟨⟨-, hd⟩, -⟩ := h
  exact hd

theorem fpUnaryLegal_evenIf_d {f : LW} {types : List Nat} {rounds one : Bool} (h : fpUnaryLegal f types rounds one = true) : evenIf (f.e.fs == 1 && !one) f.d = true := by
  simp only [fpUnaryLegal, Bool.and_eq_true, Bool.or_eq_true] at h
  obtain ⟨-, hone | hd⟩ := h
  · simp [hone, evenIf]
  · cases one with
    | false => simpa using hd
    | true => simp [evenIf]

theorem sincosLegal_even_d {f : LW} (h : sincosLegal f = true) : f.d % 2 = 0 := by
  simp only [sincosLegal, Bool.and_eq_true, beq_iff_eq] at h
  exact h.2

theorem cvtLegal_evenIf_d {f : LW} {isInt : Bool} {k : Slotd} (h : cvtLegal f isInt k = true) : evenIf (slotBits k.code == 64) f.d = true := by
  simp only [cvtLegal, Bool.and_eq_true] at h
  exact h.2

/-- One mask bit for a lane, and nothing else but flags. -/
theorem Writes.plain_bit (n : Nat) (b : Bool) (fl : Nat) : Writes.plain ⟨[], [(n, b)], fl⟩ := ⟨by simp, List.nodup_nil, List.nodup_singleton _⟩

theorem Writes.plain_one {d : Nat} (x : Word) (hd : d < 64) : Writes.plain ⟨[(d, x)], [], 0⟩ := ⟨by simp [hd], List.nodup_singleton _, List.nodup_nil⟩

/-- An even register and the one after it. -/
theorem Writes.plain_two {d : Nat} (x y : Word) (fl : Nat) (hd : d < 64) (heven : d % 2 = 0) : Writes.plain ⟨[(d, x), (d + 1, y)], [], fl⟩ := by
  have hd1 : d + 1 < 64 := by omega
  exact ⟨by simp [hd, hd1], by simp, List.nodup_nil⟩

/-- What each lane of a word writes may be given in other terms, where its lanes see their registers. -/
theorem laneWord_congr_seen {i : Instr} {ok : Env → Bool} {see : Env → Option View} {left : Env → View → Env} {wr wr' : Env → View → Nat → Writes}
    (h : laneWord i ok see left wr) (hw : ∀ e w l, ok e = true → see e = some w → wr e w l = wr' e w l) : laneWord i ok see left wr' := by
  intro s e he hf
  obtain ⟨hlegal, hillegal⟩ := h s e he hf
  refine ⟨fun ho w hv => ?_, hillegal⟩
  rw [← show wr e w = wr' e w from funext fun l => hw e w l ho hv]
  exact hlegal ho w hv

theorem Env.view?_g {e : Env} {gn : Nat} {xs : List Src} {w : View} (h : e.view? gn xs = some w) : w.g = e.g := by
  rw [(Env.view?_spec h).1]; rfl

/-! MOVS (R184). -/

/-- A cross-lane word whose s register is among its destinations meets it there where it has a lane. -/
theorem Env.viewX?_dstS {e : Env} {gn d : Nat} {w : View} (h : e.viewX? gn [] (dstS d) (fun _ _ => []) none = some w) (hne : e.guarded gn ≠ []) :
    e.viewX? gn [] (dstS d) (fun _ _ => []) (some d) = some w := by
  obtain ⟨hw, hmeets, -⟩ := Env.viewX?_spec h
  obtain ⟨l, hl⟩ := List.exists_mem_of_ne_nil _ hne
  have hfull : e.g.emptyS d = false := by
    have hm := hmeets l hl
    by_contra hemp
    rw [Bool.not_eq_false] at hemp
    simp [View.meets, View.checks, dstS, View.check, hw, hemp] at hm
  unfold Env.viewX?
  rw [← hw, if_pos]
  simpa [hfull] using hmeets

/-- The s register that MOVS with bs writes: none where no lane is active. -/
def movsPut (f : LW) (e : Env) : Option (Nat × DWord) := if (e.guarded f.g).isEmpty then none else some (f.d, BitVec.ofNat 64 (e.special f.b))

theorem exec_movs {f : LW} {s : State} {e : Env} (h : e.ofLanes s) : exec (.movs f) s =
    if !(movsLegal f) then e.illegal else
    if f.e.bs then e.runX f.g [] (dstS f.d) (fun _ _ => []) (fun _ _ => Writes.none) (fun _ => movsPut f e) false
    else e.run f.g (dstV false f.d) (fun _ l => .ok ⟨[(f.d, BitVec.ofNat 32 (if f.b = 0 then l else e.special f.b))], [], 0⟩) := by
  show execMovs f s = _
  rw [execMovs, State.issue_lanes s e h]
  rfl

theorem movsLegal_b {f : LW} (h : movsLegal f = true) : if f.e.bs then 1 ≤ f.b ∧ f.b < 7 else f.b < 6 := by
  simp only [movsLegal, Bool.and_eq_true] at h
  obtain ⟨-, hb⟩ := h
  split at hb <;> simp_all

theorem Writes.plain_none : Writes.none.plain := ⟨by simp [Writes.none], List.nodup_nil, List.nodup_nil⟩

/-- MOVS to an s register. -/
theorem movs_s (f : LW) (hbs : f.e.bs = true) : laneWord (.movs f) (fun _ => movsLegal f) (fun e => e.viewX? f.g [] (dstS f.d) (fun _ _ => []) none)
    (fun e w => if w.act.isEmpty then e.popped w (dstS f.d) else { e.popped w (dstS f.d) with g := (e.popped w (dstS f.d)).g.putS f.d (BitVec.ofNat 64 (match f.b with
      | 1 => e.c.grp | 2 => e.u.idx | 3 => e.u.idx % recGx e.u.record | 4 => e.u.idx / recGx e.u.record % recGy e.u.record
      | 5 => e.u.idx / (recGx e.u.record * recGy e.u.record) | _ => e.g.regc)) })
    (fun _ _ _ => ⟨[], [], 0⟩) := by
  intro s e h _
  rw [exec_movs h]
  refine ⟨fun ho w hv => ?_, fun ho => by simp [ho]⟩
  simp only [ho, hbs, Bool.not_true, Bool.false_eq_true, if_false, if_true]
  have hact : w.act = e.guarded f.g := by rw [(Env.viewX?_spec hv).1]; rfl
  by_cases hne : e.guarded f.g = []
  · have hput : movsPut f e = none := by simp [movsPut, hne]
    rw [hact, hne, hput]
    exact Env.runX_result e s f.g _ _ _ _ (fun _ => none) none false w h hv rfl fun _ _ => Writes.plain_none
  · have hput : movsPut f e = some (f.d, BitVec.ofNat 64 (e.special f.b)) := by simp [movsPut, hne]
    have hemp : (e.guarded f.g).isEmpty = false := by simp [hne]
    rw [hact, hemp, hput]
    exact Env.runX_result e s f.g _ _ _ _ (fun _ => some (f.d, BitVec.ofNat 64 (e.special f.b))) (some f.d) false w h (Env.viewX?_dstS hv hne) rfl fun _ _ => Writes.plain_none

/-- MOVS to v registers: b below 6 names the lane index or a value of the group. -/
theorem movs_v (f : LW) (hbs : f.e.bs = false) : laneWord (.movs f) (fun _ => movsLegal f) (fun e => e.view? f.g (dstV false f.d)) (fun e w => e.popped w (dstV false f.d))
    (fun e _ l => ⟨[(f.d, BitVec.ofNat 32 (match f.b with
      | 0 => l | 1 => e.c.grp | 2 => e.u.idx | 3 => e.u.idx % recGx e.u.record | 4 => e.u.idx / recGx e.u.record % recGy e.u.record
      | _ => e.u.idx / (recGx e.u.record * recGy e.u.record)))], [], 0⟩) := by
  refine laneWord_congr_legal (laneWord_run (.movs f) f.g (fun _ => movsLegal f) (fun _ => dstV false f.d) _
    (fun e _ l => ⟨[(f.d, BitVec.ofNat 32 (if f.b = 0 then l else e.special f.b))], [], 0⟩) (fun s => ?_) (fun _ _ _ => rfl)
    fun hw _ _ _ _ => Writes.plain_one _ (lwFits_d hw)) fun e w l ho => ?_
  · show execMovs f s = _
    unfold execMovs
    simp only [hbs, Bool.false_eq_true, if_false]
  · have hb : f.b < 6 := by simpa [hbs] using movsLegal_b ho
    unfold Env.special
    generalize f.b = b at hb
    interval_cases b <;> rfl

/-- Settles O4: each word is a per-lane issue of one result; MOVS with bs is a cross-lane issue that writes one s register. -/
theorem integerMoves : Obligations.IntegerMoves := by
  unfold Obligations.IntegerMoves
  intro f
  refine ⟨?icmp, ?sel, ?mov, ?movi, ?moviH, movs_v f, movs_s f⟩
  case icmp =>
    refine laneWord_congr (laneWord_run (.icmp f) f.g (fun _ => icmpLegal f) (fun _ => srcV (LW.ty f).wide f.a f.ea ++ srcB f (LW.ty f).wide) _ _ (fun _ => rfl) (fun _ _ _ => rfl)
      fun _ _ _ _ _ => Writes.plain_bit _ _ _) fun e w l => ?_
    simp only [intCompare_eq] <;> rfl
  case sel =>
    refine laneWord_congr_seen (laneWord_run (.sel f) f.g (fun _ => selLegal f) (fun _ => intSrcs f false) _ _ (fun _ => rfl) (fun _ _ _ => rfl)
      fun hw _ _ _ ho => Writes.plain_wv _ _ (lwFits_d hw) (selLegal_evenIf_d ho) List.nodup_nil) fun e w l _ hv => ?_
    rw [Env.view?_g hv]
  case mov =>
    refine laneWord_congr_seen (laneWord_run (.mov f) f.g (fun _ => movLegal f) (fun _ => movSrcs f) _ _ (fun _ => rfl) (fun _ _ _ => rfl)
      fun hw _ _ _ ho => Writes.plain_wv _ _ (lwFits_d hw) (movLegal_evenIf_d ho) List.nodup_nil) fun e w l _ hv => ?_
    rw [Env.view?_g hv]
  case movi =>
    refine laneWord_congr_legal (laneWord_run (.movi f) f.g (fun _ => moviLegal f && f.e.subop == 0 && evenIf (LW.ty f).wide f.d) (fun _ => dstV (LW.ty f).wide f.d) _ _ (fun _ => rfl) (fun _ _ _ => rfl)
      fun hw _ _ _ ho => Writes.plain_wv _ _ (lwFits_d (lwFits_of_and hw)) (Bool.and_eq_true_iff.mp ho).2 List.nodup_nil) fun e w l ho => ?_
    have hform : f.e.form = 1 := moviLegal_form (Bool.and_eq_true_iff.mp (Bool.and_eq_true_iff.mp ho).1).1
    rw [wr_bInt_immediate w l hform]
  case moviH =>
    exact laneWord_run (.moviH f) f.g (fun _ => moviLegal f && f.e.subop == 1 && decide (f.e.fs < 2)) (fun _ => [.v f.d false]) _ _ (fun _ => rfl) (fun _ _ _ => rfl)
      fun hw _ _ _ _ => Writes.plain_one _ (lwFits_d (lwFits_of_and hw))

/-! Floating words. -/

/-- A floating word with one result writes it and raises its flags. -/
theorem fpIs_fpWord {i : Instr} {f : LW} {types : List Nat} {rounds cSrc : Bool} (op : Fmt → Nat → Nat → Nat → Nat → Nat × Nat) (hx : ∀ s, exec i s = fpWord f types rounds cSrc op s)
    (hf : wellFormed i = true → lwFits f = true) : fpIs i f types rounds cSrc op :=
  laneWord_run i f.g (fun _ => fpLegal f types rounds true cSrc) (fun _ => fpSrcs f cSrc) _ _ hx (fun _ _ _ => rfl)
    fun hw _ _ _ ho => Writes.plain_wv _ _ (lwFits_d (hf hw)) (fpLegal_evenIf_d ho) List.nodup_nil

/-- A floating unary word writes its result and raises its flags. -/
theorem fpUnaryIs_fpUnary {i : Instr} {f : LW} {types : List Nat} {rounds one : Bool} (op : Fmt → Nat → Nat → Nat × Nat) (hx : ∀ s, exec i s = fpUnary f types rounds one op s)
    (hf : wellFormed i = true → lwFits f = true) : fpUnaryIs i f types rounds one op :=
  laneWord_run i f.g (fun _ => fpUnaryLegal f types rounds one) (fun _ => fpUnarySrcs f one) _ _ hx (fun _ _ _ => rfl)
    fun hw _ _ _ ho => Writes.plain_wv _ _ (lwFits_d (hf hw)) (fpUnaryLegal_evenIf_d ho) List.nodup_nil

/-- Settles O5: every word but FSCL and FCMP is an `fpWord`; FSCL writes a register or a pair, FCMP a mask bit. -/
theorem floatResults : Obligations.FloatResults := by
  unfold Obligations.FloatResults
  intro f
  refine ⟨?_, ?_, ?_, ?_, ?_, ?_, ?_, ?fscl, ?fcmp⟩
  case fscl =>
    exact laneWord_run (.fscl f) f.g (fun _ => fsclLegal f) (fun _ => srcV (f.e.fs == 1) f.a f.ea ++ srcB f false ++ dstV (f.e.fs == 1) f.d) _ _ (fun _ => rfl) (fun _ _ _ => rfl)
      fun hw _ _ _ ho => Writes.plain_wv _ _ (lwFits_d hw) (fsclLegal_evenIf_d ho) List.nodup_nil
  case fcmp =>
    exact laneWord_run (.fcmp f) f.g (fun _ => fcmpLegal f) (fun _ => srcV (f.e.fs == 1) f.a f.ea ++ srcB f (f.e.fs == 1)) _ _ (fun _ => rfl) (fun _ _ _ => rfl)
      fun _ _ _ _ _ => Writes.plain_bit _ _ _
  all_goals exact fpIs_fpWord _ (fun _ => rfl) id

/-- Settles O6: every word but SINCOS.T is an `fpUnary`, which writes one result; SINCOS.T writes the two registers of a pair. -/
theorem floatUnary : Obligations.FloatUnary := by
  unfold Obligations.FloatUnary
  intro f
  refine ⟨?_, ?_, ?_, ?_, ?_, ?_, ?_, ?_, ?_, ?_, ?_, ?_, ?_, ?sincos⟩
  case sincos =>
    exact laneWord_run (.sincosT f) f.g (fun _ => sincosLegal f) (fun _ => srcV false f.a f.ea ++ dstV true f.d) _ _ (fun _ => rfl) (fun _ _ _ => rfl)
      fun hw _ _ _ ho => Writes.plain_two _ _ _ (lwFits_d (lwFits_of_and hw)) (sincosLegal_even_d ho)
  all_goals exact fpUnaryIs_fpUnary _ (fun _ => rfl) lwFits_of_and

/-! Conversions (R191). -/

/-- A word under the slot that it names has legal fields where there is one and it suits. -/
theorem Env.slot_any {e : Env} {n : Nat} {p : Slotd → Bool} (h : (e.slot n).any p = true) : p (e.slotD n) = true := by
  unfold Env.slotD
  cases hs : e.slot n with
  | none => simp [hs] at h
  | some k => simpa [hs] using h

/-- A word whose meaning looks at its slot, in the terms of `slotD`. -/
theorem State.issue_slot {s : State} {n : Nat} {legal : Env → Slotd → Bool} {K : Env → Slotd → Out} :
    s.issue (fun e => match e.slot n with | none => e.illegal | some k => if !(legal e k) then e.illegal else K e k) =
      s.issue (fun e => if !((e.slot n).any (legal e)) then e.illegal else K e (e.slotD n)) :=
  State.issue_congr fun e _ => by
    unfold Env.slotD
    cases e.slot n <;> rfl

/-- A conversion writes the value in the slot's format. -/
theorem cvtIs_cvtWord {i : Instr} {f : LW} {isInt : Bool} {op : Slotd → Nat → Nat × Nat} (hx : ∀ s, exec i s = cvtWord f isInt s) (hf : wellFormed i = true → lwFits f = true)
    (hop : ∀ k a, op k a = if isInt then cvtInt k ((intTy f.e.subop).val a) else cvtFloat k f.e.subop (low (fmtOf f.e.subop).width a)) : cvtIs i f isInt op :=
  laneWord_run i f.g (fun e => (e.slot f.e.fs).any (cvtLegal f isInt)) (fun e => cvtSrcs f isInt (e.slotD f.e.fs))
    (fun e w l => .ok ⟨wv (slotBits (e.slotD f.e.fs).code == 64) f.d (op (e.slotD f.e.fs) (w.reg (cvtWide f isInt) l f.a)).1, [], (op (e.slotD f.e.fs) (w.reg (cvtWide f isInt) l f.a)).2⟩)
    _ (fun s => by
      rw [hx, cvtWord]
      simp only [hop]
      exact State.issue_slot (legal := fun _ => cvtLegal f isInt)) (fun _ _ _ => rfl)
    fun hw _ _ _ ho => Writes.plain_wv _ _ (lwFits_d (hf hw)) (cvtLegal_evenIf_d (Env.slot_any ho)) List.nodup_nil

/-- Settles O7: both words are a `cvtWord`. -/
theorem conversions : Obligations.Conversions := by
  unfold Obligations.Conversions
  intro f
  exact ⟨cvtIs_cvtWord (fun _ => rfl) id fun _ _ => rfl, cvtIs_cvtWord (fun _ => rfl) id fun _ _ => rfl⟩

/-! Reductions (R203). -/

/-- Settles O10: both words are cross-lane issues that set the empty flag; REDU writes every lane or one s register. -/
theorem reductions : Obligations.Reductions := by
  unfold Obligations.Reductions
  intro f
  refine ⟨?redu, ?scan⟩
  case redu =>
    refine laneWord_runX (.redu f) f.g (fun _ => reduLegal f && evenIf (reduWide f) f.a && (f.e.bs || evenIf (reduWide f) f.d)) (fun _ => srcV (reduWide f) f.a f.ea)
      (fun _ => if f.e.bs then dstS f.d else dstV (reduWide f) f.d) (fun _ => ownReads (reduWide f) f) _
      (fun _ w => if f.e.bs then some (f.d, BitVec.ofNat 64 (w.redu f w.act).1) else none) (fun _ => if f.e.bs then some f.d else none) true (fun _ => rfl)
      (fun _ _ => by split <;> rfl) fun hw e w l ho => ?_
    obtain ⟨-, hd⟩ := Bool.and_eq_true_iff.mp ho
    cases hb : f.e.bs with
    | true => exact ⟨by simp, List.nodup_nil, List.nodup_nil⟩
    | false => exact Writes.plain_wv _ _ (lwFits_d hw) (by simpa [hb] using hd) List.nodup_nil
  case scan =>
    exact laneWord_runX (.scan f) f.g (fun _ => reduLegal f && !f.e.bs && evenIf (reduWide f) f.a && evenIf (reduWide f) f.d) (fun _ => srcV (reduWide f) f.a f.ea) (fun _ => dstV (reduWide f) f.d)
      (fun _ => ownReads (reduWide f) f) _ (fun _ _ => none) (fun _ => none) true (fun _ => rfl) (fun _ _ => rfl)
      fun hw e w l ho => Writes.plain_wv _ _ (lwFits_d hw) (Bool.and_eq_true_iff.mp ho).2 List.nodup_nil

end Sys2Proof.Machine
end

section
/-! The statement about block words (R193 to R196). -/

namespace Sys2Proof.Machine

/-! Calm registers: a word meets nothing at them. -/

/-- A group whose registers are all full, bound to no stream and backed gives every lane its registers. -/
theorem Env.calm_check {e : Env} (h : e.calm) (act : List Nat) (xs : List Src) (l : Nat) (x : Src) : (e.view act xs).check l x = none := by
  obtain ⟨hheld, hbinds, hholes, hv, hs⟩ := h
  have hbound : e.g.bound [] xs = [] := by simp [Group.bound, hbinds]
  have hview : e.view act xs = { g := e.g, act := act, pops := [], dry := [], ended := [], tlen := recTlen e.u.record } := by
    unfold Env.view
    simp [hheld, hbound]
  have hunfilled : e.g.unfilled (recTlen e.u.record) l x = none := by simp [Group.unfilled, hholes]
  rw [hview]
  unfold View.check
  cases hx : x.sreg <;> simp [View.elem, hunfilled, hv, hs]

theorem Env.calm_view? {e : Env} (h : e.calm) (gn : Nat) (xs : List Src) : e.view? gn xs = some (e.view (e.guarded gn) xs) := by
  unfold Env.view?
  rw [if_pos]
  simp [View.checks, List.findSome?_eq_none_iff, e.calm_check h]

theorem Env.calm_viewX? {e : Env} (h : e.calm) (gn : Nat) (pop xs : List Src) (reads : View → Nat → List (Nat × Src)) : e.viewX? gn pop xs reads none = some (e.view (e.guarded gn) pop) := by
  have hmeets (l : Nat) : (e.view (e.guarded gn) pop).meets xs reads l = none := by
    have hown : (e.view (e.guarded gn) pop).checks l xs = none := by simp [View.checks, List.findSome?_eq_none_iff, e.calm_check h]
    unfold View.meets
    rw [hown]
    simp [List.findSome?_eq_none_iff, e.calm_check h]
  unfold Env.viewX?
  rw [if_pos]
  simp [hmeets]

/-- What a completed lane issue leaves of its unit and of memory, seen from the issue before its pops. -/
theorem Env.laneResult_popped {e : Env} {t : State} {w w' : View} {xs : List Src} {wr : Nat → Writes} (h : (e.popped w' xs).laneResult t w wr) :
    ∃ u g, e.into t u g ∧ e.goOn g ∧ u.stop = e.u.stop ∧ ∀ a, Memory.read t.mem a = Memory.read e.s.mem a := by
  obtain ⟨u, g, ⟨hinto, hunit, -, hmem⟩, hgo, -⟩ := h
  have hstop := congrArg WorkUnit.stop hunit
  exact ⟨u, g, hinto, hgo, hstop, hmem⟩

/-- A word that sees its registers wherever they are calm completes there. -/
theorem calmWord_of_laneWord {i : Instr} {ok : Env → Bool} {see : Env → Option View} {xs : Env → List Src} {wr : Env → View → Nat → Writes}
    (h : laneWord i ok see (fun e w => e.popped w (xs e)) wr) (hsee : ∀ e, e.calm → ∃ w, see e = some w) : calmWord i ok := by
  intro s e he hf ho hcalm
  obtain ⟨w, hw⟩ := hsee e hcalm
  obtain ⟨t, ht, hres⟩ := (h s e he hf).1 ho w hw
  obtain ⟨u, g, hres⟩ := Env.laneResult_popped hres
  exact ⟨t, u, g, ht, hres⟩

/-! Block words. -/

theorem Writes.plain_v {f : LW} (x : Nat) (fl : Nat) (hw : lwFits f = true) : Writes.plain ⟨wv false f.d x, [], fl⟩ := Writes.plain_wv _ _ (lwFits_d hw) (evenIf_false _) List.nodup_nil

/-- A block word computed from the lanes of a block of b. -/
theorem blockIs_runX {i : Instr} {f : LW} {legal : Env → LW → Slotd → Bool} {b : Slotd → Nat} {wr : View → Slotd → Nat → Writes}
    (hx : ∀ s, exec i s = s.issue (fun e => match e.slot f.e.fs with
      | none => e.illegal
      | some k => if !(legal e f k) then e.illegal else
        e.runX f.g [.v f.a f.ea] (dstV false f.d) (fun w l => w.blockReads (b k) l f.a f.ea) (fun w l => wr w k l) (fun _ => none) false))
    (hf : wellFormed i = true → lwFits f = true) (hp : lwFits f = true → ∀ w k l, (wr w k l).plain) : blockIs i f legal (fun _ => false) b wr := by
  have hword : laneWord i (fun e => (e.slot f.e.fs).any (legal e f))
      (fun e => e.viewX? f.g [.v f.a f.ea] (dstV false f.d) (fun w l => w.blockReads (b (e.slotD f.e.fs)) l f.a f.ea) none)
      (fun e w => e.popped w (dstV false f.d)) (fun e w l => wr w (e.slotD f.e.fs) l) :=
    laneWord_runX i f.g (fun e => (e.slot f.e.fs).any (legal e f)) (fun _ => [.v f.a f.ea]) (fun _ => dstV false f.d) (fun e w l => w.blockReads (b (e.slotD f.e.fs)) l f.a f.ea)
      (fun e w l => wr w (e.slotD f.e.fs) l) (fun _ _ => none) (fun _ => none) false (fun s => (hx s).trans State.issue_slot) (fun _ _ => rfl) fun hw _ _ _ _ => hp (hf hw) _ _ _
  exact ⟨hword, calmWord_of_laneWord hword fun e he => ⟨_, e.calm_viewX? he _ _ _ _⟩⟩

/-- QUNPK under its slot: the lanes of a block where the slot has a transform, each lane's own register else (R195). -/
def qunpkRun (f : LW) (e : Env) (k : Slotd) : Out :=
  if k.had then e.runX f.g [.v f.a f.ea] (dstV false f.d) (fun w l => w.blockReads k.block l f.a f.ea) (fun w l => w.unpackedHad f k l) (fun _ => none) false
  else e.run f.g (srcV false f.a f.ea ++ dstV false f.d) (fun w l => .ok (w.unpacked f k l))

theorem exec_qunpk {f : LW} {s : State} {e : Env} (h : e.ofLanes s) : exec (.qunpk f) s = if !((e.slot f.e.fs).any (qunpkLegal e f)) then e.illegal else qunpkRun f e (e.slotD f.e.fs) := by
  rw [← State.issue_lanes s e h (fun e => if !((e.slot f.e.fs).any (qunpkLegal e f)) then e.illegal else qunpkRun f e (e.slotD f.e.fs))]
  exact State.issue_slot (legal := fun e k => qunpkLegal e f k) (K := qunpkRun f)

theorem qunpk_blockIs (f : LW) : blockIs (.qunpk f) f qunpkLegal (fun k => !k.had) (·.block) (fun w k l => if k.had then w.unpackedHad f k l else w.unpacked f k l) := by
  have hword : laneWord (.qunpk f) (fun e => (e.slot f.e.fs).any (qunpkLegal e f))
      (fun e => if !(e.slotD f.e.fs).had then e.view? f.g (blockXs f true) else e.viewX? f.g [.v f.a f.ea] (blockXs f false) (fun w l => w.blockReads (e.slotD f.e.fs).block l f.a f.ea) none)
      (fun e w => e.popped w (blockXs f (!(e.slotD f.e.fs).had))) (fun e w l => if (e.slotD f.e.fs).had then w.unpackedHad f (e.slotD f.e.fs) l else w.unpacked f (e.slotD f.e.fs) l) := by
    intro s e h hw
    rw [exec_qunpk h]
    refine ⟨fun ho w hv => ?_, fun ho => by simp [ho]⟩
    simp only [ho, Bool.not_true, Bool.false_eq_true, if_false]
    unfold qunpkRun
    cases hhad : (e.slotD f.e.fs).had with
    | true =>
      simp only [hhad, Bool.not_true, Bool.false_eq_true, if_false, if_true] at hv ⊢
      exact Env.runX_result e s f.g _ _ _ _ (fun _ => none) none false w h hv rfl fun _ _ => Writes.plain_v _ _ hw
    | false =>
      simp only [hhad, Bool.not_false, Bool.false_eq_true, if_false, if_true] at hv ⊢
      exact Env.run_result e s f.g _ _ w _ h hv (fun _ _ => rfl) fun _ _ => Writes.plain_v _ _ hw
  refine ⟨hword, calmWord_of_laneWord hword fun e he => ?_⟩
  simp only [e.calm_view? he, e.calm_viewX? he]
  split <;> exact ⟨_, rfl⟩

/-- Settles O8: QPACK and HAD are cross-lane issues over a block, QUNPK one or a per-lane issue by its slot; registers that are calm are always seen. -/
theorem blockFormats : Obligations.BlockFormats := by
  unfold Obligations.BlockFormats
  intro f
  refine ⟨?qpack, qunpk_blockIs f, ?had⟩
  case qpack => exact blockIs_runX (fun _ => rfl) id fun hw _ _ _ => Writes.plain_v _ _ hw
  case had => exact blockIs_runX (fun _ => rfl) id fun hw _ _ _ => Writes.plain_v _ _ hw

end Sys2Proof.Machine
end

section
/-! What an access leaves behind of the package (R74, R316, R318): its translation and its sharer are recorded, and copies that a full directory gives up are told to fences. -/

namespace Sys2Proof.Machine

/-- Two states that differ in their TLB entries, their directory and what fences have met at most. -/
def State.cached (s t : State) : Prop := { t with tlb := s.tlb, dir := s.dir, units := s.units } = s

theorem State.cached_trans {s t x : State} (h : s.cached t) (k : t.cached x) : s.cached x := by
  unfold State.cached at *
  rw [← k] at h
  exact h

theorem State.cached_mem {s t : State} (h : s.cached t) : t.mem = s.mem := by have := congrArg State.mem h; exact this
theorem State.cached_binders {s t : State} (h : s.cached t) : t.binders = s.binders := by have := congrArg State.binders h; exact this

theorem State.keepDie_cached (s : State) (t : TlbEntry) : s.cached (s.keepDie t) := by
  unfold State.keepDie
  simp only []
  split
  · rfl
  · split
    · rfl
    · split <;> rfl

theorem State.keepCore_cached (s : State) (t : TlbEntry) : s.cached (s.keepCore t) := by
  unfold State.keepCore
  simp only []
  split <;> rfl

theorem State.learnAt_cached (s : State) (core : Nat) (t : Option TlbEntry) : s.cached (s.learnAt core t) := by
  cases t with
  | none => rfl
  | some t => exact State.cached_trans (s.keepDie_cached t) (State.keepCore_cached _ _)

theorem State.makeRoom_cached (s : State) (line home : Nat) : s.cached (s.makeRoom line home) := by
  unfold State.makeRoom
  simp only []
  split
  · rfl
  · split
    · rfl
    · split <;> rfl

theorem State.entryFor_cached (s : State) (line home : Nat) : s.cached (s.entryFor line home).1 := by
  unfold State.entryFor
  split
  · rfl
  · exact s.makeRoom_cached line home

theorem State.share_cached (s : State) (core : Nat) (lines : List (Nat × Nat)) : s.cached (s.share core lines) := by
  unfold State.share
  induction lines generalizing s with
  | nil => rfl
  | cons p lines ih =>
    refine State.cached_trans ?_ (ih _)
    simp only []
    split
    · rfl
    · exact State.cached_trans (s.entryFor_cached p.1 p.2) rfl

theorem Env.touched_cached (e : Env) (ls : List Nat) (a : Acc) (b : Bool) : e.s.cached (e.touched ls a b).s :=
  State.cached_trans (e.s.learnAt_cached e.u.core a.tlb) (State.share_cached _ _ _)

@[simp] theorem Env.touched_mem (e : Env) (ls : List Nat) (a : Acc) (b : Bool) : (e.touched ls a b).s.mem = e.s.mem := State.cached_mem (e.touched_cached ls a b)
@[simp] theorem Env.touched_binders (e : Env) (ls : List Nat) (a : Acc) (b : Bool) : (e.touched ls a b).s.binders = e.s.binders := State.cached_binders (e.touched_cached ls a b)

/-- Of its group, an access changes what fences have met only. -/
theorem Env.touched_g (e : Env) (ls : List Nat) (a : Acc) (b : Bool) : { (e.touched ls a b).g with fences := e.g.fences } = e.g := by
  unfold Env.touched Group.hitFences
  simp only []
  split <;> rfl

@[simp] theorem Env.touched_inflight (e : Env) (ls : List Nat) (a : Acc) (b : Bool) : (e.touched ls a b).g.inflight = e.g.inflight := by
  have := congrArg Group.inflight (e.touched_g ls a b); exact this
@[simp] theorem Env.touched_getV (e : Env) (ls : List Nat) (a : Acc) (b : Bool) (l n : Nat) : (e.touched ls a b).g.getV l n = e.g.getV l n := by
  have := congrArg Group.v (e.touched_g ls a b)
  unfold Group.getV
  rw [show (e.touched ls a b).g.v = e.g.v from this]
@[simp] theorem Env.touched_emptyV (e : Env) (ls : List Nat) (a : Acc) (b : Bool) (l n : Nat) : (e.touched ls a b).g.emptyV l n = e.g.emptyV l n := by
  have := congrArg Group.ve (e.touched_g ls a b)
  unfold Group.emptyV
  rw [show (e.touched ls a b).g.ve = e.g.ve from this]
@[simp] theorem Env.touched_getS (e : Env) (ls : List Nat) (a : Acc) (b : Bool) (n : Nat) : (e.touched ls a b).g.getS n = e.g.getS n := by
  have := congrArg Group.s (e.touched_g ls a b)
  unfold Group.getS
  rw [show (e.touched ls a b).g.s = e.g.s from this]
@[simp] theorem Env.touched_emptyS (e : Env) (ls : List Nat) (a : Acc) (b : Bool) (n : Nat) : (e.touched ls a b).g.emptyS n = e.g.emptyS n := by
  have := congrArg Group.se (e.touched_g ls a b)
  unfold Group.emptyS
  rw [show (e.touched ls a b).g.se = e.g.se from this]

end Sys2Proof.Machine
end

section
/-! The statement about loads (R66, R209, R210, R213 to R215, R221): the words taken lane by lane or by one access, and what each step leaves. -/

namespace Sys2Proof.Machine

/-! Full and empty registers (R44). -/

theorem Group.emptyV_markV (g : Group) (l n k m : Nat) (b : Bool) (hn : n < 64) (hm : m < 64) : (g.markV l n b).emptyV k m = if k = l ∧ m = n then b else g.emptyV k m := by
  unfold Group.emptyV Group.markV
  rw [SMap.get_put]
  by_cases h : k = l ∧ m = n
  · obtain ⟨rfl, rfl⟩ := h; simp
  · rw [if_neg h, if_neg fun hk => h (Group.key_inj hm hn hk)]

theorem Group.emptyS_markS (g : Group) (n k : Nat) (b : Bool) : (g.markS n b).emptyS k = if k = n then b else g.emptyS k := SMap.get_put _ _ _ _ _

/-- Registers of a lane marked empty, one after the other. -/
theorem Group.emptyV_foldl_markV (l : Nat) (ds : List Nat) (g : Group) (k n : Nat) (hds : ∀ d ∈ ds, d < 64) (hn : n < 64) :
    (ds.foldl (fun (g : Group) d => g.markV l d true) g).emptyV k n = (g.emptyV k n || decide (k = l ∧ n ∈ ds)) := by
  induction ds generalizing g with
  | nil => simp
  | cons d ds ih =>
    rw [List.foldl_cons, ih _ fun x hx => hds x (List.mem_cons_of_mem _ hx), Group.emptyV_markV _ _ _ _ _ _ (hds d List.mem_cons_self) hn]
    by_cases hk : k = l <;> by_cases hd : n = d <;> simp [hk, hd]

/-- Marking registers empty touches nothing else. -/
theorem Group.foldl_markV_other (l : Nat) (ds : List Nat) (g : Group) : { ds.foldl (fun (g : Group) d => g.markV l d true) g with ve := g.ve } = g := by
  induction ds generalizing g with
  | nil => rfl
  | cons d ds ih =>
    have h := ih (g.markV l d true)
    rw [List.foldl_cons]
    generalize ds.foldl (fun (g : Group) d => g.markV l d true) (g.markV l d true) = x at h ⊢
    cases x; cases g
    simp only [Group.markV, Group.mk.injEq] at h ⊢
    simp_all

/-! Producers. -/

theorem Env.produce_parts (e : Env) (p : Producer) (h : p.parts ≠ []) : e.produce p = { e with g := { e.g with inflight := e.g.inflight ++ [{ p with at_ := e.c.pc, seq := e.g.seq + 1 }] } } := by
  unfold Env.produce
  rw [if_neg (by simpa using h)]

/-- Producers of one kind have their parts as one. -/
theorem mergeProds_parts (ps : List Producer) : (mergeProds ps).flatMap (·.parts) = ps.flatMap (·.parts) := by
  unfold mergeProds
  split
  · rfl
  · split
    · simp
    · rfl

/-- One producer is left as it is. -/
theorem mergeProds_one (p : Producer) : mergeProds [p] = [p] := by simp [mergeProds]

/-- Merging loses no part and adds none (R210). -/
theorem Env.mem_merge_parts (e : Env) (n : Nat) (x : Part) : x ∈ (e.merge n).g.inflight.flatMap (·.parts) ↔ x ∈ e.g.inflight.flatMap (·.parts) := by
  have hgroup : x ∈ ((((e.g.inflight.drop n).map (·.peer)).eraseDups).flatMap (fun d => mergeProds ((e.g.inflight.drop n).filter (fun p => p.peer == d)))).flatMap (·.parts) ↔
      x ∈ (e.g.inflight.drop n).flatMap (·.parts) := by
    rw [List.flatMap_assoc]
    simp only [mergeProds_parts, List.mem_flatMap, List.mem_eraseDups, List.mem_map, List.mem_filter, beq_iff_eq]
    constructor
    · rintro ⟨d, -, p, ⟨hp, -⟩, hx⟩
      exact ⟨p, hp, hx⟩
    · rintro ⟨p, hp, hx⟩
      exact ⟨p.peer, ⟨p, hp, rfl⟩, p, ⟨hp, rfl⟩, hx⟩
  unfold Env.merge
  simp only [List.flatMap_append, List.mem_append, hgroup]
  rw [← List.mem_append, ← List.flatMap_append, List.take_append_drop]

/-- One producer that an issue has added stays as it is. -/
theorem Env.merge_one {e : Env} {n : Nat} {p : Producer} {ps : List Producer} (hn : ps.length = n) (h : e.g.inflight = ps ++ [p]) : (e.merge n).g.inflight = ps ++ [p] := by
  subst hn
  unfold Env.merge
  have hone : ([p].map (·.peer)).eraseDups = [p.peer] := by simp [List.eraseDups_cons]
  simp only [h, List.take_left', List.drop_left', hone]
  simp [mergeProds_one]

/-- A producer of one access to an s register, after its access. -/
theorem Env.produceS_spec (e e1 : Env) (d : Nat) (p : Producer) (hp : p.parts ≠ []) (hi : e1.g.inflight = e.g.inflight) :
    let r := (Env.produce { e1 with g := e1.g.markS d true } p).merge e.g.inflight.length
    r.s = e1.s ∧ (∀ n, r.g.getS n = e1.g.getS n) ∧ (∀ n, r.g.emptyS n = (e1.g.emptyS n || decide (n = d))) ∧
      ∃ q, r.g.inflight = e.g.inflight ++ [q] ∧ q.kind = p.kind ∧ q.commit = p.commit ∧ q.parts = p.parts := by
  intro r
  have hr : r = Env.merge { e1 with g := { e1.g.markS d true with inflight := e1.g.inflight ++ [{ p with at_ := e1.c.pc, seq := e1.g.seq + 1 }] } } e.g.inflight.length :=
    congrArg (Env.merge · _) (Env.produce_parts _ p hp)
  rw [hr]
  have hin : ({ e1.g.markS d true with inflight := e1.g.inflight ++ [{ p with at_ := e1.c.pc, seq := e1.g.seq + 1 }] } : Group).inflight =
      e.g.inflight ++ [{ p with at_ := e1.c.pc, seq := e1.g.seq + 1 }] := congrArg (· ++ [_]) hi
  refine ⟨rfl, fun _ => rfl, fun n => ?_, ⟨_, Env.merge_one rfl hin, rfl, rfl, rfl⟩⟩
  refine (Group.emptyS_markS e1.g d n true).trans ?_
  by_cases h : n = d <;> simp [h]

/-! The words. -/

/-- A load taken lane by lane: it keeps its issue, and every lane's step completes. -/
theorem loadIs_loadWord {i : Instr} {f : LW} {legal : Bool} {n align : Nat} {dests : List Nat} {kind : Nat → ProdKind}
    (hx : ∀ s, exec i s = s.issue (fun e => if !legal then e.illegal else loadWord f n align dests kind s)) : loadIs i f legal n align dests kind :=
  eachIs_each i f.g (fun _ => legal) false (fun _ _ => loadSrcs f dests) (fun e => e.loadCheck f n align) (fun e w ps => e.loadWaits w.act (keysOf ps)) (fun _ => loadLane f dests kind)
    (fun e e1 _ => e1.merge e.g.inflight.length) always Env.keeps (fun s => (hx s).trans (State.issue_nest s _ _ _)) Env.keeps_popped
    (fun _ w _ l a h => loadLane_keeps f dests kind w l a h) (fun _ _ _ h => Env.keeps_trans h (Env.keeps_merge _ _)) fun _ _ _ _ _ _ _ => rfl

/-- A lane word of one access that takes no turn and that nothing follows. -/
theorem onceIs_once {α : Type} (i : Instr) (gn : Nat) (ok : Env → Bool) (ss : Bool) (xs : List Src) (chk : Env → View → Nat → Except LFault α) (waits : Env → List Nat → Nat → α → Bool)
    (k : Env → View → Nat → α → Env × LaneOut) (fine : Env → View → Nat → α → Prop)
    (hx : ∀ s, exec i s = s.issue (fun e => if !(ok e) then e.illegal else e.once gn ss xs (chk e) (waits e) (k e)))
    (hk : ∀ (e0 e : Env) (w : View) (l : Nat) (a : α), e0.keeps e → e0.keeps (k e w l a).1)
    (hf : ∀ (e : Env) (w : View) (l : Nat) (a : α), fine e w l a → (k e w l a).2 = .next) : onceIs i gn ok ss xs chk waits k fine :=
  onceIf_once (fun _ => true) (fun e => .go e 0) i gn ok ss xs chk waits (fun _ => k) (fun _ t => t) fine _ hx (fun _ _ _ => Env.once_next _ _ _ _ _ _ _)
    (fun e => ⟨rfl, e.keeps_refl⟩) (fun _ e w l a _ => hk e e w l a e.keeps_refl) fun _ => hf

/-! What the steps leave. -/

/-- One lane's load leaves memory and registers, its destinations empty, and a producer that names lane, destination and bytes. -/
theorem loadLane_spec (f : LW) (dests : List Nat) (kind : Nat → ProdKind) (w : View) (e : Env) (l : Nat) (acc : Acc) (hds : ∀ d ∈ dests, d < 64) :
    let r := loadLane f dests kind w e l acc
    r.2 = .next ∧ r.1.s.mem = e.s.mem ∧ (∀ k n, r.1.g.getV k n = e.g.getV k n) ∧ (∀ k n, n < 64 → r.1.g.emptyV k n = (e.g.emptyV k n || decide (k = l ∧ n ∈ dests))) ∧
      ∃ p, r.1.g.inflight = e.g.inflight ++ [p] ∧ p.kind = kind (acc.scope f.e.subop) ∧ p.commit = false ∧ p.parts.map (fun x => (x.lane, x.dest, x.keys)) = [(l, .v l f.d, acc.keys)] := by
  intro r
  have hother := Group.foldl_markV_other l dests (e.touched [l] acc true).g
  have hempty := fun k n => Group.emptyV_foldl_markV l dests (e.touched [l] acc true).g k n hds
  refine ⟨rfl, e.touched_mem [l] acc true, fun k n => ?_, fun k n hn => ?_, ?_⟩
  · have hv := congrArg Group.v hother
    exact (congrArg (fun m => SMap.get 0 m (64 * k + n)) hv).trans (e.touched_getV [l] acc true k n)
  · rw [← e.touched_emptyV [l] acc true]; exact hempty k n hn
  · have hi := congrArg Group.inflight hother
    exact ⟨_, congrArg (· ++ [_]) (Eq.trans hi (e.touched_inflight [l] acc true)), rfl, rfl, rfl⟩

/-- LDS's one access. -/
theorem ldsStep_spec (f : LW) (w : View) (e : Env) (l : Nat) (acc : Acc) :
    let r := ldsStep f e w l acc
    r.2 = .next ∧ r.1.s.mem = e.s.mem ∧ (∀ n, r.1.g.getS n = e.g.getS n) ∧ (∀ n, r.1.g.emptyS n = (e.g.emptyS n || decide (n = f.d))) ∧
      ∃ p, r.1.g.inflight = e.g.inflight ++ [p] ∧ p.kind = .load (sizeBytes f.e.fs) (LW.ty f).sgn (acc.scope f.e.subop) ∧ p.commit = false ∧
        p.parts.map (fun x => (x.lane, x.dest, x.keys)) = [(l, .s f.d, acc.keys)] := by
  intro r
  obtain ⟨hs, hget, hempty, p, hin, hkind, hcommit, hparts⟩ := Env.produceS_spec e (e.touched w.act acc true) f.d
    { kind := .load (sizeBytes f.e.fs) (LW.ty f).sgn (acc.scope f.e.subop), parts := [{ e.part l (.s f.d) acc (addrNat (w.addr f l)) with others := w.act.filter (· != l) }], pc := e.next, commit := false }
    (List.cons_ne_nil _ _) (e.touched_inflight w.act acc true)
  simp only [Env.touched_getS, Env.touched_emptyS] at hget hempty
  exact ⟨rfl, (congrArg State.mem hs).trans (e.touched_mem w.act acc true), hget, hempty, p, hin, hkind, hcommit, by rw [hparts]; rfl⟩

/-! LDL (R66, R221). -/

theorem leNat_lt (bs : List Byte) : leNat bs < 256 ^ bs.length := by
  induction bs with
  | nil => simp [leNat]
  | cons b bs ih =>
    have hb : b.toNat < 256 := b.isLt
    rw [leNat, List.length_cons, pow_succ]
    omega

theorem State.rd8_lt (s : State) (k : Nat) : s.rd8 k < 2 ^ 64 := by
  have := leNat_lt ((upFrom k 8).map (Memory.read s.mem))
  simp only [List.length_map, upFrom, List.length_range] at this
  exact lt_of_lt_of_eq this (by norm_num)

/-- The state of an entry, in the top bits of its first word, where the bits below them are 0 (R62). -/
theorem ldl_bits {x k : Nat} (hx : x < 2 ^ 64) (h : x / 2 ^ 48 = k * 2 ^ 14) : bits x 48 14 = 0 ∧ bits x 62 2 = k := by
  unfold bits; constructor <;> omega

/-- LDL at an entry that is neither malformed nor of another state. -/
theorem ldlStep_of_bits {f : LW} {e : Env} {w : View} {l : Nat} {acc : Acc} (h : bits (e.s.rd8 (acc.keys.headD 0)) 48 14 = 0) :
    ldlStep f e w l acc =
      match bits (e.s.rd8 (acc.keys.headD 0)) 62 2 with
      | 2 => (((Env.produce { e.touched w.act acc true with g := (e.touched w.act acc true).g.markS f.d true }
          { kind := .load 8 false 5, parts := [{ lane := l, dest := .s f.d, keys := upFrom (acc.keys.headD 0 + 8) 8, fwd := (leBytes 8 (e.s.rd8 (acc.keys.headD 0 + 8))).map some, x := 0, e := 0,
                                                 addr := addrNat ⟨4, ((16 * f.e.imm : Nat) : Int)⟩, peer := none, others := w.act.filter (· != l), recs := acc.recs }], pc := e.next, commit := false }).merge
          e.g.inflight.length), .next)
      | 1 => (e.touched w.act acc true, .park .bindingEntry (addrNat ⟨4, ((16 * f.e.imm : Nat) : Int)⟩))
      | _ => ({ e.touched w.act acc true with s := { (e.touched w.act acc true).s.entryState (acc.entry e.s) 1 with
          binders := ((e.touched w.act acc true).s.entryState (acc.entry e.s) 1).binders ++ [⟨recCtx e.u.record, acc.entry e.s, e.u.uid, e.c.grp, false, []⟩] } },
          .fault (lf 0x01 (addrNat ⟨4, ((16 * f.e.imm : Nat) : Int)⟩) false)) := by
  unfold ldlStep
  simp only [h, bne_self_eq_false, Bool.false_eq_true, if_false] <;> rfl

/-- LDL of a bound entry is a load of its second word. -/
theorem ldlStep_bound (f : LW) (w : View) (e : Env) (l : Nat) (acc : Acc) (h : e.s.rd8 (acc.keys.headD 0) / 2 ^ 48 = 2 ^ 15) :
    let r := ldlStep f e w l acc
    r.2 = .next ∧ r.1.s.mem = e.s.mem ∧ (∀ n, r.1.g.getS n = e.g.getS n) ∧ (∀ n, r.1.g.emptyS n = (e.g.emptyS n || decide (n = f.d))) ∧
      ∃ p, r.1.g.inflight = e.g.inflight ++ [p] ∧ p.kind = .load 8 false 5 ∧ p.commit = false ∧ p.parts.map (fun x => (x.lane, x.dest, x.keys)) = [(l, .s f.d, upFrom (acc.keys.headD 0 + 8) 8)] := by
  intro r
  obtain ⟨hlow, hstate⟩ := ldl_bits (k := 2) (e.s.rd8_lt _) (h.trans (by norm_num))
  obtain ⟨hs, hget, hempty, p, hin, hkind, hcommit, hparts⟩ := Env.produceS_spec e (e.touched w.act acc true) f.d
    { kind := .load 8 false 5, parts := [{ lane := l, dest := .s f.d, keys := upFrom (acc.keys.headD 0 + 8) 8, fwd := (leBytes 8 (e.s.rd8 (acc.keys.headD 0 + 8))).map some, x := 0, e := 0,
                                           addr := addrNat ⟨4, ((16 * f.e.imm : Nat) : Int)⟩, peer := none, others := w.act.filter (· != l), recs := acc.recs }], pc := e.next, commit := false }
    (List.cons_ne_nil _ _) (e.touched_inflight w.act acc true)
  have hr : r = _ := ldlStep_of_bits hlow
  rw [hstate] at hr
  rw [hr]
  simp only [Env.touched_getS, Env.touched_emptyS] at hget hempty
  exact ⟨rfl, (congrArg State.mem hs).trans (e.touched_mem w.act acc true), hget, hempty, p, hin, hkind, hcommit, by rw [hparts]; rfl⟩

/-- LDL at an entry that is being bound parks its lanes. -/
theorem ldlStep_binding (f : LW) (w : View) (e : Env) (l : Nat) (acc : Acc) (h : e.s.rd8 (acc.keys.headD 0) / 2 ^ 48 = 2 ^ 14) :
    (ldlStep f e w l acc).2 = .park .bindingEntry (addrNat ⟨4, ((16 * f.e.imm : Nat) : Int)⟩) ∧ (ldlStep f e w l acc).1.s.mem = e.s.mem := by
  obtain ⟨hlow, hstate⟩ := ldl_bits (k := 1) (e.s.rd8_lt _) (h.trans (by norm_num))
  rw [ldlStep_of_bits hlow, hstate]
  exact ⟨rfl, e.touched_mem w.act acc true⟩

theorem State.rd8_congr {s t : State} (h : t.mem = s.mem) (k : Nat) : t.rd8 k = s.rd8 k := by
  unfold State.rd8 State.rd; rw [h]

/-- A word of 64 bits reads back. -/
theorem State.rd8_wr8 (s : State) (k v : Nat) (hv : v < 2 ^ 64) : (s.wr8 k v).rd8 k = v := by
  have hnodup : (upFrom k 8).Nodup := List.nodup_range.map (fun _ _ h => Nat.add_left_cancel h)
  unfold State.rd8 State.rd
  rw [State.wr8_mem, Memory.map_read_writeAll _ _ _ hnodup (by simp [upFrom, Laws.length_leBytes])]
  exact Laws.leNat_leBytes (lt_of_lt_of_eq hv (by norm_num))

theorem State.wrEntry_binders (s : State) (x : LinkEntry) (off v : Nat) : (s.wrEntry x off v).binders = s.binders :=
  foldl_keep State.binders (fun (s : State) k => s.wr8 k v) (fun _ _ => rfl) _ s

/-- The state of an entry whose words stand in one place. -/
theorem State.entryState_mem (s : State) (x : LinkEntry) (st : Nat) (h : x.repl = false) : (s.entryState x st).mem = (s.wr8 x.key (s.rd8 x.key % 2 ^ 62 + st * 2 ^ 62)).mem := by
  have hkeys : x.keysAt s 0 = [x.key] := by simp [LinkEntry.keysAt, h]
  unfold State.entryState State.wrEntry
  rw [hkeys]; rfl

/-- LDL at an unbound entry writes it as binding, and its lanes have 0x01. -/
theorem ldlStep_unbound (f : LW) (w : View) (e : Env) (l : Nat) (acc : Acc) (h : e.s.rd8 (acc.keys.headD 0) / 2 ^ 48 = 0) :
    (ldlStep f e w l acc).2 = .fault (lf 0x01 (addrNat ⟨4, ((16 * f.e.imm : Nat) : Int)⟩) false) ∧
      (ldlStep f e w l acc).1.s.binders = e.s.binders ++ [⟨recCtx e.u.record, acc.entry e.s, e.u.uid, e.c.grp, false, []⟩] ∧
      (acc.g.kind ≠ .repl → (ldlStep f e w l acc).1.s.rd8 (acc.keys.headD 0) = e.s.rd8 (acc.keys.headD 0) + 2 ^ 62) := by
  have hlt := e.s.rd8_lt (acc.keys.headD 0)
  obtain ⟨hlow, hstate⟩ := ldl_bits (k := 0) hlt (by rw [h]; norm_num)
  rw [ldlStep_of_bits hlow, hstate]
  refine ⟨rfl, congrArg (· ++ [_]) ((State.wrEntry_binders _ _ _ _).trans (e.touched_binders w.act acc true)), fun hk => ?_⟩
  have hrepl : (acc.entry e.s).repl = false := by simpa [Acc.entry] using hk
  have hkey : (acc.entry e.s).key = acc.keys.headD 0 := by
    have : (acc.g.kind == .repl) = false := by simpa using hk
    simp [Acc.entry, this]
  have hold : (e.touched w.act acc true).s.rd8 (acc.keys.headD 0) = e.s.rd8 (acc.keys.headD 0) := State.rd8_congr (e.touched_mem w.act acc true) _
  refine (State.rd8_congr (State.entryState_mem (e.touched w.act acc true).s (acc.entry e.s) 1 hrepl) _).trans ?_
  rw [hkey, State.rd8_wr8 _ _ _ (by omega), hold]
  omega

theorem ldlStep_next (f : LW) (e : Env) (w : View) (l : Nat) (acc : Acc) (h : e.s.rd8 (acc.keys.headD 0) / 2 ^ 48 = 2 ^ 15) : (ldlStep f e w l acc).2 = .next := (ldlStep_bound f w e l acc h).1

/-- Settles O13: LD and LDV are taken lane by lane, LDS and LDL by one access; each step leaves a producer and empty destinations, LDL's by the state of its entry. -/
theorem loads : Obligations.Loads := by
  unfold Obligations.Loads
  intro f
  refine ⟨?ld, ?ldv, ?lds, ?ldl, loadLane_spec f, Env.mem_merge_parts, ldsStep_spec f, ldlStep_bound f, ldlStep_unbound f, ldlStep_binding f⟩
  case ld => exact loadIs_loadWord fun _ => rfl
  case ldv => exact loadIs_loadWord fun _ => rfl
  case lds =>
    exact onceIs_once (.lds f) f.g (fun _ => ldsLegal f) false _ _ _ (ldsStep f) always (fun _ => rfl) (fun _ _ w l a h => ldsStep_keeps f w l a h) fun _ _ _ _ _ => rfl
  case ldl =>
    exact onceIs_once (.ldl f) f.g (fun _ => ldlLegal f) false _ _ _ (ldlStep f) _ (fun _ => rfl) (fun _ _ w l a h => ldlStep_keeps f w l a h) fun e w l a h => ldlStep_next f e w l a h

end Sys2Proof.Machine
end

section
/-! The stores, the lattice instructions, the atomics and the words of tile elements, all taken lane by lane (R209, R210): each is its check, its wait and one lane's step, and what that step keeps of the issue. -/

namespace Sys2Proof.Machine

/-! Stores (R107, R213, R214). -/

/-- What a store's issue keeps, lane by lane. -/
theorem storeIs_storeWord {i : Instr} {f : LW} {legal : Bool} {n align scope : Nat} {xs : List Src} {data : View → Nat → List Byte × Nat}
    (hx : ∀ s, exec i s = s.issue (fun e => if !legal then e.illegal else storeWord f n align scope xs (fun _ _ => .ok ()) data s)) : storeIs i f legal n align scope xs data :=
  eachIs_each i f.g (fun _ => legal) true _ _ (fun e _ ps => e.storeWaits scope ps.length ps) (fun _ => storeLane f scope data) (fun e e1 _ => e1.stored e.s.posted.length) plainSeg Env.keeps
    (fun s => (hx s).trans (State.issue_nest s _ _ _)) Env.keeps_popped (fun _ w _ l a h => storeLane_keeps f scope data w l a h)
    (fun _ _ _ h => Env.keeps_trans h (Env.keeps_stored _ _)) fun _ w e1 l a _ h => storeLane_next f scope data w e1 l a h

theorem stsStep_next (f : LW) (e : Env) (w : View) (l : Nat) (acc : Acc) (h : plainSeg e w l acc) : (stsStep f e w l acc).2 = .next := by
  have hk : (acc.g.kind == .lattice) = false := beq_false_of_ne h
  unfold stsStep
  simp only [hk, Bool.false_eq_true, if_false]

/-- Settles O14: ST and STV are taken lane by lane, STS by one access; what a lane stores are the low bytes of its registers. -/
theorem stores : Obligations.Stores := by
  unfold Obligations.Stores
  intro f
  refine ⟨?st, ?stv, ?sts⟩
  case st => exact storeIs_storeWord fun _ => rfl
  case stv => exact storeIs_storeWord fun _ => rfl
  case sts =>
    exact onceIs_once (.sts f) f.g (fun _ => stsLegal f) true _ _ _ (stsStep f) plainSeg (fun _ => rfl) (fun _ _ w l a h => stsStep_keeps f w l a h) (stsStep_next f)

/-! Lattice instructions (R216). -/

/-- An LDJ keeps its issue, and the cells as the issue found them. -/
def Env.keepsCells (e e1 : Env) : Prop := e.keeps e1 ∧ ∀ acc, e1.cellNow acc = e.cellNow acc

theorem Env.keepsCells_popped (e : Env) (w : View) (xs : List Src) : e.keepsCells (e.popped w xs) := ⟨e.keeps_popped w xs, fun _ => rfl⟩

theorem ldjLane_cellNow (f : LW) (w : View) (e : Env) (l : Nat) (acc a : Acc) : (ldjLane f w e l acc).1.cellNow a = e.cellNow a := by
  refine Eq.trans ?_ (Env.cellNow_touched e [l] acc true a)
  unfold ldjLane
  simp only []
  split_ifs <;> rfl

/-- An LDJ whose cell is at or above its threshold ends with its completion. -/
theorem ldjLane_next (f : LW) {e e1 : Env} (w : View) (l : Nat) (acc : Acc) (hc : e.keepsCells e1)
    (h : latLe acc.g.ltype (if acc.g.ltype = 7 then f32Canon (w.reg (cellBytes acc.g.ltype == 8) l f.e.c) else w.reg (cellBytes acc.g.ltype == 8) l f.e.c) (e.cellNow acc) = true) :
    (ldjLane f w e1 l acc).2 = .next := by
  unfold ldjLane
  simp only [Env.cellNow_touched, hc.2 acc, h, if_true]

/-- Settles O15: STJ, LDJ and LDJ.NB are taken lane by lane; LDJ completes where each cell, which the issue itself does not change, is at or above its lane's threshold. -/
theorem latticeWords : Obligations.LatticeWords := by
  unfold Obligations.LatticeWords
  intro f
  refine ⟨?stj, ?ldj, ?ldjNb⟩
  case stj =>
    exact eachIs_each (.stj f) f.g (fun _ => stjLegal f) true _ _ _ (fun _ => stjLane f) _ always Env.keeps (fun _ => rfl) Env.keeps_popped (fun _ w _ l a h => stjLane_keeps f w l a h)
      (fun _ _ _ h => Env.keeps_trans h (Env.keeps_enter _ _ _)) fun _ _ _ _ _ _ _ => rfl
  case ldj =>
    exact eachIs_each (.ldj f) f.g (fun _ => ldjLegal f false) false _ _ _ (fun _ => ldjLane f) _ _ Env.keepsCells (fun _ => rfl) Env.keepsCells_popped
      (fun _ w _ l a h => ⟨ldjLane_keeps f w l a h.1, fun acc => (ldjLane_cellNow f w _ l a acc).trans (h.2 acc)⟩) (fun _ _ _ h => h.1) fun _ w _ l a hc h => ldjLane_next f w l a hc h
  case ldjNb =>
    exact eachIs_each (.ldjNb f) f.g (fun _ => ldjLegal f true) false _ _ _ (fun _ => ldjNbLane f) _ always Env.keeps (fun _ => rfl) Env.keeps_popped
      (fun _ w _ l a h => ldjNbLane_keeps f w l a h) (fun _ _ _ h => h) fun _ _ _ _ _ _ _ => rfl

/-! Atomics (R222 to R225). -/

theorem atomIs_atomWord {i : Instr} {f : LW} {legal wide sgn exp : Bool} {use : LatUse} {op : Nat → AtomOp}
    (hx : ∀ s, exec i s = s.issue (fun e => if !legal then e.illegal else atomWord f (sizeBytes f.e.fs) wide sgn exp use op s)) : atomIs i f legal wide sgn exp use op :=
  eachIs_each i f.g (fun _ => legal) true _ _ (fun e _ ps => e.atomWaits f ps) (fun _ => atomLane f (sizeBytes f.e.fs) wide sgn op) (fun e e1 _ => e1.merge e.g.inflight.length) always Env.keeps
    (fun s => (hx s).trans (State.issue_nest s _ _ _)) Env.keeps_popped (fun _ w _ l a h => atomLane_keeps f _ wide sgn op w l a h)
    (fun _ _ _ h => Env.keeps_trans h (Env.keeps_merge _ _)) fun _ _ _ _ _ _ _ => rfl

/-- Settles O16: each atomic is the atomic word with its operation. -/
theorem atomics : Obligations.Atomics := by
  unfold Obligations.Atomics
  intro f
  refine ⟨?_, ?_, ?_, ?_, ?_, ?_, ?_, ?_, ?_, ?_⟩ <;> exact atomIs_atomWord fun _ => rfl

/-- Of two numbers of the type's width, taken by their values, the one chosen is the number of the value chosen. -/
theorem ofInt_ite_val (t : IntTy) {o x : Nat} (ho : o < 2 ^ t.n) (hx : x < 2 ^ t.n) (p : Prop) [Decidable p] : ofInt t.n (if p then t.val o else t.val x) = if p then o else x := by
  by_cases hp : p
  · simp only [if_pos hp]; exact (t.ofInt_val o).trans (Nat.mod_eq_of_lt ho)
  · simp only [if_neg hp]; exact (t.ofInt_val x).trans (Nat.mod_eq_of_lt hx)

/-- Settles O17: the operations are the formulas but for minimum and maximum, whose operand of the chosen value is the number of that value. -/
theorem atomicValues : Obligations.AtomicValues := by
  unfold Obligations.AtomicValues
  intro n sgn o x ex ho hx _
  have hmin := ofInt_ite_val ⟨8 * n, sgn⟩ ho hx ((⟨8 * n, sgn⟩ : IntTy).val o ≤ (⟨8 * n, sgn⟩ : IntTy).val x)
  have hmax := ofInt_ite_val ⟨8 * n, sgn⟩ hx ho ((⟨8 * n, sgn⟩ : IntTy).val o ≤ (⟨8 * n, sgn⟩ : IntTy).val x)
  refine ⟨rfl, rfl, rfl, rfl, rfl, rfl, ?_, ?_⟩
  · rw [min_def]; exact congrArg (·, 0) hmin.symm
  · rw [max_def]; exact congrArg (·, 0) hmax.symm

/-! Elements of tiles (R242, R251, R252). -/

theorem WorkUnit.setElem_uid (u : WorkUnit) (fs t i j x : Nat) : (u.setElem fs t i j x).uid = u.uid := by unfold WorkUnit.setElem; split <;> rfl
theorem WorkUnit.setElem_groups (u : WorkUnit) (fs t i j x : Nat) : (u.setElem fs t i j x).groups = u.groups := by unfold WorkUnit.setElem; split <;> rfl

theorem tldLane_keeps (f : LW) {e e1 : Env} (w : View) (l : Nat) (acc : Acc) (h : e.keeps e1) : e.keeps (tldLane f w e1 l acc).1 :=
  Env.keeps_trans h (Env.keeps_trans (Env.keeps_touched e1 [l] acc true) (Env.keeps_produce _ _))

theorem treadLane_keeps (f : LW) {e e1 : Env} (w : View) (l : Nat) (q : Nat × Nat) (h : e.keeps e1) : e.keeps (treadLane f w e1 l q).1 := by
  refine Env.keeps_trans h (Env.keeps_trans (e1 := { e1 with g := if (f.e.fs == 1) = true then (e1.g.markV l f.d true).markV l (f.d + 1) true else e1.g.markV l f.d true })
    ⟨rfl, rfl, rfl, ?_⟩ (Env.keeps_produce _ _))
  simp only []; split <;> rfl

theorem twriteLane_keeps (f : LW) {e e1 : Env} (w : View) (l : Nat) (q : Nat × Nat) (h : e.keeps e1) : e.keeps (twriteLane f w e1 l q).1 :=
  Env.keeps_trans h ⟨rfl, WorkUnit.setElem_uid _ _ _ _ _ _, congrArg List.length (WorkUnit.setElem_groups _ _ _ _ _ _), rfl⟩

/-- A word of single elements in a unit that holds the matrix set: its turn, then its lanes. -/
theorem eachIf_tiles {α : Type} {i : Instr} {f : LW} {legal ss sf : Bool} {xs : List Src} {chk : Env → View → Nat → Except LFault α} {waits : Env → View → List (Nat × α) → Bool}
    {k : Env → View → Env → Nat → α → Env × LaneOut} {after : Env → Env → List (Nat × LaneOut) → Env} {fine : Env → View → Nat → α → Prop}
    (hx : ∀ s, exec i s = s.issue (fun e => if !legal then e.illegal else if !e.holdsMx then e.faultActive f.g (lf 0x04 0 sf) else
      e.inTurn i (e.guarded f.g) fun e => e.each f.g ss (fun _ => xs) (chk e) (waits e) (k e) (after e)))
    (hk : ∀ (e : Env) (w : View) (e1 : Env) (l : Nat) (a : α), e.keeps e1 → e.keeps (k e w e1 l a).1) (ha : ∀ (e e1 : Env) os, e1.keeps (after e e1 os))
    (hf : ∀ (e : Env) (w : View) (e1 : Env) (l : Nat) (a : α), fine e w l a → (k e w e1 l a).2 = .next) :
    eachIf Env.holdsMx (fun e => e.turn i false (e.guarded f.g)) i f.g (fun _ => legal) ss (fun _ _ => xs) chk waits k after fine := by
  refine eachIf_each _ _ i f.g _ ss _ chk waits k after fine Env.keeps _ hx (fun e0 _ hm => ?_) (fun e => e.turn_keeps i false _) Env.keeps_popped hk (fun e e1 os h => Env.keeps_trans h (ha e e1 os))
    fun e w e1 l a _ h => hf e w e1 l a h
  simp only [hm, Bool.not_true, Bool.false_eq_true, if_false]
  rfl

/-- Settles O23: TLD, TST, TREAD and TWRITE take their lanes at their turn. -/
theorem tileElements : Obligations.TileElements := by
  unfold Obligations.TileElements
  intro f
  refine ⟨?tld, ?tst, ?tread, ?twrite⟩
  case tld => exact eachIf_tiles (fun _ => rfl) (fun _ w _ l a h => tldLane_keeps f w l a h) (fun _ _ _ => Env.keeps_merge _ _) fun _ _ _ _ _ _ => rfl
  case tst =>
    exact eachIf_tiles (fun _ => rfl) (fun e w _ l a h => storeLane_keeps f 0 (tstData f e.u) w l a h) (fun _ _ _ => Env.keeps_stored _ _) fun e w e1 l a h => storeLane_next f 0 (tstData f e.u) w e1 l a h
  case tread => exact eachIf_tiles (fun _ => rfl) (fun _ w _ l a h => treadLane_keeps f w l a h) (fun _ _ _ => Env.keeps_merge _ _) fun _ _ _ _ _ _ => rfl
  case twrite => exact eachIf_tiles (fun _ => rfl) (fun _ w _ l a h => twriteLane_keeps f w l a h) (fun _ e1 _ => e1.keeps_refl) fun _ _ _ _ _ _ => rfl

/-- Every guarded lane of an issue has the fault. -/
theorem Env.faultActive_closes {s : State} {e : Env} (h : e.ofLanes s) (gn : Nat) (q : LFault) : ∃ t, e.faultActive gn q = .next t ∧ e.closes t (e.outs gn (fun _ => .fault q)) :=
  Env.finish_keeps h e.keeps_refl _ (Env.outs_lanes _ _ _)

/-- Settles O24: past its fields, a word of the matrix set faults where the unit does not hold it. -/
theorem matrixSetNotHeld : Obligations.MatrixSetNotHeld := by
  unfold Obligations.MatrixSetNotHeld
  intro f s e h hm
  have faults (i : Instr) (legal ss : Bool) (K : Env → Out) (hl : legal = true)
      (hx : exec i s = s.issue (fun e => if !legal then e.illegal else if !e.holdsMx then e.faultActive f.g (lf 0x04 0 ss) else K e)) :
      ∃ t, exec i s = .next t ∧ e.closes t (e.outs f.g (fun _ => .fault (lf 0x04 0 ss))) := by
    rw [hx, State.issue_lanes s e h]
    simp only [hl, hm, Bool.not_true, Bool.not_false, Bool.false_eq_true, if_false, if_true]
    exact Env.faultActive_closes h f.g _
  refine ⟨?_, ?_⟩
  · simp only [List.mem_cons, List.not_mem_nil, or_false, forall_eq_or_imp, forall_eq]
    exact ⟨fun hl => faults _ _ _ _ hl rfl, fun hl => faults _ _ _ _ hl rfl, fun hl => faults _ _ _ _ hl rfl, fun hl => faults _ _ _ _ hl rfl⟩
  · simp only [List.mem_cons, List.not_mem_nil, or_false, forall_eq_or_imp, forall_eq]
    exact ⟨fun hl => faults _ _ _ _ hl rfl, fun hl => faults _ _ _ _ hl rfl⟩

end Sys2Proof.Machine
end

section
/-! Issues of lanes without checks beyond their registers, and the control words that are made of them (R226 to R235). -/

namespace Sys2Proof.Machine

/-! A list of sources that is the same for every lane. -/

theorem List.any_flatMap_const {α β : Type} (as : List α) (xs : List β) (p : β → Bool) (h : as ≠ []) : (as.flatMap (fun _ => xs)).any p = xs.any p := by
  obtain ⟨a, as, rfl⟩ := List.exists_cons_of_ne_nil h
  by_cases hx : xs.any p = true
  · obtain ⟨x, hm, hp⟩ := List.any_eq_true.mp hx
    rw [hx]
    exact List.any_eq_true.mpr ⟨x, List.mem_flatMap.mpr ⟨a, List.mem_cons_self, hm⟩, hp⟩
  · have hx := Bool.not_eq_true _ ▸ hx
    rw [hx, List.any_eq_false]
    intro y hy
    obtain ⟨-, -, hm⟩ := List.mem_flatMap.mp hy
    exact List.any_eq_false.mp hx y hm

/-- An issue reads registers once, however many of its lanes name them. -/
theorem Env.view_flatMap_const (e : Env) (act : List Nat) (xs : List Src) : e.view act (act.flatMap (fun _ => xs)) = e.view act xs := by
  rcases eq_or_ne act [] with h | h
  · subst h; rfl
  · unfold Env.view Group.bound
    simp only [List.any_flatMap_const act xs _ h]

theorem Env.popped_flatMap_const (e : Env) (w : View) (xs : List Src) : e.popped w (w.act.flatMap (fun _ => xs)) = e.popped w xs := by
  rcases eq_or_ne w.act [] with h | h
  · unfold Env.popped Group.advance; rw [h]; rfl
  · unfold Env.popped Group.advance
    simp only [List.any_flatMap_const w.act xs _ h]

/-- Outcomes of the guarded lanes, as an issue gives them to all its lanes. -/
theorem Env.all_guarded (e : Env) (gn : Nat) (o : Nat → LaneOut) : e.all ((e.guarded gn).map (fun l => (l, o l))) = e.outs gn o := by
  unfold Env.all Env.outs
  refine List.map_congr_left fun l _ => ?_
  rw [find?_map_pair (e.guarded gn) o l]
  by_cases hl : l ∈ e.guarded gn <;> simp [hl]

/-- An issue of lanes that can read its registers runs each guarded lane's step. -/
theorem Env.eachLane_of_view {e : Env} {gn : Nat} {xs : List Src} {w : View} (k : View → Env → Nat → Env × LaneOut) (hv : e.view? gn xs = some w) :
    e.eachLane gn xs k =
      let r := Env.steps (e.popped w xs) (fun e l (_ : Unit) => k w e l) ((e.guarded gn).map (fun l => (l, ())))
      r.1.finish (e.all r.2) := by
  obtain ⟨hw, hread⟩ := Env.view?_spec hv
  have hact : w.act = e.guarded gn := by rw [hw]; rfl
  have htries : ∀ l ∈ e.guarded gn, w.tries false (fun _ => xs) (fun _ _ => Except.ok ()) l = .ok () := fun l hl => by
    unfold View.tries; rw [hread l hl]
  unfold Env.eachLane
  rw [Env.each_steps]
  simp only [Env.view_flatMap_const, ← hw, Bool.false_eq_true, if_false]
  rw [List.map_congr_left (g := fun l => (l, (Except.ok () : Except LaneOut Unit))) fun l hl => by rw [htries l hl]]
  have hp : passes ((e.guarded gn).map (fun l => (l, (Except.ok () : Except LaneOut Unit)))) = (e.guarded gn).map (fun l => (l, ())) := by
    unfold passes; rw [List.filterMap_map]; exact congrFun List.filterMap_eq_map' _
  have hs : settles ((e.guarded gn).map (fun l => (l, (Except.ok () : Except LaneOut Unit)))) = [] := by
    unfold settles; rw [List.filterMap_map]; exact List.filterMap_eq_nil_iff.mpr fun _ _ => rfl
  rw [hp, hs, ← hact, Env.popped_flatMap_const]
  rfl

/-- Steps that leave the issue as it is. -/
theorem Env.steps_same {α : Type} (e : Env) (k : Env → Nat → α → Env × LaneOut) (o : Nat → LaneOut) (ps : List (Nat × α)) (h : ∀ p ∈ ps, k e p.1 p.2 = (e, o p.1)) :
    e.steps k ps = (e, ps.map (fun p => (p.1, o p.1))) := by
  induction ps with
  | nil => rfl
  | cons p ps ih =>
    have ih := ih fun q hq => h q (List.mem_cons_of_mem _ hq)
    have hp := h p List.mem_cons_self
    simp only [Env.steps, hp, ih, List.map_cons]

/-- An issue of lanes that can read its registers, whose lanes change nothing, closes with their outcomes. -/
theorem Env.eachLane_closes {e : Env} {s : State} {gn : Nat} {xs : List Src} {w : View} (k : View → Env → Nat → Env × LaneOut) (o : Nat → LaneOut) (h : e.ofLanes s) (hv : e.view? gn xs = some w)
    (hk : ∀ l, k w (e.popped w xs) l = (e.popped w xs, o l)) : ∃ t, e.eachLane gn xs k = .next t ∧ (e.popped w xs).closes t (e.outs gn o) := by
  rw [Env.eachLane_of_view k hv, Env.steps_same (e.popped w xs) _ o _ fun p _ => hk p.1]
  have hall : e.all (((e.guarded gn).map (fun l => (l, ()))).map (fun p => (p.1, o p.1))) = e.outs gn o := by
    rw [List.map_map]; exact e.all_guarded gn o
  simp only [hall]
  exact Env.finish_keeps h (e.keeps_popped w xs) _ (e.outs_lanes gn o)

/-! Fences, barriers, circular buffers and timeline waits (R226, R228 to R230). -/

theorem Env.keeps_fenceBegun (e : Env) (f : LW) : e.keeps { e with g := e.fenceBegun f } := by
  refine ⟨rfl, rfl, rfl, ?_⟩
  unfold Env.fenceBegun
  simp only []
  split <;> exact Group.enter_lanes _ _ _

@[simp] theorem Group.markAll_lanes (g : Group) (ls : List Nat) (wide : Bool) (d : Nat) (b : Bool) : (g.markAll ls wide d b).lanes = g.lanes :=
  foldl_keep Group.lanes (fun (g : Group) l => if wide then (g.markV l d b).markV l (d + 1) b else g.markV l d b) (fun g l => by split <;> rfl) ls g

theorem Env.keeps_cbacqStep (f : LW) (e : Env) (w : View) (l key : Nat) : e.keeps (cbacqStep f e w l key).1 :=
  ⟨rfl, rfl, rfl, congrArg List.length (Group.markAll_lanes e.g w.act false f.d true)⟩

theorem Env.keeps_cbrelStep (f : LW) (e : Env) (w : View) (l key : Nat) : e.keeps (cbrelStep f e w l key).1 := by
  unfold cbrelStep
  split
  · exact e.keeps_refl
  · exact ⟨rfl, rfl, rfl, rfl⟩

theorem cbrelStep_next (f : LW) (e : Env) (w : View) (l key : Nat) (h : (cbGive (f.e.subop == 1) (e.s.rd8 key) (e.s.rd8 (key + 8))).isSome = true) : (cbrelStep f e w l key).2 = .next := by
  obtain ⟨w1, h1⟩ := Option.isSome_iff_exists.mp h
  unfold cbrelStep
  rw [h1]

/-- A word of one access that first waits for the whole issue, past which `post` follows. -/
theorem onceIf_held {α : Type} (held : Env → Bool) (i : Instr) (gn : Nat) (ok : Bool) (ss : Bool) (xs : List Src) (chk : Env → View → Nat → Except LFault α) (waits : Env → List Nat → Nat → α → Bool)
    (k : Env → View → Nat → α → Env × LaneOut) (post : Env → State → State) (fine : Env → View → Nat → α → Prop)
    (hx : ∀ s, exec i s = s.issue (fun e => if !ok then e.illegal else if held e then e.stall else .next (post e (stateOf e.s (e.once gn ss xs (chk e) (waits e) (k e))))))
    (hk : ∀ (e : Env) (w : View) (l : Nat) (a : α), e.keeps (k e w l a).1) (hf : ∀ (e : Env) (w : View) (l : Nat) (a : α), fine e w l a → (k e w l a).2 = .next) :
    onceIf (fun e => !(held e)) (fun e => .go e 0) i gn (fun _ => ok) ss xs chk waits (fun _ => k) post fine := by
  refine onceIf_once _ _ i gn _ ss xs chk waits _ post fine _ hx (fun e _ hp => ?_) (fun e => ⟨rfl, e.keeps_refl⟩) (fun _ e w l a _ => hk e w l a) fun _ e w l a h => hf e w l a h
  have hp : held e = false := by simpa using hp
  simp only [hp, Bool.false_eq_true, if_false]

/-- While the issue waits nothing comes about. -/
theorem exec_held {held : Env → Bool} {i : Instr} {ok : Bool} {K : Env → Out} (hx : ∀ s, exec i s = s.issue (fun e => if !ok then e.illegal else if held e then e.stall else K e)) {s : State} {e : Env}
    (h : e.ofLanes s) (hok : ok = true) (hh : held e = true) : exec i s = .next s := by
  rw [hx, State.issue_lanes s e h]
  simp only [hok, hh, Bool.not_true, Bool.false_eq_true, if_false, if_true]
  unfold Env.stall
  rw [(State.env?_spec h.1).1]

/-- WAITTL (R230). -/
theorem exec_waittl {f : LW} {s : State} {e : Env} (h : e.ofLanes s) :
    exec (.waittl f) s = if !(waittlLegal f) then e.illegal else match ctxOf e.u f.a with
      | none => e.faultActive f.g (lf 0x04 0 false)
      | some k => e.eachLane f.g (srcB f false) (fun w e l => (e, waittlOut f (e.s.engine k) (waittlCount f w l))) :=
  State.issue_lanes s e h _

/-- Settles O18: FENCE and the barriers are outcomes of the guarded lanes after a wait; CBACQ and CBREL one access after one; WAITTL an issue whose lanes change nothing. -/
theorem synchronisation : Obligations.Synchronisation := by
  unfold Obligations.Synchronisation
  intro f
  refine ⟨?fence, ?bar, ?arrive, ?wait, ?cbacq, fun s e h hok hh => ?held, ?cbrel, fun s e h hok hh => ?released, fun s e h _ => ⟨fun hl => ?illegal, fun hl hc => ?unbound, fun k w hl hc hv => ?waits⟩⟩
  case fence => exact outWord_finish _ _ _ _ _ _ (fun _ => rfl) (fun e => e.keeps_fenceBegun f) fun _ => Env.outs_lanes _ _ _
  case bar => exact outWord_finish _ _ _ _ _ _ (fun _ => rfl) Env.keeps_refl fun _ => Env.outs_lanes _ _ _
  case arrive =>
    refine outWord_finish _ _ _ _ _ _ (fun s => ?_) Env.keeps_refl fun _ => Env.outs_lanes _ _ _
    refine (show exec (.barArrive f) s = execBarArrive f s from rfl).trans ?_
    unfold execBarArrive Env.barClose
    simp only [Bool.or_eq_true, List.contains_iff_mem, id]
  case wait =>
    refine outWord_finish _ _ _ _ _ _ (fun s => ?_) Env.keeps_refl fun _ => Env.outs_lanes _ _ _
    refine (show exec (.barWait f) s = execBarWait f s from rfl).trans ?_
    unfold execBarWait Env.finish
    simp only [List.contains_iff_mem, id, Bool.false_eq_true, if_false]
  case cbacq => exact onceIf_held _ _ _ _ _ _ _ _ _ (fun e t => t.cbPollGroup e.c.uid e.c.grp) _ (fun _ => rfl) (Env.keeps_cbacqStep f) fun _ _ _ _ _ => rfl
  case held => exact exec_held (i := .cbacq f) (fun _ => rfl) h hok hh
  case cbrel => exact onceIf_held _ _ _ _ _ _ _ _ _ (fun e t => e.cbWoken f t) _ (fun _ => rfl) (Env.keeps_cbrelStep f) (cbrelStep_next f)
  case released => exact exec_held (i := .cbrel f) (held := fun e => e.releaseWaits (e.guarded f.g)) (fun _ => rfl) h hok hh
  case illegal => rw [exec_waittl h, hl]; rfl
  case unbound =>
    rw [exec_waittl h, hl, hc]
    exact Env.faultActive_closes h f.g _
  case waits =>
    rw [exec_waittl h, hl, hc]
    exact Env.eachLane_closes _ _ h hv fun _ => rfl

end Sys2Proof.Machine
end

section
/-! Control transfer of lanes (R231 to R235): calls push without regard to other lanes' stacks, so that the lanes of one issue may be taken together. -/

namespace Sys2Proof.Machine

/-! One lane's stack does not feel another's push. -/

/-- A key put into a map does not show among the keys it is not one of. -/
theorem AMap.filter_insertAt {α : Type} (n : Nat) (v : α) (m : AMap α) (p : Nat × α → Bool) (h : p (n, v) = false) : (AMap.insertAt n v m).filter p = m.filter p := by
  induction m with
  | nil => simp [AMap.insertAt, h]
  | cons q m ih =>
    unfold AMap.insertAt
    split
    · rw [List.filter_cons_of_neg (by simp [h])]
    · by_cases hq : p q = true
      · rw [List.filter_cons_of_pos hq, List.filter_cons_of_pos hq, ih]
      · rw [List.filter_cons_of_neg hq, List.filter_cons_of_neg hq, ih]

theorem AMap.filter_erase {α : Type} (m : AMap α) (n : Nat) (p : Nat → Bool) (h : p n = false) : (AMap.erase m n).filter (fun q => p q.1) = m.filter (fun q => p q.1) := by
  unfold AMap.erase
  rw [List.filter_filter]
  refine List.filter_congr fun q _ => ?_
  by_cases hq : q.1 = n
  · simp [hq, h]
  · simp [hq]

theorem AMap.filter_set {α : Type} (m : AMap α) (n : Nat) (v : α) (p : Nat → Bool) (h : p n = false) : (AMap.set m n v).filter (fun q => p q.1) = m.filter (fun q => p q.1) :=
  (AMap.filter_insertAt n v _ (fun q => p q.1) h).trans (AMap.filter_erase m n p h)

/-- A lane's entries in hardware are those under its keys. -/
theorem Group.inHw_eq (g : Group) (l : Nat) : g.inHw l = (g.stack.filter (fun q => (fun k => k / 1024 == l) q.1)).map (fun p => p.1 % 1024) := rfl

theorem Group.lane_setLane_ne (g : Group) {k l : Nat} (x : Lane) (h : k ≠ l) : (g.setLane k x).lane l = g.lane l := by
  unfold Group.lane Group.setLane
  simp only [List.getD_eq_getElem?_getD]
  rw [List.getElem?_set_ne h]

/-- The entry that a push spills stands under the lane's own key. -/
theorem Group.spills_lt {g : Group} {l k : Nat} (hd : (g.lane l).dep < 1024) (h : g.spills l = some k) : k < 1024 := by
  unfold Group.spills at h
  simp only [] at h
  split at h
  · cases h
  · injection h with h
    subst h
    cases hf : (g.inHw l).find? (fun k => decide (k < 1008)) with
    | none => exact hd
    | some k => have := List.find?_some hf; simp only [decide_eq_true_eq] at this; show k < 1024; omega

/-- What a lane's push and its fault read: its depth, its entries in hardware, the pages behind its stack. -/
structure Env.sameStack (e e1 : Env) (l : Nat) : Prop where
  dep : (e1.g.lane l).dep = (e.g.lane l).dep
  hw : e1.g.inHw l = e.g.inHw l
  holes : e1.g.holes = e.g.holes
  rcd : e1.u.record = e.u.record

theorem Env.pushFault_of_sameStack {e e1 : Env} {l : Nat} (h : e.sameStack e1 l) : e1.pushFault l = e.pushFault l := by
  unfold Env.pushFault Group.spills Env.stackHole Env.stackFull Group.hole
  rw [h.dep, h.hw, h.holes, h.rcd]

theorem Env.push_sameStack (e : Env) {k l : Nat} (ret : Nat) (hkl : k ≠ l) (hd : (e.g.lane k).dep < 1024) : e.sameStack (e.push k ret) l := by
  have hkey : ∀ j, j < 1024 → ((1024 * k + j) / 1024 == l) = false := fun j hj => beq_false_of_ne (by omega)
  have hset := AMap.filter_set e.g.stack (1024 * k + (e.g.lane k).dep) (BitVec.ofNat 64 ret) (fun n => n / 1024 == l) (hkey _ hd)
  unfold Env.push
  simp only []
  split
  · exact ⟨congrArg Lane.dep (Group.lane_setLane_ne e.g _ hkl), by rw [Group.inHw_eq, Group.inHw_eq]; exact congrArg (List.map _) hset, rfl, rfl⟩
  · next j hj =>
    have herase := AMap.filter_erase (AMap.set e.g.stack (1024 * k + (e.g.lane k).dep) (BitVec.ofNat 64 ret)) (1024 * k + j) (fun n => n / 1024 == l) (hkey _ (Group.spills_lt hd hj))
    exact ⟨congrArg Lane.dep (Group.lane_setLane_ne e.g _ hkl), by rw [Group.inHw_eq, Group.inHw_eq]; exact congrArg (List.map _) (herase.trans hset), rfl, rfl⟩

theorem Env.dep_of_pushFault {e : Env} {l : Nat} (h : e.pushFault l = none) : (e.g.lane l).dep < 1024 := by
  unfold Env.pushFault at h
  split at h
  · cases h
  · omega

/-- The register's target, as the statement of BRX writes it. -/
def brxTo (f : LW) (w : View) (l : Nat) : Nat := if f.e.bs then (w.g.getS f.b).toNat % 2 ^ 32 else w.v l f.a

theorem brxLane_jump (f : LW) (w : View) (e : Env) (l : Nat) : brxLane f false w e l = (e, .goto (brxTo f w l)) := rfl

theorem brxLane_call (f : LW) (w : View) (e : Env) (l : Nat) (h : e.pushFault l = none) : brxLane f true w e l = (e.push l e.next, .goto (brxTo f w l)) := by
  unfold brxLane
  rw [h]
  rfl

/-- The lanes of a call push one after the other. -/
theorem Env.steps_brxCall (f : LW) (w : View) (ls : List Nat) (hn : ls.Nodup) (e : Env) (h : ∀ l ∈ ls, e.pushFault l = none) :
    e.steps (fun e l (_ : Unit) => brxLane f true w e l) (ls.map (fun l => (l, ()))) = (e.pushAll ls, ls.map (fun l => (l, .goto (brxTo f w l)))) := by
  induction ls generalizing e with
  | nil => rfl
  | cons k ls ih =>
    obtain ⟨hk, hn⟩ := List.nodup_cons.mp hn
    have hpush := h k List.mem_cons_self
    have hrest : ∀ l ∈ ls, (e.push k e.next).pushFault l = none := fun l hl => by
      rw [Env.pushFault_of_sameStack (e.push_sameStack e.next (fun hkl : k = l => hk (hkl ▸ hl)) (Env.dep_of_pushFault hpush))]
      exact h l (List.mem_cons_of_mem _ hl)
    simp only [List.map_cons, Env.steps, brxLane_call f w e k hpush, ih hn _ hrest]
    rfl

theorem Env.pushFault_popped (e : Env) (w : View) (xs : List Src) (l : Nat) : (e.popped w xs).pushFault l = e.pushFault l := Env.pushFault_of_sameStack ⟨rfl, rfl, rfl, rfl⟩

theorem Env.keeps_brxLane (f : LW) (call : Bool) (w : View) {e e1 : Env} (l : Nat) (h : e.keeps e1) : e.keeps (brxLane f call w e1 l).1 := by
  unfold brxLane
  simp only []
  split
  · exact h
  · split
    · exact h
    · exact Env.keeps_trans h (Env.keeps_push _ _ _)

/-- BRX and BRX.CALL are taken lane by lane. -/
theorem eachIs_brxWord {i : Instr} {f : LW} {call : Bool} (hx : ∀ s, exec i s = brxWord f call s) :
    eachIs i f.g (fun _ => brxLegal f call) false (fun _ _ => brxSrcs f) (fun _ _ _ => Except.ok ()) (fun _ _ _ => false) (fun _ w e l _ => brxLane f call w e l) (fun _ e1 _ => e1) (fun _ _ _ _ => False) :=
  eachIs_each i f.g _ false _ _ _ _ _ _ Env.keeps hx Env.keeps_popped (fun _ w _ l _ h => Env.keeps_brxLane f call w l h) (fun _ _ _ h => h) fun _ _ _ _ _ _ h => h.elim

/-- Where the register can be read, and the stacks take the entries, every guarded lane of BRX or BRX.CALL goes to its target. -/
theorem brxWord_completes {f : LW} {call : Bool} {s : State} {e : Env} {w : View} (h : e.ofLanes s) (hl : brxLegal f call = true) (hv : e.view? f.g (brxSrcs f) = some w)
    (hp : call = true → ∀ l ∈ e.guarded f.g, e.pushFault l = none) :
    ∃ t, brxWord f call s = .next t ∧ (if call then (e.popped w (brxSrcs f)).pushAll (e.guarded f.g) else e.popped w (brxSrcs f)).closes t
      (e.outs f.g (fun l => .goto (if f.e.bs then (e.g.getS f.b).toNat % 2 ^ 32 else w.v l f.a))) := by
  have hview : w.g = e.g := by rw [(Env.view?_spec hv).1]; rfl
  have houts : (fun l => LaneOut.goto (brxTo f w l)) = fun l => LaneOut.goto (if f.e.bs then (e.g.getS f.b).toNat % 2 ^ 32 else w.v l f.a) := by unfold brxTo; rw [hview]
  have hx : brxWord f call s = e.eachLane f.g (brxSrcs f) (brxLane f call) := by
    unfold brxWord
    rw [State.issue_lanes s e h]
    simp only [hl, Bool.not_true, Bool.false_eq_true, if_false]
    rfl
  rw [hx, ← houts]
  cases call with
  | false => exact Env.eachLane_closes _ _ h hv fun l => brxLane_jump f w _ l
  | true =>
    rw [Env.eachLane_of_view _ hv, Env.steps_brxCall f w _ (Env.guarded_nodup h f.g) _ fun l hm => (e.pushFault_popped w _ l).trans (hp rfl l hm)]
    simp only [Env.all_guarded]
    exact Env.finish_keeps h (Env.keeps_trans (e.keeps_popped _ _) (Env.keeps_pushAll _ _)) _ (e.outs_lanes _ _)

/-! IFENCE (R126, R227). -/

/-- The engine commands that IFENCE finds above their counters. -/
def Env.lateCodes (e : Env) : List Command :=
  (e.s.engines.flatMap (fun q => q.2.cmds.filter (fun c => decide (q.2.tl < c.num)))).filter (fun c => c.uid == e.c.uid && c.grp == e.c.grp && c.code)

theorem Env.mem_lateCodes (e : Env) (c : Command) : c ∈ e.lateCodes ↔ e.lateCode c := by
  unfold Env.lateCodes Env.lateCode
  simp only [List.mem_filter, List.mem_flatMap, decide_eq_true_eq, Bool.and_eq_true, beq_iff_eq]
  exact ⟨fun ⟨⟨q, hq, hc, hn⟩, ⟨hu, hg⟩, hk⟩ => ⟨⟨q, hq, hc, hn⟩, hu, hg, hk⟩, fun ⟨⟨q, hq, hc, hn⟩, hu, hg, hk⟩ => ⟨⟨q, hq, hc, hn⟩, ⟨hu, hg⟩, hk⟩⟩

/-- The earliest of a list of commands. -/
theorem earliest_spec (c : Command) (cs : List Command) :
    let r := cs.foldl (fun (a : Command) c => if c.at_ < a.at_ then c else a) c
    r ∈ c :: cs ∧ ∀ d ∈ c :: cs, r.at_ ≤ d.at_ := by
  induction cs generalizing c with
  | nil => simp
  | cons d cs ih =>
    obtain ⟨hmem, hle⟩ := ih (if d.at_ < c.at_ then d else c)
    have hfirst : (if d.at_ < c.at_ then d else c).at_ ≤ c.at_ ∧ (if d.at_ < c.at_ then d else c).at_ ≤ d.at_ := by split <;> omega
    have hrun := hle _ List.mem_cons_self
    simp only [List.foldl_cons, List.mem_cons] at hmem hle ⊢
    refine ⟨?_, ?_⟩
    · rcases hmem with hmem | hmem
      · rw [hmem]; split <;> simp
      · exact .inr (.inr hmem)
    · rintro x (rfl | rfl | hx)
      · exact hrun.trans hfirst.1
      · exact hrun.trans hfirst.2
      · exact hle x (.inr hx)

theorem Env.keeps_noCode (e : Env) (b : Bool) : e.keeps { e with g := if b then e.g else e.g.noCode } := by
  refine ⟨rfl, rfl, rfl, ?_⟩
  cases b <;> simp [Group.noCode]

/-- IFENCE, by the late commands that write code. -/
theorem exec_ifence {f : LW} {s : State} {e : Env} (h : e.ofLanes s) :
    exec (.ifence f) s = if !(controlOk f) then e.illegal else match e.lateCodes with
      | c :: cs => e.finish (e.outs f.g (fun _ => .fault (lf 0x0B (cs.foldl (fun (a : Command) c => if c.at_ < a.at_ then c else a) c).num false)))
      | [] => Env.finish { e with g := if (e.guarded f.g).isEmpty then e.g else e.g.noCode } (e.outs f.g (fun _ => .next)) :=
  State.issue_lanes s e h _

theorem Env.keeps_popAll (e : Env) (ls : List Nat) : e.keeps { e with g := ls.foldl (fun (g : Group) l => g.pop l) e.g } :=
  ⟨rfl, rfl, rfl, foldl_keep (fun g : Group => g.lanes.length) _ (fun g l => by simp [Group.pop, Group.setLane]) ls e.g⟩

/-- Settles O19: the words are outcomes of the guarded lanes over what pushes, pops and region entries leave; BRX is taken lane by lane; IFENCE asks for the earliest late command. -/
theorem laneControl : Obligations.LaneControl := by
  unfold Obligations.LaneControl
  intro f
  refine ⟨?nop, ?region, ?br, ?jmp, ?call, ?ret, ?brx, ?exit, fun s e h _ => ⟨fun hl => ?illegal, fun hl hnone => ?done, fun hl hsome => ?late⟩⟩
  case nop => exact outWord_finish _ _ _ _ _ _ (fun _ => rfl) Env.keeps_refl fun _ => Env.outs_lanes _ _ _
  case region => exact outWord_enter _ _ _ _ _ (fun _ => rfl)
  case br => exact outWord_finish _ _ _ _ _ _ (fun _ => rfl) Env.keeps_refl fun _ => Env.outs_lanes _ _ _
  case jmp =>
    refine outWord_finish _ _ _ _ _ _ (fun s => ?_) Env.keeps_refl fun e => by rw [List.map_map]; exact List.map_id _
    refine (show exec (.jmp f) s = execJmp f s from rfl).trans (State.issue_congr fun e _ => ?_)
    have houts : e.outs 0 (fun _ => .goto (laneTarget e.c.pc f)) = e.c.act.map (fun l => (l, .goto (laneTarget e.c.pc f))) :=
      List.map_congr_left fun l hl => by simp [Env.guarded, hl]
    rw [houts]
    rfl
  case call => exact outWord_finish _ _ _ (fun e => e.pushAll (e.callers f.g)) _ _ (fun _ => rfl) (fun e => e.keeps_pushAll _) fun _ => Env.outs_lanes _ _ _
  case ret => exact outWord_finish _ _ _ _ _ _ (fun _ => rfl) (fun e => e.keeps_popAll _) fun _ => Env.outs_lanes _ _ _
  case brx =>
    simp only [List.mem_cons, List.not_mem_nil, or_false, forall_eq_or_imp, forall_eq]
    exact ⟨⟨eachIs_brxWord fun _ => rfl, fun s e w h _ hl hv hp => brxWord_completes h hl hv hp⟩, eachIs_brxWord fun _ => rfl, fun s e w h _ hl hv hp => brxWord_completes h hl hv fun _ => hp trivial⟩
  case exit => exact outWord_finish _ _ _ _ _ (fun e t => e.exited f t) (fun _ => rfl) Env.keeps_refl fun _ => Env.outs_lanes _ _ _
  case illegal => rw [exec_ifence h, hl]; rfl
  case done =>
    have hempty : e.lateCodes = [] := List.eq_nil_iff_forall_not_mem.mpr fun c hc => hnone c ((e.mem_lateCodes c).mp hc)
    rw [exec_ifence h, hl, hempty]
    exact Env.finish_keeps h (e.keeps_noCode _) _ (e.outs_lanes _ _)
  case late =>
    obtain ⟨c, hc⟩ := hsome
    obtain ⟨d, ds, hds⟩ := List.exists_cons_of_ne_nil (List.ne_nil_of_mem ((e.mem_lateCodes c).mpr hc))
    obtain ⟨hmem, hle⟩ := earliest_spec d ds
    rw [← hds] at hmem hle
    obtain ⟨t, ht, hcl⟩ := Env.finish_keeps h e.keeps_refl _ (e.outs_lanes f.g (fun _ => .fault (lf 0x0B (ds.foldl (fun (a : Command) c => if c.at_ < a.at_ then c else a) d).num false)))
    refine ⟨_, t, (e.mem_lateCodes _).mp hmem, fun x hx => hle x ((e.mem_lateCodes x).mpr hx), ?_, hcl⟩
    rw [exec_ifence h, hl, hds]
    exact ht

end Sys2Proof.Machine
end

section
/-! Stream patterns (R237 to R240, R272) and the lanes that sign a matrix operation (R46, R244 to R250). -/

namespace Sys2Proof.Machine

/-! Stream patterns. -/

theorem Env.keeps_binds (e : Env) (b : Bool) (bs : List Binding) : e.keeps { e with g := if b then e.g else { e.g with binds := bs } } :=
  ⟨rfl, rfl, rfl, by cases b <;> rfl⟩

theorem exec_spbind {f : LW} {s : State} {e : Env} (h : e.ofLanes s) : exec (.spbind f) s =
    if !(spbindLegal f) then e.illegal else
    if (e.guarded f.g).isEmpty then e.finish (e.c.act.map (fun l => (l, .next))) else
    if !(patOk (e.g.getSp f.a)) || decide (8 ≤ (e.g.unbound f.d).length) then e.faultActive f.g (lf 0x04 0 false) else
    if 64 ≤ e.s.basins e.u.core - (e.g.binds.filter (fun b => b.reg == f.d)).length then e.stall else
    Env.finish { e with g := { e.g with binds := e.g.unbound f.d ++ [e.g.newBinding f] } } (e.c.act.map (fun l => (l, .next))) :=
  State.issue_lanes s e h _

/-- SPSET's end: what the 64 bytes at the address come to (R238). -/
def spsetEnd (f : GW) (e : Env) : GroupEnd :=
  let a := ofBase (e.g.getS f.a).toNat f.imm
  match e.check e.low (memReq a 64 64 true false false .cells) 0 with
  | .error q => .fault e q
  | .ok acc => match e.readNow e.g.liveLanes acc (addrNat a) with
    | .wait e1 => .stays e1
    | .fail q => .fault e q
    | .got e1 bs =>
      let p : List DWord := (List.range 8).map (fun i => BitVec.ofNat 64 (leNat ((bs.drop (8 * i)).take 8)))
      if patOk p then .goes { e1.touched e.g.liveLanes acc true with g := (e1.touched e.g.liveLanes acc true).g.setSp f.d p } e.next else .fault e (lf 0x04 (addrNat a) false)

theorem keepsEnd_spsetEnd (f : GW) (e : Env) : e.keepsEnd (spsetEnd f e) := by
  unfold spsetEnd
  simp only []
  split
  · exact e.keepsG_refl
  · next acc _ =>
    split
    · trivial
    · exact e.keepsG_refl
    · next e1 bs hr =>
      rw [Env.readNow_got hr]
      split
      · exact Env.keepsG_trans (e.keepsG_touched e.g.liveLanes acc true) ⟨rfl, rfl, rfl⟩
      · exact e.keepsG_refl

theorem Env.touched_c (e : Env) (ls : List Nat) (a : Acc) (b : Bool) : (e.touched ls a b).c = e.c := (e.keepsG_touched ls a b).1

theorem groupCase_spset (f : GW) : groupCase (.spset f) (fun _ => decide (f.d < 8)) (fun _ => [f.a]) (spsetEnd f) := by
  refine groupCase_of_issue _ (fun _ => rfl) (fun s e _ hok => ?bad) (fun s e _ hok => ?good) (keepsEnd_spsetEnd f)
  case bad => exact if_pos (by simpa using hok)
  case good =>
    refine (if_neg (by simpa using hok)).trans (congrArg (e.whenFull [f.a]) ?_)
    unfold spsetEnd
    simp only []
    cases e.check e.low (memReq (ofBase (e.g.getS f.a).toNat f.imm) 64 64 true false false .cells) 0 with
    | error q => rfl
    | ok acc =>
      simp only []
      cases hr : e.readNow e.g.liveLanes acc (addrNat (ofBase (e.g.getS f.a).toNat f.imm)) with
      | wait e1 => rfl
      | fail q => rfl
      | got e1 bs =>
        have he := Env.readNow_got hr
        subst he
        have hnext : (e1.touched e1.g.liveLanes acc true).next = e1.next := by unfold Env.next; rw [Env.touched_c]
        simp only []
        generalize (List.range 8).map (fun i => BitVec.ofNat 64 (leNat ((bs.drop (8 * i)).take 8))) = p
        cases hp : patOk p with
        | false => rfl
        | true => exact congrArg (Env.groupTo _) hnext

/-- SPLOOP's pattern (R272). -/
def sploopPat (f : GW) (g : Group) : List DWord := [g.getS f.a, g.getS f.f, g.getS f.b, if field (g.getS f.f) 2 2 = 1 then g.getS f.e else 0, 0, 0, 0, 0]

theorem groupCase_sploop (f : GW) : groupCase (.sploop f) (fun _ => decide (f.d < 8) && f.f6 == 0 && f.tl == 0 && f.rz == 0 && f.gimm == 0)
    (fun e => [f.a, f.b, f.f] ++ if field (e.g.getS f.f) 2 2 = 1 then [f.e] else [])
    (fun e => if field (e.g.getS f.f) 2 2 < 2 ∧ patOk (sploopPat f e.g) = true then .goes { e with g := e.g.setSp f.d (sploopPat f e.g) } e.next else .fault e (lf 0x04 0 false)) := by
  refine groupCase_of_issue _ (fun _ => rfl) (fun s e _ hok => ?bad) (fun s e _ hok => ?good) fun e => ?keeps
  case bad => exact if_pos (by rw [hok]; rfl)
  case good =>
    refine (if_neg (by rw [hok]; decide)).trans ?_
    simp only [beq_iff_eq]
    refine congrArg (e.whenFull _) ?_
    by_cases hp : field (e.g.getS f.f) 2 2 < 2 ∧ patOk (sploopPat f e.g) = true
    · rw [if_pos hp]
      exact if_neg (by simpa [sploopPat] using hp)
    · rw [if_neg hp]
      exact if_pos (by rw [Bool.not_eq_true', Bool.eq_false_iff]; exact fun hh => hp (by simpa [sploopPat] using hh))
  case keeps =>
    split
    · exact ⟨rfl, rfl, rfl⟩
    · exact e.keepsG_refl

/-- Settles O21: SPBIND by its cases, SPSET and SPLOOP as group words, the lighter's fetch as an event. -/
theorem streamWords : Obligations.StreamWords := by
  unfold Obligations.StreamWords
  refine ⟨fun f s e h _ => ⟨fun hl => ?illegal, fun hl hg => ?none, fun hl hg hp => ?malformed, fun hl hg hp hb hs => ?bound⟩, fun f => ?sprel, groupCase_spset, groupCase_sploop, ?fetch⟩
  case illegal => rw [exec_spbind h, hl]; rfl
  case none =>
    rw [exec_spbind h, hl, hg, ← Env.outs_next e f.g]
    exact Env.finish_keeps h e.keeps_refl _ (e.outs_lanes _ _)
  case malformed =>
    have hbad : (!(patOk (e.g.getSp f.a)) || decide (8 ≤ (e.g.unbound f.d).length)) = true := by
      by_contra hn
      simp only [Bool.not_eq_true, Bool.or_eq_false_iff, Bool.not_eq_false', decide_eq_false_iff_not, not_le] at hn
      exact hp hn
    rw [exec_spbind h, hl, List.isEmpty_eq_false_iff.mpr hg, hbad]
    exact Env.faultActive_closes h f.g _
  case bound =>
    have hgood : (!(patOk (e.g.getSp f.a)) || decide (8 ≤ (e.g.unbound f.d).length)) = false := by simp [hp, hb]
    have hroom : ¬ 64 ≤ e.s.basins e.u.core - (e.g.binds.filter (fun b => b.reg == f.d)).length := by
      rw [← List.countP_eq_length_filter]; omega
    rw [exec_spbind h, hl, List.isEmpty_eq_false_iff.mpr hg, hgood, if_neg hroom, ← Env.outs_next e f.g]
    exact Env.finish_keeps (e1 := { e with g := { e.g with binds := e.g.unbound f.d ++ [e.g.newBinding f] } }) h ⟨rfl, rfl, rfl, rfl⟩ _ (e.outs_lanes _ _)
  case sprel =>
    refine outWord_finish _ _ _ _ _ _ (fun s => State.issue_congr fun e _ => ?_) (fun e => e.keeps_binds _ _) fun e => e.outs_lanes _ _
    rw [Env.outs_next]
    rfl
  case fetch =>
    intro s u g b entry s1 hu hg hb hres hroom hpat hs
    show execStreamFetch s = _
    unfold execStreamFetch
    have hgo : ¬ (u.res ≠ .resident ∨ u.entriesWanted s.arg.b b.reg ≤ b.basin.length ∨ patEntries b.pat ≤ b.pos + b.basin.length) := by
      rintro (hr | hr | hr)
      · exact hr hres
      · exact absurd hroom (by omega)
      · exact absurd hpat (by omega)
    simp only [hu, hg, hb, if_neg hgo, hs]

/-! Signing. -/

theorem WorkUnit.sign_uid (u : WorkUnit) (n grp lane pc w0 w1 : Nat) : (u.sign n grp lane pc w0 w1).1.uid = u.uid ∧ (u.sign n grp lane pc w0 w1).1.groups = u.groups := by
  unfold WorkUnit.sign
  simp only []
  split_ifs <;> exact ⟨rfl, rfl⟩

/-- The lanes of an issue sign, each once, and their groups stay. -/
theorem Env.signAll_spec (e : Env) (f : LW) : (e.signAll f).1.uid = e.u.uid ∧ (e.signAll f).1.groups = e.u.groups ∧ (e.signAll f).2.map (·.1) = e.c.act := by
  have key : ∀ (ls : List Nat) (r : WorkUnit × List (Nat × LaneOut)),
      let q := ls.foldl (fun (r : WorkUnit × List (Nat × LaneOut)) l =>
        ((r.1.sign (mxCv f) e.c.grp l e.c.pc e.c.w0 e.c.w1).1, r.2 ++ [(l, (r.1.sign (mxCv f) e.c.grp l e.c.pc e.c.w0 e.c.w1).2)])) r
      q.1.uid = r.1.uid ∧ q.1.groups = r.1.groups ∧ q.2.map (·.1) = r.2.map (·.1) ++ ls := by
    intro ls
    induction ls with
    | nil => exact fun r => ⟨rfl, rfl, (List.append_nil _).symm⟩
    | cons l ls ih =>
      intro r
      obtain ⟨hu, hg⟩ := r.1.sign_uid (mxCv f) e.c.grp l e.c.pc e.c.w0 e.c.w1
      obtain ⟨iu, ig, io⟩ := ih ((r.1.sign (mxCv f) e.c.grp l e.c.pc e.c.w0 e.c.w1).1, r.2 ++ [(l, (r.1.sign (mxCv f) e.c.grp l e.c.pc e.c.w0 e.c.w1).2)])
      exact ⟨iu.trans hu, ig.trans hg, io.trans (by simp)⟩
  exact key e.c.act (e.u, [])

theorem Env.signAll_closes {s : State} {e : Env} (h : e.ofLanes s) (f : LW) :
    Env.closes { e with u := (e.signAll f).1 } (Env.close { e with u := (e.signAll f).1 } (e.signAll f).2).out (e.signAll f).2 := by
  obtain ⟨hu, hg, ho⟩ := e.signAll_spec f
  obtain ⟨t, ht, hc⟩ := Env.finish_keeps (e1 := { e with u := (e.signAll f).1 }) h ⟨rfl, hu, congrArg List.length hg, rfl⟩ (e.signAll f).2 ho
  injection ht with ht
  rw [ht]
  exact hc

/-- A matrix word by the slots that its fields name. -/
theorem matrixWord_cases {i : Instr} {f : LW} {stream : Bool} {pair : Slotd → Slotd → Bool} (hx : ∀ s, exec i s = matrixWord f stream pair s) {s : State} {e : Env} (h : e.ofLanes s) :
    (∀ ka kb, e.slot f.e.fs = some ka → e.slot f.e.subop = some kb → (matrixLegal f stream && pair ka kb) = true →
      (e.g.fenced e.c.act = true → exec i s = .next s) ∧
      (e.g.fenced e.c.act = false → ∃ t, exec i s = .next (t.convergenceTest e.c.uid) ∧ Env.closes { e with u := (e.signAll f).1 } t (e.signAll f).2)) ∧
    ((∀ ka kb, e.slot f.e.fs = some ka → e.slot f.e.subop = some kb → (matrixLegal f stream && pair ka kb) = false) → exec i s = e.illegal) := by
  rw [hx]
  unfold matrixWord
  rw [State.issue_lanes s e h]
  refine ⟨fun ka kb ha hb hl => ⟨fun hf => ?_, fun hf => ?_⟩, fun hl => ?_⟩
  · simp only [ha, hb, hl, hf, Bool.not_true, Bool.false_eq_true, if_false, if_true]
    unfold Env.stall
    rw [(State.env?_spec h.1).1]
  · simp only [ha, hb, hl, hf, Bool.not_true, Bool.false_eq_true, if_false]
    exact ⟨_, rfl, Env.signAll_closes h f⟩
  · split
    · next ka kb ha hb => simp only [hl ka kb ha hb, Bool.not_false, if_true]
    · rfl

/-- An operation is first on its registers where no earlier one that stands meets it. -/
theorem WorkUnit.firstOn_of {u : WorkUnit} {o : HeavyOp} (h : ∀ p ∈ u.ops.takeWhile (fun p => p.id != o.id), (∀ r ∈ touches p.instr, r ∉ touches o.instr) ∨ u.stands p = false) : u.firstOn o = true := by
  unfold WorkUnit.firstOn
  refine List.all_eq_true.mpr fun p hp => ?_
  rcases h p hp with hm | hs
  · have : meets p.instr o.instr = false := by
      unfold meets
      rw [List.any_eq_false]
      intro r hr
      simpa using hm r hr
    simp [this]
  · simp [hs]

/-- No element is on its way to a tile that no outstanding load of an element names. -/
theorem WorkUnit.onWay_of {u : WorkUnit} {i : Instr} (h : ∀ g ∈ u.groups, ∀ p ∈ g.inflight, ∀ t fs, p.kind = .tile t fs → t ∉ touches i) : u.onWay i = false := by
  unfold WorkUnit.onWay
  simp only [List.any_eq_false, Bool.not_eq_true]
  intro g hg p hp
  split
  · next t fs hk => simpa using h g hg p hp t fs hk
  · rfl

/-- Settles O22: the lanes sign in ascending order; an operation that is first on its registers and has begun is applied and leaves its queue. -/
theorem matrixWords : Obligations.MatrixWords := by
  unfold Obligations.MatrixWords
  refine ⟨fun f => ?sign, fun s u o hu ho hlight hfirst hway => ?complete⟩
  case sign =>
    simp only [List.mem_cons, List.not_mem_nil, or_false, forall_eq_or_imp, forall_eq]
    exact ⟨fun s e h _ => matrixWord_cases (fun _ => rfl) h, fun s e h _ => matrixWord_cases (fun _ => rfl) h, fun s e h _ => matrixWord_cases (fun _ => rfl) h⟩
  case complete =>
    have hgo : (o.light || !(u.firstOn o) || u.onWay o.instr) = false := by rw [hlight, WorkUnit.firstOn_of hfirst, WorkUnit.onWay_of hway]; rfl
    have hx : exec .matrixOperationComplete s = if !o.begun then .next (if o.leave then (s.beginHeavy u o).getD s else s) else
        let u1 := if (matrixLW o.instr).isSome then u.applyMatrix o else u
        let s1 := s.setUnit { u1 with ops := u1.ops.eraseIdx s.arg.b }
        .next (if o.perm then s1 else s1.leaveEnds u.die (.heavy u.uid o.id)) := by
      show execMatrixOperationComplete s = _
      unfold execMatrixOperationComplete
      simp only [hu, ho, hgo, Bool.false_eq_true, if_false]
    exact ⟨fun hb => by rw [hx, hb]; rfl, fun hb => by rw [hx, hb]; rfl⟩

end Sys2Proof.Machine
end

section
/-! The factor words of lanes (R260 to R265): at their turn in the queue of their accumulator. -/

namespace Sys2Proof.Machine

/-! What the words keep of their issue. -/

theorem Env.keeps_withOps (e : Env) (ops : List HeavyOp) : e.keeps (e.withOps ops) := ⟨rfl, rfl, rfl, rfl⟩

theorem Env.vectors_lanes {e : Env} {act : List Nat} {n : Nat} {wide : Bool} {xs : List (Nat × Bool)} {vs : List (List Nat)} {g : Group} (h : e.vectors act n wide xs = .ok vs g) :
    g.lanes = e.g.lanes := by
  unfold Env.vectors at h
  simp only [] at h
  split at h
  · cases h
  · split at h
    · cases h
    · injection h with _ hg
      rw [← hg]
      rfl

theorem Env.keeps_heavyQueued (e : Env) (n : Nat) (o : HeavyOp) (act : List Nat) (f64 : Bool) (dest : Option Nat) {g : Group} (hg : g.lanes = e.g.lanes) :
    e.keeps (e.heavyQueued n o act f64 dest g) := by
  refine ⟨rfl, rfl, rfl, ?_⟩
  cases dest with
  | none => exact congrArg List.length hg
  | some d => exact congrArg List.length ((g.markAll_lanes act f64 d true).trans hg)

/-- A word that has its accumulator, and passes the checks that every factor word makes. -/
theorem Env.factor_go {e0 : Env} {i : Instr} {heavy vec : Bool} {gn acc : Nat} {regs bound : List Nat} (k : Env → Nat → FactorAcc → List Nat → Out) (hg : e0.guarded gn ≠ []) (hm : e0.holdsMx = true) :
    match e0.turn i heavy (e0.guarded gn) with
    | .wait => e0.factor i heavy gn acc vec regs bound k = e0.stall
    | .queue e1 => e0.factor i heavy gn acc vec regs bound k = .next e1.out
    | .go e n => (e.u.fa acc).n ≠ 0 → (vec = true → (e.u.fa acc).n ≤ e.G) → ((e.u.fa acc).f64 = true → (∀ r ∈ regs, r % 2 = 0) ∧ ∀ r ∈ bound, ∀ b ∈ e.g.binds, b.reg ≠ r) →
      e0.factor i heavy gn acc vec regs bound k = k e n (e.u.fa acc) (e.guarded gn) := by
  unfold Env.factor Env.inLine
  simp only [List.isEmpty_eq_false_iff.mpr hg, hm, Bool.not_true, Bool.false_eq_true, if_false]
  cases ht : e0.turn i heavy (e0.guarded gn) with
  | wait => rfl
  | queue e1 => rfl
  | go e n =>
    obtain ⟨ops, rfl⟩ := Env.turn_go ht
    intro hn hG hr
    have hodd : (((e0.withOps ops).u.fa acc).f64 && regs.any (fun r => r % 2 == 1)) = false := by
      cases hf : ((e0.withOps ops).u.fa acc).f64 with
      | false => rfl
      | true =>
        rw [Bool.true_and, List.any_eq_false]
        exact fun r hm => by simp [(hr hf).1 r hm]
    have hbig : (vec && decide ((e0.withOps ops).G < ((e0.withOps ops).u.fa acc).n)) = false := by
      cases vec with
      | false => rfl
      | true => rw [Bool.true_and, decide_eq_false_iff_not, not_lt]; exact hG rfl
    have hbound : (((e0.withOps ops).u.fa acc).f64 && bound.any (fun r => (e0.withOps ops).g.binds.any (fun b => b.reg == r))) = false := by
      cases hf : ((e0.withOps ops).u.fa acc).f64 with
      | false => rfl
      | true =>
        rw [Bool.true_and, List.any_eq_false]
        intro r hm
        rw [Bool.not_eq_true, List.any_eq_false]
        exact fun b hb => by simpa using (hr hf).2 r hm b hb
    simp only [if_neg hn, hodd, hbig, hbound, Bool.false_eq_true, if_false]
    rfl

/-- A heavy factor word, by its turn. -/
theorem heavyIs_heavyFactor {i : Instr} {f : LW} {ok : Bool} {acc : Nat} {dest : Option Nat} {xs : List (Nat × Bool)} (hx : ∀ s, exec i s = heavyFactor i f ok acc dest xs s) : heavyIs i f ok acc dest xs := by
  intro s e0 h _
  rw [hx]
  unfold heavyFactor
  rw [State.issue_lanes s e0 h]
  refine ⟨fun hl => by rw [hl]; rfl, fun hl hg hm => ?_⟩
  simp only [hl, Bool.not_true, Bool.false_eq_true, if_false]
  have hgo := Env.factor_go (i := i) (heavy := true) (vec := true) (acc := acc) (regs := xs.map (·.1) ++ dest.toList) (bound := xs.map (·.1)) (fun e n a act =>
    if e.g.fenced act || dest.any (e.destEmpty act a.f64) then e.stall else
    match e.vectors act a.n a.f64 xs with
    | .stall => e.stall
    | .fault q => e.faultActive f.g q
    | .ok vs g =>
      let perm := e.u.permitCovers e.c.grp (heavyDemand i)
      if !perm && decide ((e.s.die e.u.die).budget < heavyDemand i) then e.faultActive f.g (lf 0x04 0 false) else
      let o := e.heavyOp i act perm vs
      .next (e.heavyAsks o (heavyDemand i) ((e.heavyQueued n o act a.f64 dest g).close (e.c.act.map (fun l => (l, if act.contains l then .park .leave 0 else .next)))).out)) hg hm
  cases ht : e0.turn i true (e0.guarded f.g) with
  | wait =>
    rw [ht] at hgo
    refine hgo.trans ?_
    unfold Env.stall
    rw [(State.env?_spec h.1).1]
  | queue e1 => rw [ht] at hgo; exact hgo
  | go e n =>
    rw [ht] at hgo
    obtain ⟨ops, rfl⟩ := Env.turn_go ht
    intro hn hG hr hf hd hleave vs g hv
    have hregs : ((e0.withOps ops).u.fa acc).f64 = true →
        (∀ r ∈ xs.map (·.1) ++ dest.toList, r % 2 = 0) ∧ ∀ r ∈ xs.map (·.1), ∀ b ∈ (e0.withOps ops).g.binds, b.reg ≠ r := by
      intro h64
      obtain ⟨hxs, hdest⟩ := hr h64
      refine ⟨fun r hr => ?_, fun r hr => ?_⟩
      · rcases List.mem_append.mp hr with hr | hr
        · obtain ⟨x, hx, rfl⟩ := List.mem_map.mp hr; exact (hxs x hx).1
        · exact hdest r (Option.mem_toList.mp hr)
      · obtain ⟨x, hx, rfl⟩ := List.mem_map.mp hr; exact (hxs x hx).2
    have hdest : dest.any ((e0.withOps ops).destEmpty ((e0.withOps ops).guarded f.g) ((e0.withOps ops).u.fa acc).f64) = false := by
      cases dest with
      | none => rfl
      | some d => exact hd d rfl
    have hbudget : (!((e0.withOps ops).u.permitCovers (e0.withOps ops).c.grp (heavyDemand i)) &&
        decide (((e0.withOps ops).s.die (e0.withOps ops).u.die).budget < heavyDemand i)) = false := by
      rcases hleave with hb | hp
      · rw [decide_eq_false (not_lt.mpr hb), Bool.and_false]
      · rw [hp]; rfl
    obtain ⟨t, ht, hc⟩ := Env.finish_keeps h (Env.keeps_trans (e0.keeps_withOps ops) ((e0.withOps ops).keeps_heavyQueued n
      ((e0.withOps ops).heavyOp i ((e0.withOps ops).guarded f.g) ((e0.withOps ops).u.permitCovers (e0.withOps ops).c.grp (heavyDemand i)) vs)
      ((e0.withOps ops).guarded f.g) ((e0.withOps ops).u.fa acc).f64 dest (Env.vectors_lanes hv))) _ ((e0.withOps ops).outs_lanes f.g (fun _ => .park .leave 0))
    injection ht with ht
    refine ⟨t, (hgo hn (fun _ => hG) hregs).trans ?_, hc⟩
    simp only [hf, hdest, hv, hbudget, Bool.or_false, Bool.false_eq_true, if_false]
    rw [← ht]
    rfl

/-! The image words (R262). -/

/-- What a read within a word's step leaves of the issue where it waits. -/
theorem Env.readNow_wait {e e1 : Env} {ls : List Nat} {acc : Acc} {a : Nat} (h : e.readNow ls acc a = .wait e1) : e.keeps e1 := by
  unfold Env.readNow at h
  split at h
  · split at h
    · cases h
    · cases h
    · injection h with h; rw [← h]; exact e.keeps_refl
    · split at h <;> (injection h with h; rw [← h]; exact ⟨rfl, rfl, rfl, rfl⟩)
  · split at h
    · injection h with h; rw [← h]; exact e.keeps_refl
    · cases h

theorem Env.keeps_notYet {e : Env} {ls : List Nat} {acc : Acc} {a : Nat} : e.keeps (e.notYet (e.readNow ls acc a)).1 := by
  cases h : e.readNow ls acc a with
  | wait e1 =>
    obtain ⟨hc, -, -, hl⟩ := Env.readNow_wait h
    exact ⟨hc, rfl, rfl, hl⟩
  | fail q => exact e.keeps_refl
  | got e1 bs => rw [← Env.readNow_got h]; exact e1.keeps_refl

theorem Env.keeps_faldStep (f : LW) (e : Env) (w : View) (l : Nat) (acc : Acc) : e.keeps (faldStep f e w l acc).1 := by
  unfold faldStep
  simp only []
  split
  · split
    · exact e.keeps_refl
    · split
      · exact e.keeps_refl
      · next all _ =>
        split
        · next e1 bs hr =>
          have he := Env.readNow_got hr
          subst he
          exact Env.keeps_trans (e1.keeps_touched w.act all true) ⟨rfl, rfl, rfl, rfl⟩
        · exact Env.keeps_notYet
  · exact Env.keeps_notYet

theorem bitAt_eq_testBit (x i : Nat) : bitAt x i = x.testBit i := by
  rw [Nat.testBit_eq_decide_div_mod_eq]
  rfl

/-- Where the image can be read, FALD's step is its completion. -/
theorem faldStep_next {f : LW} {e : Env} {w : View} {l : Nat} {acc : Acc} (h : faldReads f e w l acc) : (faldStep f e w l acc).2 = .next := by
  obtain ⟨e1, hd, hr, hok, hlt, all, e2, bs, hc, hall⟩ := h
  unfold faldStep
  have hhead : (!(orderOk (leNat hd % 128) ((leNat hd).testBit 7) && decide (leNat hd < 256))) = false := by
    rw [hok, decide_eq_true hlt]; rfl
  simp only [hr, bitAt_eq_testBit, hhead, Bool.false_eq_true, if_false, hc, hall]

theorem Env.keeps_keeping {e0 e : Env} (h : e0.keeps e) {r : Env × LaneOut} (hr : e.keeps r.1) : e.keeps (e0.keeping r).1 := by
  unfold Env.keeping
  split
  · exact ⟨hr.1, h.2.1.symm, h.2.2.1.symm, hr.2.2.2⟩
  · exact hr

theorem Env.keeping_next {e0 : Env} {r : Env × LaneOut} (h : r.2 = .next) : (e0.keeping r).2 = .next := by
  unfold Env.keeping
  split <;> exact h

theorem Env.keeps_fastStep (f : LW) (fa : FactorAcc) (e : Env) (w : View) (l : Nat) (acc : Acc) : e.keeps (fastStep f fa e w l acc).1 := by
  unfold fastStep
  simp only []
  split
  · exact Env.keeps_trans (Env.keeps_wrote _ _) (Env.keeps_changed _ _ _)
  · exact Env.keeps_trans (Env.keeps_store _ _ _ _ _ _ _) (Env.keeps_stored _ _)

theorem fastStep_next (f : LW) (fa : FactorAcc) (e : Env) (w : View) (l : Nat) (acc : Acc) (h : plainSeg e w l acc) : (fastStep f fa e w l acc).2 = .next := by
  have hk : (acc.g.kind == .lattice) = false := beq_false_of_ne h
  unfold fastStep
  simp only [hk, Bool.false_eq_true, if_false]

/-- FADIAG (R265). -/
theorem fadiag_completes {f : LW} {s : State} {e0 : Env} (h : e0.ofLanes s) (hl : fadiagLegal f = true) (hg : e0.guarded f.g ≠ []) (hm : e0.holdsMx = true) :
    match e0.turn (.fadiag f) false (e0.guarded f.g) with
    | .wait => exec (.fadiag f) s = .next s
    | .queue e1 => exec (.fadiag f) s = .next e1.out
    | .go e _ => (e.u.fa f.a).n ≠ 0 → ((e.u.fa f.a).f64 = true → f.d % 2 = 0) →
      e.destEmpty (e.guarded f.g) (e.u.fa f.a).f64 f.d = false → ∃ t, exec (.fadiag f) s = .next t ∧
        (Env.produce { e with g := e.g.markAll (e.guarded f.g) (e.u.fa f.a).f64 f.d true }
          (vectorProducer (e.guarded f.g) (e.u.fa f.a).f64 f.d ((List.range (e.u.fa f.a).n).map (fun i => (e.u.fa f.a).get i i)) e.next)).closes t (e.c.act.map (fun l => (l, .next))) := by
  have hx : exec (.fadiag f) s = e0.factor (.fadiag f) false f.g f.a false [f.d] [] fun e _ a act =>
      if e.destEmpty act a.f64 f.d then e.stall else
      Env.finish (Env.produce { e with g := e.g.markAll act a.f64 f.d true } (vectorProducer act a.f64 f.d ((List.range a.n).map (fun i => a.get i i)) e.next)) (e.c.act.map (fun l => (l, .next))) := by
    refine (State.issue_lanes s e0 h _).trans ?_
    simp only [hl, Bool.not_true, Bool.false_eq_true, if_false]
  rw [hx]
  have hgo := Env.factor_go (i := .fadiag f) (heavy := false) (vec := false) (acc := f.a) (regs := [f.d]) (bound := []) (fun e _ a act =>
    if e.destEmpty act a.f64 f.d then e.stall else
    Env.finish (Env.produce { e with g := e.g.markAll act a.f64 f.d true } (vectorProducer act a.f64 f.d ((List.range a.n).map (fun i => a.get i i)) e.next)) (e.c.act.map (fun l => (l, .next)))) hg hm
  cases ht : e0.turn (.fadiag f) false (e0.guarded f.g) with
  | wait =>
    rw [ht] at hgo
    refine hgo.trans ?_
    unfold Env.stall
    rw [(State.env?_spec h.1).1]
  | queue e1 => rw [ht] at hgo; exact hgo
  | go e n =>
    rw [ht] at hgo
    obtain ⟨ops, rfl⟩ := Env.turn_go ht
    intro hn hd he
    have hgo := hgo hn nofun fun h64 => ⟨fun r hr => by rw [List.mem_singleton.mp hr]; exact hd h64, nofun⟩
    simp only [he, Bool.false_eq_true, if_false] at hgo
    rw [hgo, ← Env.outs_next _ f.g]
    exact Env.finish_keeps h (Env.keeps_trans (e0.keeps_withOps ops) (Env.keeps_trans (e1 := { e0.withOps ops with g := (e0.withOps ops).g.markAll ((e0.withOps ops).guarded f.g) ((e0.withOps ops).u.fa f.a).f64 f.d true })
      ⟨rfl, rfl, rfl, congrArg List.length (Group.markAll_lanes _ _ _ _ _)⟩ (Env.keeps_produce _ _))) _ (Env.outs_lanes _ _ _)

/-- Settles O26: the heavy words enter their queues and ask leave; FADIAG delivers through a producer; FALD and FAST are one access each. -/
theorem factorWords : Obligations.FactorWords := by
  unfold Obligations.FactorWords
  intro f
  refine ⟨?_, ?_, ?_, ?_, ?_, ?_, ?_, ?_, fun s e0 h _ => ⟨fun hl => ?illegal, fadiag_completes h⟩, ?fald, ?fast⟩
  case illegal =>
    refine (State.issue_lanes s e0 h _).trans ?_
    simp only [hl, Bool.not_false, if_true]
  case fald =>
    refine onceIf_once _ _ (.fald f) f.g _ _ _ _ _ _ _ _ _ (fun _ => rfl) (fun e0 _ hm => ?_) (fun e => e.turn_keeps _ _ _) (fun _ e w l a h => Env.keeps_keeping h (e.keeps_faldStep f w l a))
      fun _ _ _ _ _ h => Env.keeping_next (faldStep_next h)
    simp only [hm, Bool.not_true, Bool.false_eq_true, if_false]
    unfold Env.inTurn Env.inLine
    cases ht : e0.turn (.fald f) false (e0.guarded f.g) with
    | wait => rfl
    | queue e1 => rfl
    | go e n =>
      obtain ⟨ops, rfl⟩ := Env.turn_go ht
      exact Env.once_next _ _ _ _ _ _ _
  case fast =>
    refine onceIf_once _ _ (.fast f) f.g _ _ _ _ _ _ _ _ _ (fun _ => rfl) (fun e0 _ hm => ?_) (fun e => e.turn_keeps _ _ _) (fun _ e w l a _ => e.keeps_fastStep f _ w l a)
      fun _ e w l a h => fastStep_next f _ e w l a h
    obtain ⟨hm, hn⟩ := Bool.and_eq_true_iff.mp hm
    have hn : (e0.u.fa f.d).n ≠ 0 := by simpa using hn
    simp only [hm, Bool.not_true, Bool.false_eq_true, if_false]
    unfold Env.inTurn Env.inLine
    cases ht : e0.turn (.fast f) false (e0.guarded f.g) with
    | wait => rfl
    | queue e1 => rfl
    | go e n =>
      obtain ⟨ops, rfl⟩ := Env.turn_go ht
      exact (if_neg hn).trans (Env.once_next _ _ _ _ _ _ _)
  all_goals exact heavyIs_heavyFactor fun _ => rfl

end Sys2Proof.Machine
end

section
/-! Group words (R263, R267 to R271, R279): what each keeps of its issue, and its ends. -/

namespace Sys2Proof.Machine

/-! What the steps of memory words keep of a group's issue. -/

theorem Env.keepsG_of_keeps {e e1 : Env} (h : e.keeps e1) (hc : e1.c = e.c) : e.keepsG e1 := ⟨hc, h.2.1, h.2.2.1⟩

theorem Env.keepsG_wrote (e : Env) (ks : List Nat) : e.keepsG (e.wrote ks) := by
  unfold Env.wrote
  split
  · exact e.keepsG_refl
  · exact ⟨rfl, rfl, rfl⟩

theorem Env.keepsG_changed (e : Env) (s1 : State) (ks : List Nat) : e.keepsG (e.changed s1 ks) := Env.keepsG_of_keeps (e.keeps_changed s1 ks) rfl

theorem Env.keepsG_store (e : Env) (l : Nat) (os : List Nat) (acc : Acc) (bs : List Byte) (rel a : Nat) : e.keepsG (e.store l os acc bs rel a) := by
  refine Env.keepsG_trans (Env.keepsG_trans (e.keepsG_touched (l :: os) acc false) (Env.keepsG_wrote _ acc.keys)) ?_
  unfold Env.store
  simp only []
  split <;> exact ⟨rfl, rfl, rfl⟩

theorem Env.keepsG_stored (e : Env) (n : Nat) : e.keepsG (e.stored n) := by
  refine Env.keepsG_of_keeps (e.keeps_stored n) ?_
  unfold Env.stored
  simp only []
  split <;> rfl

theorem Env.keepsG_push (e : Env) (l ret : Nat) : e.keepsG (e.push l ret) := by
  refine Env.keepsG_of_keeps (e.keeps_push l ret) ?_
  unfold Env.push
  simp only []
  split <;> rfl

theorem Env.keepsG_pushAll (e : Env) (ls : List Nat) : e.keepsG (e.pushAll ls) := by
  unfold Env.pushAll
  induction ls generalizing e with
  | nil => exact e.keepsG_refl
  | cons l ls ih => exact Env.keepsG_trans (e.keepsG_push l e.next) (ih _)

theorem Env.keepsG_produce (e : Env) (p : Producer) : e.keepsG (e.produce p) := by
  unfold Env.produce
  split
  · exact e.keepsG_refl
  · exact ⟨rfl, rfl, rfl⟩

theorem Env.next_of_keepsG {e e1 : Env} (h : e.keepsG e1) : e1.next = e.next := by unfold Env.next; rw [h.1]

/-- An issue that kept its word goes on at the word after it. -/
theorem Env.groupNext_of_keepsG {e e1 : Env} (s : State) (h : e.keepsG e1) : e1.groupNext = (GroupEnd.goes e1 e.next).out s := congrArg e1.groupTo (Env.next_of_keepsG h)

theorem Env.whenFull_nil (e : Env) (k : Out) : e.whenFull [] k = k := rfl

/-! FAINIT's meaning raises no flags by way of `Group.raise`, which keeps the five sticky flags alone: a word that holds other bits changes, where the statement leaves it as it was. -/

/-- FAINIT of accumulator 1 from s register 1. -/
def fainitWord : GW := ⟨1, 1, 0, 0, none⟩

/-- A group about to issue FAINIT with sA = 1 (order 1, FP32, diagonal +0), whose sticky word holds bit 5, beyond the five flags (R135). -/
def beyondFlags : Option Env :=
  match ((State.reset.withFetchWord 64 0xA9041000).onGroup 0 0 (fun g => { g.putS 1 1 with sticky := 32 })).issueMove 0 0 none false with
  | .run s _ => s.env?
  | _ => none

/-- FAINIT's end, as the statement gives it. -/
def fainitEnd (f : GW) (e : Env) : GroupEnd :=
  e.tileEnd (.fainit f) (fun e => match fainitAcc (e.g.getS f.a) with
    | none => .fault e (lf 0x04 0 false)
    | some a => .goes { e with u := { e.u with fas := e.u.fas.set f.d a } } e.next)

/-- The sticky word in which an end goes on. -/
def GroupEnd.sticky : GroupEnd → Option Nat
  | .goes e _ => some e.g.sticky
  | _ => none

/-- The sticky word of the issuing group after an outcome. -/
def stickyAfter (e : Env) : Out → Option Nat
  | .next t => ((t.unit? e.c.uid).bind (·.group e.c.grp)).map (·.sticky)
  | _ => none

/-- The issue meets FAINIT's hypotheses; the statement's end keeps bit 5, and the model's run drops it. -/
theorem beyondFlags_met : beyondFlags.any (fun e => decide (e.ofGroup e.s) && wellFormed (.fainit fainitWord) && !((if e.holdsMx then [1] else []).any e.g.emptyS) &&
    (e.unfilled? (if e.holdsMx then [1] else [])).isNone && (fainitEnd fainitWord e).sticky == some 32 && stickyAfter e (exec (.fainit fainitWord) e.s) == some 0) = true := by decide +kernel

theorem Env.groupResult_sticky {e : Env} {t : State} {pc : Nat} (h : e.groupResult t pc) : stickyAfter e (.next t) = some e.g.sticky := by
  obtain ⟨u, g, ⟨⟨hu, hg, -⟩, -⟩, -, -, -, -, hlike, -⟩ := h
  have hst : g.sticky = e.g.sticky := by have := congrArg Group.sticky hlike; exact this
  unfold stickyAfter
  simp only [hu, Option.bind_some, hg, Option.map_some, hst]

/-- FAINIT's end issues where its issue does. -/
theorem fainitEnd_c {f : GW} {e e1 : Env} {pc : Nat} (h : fainitEnd f e = .goes e1 pc) : e1.c = e.c := by
  have hk : e.keepsEnd (fainitEnd f e) := Env.keepsEnd_tileEnd fun ops => by
    cases fainitAcc ((e.withOps ops).g.getS f.a) with
    | none => exact (e.withOps ops).keepsG_refl
    | some a => exact ⟨rfl, rfl, rfl⟩
  rw [h] at hk
  exact hk.1

/-- Refutes O27: FAINIT passes the group through `Group.raise` with no flags, which cuts the sticky word to its five flags; in a state whose sticky word is 32 it becomes 0, where the statement says that nothing but the accumulator changes. -/
theorem not_factorGroupWords : ¬ Obligations.FactorGroupWords := by
  unfold Obligations.FactorGroupWords
  intro h
  obtain ⟨e, -, he⟩ := (Option.any_eq_true _ _).mp beyondFlags_met
  simp only [Bool.and_eq_true, decide_eq_true_eq, Bool.not_eq_true', Option.isNone_iff_eq_none, beq_iff_eq] at he
  obtain ⟨⟨⟨⟨⟨hof, hwf⟩, hfull⟩, hfill⟩, hend⟩, hrun⟩ := he
  have hgoes := (((h fainitWord).1) e.s e hof hwf).2.1 rfl hfull hfill
  change match fainitEnd fainitWord e with
    | .wait => exec (.fainit fainitWord) e.s = .next e.s
    | .stays e1 => exec (.fainit fainitWord) e.s = .next e1.out
    | .fault e1 f => ∃ t, exec (.fainit fainitWord) e.s = .next t ∧ e1.groupStops t f
    | .goes e1 pc => ∃ t, exec (.fainit fainitWord) e.s = .next t ∧ e1.groupResult t pc at hgoes
  cases hk : fainitEnd fainitWord e with
  | wait => rw [hk] at hend; cases hend
  | stays e1 => rw [hk] at hend; cases hend
  | fault e1 q => rw [hk] at hend; cases hend
  | goes e1 pc =>
    rw [hk] at hend hgoes
    obtain ⟨t, ht, hres⟩ := hgoes
    have hst := Env.groupResult_sticky hres
    have hend : e1.g.sticky = 32 := Option.some.inj hend
    have hsame : stickyAfter e1 (.next t) = stickyAfter e (.next t) := by unfold stickyAfter; rw [fainitEnd_c hk]
    rw [hsame, ← ht, hrun, hend] at hst
    cases hst

/-! Conditions (R267). -/

theorem toInt_low (n w : Nat) : toInt n (low n w) = toInt n w := by
  unfold toInt low
  simp only [Nat.mod_mod]

theorem groupWord_scmpWord {i : Instr} {f : GW} {k : GForm} {ok : Bool} (hx : ∀ s, exec i s = scmpWord f k s) (hok : (k.ok f && decide (f.d < 4) && (k != .gr || f.f6 == 0)) = (ok && decide (f.d < 4))) :
    scmpIs i f ok (k.reads f) (fun e => k.operand e.g f) := by
  refine groupWord_next i _ _ _ _ (fun s => ?_) fun _ => ⟨rfl, rfl, rfl⟩
  rw [hx, scmpWord, hok]
  refine State.issue_congr fun e _ => ?_
  have hcmp : e.g.compare f.d (e.g.getS f.a).toNat (k.value e.g f) =
      (let n := if f.d < 2 then 64 else 32
       let x := (e.g.getS f.a).toNat % 2 ^ n
       let y := (k.operand e.g f).toNat % 2 ^ n
       { e.g with cond := { e.g.cond with eq := decide (x = y), lt := if f.d % 2 = 0 then decide (toInt n x < toInt n y) else decide (x < y), ltn := decide (x < y) } }) := by
    rw [GForm.value_eq]
    unfold Group.compare IntTy.val
    simp only [beq_eq_decide]
    by_cases hd : f.d % 2 = 0
    · simp only [hd, decide_true, if_true]
      rw [← toInt_low _ (e.g.getS f.a).toNat, ← toInt_low _ (k.operand e.g f).toNat]
      rfl
    · simp only [hd, decide_false, Bool.false_eq_true, if_false, Nat.cast_lt]
      rfl
  rw [hcmp]
  rfl

/-- Settles O29: the three forms of SCMP are one comparison of sA with the form's operand. -/
theorem groupConditions : Obligations.GroupConditions := by
  unfold Obligations.GroupConditions
  intro f
  refine ⟨?gr, ?gi, ?gl, ?ssel⟩
  case gr => exact groupWord_scmpWord (k := .gr) (fun _ => rfl) (by cases f.f6 == 0 <;> simp [GForm.ok])
  case gi => exact groupWord_scmpWord (k := .gi) (fun _ => rfl) (by simp [GForm.ok])
  case gl => exact groupWord_scmpWord (k := .gl) (fun _ => rfl) (by simp [GForm.ok])
  case ssel =>
    refine groupWord_next _ _ _ _ _ (fun s => State.issue_congr fun e _ => ?_) fun _ => ⟨rfl, rfl, rfl⟩
    by_cases h : f.f6 < 8
    · refine (if_neg (not_le.mpr h)).trans ?_
      rw [decide_eq_true h]
      rfl
    · refine (if_pos (not_lt.mp h)).trans ?_
      rw [decide_eq_false h]
      rfl

/-! Uniform control (R267, R268). -/

theorem groupCase_scall (f : GW) : groupCase (.scall f) (fun _ => f.d / 8 == 0) (fun _ => []) (fun e =>
    match e.g.liveLanes.findSome? e.pushFault with
    | some q => .fault e q
    | none => .goes (e.pushAll e.g.liveLanes) (groupTarget e.c.pc f)) := by
  refine groupCase_of_issue _ (fun _ => rfl) (fun s e _ hok => ?bad) (fun s e _ hok => ?good) fun e => ?keeps
  case bad => exact if_pos (by simpa using hok)
  case good =>
    refine (if_neg (by simpa using hok)).trans ?_
    rw [Env.whenFull_nil]
    cases e.g.liveLanes.findSome? e.pushFault <;> rfl
  case keeps =>
    split
    · exact e.keepsG_refl
    · exact e.keepsG_pushAll _

theorem groupCase_sret (f : GW) : groupCase (.sret f) (fun _ => f.d == 0 && f.a == 0 && f.b == 0 && f.f6 == 0) (fun _ => []) (fun e =>
    let t := e.top (e.g.liveLanes.headD 0)
    match e.g.liveLanes.findSome? (fun l => e.popFault l e.c.pc) with
    | some q => .fault e q
    | none => if ∃ l ∈ e.g.liveLanes, e.top l ≠ t then .fault e (lf 0x0A e.c.pc false) else
      .goes { e with g := e.g.liveLanes.foldl (fun (g : Group) l => g.pop l) e.g } t) := by
  refine groupCase_of_issue _ (fun _ => rfl) (fun s e _ hok => ?bad) (fun s e _ hok => ?good) fun e => ?keeps
  case bad => exact if_pos (by rw [hok]; rfl)
  case good =>
    refine (if_neg (by rw [hok]; decide)).trans ?_
    rw [Env.whenFull_nil]
    simp only [List.any_eq_true, bne_iff_ne]
    cases e.g.liveLanes.findSome? (fun l => e.popFault l e.c.pc) with
    | some q => rfl
    | none =>
      simp only []
      split <;> rfl
  case keeps =>
    simp only []
    split
    · exact e.keepsG_refl
    · split
      · exact e.keepsG_refl
      · exact ⟨rfl, rfl, rfl⟩

/-- Settles O30: SBR and SJMP go to their target, SCALL and SRET by what their pushes and pops meet. -/
theorem groupControl : Obligations.GroupControl := by
  unfold Obligations.GroupControl
  intro f
  refine ⟨?sbr, ?sjmp, groupCase_scall f, groupCase_sret f⟩
  case sbr =>
    refine groupWord_next _ _ _ _ _ (fun s => State.issue_congr fun e _ => ?_) Env.keepsG_refl
    rw [Env.whenFull_nil]
    cases h : e.g.cond.holds (f.d / 8) <;> rfl
  case sjmp =>
    refine groupWord_next _ _ _ _ _ (fun s => State.issue_congr fun e _ => ?_) Env.keepsG_refl
    rw [Env.whenFull_nil]
    rfl

/-! SLD and SST (R269). -/

theorem groupCase_sld (f : GW) : groupCase (.sld f) (fun _ => true) (fun _ => [f.a, f.d]) (fun e =>
    let a := ofBase (e.g.getS f.a).toNat f.imm
    match e.check e.low (memReq a 8 8 true false false .cells) 0 with
    | .error q => .fault e q
    | .ok acc =>
      if e.loadWaits e.g.liveLanes acc.keys then .wait else
      let e1 := e.touched e.g.liveLanes acc true
      .goes ((Env.produce { e1 with g := e1.g.markS f.d true } { kind := .load 8 false 0, parts := [{ e.part e.low (.s f.d) acc (addrNat a) with others := e.rest }], pc := e.next, commit := false }).merge
        e.g.inflight.length) e.next) := by
  have hkeep (e : Env) (acc : Acc) (p : Producer) (n : Nat) :
      e.keepsG ((Env.produce { e.touched e.g.liveLanes acc true with g := (e.touched e.g.liveLanes acc true).g.markS f.d true } p).merge n) :=
    Env.keepsG_trans (Env.keepsG_trans (e.keepsG_touched e.g.liveLanes acc true)
      (Env.keepsG_produce { e.touched e.g.liveLanes acc true with g := (e.touched e.g.liveLanes acc true).g.markS f.d true } p)) ⟨rfl, rfl, rfl⟩
  refine groupCase_of_issue _ (fun _ => rfl) (fun s e _ hok => (Bool.noConfusion hok)) (fun s e _ _ => congrArg (e.whenFull [f.a, f.d]) ?good) fun e => ?keeps
  case good =>
    simp only []
    cases e.check e.low (memReq (ofBase (e.g.getS f.a).toNat f.imm) 8 8 true false false .cells) 0 with
    | error q => rfl
    | ok acc =>
      simp only []
      cases e.loadWaits e.g.liveLanes acc.keys with
      | true => rfl
      | false => exact Env.groupNext_of_keepsG e.s (hkeep e acc _ _)
  case keeps =>
    simp only []
    split
    · exact e.keepsG_refl
    · split
      · trivial
      · exact hkeep e _ _ _

theorem groupCase_sst (f : GW) : groupCase (.sst f) (fun _ => true) (fun _ => [f.a, f.d]) (fun e =>
    let a := ofBase (e.g.getS f.a).toNat f.imm
    match e.check e.low (memReq a 8 8 false true false .cells) 0 with
    | .error q => .fault e q
    | .ok acc =>
      if e.storeWaits 0 1 (e.g.liveLanes.map (fun l => (l, acc))) then .wait else
      if acc.g.kind == .lattice then
        (let r := e.s.latticeStore e.u.die acc.g a.seg acc.off acc.keys (leBytes 8 (e.g.getS f.d).toNat)
         match r.2 with
         | some q => .fault ((e.wrote acc.keys).changed r.1 acc.keys) q
         | none => .goes ((e.wrote acc.keys).changed r.1 acc.keys) e.next)
      else .goes ((e.store e.low e.rest acc (leBytes 8 (e.g.getS f.d).toNat) 0 (addrNat a)).stored e.s.posted.length) e.next) := by
  have hcell (e : Env) (ks : List Nat) (s1 : State) : e.keepsG ((e.wrote ks).changed s1 ks) := Env.keepsG_trans (e.keepsG_wrote ks) (Env.keepsG_changed _ s1 ks)
  have hbuf (e : Env) (acc : Acc) (bs : List Byte) (a n : Nat) : e.keepsG ((e.store e.low e.rest acc bs 0 a).stored n) := Env.keepsG_trans (e.keepsG_store _ _ acc bs 0 a) (Env.keepsG_stored _ n)
  refine groupCase_of_issue _ (fun _ => rfl) (fun s e _ hok => (Bool.noConfusion hok)) (fun s e _ _ => congrArg (e.whenFull [f.a, f.d]) ?good) fun e => ?keeps
  case good =>
    simp only []
    cases e.check e.low (memReq (ofBase (e.g.getS f.a).toNat f.imm) 8 8 false true false .cells) 0 with
    | error q => rfl
    | ok acc =>
      simp only []
      cases e.storeWaits 0 1 (e.g.liveLanes.map (fun l => (l, acc))) with
      | true => rfl
      | false =>
        cases acc.g.kind == .lattice with
        | false => exact Env.groupNext_of_keepsG e.s (hbuf e acc _ _ _)
        | true =>
          simp only [Bool.false_eq_true, if_false, if_true]
          cases (e.s.latticeStore e.u.die acc.g (ofBase (e.g.getS f.a).toNat f.imm).seg acc.off acc.keys (leBytes 8 (e.g.getS f.d).toNat)).2 with
          | some q => rfl
          | none => exact Env.groupNext_of_keepsG e.s (hcell e acc.keys _)
  case keeps =>
    simp only []
    split
    · exact e.keepsG_refl
    · split
      · trivial
      · split
        · split
          · exact hcell e _ _
          · exact hcell e _ _
        · exact hbuf e _ _ _ _

/-- Settles O31: each is one access of the lowest live lane. -/
theorem groupMemory : Obligations.GroupMemory := by
  unfold Obligations.GroupMemory
  exact fun f => ⟨groupCase_sld f, groupCase_sst f⟩

/-! Convergence sets and the decision queue (R270, R271). -/

theorem groupCase_cvsetWord {i : Instr} {f : GW} {mask : Nat} {ok : Bool} (hx : ∀ s, exec i s = cvsetWord f mask ok s) :
    groupCase i (fun _ => ok && decide (f.d < 16) && f.a == 0 && decide (mask < 2 ^ 16)) (fun _ => []) (fun e =>
      let c := e.u.cvs.getD f.d ⟨0, 0, 0, 0, []⟩
      if c.sigs ≠ [] then .fault e (lf 0x0A (f.d + 2 ^ 63) false) else if 2 ^ e.u.groups.length ≤ mask then .fault e (lf 0x04 0 false) else
      .goes { e with u := { e.u with cvs := e.u.cvs.set f.d { c with mask := mask } } } e.next) := by
  refine groupCase_of_issue _ hx (fun s e _ hok => ?bad) (fun s e _ hok => ?good) fun e => ?keeps
  case bad => exact if_pos (by rw [hok]; rfl)
  case good =>
    refine (if_neg (by rw [hok]; decide)).trans ?_
    rw [Env.whenFull_nil]
    simp only []
    by_cases hs : (e.u.cvs.getD f.d ⟨0, 0, 0, 0, []⟩).sigs = []
    · rw [hs, if_neg (not_not.mpr rfl)]
      refine (if_neg (by decide)).trans ?_
      split <;> rfl
    · rw [if_pos hs]
      exact if_pos (by simpa using hs)
  case keeps =>
    simp only []
    split
    · exact e.keepsG_refl
    · split
      · exact e.keepsG_refl
      · exact ⟨rfl, rfl, rfl⟩

theorem groupCase_dqpush (f : GW) : groupCase (.dqpush f) (fun _ => f.d == 0 && f.b == 0 && f.f6 == 0) (fun _ => [f.a]) (fun e =>
    if 8 ≤ e.g.dq.length then .fault e (lf 0x04 0 false) else .goes { e with g := { e.g with dq := e.g.dq ++ [e.g.getS f.a] } } e.next) := by
  refine groupCase_ends _ _ _ _ (fun e => if 8 ≤ e.g.dq.length then e.groupFault (lf 0x04 0 false) else Env.groupNext { e with g := { e.g with dq := e.g.dq ++ [e.g.getS f.a] } }) (fun _ => rfl)
    (fun e _ => ?out) fun e => ?keeps
  case out => split <;> rfl
  case keeps =>
    split
    · exact e.keepsG_refl
    · exact ⟨rfl, rfl, rfl⟩

theorem groupCase_dqpop (f : GW) : groupCase (.dqpop f) (fun _ => f.a == 0 && f.b == 0 && decide (f.f6 < 2)) (fun e => if f.f6 = 0 ∧ e.g.dq ≠ [] then [f.d] else []) (fun e =>
    match e.g.dq with
    | [] => .fault e (lf 0x09 (f.d + (if f.f6 = 0 then 64 else 0)) false)
    | x :: rest =>
      if f.f6 = 0 then .goes { e with g := Group.putS { e.g with dq := rest } f.d x } e.next
      else if ∃ l ∈ e.g.liveLanes, e.g.emptyV l f.d = true then .wait
      else .goes { e with g := e.g.liveLanes.foldl (fun (g : Group) l => g.putV l f.d (x.setWidth 32)) { e.g with dq := rest } } e.next) := by
  refine groupCase_of_issue _ (fun _ => rfl) (fun s e _ hok => ?bad) (fun s e _ hok => ?good) fun e => ?keeps
  case bad => exact if_pos (by rw [hok]; rfl)
  case good =>
    refine (if_neg (by rw [hok]; decide)).trans ?_
    simp only [List.any_eq_true]
    cases e.g.dq with
    | nil => simp only [ne_eq, not_true, and_false, if_false]; rfl
    | cons x rest =>
      by_cases h6 : f.f6 = 0
      · simp only [h6, if_true, ne_eq, reduceCtorEq, not_false_eq_true, and_self]
        rfl
      · simp only [h6, if_false, false_and, Env.whenFull_nil]
        split
        · rfl
        · rfl
  case keeps =>
    split
    · exact e.keepsG_refl
    · split
      · exact ⟨rfl, rfl, rfl⟩
      · split
        · trivial
        · exact ⟨rfl, rfl, rfl⟩

/-- Settles O32: CVSET in its two forms, and the decision queue. -/
theorem groupSets : Obligations.GroupSets := by
  unfold Obligations.GroupSets
  intro f
  refine ⟨?cvset, groupCase_dqpush f, groupCase_dqpop f⟩
  case cvset =>
    simp only [List.mem_cons, List.not_mem_nil, or_false, forall_eq_or_imp, forall_eq]
    exact ⟨groupCase_cvsetWord fun _ => rfl, groupCase_cvsetWord fun _ => rfl⟩

/-! Permits (R279). -/

/-- PERMIT past its fields and its registers. -/
theorem exec_permit {f : GW} {s : State} {e : Env} (h : e.ofGroup s) (hl : (f.gx == 0 && f.b == 0 && decide (f.f6 < 4)) = true) (ha : e.g.emptyS f.a = false) (hd : e.g.emptyS f.d = false)
    (hu : e.unfilled? [f.a, f.d] = none) : exec (.permit f) s =
      if (e.permitBack.die e.u.die).budget < (e.g.getS f.a).toNat then Env.groupFault { e with s := e.permitBack, g := { e.g with permit := none } } (lf 0x04 0 false) else
      if (e.g.getS f.a).toNat = 0 then Env.groupNext { e with s := e.permitBack, g := { e.g.putS f.d 0 with permit := none } } else
      .next ((e.permitParked f (e.g.getS f.a).toNat).out.ask e.u.die f.f6 (.permit e.u.uid e.c.grp) (e.g.getS f.a).toNat) := by
  have hfull : [f.a, f.d].any e.g.emptyS = false := by simp [ha, hd]
  refine (State.issue_group s e h _).trans ?_
  simp only [hl, Bool.not_true, Bool.false_eq_true, if_false]
  exact Env.whenFull_go hfull hu _

/-- Settles O34: PERMIT gives back what is held and then faults, answers or asks; PERMQ answers. -/
theorem permits : Obligations.Permits := by
  unfold Obligations.Permits
  intro f
  refine ⟨fun s e h _ => ⟨fun hl => ?illegal, fun hl ha hd hu => ⟨fun hb => ?above, fun hn => ?zero, fun hn hb => ?asks⟩⟩, ?permq⟩
  case illegal =>
    refine (State.issue_group s e h _).trans ?_
    simp only [hl, Bool.not_false, if_true]
  case above =>
    rw [exec_permit h hl ha hd hu, if_pos hb]
    exact Env.groupFault_keeps (e1 := { e with s := e.permitBack, g := { e.g with permit := none } }) h ⟨rfl, rfl, rfl⟩ _
  case zero =>
    rw [exec_permit h hl ha hd hu, if_neg (by omega), if_pos hn]
    exact Env.groupTo_keeps (e1 := { e with s := e.permitBack, g := { e.g.putS f.d 0 with permit := none } }) h ⟨rfl, rfl, rfl⟩ _
  case asks => rw [exec_permit h hl ha hd hu, if_neg (by omega), if_neg (by omega)]
  case permq => exact groupWord_next _ _ _ _ _ (fun _ => rfl) fun _ => ⟨rfl, rfl, rfl⟩

end Sys2Proof.Machine
end

section
/-! Engine commands (R118, R119, R273 to R278) and the system words (R280): each is its tests, then one end. -/

namespace Sys2Proof.Machine

/-! Engine commands. -/

theorem Env.keepsG_commandMade (e : Env) (f : GW) (k : EngId) (c : Command) : e.keepsG (e.commandMade f k c) := ⟨rfl, rfl, rfl⟩

theorem commandIs_command {i : Instr} {f : GW} {ok : Bool} {kind : Nat → Bool} {regs : List Nat} {ranges : Env → List Range} {extra : Env → EngId → Nat → Option LFault} {demand : Env → Nat}
    {pat : Env → List DWord} (hx : ∀ s, exec i s = s.issue (fun e => if !ok then e.groupIllegal else e.command f i kind regs (ranges e) (extra e) (demand e) (pat e))) :
    commandIs i f ok kind regs ranges extra demand pat := by
  intro s e h _
  rw [hx, State.issue_group s e h]
  refine ⟨fun ho => by rw [ho]; rfl, fun ho hf => ?empty, fun ho hf q hu => ?unfilled, fun ho hf hu => ⟨fun q hq => ?bad, fun hq => ⟨fun hw => ?waits, fun hw hd => ?defers, fun hw hd => ?made⟩⟩⟩
  all_goals
    simp only [ho, Bool.not_true, Bool.false_eq_true, if_false]
    unfold Env.command
  case empty =>
    rw [Env.whenFull_wait hf]
    unfold Env.stall
    rw [(State.env?_spec h.1).1]
  case unfilled =>
    rw [Env.whenFull_fault hf hu]
    exact Env.groupFault_keeps h e.keepsG_refl q
  case bad =>
    rw [Env.whenFull_go hf hu, hq]
    exact Env.groupFault_keeps h e.keepsG_refl q
  all_goals
    rw [Env.whenFull_go hf hu, hq]
    have hctx : ∃ k, ctxOf e.u f.tl = some k := by
      unfold Env.commandBad at hq
      cases hc : ctxOf e.u f.tl with
      | none => rw [hc] at hq; cases hq
      | some k => exact ⟨k, rfl⟩
    obtain ⟨k, hk⟩ := hctx
    rw [hk]
    simp only [hw, Bool.false_eq_true, if_false, if_true]
  case waits =>
    unfold Env.stall
    rw [(State.env?_spec h.1).1]
  case defers => rw [List.isEmpty_eq_false_iff.mpr hd]; rfl
  case made =>
    rw [hd]
    obtain ⟨t, ht, hres⟩ := Env.groupTo_keeps h (e.keepsG_commandMade f k (e.newCommand f i k (demand e) (pat e))) e.next
    refine ⟨k, t, rfl, hres, ?_⟩
    have hnext : (e.commandMade f k (e.newCommand f i k (demand e) (pat e))).groupNext = .next t := ht
    simp only [List.isEmpty_nil, Bool.not_true, Bool.false_eq_true, if_false, hnext]
    rfl

/-- Settles O33: each of the seven is an engine command with its tests, its demand and its pattern. -/
theorem commands : Obligations.Commands := by
  unfold Obligations.Commands
  intro f
  refine ⟨?_, ?_, ?_, ?_, ?_, ?_, ?_⟩ <;> exact commandIs_command fun _ => rfl

/-! SYSRD and SYSWR (R280). -/

/-- Settles O35: SYSRD and SYSWR are the reading and the writing of the register that the word names. -/
theorem systemRegisters : Obligations.SystemRegisters := by
  unfold Obligations.SystemRegisters
  exact fun f => ⟨sysIs_word _ _ _ _ _ (fun _ => rfl) fun _ _ _ _ => rfl, sysIs_word _ _ _ _ _ (fun _ => rfl) fun _ _ _ _ => rfl⟩

theorem State.setMbxField_svcmbx (s : State) (m lo n v : Nat) : (s.setMbxField m lo n v).svcmbx = s.svcmbx := State.wr8_svcmbx _ _ _

theorem State.fire_svcmbx (s : State) (m : Nat) (msg : List Byte) : (s.fire m msg).svcmbx = s.svcmbx := by
  unfold State.fire
  split
  · unfold State.hold
    simp only [State.setMbxField_svcmbx, State.setMbx_svcmbx]
  · exact State.setMbx_svcmbx _ _ _

theorem State.deliverKept_svcmbx (s : State) : s.deliverKept.svcmbx = s.svcmbx := by
  unfold State.deliverKept
  refine foldl_keep State.svcmbx _ (fun s o => ?_) s.out s
  cases o with
  | kept part msg =>
    simp only []
    split
    · exact State.fire_svcmbx _ _ _
    · rfl
  | _ => rfl

/-- A write that its rule lets pass leaves the state written. -/
theorem okIf_reads {c : Bool} {s s1 : State} {w : Option (Nat × DWord)} {part n : Nat} {v : DWord} (h : okIf c s = .done s1 w) (hr : s.sysRead part n = some v) : s1.sysRead part n = some v ∧ w = none := by
  unfold okIf at h
  split at h
  · injection h with h1 h2; exact ⟨h1 ▸ hr, h2.symm⟩
  · cases h

theorem done_reads {s s1 : State} {w : Option (Nat × DWord)} {part n : Nat} {v : DWord} (h : SysEnd.done s none = .done s1 w) (hr : s.sysRead part n = some v) : s1.sysRead part n = some v ∧ w = none := by
  injection h with h1 h2; exact ⟨h1 ▸ hr, h2.symm⟩

/-- A write that is not partition 0's alone, or is by partition 0. -/
theorem guarded_done {b : Bool} {x : SysEnd} {c : Nat} {s1 : State} {w : Option (Nat × DWord)} (h : (if b then SysEnd.fault c else x) = .done s1 w) : x = .done s1 w := by
  cases b with
  | true => cases h
  | false => exact h

/-- A flip that completes leaves its register. -/
theorem State.flip_done {s s1 : State} {part : Nat} {v : DWord} {w : Option (Nat × DWord)} (h : s.flipToHost part v = .done s1 w ∨ s.flipToDevice part v = .done s1 w) : s1.flip = v ∧ w = none := by
  rcases h with h | h
  · unfold State.flipToHost at h
    split at h
    · cases h
    · split at h
      · cases h
      · injection h with h1 h2; rw [← h1]; exact ⟨rfl, h2.symm⟩
  · unfold State.flipToDevice at h
    split at h
    · cases h
    · split at h
      · cases h
      · injection h with h1 h2; rw [← h1]; exact ⟨rfl, h2.symm⟩

/-- The registers of partitions for the host's window read by their place. -/
theorem State.sysRead_inwin (s : State) (part n : Nat) (h : 0x158 ≤ n ∧ n < 0x168) : s.sysRead part n = some (SMap.get 0 s.inwin (n - 0x158)) := by
  unfold State.sysRead
  rw [if_neg (by omega), if_neg (by omega), if_pos h]

/-- Settles O36: a write of each register leaves the field that its read gives; ZS_FLIP's by the flip it makes, ZS_SVCMBX's also after the kept messages that it lets through. -/
theorem registerReadBack : Obligations.RegisterReadBack := by
  unfold Obligations.RegisterReadBack
  intro s part n v s1 w hq hp h
  have hput {d : SMap DWord} {k : Nat} : some (SMap.get 0 (SMap.put 0 d k v) k) = some v := congrArg some (SMap.get_put_self _ _ _ _)
  unfold State.sysWrite at h
  simp only [] at h
  split at h
  · cases h
  split at h
  · cases h
  split at h
  · next hwin => exact okIf_reads (guarded_done h) ((State.sysRead_inwin _ _ _ hwin).trans hput)
  split at h
  case h_1 => exact okIf_reads h rfl
  case h_2 => exact done_reads h (by split <;> exact hput)
  case h_3 => exact okIf_reads h hput
  case h_4 => exact okIf_reads h hput
  case h_5 => exact okIf_reads (guarded_done h) hput
  case h_6 => exact okIf_reads h rfl
  case h_7 => exact okIf_reads h rfl
  case h_8 => exact absurd rfl hq
  case h_9 => exact okIf_reads h rfl
  case h_10 => exact done_reads h rfl
  case h_11 => exact done_reads h rfl
  case h_12 => exact okIf_reads (guarded_done h) rfl
  case h_13 => exact absurd rfl hp
  case h_14 =>
    obtain ⟨hflip, hw⟩ : s1.flip = v ∧ w = none := by
      have h := guarded_done h
      split at h
      · exact State.flip_done (.inl h)
      · exact State.flip_done (.inr h)
    exact ⟨congrArg some hflip, hw⟩
  case h_15 => exact okIf_reads h hput
  case h_16 => exact okIf_reads h ((congrArg (fun m => some (SMap.get 0 m part)) (State.deliverKept_svcmbx _)).trans hput)
  case h_17 => exact okIf_reads h hput
  case h_18 => exact done_reads h rfl
  case h_19 => exact done_reads h rfl
  case h_20 => exact okIf_reads h rfl
  case h_21 => exact okIf_reads h rfl
  case h_22 => exact okIf_reads h rfl
  case h_23 => cases h

end Sys2Proof.Machine
end

section
/-! The other system words (R280): their statements' ends are the model's, with conditions written as propositions. -/

namespace Sys2Proof.Machine

/-! Maintenance (R125, R127, R69 to R71, R317, R325). -/

/-- Not all of a list pass a test where one fails it. -/
theorem not_all_eq_any_not {α : Type} (p : α → Bool) (xs : List α) : (!(xs.all p)) = xs.any (fun x => !(p x)) := by
  induction xs with
  | nil => rfl
  | cons x xs ih => simp only [List.all_cons, List.any_cons, Bool.not_and, ih]

/-- SEGREV, by the state of its descriptor. -/
theorem Env.segrevEnd_eq (f : GW) (e : Env) : e.segrevEnd f =
    if 2 ^ 16 ≤ e.sB f ∨ e.s.descState (e.sB f) (e.sA f % 2 ^ 24) = 0 then .fault 0x04 else
    let s1 := (if e.s.descState (e.sB f) (e.sA f % 2 ^ 24) = 1 then e.s.revoke (e.sB f) (e.sA f % 2 ^ 24) else e.s).revokeEntries (e.sB f) (e.sA f % 2 ^ 24)
    if s1.ctxQuiet (e.sB f) = true ∧ s1.entriesAway (e.sB f) = false then .done s1 none else .wait s1 := by
  unfold Env.segrevEnd
  simp only []
  by_cases hc : 2 ^ 16 ≤ e.sB f
  · rw [if_pos hc, if_pos (.inl hc)]
  · rw [if_neg hc]
    cases e.s.descState (e.sB f) (e.sA f % 2 ^ 24) with
    | zero => exact (if_pos (.inr rfl)).symm
    | succ n =>
      rw [if_neg (by rintro (h | h); exacts [hc h, Nat.succ_ne_zero n h])]
      simp only [Bool.and_eq_true, Bool.not_eq_true']

/-- Settles O37: each word comes to the end that the model gives it. -/
theorem systemMaintenance : Obligations.SystemMaintenance := by
  unfold Obligations.SystemMaintenance
  intro f
  refine ⟨sysIs_word _ (fun _ => true) [f.d, f.a] _ (Env.trapEnd f) (fun _ => rfl) fun _ e _ _ => ?trap, sysIs_word _ _ _ _ _ (fun _ => rfl) fun _ e _ _ => ?tlbinv, sysIs_word _ _ _ _ _ (fun _ => rfl) fun _ e _ _ => ?icinv,
    sysIs_word _ _ _ _ _ (fun _ => rfl) fun _ e _ _ => ?bindinv, sysIs_word _ _ _ _ _ (fun _ => rfl) fun _ e _ _ => ?segrev, sysIs_word _ _ _ _ _ (fun _ => rfl) fun _ e _ _ => ?zerobuf⟩
  case trap => rfl
  case tlbinv =>
    unfold Env.tlbinvEnd
    simp only [Bool.decide_and, Bool.decide_or, beq_eq_decide, Bool.not_eq_true']
  case icinv =>
    unfold Env.icinvEnd
    simp only [not_all_eq_any_not, List.contains_iff_mem]
  case bindinv =>
    unfold Env.bindinvEnd
    simp only [Bool.decide_and, beq_eq_decide] <;> rfl
  case segrev => exact e.segrevEnd_eq f
  case zerobuf => rfl

/-! Units (R25, R307, R343). -/

theorem two_pow_le_iff_div_ne (a k : Nat) : a / 2 ^ k ≠ 0 ↔ 2 ^ k ≤ a := by
  rw [ne_eq, Nat.div_eq_zero_iff, not_or, not_lt]
  exact and_iff_right (Nat.pos_iff_ne_zero.mp (Nat.two_pow_pos k))

/-- CANCEL, by its level code. -/
theorem Env.cancelEnd_eq (f : GW) (e : Env) : e.cancelEnd f =
    if f.f6 = 0 then (match e.s.unitNamed (e.sA f) (e.sB f) with | some u => .done (e.s.cancelUnit u.uid) none | none => .fault 0x04)
    else if f.f6 = 1 then (match e.s.launchNamed (e.sA f) with | some l => .done (e.s.cancelLaunch l) none | none => .fault 0x04)
    else if e.s.levelNamed (e.sA f) (f.f6 - 1) then .done (State.cancelLevel 4 (e.sA f) e.s) none else .fail (e.s.levelWord (e.sA f)) 0x04 := by
  unfold Env.cancelEnd
  rcases h : f.f6 with _ | _ | k <;> rfl

/-- UNITSAVE, with its conditions as propositions. -/
theorem Env.unitsaveEnd_eq (f : GW) (e : Env) : e.unitsaveEnd f =
    if 2 ^ 16 ≤ e.sA f ∨ e.sB f % 2 ^ 20 ≠ 0 ∨ e.s.physUsable (e.sB f) = false then .fault 0x04 else
    if e.s.reads (e.sB f) = false then .fault 0x0E else
    match e.s.unitOn (e.sA f / 64) (e.sA f % 64) with
    | none => .fault 0x04
    | some u => if u.stop ≠ [] ∧ u.saver ≠ some e.c.uid then .wait e.s else
      if e.s.quiet u = false then .wait (if u.uid = e.c.uid then e.s else e.s.setUnit { u with stopAt := some (u.stopAt.getD e.s.cycle), saver := some e.c.uid }) else
      if u.uid = e.c.uid then .wait ((stateOf e.s (e.sysDone e.s none)).saveAt u.uid (e.sB f)) else .done (e.s.saveAt u.uid (e.sB f)) none := by
  unfold Env.unitsaveEnd
  refine if_congr ?_ rfl (if_congr ?_ rfl ?_)
  · rw [two_pow_le_iff_div_ne, Bool.not_eq_true']
  · rw [Bool.not_eq_true']
  · cases e.s.unitOn (e.sA f / 64) (e.sA f % 64) with
    | none => rfl
    | some u =>
      refine if_congr ?_ rfl (if_congr ?_ rfl rfl)
      · simp only [Bool.and_eq_true, Bool.not_eq_true', List.isEmpty_eq_false_iff, bne_iff_ne]
      · rw [Bool.not_eq_true']

/-- UNITLOAD, with its conditions as propositions. -/
theorem Env.unitloadEnd_eq (f : GW) (e : Env) : e.unitloadEnd f =
    if 2 ^ 42 ≤ e.sA f ∨ e.sB f % 2 ^ 20 ≠ 0 ∨ e.s.physUsable (e.sB f) = false then .fault 0x04 else
    if e.s.reads (e.sB f) = false then .fault 0x0E else
    match e.s.imageUnit (e.sB f) with
    | none => .fault 0x04
    | some u =>
      let core := if e.sA f / 2 ^ 32 % 2 ^ 10 = 0x3FF then u.core else e.sA f / 2 ^ 32 % 2 ^ 10
      match u.res with
      | .saved _ kind =>
        if u.idx ≠ e.sA f % 2 ^ 32 ∨ e.s.coreExists core = false ∨ e.s.imageOk u (e.sB f) kind = false then .fault 0x04 else
        let s1 := e.s.dropBarges u.uid
        if 256 ≤ (s1.core core).queue.length then .wait e.s else
        let s2 := s1.setUnit { u with res := .saved (e.sB f) kind, runnable := true }
        .done (State.enqueue { s2 with slots := s2.slots.map (fun (x : Slot) => if x.uid = u.uid then { x with addr := e.sB f } else x) } core u.barge true) none
      | _ => .fault 0x04 := by
  unfold Env.unitloadEnd
  refine if_congr ?_ rfl (if_congr ?_ rfl ?_)
  · rw [two_pow_le_iff_div_ne, Bool.not_eq_true']
  · rw [Bool.not_eq_true']
  · cases e.s.imageUnit (e.sB f) with
    | none => rfl
    | some u =>
      simp only [bits]
      cases u.res with
      | saved addr kind => exact if_congr (by simp only [Bool.not_eq_true']; rfl) rfl rfl
      | waiting => rfl
      | resident => rfl
      | stopped => rfl
      | done => rfl

/-- PREEMPT, with its conditions as propositions. -/
theorem Env.preemptEnd_eq (f : GW) (e : Env) (l : Launch) (h : e.s.launchOf (e.sA f % 2 ^ 10) (e.sA f / 2 ^ 10) = some l) : e.preemptEnd f =
    let chosen := (e.s.remaining l).reverse.take (e.sB f)
    let us := chosen.flatMap (e.s.launchOn l)
    if (∃ u ∈ us, e.s.quiet u = false) ∨ (e.s.freeSlots (e.s.partOf (recCtx l.record))).length < us.length then .wait e.s else
    let d : Option (Nat × DWord) := some (f.d, BitVec.ofNat 64 chosen.length)
    if ∃ u ∈ us, u.uid = e.c.uid then .wait ((stateOf e.s (e.sysDone e.s d)).preempt l chosen) else .done (e.s.preempt l chosen) d := by
  unfold Env.preemptEnd State.launchNamed
  rw [h]
  refine if_congr ?_ rfl (if_congr ?_ rfl rfl)
  · simp only [Bool.or_eq_true, Bool.not_eq_true', List.all_eq_false, Bool.not_eq_true, decide_eq_true_eq]
  · simp only [List.any_eq_true, beq_iff_eq]

/-- Settles O38: each word comes to the end that the model gives it. -/
theorem systemUnits : Obligations.SystemUnits := by
  unfold Obligations.SystemUnits
  intro f
  refine ⟨sysIs_word _ _ _ _ _ (fun _ => rfl) fun _ e _ _ => ?unitsave, sysIs_word _ _ _ _ _ (fun _ => rfl) fun _ e _ _ => ?unitload, sysIs_word _ _ _ _ _ (fun _ => rfl) fun _ e _ _ => ?preempt,
    sysIs_word _ _ _ _ _ (fun _ => rfl) fun _ e _ _ => ?cancel, ?cntrd⟩
  case unitsave => exact e.unitsaveEnd_eq f
  case unitload => exact e.unitloadEnd_eq f
  case preempt =>
    cases h : e.s.launchOf (e.sA f % 2 ^ 10) (e.sA f / 2 ^ 10) with
    | none => unfold Env.preemptEnd State.launchNamed; rw [h]
    | some l => exact e.preemptEnd_eq f l h
  case cancel => exact e.cancelEnd_eq f
  case cntrd =>
    simp only [List.forall_mem_cons, List.not_mem_nil, false_implies, implies_true, and_true]
    exact ⟨sysIs_word _ _ _ _ (fun e => e.cntrdEnd f false) (fun _ => rfl) fun _ e _ _ => rfl, sysIs_word _ _ _ _ (fun e => e.cntrdEnd f true) (fun _ => rfl) fun _ e _ _ => rfl⟩

/-! The warm reset of a die (R358 to R360). -/

/-- A die word, once its effect is that of the statement. -/
theorem dieIs_word (i : Instr) (f : GW) (op : Nat) (ok writes : Bool) (at_ : Option Nat) (k : Nat → State → SysEnd) (hx : ∀ s, exec i s = dieWordAt f op ok writes at_ k s) :
    dieIs i f op ok writes at_ k := by
  refine sysIs_word _ _ _ _ _ hx fun _ e _ _ => ?_
  by_cases hp : 4 ≤ e.sA f ∨ (!((e.s.die (e.sA f)).present)) = true
  · rw [if_pos hp, if_neg]
    rintro ⟨h4, hpres, -⟩
    rcases hp with h | h
    · omega
    · rw [hpres] at h; exact Bool.noConfusion h
  · rw [if_neg hp]
    rw [not_or, Bool.not_eq_true', Bool.not_eq_false, not_le] at hp
    rw [← ite_not]
    refine if_congr ?_ rfl rfl
    rw [Bool.not_eq_true', Bool.not_eq_false]
    cases at_ with
    | none => exact ⟨fun _ => ⟨hp.1, hp.2, fun _ hn => nomatch hn⟩, fun _ => rfl⟩
    | some n =>
      simp only [beq_iff_eq, Option.mem_some_iff, forall_eq']
      exact ⟨fun h => ⟨hp.1, hp.2, h⟩, fun h => h.2.2⟩

/-- Settles O39: each word takes its effect on a die that stands at its step. -/
theorem dieWords : Obligations.DieWords := by
  unfold Obligations.DieWords
  intro f
  refine ⟨dieIs_word _ _ _ _ _ _ _ fun _ => rfl, dieIs_word _ _ _ _ _ _ _ fun _ => rfl, dieIs_word _ _ _ _ _ _ _ fun _ => rfl, dieIs_word _ _ _ _ _ _ _ fun _ => rfl,
    dieIs_word _ _ _ _ _ _ _ fun _ => rfl, dieIs_word _ _ _ _ _ _ _ fun _ => rfl, dieIs_word _ _ _ _ _ _ _ fun _ => rfl, dieIs_word _ _ _ _ _ _ _ fun _ => rfl,
    sysIs_word _ _ _ _ _ (fun _ => rfl) fun _ e _ _ => ?sluiceset⟩
  case sluiceset => exact if_congr (by rw [Bool.not_eq_true']; rfl) rfl rfl

/-! Mailboxes (R293). -/

/-- MBXBIND, with what it asks of a record in the order of the statement. -/
theorem Env.mbxbindEnd_record (e : Env) (addr st : Nat) (w : Nat) (record : List DWord) (a b c : SysEnd) :
    (if st ≠ 0 ∨ addr % 128 ≠ 0 ∨ (!(e.s.physUsable addr)) = true ∨ bits w 48 14 ≠ 0 ∨ bits w 8 24 ≠ 0 ∨ (!(recordOk record)) = true then c else
      if (!(e.s.levelRunning (recGraph record))) = true then b else a) =
    if st = 0 ∧ addr % 128 = 0 ∧ e.s.physUsable addr = true ∧ bits w 48 14 = 0 ∧ bits w 8 24 = 0 ∧ recordOk record = true then
      (if e.s.levelRunning (recGraph record) = true then a else b) else c := by
  rw [← ite_not]
  refine if_congr ?_ ?_ rfl
  · simp only [not_or, ne_eq, not_not, Bool.not_eq_true', Bool.not_eq_false]
  · rw [← ite_not]
    exact if_congr (by rw [Bool.not_eq_true', Bool.not_eq_false]) rfl rfl

/-- Settles O40: the word comes to the end that the model gives it. -/
theorem mailboxBinding : Obligations.MailboxBinding := by
  unfold Obligations.MailboxBinding
  intro f
  refine sysIs_word _ _ _ _ _ (fun _ => rfl) fun _ e _ _ => ?_
  unfold Env.mbxbindEnd
  refine if_congr (by simp only [Bool.not_eq_true']; rfl) rfl (if_congr Iff.rfl rfl (if_congr (by simp only [Bool.not_eq_true']) rfl ?_))
  exact e.mbxbindEnd_record _ _ _ _ _ _ _

end Sys2Proof.Machine
end

section
/-! Optional opcodes (R166), the reset state (R357), and what issue moves run. -/

namespace Sys2Proof.Machine

/-- Settles O52: the word faults its whole active set; settling a record looks at its code and at the partition's emulation alone. -/
theorem optionalOpcodes : Obligations.OptionalOpcodes := by
  unfold Obligations.OptionalOpcodes
  refine ⟨fun n f s e h => ?faults, fun s part r hc he => ?leaves, fun s part r hc => ?stays⟩
  case faults =>
    have hx : exec (.optionalOpcode n f) s = s.issue fun e => e.faultAll (lf 0x0C e.words false) := rfl
    rw [hx, State.issue_lanes s e h]
    exact Env.finish_keeps h e.keeps_refl _ (by simp [List.map_map, Function.comp_def])
  case leaves => exact if_pos ⟨hc, by rw [he]; rfl⟩
  case stays =>
    refine if_neg ?_
    rintro ⟨h12, hem⟩
    rcases hc with h | h
    · exact h h12
    · rw [h] at hem; exact Bool.noConfusion hem

/-- Settles O57: nothing is listed at reset. -/
theorem soundReset : Obligations.SoundReset := by
  unfold Obligations.SoundReset
  exact ⟨⟨rfl, fun _ hp => nomatch hp⟩, rfl, rfl, rfl⟩

/-! An issue move's words need not be 32 bits wide where the towline of an arbitrary state is not: bit 31 of 2 ^ 32 is 0, so that it decodes as the lane word 0, NOP. -/

/-- A group whose towline holds the word 2 ^ 32 at the broadcast address. -/
def wideTowline : State := (State.reset.withFetchWord 64 0).onGroup 0 0 (fun g => { g with tow := [⟨g.bcast, 4, 2 ^ 32, 0⟩] })

/-- What an issue move of the broadcast runs: the instruction and the issue. -/
def runs (s : State) : Option (State × Instr) :=
  match s.issueMove 0 0 none false with
  | .run s1 i => some (s1, i)
  | _ => none

theorem runs_some {s s1 : State} {i : Instr} (h : runs s = some (s1, i)) : s.issueMove 0 0 none false = .run s1 i := by
  unfold runs at h
  cases hf : s.issueMove 0 0 none false with
  | run s2 j => rw [hf] at h; cases h; rfl
  | idle => rw [hf] at h; cases h
  | done s2 => rw [hf] at h; cases h

/-- The state keeps its units under their keys, and its issue is one of the broadcast with the word 2 ^ 32. -/
theorem wideTowline_runs : (decide wideTowline.keyed && (runs wideTowline).any (fun p => p.1.env?.any (fun e => e.c.w0 == 2 ^ 32 && e.c.by_ == .broadcast))) = true := by decide +kernel

/-- Refutes O59: a towline entry holds any number, and the issue takes it as it stands; 2 ^ 32 is no group word (its bit 31 is 0) and issues for the broadcast, where the statement takes every number of 2 ^ 31 and above for a group word. -/
theorem not_issueMoves : ¬ Obligations.IssueMoves := by
  unfold Obligations.IssueMoves
  intro h
  obtain ⟨hkeyed, hruns⟩ := Bool.and_eq_true _ _ |>.mp wideTowline_runs
  obtain ⟨⟨s1, i⟩, hrun, he⟩ := (Option.any_eq_true _ _).mp hruns
  obtain ⟨e, henv, -, -, -, -, -, hgroup⟩ := h wideTowline s1 0 0 none false i (of_decide_eq_true hkeyed) (runs_some hrun)
  rw [henv, Option.any_some, Bool.and_eq_true, beq_iff_eq, beq_iff_eq] at he
  rw [if_pos (by rw [he.1]; decide), he.2] at hgroup
  exact nomatch hgroup.1

end Sys2Proof.Machine
end

section
/-! What the arrival of a load's value leaves (R44, R213 to R215). -/

namespace Sys2Proof.Machine

/-! Numbers in bytes. -/

theorem leNat_drop (bs : List Byte) (k : Nat) : leNat (bs.drop k) = leNat bs / 256 ^ k := by
  induction k generalizing bs with
  | zero => simp
  | succ k ih =>
    cases bs with
    | nil => simp [leNat]
    | cons b bs =>
      rw [List.drop_succ_cons, ih, leNat, pow_succ', ← Nat.div_div_eq_div_mul, Nat.add_mul_div_left _ _ (by norm_num), Nat.div_eq_of_lt b.isLt, Nat.zero_add]

theorem leNat_take (bs : List Byte) (k : Nat) : leNat (bs.take k) = leNat bs % 256 ^ k := by
  induction k generalizing bs with
  | zero => simp [leNat, Nat.mod_one]
  | succ k ih =>
    cases bs with
    | nil => simp [leNat]
    | cons b bs =>
      have hb : b.toNat % 256 = b.toNat := Nat.mod_eq_of_lt b.isLt
      have hd : (b.toNat + 256 * leNat bs) / 256 = leNat bs := by have := b.isLt; omega
      rw [List.take_succ_cons, leNat, leNat, ih, pow_succ', Nat.mod_mul, Nat.add_mul_mod_self_left, hb, hd]

/-- The 4 bytes of a block's register i, as bits of the number that all its bytes give. -/
theorem blockWord (bs : List Byte) (i : Nat) : BitVec.ofNat 32 (leNat ((bs.drop (4 * i)).take 4)) = BitVec.ofNat 32 (leNat bs / 2 ^ (32 * i)) := by
  rw [leNat_take, leNat_drop]
  refine BitVec.eq_of_toNat_eq ?_
  rw [BitVec.toNat_ofNat, BitVec.toNat_ofNat, show (256 : Nat) = 2 ^ 8 by norm_num, ← pow_mul, ← pow_mul, show 8 * (4 * i) = 32 * i by ring]
  exact Nat.mod_mod _ _

/-- A loaded number in a register no wider than that to which it is extended. -/
theorem ofNat_extend (n : Nat) (sgn : Bool) {k w : Nat} (raw : Nat) (hk : k ≤ w) : BitVec.ofNat k (extend n sgn w raw) = BitVec.ofInt k (if sgn then toInt (8 * n) raw else (raw : Int)) := by
  refine BitVec.eq_of_toNat_eq ?_
  rw [BitVec.toNat_ofNat, BitVec.toNat_ofInt]
  have hpow : ((2 ^ k : Nat) : Int) ∣ ((2 ^ w : Nat) : Int) := Int.natCast_dvd_natCast.mpr (pow_dvd_pow 2 hk)
  have cut (x : Int) : (x % ((2 ^ w : Nat) : Int)).toNat % 2 ^ k = (x % ((2 ^ k : Nat) : Int)).toNat := by
    have hw : 0 ≤ x % ((2 ^ w : Nat) : Int) := Int.emod_nonneg _ (by positivity)
    rw [← Int.emod_emod_of_dvd x hpow]
    obtain ⟨y, hy⟩ := Int.eq_ofNat_of_zero_le hw
    rw [hy, Int.toNat_natCast, ← Int.natCast_mod, Int.toNat_natCast]
  cases sgn with
  | true => exact cut _
  | false =>
    show raw % 2 ^ w % 2 ^ k = ((raw : Int) % ((2 ^ k : Nat) : Int)).toNat
    rw [← cut, ← Int.natCast_mod, Int.toNat_natCast]

/-- Extended to its own width, a number of 8 bytes is as it was. -/
theorem extend_whole (sgn : Bool) {raw : Nat} (h : raw < 2 ^ 64) : extend 8 sgn 64 raw = raw := by
  cases sgn with
  | false => exact Nat.mod_eq_of_lt h
  | true =>
    show (toInt 64 raw % ((2 ^ 64 : Nat) : Int)).toNat = raw
    unfold toInt
    rw [Nat.mod_eq_of_lt h]
    split <;> omega

/-! Registers that are filled. -/

theorem Group.getV_fillV (g : Group) {l n l' n' : Nat} (w : Word) (h : n < 64) (h' : n' < 64) : (g.fillV l n w).getV l' n' = if l' = l ∧ n' = n then w else g.getV l' n' :=
  g.getV_putV l n l' n' w h h'

theorem Group.emptyV_fillV (g : Group) {l n l' n' : Nat} (w : Word) (h : n < 64) (h' : n' < 64) : (g.fillV l n w).emptyV l' n' = if l' = l ∧ n' = n then false else g.emptyV l' n' := by
  show SMap.get false (SMap.put false g.ve (64 * l + n) false) (64 * l' + n') = _
  split
  next he => rw [he.1, he.2]; exact SMap.get_put_self _ _ _ _
  next he => exact SMap.get_put_ne _ _ _ _ _ (by omega)

/-- Registers of a lane filled in a row. -/
def Group.fillRow (g : Group) (l d : Nat) (w : Nat → Word) (c : Nat) : Group := (List.range c).foldl (fun (g : Group) i => g.fillV l (d + i) (w i)) g

theorem Group.fillRow_succ (g : Group) (l d : Nat) (w : Nat → Word) (c : Nat) : g.fillRow l d w (c + 1) = (g.fillRow l d w c).fillV l (d + c) (w c) := by
  unfold fillRow
  rw [List.range_succ, List.foldl_append]
  rfl

@[simp] theorem Group.fillRow_inflight (g : Group) (l d : Nat) (w : Nat → Word) (c : Nat) : (g.fillRow l d w c).inflight = g.inflight := by
  induction c with
  | zero => rfl
  | succ c ih => rw [fillRow_succ, fillV_inflight, ih]

theorem Group.fillRow_inside (g : Group) {l d c i : Nat} (w : Nat → Word) (hc : d + c ≤ 64) (hi : i < c) :
    (g.fillRow l d w c).getV l (d + i) = w i ∧ (g.fillRow l d w c).emptyV l (d + i) = false := by
  induction c with
  | zero => omega
  | succ c ih =>
    rw [fillRow_succ, getV_fillV _ _ (by omega) (by omega), emptyV_fillV _ _ (by omega) (by omega)]
    by_cases h : i = c
    · subst h; simp
    · rw [if_neg (by omega), if_neg (by omega)]
      exact ih (by omega) (by omega)

theorem Group.fillRow_outside (g : Group) {l d c k r : Nat} (w : Nat → Word) (hc : d + c ≤ 64) (hr : r < 64) (h : ¬(k = l ∧ d ≤ r ∧ r < d + c)) :
    (g.fillRow l d w c).getV k r = g.getV k r := by
  induction c with
  | zero => rfl
  | succ c ih => rw [fillRow_succ, getV_fillV _ _ (by omega) hr, if_neg (by omega), ih (by omega) (by omega)]

/-! A part that arrives. -/

/-- A relaxed load: of a number or of a block. -/
def ProdKind.relaxedLoad (k : ProdKind) : Prop := (∃ n sgn, k = .load n sgn 0) ∨ ∃ c, k = .block c 0

theorem WorkUnit.laneFaults_nil (u : WorkUnit) (cycle grp : Nat) (word : Option (Nat × Nat)) : u.laneFaults cycle grp word [] = u := by
  unfold WorkUnit.laneFaults
  cases u.group grp <;> rfl

theorem WorkUnit.partFaults_nil (u : WorkUnit) (cycle grp : Nat) (pr : Producer) {g : Group} (hg : u.group grp = some g) : u.partFaults cycle grp pr [] = u.setGroup grp g := by
  unfold WorkUnit.partFaults
  rw [List.flatMap_nil, WorkUnit.laneFaults_nil]
  unfold WorkUnit.onGroup
  rw [hg]
  rfl

theorem WorkUnit.onGroup_eq {u : WorkUnit} {i : Nat} {g : Group} (hg : u.group i = some g) (f : Group → Group) : u.onGroup i f = u.setGroup i (f g) := by
  unfold WorkUnit.onGroup
  rw [hg]

theorem State.onUnit_eq {s : State} {k : Nat} {u : WorkUnit} (hu : s.unit? k = some u) (f : WorkUnit → WorkUnit) : s.onUnit k f = s.setUnit (f u) := by
  unfold State.onUnit
  rw [hu]

theorem State.target_some {s : State} {u : WorkUnit} {g : Group} (h : s.target = some (u, g)) : s.unit? s.arg.a = some u ∧ u.group s.arg.b = some g := by
  unfold State.target at h
  obtain ⟨u', hu, h⟩ := Option.bind_eq_some_iff.mp h
  obtain ⟨g', hg, h⟩ := Option.map_eq_some_iff.mp h
  cases h
  exact ⟨hu, hg⟩

/-- Where no store of its group supplied a byte, a part's bytes are memory's. -/
theorem State.partBytes_memory (s : State) (p : Part) (h : ∀ i, p.fwd.getD i none = none) : s.partBytes p = p.keys.map (Memory.read s.mem) := by
  unfold State.partBytes
  simp only [h]
  exact (List.map_map (f := Prod.fst) (g := Memory.read s.mem)).symm.trans (by rw [List.zipIdx_map_fst])

/-- A relaxed load of memory's bytes meets nothing at its home. -/
theorem State.partFault_relaxed {s : State} (u : WorkUnit) (grp : Nat) {k : ProdKind} {p : Part} (hk : k.relaxedLoad) (hd : p.repl = true ∨ s.homeDown p.recs = false) : s.partFault u grp k p = none := by
  have hdown : (!p.repl && s.homeDown p.recs) = false := by rcases hd with h | h <;> simp [h]
  have hbad : s.partBad u grp k p = false := by rcases hk with ⟨n, sgn, rfl⟩ | ⟨c, rfl⟩ <;> rfl
  unfold State.partFault
  rw [hdown, hbad]
  rfl

/-- A relaxed load performed: its bytes, and nothing else. -/
theorem State.perform_relaxed (s : State) (u : WorkUnit) (grp : Nat) {k : ProdKind} (p : Part) (hk : k.relaxedLoad) : s.perform u grp k p = (s, s.partBytes p, 0) := by
  rcases hk with ⟨n, sgn, rfl⟩ | ⟨c, rfl⟩ <;> rfl

/-- A relaxed load is no tile element. -/
theorem WorkUnit.arriveTile_relaxed (u : WorkUnit) (grp : Nat) {pr : Producer} (p : Part) (bs : List Byte) (hk : pr.kind.relaxedLoad) : (u.arriveTile pr.kind p bs).outdates grp pr p = u := by
  unfold WorkUnit.outdates WorkUnit.arriveTile
  rcases hk with ⟨n, sgn, h⟩ | ⟨c, h⟩ <;> rw [h]

/-- A group that a producer's part of relaxed bytes has reached: the bytes delivered, the producer gone. -/
def Group.delivered (g : Group) (k : ProdKind) (p : Part) (bs : List Byte) (i : Nat) : Group :=
  { (g.arrive k p bs).raise 0 with inflight := ((g.arrive k p bs).raise 0).inflight.eraseIdx i }

/-- LOAD_VALUE_ARRIVAL of a relaxed load of one part: its group has the part's bytes of memory delivered, and the producer is gone. -/
theorem loadValueArrival_relaxed {s : State} {u : WorkUnit} {g : Group} {pr : Producer} {p : Part} (ht : s.target = some (u, g)) (hid : u.uid = s.arg.a) (hi : g.inflight[s.arg.c]? = some pr)
    (hp : pr.parts = [p]) (hpeer : p.peer = none) (hfwd : ∀ i, p.fwd.getD i none = none) (hb : s.blocked g s.arg.c pr = false) (hc : pr.commit = false)
    (hd : p.repl = true ∨ s.homeDown p.recs = false) (hk : pr.kind.relaxedLoad) :
    ∃ t v, exec .loadValueArrival s = .next t ∧ t.unit? s.arg.a = some v ∧ v.group s.arg.b = some (g.delivered pr.kind p (p.keys.map (Memory.read s.mem)) s.arg.c) ∧ t.mem = s.mem := by
  obtain ⟨hu, hg⟩ := State.target_some ht
  set g1 := (g.arrive pr.kind p (p.keys.map (Memory.read s.mem))).raise 0 with hg1
  set u1 := u.setGroup s.arg.b g1 with hu1
  have hpart : State.arrivePart s.arg.a s.arg.b pr (s, []) p = (s.setUnit u1, []) := by
    unfold State.arrivePart
    simp only [hu, State.partFault_relaxed u s.arg.b hk hd, State.perform_relaxed s u s.arg.b p hk, State.onUnit_eq hu, WorkUnit.arriveTile_relaxed u s.arg.b p _ hk, WorkUnit.onGroup_eq hg, State.partBytes_memory s p hfwd]
    rfl
  have hrun : exec .loadValueArrival s = .next (s.arriveAll s.arg.a s.arg.b s.arg.c pr) := by
    show execLoadValueArrival s = _
    unfold execLoadValueArrival
    simp only [ht, hi, hp, List.any_cons, List.any_nil, hpeer, Option.isSome_none, hb, Bool.or_self, Bool.false_eq_true, if_false]
  have hu1id : u1.uid = s.arg.a := hid
  have hget : (s.setUnit u1).unit? s.arg.a = some u1 := by rw [← hu1id]; exact State.unit?_setUnit_self s u1
  have hg1get : u1.group s.arg.b = some g1 := WorkUnit.group_setGroup_self hg
  set g2 : Group := g.delivered pr.kind p (p.keys.map (Memory.read s.mem)) s.arg.c with hg2
  have hcomp (ls : List Nat) : g1.completes s.arg.c pr ls = g2 := by
    unfold Group.completes
    rw [hc]
    rfl
  have hall : s.arriveAll s.arg.a s.arg.b s.arg.c pr = (s.setUnit u1).setUnit ((u1.setGroup s.arg.b g2).setGroup s.arg.b g2) := by
    unfold State.arriveAll
    simp only [hp, List.foldl_cons, List.foldl_nil, hpart, State.onUnit_eq hget, WorkUnit.onGroup_eq hg1get, hcomp]
    rw [WorkUnit.partFaults_nil _ _ _ _ (WorkUnit.group_setGroup_self hg1get)]
  refine ⟨_, (u1.setGroup s.arg.b g2).setGroup s.arg.b g2, hrun, ?_, WorkUnit.group_setGroup_self (WorkUnit.group_setGroup_self hg1get), ?_⟩
  · rw [hall]
    have := State.unit?_setUnit_self (s.setUnit u1) ((u1.setGroup s.arg.b g2).setGroup s.arg.b g2)
    rwa [WorkUnit.setGroup_uid, WorkUnit.setGroup_uid, hu1id] at this
  · rw [hall]; rfl

/-! What a load delivers to its destination. -/

section
variable (g : Group) (p : Part) (bs : List Byte) (i : Nat)

theorem Group.delivered_inflight (k : ProdKind) (h : (g.arrive k p bs).inflight = g.inflight) : (g.delivered k p bs i).inflight = g.inflight.eraseIdx i := congrArg (List.eraseIdx · i) h

/-- A number of at most 4 bytes in a v register. -/
theorem Group.arrive_narrow {n : Nat} (sgn : Bool) (q : Nat) {l d : Nat} (hn : n ≠ 8) (hd : p.dest = .v l d) :
    g.arrive (.load n sgn q) p bs = g.fillV l d (BitVec.ofInt 32 (if sgn then toInt (8 * n) (leNat bs) else (leNat bs : Int))) := by
  have h8 : (n == 8) = false := beq_eq_false_iff_ne.mpr hn
  rw [← ofNat_extend n sgn (leNat bs) (le_refl 32)]
  unfold Group.arrive Group.deliver
  simp only [hd, h8, if_neg hn, Bool.false_eq_true, if_false]

/-- A number of 8 bytes in a pair of v registers. -/
theorem Group.arrive_wide (sgn : Bool) (q : Nat) {l d : Nat} (hb : leNat bs < 2 ^ 64) (hd : p.dest = .v l d) :
    g.arrive (.load 8 sgn q) p bs = (g.fillV l d (BitVec.ofInt 32 (if sgn then toInt (8 * 8) (leNat bs) else (leNat bs : Int)))).fillV l (d + 1) (BitVec.ofNat 32 (leNat bs / 2 ^ 32)) := by
  rw [← ofNat_extend 8 sgn (leNat bs) (by norm_num : 32 ≤ 64), extend_whole sgn hb]
  unfold Group.arrive Group.deliver
  simp only [hd, beq_self_eq_true, if_true, extend_whole sgn hb]

/-- A number in an s register. -/
theorem Group.arrive_s (n : Nat) (sgn : Bool) (q : Nat) {d : Nat} (hd : p.dest = .s d) :
    g.arrive (.load n sgn q) p bs = (g.putS d (BitVec.ofInt 64 (if sgn then toInt (8 * n) (leNat bs) else (leNat bs : Int)))).markS d false := by
  rw [← ofNat_extend n sgn (leNat bs) (le_refl 64)]
  unfold Group.arrive Group.deliver
  simp only [hd]

/-- A block in the v registers of a lane. -/
theorem Group.arrive_block (c q : Nat) {l d : Nat} (hd : p.dest = .v l d) : g.arrive (.block c q) p bs = g.fillRow l d (fun i => BitVec.ofNat 32 (leNat bs / 2 ^ (32 * i))) c := by
  unfold Group.arrive Group.fillRow
  simp only [hd, blockWord]

end

/-- Settles O60: the producer's one part is delivered; each destination is a chain of registers filled. -/
theorem loadDelivers : Obligations.LoadDelivers := by
  unfold Obligations.LoadDelivers
  intro s u g pr p ht hid hi hp hpeer hfwd hb hc hd raw
  refine ⟨fun n sgn l d hk hn hlen hdest h64 h63 => ?v, fun n sgn d hk hn hlen hdest => ?s, fun c l d hk hlen hdest h64 => ?block⟩
  case v =>
    obtain ⟨t, v, hx, hv, hg, hmem⟩ := loadValueArrival_relaxed ht hid hi hp hpeer hfwd hb hc hd (.inl ⟨n, sgn, hk⟩)
    refine ⟨t, v, _, hx, hv, hg, ?_⟩
    rw [hk]
    by_cases h8 : n = 8
    · subst h8
      have hraw : leNat (p.keys.map (Memory.read s.mem)) < 2 ^ 64 := by
        have := leNat_lt (p.keys.map (Memory.read s.mem))
        rwa [List.length_map, hlen, show (256 : Nat) ^ 8 = 2 ^ 64 by norm_num] at this
      have h63 := h63 rfl
      have harr := g.arrive_wide p (p.keys.map (Memory.read s.mem)) sgn 0 hraw hdest
      refine ⟨?_, ?_, fun _ => ⟨?_, ?_⟩, fun k r hr hne => ?_, g.delivered_inflight p _ _ _ (by rw [harr]; rfl), hmem⟩
      · show (g.arrive _ p _).getV l d = _
        rw [harr, Group.getV_fillV _ _ (by omega) h64, if_neg (by omega), Group.getV_fillV _ _ h64 h64, if_pos ⟨rfl, rfl⟩]
      · show (g.arrive _ p _).emptyV l d = _
        rw [harr, Group.emptyV_fillV _ _ (by omega) h64, if_neg (by omega), Group.emptyV_fillV _ _ h64 h64, if_pos ⟨rfl, rfl⟩]
      · show (g.arrive _ p _).getV l (d + 1) = _
        rw [harr, Group.getV_fillV _ _ (by omega) (by omega), if_pos ⟨rfl, rfl⟩]
      · show (g.arrive _ p _).emptyV l (d + 1) = _
        rw [harr, Group.emptyV_fillV _ _ (by omega) (by omega), if_pos ⟨rfl, rfl⟩]
      · show (g.arrive _ p _).getV k r = _
        rw [harr, Group.getV_fillV _ _ (by omega) hr, if_neg (by omega), Group.getV_fillV _ _ h64 hr, if_neg (by omega)]
    · have harr := g.arrive_narrow p (p.keys.map (Memory.read s.mem)) sgn 0 h8 hdest
      refine ⟨?_, ?_, fun h => absurd h h8, fun k r hr hne => ?_, g.delivered_inflight p _ _ _ (by rw [harr]; rfl), hmem⟩
      · show (g.arrive _ p _).getV l d = _
        rw [harr, Group.getV_fillV _ _ h64 h64, if_pos ⟨rfl, rfl⟩]
      · show (g.arrive _ p _).emptyV l d = _
        rw [harr, Group.emptyV_fillV _ _ h64 h64, if_pos ⟨rfl, rfl⟩]
      · show (g.arrive _ p _).getV k r = _
        rw [harr, Group.getV_fillV _ _ h64 hr, if_neg (by omega)]
  case s =>
    obtain ⟨t, v, hx, hv, hg, hmem⟩ := loadValueArrival_relaxed ht hid hi hp hpeer hfwd hb hc hd (.inl ⟨n, sgn, hk⟩)
    refine ⟨t, v, _, hx, hv, hg, ?_⟩
    rw [hk]
    have harr := g.arrive_s p (p.keys.map (Memory.read s.mem)) n sgn 0 hdest
    refine ⟨?_, ?_, fun k hne => ?_, fun k r => ?_, g.delivered_inflight p _ _ _ (by rw [harr]; rfl), hmem⟩
    · show (g.arrive _ p _).getS d = _
      rw [harr]
      exact Group.getS_putS_self g d _
    · show (g.arrive _ p _).emptyS d = _
      rw [harr]
      exact SMap.get_put_self false g.se d false
    · show (g.arrive _ p _).getS k = _
      rw [harr]
      exact Group.getS_putS_ne g d k _ hne
    · show (g.arrive _ p _).getV k r = _
      rw [harr]
      rfl
  case block =>
    obtain ⟨t, v, hx, hv, hg, hmem⟩ := loadValueArrival_relaxed ht hid hi hp hpeer hfwd hb hc hd (.inr ⟨c, hk⟩)
    refine ⟨t, v, _, hx, hv, hg, ?_⟩
    rw [hk]
    have harr := g.arrive_block p (p.keys.map (Memory.read s.mem)) c 0 hdest
    refine ⟨fun i hi => ?_, fun k r hr hne => ?_, g.delivered_inflight p _ _ _ (by rw [harr, Group.fillRow_inflight]), hmem⟩
    · show (g.arrive _ p _).getV l (d + i) = _ ∧ (g.arrive _ p _).emptyV l (d + i) = false
      rw [harr]
      exact g.fillRow_inside _ h64 hi
    · show (g.arrive _ p _).getV k r = _
      rw [harr]
      exact g.fillRow_outside _ h64 hr hne

end Sys2Proof.Machine
end

section
/-! From an issue move to the instruction that runs (R30, R32, R37, R39, R156, R301). -/

namespace Sys2Proof.Machine

/-! Fetching changes what the dies' caches and the TLBs hold, and nothing else. -/

/-- A state as another but for its dies and its TLBs. -/
def State.cachesOf (s t : State) : Prop := { t with dies := s.dies, tlb := s.tlb } = s

theorem State.cachesOf_refl (s : State) : s.cachesOf s := rfl

theorem State.cachesOf_trans {s t r : State} (h1 : s.cachesOf t) (h2 : t.cachesOf r) : s.cachesOf r := by
  have := congrArg (fun z : State => { z with dies := s.dies, tlb := s.tlb }) h2
  exact this.trans h1

theorem State.keepDie_caches (s : State) (x : TlbEntry) : s.cachesOf (s.keepDie x) := by
  unfold State.keepDie
  split
  · rfl
  · dsimp only
    split
    · rfl
    · split <;> rfl

theorem State.keepCore_caches (s : State) (x : TlbEntry) : s.cachesOf (s.keepCore x) := by
  unfold State.keepCore
  split <;> rfl

theorem State.learnAt_caches (s : State) (core : Nat) (t : Option TlbEntry) : s.cachesOf (s.learnAt core t) := by
  cases t with
  | none => exact s.cachesOf_refl
  | some x => exact State.cachesOf_trans (s.keepDie_caches x) (State.keepCore_caches _ _)

theorem State.setDie_caches (s : State) (d : Nat) (x : Die) : s.cachesOf (s.setDie d x) := rfl

/-- An issue as another but for the caches of its state. -/
def Env.fetched (e e1 : Env) : Prop := e1.c = e.c ∧ e1.u = e.u ∧ e1.g = e.g ∧ e.s.cachesOf e1.s

/-- What a fetch comes to, where it comes to words, has a property of their issue. -/
def Words.okWith (P : Env → Prop) : Words → Prop
  | .ok e _ => P e
  | _ => True

theorem Words.okWith_ite {P : Env → Prop} {c : Prop} [Decidable c] {a b : Words} (ha : a.okWith P) (hb : b.okWith P) : (if c then a else b).okWith P := by
  split
  · exact ha
  · exact hb

/-- A fetch that comes to words leaves the issue as it was but for the caches. -/
theorem Env.read_okWith (e : Env) (off : Nat) : (e.read off).okWith e.fetched := by
  unfold Env.read
  cases e.codeAcc off with
  | error f => trivial
  | ok a0 =>
    have hs0 := e.s.learnAt_caches e.u.core a0.tlb
    refine Words.okWith_ite trivial (Words.okWith_ite ⟨rfl, rfl, rfl, ?_⟩ ?_)
    · dsimp only
      split
      · exact State.cachesOf_trans hs0 (State.setDie_caches _ _ _)
      · exact hs0
    · cases e.codeAcc (off + 4) with
      | error f => trivial
      | ok a1 =>
        have hs1 := State.cachesOf_trans hs0 (State.learnAt_caches (e.s.learnAt e.u.core a0.tlb) e.u.core a1.tlb)
        dsimp only
        cases (e.s.die e.u.die).holds (a0.keys.headD 0) (a1.keys.headD 0) with
        | some c => exact ⟨rfl, rfl, rfl, hs1⟩
        | none => exact Words.okWith_ite trivial ⟨rfl, rfl, rfl, State.cachesOf_trans hs1 (State.setDie_caches _ _ _)⟩

theorem Env.read_fetched {e e1 : Env} {off : Nat} {w : TowWord} (h : e.read off = .ok e1 w) : e.fetched e1 := by
  have := e.read_okWith off
  rwa [h] at this

theorem Env.nextWord_towline {e : Env} {w : TowWord} {rest : List TowWord} (ht : e.g.tow = w :: rest) (hp : w.pc = e.g.bcast) : e.nextWord = .ok e w := by
  unfold Env.nextWord
  rw [ht]
  exact if_pos hp

theorem Env.nextWord_read {e : Env} (h : ∀ w ∈ e.g.tow.head?, w.pc ≠ e.g.bcast) : e.nextWord = e.read e.g.bcast := by
  unfold Env.nextWord
  cases ht : e.g.tow with
  | nil => rfl
  | cons w rest => exact if_neg (h w (by rw [ht]; rfl))

theorem Env.nextWord_fetched {e e1 : Env} {w : TowWord} (h : e.nextWord = .ok e1 w) : e.fetched e1 := by
  by_cases hh : ∀ w ∈ e.g.tow.head?, w.pc ≠ e.g.bcast
  · rw [Env.nextWord_read hh] at h
    exact Env.read_fetched h
  · push Not at hh
    obtain ⟨w1, hw1, hp⟩ := hh
    obtain ⟨rest, ht⟩ := List.head?_eq_some_iff.mp hw1
    rw [Env.nextWord_towline ht hp] at h
    cases h
    exact ⟨rfl, rfl, rfl, e.s.cachesOf_refl⟩

/-! What one fetch brings. -/

section
variable {e : Env} {off : Nat} {a0 : Acc} (h0 : e.codeAcc off = .ok a0)
include h0

/-- A word of one length from the instruction cache. -/
theorem Env.read_cached_one {c : CodeWords} (hc : AMap.get? (e.s.die e.u.die).icache (a0.keys.headD 0) = some c) (h1 : wordCount c.w0.toNat = 1) : ∃ e1, e.read off = .ok e1 ⟨off, 4, c.w0.toNat, 0⟩ := by
  unfold Env.read
  simp only [h0, hc, h1, Option.isNone_some, Bool.false_and, Bool.false_eq_true, if_false, if_true]
  exact ⟨_, rfl⟩

/-- An instruction of two words from the instruction cache, where it came from the homes that the words have now. -/
theorem Env.read_cached_two {a1 : Acc} {c : CodeWords} (h1 : e.codeAcc (off + 4) = .ok a1) (hc : AMap.get? (e.s.die e.u.die).icache (a0.keys.headD 0) = some c) (h2 : wordCount c.w0.toNat = 2)
    (hk : c.key1 = a1.keys.headD 0) : ∃ e1, e.read off = .ok e1 ⟨off, 8, c.w0.toNat, c.w1.toNat⟩ := by
  have hold : (e.s.die e.u.die).holds (a0.keys.headD 0) (a1.keys.headD 0) = some c := by
    unfold Die.holds
    rw [hc]
    exact Option.filter_some_pos (beq_iff_eq.mpr hk)
  unfold Env.read
  simp only [h0, h1, hc, h2, hold, Option.isNone_some, Bool.false_and, Bool.false_eq_true, if_false, show ¬(2 = 1) by decide]
  exact ⟨_, rfl⟩

end

/-- A word of memory. -/
def Env.wordAt (e : Env) (a : Acc) : Nat := leNat (a.keys.map (Memory.read e.s.mem)) % 2 ^ 32

theorem Env.wordAt_toNat (e : Env) (a : Acc) : (BitVec.ofNat 32 (leNat (a.keys.map (Memory.read e.s.mem)))).toNat = e.wordAt a := BitVec.toNat_ofNat _ _

/-- No store on its way holds a byte of an access. -/
theorem pend_free {s : State} {a : Acc} (h : ∀ p ∈ s.pend, ∀ k ∈ p.keys, k ∉ a.keys) : s.pend.any (fun p => p.keys.any a.keys.contains) = false := by
  rw [List.any_eq_false]
  intro p hp hany
  obtain ⟨k, hk, hc⟩ := List.any_eq_true.mp hany
  exact h p hp k hk (List.contains_iff_mem.mp hc)

section
variable {e : Env} {off : Nat} {a0 : Acc} (h0 : e.codeAcc off = .ok a0) (hc : AMap.get? (e.s.die e.u.die).icache (a0.keys.headD 0) = none)
  (hfree : ∀ p ∈ e.s.pend, ∀ k ∈ p.keys, k ∉ a0.keys)
include h0 hc hfree

/-- A word of one length from memory. -/
theorem Env.read_memory_one (h1 : wordCount (e.wordAt a0) = 1) : ∃ e1, e.read off = .ok e1 ⟨off, 4, e.wordAt a0, 0⟩ := by
  unfold Env.read
  simp only [h0, hc, pend_free hfree, Env.wordAt_toNat, h1, Option.isNone_none, Bool.and_false, Bool.false_eq_true, if_false, if_true]
  exact ⟨_, rfl⟩

/-- An instruction of two words from memory. -/
theorem Env.read_memory_two {a1 : Acc} (h1 : e.codeAcc (off + 4) = .ok a1) (hfree1 : ∀ p ∈ e.s.pend, ∀ k ∈ p.keys, k ∉ a1.keys) (h2 : wordCount (e.wordAt a0) = 2) :
    ∃ e1, e.read off = .ok e1 ⟨off, 8, e.wordAt a0, e.wordAt a1⟩ := by
  have hold : (e.s.die e.u.die).holds (a0.keys.headD 0) (a1.keys.headD 0) = none := by
    unfold Die.holds
    rw [hc]
    rfl
  unfold Env.read
  simp only [h0, h1, hc, hold, pend_free hfree, pend_free hfree1, Env.wordAt_toNat, h2, Option.isNone_none, Bool.and_false, Bool.or_self, Bool.false_eq_true, if_false, show ¬(2 = 1) by decide]
  exact ⟨_, rfl⟩

end

/-! A cycle ends. -/

/-- A state as another but for the counts of being passed over. -/
def State.passesTo (s t : State) : Prop :=
  { t with units := s.units } = s ∧ t.keyed ∧ ∀ k u, s.unit? k = some u → ∃ v, t.unit? k = some v ∧ { v with groups := u.groups } = u ∧
    v.groups.map (fun (g : Group) => { g with passed := 0 }) = u.groups.map (fun (g : Group) => { g with passed := 0 })

theorem State.passesTo_refl {s : State} (h : s.keyed) : s.passesTo s := ⟨rfl, h, fun _ u hu => ⟨u, hu, rfl, rfl⟩⟩

theorem State.passesTo_trans {s t r : State} (h1 : s.passesTo t) (h2 : t.passesTo r) : s.passesTo r := by
  obtain ⟨hs, -, hu⟩ := h1
  obtain ⟨ht, hk, hv⟩ := h2
  refine ⟨?_, hk, fun k u hk => ?_⟩
  · have := congrArg (fun z : State => { z with units := s.units }) ht
    exact this.trans hs
  · obtain ⟨v, hv1, hv2, hv3⟩ := hu k u hk
    obtain ⟨w, hw1, hw2, hw3⟩ := hv k v hv1
    refine ⟨w, hw1, ?_, hw3.trans hv3⟩
    have := congrArg (fun z : WorkUnit => { z with groups := u.groups }) hw2
    exact this.trans hv2

/-- One group replaced by another that differs in what a map forgets. -/
theorem map_set_same {α β : Type} (h : α → β) (xs : List α) (i : Nat) {x y : α} (hx : xs[i]? = some x) (hy : h y = h x) : (xs.set i y).map h = xs.map h := by
  refine List.ext_getElem? fun j => ?_
  rw [List.getElem?_map, List.getElem?_map, List.getElem?_set]
  split
  next hij =>
    subst hij
    have hi := (List.getElem?_eq_some_iff.mp hx).1
    rw [if_pos hi, hx, Option.map_some, Option.map_some, hy]
  next => rfl

theorem State.passesTo_onGroup {s : State} (h : s.keyed) (uid grp : Nat) (f : Group → Group) (hf : ∀ g : Group, { f g with passed := 0 } = { g with passed := 0 }) : s.passesTo (s.onGroup uid grp f) := by
  unfold State.onGroup State.onUnit
  cases hu : s.unit? uid with
  | none => exact State.passesTo_refl h
  | some u =>
    dsimp only
    unfold WorkUnit.onGroup
    have hid := State.unit?_uid h hu
    cases hg : u.group grp with
    | none =>
      refine ⟨rfl, State.keyed_setUnit h, fun k v hv => ?_⟩
      by_cases hk : k = u.uid
      · subst hk
        rw [hid, hu] at hv
        cases hv
        exact ⟨u, State.unit?_setUnit_self s u, rfl, rfl⟩
      · exact ⟨v, (State.unit?_setUnit_ne s u k hk).trans hv, rfl, rfl⟩
    | some g =>
      refine ⟨rfl, State.keyed_setUnit h, fun k v hv => ?_⟩
      by_cases hk : k = u.uid
      · subst hk
        rw [hid, hu] at hv
        cases hv
        exact ⟨u.setGroup grp (f g), State.unit?_setUnit_self s (u.setGroup grp (f g)), rfl, map_set_same _ u.groups grp hg (hf g)⟩
      · exact ⟨v, (State.unit?_setUnit_ne s (u.setGroup grp (f g)) k hk).trans hv, rfl, rfl⟩

/-- A fold whose steps keep keys and change no more than counts. -/
theorem State.passesTo_foldl {α : Type} (f : State → α → State) (hf : ∀ (s : State) x, s.keyed → s.passesTo (f s x)) (xs : List α) {s : State} (h : s.keyed) : s.passesTo (xs.foldl f s) := by
  induction xs generalizing s with
  | nil => exact State.passesTo_refl h
  | cons x xs ih => exact State.passesTo_trans (hf s x h) (ih (hf s x h).2.1)

/-- The end of a cycle counts groups that were passed over, and does nothing else. -/
theorem State.passOver_passes {s : State} (h : s.keyed) : s.passesTo s.passOver := by
  unfold State.passOver
  refine State.passesTo_foldl _ (fun t r ht => ?_) _ h
  cases s.unit? r.uid with
  | none => exact State.passesTo_refl ht
  | some u =>
    refine State.passesTo_foldl _ (fun t1 q ht1 => ?_) _ ht
    split
    · exact State.passesTo_refl ht1
    · exact State.passesTo_onGroup ht1 _ _ _ fun _ => rfl

/-! The issue of a group whose live lanes all stand with the broadcast. -/

theorem Group.setLanes_nil (g : Group) (f : Nat → Lane → Lane) : g.setLanes [] f = g := by
  unfold Group.setLanes
  have : (List.range g.lanes.length).map (fun l => if ([] : List Nat).contains l then f l (g.lane l) else g.lane l) = g.lanes := by
    refine List.ext_getElem? fun i => ?_
    rw [List.getElem?_map]
    by_cases hi : i < g.lanes.length
    · rw [List.getElem?_range hi, Option.map_some, List.getElem?_eq_getElem hi]
      show some (g.lane i) = _
      unfold Group.lane
      rw [List.getD_eq_getElem _ _ hi]
    · rw [List.getElem?_eq_none (by rw [List.length_range]; omega), List.getElem?_eq_none (by omega)]
      rfl
  rw [this]

/-- All live lanes of a group stand with the broadcast. -/
def Group.inStep (g : Group) : Prop := ∀ l ∈ g.liveLanes, (g.lane l).st = .subscribed ∧ (g.lane l).pc = g.bcast

theorem Group.mem_which {g : Group} {p : Lane → Bool} {l : Nat} : l ∈ g.which p ↔ l < g.lanes.length ∧ p (g.lane l) = true := by
  unfold Group.which
  rw [List.mem_filter, List.mem_range]

section
variable {g : Group} (h : g.inStep)
include h

theorem Group.subscribed_of_inStep : g.subscribed = g.liveLanes := by
  unfold Group.subscribed Group.liveLanes Group.which
  refine List.filter_congr fun l hl => ?_
  show ((g.lane l).st == .subscribed) = (g.lane l).st.live
  cases hlive : (g.lane l).st.live with
  | true =>
    have hm : l ∈ g.liveLanes := Group.mem_which.mpr ⟨List.mem_range.mp hl, hlive⟩
    rw [(h l hm).1]
    rfl
  | false =>
    refine beq_eq_false_iff_ne.mpr fun hst => ?_
    rw [hst] at hlive
    cases hlive

theorem Group.rejoin_of_inStep (bad : List Nat) : g.rejoin bad = g := by
  have hnone : g.which (fun x => x.st == .priv && x.pc == g.bcast) = [] := by
    refine List.eq_nil_iff_forall_not_mem.mpr fun l hl => ?_
    obtain ⟨hlt, hp⟩ := Group.mem_which.mp hl
    obtain ⟨hpriv, -⟩ := Bool.and_eq_true _ _ |>.mp hp
    have hst := beq_iff_eq.mp hpriv
    have hm : l ∈ g.liveLanes := Group.mem_which.mpr ⟨hlt, by rw [hst]; rfl⟩
    rw [(h l hm).1] at hst
    cases hst
  unfold Group.rejoin
  rw [hnone]
  exact g.setLanes_nil _

theorem Group.converged_of_inStep : g.converged = true := by
  unfold Group.converged
  rw [List.all_eq_true]
  intro l hl
  obtain ⟨hst, hpc⟩ := h l hl
  simp only [hst, hpc, beq_self_eq_true, Bool.and_self]

theorem Group.form_of_inStep (hl : g.liveLanes ≠ []) (bad : List Nat) : g.form bad = g := by
  unfold Group.form
  rw [Group.subscribed_of_inStep h, if_pos]
  rw [Bool.not_eq_true', List.isEmpty_eq_false_iff]
  exact hl

end

/-- The words of an issue recorded in it. -/
theorem Env.go_runs {e : Env} {i : Instr} (h : decodeWords e.c.w0 e.c.w1 = some i) : e.go = .run { e.out with cur := some e.c } i := by
  unfold Env.go
  rw [h]

/-- A group word executes at its convergence. -/
theorem Env.atWord_converged {e : Env} (k : Env → Fetched) (hf : e.u.faulted e.c.grp = []) (hc : e.g.converged = true) :
    e.atWord k = k { e with c := { e.c with by_ := .group, act := e.g.liveLanes } } := by
  unfold Env.atWord
  rw [hf, hc]
  rfl

@[simp] theorem Group.buffered_liveLanes (g : Group) (off : Nat) : (g.buffered off).liveLanes = g.liveLanes := by
  unfold Group.buffered
  split <;> rfl

@[simp] theorem Group.buffered_converged (g : Group) (off : Nat) : (g.buffered off).converged = g.converged := by
  unfold Group.buffered
  split <;> rfl

/-- The issue of a word at a group's broadcast address by all its live lanes. -/
def Group.issueOf (g : Group) (uid grp : Nat) (w : TowWord) : Issue :=
  { uid := uid, grp := grp, by_ := if isGroupWord w.w0 then .group else .broadcast, act := g.liveLanes, pc := g.bcast, len := 4 * wordCount w.w0, w0 := w.w0, w1 := w.w1 }

/-- The broadcast of a group as it fetches. -/
def Env.fetching (s : State) (u : WorkUnit) (uid grp : Nat) (g : Group) : Env :=
  ⟨s, { uid := uid, grp := grp, by_ := .broadcast, act := g.liveLanes, pc := g.bcast, len := 4, w0 := 0, w1 := 0 }, u, g.buffered g.bcast⟩

/-- The broadcast of a group whose live lanes all stand with it runs the instruction whose words come next: a group word at its convergence, a lane word for every live lane. -/
theorem Env.broadcast_runs {s : State} {u : WorkUnit} {uid grp : Nat} {g : Group} (hf : u.faulted grp = []) (hl : g.liveLanes ≠ []) (hg : g.inStep) {e : Env} {w : TowWord} {i : Instr}
    (hw : (Env.fetching s u uid grp g).nextWord = .ok e w) (hi : decodeWords w.w0 w.w1 = some i) :
    Env.broadcast s u uid grp g = .run { e.s.setUnit (u.setGroup grp (g.buffered g.bcast)) with cur := some (g.issueOf uid grp w) } i := by
  obtain ⟨hc, hu, hg1, -⟩ := Env.nextWord_fetched hw
  obtain ⟨es, ec, eu, eg⟩ := e
  cases hc; cases hu; cases hg1
  have hne : g.liveLanes.isEmpty = false := List.isEmpty_eq_false_iff.mpr hl
  unfold Env.fetching at hw
  unfold Env.broadcast
  simp only [hf, Group.form_of_inStep hg hl, Group.rejoin_of_inStep hg, Group.subscribed_of_inStep hg, hne, Bool.false_and, Bool.false_eq_true, if_false, hw]
  unfold Group.issueOf
  cases hgw : isGroupWord w.w0 with
  | true =>
    rw [if_pos rfl, Env.atWord_converged Env.go hf ((g.buffered_converged g.bcast).trans (Group.converged_of_inStep hg)), Env.go_runs hi]
    show Fetched.run { es.setUnit (u.setGroup grp (g.buffered g.bcast)) with cur := some { uid := uid, grp := grp, by_ := .group, act := (g.buffered g.bcast).liveLanes, pc := g.bcast, len := 4 * wordCount w.w0, w0 := w.w0, w1 := w.w1 } } i = _
    rw [Group.buffered_liveLanes]
    rfl
  | false =>
    rw [if_neg Bool.false_ne_true, Env.go_runs hi]
    rfl

/-- The first issue move of a cycle is one of the broadcast, on the group whose registers it has sampled. -/
theorem State.issueMove_first {s s1 : State} {u u1 : WorkUnit} {uid grp : Nat} {g g1 : Group} (hu : s.unit? uid = some u) (hgr : u.group grp = some g) (hm : s.mayIssue u false = true)
    (hsrc : s.tick.sources uid grp = s1) (hu1 : s1.unit? uid = some u1) (hg1 : u1.group grp = some g1) (hin : s1.inCycle u1 grp none = true) :
    s.issueMove uid grp none false = Env.broadcast s1 u1 uid grp g1 := by
  unfold State.issueMove
  simp only [hu, Option.bind_some, hgr, Option.map_some, hm, Bool.not_true, Bool.false_eq_true, if_false, hsrc, hu1, hg1, hin, if_true]

/-- A group with its registers sampled for other lanes (R197). -/
def Group.sampled (g : Group) : Group := { g with vOld := g.v }

/-- The first issue of a cycle samples the group. -/
theorem State.sources_tick {s : State} {u : WorkUnit} {uid grp : Nat} {g : Group} (hu : s.unit? uid = some u) (hgr : u.group grp = some g) : s.tick.sources uid grp = s.tick.setUnit (u.setGroup grp g.sampled) := by
  show State.onUnit s.tick uid (fun u => u.onGroup grp Group.sampled) = _
  rw [State.onUnit_eq (s := s.tick) hu, WorkUnit.onGroup_eq hgr]

/-- The first issue move of a cycle, for a group whose live lanes all stand with the broadcast. -/
theorem State.issueMove_runs {s : State} {u : WorkUnit} {uid grp : Nat} {g : Group} (hu : s.unit? uid = some u) (hid : u.uid = uid) (hgr : u.group grp = some g) (hm : s.mayIssue u false = true)
    (hf : u.faulted grp = []) (hl : g.liveLanes ≠ []) (hg : g.inStep) {e : Env} {w : TowWord} {i : Instr}
    (hw : (Env.fetching (s.tick.setUnit (u.setGroup grp g.sampled)) (u.setGroup grp g.sampled) uid grp g.sampled).nextWord = .ok e w) (hi : decodeWords w.w0 w.w1 = some i) :
    s.issueMove uid grp none false = .run { e.s.setUnit ((u.setGroup grp g.sampled).setGroup grp (g.sampled.buffered g.bcast)) with cur := some (g.issueOf uid grp w) } i := by
  have hu1 : (s.tick.setUnit (u.setGroup grp g.sampled)).unit? uid = some (u.setGroup grp g.sampled) := by
    have := State.unit?_setUnit_self s.tick (u.setGroup grp g.sampled)
    rwa [WorkUnit.setGroup_uid, hid] at this
  rw [State.issueMove_first hu hgr hm (State.sources_tick hu hgr) hu1 (WorkUnit.group_setGroup_self hgr) rfl]
  exact Env.broadcast_runs (u := u.setGroup grp g.sampled) (g := g.sampled) hf hl hg hw hi

/-- The state of an issue whose unit and group are put back has that issue. -/
theorem State.env?_setUnit {s : State} {u : WorkUnit} {g h : Group} {c : Issue} (hid : u.uid = c.uid) (hg : u.group c.grp = some h) :
    State.env? { s.setUnit (u.setGroup c.grp g) with cur := some c } = some ⟨{ s.setUnit (u.setGroup c.grp g) with cur := some c }, c, u.setGroup c.grp g, g⟩ := by
  have hu : State.unit? { s.setUnit (u.setGroup c.grp g) with cur := some c } c.uid = some (u.setGroup c.grp g) := by
    have := State.unit?_setUnit_self s (u.setGroup c.grp g)
    rwa [WorkUnit.setGroup_uid, hid] at this
  unfold State.env?
  simp only [hu, WorkUnit.group_setGroup_self hg]

/-- A step whose move is an issue move that comes to an instruction executes it, unless its position prefers another group. -/
theorem step_issue {s : State} {uid grp : Nat} {rest : List Move} {t : State} {i : Instr} (hpow : s.power = .up) (hag : s.agenda = .issue uid grp none false :: rest)
    (hmove : State.issueMove (State.passOver { s with agenda := rest }) uid grp none false = .run t i)
    (hrank : t.cur.map (·.by_) = some .group ∨ (State.passOver { s with agenda := rest }).outranked uid grp false = false) : step s = withinShares (exec i t) := by
  have hstep : step s = withinShares (State.moveIssue { s with agenda := rest } uid grp none false) := by
    unfold step
    split
    next m rest' _ hm => rw [hag] at hm; cases hm; rfl
    next hm => rw [hag] at hm; cases hm
    next hp _ => rw [hpow] at hp; cases hp
    next hp _ => rw [hpow] at hp; cases hp
    next hp _ => rw [hpow] at hp; cases hp
    next hp _ => rw [hpow] at hp; cases hp
  rw [hstep]
  unfold State.moveIssue
  simp only [Bool.false_eq_true, if_false, hmove]
  rw [if_neg]
  rcases hrank with h | h <;> simp [h]

/-- Settles O58: the move's issue is the broadcast's; what its fetch brings, and what the end of the cycle before it counts, are said clause by clause. -/
theorem stepRunsDecoded : Obligations.StepRunsDecoded := by
  unfold Obligations.StepRunsDecoded
  refine ⟨?runs, fun s hk => ?passes, fun e w rest ht hp => Env.nextWord_towline ht hp, fun e h => Env.nextWord_read h, fun e off a0 h0 => ?reads⟩
  case runs =>
    intro s uid grp rest u g hpow hag s0 hu hid hgr hm hf hl hg g1 s1 e w i hw hi hrank
    have hmove := State.issueMove_runs hu hid hgr hm hf hl hg hw hi
    obtain ⟨-, -, -, hcache⟩ := Env.nextWord_fetched hw
    set v := u.setGroup grp g.sampled with hv
    have hvg : v.group grp = some g.sampled := WorkUnit.group_setGroup_self hgr
    refine ⟨_, _, step_issue hpow hag hmove ?_, State.env?_setUnit (s := e.s) (c := g.issueOf uid grp w) hid hvg, rfl, rfl, rfl, ?_, fun k hk => ?_⟩
    · cases hgw : isGroupWord w.w0 with
      | true =>
        refine .inl ?_
        show some (g.issueOf uid grp w).by_ = _
        unfold Group.issueOf
        rw [hgw]
        rfl
      | false => exact .inr (hrank hgw)
    · have := congrArg (fun z : State => { z with units := s0.units, cur := some (g.issueOf uid grp w) }) hcache
      exact this
    · have hne : k ≠ (v.setGroup grp (g.sampled.buffered g.bcast)).uid := by rw [WorkUnit.setGroup_uid, hv, WorkUnit.setGroup_uid, hid]; exact hk
      have hunits : e.s.units = (s0.tick.setUnit v).units := by have := congrArg State.units hcache; exact this
      have hs1 : e.s.unit? k = (s0.tick.setUnit v).unit? k := by unfold State.unit?; rw [hunits]
      exact (State.unit?_setUnit_ne e.s _ k hne).trans (hs1.trans (State.unit?_setUnit_ne s0.tick v k hne))
  case passes =>
    obtain ⟨hrest, -, hunits⟩ := State.passOver_passes hk
    exact ⟨hrest, hunits⟩
  case reads =>
    intro d k0 free at_
    refine ⟨fun c hc h1 => Env.read_cached_one h0 hc h1, fun hc hfree h1 => Env.read_memory_one h0 hc hfree h1, fun a1 h1 => ⟨fun c hc h2 hk => Env.read_cached_two h0 h1 hc h2 hk, fun hc hfree hfree1 h2 => Env.read_memory_two h0 hc hfree h1 hfree1 h2⟩⟩

end Sys2Proof.Machine
end

section
/-! The events that writes of ZS_QSCHED, ZS_FLIP and ZS_PARTAPPLY are (R300, R321, R323). -/

namespace Sys2Proof.Machine

/-! Cleared memory. -/

/-- A cleared byte reads as blank. -/
theorem Memory.read_clear_inside (m : SMap Byte) {a n k : Nat} (h1 : a ≤ k) (h2 : k < a + n) : Memory.read (Memory.clear m a n) k = 0 := by
  unfold Memory.read SMap.get
  cases hg : AMap.get? (Memory.clear m a n) k with
  | none => rfl
  | some b =>
    have hm := (List.mem_filter.mp (AMap.get?_mem hg)).2
    simp only [h1, h2, decide_true, Bool.and_self, Bool.not_true, Bool.false_eq_true] at hm

theorem State.rouse_mem (s : State) (uid : Nat) : (s.rouse uid).mem = s.mem := by
  unfold State.rouse
  cases s.unit? uid with
  | none => rfl
  | some u => dsimp only; split <;> rfl

theorem State.wakeParked_mem (s : State) (hit : WorkUnit → ThrWait → Bool) : (s.wakeParked hit).mem = s.mem :=
  (foldl_keep State.mem State.rouse State.rouse_mem _ _).trans rfl

theorem State.zeroGranule_mem (s : State) (a : Nat) : (s.zeroGranule a).mem = Memory.clear s.mem a (2 ^ 26) := State.wakeParked_mem _ _

/-- The bytes of a vault or a granule that changes its owner. -/
theorem State.zeroResource_read (s : State) {kind idx a : Nat} (h : kind = 2 ∧ vaultKey idx 0 ≤ a ∧ a < vaultKey idx 0 + 2 ^ 22 ∨ (kind = 4 ∨ kind = 5) ∧ granuleBase kind idx ≤ a ∧ a < granuleBase kind idx + 2 ^ 26) :
    Memory.read (s.zeroResource kind idx).mem a = 0 := by
  unfold State.zeroResource
  rcases h with ⟨h2, hlo, hhi⟩ | ⟨hk, hlo, hhi⟩
  · rw [if_pos h2]
    exact Memory.read_clear_inside s.mem hlo hhi
  · rw [if_neg (by omega), if_pos hk, State.zeroGranule_mem]
    exact Memory.read_clear_inside s.mem hlo hhi

/-- A valid write of ZS_QSCHED. -/
theorem State.writeQsched_ok {s : State} {v : DWord} (h1 : field v 24 40 = 0) (h2 : field v 1 7 = 0) (h3 : 8 ≤ field v 8 8) (h4 : field v 8 8 ≤ 20) :
    s.writeQsched v = .ok { s with qsched := BitVec.ofNat 64 (field v 8 8 * 2 ^ 8 + field v 0 1), qslots := if field v 0 1 = 0 then List.replicate 64 none else s.qslots } := by
  unfold State.writeQsched
  rw [if_neg]
  simp only [h1, h2, bne_self_eq_false, Bool.or_self, Bool.false_or, Bool.or_eq_true, decide_eq_true_eq]
  omega

/-- A valid write of ZS_PARTAPPLY for a resource that nothing in flight reaches. -/
theorem State.partApply_done {s : State} {v : DWord} {off n : Nat} (ha : partArray (field v 60 4) = some (off, n)) (hz : field v 16 44 = 0) (hi : field v 0 16 < n)
    (hp : bits (s.rd (s.parttab.toNat % 2 ^ 52 + off + field v 0 16) 1) 4 2 = 0) (hl : field v 60 4 ≠ 2 → bits (s.rd (s.parttab.toNat % 2 ^ 52 + off + field v 0 16) 1) 6 1 = 0)
    (hu : field v 60 4 = 0 → ∀ u ∈ s.residents (field v 0 16), s.rd (s.parttab.toNat % 2 ^ 52 + off + field v 0 16) 1 < 128 ∧ s.partOf (recCtx u.record) = s.rd (s.parttab.toNat % 2 ^ 52 + off + field v 0 16) 1 % 16)
    (hm : field v 60 4 = 3 → s.mbxState (field v 0 16) ≠ 1) (hg : field v 60 4 = 4 ∨ field v 60 4 = 5 → s.inFlight (granuleBase (field v 60 4) (field v 0 16)) (2 ^ 26) = false)
    (hv : field v 60 4 = 2 → s.inFlight (vaultKey (field v 0 16) 0) (2 ^ 22) = false) :
    s.partApply v = .done { (s.zeroResource (field v 60 4) (field v 0 16)) with
      own := SMap.put 0x80 s.own (off + field v 0 16) (BitVec.ofNat 8 (s.rd (s.parttab.toNat % 2 ^ 52 + off + field v 0 16) 1)) } none := by
  unfold State.partApply
  simp only [ha]
  generalize s.rd (s.parttab.toNat % 2 ^ 52 + off + field v 0 16) 1 = b at *
  generalize field v 60 4 = kind at *
  generalize field v 0 16 = idx at *
  rw [if_neg ?bad, if_neg ?granule, if_neg ?vault]
  case bad =>
    simp only [Bool.or_eq_true, Bool.and_eq_true, bne_iff_ne, beq_iff_eq, decide_eq_true_eq, List.any_eq_true, not_or, not_and, not_exists, ne_eq, not_not]
    exact ⟨⟨⟨⟨⟨hz, by omega⟩, hp⟩, hl⟩, fun h0 u hu' => ⟨by have := (hu h0 u hu').1; omega, (hu h0 u hu').2⟩⟩, hm⟩
  case granule =>
    simp only [Bool.or_eq_true, Bool.and_eq_true, beq_iff_eq, not_and, Bool.not_eq_true]
    exact hg
  case vault =>
    simp only [Bool.and_eq_true, beq_iff_eq, not_and, Bool.not_eq_true]
    exact hv

/-- Settles O41: each event is the write's meaning where its rules hold. -/
theorem registerEvents : Obligations.RegisterEvents := by
  unfold Obligations.RegisterEvents
  refine ⟨fun s h1 h2 h3 h4 => ?qsched, fun s pa n hd ha hc hf => ?toHost, fun s pa n hd ha hc hf => ?toDevice, fun s off n => ?apply, fun s kind idx a h => s.zeroResource_read h⟩
  case qsched =>
    show execZsQsched s = _
    unfold execZsQsched
    rw [State.writeQsched_ok h1 h2 h3 h4]
  case toHost =>
    show execZsFlipToHost s = _
    unfold execZsFlipToHost State.flipToHost
    rw [if_pos ⟨hd, ha⟩, hc]
    simp only [hf, Bool.false_eq_true, if_false]
    rfl
  case toDevice =>
    show execZsFlipToDevice s = _
    unfold execZsFlipToDevice State.flipToDevice
    rw [if_pos ⟨hd, ha⟩, hc]
    simp only [hf, Bool.false_eq_true, if_false]
    rfl
  case apply =>
    intro kind idx b h0 ha hz hi hp hl hu hm hg hv
    show execZsPartapply s = _
    unfold execZsPartapply
    rw [if_pos h0, State.partApply_done ha hz hi hp hl hu hm hg hv]
    rfl

end Sys2Proof.Machine
end

section
/-! Power and cooling (R355 to R357), and requests that the sluice refuses (R304). -/

namespace Sys2Proof.Machine

/-! What a fault of a command and a wake leave. -/

/-- A part of the state that units, queues of cores, dies and engine contexts are no part of. -/
structure State.Aside {γ : Type} (m : State → γ) : Prop where
  units (s : State) (us : AMap WorkUnit) : m { s with units := us } = m s
  cores (s : State) (cs : SMap Core) : m { s with cores := cs } = m s
  dies (s : State) (ds : List Die) : m { s with dies := ds } = m s
  engines (s : State) (es : SMap Engine) : m { s with engines := es } = m s

theorem State.aside_mem : State.Aside State.mem := ⟨fun _ _ => rfl, fun _ _ => rfl, fun _ _ => rfl, fun _ _ => rfl⟩

section
variable {γ : Type} {m : State → γ} (h : State.Aside m)
include h

theorem State.onUnit_aside (s : State) (uid : Nat) (f : WorkUnit → WorkUnit) : m (s.onUnit uid f) = m s := by
  unfold State.onUnit
  split
  · exact h.units s _
  · rfl

theorem State.rouse_aside (s : State) (uid : Nat) : m (s.rouse uid) = m s := by
  unfold State.rouse
  split
  · rfl
  · dsimp only
    split
    · rfl
    · exact (h.cores (s.setUnit _) _).trans (h.units s _)

theorem State.wakeCtx_aside (s : State) (k : EngId) : m (s.wakeCtx k) = m s := by
  refine foldl_keep m _ (fun t uid => ?_) _ s
  split
  · rfl
  · dsimp only
    split
    · rfl
    · split
      · exact State.rouse_aside h t uid
      · exact h.units t _

theorem State.leaveEnds_aside (s : State) (die : Nat) (who : Waiter) : m (s.leaveEnds die who) = m s := by
  unfold State.leaveEnds
  dsimp only
  split
  · exact h.dies s _
  · rfl

theorem State.ctxFail_aside (s : State) (k : EngId) (num code addr : Nat) (ss : Bool) : m (s.ctxFail k num code addr ss) = m s :=
  (State.wakeCtx_aside h _ k).trans ((State.leaveEnds_aside h _ _ _).trans
    ((foldl_keep m (fun (s : State) (d : Command) => s.unask (if k.kind = 3 then k.home else k.home / 80) (.command k d.num)) (fun t _ => h.dies t _) _ _).trans (h.engines s _)))

end

theorem State.refuse_mem (s : State) (die : Nat) (r : SluiceReq) : (s.refuse die r).mem = s.mem := by
  unfold State.refuse
  cases r.who with
  | heavy uid op => exact State.onUnit_aside State.aside_mem _ _ _
  | command k num => exact State.ctxFail_aside State.aside_mem _ _ _ _ _ _
  | permit uid grp => exact State.onUnit_aside State.aside_mem _ _ _

theorem State.setBudget_mem (s : State) (d n : Nat) : (s.setBudget d n).mem = s.mem :=
  (foldl_keep State.mem _ (fun t r => t.refuse_mem d r) _ _).trans rfl

/-! A package without power. -/

/-- A key that a filter of keys keeps reads as before; another reads as blank. -/
theorem Memory.read_filterKeys (m : SMap Byte) (p : Nat → Bool) (a : Nat) : Memory.read (m.filter (fun q => p q.1)) a = if p a = true then Memory.read m a else 0 := by
  unfold Memory.read SMap.get
  induction m with
  | nil => simp [AMap.get?, Memory.blank]
  | cons q m ih =>
    obtain ⟨k, b⟩ := q
    cases hk : p k with
    | true =>
      rw [List.filter_cons_of_pos (by exact hk)]
      simp only [AMap.get?]
      by_cases h : k = a
      · subst h; simp [hk]
      · simpa only [h, if_false] using ih
    | false =>
      rw [List.filter_cons_of_neg (by simp [hk]), ih]
      by_cases h : k = a
      · subst h; simp [hk]
      · simp only [AMap.get?, h, if_false]

theorem State.unpowered_read (s : State) (a : Nat) : Memory.read s.unpowered.mem a = if 0x800 * 2 ^ 40 ≤ a ∧ a < 2 ^ 52 then Memory.read s.mem a else 0 := by
  have := Memory.read_filterKeys s.mem (fun k => decide (0x800 * 2 ^ 40 ≤ k ∧ k < 2 ^ 52)) a
  rw [show s.unpowered.mem = s.mem.filter (fun q => decide (0x800 * 2 ^ 40 ≤ q.1 ∧ q.1 < 2 ^ 52)) from rfl, this]
  simp only [decide_eq_true_eq]

/-- A die's budget that a thermal limit lowers, or none (R355). -/
def State.limited (s : State) (p : Nat × Nat) : State :=
  if (s.die p.1).present && decide (p.1 < 4 ∧ p.2 ≤ (s.die p.1).budget ∧ s.budgetSum p.1 p.2 ≤ pkgBudget - 3200) then s.setBudget p.1 p.2 else s

theorem State.limited_mem (s : State) (p : Nat × Nat) : (s.limited p).mem = s.mem := by
  unfold State.limited
  split
  · exact s.setBudget_mem _ _
  · rfl

theorem exec_thermalLimit (s : State) : exec .thermalLimit s = .next (s.arg.cells.foldl State.limited s) := rfl

/-- Settles O51: power-up by what its images pass, the removal of power by what it keeps, a thermal limit cell by cell. -/
theorem powerEvents : Obligations.PowerEvents := by
  unfold Obligations.PowerEvents
  refine ⟨fun s hp => ?up, fun s hp => ?again, fun s => ?down, fun s d n hc h4 hpres hle hsum => ?limit, fun s => ⟨_, exec_thermalLimit s, foldl_keep State.mem State.limited State.limited_mem _ s⟩⟩
  case up =>
    show execPowerUp s = _
    unfold execPowerUp
    rw [if_neg hp]
    cases s.bringUpFails s.arg.caps.images <;> rfl
  case again => exact if_pos hp
  case down =>
    simp only [List.forall_mem_cons, List.not_mem_nil, false_implies, implies_true, and_true]
    exact ⟨⟨_, rfl, rfl, rfl, rfl, rfl, rfl, s.unpowered_read⟩, ⟨_, rfl, rfl, rfl, rfl, rfl, rfl, s.unpowered_read⟩⟩
  case limit =>
    rw [exec_thermalLimit, hc]
    show Host.Outcome.next (s.limited (d, n)) = _
    unfold State.limited
    rw [if_pos]
    rw [hpres, Bool.true_and, decide_eq_true_eq]
    exact ⟨h4, hle, hsum⟩

end Sys2Proof.Machine
end

section
/-! What a fence's completion and a lane's rollback leave (R113 to R115, R124). -/

namespace Sys2Proof.Machine

/-! Region entries. -/

theorem Group.enterAt_new {g : Group} {ls : List Nat} (rpc seq : Nat) (dep : Nat → Nat) (h : ls ≠ []) :
    g.enterAt ls rpc seq dep none =
      { g.setLanes (ls.filter (fun l => decide ((g.lane l).rseq ≤ seq))) (fun l x => { x with rpc := rpc, rctr := (g.regc + 1) % 2 ^ 64, rdep := dep l, rseq := seq }) with
        regc := (g.regc + 1) % 2 ^ 64, binds := g.binds.map (fun b => { b with hist := ((g.regc + 1) % 2 ^ 64, b.pos) :: b.hist }) } := by
  have hne : ls.isEmpty = false := List.isEmpty_eq_false_iff.mpr h
  unfold Group.enterAt
  simp only [hne, Bool.false_eq_true, if_false, Option.getD_none, Option.isSome_none]

/-- A group whose fence has completed, before its region entry. -/
def Group.fenceGone (g : Group) (c : Nat) (f : Fence) : Group :=
  { g with fences := g.fences.eraseIdx c, sbuf := g.sbuf.map (fun (b : BufStore) => if b.lane ∈ f.lanes then { b with held := none } else b) }

/-- The depth that a fence's snapshot of a lane holds. -/
def Fence.depth (f : Fence) (l : Nat) : Nat := ((f.snaps.find? (fun k => k.lane == l)).map (·.dep)).getD 0

/-- A completion that surfaces no deferred fault. -/
theorem Group.fenceEnds_clean {g : Group} (c : Nat) {f : Fence} (h : g.fenceFaults f = []) : g.fenceEnds c f = (g.fenceGone c f).enterAt f.lanes (f.pc + f.len) f.seq f.depth none := by
  have hd : (fun l => match f.snaps.find? (fun k => k.lane == l) with | some k => k.dep | none => 0) = f.depth := by
    funext l
    unfold Fence.depth
    cases f.snaps.find? (fun k => k.lane == l) <;> rfl
  have hok : f.lanes.filter (fun _ => true) = f.lanes := List.filter_eq_self.mpr fun _ _ => rfl
  have hs : g.sbuf.filter (fun _ => true) = g.sbuf := List.filter_eq_self.mpr fun _ _ => rfl
  unfold Group.fenceEnds Group.fenceGone
  simp only [h, List.any_nil, Bool.false_and, Bool.not_false, hok, hs, List.contains_iff_mem]
  exact congrArg (fun dep => Group.enterAt _ f.lanes (f.pc + f.len) f.seq dep none) hd

/-! Rollback. -/

/-- A key that a filter of keys keeps reads as before. -/
theorem SMap.get_filterKeys {α : Type} (d : α) (m : SMap α) {p : Nat → Bool} {a : Nat} (h : p a = true) : SMap.get d (m.filter (fun q => p q.1)) a = SMap.get d m a := by
  unfold SMap.get
  induction m with
  | nil => rfl
  | cons q m ih =>
    obtain ⟨k, b⟩ := q
    cases hk : p k with
    | true =>
      rw [List.filter_cons_of_pos (by exact hk)]
      simp only [AMap.get?]
      by_cases ha : k = a
      · simp [ha]
      · simpa only [ha, if_false] using ih
    | false =>
      have ha : k ≠ a := fun he => by rw [he, h] at hk; cases hk
      rw [List.filter_cons_of_neg (by simp [hk]), ih]
      simp only [AMap.get?, ha, if_false]

/-- Writes at other keys leave a key as it was. -/
theorem SMap.get_foldl_put_ne {α : Type} [DecidableEq α] (d : α) (xs : List (Nat × α)) (m : SMap α) {a : Nat} (h : ∀ p ∈ xs, a ≠ p.1) :
    SMap.get d (xs.foldl (fun m p => SMap.put d m p.1 p.2) m) a = SMap.get d m a := by
  induction xs generalizing m with
  | nil => rfl
  | cons x xs ih =>
    rw [List.forall_mem_cons] at h
    rw [List.foldl_cons, ih _ h.2, SMap.get_put_ne _ _ _ _ _ h.1]

/-- A lane's mask bits as a snapshot holds them. -/
def Group.bitsBack (g : Group) (l : Nat) (k : FenceSnap) : Group := (List.range 8).foldl (fun (g : Group) n => if n = 0 then g else g.putBit n l (k.m.contains n)) g

theorem Group.bitsBack_lanes (g : Group) (l : Nat) (k : FenceSnap) : (g.bitsBack l k).lanes = g.lanes := foldl_keep Group.lanes _ (fun h n => by split <;> rfl) _ _

/-- The group in which lane l of fence number c stands at its FENCE again, as snapshot k holds it. -/
def Group.rolledBack (g : Group) (c : Nat) (f : Fence) (l : Nat) (k : FenceSnap) : Group :=
  let f1 : Fence := { f with lanes := f.lanes.erase l, hit := f.hit.erase l, lines := f.lines.filter (fun p => p.1 != l), snaps := f.snaps.filter (fun x => x.lane != l) }
  { ((g.bitsBack l k).setLanes [l] (fun _ x => { x with st := .priv, pc := f.pc, dep := k.dep })) with
    v := k.v.foldl (fun m p => SMap.put 0 m p.1 p.2) (g.v.filter (fun p => p.1 / 64 != l)),
    ve := g.ve.filter (fun p => p.1 / 64 != l),
    thr := g.thr.filter (fun t => t.lane != l),
    blocked := (g.blocked.map (fun (b : Blocked) => { b with lanes := b.lanes.filter (· != l) })).filter (fun b => !b.lanes.isEmpty),
    sbuf := g.sbuf.filter (fun b => !(b.lane == l && b.held.isSome)),
    fences := if f1.lanes.isEmpty then g.fences.eraseIdx c else g.fences.set c f1 }

section
variable (g : Group) (c : Nat) (f : Fence) (l : Nat) (k : FenceSnap)

theorem Group.rolledBack_lane (j : Nat) : (g.rolledBack c f l k).lane j = if j = l ∧ j < g.lanes.length then { g.lane j with st := .priv, pc := f.pc, dep := k.dep } else g.lane j := by
  refine (Group.lane_congr (h := (g.bitsBack l k).setLanes [l] (fun _ x => { x with st := .priv, pc := f.pc, dep := k.dep })) rfl j).trans ?_
  rw [Group.lane_setLanes, Group.bitsBack_lanes, Group.lane_congr (g.bitsBack_lanes l k) j]
  exact if_congr (and_congr_left' List.mem_singleton) rfl rfl

theorem Group.rolledBack_getV {j n : Nat} (hj : j ≠ l) (hn : n < 64) (hk : ∀ p ∈ k.v, p.1 / 64 = l) : (g.rolledBack c f l k).getV j n = g.getV j n := by
  have hdiv : (64 * j + n) / 64 = j := by omega
  refine (SMap.get_foldl_put_ne (0 : Word) k.v _ fun p hp he => hj ?_).trans (SMap.get_filterKeys (0 : Word) g.v (p := fun q => q / 64 != l) (by rw [hdiv]; exact bne_iff_ne.mpr hj))
  rw [← hk p hp, ← he, hdiv]

theorem Group.rolledBack_sbuf : ∀ b ∈ (g.rolledBack c f l k).sbuf, ¬(b.lane = l ∧ b.held.isSome = true) := by
  rintro b hb ⟨hl, hh⟩
  have := (List.mem_filter.mp hb).2
  rw [hl, hh, beq_self_eq_true] at this
  cases this

theorem Group.rolledBack_blocked : ∀ b ∈ (g.rolledBack c f l k).blocked, l ∉ b.lanes := by
  intro b hb hl
  obtain ⟨b0, -, rfl⟩ := List.mem_map.mp (List.mem_filter.mp hb).1
  have := (List.mem_filter.mp hl).2
  rw [bne_self_eq_false] at this
  cases this

end

/-- FENCE_ROLLBACK of a lane that a change of a line it has read has reached. -/
theorem fenceRollback_runs {s : State} {u : WorkUnit} {g : Group} {f : Fence} {k : FenceSnap} (ht : s.target = some (u, g)) (hf : g.fences[s.arg.c]? = some f) (hh : s.arg.d ∈ f.hit) (hs : u.stop = [])
    (ha : g.awaiting [s.arg.d] = false) (hk : f.snaps.find? (fun k => k.lane == s.arg.d) = some k) :
    exec .fenceRollback s = .next (s.setUnit (u.setGroup s.arg.b (g.rolledBack s.arg.c f s.arg.d k))) := by
  obtain ⟨hu, hg⟩ := State.target_some ht
  have hc : f.hit.contains s.arg.d = true := List.contains_iff_mem.mpr hh
  show execFenceRollback s = _
  unfold execFenceRollback
  simp only [ht, hf, hc, hs, ha, hk, Bool.not_true, List.isEmpty_nil, Bool.or_self, Bool.false_eq_true, if_false]
  unfold State.onGroup
  rw [State.onUnit_eq hu, WorkUnit.onGroup_eq hg]
  rfl

/-- Settles O43: what completes and what rolls back, by the group that each leaves. -/
theorem fenceEvents : Obligations.FenceEvents := by
  unfold Obligations.FenceEvents
  refine ⟨fun s u g f ht hf hh hs hw => ?completes, fun g c f hf hne hclean => ?clean, fun s u g f k ht hf hh hs ha hk hlen hid => ?rollback⟩
  case completes =>
    intro failed h
    show execFenceCompletion s = _
    unfold execFenceCompletion
    simp only [ht, hf, hh, hs, hw, List.isEmpty_nil, Bool.not_true, Bool.or_self, Bool.false_eq_true, if_false]
    rfl
  case clean =>
    intro h
    have heq : h = (g.fenceGone c f).enterAt f.lanes (f.pc + f.len) f.seq f.depth none := g.fenceEnds_clean c hclean
    rw [Group.enterAt_new _ _ _ hne] at heq
    refine ⟨by rw [heq]; rfl, by rw [heq]; rfl, by rw [heq]; rfl, fun l hl => ?_, fun b hb => ?_⟩
    · rw [heq]
      refine (Group.lane_congr (h := (g.fenceGone c f).setLanes (f.lanes.filter (fun l => decide (((g.fenceGone c f).lane l).rseq ≤ f.seq)))
        (fun l x => { x with rpc := f.pc + f.len, rctr := (g.regc + 1) % 2 ^ 64, rdep := f.depth l, rseq := f.seq })) rfl l).trans ?_
      rw [Group.lane_setLanes]
      refine if_congr ?_ rfl rfl
      rw [List.mem_filter, decide_eq_true_eq]
      exact and_iff_left hl
    · rw [heq] at hb
      obtain ⟨b0, -, rfl⟩ := List.mem_map.mp hb
      rfl
  case rollback =>
    obtain ⟨hu, hg⟩ := State.target_some ht
    have hlane := g.rolledBack_lane s.arg.c f s.arg.d k
    have hself := hlane s.arg.d
    rw [if_pos ⟨rfl, hlen⟩] at hself
    refine ⟨_, u.setGroup s.arg.b (g.rolledBack s.arg.c f s.arg.d k), g.rolledBack s.arg.c f s.arg.d k, fenceRollback_runs ht hf hh hs ha hk, ?_, WorkUnit.group_setGroup_self hg,
      by rw [hself], by rw [hself], by rw [hself], fun l hl => ?_, fun l n hl hn hv => g.rolledBack_getV _ _ _ _ hl hn hv, rfl, g.rolledBack_sbuf _ _ _ _, g.rolledBack_blocked _ _ _ _⟩
    · have := State.unit?_setUnit_self s (u.setGroup s.arg.b (g.rolledBack s.arg.c f s.arg.d k))
      rwa [WorkUnit.setGroup_uid, hid] at this
    · rw [hlane, if_neg (fun h => hl h.1)]

end Sys2Proof.Machine
end

section
/-! Stores that reach their home, and what the other events of memory leave (R27, R44, R106, R107, R116, R117, R121, R318). -/

namespace Sys2Proof.Machine

/-! Lists. -/

theorem AMap.get?_map_snd {α β : Type} (m : AMap α) (f : α → β) (k : Nat) : AMap.get? (m.map (fun p => (p.1, f p.2))) k = (AMap.get? m k).map f := by
  induction m with
  | nil => rfl
  | cons p m ih =>
    obtain ⟨j, v⟩ := p
    rw [List.map_cons]
    simp only [AMap.get?]
    split
    · rfl
    · exact ih

theorem AMap.length_set_le {α : Type} (m : AMap α) (n : Nat) (v : α) : (AMap.set m n v).length ≤ m.length + 1 := by
  have hins (m : AMap α) : (AMap.insertAt n v m).length = m.length + 1 := by
    induction m with
    | nil => rfl
    | cons p m ih =>
      obtain ⟨j, w⟩ := p
      simp only [AMap.insertAt]
      split
      · rfl
      · rw [List.length_cons, ih, List.length_cons]
  have her : (AMap.erase m n).length ≤ m.length := List.length_filter_le _ _
  unfold AMap.set
  rw [hins]
  omega

/-- The first of a list's members that satisfy a test, taken away. -/
theorem findIdx?_eraseIdx {α : Type} {p : α → Bool} {xs : List α} {i : Nat} (h : xs.findIdx? p = some i) :
    ∃ x, xs[i]? = some x ∧ p x = true ∧ xs.filter p = x :: (xs.eraseIdx i).filter p ∧ (xs.eraseIdx i).filter (fun y => !(p y)) = xs.filter (fun y => !(p y)) := by
  induction xs generalizing i with
  | nil => cases h
  | cons y ys ih =>
    rw [List.findIdx?_cons] at h
    cases hy : p y with
    | true =>
      simp only [hy, if_true, Option.some.injEq] at h
      subst h
      exact ⟨y, rfl, hy, List.filter_cons_of_pos hy, by simp [hy]⟩
    | false =>
      simp only [hy, Bool.false_eq_true, if_false] at h
      obtain ⟨j, hj, rfl⟩ := Option.map_eq_some_iff.mp h
      obtain ⟨x, hx, hpx, hf, hn⟩ := ih hj
      refine ⟨x, hx, hpx, ?_, ?_⟩
      · rw [List.filter_cons_of_neg (by simp [hy]), hf, List.eraseIdx_cons_succ, List.filter_cons_of_neg (by simp [hy])]
      · rw [List.eraseIdx_cons_succ, List.filter_cons_of_pos (by simp [hy]), hn, List.filter_cons_of_pos (by simp [hy])]

theorem filter_of_findIdx?_none {α : Type} {p : α → Bool} {xs : List α} (h : xs.findIdx? p = none) : xs.filter p = [] ∧ xs.filter (fun y => !(p y)) = xs := by
  have hall := List.findIdx?_eq_none_iff.mp h
  exact ⟨List.filter_eq_nil_iff.mpr fun x hx => by simp [hall x hx], List.filter_eq_self.mpr fun x hx => by simp [hall x hx]⟩

/-! What tells fences of a change, and directories of a scope, leaves store buffers, memory and pending stores as they are. -/

/-- A state as another in memory, pending stores, dies, ports, the move, and in every unit's place and store buffers. -/
def State.buffersOf (s t : State) : Prop :=
  t.mem = s.mem ∧ t.pend = s.pend ∧ t.dies = s.dies ∧ t.portUp = s.portUp ∧ t.arg = s.arg ∧ ∀ k u, s.unit? k = some u → ∃ v, t.unit? k = some v ∧ v.uid = u.uid ∧ v.core = u.core ∧
    ∀ i g, u.group i = some g → ∃ h, v.group i = some h ∧ h.sbuf = g.sbuf

theorem State.buffersOf_refl (s : State) : s.buffersOf s := ⟨rfl, rfl, rfl, rfl, rfl, fun _ u hu => ⟨u, hu, rfl, rfl, fun _ g hg => ⟨g, hg, rfl⟩⟩⟩

theorem State.buffersOf_trans {s t r : State} (h1 : s.buffersOf t) (h2 : t.buffersOf r) : s.buffersOf r := by
  obtain ⟨m1, p1, d1, o1, a1, u1⟩ := h1
  obtain ⟨m2, p2, d2, o2, a2, u2⟩ := h2
  refine ⟨m2.trans m1, p2.trans p1, d2.trans d1, o2.trans o1, a2.trans a1, fun k u hu => ?_⟩
  obtain ⟨v, hv, vid, vcore, vg⟩ := u1 k u hu
  obtain ⟨w, hw, wid, wcore, wg⟩ := u2 k v hv
  refine ⟨w, hw, wid.trans vid, wcore.trans vcore, fun i g hg => ?_⟩
  obtain ⟨h, hh, hs⟩ := vg i g hg
  obtain ⟨h', hh', hs'⟩ := wg i h hh
  exact ⟨h', hh', hs'.trans hs⟩

theorem State.hitFences_buffers (s : State) (keys : List Nat) : s.buffersOf (s.hitFences keys) := by
  refine ⟨rfl, rfl, rfl, rfl, rfl, fun k u hu => ⟨{ u with groups := u.groups.map (fun (g : Group) => g.hitFences (linesOf keys)) }, ?_, rfl, rfl, fun i g hg => ⟨g.hitFences (linesOf keys), ?_, rfl⟩⟩⟩
  · exact (AMap.get?_map_snd s.units (fun (u : WorkUnit) => { u with groups := u.groups.map (fun (g : Group) => g.hitFences (linesOf keys)) }) k).trans (congrArg (Option.map _) hu)
  · show (u.groups.map (fun g => g.hitFences (linesOf keys)))[i]? = _
    rw [List.getElem?_map, show u.groups[i]? = some g from hg]
    rfl

theorem State.evictLine_buffers (s : State) (line : Nat) : s.buffersOf (s.evictLine line) :=
  State.buffersOf_trans (t := { s with dir := AMap.erase s.dir line }) s.buffersOf_refl (State.hitFences_buffers _ _)

theorem State.makeRoom_buffers (s : State) (line home : Nat) : s.buffersOf (s.makeRoom line home) := by
  unfold State.makeRoom
  split
  · exact s.buffersOf_refl
  · dsimp only
    split
    · exact s.buffersOf_refl
    · split
      · exact s.evictLine_buffers _
      · exact s.buffersOf_refl

theorem State.entryFor_buffers (s : State) (line home : Nat) : s.buffersOf (s.entryFor line home).1 := by
  unfold State.entryFor
  split
  · exact s.buffersOf_refl
  · exact s.makeRoom_buffers line home

theorem State.setScope_buffers (s : State) (r : Nat × Nat) (scope inst : Nat) : s.buffersOf (s.setScope r scope inst) :=
  State.buffersOf_trans (s.entryFor_buffers r.1 r.2) (State.buffersOf_refl _)

theorem State.setScopes_buffers (rs : List (Nat × Nat)) (scope inst : Nat) (s : State) : s.buffersOf (rs.foldl (fun (s : State) k => s.setScope k scope inst) s) := by
  induction rs generalizing s with
  | nil => exact s.buffersOf_refl
  | cons r rs ih => exact State.buffersOf_trans (s.setScope_buffers r scope inst) (ih _)

theorem State.homeDown_buffers {s t : State} (h : s.buffersOf t) (rs : List (Nat × Nat)) : t.homeDown rs = s.homeDown rs := by
  obtain ⟨-, -, hd, hp, -, -⟩ := h
  unfold State.homeDown State.die
  rw [hd, hp]

/-! Scope records. -/

/-- A directory with room: the record of a line is set in its entry. -/
theorem State.setScope_dir {s : State} (r : Nat × Nat) (scope inst : Nat) (h : s.dir.length < 65536) :
    ∃ e : DirEntry, e.scope = some ⟨scope, inst⟩ ∧ (s.setScope r scope inst).dir = AMap.set s.dir r.1 e := by
  unfold State.setScope State.entryFor
  cases AMap.get? s.dir r.1 with
  | some e => exact ⟨_, rfl, rfl⟩
  | none =>
    have hroom : s.makeRoom r.1 r.2 = s := by
      unfold State.makeRoom
      rw [if_pos]
      simp [h]
    dsimp only
    rw [hroom]
    exact ⟨_, rfl, rfl⟩

theorem State.scopeOf_of_dir {s : State} {line : Nat} {e : DirEntry} (h : AMap.get? s.dir line = some e) : s.scopeOf line = e.scope := by
  unfold State.scopeOf
  rw [h]
  rfl

/-- Every line of a release has its record, where the directory has room for them all; a record of its own that a line had stays. -/
theorem State.setScopes_scopeOf (rs : List (Nat × Nat)) (scope inst : Nat) {s : State} (h : s.dir.length + rs.length ≤ 65536) :
    (∀ k ∈ rs, (rs.foldl (fun (s : State) k => s.setScope k scope inst) s).scopeOf k.1 = some ⟨scope, inst⟩) ∧
      ∀ line, s.scopeOf line = some ⟨scope, inst⟩ → (rs.foldl (fun (s : State) k => s.setScope k scope inst) s).scopeOf line = some ⟨scope, inst⟩ := by
  induction rs generalizing s with
  | nil => exact ⟨fun _ hk => absurd hk List.not_mem_nil, fun _ hl => hl⟩
  | cons r rs ih =>
    rw [List.length_cons] at h
    obtain ⟨e, he, hdir⟩ := State.setScope_dir r scope inst (s := s) (by omega)
    have hlen : (s.setScope r scope inst).dir.length + rs.length ≤ 65536 := by
      have := AMap.length_set_le s.dir r.1 e
      rw [hdir]
      omega
    have hself : (s.setScope r scope inst).scopeOf r.1 = some ⟨scope, inst⟩ := by
      rw [State.scopeOf_of_dir (e := e) (by rw [hdir]; exact AMap.get?_set_self _ _ _), he]
    have hstay (line : Nat) (hl : s.scopeOf line = some ⟨scope, inst⟩) : (s.setScope r scope inst).scopeOf line = some ⟨scope, inst⟩ := by
      by_cases hr : line = r.1
      · rw [hr]; exact hself
      · unfold State.scopeOf at hl ⊢
        rw [hdir, AMap.get?_set_ne _ _ _ _ hr]
        exact hl
    obtain ⟨hall, hkeep⟩ := ih hlen
    refine ⟨fun k hk => ?_, fun line hl => hkeep line (hstay line hl)⟩
    rcases List.mem_cons.mp hk with rfl | hk
    · exact hkeep _ hself
    · exact hall k hk

/-! One store applied. -/

/-- The state in which entry i of a buffer, `b`, has been taken and fences and, for a release, its lines' records have been told. -/
def State.taken (s : State) (u : WorkUnit) (grp : Nat) (g : Group) (i : Nat) (b : BufStore) : State :=
  let s1 := (s.setUnit (u.setGroup grp { g with sbuf := g.sbuf.eraseIdx i })).hitFences (s.landing b.repl b.keys b.bytes).1
  if b.rel = 0 then s1 else b.recs.foldl (fun (s : State) k => s.setScope k b.rel (scopeInst b.rel u grp b.lane)) s1

/-- The pending store that it becomes. -/
def State.pending (s : State) (u : WorkUnit) (uid grp : Nat) (b : BufStore) (s2 : State) : PendStore :=
  { uid := uid, grp := grp, die := u.die, keys := b.keys, bytes := b.bytes, rel := b.rel, lane := b.lane, repl := b.repl, seqd := if b.repl then some s.nextSeq else none, port := none,
    unacked := s2.sharersOf (s.landing b.repl b.keys b.bytes).1, recs := b.recs }

section
variable {s : State} {uid grp i : Nat} {u : WorkUnit} {g : Group} {b : BufStore} (hu : s.unit? uid = some u) (hg : u.group grp = some g) (hb : g.sbuf[i]? = some b)
include hu hg hb

/-- A store whose home can be reached, with no scope in its way, stands pending. -/
theorem State.applyAt_performed (hd : b.repl = true ∨ s.homeDown b.recs = false) (hs : b.rel = 0 ∨ ∀ k ∈ b.recs, s.scopeOk u grp b.lane b.rel k.1 = true) :
    s.applyAt uid grp i = { s.taken u grp g i b with pend := (s.taken u grp g i b).pend ++ [s.pending u uid grp b (s.taken u grp g i b)], nextSeq := if b.repl then s.nextSeq + 1 else s.nextSeq } := by
  have hdown : (!b.repl && s.homeDown b.recs) = false := by rcases hd with h | h <;> simp [h]
  have hscope : (b.rel != 0 && b.recs.any (fun k => !(s.scopeOk u grp b.lane b.rel k.1))) = false := by
    rcases hs with h | h
    · simp [h]
    · rw [Bool.and_eq_false_iff]
      exact .inr (List.any_eq_false.mpr fun k hk => by simp [h k hk])
  unfold State.applyAt
  simp only [hu, Option.bind_some, hg, Option.map_some, hb, hdown, hscope, Bool.false_eq_true, if_false]
  rfl

/-- A store that fails at its home: the lanes whose access it is fault with the code. -/
theorem State.applyAt_fails {code : Nat} (h : code = 0x0E ∧ b.repl = false ∧ s.homeDown b.recs = true ∨
      code = 0x07 ∧ (b.repl = true ∨ s.homeDown b.recs = false) ∧ b.rel ≠ 0 ∧ ∃ k ∈ b.recs, s.scopeOk u grp b.lane b.rel k.1 = false) :
    s.applyAt uid grp i = (s.setUnit (u.setGroup grp { g with sbuf := g.sbuf.eraseIdx i })).onUnit uid
      (fun u => u.laneFaults s.cycle grp (some (b.at_, b.seq)) ((b.lane :: b.others).map (fun l => (l, lf code b.addr true)))) := by
  unfold State.applyAt
  simp only [hu, Option.bind_some, hg, Option.map_some, hb]
  rcases h with ⟨rfl, hr, hd⟩ | ⟨rfl, hd, hrel, k, hk, hsc⟩
  · rw [if_pos (by simp [hr, hd])]
  · have hany : b.recs.any (fun k => !(s.scopeOk u grp b.lane b.rel k.1)) = true := List.any_eq_true.mpr ⟨k, hk, by rw [hsc]; rfl⟩
    rw [if_neg (by rcases hd with h | h <;> simp [h]), if_pos (by simp [hrel, hany])]

end

/-- The taken entry leaves the buffers but its own, memory and pending stores as they are. -/
theorem State.taken_buffers (s : State) (u : WorkUnit) (grp : Nat) (g : Group) (i : Nat) (b : BufStore) :
    (s.setUnit (u.setGroup grp { g with sbuf := g.sbuf.eraseIdx i })).buffersOf (s.taken u grp g i b) := by
  unfold State.taken
  dsimp only
  split
  · exact State.hitFences_buffers _ _
  · exact State.buffersOf_trans (State.hitFences_buffers _ _) (State.setScopes_buffers _ _ _ _)

/-- A store of an issue that is not held past a fence. -/
def ofIssue (seq : Nat) (b : BufStore) : Bool := b.seq == seq && b.held.isNone

/-- What a pending store is, its sharers and its number aside. -/
def PendStore.what (p : PendStore) : Nat × Nat × Nat × List Nat × List Byte × Nat × Nat × Bool × Option Nat := (p.uid, p.grp, p.die, p.keys, p.bytes, p.rel, p.lane, p.repl, p.port)

/-- What a relaxed store of a buffer becomes. -/
def BufStore.what (b : BufStore) (uid grp die : Nat) : Nat × Nat × Nat × List Nat × List Byte × Nat × Nat × Bool × Option Nat := (uid, grp, die, b.keys, b.bytes, 0, b.lane, b.repl, none)

/-- The unit and the group after an entry has been taken. -/
theorem State.taken_unit {s : State} {u : WorkUnit} {grp : Nat} {g : Group} (hg : u.group grp = some g) (i : Nat) (b : BufStore) :
    ∃ v h, (s.taken u grp g i b).unit? u.uid = some v ∧ v.uid = u.uid ∧ v.core = u.core ∧ v.group grp = some h ∧ h.sbuf = g.sbuf.eraseIdx i := by
  obtain ⟨-, -, -, -, -, hunits⟩ := s.taken_buffers u grp g i b
  obtain ⟨v, hv, hid, hcore, hgs⟩ := hunits u.uid _ (State.unit?_setUnit_self s (u.setGroup grp { g with sbuf := g.sbuf.eraseIdx i }))
  obtain ⟨h, hh, hs⟩ := hgs grp _ (WorkUnit.group_setGroup_self hg)
  exact ⟨v, h, hv, hid, hcore, hh, hs⟩

/-- The relaxed stores of an issue, whose homes can be reached, all stand pending, in the order of the buffer. -/
theorem applyIssue_relaxed {uid grp seq : Nat} (n : Nat) {s : State} {u : WorkUnit} {g : Group} (hu : s.unit? uid = some u) (hid : u.uid = uid) (hg : u.group grp = some g)
    (hn : (g.sbuf.filter (ofIssue seq)).length ≤ n) (hall : ∀ x ∈ g.sbuf.filter (ofIssue seq), x.rel = 0 ∧ (x.repl = true ∨ s.homeDown x.recs = false)) :
    ∃ v h, (State.applyIssue n s uid grp seq).unit? uid = some v ∧ v.group grp = some h ∧ (State.applyIssue n s uid grp seq).mem = s.mem ∧ h.sbuf = g.sbuf.filter (fun x => !(ofIssue seq x)) ∧
      (State.applyIssue n s uid grp seq).pend.map PendStore.what = s.pend.map PendStore.what ++ (g.sbuf.filter (ofIssue seq)).map (fun x => x.what uid grp u.die) := by
  induction n generalizing s u g with
  | zero =>
    have hnil : g.sbuf.filter (ofIssue seq) = [] := List.length_eq_zero_iff.mp (Nat.le_zero.mp hn)
    refine ⟨u, g, hu, hg, rfl, ?_, ?_⟩
    · exact (List.filter_eq_self.mpr fun x hx => by simpa using List.filter_eq_nil_iff.mp hnil x hx).symm
    · rw [hnil, List.map_nil, List.append_nil]; rfl
  | succ n ih =>
    have hfind : ((s.unit? uid).bind (·.group grp)).bind (fun g => g.sbuf.findIdx? (fun b => b.seq == seq && b.held.isNone)) = g.sbuf.findIdx? (ofIssue seq) := by
      rw [hu, Option.bind_some, hg]; rfl
    unfold State.applyIssue
    rw [hfind]
    cases hi : g.sbuf.findIdx? (ofIssue seq) with
    | none =>
      obtain ⟨hnil, hself⟩ := filter_of_findIdx?_none hi
      exact ⟨u, g, hu, hg, rfl, hself.symm, by rw [hnil, List.map_nil, List.append_nil]⟩
    | some i =>
      obtain ⟨b, hb, -, hf, hnf⟩ := findIdx?_eraseIdx hi
      rw [hf, List.forall_mem_cons] at hall
      obtain ⟨⟨hrel, hdown⟩, hrest⟩ := hall
      obtain ⟨v, h, hv, hvid, hvcore, hh, hhs⟩ := State.taken_unit (s := s) hg i b
      have hbuf := s.taken_buffers u grp g i b
      have happ := State.applyAt_performed hu hg hb hdown (.inl hrel)
      rw [hf, List.length_cons] at hn
      obtain ⟨v1, h1, hv1, hh1, hm1, hs1, hp1⟩ := ih (s := s.applyAt uid grp i) (u := v) (g := h) (by rw [happ, ← hid]; exact hv) (hvid.trans hid) hh (by rw [hhs]; omega)
        (fun x hx => by
          rw [hhs] at hx
          obtain ⟨h1, h2⟩ := hrest x hx
          refine ⟨h1, h2.imp_right fun h2 => ?_⟩
          have : (s.applyAt uid grp i).homeDown x.recs = s.homeDown x.recs := by rw [happ]; exact State.homeDown_buffers hbuf x.recs
          rw [this, h2])
      dsimp only
      refine ⟨v1, h1, hv1, hh1, ?_, ?_, ?_⟩
      · rw [hm1, happ]; exact hbuf.1
      · rw [hs1, hhs, hnf]
      · have hdie : v.die = u.die := by unfold WorkUnit.die; rw [hvcore]
        rw [hp1, hhs, hf, hdie, happ, List.map_cons]
        show (List.map PendStore.what ((s.taken u grp g i b).pend ++ [s.pending u uid grp b (s.taken u grp g i b)])) ++ _ = _
        rw [hbuf.2.1, List.map_append, List.append_assoc]
        have : (s.pending u uid grp b (s.taken u grp g i b)).what = b.what uid grp u.die := by
          unfold PendStore.what State.pending BufStore.what
          rw [hrel]
        rw [List.map_singleton, this]
        rfl

/-! An issue of one store. -/

theorem mem_of_filter_single {α : Type} {p : α → Bool} {xs : List α} {x : α} (h : xs.filter p = [x]) : x ∈ xs := List.mem_of_mem_filter (p := p) (by rw [h]; exact List.mem_singleton.mpr rfl)

/-- The one store of an issue is the one that is applied. -/
theorem applyIssue_single {s : State} {uid grp seq : Nat} {u : WorkUnit} {g : Group} {b : BufStore} (hu : s.unit? uid = some u) (hg : u.group grp = some g) (hone : g.sbuf.filter (ofIssue seq) = [b]) :
    ∃ i, g.sbuf[i]? = some b ∧ (g.sbuf.eraseIdx i).filter (ofIssue seq) = [] ∧
      ((∃ v h, (s.applyAt uid grp i).unit? uid = some v ∧ v.group grp = some h ∧ h.sbuf.filter (ofIssue seq) = []) → State.applyIssue g.sbuf.length s uid grp seq = s.applyAt uid grp i) := by
  have hfind (s : State) (u : WorkUnit) (g : Group) (hu : s.unit? uid = some u) (hg : u.group grp = some g) :
      ((s.unit? uid).bind (·.group grp)).bind (fun g => g.sbuf.findIdx? (fun b => b.seq == seq && b.held.isNone)) = g.sbuf.findIdx? (ofIssue seq) := by
    rw [hu, Option.bind_some, hg]; rfl
  cases hi : g.sbuf.findIdx? (ofIssue seq) with
  | none => rw [(filter_of_findIdx?_none hi).1] at hone; cases hone
  | some i =>
    obtain ⟨x, hx, -, hf, -⟩ := findIdx?_eraseIdx hi
    rw [hone, List.cons.injEq] at hf
    obtain ⟨rfl, hnil⟩ := hf
    refine ⟨i, hx, hnil.symm, ?_⟩
    rintro ⟨v, h, hv, hh, hno⟩
    obtain ⟨n, hn⟩ : ∃ n, g.sbuf.length = n + 1 := Nat.exists_eq_add_one.mpr (List.length_pos_of_mem (mem_of_filter_single hone))
    have hnone : h.sbuf.findIdx? (ofIssue seq) = none := List.findIdx?_eq_none_iff.mpr fun y hy => by simpa using List.filter_eq_nil_iff.mp hno y hy
    have hstop (m : Nat) : State.applyIssue m (s.applyAt uid grp i) uid grp seq = s.applyAt uid grp i := by
      cases m with
      | zero => rfl
      | succ m => unfold State.applyIssue; rw [hfind _ v h hv hh, hnone]
    rw [hn]
    unfold State.applyIssue
    rw [hfind s u g hu hg, hi]
    exact hstop n

/-- Faults that reach a lane which has met none: its record, and what they leave of the group's store buffer. -/
theorem WorkUnit.laneFaults_records {u : WorkUnit} {grp l : Nat} {g : Group} {fs : List (Nat × LFault)} {q : LFault} (cycle pc seq : Nat) (hg : u.group grp = some g) (hl : (g.lane l).st.live = true)
    (hf : l ∉ u.faulted grp) (hm : (l, q) ∈ fs) :
    ∃ h, (u.laneFaults cycle grp (some (pc, seq)) fs).uid = u.uid ∧ (u.laneFaults cycle grp (some (pc, seq)) fs).group grp = some h ∧ h.sbuf.Sublist g.sbuf ∧
      ∃ r ∈ (u.laneFaults cycle grp (some (pc, seq)) fs).stop, r.grp = grp ∧ r.lane = l ∧ r.code = q.code ∧ r.ss = q.ss ∧ r.pc = pc ∧ r.addr = q.addr := by
  have hm' : (l, q) ∈ fs.filter (fun p => (g.lane p.1).st.live && !((u.faulted grp).contains p.1)) := by
    refine List.mem_filter.mpr ⟨hm, ?_⟩
    rw [hl, Bool.true_and, Bool.not_eq_true', List.contains_eq_mem, decide_eq_false_iff_not]
    exact hf
  have hne : (fs.filter (fun p => (g.lane p.1).st.live && !((u.faulted grp).contains p.1))).isEmpty = false := List.isEmpty_eq_false_iff.mpr (List.ne_nil_of_mem hm')
  have hback (ls : List Nat) : (g.backTo ls pc (some seq)).sbuf = g.sbuf := by unfold Group.backTo; split <;> rfl
  unfold WorkUnit.laneFaults
  simp only [hg, hne, Bool.false_eq_true, if_false]
  refine ⟨_, rfl, WorkUnit.group_setGroup_self hg, ?_, _, List.mem_append_right _ (List.mem_map.mpr ⟨(l, q), hm', rfl⟩), rfl, rfl, rfl, rfl, rfl, rfl⟩
  rw [← hback]
  exact List.filter_sublist

section
variable {s : State} {uid grp seq : Nat} {u : WorkUnit} {g : Group} {b : BufStore} (hu : s.unit? uid = some u) (hid : u.uid = uid) (hg : u.group grp = some g) (hone : g.sbuf.filter (ofIssue seq) = [b])
include hu hid hg hone

/-- The one store of an issue stands pending where its home can be reached and no scope is in its way; a release leaves its records. -/
theorem applyIssue_performed (hd : b.repl = true ∨ s.homeDown b.recs = false) (hs : b.rel = 0 ∨ ∀ k ∈ b.recs, s.scopeOk u grp b.lane b.rel k.1 = true) :
    ∃ i, (State.applyIssue g.sbuf.length s uid grp seq).mem = s.mem ∧ (State.applyIssue g.sbuf.length s uid grp seq).pend = s.pend ++ [s.pending u uid grp b (s.taken u grp g i b)] ∧
      (b.rel ≠ 0 → s.dir.length + b.recs.length ≤ 65536 → ∀ k ∈ b.recs, (State.applyIssue g.sbuf.length s uid grp seq).scopeOf k.1 = some ⟨b.rel, scopeInst b.rel u grp b.lane⟩) := by
  obtain ⟨i, hb, hnil, hrun⟩ := applyIssue_single hu hg hone
  have happ := State.applyAt_performed hu hg hb hd hs
  have hbuf := s.taken_buffers u grp g i b
  obtain ⟨v, h, hv, -, -, hh, hhs⟩ := State.taken_unit (s := s) hg i b
  rw [hrun ⟨v, h, by rw [happ, ← hid]; exact hv, hh, by rw [hhs, hnil]⟩, happ]
  refine ⟨i, hbuf.1, congrArg (· ++ [_]) hbuf.2.1, fun hrel hroom => ?_⟩
  have : s.taken u grp g i b = b.recs.foldl (fun (s : State) k => s.setScope k b.rel (scopeInst b.rel u grp b.lane))
      ((s.setUnit (u.setGroup grp { g with sbuf := g.sbuf.eraseIdx i })).hitFences (s.landing b.repl b.keys b.bytes).1) := if_neg hrel
  have hscopes := (State.setScopes_scopeOf b.recs b.rel (scopeInst b.rel u grp b.lane)
    (s := (s.setUnit (u.setGroup grp { g with sbuf := g.sbuf.eraseIdx i })).hitFences (s.landing b.repl b.keys b.bytes).1) hroom).1
  rw [← this] at hscopes
  exact hscopes

/-- The one store of an issue fails at its home: nothing is written, and its lane has the record. -/
theorem applyIssue_fails {code : Nat} (h : code = 0x0E ∧ b.repl = false ∧ s.homeDown b.recs = true ∨
      code = 0x07 ∧ (b.repl = true ∨ s.homeDown b.recs = false) ∧ b.rel ≠ 0 ∧ ∃ k ∈ b.recs, s.scopeOk u grp b.lane b.rel k.1 = false)
    (hl : (g.lane b.lane).st.live = true) (hf : b.lane ∉ u.faulted grp) :
    ∃ v, (State.applyIssue g.sbuf.length s uid grp seq).mem = s.mem ∧ (State.applyIssue g.sbuf.length s uid grp seq).pend = s.pend ∧ (State.applyIssue g.sbuf.length s uid grp seq).unit? uid = some v ∧
      ∃ r ∈ v.stop, r.grp = grp ∧ r.lane = b.lane ∧ r.code = code ∧ r.ss = true ∧ r.pc = b.at_ ∧ r.addr = b.addr := by
  obtain ⟨i, hb, hnil, hrun⟩ := applyIssue_single hu hg hone
  set u1 := u.setGroup grp { g with sbuf := g.sbuf.eraseIdx i } with hu1
  have hget : (s.setUnit u1).unit? uid = some u1 := by rw [← hid]; exact State.unit?_setUnit_self s u1
  have hg1 : u1.group grp = some { g with sbuf := g.sbuf.eraseIdx i } := WorkUnit.group_setGroup_self hg
  have happ := State.applyAt_fails hu hg hb h
  rw [← hu1, State.onUnit_eq hget] at happ
  obtain ⟨h1, hvid, hh, hsub, hrec⟩ := u1.laneFaults_records (l := b.lane) (q := lf code b.addr true) s.cycle b.at_ b.seq hg1 hl hf
    (List.mem_map.mpr ⟨b.lane, List.mem_cons_self, rfl⟩ : (b.lane, lf code b.addr true) ∈ (b.lane :: b.others).map (fun l => (l, lf code b.addr true)))
  have hv := State.unit?_setUnit_self (s.setUnit u1) (u1.laneFaults s.cycle grp (some (b.at_, b.seq)) ((b.lane :: b.others).map (fun l => (l, lf code b.addr true))))
  rw [hvid, show u1.uid = uid from hid] at hv
  have hno : h1.sbuf.filter (ofIssue seq) = [] := by
    refine List.filter_eq_nil_iff.mpr fun x hx => ?_
    exact List.filter_eq_nil_iff.mp hnil x (hsub.subset hx)
  rw [hrun ⟨_, h1, by rw [happ]; exact hv, hh, hno⟩, happ]
  exact ⟨_, rfl, rfl, hv, hrec⟩

end

/-- HOME_APPLY of an issue that may be applied. -/
theorem homeApply_runs {s : State} {u : WorkUnit} {g : Group} {b : BufStore} (ht : s.target = some (u, g)) (hb : g.sbuf[s.arg.c]? = some b) (hh : b.held = none)
    (hall : ∀ x ∈ g.together b.seq, s.mayApply s.arg.a s.arg.b g x = true) : exec .homeApply s = .next (State.applyIssue g.sbuf.length s s.arg.a s.arg.b b.seq) := by
  show execHomeApply s = _
  unfold execHomeApply
  simp only [ht, hb, hh, Option.isNone_none, Bool.true_and, List.all_eq_true.mpr hall, if_true]

/-- Settles O42: arrivals, spills, fills, commits and evictions by their guards; an issue that is applied store by store. -/
theorem memoryEvents : Obligations.MemoryEvents := by
  unfold Obligations.MemoryEvents
  refine ⟨fun s u g pr ht hi hp hb => ?arrival, fun s u g ht hr hs => ?spill, fun s u g ht hr hs => ?fill, fun s u g b ht hid hb hh hall => ?apply, fun s p hp hq hu hk => ?commit,
    fun s p n hp hq hu hlow => ?update, fun s p hp hu => ?waits, fun s e he hk hu => ?evicts, fun s h => ?keeps⟩
  case arrival =>
    show execLoadValueArrival s = _
    have hpeer : pr.parts.any (fun p => p.peer.isSome) = false := List.any_eq_false.mpr fun p hpm => by simp [hp p hpm]
    unfold execLoadValueArrival
    simp only [ht, hi, hpeer, hb, Bool.or_self, Bool.false_eq_true, if_false]
  case spill =>
    show execRegisterSpill s = _
    unfold execRegisterSpill
    simp only [ht, hr, hs, ne_eq, not_true_eq_false, Bool.false_eq_true, or_self, if_false, Bool.or_eq_true]
    split <;> rfl
  case fill =>
    show execRegisterFill s = _
    unfold execRegisterFill
    simp only [ht, hr, hs, ne_eq, not_true_eq_false, Bool.not_true, Bool.false_eq_true, or_self, if_false, Bool.or_eq_true]
    split <;> rfl
  case apply =>
    obtain ⟨hu, hg⟩ := State.target_some ht
    have hx := homeApply_runs ht hb hh hall
    have htog : g.together b.seq = g.sbuf.filter (ofIssue b.seq) := rfl
    rw [htog]
    refine ⟨fun hrel => ?relaxed, fun hone hne hd hs => ?release, fun hone hr hd hl hf => ?down, fun hone hne hd hs hl hf => ?scope⟩
    case relaxed =>
      obtain ⟨v, h, hv, hh, hm, hs, hp⟩ := applyIssue_relaxed g.sbuf.length hu hid hg (List.length_filter_le _ _) hrel
      exact ⟨_, v, h, hx, hv, hh, hm, hs, hp⟩
    case release =>
      obtain ⟨i, hm, hp, hscope⟩ := applyIssue_performed hu hid hg hone hd (.inr hs)
      exact ⟨_, _, hx, hm, hp, rfl, hscope hne⟩
    case down =>
      obtain ⟨v, hm, hp, hv, hrec⟩ := applyIssue_fails hu hid hg hone (.inl ⟨rfl, hr, hd⟩) hl hf
      exact ⟨_, v, hx, hm, hp, hv, hrec⟩
    case scope =>
      obtain ⟨v, hm, hp, hv, hrec⟩ := applyIssue_fails hu hid hg hone (.inr ⟨rfl, hd, hne, hs⟩) hl hf
      exact ⟨_, v, hx, hm, hp, hv, hrec⟩
  case commit =>
    have hmay : s.mayCommit s.arg.a p = true := by
      unfold State.mayCommit
      rw [hu, List.isEmpty_nil, Bool.true_and, Bool.not_eq_true', List.any_eq_false]
      intro q hq hany
      obtain ⟨k, hkq, hkp⟩ := List.any_eq_true.mp hany
      exact hk q hq k hkq (List.contains_iff_mem.mp hkp)
    show execStoreCommit s = _
    unfold execStoreCommit State.commitAt
    simp only [hp, hq, hmay, Option.isSome_none, Bool.not_true, Bool.or_self, Bool.false_eq_true, if_false]
  case update =>
    have hany : s.pend.any (fun q => match q.seqd with | some m => decide (m < n) | none => false) = false := by
      refine List.any_eq_false.mpr fun q hqm => ?_
      cases hqs : q.seqd with
      | none => exact Bool.false_ne_true
      | some m =>
        have := hlow q hqm m hqs
        simp only [decide_eq_true_eq]
        omega
    show execReplicatedUpdate s = _
    unfold execReplicatedUpdate
    rw [hp]
    dsimp only
    rw [hq]
    refine if_neg ?_
    rw [hu, List.isEmpty_nil, Bool.not_true, Bool.false_or]
    exact fun h => absurd (h.symm.trans hany) (by decide)
  case waits =>
    have hne : p.unacked.isEmpty = false := List.isEmpty_eq_false_iff.mpr hu
    constructor
    · show execStoreCommit s = _
      unfold execStoreCommit State.mayCommit
      simp only [hp, hne, Bool.false_and, Bool.not_false, Bool.or_true, if_true]
    · show execReplicatedUpdate s = _
      unfold execReplicatedUpdate
      cases hq : p.seqd with
      | none => simp only [hp, hq]
      | some n => simp only [hp, hq, hne, Bool.not_false, Bool.true_or, if_true]
  case evicts =>
    have hmay : s.mayEvict s.arg.a = true := by
      unfold State.mayEvict
      rw [he, decide_eq_true hk, hu]
      rfl
    exact congrArg Host.Outcome.next (if_pos hmay)
  case keeps =>
    have hmay : ¬s.mayEvict s.arg.a = true := by
      unfold State.mayEvict
      rw [Bool.and_eq_true, Bool.and_eq_true, decide_eq_true_eq, Bool.not_eq_true']
      rintro ⟨⟨-, hk⟩, hu⟩
      rcases h with h | h
      · omega
      · rw [h] at hu; cases hu
    exact congrArg Host.Outcome.next (if_neg hmay)

end Sys2Proof.Machine
end

section
/-! The Ovoft Link: acknowledgements, replies, peers' accesses, timeouts (R122 to R124, R351 to R353). -/

namespace Sys2Proof.Machine

/-! What leaves the posted stores as they are. -/

theorem State.aside_posted : State.Aside State.posted := ⟨fun _ _ => rfl, fun _ _ => rfl, fun _ _ => rfl, fun _ _ => rfl⟩

theorem State.fire_posted (s : State) (m : Nat) (msg : List Byte) : (s.fire m msg).posted = s.posted := by
  unfold State.fire
  split
  · unfold State.hold State.setMbxField
    rw [State.wr8_posted, State.setMbx_posted]
  · rfl

theorem State.toSupervisor_posted (s : State) (part : Nat) (msg : List Byte) : (s.toSupervisor part msg).posted = s.posted := by
  unfold State.toSupervisor
  dsimp only
  split
  · rfl
  · split
    · exact s.fire_posted _ _
    · rfl

theorem State.noteWalk_posted (s : State) (u : WorkUnit) (a : Nat) : (s.noteWalk u a).posted = s.posted := by
  unfold State.noteWalk
  split
  · split
    · split <;> rfl
    · rfl
  · rfl

theorem State.cmdRoute_posted (s : State) (k : EngId) (c : Command) (part code addr : Nat) (ss : Bool) : (s.cmdRoute k c part code addr ss).posted = s.posted := by
  have hnote : (match s.unit? c.uid with | some u => if code = 0x05 then s.noteWalk u addr else s | none => s).posted = s.posted := by
    split
    · split
      · exact s.noteWalk_posted _ _
      · rfl
    · rfl
  unfold State.cmdRoute
  rw [← hnote]
  dsimp only
  split
  · split
    · rfl
    · exact (State.toSupervisor_posted _ _ _).trans (State.ctxFail_aside State.aside_posted _ _ _ _ _ _)
  · exact (State.toSupervisor_posted _ _ _).trans (State.ctxFail_aside State.aside_posted _ _ _ _ _ _)
  · exact State.ctxFail_aside State.aside_posted _ _ _ _ _ _

theorem State.sendFails_posted (s : State) (k : EngId) (c : Command) (e : Nat × Nat × Nat) : (s.sendFails k c e).posted = s.posted :=
  (State.cmdRoute_posted _ _ _ _ _ _ _).trans rfl

theorem State.sendsTimeOut_posted (s : State) (dev : Nat) : (s.sendsTimeOut dev).posted = s.posted := by
  refine foldl_keep State.posted _ (fun t p => foldl_keep State.posted _ (fun r c => ?_) _ _) _ _
  split
  · split
    · rfl
    · exact r.sendFails_posted _ _ _
  · rfl

/-- A fold none of whose steps changes the start. -/
theorem foldl_fixed {α β : Type} {k : β → α → β} {xs : List α} {b : β} (h : ∀ x ∈ xs, k b x = b) : xs.foldl k b = b := by
  induction xs with
  | nil => rfl
  | cons x xs ih =>
    rw [List.forall_mem_cons] at h
    rw [List.foldl_cons, h.1, ih h.2]

/-- Where no command has a write on its way to a device, its timeout stops none. -/
theorem State.sendsTimeOut_none {s : State} {dev : Nat} (h : ∀ p ∈ s.engines, ∀ c ∈ p.2.cmds, ∀ e ∈ c.sent, e.1 ≠ dev) : s.sendsTimeOut dev = s := by
  refine foldl_fixed fun p hp => foldl_fixed fun c hc => ?_
  have hnone : c.sent.find? (fun e => e.1 == dev) = none := List.find?_eq_none.mpr fun e he => by simp [h p hp c hc e he]
  rw [hnone]

/-! A route that times out. -/

theorem State.deferTo_aside {γ : Type} {m : State → γ} (h : State.Aside m) (s : State) (p : Posted) (reason : Nat) : m (s.deferTo p reason) = m s := State.onUnit_aside h _ _ _

theorem State.onUnit_engines (s : State) (uid : Nat) (f : WorkUnit → WorkUnit) : (s.onUnit uid f).engines = s.engines := by
  unfold State.onUnit
  split <;> rfl

/-- What the timeout of a route does to the groups that wait for its device leaves what is no unit's. -/
theorem exec_routeTimeout (s : State) : ∃ t, exec .routeTimeout s = .next t ∧ ∀ {γ : Type} {m : State → γ}, State.Aside m →
    m t = m (((s.posted.filter (fun p => p.dev == s.arg.a)).foldl (fun (s : State) p => s.deferTo p 0x0E) { s with posted := s.posted.filter (fun p => p.dev != s.arg.a) }).sendsTimeOut s.arg.a) := by
  refine ⟨_, rfl, fun {γ m} h => foldl_keep m _ (fun t uid => ?_) _ _⟩
  split
  · rfl
  · refine foldl_keep m _ (fun r i => ?_) _ _
    split
    · rfl
    · exact (foldl_keep m _ (fun q x => State.onUnit_aside h q _ _) _ _).trans (State.onUnit_aside h r _ _)

/-- What the deferred faults of posted stores leave: everything but units. -/
theorem State.deferAll_aside {γ : Type} {m : State → γ} (h : State.Aside m) (ps : List Posted) (s : State) : m (ps.foldl (fun (s : State) p => s.deferTo p 0x0E) s) = m s :=
  foldl_keep m _ (fun t p => State.deferTo_aside h t p 0x0E) ps s

/-! Accesses of peers. -/

theorem upFrom_length (k n : Nat) : (upFrom k n).length = n := by
  unfold upFrom
  rw [List.length_map, List.length_range]

/-- Only operation 8 of an incoming atomic may write nothing. -/
theorem peerOp_writes (op old ex : Nat) : (peerOp op).writes old ex = false ↔ op = 8 ∧ old ≠ ex := by
  by_cases h : op = 8
  · subst h
    show (old == ex) = false ↔ 8 = 8 ∧ old ≠ ex
    rw [beq_eq_false_iff_ne]
    exact (and_iff_right rfl).symm
  · have hw : (peerOp op).writes old ex = true := by
      unfold peerOp
      split
      case h_8 => exact absurd rfl h
      all_goals rfl
    rw [hw]
    exact ⟨fun hf => absurd hf (by decide), fun h8 => absurd h8.1 h⟩

/-- The lines of an incoming access with their home dies. -/
def peerRecs (keys : List Nat) : List (Nat × Nat) := (linesOf keys).map (fun k => (k, if 128 * k < 2 ^ 42 then 128 * k / 2 ^ 40 else 4))

theorem State.setScope_arg (s : State) (r : Nat × Nat) (scope inst : Nat) : (s.setScope r scope inst).arg = s.arg := by
  obtain ⟨-, -, -, -, harg, -⟩ := s.setScope_buffers r scope inst
  exact harg

/-- A fold whose steps leave the argument of the move reads it at the start as well as at each step. -/
theorem State.foldl_arg {β : Type} {g : EvArg → State → β → State} (hg : ∀ a t r, (g a t r).arg = t.arg) (rs : List β) (s : State) :
    rs.foldl (fun t r => g t.arg t r) s = rs.foldl (g s.arg) s := by
  induction rs generalizing s with
  | nil => rfl
  | cons r rs ih => rw [List.foldl_cons, List.foldl_cons, ih, hg]

/-- Records set for a peer: its number stands in the state through them all. -/
theorem State.setPeerScopes (rs : List (Nat × Nat)) (q : PeerReq) (s : State) :
    rs.foldl (fun (s : State) r => s.setScope r q.scope (peerInst s.arg.a q q.scope)) s = rs.foldl (fun (t : State) r => t.setScope r q.scope (peerInst s.arg.a q q.scope)) s :=
  State.foldl_arg (g := fun a t r => t.setScope r q.scope (peerInst a.a q q.scope)) (fun _ t r => t.setScope_arg r _ _) rs s

/-- What an incoming access that passes its check comes to. -/
def State.peerRuns (s : State) (q : PeerReq) : Out :=
  let keys := upFrom q.pa (peerLen q)
  if s.pend.any (fun p => p.keys.any keys.contains) then .next s else
  if q.scope != 0 && (peerRecs keys).any (fun r => !(s.peerScopeOk s.arg.a q r.1)) then .next { s with out := s.out ++ [.peerReply s.arg.a 0x07 []] } else
  let t := (if q.scope = 0 then s else (peerRecs keys).foldl (fun (t : State) r => t.setScope r q.scope (peerInst s.arg.a q q.scope)) s).peerDoes q keys
  .next { t.1 with out := t.1.out ++ [.peerReply s.arg.a 0 t.2] }

theorem exec_peerAccess {s : State} {q : PeerReq} (hq : s.arg.req = some q) (hn : peerLen q ≤ 256) :
    exec .peerAccess s = if s.peerCheck s.arg.a q.pa (peerLen q) = 0 then s.peerRuns q else .next { s with out := s.out ++ [.peerReply s.arg.a (s.peerCheck s.arg.a q.pa (peerLen q)) []] } := by
  show execPeerAccess s = _
  unfold execPeerAccess
  rw [hq]
  refine (if_neg (not_lt.mpr hn)).trans ?_
  split
  next h => rw [if_pos h]; rfl
  next h => rw [if_neg h]

/-- No store on its way stands before an access that shares no byte with any. -/
theorem State.pend_clear {s : State} {keys : List Nat} (h : ∀ p ∈ s.pend, ∀ k ∈ p.keys, k ∉ keys) : s.pend.any (fun p => p.keys.any keys.contains) = false :=
  List.any_eq_false.mpr fun p hp hany => by
    obtain ⟨k, hk, hkc⟩ := List.any_eq_true.mp hany
    exact h p hp k hk (List.contains_iff_mem.mp hkc)

section
variable {s : State} {q : PeerReq} (hp : ∀ p ∈ s.pend, ∀ k ∈ p.keys, k ∉ upFrom q.pa (peerLen q))
include hp

/-- An incoming acquire or release that a line's record refuses. -/
theorem State.peerRuns_refused (hs : q.scope ≠ 0) (hbad : ∃ r ∈ peerRecs (upFrom q.pa (peerLen q)), s.peerScopeOk s.arg.a q r.1 = false) :
    s.peerRuns q = .next { s with out := s.out ++ [.peerReply s.arg.a 0x07 []] } := by
  obtain ⟨r, hr, hrs⟩ := hbad
  have hany : (peerRecs (upFrom q.pa (peerLen q))).any (fun r => !(s.peerScopeOk s.arg.a q r.1)) = true := List.any_eq_true.mpr ⟨r, hr, by rw [hrs]; rfl⟩
  unfold State.peerRuns
  rw [if_neg (by rw [State.pend_clear hp]; exact Bool.false_ne_true), if_pos (by rw [hany, Bool.and_true, bne_iff_ne]; exact hs)]

/-- An incoming access that no record refuses is performed and answered. -/
theorem State.peerRuns_performed (hs : q.scope = 0 ∨ ∀ r ∈ peerRecs (upFrom q.pa (peerLen q)), s.peerScopeOk s.arg.a q r.1 = true) :
    s.peerRuns q = .next ((fun t : State × List Byte => { t.1 with out := t.1.out ++ [.peerReply s.arg.a 0 t.2] })
      ((if q.scope = 0 then s else (peerRecs (upFrom q.pa (peerLen q))).foldl (fun (t : State) r => t.setScope r q.scope (peerInst s.arg.a q q.scope)) s).peerDoes q (upFrom q.pa (peerLen q)))) := by
  have hok : (q.scope != 0 && (peerRecs (upFrom q.pa (peerLen q))).any (fun r => !(s.peerScopeOk s.arg.a q r.1))) = false := by
    rcases hs with h | h
    · simp [h]
    · rw [Bool.and_eq_false_iff]
      exact .inr (List.any_eq_false.mpr fun r hr => by simp [h r hr])
  unfold State.peerRuns
  rw [if_neg (by rw [State.pend_clear hp]; exact Bool.false_ne_true), if_neg (by rw [hok]; exact Bool.false_ne_true)]

end

/-- What an incoming access does, by its kind. -/
theorem State.peerDoes_eq (s : State) (q : PeerReq) (pa n : Nat) (out : State × List Byte → State) : out (s.peerDoes q (upFrom pa n)) =
    let keys := upFrom pa n
    let old := keys.map (Memory.read s.mem)
    let r (op size : Nat) := atomNew (peerOp op) n (intTy size).sgn (leNat old) (leNat (q.data.take n)) (leNat ((q.data.drop n).take n))
    match q.kind with
    | .load => out (s, old)
    | .store => out ((s.hitFences keys).expose 4 keys (q.data.take n), [])
    | .join lt => out ((s.hitFences keys).joinCell 4 lt keys (leNat (q.data.take n)), [])
    | .atomic op size => if op = 8 ∧ leNat old ≠ leNat ((q.data.drop n).take n) then out (s, old) else out ((s.hitFences keys).expose 4 keys (leBytes n (r op size).1), old) := by
  unfold State.peerDoes
  rw [upFrom_length]
  cases q.kind with
  | load => rfl
  | store => rfl
  | join lt => rfl
  | atomic op size =>
    dsimp only
    rw [apply_ite out]
    exact if_congr (by rw [Bool.not_eq_true']; exact peerOp_writes _ _ _) rfl rfl

/-- Settles O44: answers by their guards; a peer's access by its check, its scope and its kind; a timeout changes units alone but for the stores that it drops. -/
theorem linkEvents : Obligations.LinkEvents := by
  unfold Obligations.LinkEvents
  refine ⟨fun s p hf hp => ?posted, fun s c e rest hf hc he => ?sent, fun s u g r ht hi hr ha => ?reads, fun s u g pr ht hi hp hl => ?reply, fun s q hq hn => ?long, fun s q hq hn => ?access, fun s => ?timeout⟩
  case posted =>
    intro s1
    show execPostedStoreAcknowledgement s = _
    unfold execPostedStoreAcknowledgement
    simp only [hf, hp, Bool.false_eq_true, if_false]
    cases (if s.routeDead p.dev then some 0x0E else s.arg.reason) <;> rfl
  case sent =>
    show execPostedStoreAcknowledgement s = _
    unfold execPostedStoreAcknowledgement State.sendAnswered
    simp only [hf, if_true, hc, he, Bool.or_eq_true]
  case reads =>
    intro r1
    show execPeerReply s = _
    unfold execPeerReply
    simp only [ht, List.getElem?_eq_none hi, hr, ha, Option.isSome_none, Bool.false_eq_true, if_false]
    rfl
  case reply =>
    have hall : pr.parts.all (fun p => p.peer.isSome) = true := List.all_eq_true.mpr hp
    have hdead : (pr.parts.any (fun p => match p.peer with | some d => s.routeDead d | none => false)) = true ↔ ∃ p ∈ pr.parts, ∃ d ∈ p.peer, s.routeDead d = true := by
      rw [List.any_eq_true]
      refine exists_congr fun p => and_congr_right fun _ => ?_
      cases p.peer <;> simp
    show execPeerReply s = _
    unfold execPeerReply
    simp only [ht, hi]
    have hlen : ((if (pr.parts.any (fun p => match p.peer with | some d => s.routeDead d | none => false)) = true then pr.parts.map (fun _ => PeerPart.failed 0x0E) else s.arg.parts).length != pr.parts.length) = false := by
      rw [bne_eq_false_iff_eq]
      split
      · exact List.length_map _
      · exact hl
    rw [if_neg]
    · exact congrArg (fun x => Host.Outcome.next (s.replied s.arg.a s.arg.b s.arg.c pr x)) (if_congr hdead rfl rfl)
    · rw [hall, Bool.not_true, Bool.false_or]
      exact fun h => Bool.false_ne_true (hlen.symm.trans h)
  case long =>
    show execPeerAccess s = _
    unfold execPeerAccess
    simp only [hq, if_pos hn]
  case access =>
    intro n keys recs
    refine ⟨fun hc => ?refused, fun hc hp hs hbad => ?scope, fun hc hp hs => ?runs⟩
    case refused => rw [exec_peerAccess hq hn, if_neg hc]
    case scope => rw [exec_peerAccess hq hn, if_pos hc, State.peerRuns_refused hp hs hbad]
    case runs =>
      intro s0 s1 old r
      rw [exec_peerAccess hq hn, if_pos hc, State.peerRuns_performed hp hs, ← State.setPeerScopes]
      refine (congrArg Host.Outcome.next (State.peerDoes_eq s0 q q.pa (peerLen q) (fun t => { t.1 with out := t.1.out ++ [.peerReply s.arg.a 0 t.2] }))).trans ?_
      cases q.kind <;> rfl
  case timeout =>
    obtain ⟨t, hx, hm⟩ := exec_routeTimeout s
    refine ⟨t, hx, ?_, fun hsent => ?_⟩
    · rw [hm State.aside_posted, State.sendsTimeOut_posted, State.deferAll_aside State.aside_posted]
    · rw [hm State.aside_mem, State.sendsTimeOut_none, State.deferAll_aside State.aside_mem]
      have heng : ((s.posted.filter (fun p => p.dev == s.arg.a)).foldl (fun (s : State) p => s.deferTo p 0x0E) { s with posted := s.posted.filter (fun p => p.dev != s.arg.a) }).engines = s.engines :=
        foldl_keep State.engines _ (fun t p => State.onUnit_engines t _ _) _ _
      rw [heng]
      exact hsent

end Sys2Proof.Machine
end

section
/-! The ferry's events (O45): rounds of dies, chunks, domain rounds, and a device lost and reached again. -/

namespace Sys2Proof.Machine

/-! The list of exchanges. -/

theorem State.ferry_names (s : State) (ctx seg : Nat) : (s.ferry ctx seg).ctx = ctx ∧ (s.ferry ctx seg).seg = seg := by
  unfold State.ferry
  cases hf : s.ferries.find? (fun f => f.ctx == ctx && f.seg == seg) with
  | none => exact ⟨rfl, rfl⟩
  | some f => simpa using List.find?_some hf

/-- Replacing every hit of a list by an entry that hits itself leaves that entry the first hit. -/
theorem find?_map_replace {α : Type} (hit : α → Bool) {y : α} (hy : hit y = true) {xs : List α} (hany : xs.any hit = true) :
    (xs.map (fun x => if hit x then y else x)).find? hit = some y := by
  have hcomp : hit ∘ (fun x => if hit x then y else x) = hit := funext fun x => by
    by_cases hx : hit x = true
    · simp [hx, hy]
    · simp [hx]
  rw [List.find?_map, hcomp]
  cases hf : xs.find? hit with
  | none =>
    obtain ⟨x, hx, hxh⟩ := List.any_eq_true.mp hany
    exact absurd hxh (List.find?_eq_none.mp hf x hx)
  | some x => simp [List.find?_some hf]

/-- An exchange that is put is the one then found. -/
theorem State.ferry_setFerry (s : State) (f : Ferry) : (s.setFerry f).ferry f.ctx f.seg = f := by
  have hself : (f.ctx == f.ctx && f.seg == f.seg) = true := by simp
  unfold State.setFerry State.ferry
  split
  next hany =>
    dsimp only
    rw [find?_map_replace (fun x : Ferry => x.ctx == f.ctx && x.seg == f.seg) hself hany]
    rfl
  next hnone =>
    have hf : s.ferries.find? (fun x => x.ctx == f.ctx && x.seg == f.seg) = none :=
      List.find?_eq_none.mpr fun x hx hxh => hnone (List.any_eq_true.mpr ⟨x, hx, hxh⟩)
    dsimp only
    rw [List.find?_append, hf, List.find?_cons_of_pos (p := fun x : Ferry => x.ctx == f.ctx && x.seg == f.seg) hself]
    rfl

/-- Whether the dies that stand at the positions serve. -/
def State.allServe (s : State) (ps : List Nat) : Bool := ps.all (fun q => match s.presentDies[q]? with | some e => (s.die e).state == 1 | none => true)

/-- Positions whose dies all serve leave the state as it is; else the partner under reset is reported. -/
theorem State.partners_reported (s t : State) (ps : List Nat) :
    (if s.allServe ps then s else t) =
      if ∃ q ∈ ps, ∃ e ∈ s.presentDies[q]?, (s.die e).state ≠ 1 then t else s := by
  have hall : s.allServe ps = true ↔ ¬∃ q ∈ ps, ∃ e ∈ s.presentDies[q]?, (s.die e).state ≠ 1 := by
    unfold State.allServe
    rw [List.all_eq_true]
    push Not
    refine forall₂_congr fun q _ => ?_
    cases s.presentDies[q]? with
    | none => simp
    | some e => simp
  by_cases h : ∃ q ∈ ps, ∃ e ∈ s.presentDies[q]?, (s.die e).state ≠ 1
  · rw [if_pos h, if_neg (fun ha => hall.mp ha h)]
  · rw [if_neg h, if_pos (hall.mpr h)]

/-! Rounds of dies. -/

section
variable {s : State} {g : Seg} (hg : s.latSeg s.arg.a s.arg.b = some g) (hd : (s.die s.arg.c).state = 1)
include hg hd

theorem exec_ferryRoundStart_busy (hb : ((s.ferry s.arg.a s.arg.b).die s.arg.c).busy = true) :
    exec .ferryRoundStart s = .next (s.ferryWithout g (s.ferry s.arg.a s.arg.b) s.arg.c (fun t => (s.die t).state != 1)) := by
  show execFerryRoundStart s = _
  unfold execFerryRoundStart
  simp only [hg, hd, hb, bne_self_eq_false, Bool.false_eq_true, if_false, if_true]

theorem exec_ferryRoundStart_hub (hb : ((s.ferry s.arg.a s.arg.b).die s.arg.c).busy = false)
    (hhub : g.pair = 2 ∧ s.position s.arg.c = 0 ∧ 1 < s.presentDies.length) :
    let f := s.ferry s.arg.a s.arg.b
    let x := f.die s.arg.c
    let x1 : FerryDie := { x with busy := true, sent := false, unacked := 0, awaits := s.partners f (upFrom 1 (s.presentDies.length - 1)) x.round, catchup := x.catchup.filter (fun r => decide (x.round < r + 1)),
                                  snaps := (s.replica f.ctx s.arg.c g :: x.snaps).take 2 }
    let s0 := if s.allServe (upFrom 1 (s.presentDies.length - 1)) then s else s.report 102 f.seg
    exec .ferryRoundStart s = .next (s0.scatter g (f.setDie s.arg.c x1) s.arg.c) := by
  obtain ⟨hpair, hpos, hn⟩ := hhub
  have hL : roundsFor 2 s.presentDies.length = 1 := by
    unfold roundsFor
    rw [if_neg (not_le.mpr hn)]
    rfl
  have hrec (r : Nat) : receivesFrom 2 s.presentDies.length 0 r = upFrom 1 (s.presentDies.length - 1) := by
    unfold receivesFrom
    rw [if_neg (not_le.mpr hn)]
    rfl
  have hsend (r : Nat) : sendsTo 2 s.presentDies.length 0 r = [] := by
    unfold sendsTo
    rw [if_neg (not_le.mpr hn)]
    rfl
  intro f x x1 s0
  show execFerryRoundStart s = _
  unfold execFerryRoundStart
  simp only [hg, hd, hb, bne_self_eq_false, Bool.false_eq_true, if_false, hpair, hpos, hn, beq_self_eq_true, decide_true, Bool.and_self, if_true, Bool.not_true, hL, hrec, hsend,
    List.append_nil]
  rfl

theorem exec_ferryRoundStart_ordinary (hb : ((s.ferry s.arg.a s.arg.b).die s.arg.c).busy = false)
    (hhub : ¬(g.pair = 2 ∧ s.position s.arg.c = 0 ∧ 1 < s.presentDies.length)) :
    let f := s.ferry s.arg.a s.arg.b
    let x := f.die s.arg.c
    let n := s.presentDies.length
    let from_ := receivesFrom g.pair n (s.position s.arg.c) x.round
    let to_ := sendsTo g.pair n (s.position s.arg.c) x.round
    let x1 : FerryDie := { x with busy := true, sent := true, unacked := 0, awaits := s.partners f from_ x.round, catchup := x.catchup.filter (fun r => decide (x.round < r + roundsFor g.pair n)),
                                  snaps := (s.replica f.ctx s.arg.c g :: x.snaps).take (roundsFor g.pair n + 1) }
    let s0 := if s.allServe (from_ ++ to_) then s else s.report 102 f.seg
    let r := s0.sendChunks g (f.setDie s.arg.c x1) s.arg.c (s.partners f to_ x.round)
    exec .ferryRoundStart s = .next (r.1.setFerry (f.setDie s.arg.c r.2.settle)) := by
  have hh : (g.pair == 2 && s.position s.arg.c == 0 && decide (1 < s.presentDies.length)) = false := by
    rw [Bool.eq_false_iff]
    intro h
    refine hhub ?_
    simpa [and_assoc] using h
  intro f x n from_ to_ x1 s0 r
  show execFerryRoundStart s = _
  unfold execFerryRoundStart
  simp only [hg, hd, hb, bne_self_eq_false, Bool.false_eq_true, if_false, hh, Bool.not_false]
  rfl

end

/-! Chunks. -/

theorem exec_ferryChunkReceive {s : State} {c : Chunk} {g : Seg} (hc : s.chunks[s.arg.a]? = some c) (hg : s.latTable c.ctx c.seg = some g) (hd : (s.die c.dst).state = 1)
    (hlast : c.last = true → (∀ k ∈ s.chunks.take s.arg.a, ¬(k.ctx = c.ctx ∧ k.seg = c.seg ∧ k.src = c.src ∧ k.dst = c.dst)) ∧ ((s.ferry c.ctx c.seg).die c.dst).busy = true ∧
      ((s.ferry c.ctx c.seg).die c.dst).round = c.round ∧ c.src ∈ ((s.ferry c.ctx c.seg).die c.dst).awaits) :
    let f := s.ferry c.ctx c.seg
    let x := f.die c.src
    let f1 := f.setDie c.src ({ x with unacked := x.unacked - 1 } : FerryDie).settle
    let f2 := if c.last then f1.setDie c.dst { f1.die c.dst with awaits := (f1.die c.dst).awaits.erase c.src } else f1
    exec .ferryChunkReceive s = .next ((State.joinBytes { s with chunks := s.chunks.eraseIdx s.arg.a } c.ctx c.dst g (c.num * g.chunkLen) c.bytes).scatter g f2 c.dst) := by
  intro f x f1 f2
  have hgo : (c.last && ((s.chunks.take s.arg.a).any (fun k => k.ctx == c.ctx && k.seg == c.seg && k.src == c.src && k.dst == c.dst) ||
      !(((s.ferry c.ctx c.seg).die c.dst).busy && ((s.ferry c.ctx c.seg).die c.dst).round == c.round && ((s.ferry c.ctx c.seg).die c.dst).awaits.contains c.src))) = false := by
    cases hcl : c.last with
    | false => rfl
    | true =>
      obtain ⟨hfirst, hbusy, hround, hsrc⟩ := hlast hcl
      have hany : (s.chunks.take s.arg.a).any (fun k => k.ctx == c.ctx && k.seg == c.seg && k.src == c.src && k.dst == c.dst) = false :=
        List.any_eq_false.mpr fun k hk h => hfirst k hk (by simpa [and_assoc] using h)
      rw [hany, hbusy, hround, List.contains_iff_mem.mpr hsrc, beq_self_eq_true]
      rfl
  show execFerryChunkReceive s = _
  unfold execFerryChunkReceive
  simp only [hc, hg, hd, bne_self_eq_false, Bool.false_eq_true, if_false, hgo]
  rfl

/-! Domain rounds. -/

/-- A domain round counts itself done, and leaves the dies' parts of the exchange as they are. -/
theorem exec_domainRound {s : State} {g : Seg} {p : Nat} (hg : s.latSeg s.arg.a s.arg.b = some g) (hdx : g.dx = true) (hdom : field s.domid 10 1 = 1)
    (hp : (s.exchangeSet g.dev).idxOf? (field s.domid 0 10) = some p) (hd : (s.die (s.domDie g)).state = 1)
    (hround : (s.ferry s.arg.a s.arg.b).domDone * roundsFor g.pair s.presentDies.length < ((s.ferry s.arg.a s.arg.b).die (s.domDie g)).round) :
    ∃ t f, exec .domainRound s = .next (State.setFerry t f) ∧ f.ctx = (s.ferry s.arg.a s.arg.b).ctx ∧ f.seg = (s.ferry s.arg.a s.arg.b).seg ∧
      f.domRound = (s.ferry s.arg.a s.arg.b).domRound + 1 ∧ f.domCatchup = (s.ferry s.arg.a s.arg.b).domCatchup - 1 ∧
      f.domDone = (s.ferry s.arg.a s.arg.b).domDone + 1 ∧ f.dies = (s.ferry s.arg.a s.arg.b).dies := by
  have hgo : (!g.dx || decide (field s.domid 10 1 = 0) || (s.die (s.domDie g)).state != 1 ||
      decide (((s.ferry s.arg.a s.arg.b).die (s.domDie g)).round ≤ (s.ferry s.arg.a s.arg.b).domDone * roundsFor g.pair s.presentDies.length)) = false := by
    rw [hdx, hdom, hd, decide_eq_false (not_le.mpr hround)]
    rfl
  show ∃ t f, execDomainRound s = _ ∧ _
  unfold execDomainRound
  simp only [hg, hp, hgo, Bool.false_eq_true, if_false]
  exact ⟨_, _, rfl, rfl, rfl, rfl, rfl, rfl, rfl⟩

/-! A device lost and reached again. -/

theorem exec_ovoftLinkLoss {s : State} (ha : s.arg.a ∉ s.absentDevs) : exec .ovoftLinkLoss s = .next ({ s with absentDevs := s.absentDevs ++ [s.arg.a] }.report 102 s.arg.a) := by
  show execOvoftLinkLoss s = _
  unfold execOvoftLinkLoss
  rw [if_neg (by rw [List.contains_iff_mem]; exact ha)]

/-- The exchange of a segment after a device is reached again. -/
def State.ferryReached (s : State) (f : Ferry) : Ferry :=
  match s.latTable f.ctx f.seg with
  | some g =>
    let set := s.exchangeSet g.dev
    if !g.dx || !(set.contains s.arg.a) then f else
    { f with domCatchup := roundsFor g.pair set.length,
             domRound := if s.arg.flag && (set.filter (fun j => j != field s.domid 0 10)).head? == some s.arg.a then s.arg.b else f.domRound }
  | none => f

theorem exec_ovoftLinkReturn {s : State} (ha : s.arg.a ∈ s.absentDevs) : exec .ovoftLinkReturn s =
    .next { s with absentDevs := s.absentDevs.filter (fun x => x != s.arg.a), ferries := s.ferries.map s.ferryReached } := by
  show execOvoftLinkReturn s = _
  unfold execOvoftLinkReturn
  rw [if_neg (by rw [List.contains_iff_mem.mpr ha]; exact Bool.false_ne_true)]
  rfl

theorem State.ferryReached_round (s : State) (f : Ferry) : ((s.ferryReached f).ctx, (s.ferryReached f).seg, (s.ferryReached f).dies, (s.ferryReached f).domRound) =
    (f.ctx, f.seg, f.dies, match s.latTable f.ctx f.seg with
      | some g => if g.dx = true ∧ s.arg.flag = true ∧ s.arg.a ∈ s.exchangeSet g.dev ∧ ((s.exchangeSet g.dev).filter (fun j => j != field s.domid 0 10)).head? = some s.arg.a then s.arg.b else f.domRound
      | none => f.domRound) := by
  unfold State.ferryReached
  cases s.latTable f.ctx f.seg with
  | none => rfl
  | some g =>
    dsimp only
    by_cases hout : (!g.dx || !((s.exchangeSet g.dev).contains s.arg.a)) = true
    · rw [if_pos hout, if_neg]
      rintro ⟨hdx, -, hmem, -⟩
      rw [hdx, List.contains_iff_mem.mpr hmem] at hout
      exact Bool.false_ne_true hout
    · rw [if_neg hout]
      rw [Bool.not_eq_true, Bool.or_eq_false_iff, Bool.not_eq_false', Bool.not_eq_false', List.contains_iff_mem] at hout
      obtain ⟨hdx, hmem⟩ := hout
      simp only [hdx, hmem, true_and, Bool.and_eq_true, beq_iff_eq]

/-- Settles O45: each event's equation, and for a domain round the exchange that `setFerry` leaves to be found. -/
theorem ferryEvents : Obligations.FerryEvents := by
  refine ⟨fun s g hg hd hb => exec_ferryRoundStart_busy hg hd hb, ?_, ?_, fun s c g hc hg hd hlast => exec_ferryChunkReceive hc hg hd hlast, ?_, fun s ha => exec_ovoftLinkLoss ha, ?_⟩
  · intro s g hg hd hb hpair hpos hn
    rw [exec_ferryRoundStart_hub hg hd hb ⟨hpair, hpos, hn⟩, State.partners_reported]
  · intro s g hg hd hb hhub
    rw [exec_ferryRoundStart_ordinary hg hd hb hhub, State.partners_reported]
  · intro s g p hg hdx hdom hp hd f hround
    obtain ⟨t, f', ht, hctx, hseg, hstep⟩ := exec_domainRound hg hdx hdom hp hd hround
    obtain ⟨ha, hb⟩ := s.ferry_names s.arg.a s.arg.b
    have hfound := t.ferry_setFerry f'
    rw [hctx, hseg, ha, hb] at hfound
    refine ⟨_, ht, ?_⟩
    rw [hfound]
    exact hstep
  · intro s ha
    refine ⟨_, exec_ovoftLinkReturn ha, rfl, rfl, ?_⟩
    rw [List.map_map]
    exact List.map_congr_left fun f _ => s.ferryReached_round f

end Sys2Proof.Machine
end

section
/-! The engine's and the sluice's events (O46): a command that runs, fails or is retried; grants and promotions. -/

namespace Sys2Proof.Machine

/-! Commands that run. -/

section
variable {s : State} {u : WorkUnit} {c : Command} (hr : s.running = some (u, c))
include hr

theorem exec_engineCommandComplete_done {s1 : State} {c1 : Command} (hrun : s.runCmd u s.arg.eng c = (s1, c1, .done)) :
    exec .engineCommandComplete s = .next (s1.cmdDone s.arg.eng c1) := by
  show execEngineCommandComplete s = _
  unfold execEngineCommandComplete
  simp only [hr, hrun]

theorem exec_engineCommandComplete_cut {s1 : State} {c1 : Command} (hrun : s.runCmd u s.arg.eng c = (s1, c1, .cut)) :
    exec .engineCommandComplete s = .next (s1.cmdDone s.arg.eng c1) := by
  show execEngineCommandComplete s = _
  unfold execEngineCommandComplete
  simp only [hr, hrun]

theorem exec_engineCommandComplete_wait {s1 : State} {c1 : Command} (hrun : s.runCmd u s.arg.eng c = (s1, c1, .wait)) :
    exec .engineCommandComplete s = .next (s1.putCmd s.arg.eng c1) := by
  show execEngineCommandComplete s = _
  unfold execEngineCommandComplete
  simp only [hr, hrun]

theorem exec_engineCommandFault_fault {s1 : State} {c1 : Command} {code addr : Nat} {ss : Bool} (hflag : s.arg.flag = false) (hrun : s.runCmd u s.arg.eng c = (s1, c1, .fault code addr ss)) :
    exec .engineCommandFault s = .next ((s1.putCmd s.arg.eng c1).cmdRoute s.arg.eng c1 (s.partOf (recCtx u.record)) code addr ss) := by
  show execEngineCommandFault s = _
  unfold execEngineCommandFault
  simp only [hr, hrun, hflag, Bool.false_eq_true, if_false]

theorem exec_engineCommandFault_lost {s1 : State} {c1 : Command} {code addr : Nat} {ss : Bool} (hflag : s.arg.flag = false) (hrun : s.runCmd u s.arg.eng c = (s1, c1, .lost code addr ss)) :
    exec .engineCommandFault s = .next ((s1.putCmd s.arg.eng c1).ctxFail s.arg.eng c1.num code addr ss) := by
  show execEngineCommandFault s = _
  unfold execEngineCommandFault
  simp only [hr, hrun, hflag, Bool.false_eq_true, if_false]

/-! An element that a peer could not read. -/

variable {a : Addr} (hflag : s.arg.flag = true) (ha : s.peerElem u c s.arg.b (s.arg.c == 1) = some a)
include hflag ha

theorem exec_engineCommandFault_post {f : GW} (hi : c.instr = .post f) (hb : s.arg.b < c.e.toNat) :
    exec .engineCommandFault s = .next (s.cmdRoute s.arg.eng c (s.partOf (recCtx u.record)) 0x0D (addrNat a) false) := by
  show execEngineCommandFault s = _
  unfold execEngineCommandFault
  simp only [hr, hflag, ha, hi, hb, if_true]

theorem exec_engineCommandFault_chain {f : GW} (hi : c.instr = .chain f) (hdata : c.data = none) (hc : s.arg.c = 1) :
    exec .engineCommandFault s = .next (s.cmdRoute s.arg.eng c (s.partOf (recCtx u.record)) 0x0D (addrNat a) false) := by
  show execEngineCommandFault s = _
  unfold execEngineCommandFault
  simp only [hr, hflag, ha, hi, hdata, if_true]
  rw [hc]
  rfl

theorem exec_engineCommandFault_coll {f : GW} {s1 : State} {c1 : Command} {code addr : Nat} {ss : Bool} (hi : c.instr = .coll f)
    (hrun : s.runUntil u s.arg.eng c (some s.arg.b) = (s1, c1, .fault code addr ss)) :
    exec .engineCommandFault s = .next ((s1.putCmd s.arg.eng c1).cmdRoute s.arg.eng c1 (s.partOf (recCtx u.record)) code addr ss) := by
  show execEngineCommandFault s = _
  unfold execEngineCommandFault
  simp only [hr, hflag, ha, hi, hrun, if_true]

theorem exec_engineCommandFault_element {s1 : State} {c1 : Command} (hi : ∀ f, c.instr ≠ .post f ∧ c.instr ≠ .coll f ∧ (c.instr = .chain f → c.data ≠ none ∨ s.arg.c ≠ 1))
    (hrun : s.runUntil u s.arg.eng c (some s.arg.b) = (s1, c1, .wait)) (hprog : c1.prog = s.arg.b) :
    exec .engineCommandFault s = .next ((s1.putCmd s.arg.eng c1).cmdRoute s.arg.eng c1 (s.partOf (recCtx u.record)) 0x0D (addrNat a) false) := by
  show execEngineCommandFault s = _
  unfold execEngineCommandFault
  simp only [hr, hflag, if_true, ha]
  split
  next h => exact absurd h (by simp)
  next f _ hf _ => exact absurd hf (hi f).2.1
  next f _ hf _ => exact absurd hf (hi f).1
  next heq _ _ =>
    cases heq
    refine (if_neg ?_).trans ?_
    · split
      next f hf =>
        rw [Bool.and_true, Bool.and_eq_true, Option.isNone_iff_eq_none, beq_iff_eq]
        rintro ⟨hdata, hc⟩
        obtain ⟨-, -, hch⟩ := hi f
        exact (hch hf).elim (fun h => h hdata) (fun h => h hc)
      next =>
        rw [Bool.and_false]
        exact Bool.false_ne_true
    · simp only [hrun, hprog, if_true]

end

theorem exec_engineCommandComplete_none {s : State} (hr : s.running = none) : exec .engineCommandComplete s = .next (s.askAfter.getD s) := by
  show execEngineCommandComplete s = _
  unfold execEngineCommandComplete
  rw [hr]

theorem exec_failedContextClear {s : State} {f : Nat × Nat × Nat × Bool} (hf : (s.engine s.arg.eng).failed = some f) : exec .failedContextClear s =
    .next (s.setEngine s.arg.eng { s.engine s.arg.eng with failed := none, cmds := (s.engine s.arg.eng).cmds.filter (fun c => c.num != f.1) }) := by
  show execFailedContextClear s = _
  unfold execFailedContextClear
  simp only [hf]

/-! The sluice. -/

/-- The head of a die's queues is refused, granted, or waits. -/
theorem exec_sluiceGrant {s : State} {p : Nat} {r : SluiceReq} (hh : (s.die s.arg.a).head = some (p, r)) : exec .sluiceGrant s =
    if (s.die s.arg.a).budget < r.demand then .next (s.refuse s.arg.a r) else
    if (s.die s.arg.a).held + r.demand ≤ (s.die s.arg.a).budget then .next (s.grantTo s.arg.a p r) else .next s := by
  show execSluiceGrant s = _
  unfold execSluiceGrant
  simp only [hh]

theorem exec_sluicePromotion {s : State} {r : SluiceReq} {rest : List SluiceReq} (hb : s.arg.b < 3) (hq : (s.die s.arg.a).queues.getD s.arg.b [] = r :: rest) : exec .sluicePromotion s =
    .next (s.setDie s.arg.a { s.die s.arg.a with
      queues := ((s.die s.arg.a).queues.set s.arg.b rest).set (s.arg.b + 1) ((s.die s.arg.a).queues.getD (s.arg.b + 1) [] ++ [r]) }) := by
  show execSluicePromotion s = _
  unfold execSluicePromotion
  simp only [hq, if_neg (not_le.mpr hb)]

end Sys2Proof.Machine

namespace Sys2Proof.Laws

open Sys2Proof.Machine

/-- Settles O46: one equation for each event and each way that a command's run can end. -/
theorem engineEvents : Obligations.EngineEvents := by
  refine ⟨fun s u c hr => ⟨fun s1 c1 h => exec_engineCommandComplete_done hr h, fun s1 c1 h => exec_engineCommandComplete_cut hr h, fun s1 c1 h => exec_engineCommandComplete_wait hr h,
    fun s1 c1 code addr ss hflag h => exec_engineCommandFault_fault hr hflag h, fun s1 c1 code addr ss hflag h => exec_engineCommandFault_lost hr hflag h, fun a hflag ha => ⟨?_, ?_, ?_, ?_⟩⟩,
    fun s hr => exec_engineCommandComplete_none hr, fun s => rfl, fun s f hf => exec_failedContextClear hf, fun s p r hh => ⟨?_, ?_, ?_⟩, fun s r rest hb hq => exec_sluicePromotion hb hq⟩
  · rintro ⟨f, hi⟩ hb
    exact exec_engineCommandFault_post hr hflag ha hi hb
  · rintro ⟨f, hi⟩ hdata hc
    exact exec_engineCommandFault_chain hr hflag ha hi hdata hc
  · rintro s1 c1 code addr ss ⟨f, hi⟩ hrun
    exact exec_engineCommandFault_coll hr hflag ha hi hrun
  · intro s1 c1 hi hrun hprog
    exact exec_engineCommandFault_element hr hflag ha hi hrun hprog
  · intro hbudget
    rw [exec_sluiceGrant hh, if_pos hbudget]
  · intro hbudget hheld
    rw [exec_sluiceGrant hh, if_neg (not_lt.mpr hbudget), if_pos hheld]
  · intro hheld hbudget
    rw [exec_sluiceGrant hh, if_neg (not_lt.mpr hbudget), if_neg (not_le.mpr hheld)]

end Sys2Proof.Laws
end

section
/-! The events of launches (O47): mailboxes, the recovery queues, placement, idle units, priorities and levelling. -/

namespace Sys2Proof.Machine

/-! Mailboxes. -/

theorem field_bit (w : DWord) (lo : Nat) : field w lo 1 = 0 ∨ field w lo 1 = 1 := by
  have h : field w lo 1 < 2 := Nat.mod_lt _ (by decide)
  omega

theorem exec_mailboxFiring (s : State) : let s1 := if s.arg.bytes ≠ [] ∧ s.mbxRoom s.arg.a = true then s.fire s.arg.a (s.arg.bytes.take 256) else s
    exec .mailboxFiring s = .next (if s.arg.a < 1024 ∧ s1.mbxState s.arg.a = 1 ∧ field s1.qsched 0 1 = 0 ∧ s1.mbxServes s.arg.a = true
      then ((s1.takeFiring s.arg.a).unpark s.arg.a).deliverKept else s1) := by
  have hs1 : (if s.arg.bytes.isEmpty then s else if s.mbxRoom s.arg.a then s.fire s.arg.a (s.arg.bytes.take 256) else s) =
      if s.arg.bytes ≠ [] ∧ s.mbxRoom s.arg.a = true then s.fire s.arg.a (s.arg.bytes.take 256) else s := by
    by_cases hb : s.arg.bytes = []
    · rw [if_pos (List.isEmpty_iff.mpr hb), if_neg (fun h => h.1 hb)]
    · rw [if_neg (fun h => hb (List.isEmpty_iff.mp h))]
      exact if_congr (and_iff_right hb).symm rfl rfl
  have hgo (t : State) : (!(decide (s.arg.a < 1024) && t.mbxState s.arg.a == 1) || field t.qsched 0 1 == 1 || !(t.mbxServes s.arg.a)) = true ↔
      ¬(s.arg.a < 1024 ∧ t.mbxState s.arg.a = 1 ∧ field t.qsched 0 1 = 0 ∧ t.mbxServes s.arg.a = true) := by
    rcases field_bit t.qsched 0 with hq | hq <;> simp [hq, or_assoc, imp_iff_not_or]
  intro s1
  show execMailboxFiring s = _
  unfold execMailboxFiring
  dsimp only
  rw [hs1]
  by_cases h : s.arg.a < 1024 ∧ s1.mbxState s.arg.a = 1 ∧ field s1.qsched 0 1 = 0 ∧ s1.mbxServes s.arg.a = true
  · exact (if_neg (fun hb => (hgo s1).mp hb h)).trans (congrArg _ (if_pos h).symm)
  · exact (if_pos ((hgo s1).mpr h)).trans (congrArg _ (if_neg h).symm)

/-- A mailbox takes its oldest held firing. -/
theorem State.takeFiring_none {s : State} {m : Nat} (h : (s.mbx m).held = []) : s.takeFiring m = s := by
  unfold State.takeFiring
  simp only [h]

theorem State.takeFiring_some {s : State} {m slot len : Nat} {rest : List (Nat × Nat)} (h : (s.mbx m).held = (slot, len) :: rest) :
    let s1 := (s.setMbx m { s.mbx m with held := rest }).setMbxField m 32 8 rest.length
    let w := s.rd8 (s.mbxAddr m)
    s.takeFiring m = if s.levelRunning (recGraph (s.mbx m).record) = false then (s1.reportStray (recGraph (s.mbx m).record)).report 297 m else
      if w % 2 ^ 8 + 1 < max 1 (w / 2 ^ 40 % 2 ^ 8) then s1.setMbxField m 0 8 (w % 2 ^ 8 + 1) else
      ((s1.setMbxField m 0 8 0).setMbx m { s.mbx m with held := rest, seq := (s.mbx m).seq + 1 }).startLaunch m (s.mbx m).seq (s.mbx m).record
        ((upFrom (s.rd8 (s.mbxAddr m + 16) + 256 * slot) len).map (Memory.read s.mem)) := by
  have hw (w : Nat) : bits w 0 8 = w % 2 ^ 8 := by
    unfold bits
    rw [pow_zero, Nat.div_one]
  intro s1 w
  unfold State.takeFiring
  simp only [h, hw, Bool.not_eq_true']
  rfl

/-- A firing that does not go straight into the area waits at the IOD. -/
theorem State.fire_parks {s : State} {m : Nat} (msg : List Byte) (h : s.mbxServes m = false ∨ (s.mbx m).parked ≠ []) : s.fire m msg = s.park m msg := by
  unfold State.fire
  rw [if_neg]
  rw [Bool.and_eq_true, List.isEmpty_iff]
  rintro ⟨hserves, hparked⟩
  rcases h with h | h
  · exact Bool.false_ne_true (h.symm.trans hserves)
  · exact h hparked

theorem State.mbx_setMbx (s : State) (m : Nat) (x : Mailbox) : (s.setMbx m x).mbx m = x := SMap.get_put_self _ _ _ _

/-! The recovery queues. -/

theorem exec_recoveryQuantum_off {s : State} (h : field s.qsched 0 1 = 0) : exec .recoveryQuantum s = .next s := by
  show execRecoveryQuantum s = _
  unfold execRecoveryQuantum
  rw [if_pos h]

/-- The queues that the slots hold after a quantum. -/
def State.nextSlots (s : State) : List (Option Nat) :=
  (List.range 64).foldl (fun (qs : List (Option Nat)) i => qs.set i (s.qnext (qs.set i none) (qs.getD i none))) s.qslots

/-- The launches of a slot's queue start. -/
def State.drainSlot (s : State) (q : Option Nat) : State :=
  match q with
  | none => s
  | some i => (List.range (min (s.qlen i) 65536)).foldl (fun (t : State) _ => t.qtake i) s

theorem exec_recoveryQuantum_on {s : State} (h : field s.qsched 0 1 = 1) : exec .recoveryQuantum s = .next (s.nextSlots.foldl State.drainSlot { s with qslots := s.nextSlots }) := by
  show execRecoveryQuantum s = _
  unfold execRecoveryQuantum
  rw [if_neg (by rw [h]; decide)]
  rfl

/-- Setting the first n places of a list to one value. -/
theorem foldl_set_same {α : Type} (v : α) (n : Nat) (xs : List α) (h : n ≤ xs.length) : (List.range n).foldl (fun (ys : List α) i => ys.set i v) xs = List.replicate n v ++ xs.drop n := by
  induction n with
  | zero => rfl
  | succ n ih =>
    rw [List.range_succ, List.foldl_append, ih (by omega), List.foldl_cons, List.foldl_nil, List.set_append_right _ _ (by simp), List.length_replicate, Nat.sub_self,
      List.drop_eq_getElem_cons (by omega : n < xs.length), List.set_cons_zero, List.replicate_succ', List.append_assoc]
    rfl

/-- With no queue in the list every slot is left empty. -/
theorem State.nextSlots_none {s : State} (hcount : s.qcount = 0) (hlen : s.qslots.length = 64) : s.nextSlots = List.replicate 64 none := by
  have hnext (held : List (Option Nat)) (after : Option Nat) : s.qnext held after = none := by
    unfold State.qnext
    rw [hcount]
    rfl
  unfold State.nextSlots
  simp only [hnext]
  rw [foldl_set_same none 64 s.qslots hlen.ge, List.drop_of_length_le hlen.le, List.append_nil]

/-- Empty slots start nothing. -/
theorem State.drainSlot_none (n : Nat) (s : State) : (List.replicate n none).foldl State.drainSlot s = s := by
  induction n with
  | zero => rfl
  | succ n ih => exact ih

/-! Placement. -/

theorem exec_bargePlacement_none {s : State} (h : s.headBarge s.arg.a = none) : exec .bargePlacement s = .next (s.admitPending s.arg.a) := by
  show execBargePlacement s = _
  unfold execBargePlacement
  rw [h]

theorem exec_bargePlacement_some {s : State} {b : Barge} {u : WorkUnit} (h : s.headBarge s.arg.a = some b) (hu : s.unit? b.uid = some u) :
    exec .bargePlacement s = .next (if s.fits s.arg.a u then s.placeBarge s.arg.a u else s.admitPending s.arg.a) := by
  show execBargePlacement s = _
  unfold execBargePlacement
  simp only [h, hu]
  exact (apply_ite _ _ _ _).symm

/-! An idle unit makes room. -/

section
variable {s : State} {u v : WorkUnit} {b : Barge} {addr : Nat} (hu : s.unit? s.arg.a = some u) (hres : u.res = .resident) (hstop : u.stopAt = none) (hquiet : s.quiet u = true)
  (hlong : ∀ g ∈ u.groups, g.lastIssue + 16384 ≤ s.cycle) (hidle : u.idle = true) (hroom : (s.core u.core).queue.length < 256)
  (hb : s.headBarge u.core = some b) (hv : s.unit? b.uid = some v) (hfits : s.fits u.core v = false) (hslot : s.freeSlot (s.partOf (recCtx u.record)) = some addr)
include hu hres hstop hquiet hlong hidle hroom hb hv hfits hslot

theorem exec_idleUnitSave {x : WorkUnit} (hx : (s.settle u.uid).unit? u.uid = some x) (hxstop : x.stop = []) (hxidle : x.idle = true) :
    let s2 := (s.settle u.uid).saveUnit u.uid addr 2
    exec .idleUnitSave s = .next (State.enqueue { s2 with slots := s2.slots ++ [{ part := s.partOf (recCtx u.record), addr := addr, uid := u.uid, first := 0, nrec := 0 }] } u.core u.barge false) := by
  have hall : u.groups.all (fun g => decide (g.lastIssue + 16384 ≤ s.cycle)) = true := List.all_eq_true.mpr fun g hg => decide_eq_true (hlong g hg)
  intro s2
  show execIdleUnitSave s = _
  unfold execIdleUnitSave
  simp only [hu, hres, hstop, hquiet, hidle, hall, hroom, hb, hv, hfits, hslot, hx, hxstop, hxidle, Option.bind_some, Option.isSome_none, Option.map_some, Option.getD_some, decide_true,
    Bool.and_self, Bool.not_true, Bool.not_false, Bool.or_self, bne_self_eq_false, List.isEmpty_nil, Bool.false_eq_true, if_false]
  rfl

end

/-! Priorities and levelling. -/

theorem exec_effectivePriorityRaise {s : State} {u : WorkUnit} {g : Group} {l : Nat} (ht : s.target = some (u, g)) (hres : u.res = .resident) (hl : l ∈ g.liveLanes)
    (hpark : (g.lane l).st.isParked = false) (hpassed : 64 ≤ g.passed) : exec .effectivePriorityRaise s = .next (s.onGroup s.arg.a s.arg.b (fun g => { g with raised := true })) := by
  have hall : g.liveLanes.all (fun l => (g.lane l).st.isParked) = false := List.all_eq_false.mpr ⟨l, hl, by rw [hpark]; exact Bool.false_ne_true⟩
  show execEffectivePriorityRaise s = _
  unfold execEffectivePriorityRaise
  simp only [ht, hres, hall, bne_self_eq_false, Bool.false_or, decide_eq_false (not_lt.mpr hpassed), Bool.false_eq_true, if_false]

theorem exec_levellingExchange {s : State} (h : s.coreExists s.arg.a = true) :
    let s1 := (s.neighbours s.arg.a).foldl (fun (s1 : State) n =>
      s1.setCore n { s1.core n with reported := (s1.core n).reported.filter (fun p => p.1 != s.arg.a) ++ [(s.arg.a, (s.core s.arg.a).queue.length)] }) s
    exec .levellingExchange s = .next (((s.neighbours s.arg.a).foldl (fun (r : State × List Nat) n => r.1.pushTo s.arg.a n r.2) (s1, [])).1.admitPending s.arg.a) := by
  show execLevellingExchange s = _
  unfold execLevellingExchange
  rw [if_neg (by rw [h]; exact Bool.false_ne_true)]

/-- Settles O47: one equation for each event, and for the slots of the recovery queues what an empty list leaves. -/
theorem launchEvents : Obligations.LaunchEvents := by
  refine ⟨exec_mailboxFiring, fun s h => State.takeFiring_none h, fun s slot len rest h => State.takeFiring_some h, fun s h => exec_recoveryQuantum_off h, ?_, ?_,
    fun s b u h hu => exec_bargePlacement_some h hu, ?_, fun s h => exec_bargePlacement_none h, ?_, ?_, fun s h => exec_levellingExchange h⟩
  · intro s h hcount hlen
    rw [exec_recoveryQuantum_on h, State.nextSlots_none hcount hlen, State.drainSlot_none]
  · intro s h slots
    exact exec_recoveryQuantum_on h
  · intro s m msg hroom
    unfold State.mbxRoom at hroom
    rw [Bool.and_eq_true, decide_eq_true_iff] at hroom
    refine ⟨hroom.2, fun hpark => ?_⟩
    rw [State.fire_parks msg hpark]
    unfold State.park
    rw [State.mbx_setMbx]
    exact ⟨State.setMbx_mem _ _ _, rfl, rfl⟩
  · intro s u addr b v hu _ hres hstop hquiet hlong hidle hroom hb hv hfits hslot s1 s2 hx hsome
    obtain ⟨x, hxs⟩ := Option.ne_none_iff_exists'.mp hsome
    obtain ⟨hxstop, hxidle⟩ := hx x hxs
    exact exec_idleUnitSave hu hres hstop hquiet hlong hidle hroom hb hv hfits hslot hxs hxstop hxidle
  · intro s u g l ht hres hl hpark hpassed
    exact exec_effectivePriorityRaise ht hres hl hpark hpassed

end Sys2Proof.Machine
end

section
/-! The events of service (O48): a stop saved and routed, the ends of a service, and the emulation of an optional opcode. -/

namespace Sys2Proof.Machine

/-! A stop is saved. -/

section
variable {s : State} {u : WorkUnit} (hres : u.res = .resident ∨ u.res = .stopped) (hstop : u.stop ≠ []) (hquiet : s.quiet u = true) (hsaver : s.savedBy u = false)
include hres hstop hquiet hsaver

/-- A stop with these goes on to its slot. -/
theorem stopSave_goes : (!(u.res == .resident || u.res == .stopped) || u.stop.isEmpty || !(s.quiet u) || s.savedBy u) = false := by
  have hr : (u.res == .resident || u.res == .stopped) = true := by
    rw [Bool.or_eq_true, beq_iff_eq, beq_iff_eq]
    exact hres
  rw [hr, hquiet, hsaver, List.isEmpty_eq_false_iff.mpr hstop]
  rfl

variable (hu : s.unit? s.arg.a = some u)
include hu

theorem exec_stopSave_full (hslot : s.freeSlot (s.partOf (recCtx u.record)) = none) : exec .stopSave s =
    .next (if u.res = .stopped then s else (s.setUnit u.held).toSupervisor (s.partOf (recCtx u.record)) (stopMsg 0 u.firstCode 0 u.stop.length)) := by
  show execStopSave s = _
  unfold execStopSave
  simp only [hu, stopSave_goes hres hstop hquiet hsaver, hslot, beq_iff_eq, Bool.false_eq_true, if_false]
  exact (apply_ite _ _ _ _).symm

theorem exec_stopSave_saved {addr : Nat} {v : WorkUnit} (hslot : s.freeSlot (s.partOf (recCtx u.record)) = some addr)
    (hv : (((s.settle u.uid).onUnit u.uid (fun v => { v with stop := v.stop.map (s.settleCode (s.partOf (recCtx u.record))) })).saveUnit u.uid addr 1).unit? u.uid = some v) :
    let s3 := ((s.settle u.uid).onUnit u.uid (fun v => { v with stop := v.stop.map (s.settleCode (s.partOf (recCtx u.record))) })).saveUnit u.uid addr 1
    exec .stopSave s =
      .next (State.routeStop { s3 with slots := s3.slots ++ [{ part := s.partOf (recCtx u.record), addr := addr, uid := u.uid, first := v.firstCode, nrec := (recordOrder v.stop).length }] } v addr) := by
  intro s3
  show execStopSave s = _
  unfold execStopSave
  simp only [hu, stopSave_goes hres hstop hquiet hsaver, hslot, hv, Bool.false_eq_true, if_false]
  rfl

end

/-- The lanes of a stopped unit that no slot takes are parked for leave. -/
theorem Group.lane_held (g : Group) {l : Nat} (hl : l ∈ (g.setLanes g.liveLanes (fun _ x => { x with st := .parked .leave 1 x.pc })).liveLanes) :
    ((g.setLanes g.liveLanes (fun _ x => { x with st := .parked .leave 1 x.pc })).lane l).st =
      .parked .leave 1 ((g.setLanes g.liveLanes (fun _ x => { x with st := .parked .leave 1 x.pc })).lane l).pc := by
  obtain ⟨hlt, hlive⟩ := Group.mem_which.mp hl
  have hlt : l < g.lanes.length := by
    simpa [Group.setLanes] using hlt
  rw [Group.lane_setLanes] at hlive ⊢
  split at hlive
  next h => rw [if_pos h]
  next h => exact absurd ⟨Group.mem_which.mpr ⟨hlt, hlive⟩, hlt⟩ h

theorem WorkUnit.held_lanes (u : WorkUnit) : ∀ g ∈ u.held.groups, ∀ l ∈ g.liveLanes, (g.lane l).st = .parked .leave 1 (g.lane l).pc := by
  intro g hg l hl
  obtain ⟨g0, -, rfl⟩ := List.mem_map.mp hg
  exact g0.lane_held hl

/-! The route of a stop. -/

section
variable {s : State} {u : WorkUnit} (addr : Nat)

theorem State.routeStop_ends (h : s.stopRoute (s.partOf (recCtx u.record)) (recordOrder u.stop) = 0) : s.routeStop u addr = s.endUnit u.uid 2 := by
  unfold State.routeStop
  simp only [h]

theorem State.routeStop_supervisor (h : s.stopRoute (s.partOf (recCtx u.record)) (recordOrder u.stop) = 2) :
    s.routeStop u addr = s.toSupervisor (s.partOf (recCtx u.record)) (stopMsg addr u.firstCode 0 (recordOrder u.stop).length) := by
  unfold State.routeStop
  simp only [h]

theorem State.routeStop_escalates (h : s.stopRoute (s.partOf (recCtx u.record)) (recordOrder u.stop) = 1) (hi : s.serviceSlice u addr = none) : s.routeStop u addr = s.escalate u := by
  unfold State.routeStop
  simp only [h, hi]

theorem State.routeStop_harbour {i : Nat} (h : s.stopRoute (s.partOf (recCtx u.record)) (recordOrder u.stop) = 1) (hi : s.serviceSlice u addr = some i) :
    s.routeStop u addr = ((revokedSegs u.stop).foldl (fun (s : State) p => s.countRevoked u.uid p) s).toHarbour i (stopMsg addr u.firstCode 0 (recordOrder u.stop).length) := by
  unfold State.routeStop
  simp only [h, hi]

end

/-! The ends of a service. -/

section
variable {s : State} {u : WorkUnit} (hflag : s.arg.flag = false) (hu : s.unit? s.arg.a = some u) (hin : u.inService = true)
include hflag hu hin

theorem exec_serviceReturn_unit : exec .serviceReturn s = .next (s.returnUnit u) := by
  show execServiceReturn s = _
  unfold execServiceReturn
  simp only [hflag, hu, hin, Bool.false_eq_true, if_false, if_true]

theorem exec_serviceAbandon_unit : exec .serviceAbandon s = .next (s.endUnit u.uid 2) := by
  show execServiceAbandon s = _
  unfold execServiceAbandon
  simp only [hflag, hu, hin, Bool.false_eq_true, if_false, if_true]

theorem exec_serviceEscalate_unit : exec .serviceEscalate s = .next (s.escalate u) := by
  show execServiceEscalate s = _
  unfold execServiceEscalate
  simp only [hflag, hu, hin, Bool.false_eq_true, if_false, if_true]

end

section
variable {s : State} {c : Command} {code addr : Nat} {ss : Bool} (hflag : s.arg.flag = true) (hc : s.stuckCmd s.arg.eng = some (c, code, addr, ss))
include hflag hc

theorem exec_serviceReturn_command : exec .serviceReturn s = .next (s.putCmd s.arg.eng { c with stuck := none }) := by
  show execServiceReturn s = _
  unfold execServiceReturn
  simp only [hflag, hc, if_true]

theorem exec_serviceAbandon_command : exec .serviceAbandon s = .next (s.ctxFail s.arg.eng c.num code addr ss) := by
  show execServiceAbandon s = _
  unfold execServiceAbandon
  simp only [hflag, hc, if_true]

theorem exec_serviceEscalate_command : exec .serviceEscalate s =
    .next ((s.ctxFail s.arg.eng c.num code addr ss).toSupervisor (s.cmdPart c) (faultMsg s.arg.eng c.num code addr ss)) := by
  show execServiceEscalate s = _
  unfold execServiceEscalate
  simp only [hflag, hc, if_true]

end

/-! Emulation. -/

/-- The results of an emulation stand in the image, and its lanes past the instruction. -/
def State.afterEmulation (s0 : State) (edits : List (Nat × Nat × Word)) (addr : Nat) (rs : List FaultRec) : State :=
  rs.foldl (fun (s : State) r => s.imageSkip addr r)
    ((edits.filter (fun p => rs.any (fun r => r.grp * 64 + r.lane == p.1))).foldl (fun (s : State) p => s.imageEdit addr (p.1 / 64) (p.1 % 64) p.2.1 p.2.2) s0)

theorem exec_optionalEmulation {s : State} {u : WorkUnit} {addr : Nat} (hu : s.unit? s.arg.a = some u) (hres : u.res = .saved addr 1) (hh : s.harboured u = true)
    (hr : ∃ r ∈ u.stop, r.code = 0x0C) :
    let rs := u.stop.filter (fun r => r.code == 0x0C)
    exec .optionalEmulation s = .next (match s.emulate u (emuAccs rs s.arg.accs) with
      | .error bad => (s.reports bad).escalate u
      | .ok s0 => if ∀ r ∈ u.stop, r.code = 0x0C then (s0.afterEmulation s.arg.edits addr rs).returnUnit u else s0.afterEmulation s.arg.edits addr rs) := by
  obtain ⟨r, hrm, hrc⟩ := hr
  have hrs : (u.stop.filter (fun r => r.code == 0x0C)).isEmpty = false :=
    List.isEmpty_eq_false_iff.mpr (List.ne_nil_of_mem (List.mem_filter.mpr ⟨hrm, beq_iff_eq.mpr hrc⟩))
  have hall : u.stop.all (fun r => r.code == 0x0C) = true ↔ ∀ r ∈ u.stop, r.code = 0x0C := by
    simp only [List.all_eq_true, beq_iff_eq]
  intro rs
  show execOptionalEmulation s = _
  unfold execOptionalEmulation
  simp only [hu, hres, hh, hrs, Bool.not_true, Bool.or_self, Bool.false_eq_true, if_false, hall]
  cases s.emulate u (emuAccs rs s.arg.accs) with
  | error bad => rfl
  | ok s0 => rfl

/-- Settles O48: one equation for each event, the four routes of a stop, and the lanes that `held` parks. -/
theorem serviceEvents : Obligations.ServiceEvents := by
  refine ⟨?_, fun u => ⟨rfl, u.held_lanes⟩, fun s u addr => ⟨fun h => State.routeStop_ends addr h, fun h => State.routeStop_supervisor addr h, fun h hi => State.routeStop_escalates addr h hi,
      fun i h hi => State.routeStop_harbour addr h hi⟩,
    fun s u hflag hu hin => ⟨exec_serviceReturn_unit hflag hu hin, exec_serviceAbandon_unit hflag hu hin, exec_serviceEscalate_unit hflag hu hin⟩,
    fun s c code addr ss hflag hc => ⟨exec_serviceReturn_command hflag hc, exec_serviceAbandon_command hflag hc, exec_serviceEscalate_command hflag hc⟩, ?_⟩
  · intro s u hu hres hstop hquiet hsaver part
    exact ⟨fun hslot => exec_stopSave_full hres hstop hquiet hsaver hu hslot, fun addr v hslot hv => exec_stopSave_saved hres hstop hquiet hsaver hu hslot hv⟩
  · intro s u addr hu hres hh hr
    exact exec_optionalEmulation hu hres hh hr

end Sys2Proof.Machine
end

section
/-! The events of bindings (O49): a binder resolves its entry, revoked segments are bound again, a search is repeated, a binding abandoned. -/

namespace Sys2Proof.Machine

/-! A binder resolves its entry. -/

theorem exec_binderResolution_away {s : State} {b : Binder} (hb : s.binders[s.arg.a]? = some b) (hserves : s.serves b.entry = false) : exec .binderResolution s = .next s := by
  show execBinderResolution s = _
  unfold execBinderResolution
  simp only [hb, hserves, Bool.not_false, Bool.or_true, if_true]

section
variable {s : State} {b : Binder} {u : WorkUnit} (hb : s.binders[s.arg.a]? = some b) (hesc : b.escalated = false) (hserves : s.serves b.entry = true) (hu : s.unit? b.uid = some u)
  (hres : u.res ≠ .resident) (hstop : u.res ≠ .stopped)
include hb hesc hserves hu hres hstop

theorem exec_binderResolution_noSlice (hslice : s.entrySlice b.ctx b.entry = none) : exec .binderResolution s = .next (s.bindStuck s.arg.a b u) := by
  show execBinderResolution s = _
  unfold execBinderResolution
  simp only [hb, hesc, hserves, hu, beq_eq_false_iff_ne.mpr hres, beq_eq_false_iff_ne.mpr hstop, hslice, Bool.not_true, Bool.or_self, Bool.false_eq_true, if_false, Option.isNone_none, if_true]

variable (hslice : s.entrySlice b.ctx b.entry ≠ none)
include hslice

theorem exec_binderResolution_stuck (hok : (s.bind u b.entry b.said).ok = false) :
    exec .binderResolution s = .next ((s.bind u b.entry b.said).s.bindStuck s.arg.a { b with said := (s.bind u b.entry b.said).said } u) := by
  show execBinderResolution s = _
  unfold execBinderResolution
  simp only [hb, hesc, hserves, hu, beq_eq_false_iff_ne.mpr hres, beq_eq_false_iff_ne.mpr hstop, Option.isNone_iff_eq_none, hslice, hok, Bool.not_true, Bool.or_self, Bool.false_eq_true, if_false,
    Bool.not_false, if_true]

variable (hok : (s.bind u b.entry b.said).ok = true)
include hok

theorem exec_binderResolution_gone (hv : State.unit? { (s.bind u b.entry b.said).s with binders := (s.bind u b.entry b.said).s.binders.eraseIdx s.arg.a } b.uid = none) :
    exec .binderResolution s = .next { (s.bind u b.entry b.said).s with binders := (s.bind u b.entry b.said).s.binders.eraseIdx s.arg.a } := by
  show execBinderResolution s = _
  unfold execBinderResolution
  simp only [hb, hesc, hserves, hu, beq_eq_false_iff_ne.mpr hres, beq_eq_false_iff_ne.mpr hstop, Option.isNone_iff_eq_none, hslice, hok, Bool.not_true, Bool.or_self, Bool.false_eq_true, if_false, hv]

theorem exec_binderResolution_bound {v : WorkUnit} (hv : State.unit? { (s.bind u b.entry b.said).s with binders := (s.bind u b.entry b.said).s.binders.eraseIdx s.arg.a } b.uid = some v) :
    let s2 : State := { (s.bind u b.entry b.said).s with binders := (s.bind u b.entry b.said).s.binders.eraseIdx s.arg.a }
    exec .binderResolution s = .next (if s2.boundOnly v = true ∧ (∀ r ∈ v.stop, r.code = 0x01) ∧ ∀ x ∈ s2.binders, x.uid ≠ v.uid then s2.returnUnit v else s2) := by
  intro s2
  have hgo : (s2.boundOnly v && v.stop.all (fun r => r.code == 0x01) && !(s2.binders.any (fun x => x.uid == v.uid))) = true ↔
      s2.boundOnly v = true ∧ (∀ r ∈ v.stop, r.code = 0x01) ∧ ∀ x ∈ s2.binders, x.uid ≠ v.uid := by
    simp [and_assoc]
  rw [← if_congr hgo rfl rfl]
  show execBinderResolution s = _
  unfold execBinderResolution
  simp only [hb, hesc, hserves, hu, beq_eq_false_iff_ne.mpr hres, beq_eq_false_iff_ne.mpr hstop, Option.isNone_iff_eq_none, hslice, hok, Bool.not_true, Bool.or_self, Bool.false_eq_true, if_false, hv]
  exact (apply_ite _ _ _ _).symm

end

/-! Revoked segments. -/

/-- A stop has brought a count of the unit's groups to four. -/
theorem State.fourStops_iff (s : State) (u : WorkUnit) (segs : List (Nat × Nat)) :
    s.fourStops u segs = true ↔ ∃ p ∈ segs, ∃ q ∈ s.revokedStops, q.1 = u.uid ∧ q.2.1 = p.1 ∧ q.2.2.1 = p.2 ∧ 4 ≤ q.2.2.2 := by
  unfold State.fourStops
  simp only [List.any_eq_true, Bool.and_eq_true, beq_iff_eq, decide_eq_true_iff, and_assoc]

section
variable {s : State} {u : WorkUnit} (hu : s.unit? s.arg.a = some u) (hbound : s.boundOnly u = true) (hsegs : revokedSegs u.stop ≠ []) (hfree : ∀ b ∈ s.binders, b.uid ≠ u.uid)
include hu hbound hsegs hfree

theorem exec_revokedSegmentService_late (hlate : s.fourStops u (revokedSegs u.stop) = true) : exec .revokedSegmentService s = .next ((s.escalate u).cancelUnit u.uid) := by
  have hany : s.binders.any (fun b => b.uid == u.uid) = false := List.any_eq_false.mpr fun b hb => by rw [beq_iff_eq]; exact hfree b hb
  show execRevokedSegmentService s = _
  unfold execRevokedSegmentService
  simp only [hu, hbound, List.isEmpty_eq_false_iff.mpr hsegs, hany, hlate, Bool.not_true, Bool.or_self, Bool.false_eq_true, if_false, if_true]

/-- The unit goes back to its supervisor where a binder of its own is left, else it returns. -/
theorem exec_revokedSegmentService_again (hlate : s.fourStops u (revokedSegs u.stop) = false) {t : State} {v : WorkUnit}
    (ht : (revokedSegs u.stop).foldl (fun (s : State) p => if s.descState (recCtx u.record) p.2 = 2 then s.rebind u p.1 p.2 else s) s = t) (hv : t.unit? u.uid = some v) :
    exec .revokedSegmentService s = .next (if t.binders.any (fun b => b.uid == u.uid) then t.escalate v else t.returnUnit v) := by
  have hany : s.binders.any (fun b => b.uid == u.uid) = false := List.any_eq_false.mpr fun b hb => by rw [beq_iff_eq]; exact hfree b hb
  show execRevokedSegmentService s = _
  unfold execRevokedSegmentService
  simp only [hu, hbound, List.isEmpty_eq_false_iff.mpr hsegs, hany, hlate, Bool.not_true, Bool.or_self, Bool.false_eq_true, if_false, ht, hv]
  exact (apply_ite _ _ _ _).symm

end

/-! Bindings abandoned. -/

theorem exec_bindingAbandon {s : State} {b : Binder} (hb : s.binders.find? (fun x => x.ctx == s.arg.a && x.entry.key == s.arg.b && x.escalated) = some b) :
    let s1 : State := { s with binders := s.binders.filter (fun x => !(x.ctx == b.ctx && x.entry.key == b.entry.key)) }
    exec .bindingAbandon s = .next (((s1.entryState b.entry 3).wakeEntry b.ctx b.entry.key).cancelUnit b.uid) := by
  show execBindingAbandon s = _
  unfold execBindingAbandon
  simp only [hb]

/-- Settles O49: one equation for each way that a binder's or a unit's event can end. -/
theorem bindingEvents : Obligations.BindingEvents := by
  refine ⟨?_, fun s b hb hserves => exec_binderResolution_away hb hserves, ?_, fun s => rfl, fun s b hb => exec_bindingAbandon hb⟩
  · intro s b u hb hesc hserves hu hres hstop stuck r
    refine ⟨fun hslice => exec_binderResolution_noSlice hb hesc hserves hu hres hstop hslice, fun hslice hok => exec_binderResolution_stuck hb hesc hserves hu hres hstop hslice hok, ?_⟩
    intro hslice hok s2
    exact ⟨fun hv => exec_binderResolution_gone hb hesc hserves hu hres hstop hslice hok hv, fun v hv => exec_binderResolution_bound hb hesc hserves hu hres hstop hslice hok hv⟩
  · intro s u hu hbound hsegs hfree late s2
    refine ⟨fun hlate => exec_revokedSegmentService_late hu hbound hsegs hfree ((s.fourStops_iff u _).mpr hlate), fun hlate v hv => ?_⟩
    have hfour : s.fourStops u (revokedSegs u.stop) = false := by
      rw [Bool.eq_false_iff]
      exact fun h => hlate ((s.fourStops_iff u _).mp h)
    rw [exec_revokedSegmentService_again (t := s2) hu hbound hsegs hfree hfour rfl hv]
    refine ⟨fun hmine => ?_, fun hnone => ?_⟩
    · obtain ⟨b, hb, hbu⟩ := hmine
      rw [if_pos]
      exact List.any_eq_true.mpr ⟨b, hb, beq_iff_eq.mpr hbu⟩
    · rw [if_neg]
      rw [List.any_eq_true]
      rintro ⟨b, hb, hbu⟩
      exact hnone b hb (beq_iff_eq.mp hbu)

end Sys2Proof.Machine
end

section
/-! The host's events (O50): posted writes, reads, memory requests, snoops, the warm restart and the return of a link. -/

namespace Sys2Proof.Machine

/-! Posted writes. -/

theorem exec_inboundPostedWrite_arrives {s : State} {w : InWrite} (hport : s.portUp.getD s.arg.a false = true) (hw : s.arg.write = some w) :
    exec .inboundPostedWrite s = .next (if 512 < w.data.length then s else
      { s with pop := s.pop.set s.arg.a (s.pop.getD s.arg.a [] ++ [{ num := s.popNext.getD s.arg.a 0, w := w }]), popNext := s.popNext.set s.arg.a (s.popNext.getD s.arg.a 0 + 1) }) := by
  show execInboundPostedWrite s = _
  unfold execInboundPostedWrite
  simp only [hport, hw, Bool.not_true, Bool.false_eq_true, if_false]
  exact (apply_ite _ _ _ _).symm

/-- The first write that passes is the one after those that do not. -/
theorem findSome?_first {α β : Type} {f : α → Option β} {before after : List α} {x : α} {y : β} (hb : ∀ z ∈ before, f z = none) (hx : f x = some y) :
    (before ++ x :: after).findSome? f = some y := by
  rw [List.findSome?_append, List.findSome?_eq_none_iff.mpr hb, List.findSome?_cons, hx]
  rfl

theorem exec_inboundPostedWrite_passes {s s1 : State} {before after : List PopWrite} {x : PopWrite} (hport : s.portUp.getD s.arg.a false = true) (hw : s.arg.write = none)
    (hready : s.popReady s.arg.a = before ++ x :: after) (hbefore : ∀ y ∈ before, s.passPop s.arg.a y.w = none) (hx : s.passPop s.arg.a x.w = some s1) :
    exec .inboundPostedWrite s = .next { s1 with pop := s1.pop.set s.arg.a ((s1.pop.getD s.arg.a []).filter (fun y => y.num != x.num)) } := by
  have hfirst : (s.popReady s.arg.a).findSome? (fun x => (s.passPop s.arg.a x.w).map (fun t => (x, t))) = some (x, s1) := by
    rw [hready]
    exact findSome?_first (fun y hy => by rw [hbefore y hy]; rfl) (by rw [hx]; rfl)
  show execInboundPostedWrite s = _
  unfold execInboundPostedWrite
  simp only [hport, hw, hfirst, Bool.not_true, Bool.false_eq_true, if_false]
  rfl

theorem State.popReady_cons {s : State} {port : Nat} {x : PopWrite} {rest : List PopWrite} (h : s.pop.getD port [] = x :: rest) (y : PopWrite) :
    y ∈ s.popReady port ↔ y = x ∧ (x.w.relaxed = true ∨ s.portIdle port = true) ∨ y ∈ rest ∧ y.w.relaxed = true := by
  unfold State.popReady
  rw [h]
  dsimp only
  rw [List.mem_append, List.mem_filter]
  refine or_congr_left ?_
  by_cases hfirst : (x.w.relaxed || s.portIdle port) = true
  · rw [if_pos hfirst, List.mem_singleton]
    exact (and_iff_left (Bool.or_eq_true_iff.mp hfirst)).symm
  · rw [if_neg hfirst]
    exact iff_of_false List.not_mem_nil (fun hy => hfirst (Bool.or_eq_true_iff.mpr hy.2))

/-! Reads. -/

section
variable {s : State} (hport : s.portUp.getD s.arg.a false = true) (hlen : s.arg.d ≤ 4096) (hpop : s.pop.getD s.arg.a [] = []) (hidle : s.portIdle s.arg.a = true)
include hport hlen hpop hidle

theorem exec_inboundRead_bar0 (hflag : s.arg.flag = true) :
    exec .inboundRead s = .next { s with out := s.out ++ [.hostData s.arg.a ((leBytes 8 s.bar0.toNat).take s.arg.d)] } := by
  show execInboundRead s = _
  unfold execInboundRead
  simp only [hport, hpop, hidle, hflag, decide_eq_false (not_lt.mpr hlen), List.isEmpty_nil, Bool.not_true, Bool.or_self, Bool.false_eq_true, if_false, if_true]

theorem exec_inboundRead_fails (hflag : s.arg.flag = false) (hin : s.inbound s.arg.b s.arg.c s.arg.d false = none) :
    exec .inboundRead s = .next ((s.inboundNote s.arg.b s.arg.c s.arg.d).discard s.arg.a) := by
  show execInboundRead s = _
  unfold execInboundRead
  simp only [hport, hpop, hidle, hflag, hin, decide_eq_false (not_lt.mpr hlen), List.isEmpty_nil, Bool.not_true, Bool.or_self, Bool.false_eq_true, if_false]

theorem exec_inboundRead_answers {u : WorkUnit} {acc : Acc} (hflag : s.arg.flag = false) (hin : s.inbound s.arg.b s.arg.c s.arg.d false = some (u, acc))
    (hp : ∀ p ∈ s.pend, ∀ k ∈ p.keys, k ∉ acc.keys) :
    exec .inboundRead s = .next { s with
      out := s.out ++ [.hostData s.arg.a (s.inboundBytes acc)], freeCtr := if acc.g.kind == .peer then s.freeCtr + acc.keys.length else s.freeCtr } := by
  show execInboundRead s = _
  unfold execInboundRead
  simp only [hport, hpop, hidle, hflag, hin, State.pend_clear hp, decide_eq_false (not_lt.mpr hlen), List.isEmpty_nil, Bool.not_true, Bool.or_self, Bool.false_eq_true, if_false]

end

/-! Memory requests. -/

/-- No store on its way shares a line with the lines given. -/
theorem State.pend_lines_clear {s : State} {lines : List Nat} (h : ∀ p ∈ s.pend, ∀ n ∈ linesOf p.keys, n ∉ lines) : s.pend.any (fun p => (linesOf p.keys).any lines.contains) = false :=
  List.any_eq_false.mpr fun p hp hany => by
    obtain ⟨n, hn, hnc⟩ := List.any_eq_true.mp hany
    exact h p hp n hn (List.contains_iff_mem.mp hnc)

section
variable {s : State} (hport : s.portUp.getD s.arg.c false = true) (hok : s.cxlOk s.arg.a s.arg.b = true)
include hport hok

theorem exec_cxlMemRequest_waits {p : PendStore} (hp : p ∈ s.pend) (hline : ∃ n ∈ linesOf p.keys, n ∈ linesOf (upFrom s.arg.a s.arg.b)) : exec .cxlMemRequest s = .next s := by
  obtain ⟨n, hn, hnl⟩ := hline
  have hany : s.pend.any (fun p => (linesOf p.keys).any (linesOf (upFrom s.arg.a s.arg.b)).contains) = true :=
    List.any_eq_true.mpr ⟨p, hp, List.any_eq_true.mpr ⟨n, hn, List.contains_iff_mem.mpr hnl⟩⟩
  show execCxlMemRequest s = _
  unfold execCxlMemRequest
  simp only [hport, hok, hany, Bool.not_true, Bool.false_eq_true, if_false, if_true]

variable (hp : ∀ p ∈ s.pend, ∀ n ∈ linesOf p.keys, n ∉ linesOf (upFrom s.arg.a s.arg.b))
include hp

theorem exec_cxlMemRequest_read (hflag : s.arg.flag = false) : exec .cxlMemRequest s = .next { s with
    out := s.out ++ [.hostData s.arg.c ((upFrom s.arg.a s.arg.b).map (Memory.read s.mem))],
    hostLines := if SMap.get false s.bias (s.arg.a / 2 ^ 16) then (linesOf (upFrom s.arg.a s.arg.b)).foldl (fun (m : SMap Bool) k => SMap.put false m (s.arg.c * 2 ^ 45 + k) true) s.hostLines else s.hostLines } := by
  show execCxlMemRequest s = _
  unfold execCxlMemRequest
  simp only [hport, hok, hflag, State.pend_lines_clear hp, Bool.not_true, Bool.false_eq_true, if_false]

/-- A write of the host joins the stores on their way. -/
theorem exec_cxlMemRequest_write (hflag : s.arg.flag = true) : ∃ p : PendStore, (p.keys, p.bytes, p.cxl) = (upFrom s.arg.a s.arg.b, s.arg.bytes.take s.arg.b, some s.arg.c) ∧
    exec .cxlMemRequest s = .next { s.hitFences (upFrom s.arg.a s.arg.b) with pend := s.pend ++ [p] } := by
  show ∃ p : PendStore, _ ∧ execCxlMemRequest s = _
  unfold execCxlMemRequest
  simp only [hport, hok, hflag, State.pend_lines_clear hp, Bool.not_true, Bool.false_eq_true, if_false, if_true]
  exact ⟨_, rfl, rfl⟩

end

/-! Snoops and the directory. -/

theorem exec_hostSnoop {s : State} (haddr : 0x800 ≤ s.arg.a / 2 ^ 40 % 2 ^ 12)
    (hp : ∀ p ∈ s.pend, ∀ k ∈ p.keys, k / 128 ∉ linesOf (s.arg.a :: upFrom s.arg.a s.arg.bytes.length)) :
    let keys := upFrom s.arg.a s.arg.bytes.length
    let s1 := { s.hitFences keys with dir := dirWithout s.dir (fun _ => true) (fun _ => true) (linesOf (s.arg.a :: keys)).contains }
    exec .hostSnoop s = .next (if s.arg.bytes = [] then s1 else s1.expose 4 keys s.arg.bytes) := by
  have hany : s.pend.any (fun p => p.keys.any (fun k => (linesOf (s.arg.a :: upFrom s.arg.a s.arg.bytes.length)).contains (k / 128))) = false :=
    List.any_eq_false.mpr fun p hp' hany => by
      obtain ⟨k, hk, hkc⟩ := List.any_eq_true.mp hany
      exact hp p hp' k hk (List.contains_iff_mem.mp hkc)
  have hkeys : (upFrom s.arg.a s.arg.bytes.length).isEmpty = true ↔ s.arg.bytes = [] := by
    rw [List.isEmpty_iff_length_eq_zero, upFrom_length, List.length_eq_zero_iff]
  intro keys s1
  show execHostSnoop s = _
  unfold execHostSnoop
  simp only [if_neg (not_lt.mpr haddr), hany, Bool.false_eq_true, if_false, hkeys]
  rfl

/-- Lines that leave every cache keep a scope record or nothing. -/
theorem dirWithout_named {d : AMap DirEntry} {line : Nat → Bool} {p : Nat × DirEntry} (hp : p ∈ dirWithout d (fun _ => true) (fun _ => true) line) (hl : line p.1 = true) :
    p.2.cores = [] ∧ p.2.scope ≠ none := by
  unfold dirWithout at hp
  obtain ⟨hmem, hidle⟩ := List.mem_filter.mp hp
  obtain ⟨q, -, hq⟩ := List.mem_map.mp hmem
  by_cases hql : line q.1 = true
  · rw [if_pos hql] at hq
    subst hq
    simpa [DirEntry.cores, DirEntry.idle, Option.isSome_iff_ne_none] using hidle
  · rw [if_neg hql] at hq
    subst hq
    exact absurd hl hql

theorem dirWithout_other {d : AMap DirEntry} {core die line : Nat → Bool} {p : Nat × DirEntry} (hp : p ∈ d) (hl : line p.1 = false) (hi : p.2.idle = false) :
    p ∈ dirWithout d core die line := by
  unfold dirWithout
  rw [List.mem_filter, List.mem_map]
  exact ⟨⟨p, hp, by rw [hl]; rfl⟩, by rw [hi]; rfl⟩

/-! Restart and return of a port. -/

theorem exec_hostWarmRestart {s : State} (ha : s.arg.a < 2) : exec .hostWarmRestart s = .next { s with
    pop := s.pop.set s.arg.a [], portUp := s.portUp.set s.arg.a false, detached := (s.detached ++ s.hostDescs.map (s.arg.a * 2 ^ 52 + ·)).eraseDups, hostLines := s.hostLines.filter (fun p => p.1 / 2 ^ 45 != s.arg.a),
    dir := dirWithout s.dir (fun _ => true) (fun _ => true) (hostLineOf s.arg.a) } := by
  show execHostWarmRestart s = _
  unfold execHostWarmRestart
  rw [if_neg (not_le.mpr ha)]

theorem exec_hostLinkReturn {s : State} (ha : s.arg.a < field s.capiod 29 2) : exec .hostLinkReturn s = .next { s with portUp := s.portUp.set s.arg.a true } := by
  show execHostLinkReturn s = _
  unfold execHostLinkReturn
  rw [if_neg (not_le.mpr ha)]

/-- Settles O50: one equation for each event and each way it can end, and what a directory without copies still lists. -/
theorem hostEvents : Obligations.HostEvents := by
  refine ⟨fun s w hport hw => exec_inboundPostedWrite_arrives hport hw, fun s before x after s1 hport hw hready hbefore hx => exec_inboundPostedWrite_passes hport hw hready hbefore hx, ?_, ?_, ?_,
    fun s p hport hok hp hline => exec_cxlMemRequest_waits hport hok hp hline, fun s haddr hp => exec_hostSnoop haddr hp,
    fun d line => ⟨fun p hp hl => dirWithout_named hp hl, fun p hp hl hi => dirWithout_other hp hl hi⟩, fun s ha => exec_hostWarmRestart ha, fun s ha => exec_hostLinkReturn ha⟩
  · intro s port x rest h
    refine ⟨fun y hy => ?_, fun hx => (State.popReady_cons h x).mpr (.inl ⟨rfl, hx⟩)⟩
    rw [State.popReady_cons h y]
    constructor
    · rintro (⟨rfl, hrelaxed | hidle⟩ | ⟨-, hrelaxed⟩)
      · exact .inl hrelaxed
      · exact .inr ⟨rfl, hidle⟩
      · exact .inl hrelaxed
    · rintro (hrelaxed | ⟨rfl, hidle⟩)
      · exact .inr ⟨hy, hrelaxed⟩
      · exact .inl ⟨rfl, .inr hidle⟩
  · intro s hport hlen hpop hidle
    exact ⟨fun hflag => exec_inboundRead_bar0 hport hlen hpop hidle hflag, fun hflag hin => exec_inboundRead_fails hport hlen hpop hidle hflag hin,
      fun u acc hflag hin hp => exec_inboundRead_answers hport hlen hpop hidle hflag hin hp⟩
  · intro s hport hok hp
    refine ⟨fun hflag => exec_cxlMemRequest_read hport hok hp hflag, fun hflag => ?_⟩
    obtain ⟨p, hpe, ht⟩ := exec_cxlMemRequest_write hport hok hp hflag
    obtain ⟨hmem, -⟩ := s.hitFences_buffers (upFrom s.arg.a s.arg.b)
    refine ⟨_, ht, hmem, ?_⟩
    rw [List.map_append, List.map_singleton, hpe]

end Sys2Proof.Machine
end

section
/-! Soundness (O56), the layer of the state's operations: what writes memory or units leaves memory canonical and every unit under its own key. -/

namespace Sys2Proof.Machine

/-! What soundness rests on. -/

/-- A state that agrees in memory and units. -/
theorem State.sound_of_eq {s t : State} (h : s.sound) (hm : t.mem = s.mem := by rfl) (hu : t.units = s.units := by rfl) : t.sound := by
  obtain ⟨hwf, hkeyed⟩ := h
  refine ⟨by rw [hm]; exact hwf, ?_⟩
  unfold State.keyed
  rw [hu]
  exact hkeyed

/-- Units that change under their keys. -/
theorem State.sound_units {s : State} (h : s.sound) {f : Nat × WorkUnit → Nat × WorkUnit} (hf : ∀ p : Nat × WorkUnit, p.2.uid = p.1 → (f p).2.uid = (f p).1) :
    State.sound { s with units := s.units.map f } := by
  refine ⟨h.1, fun p hp => ?_⟩
  obtain ⟨q, hq, rfl⟩ := List.mem_map.mp hp
  exact hf q (h.2 q hq)

theorem State.sound_setUnit {s : State} (h : s.sound) (u : WorkUnit) : (s.setUnit u).sound := ⟨h.1, State.keyed_setUnit h.2⟩

theorem State.sound_mem {s : State} (h : s.sound) {m : SMap Byte} (hm : Memory.wf m = true) : State.sound { s with mem := m } := ⟨hm, h.2⟩

/-- Either of two sound states. -/
theorem sound_ite {c : Prop} [Decidable c] {s t : State} (hs : s.sound) (ht : t.sound) : (if c then s else t).sound := by
  split
  · exact hs
  · exact ht

/-- Operations one after another. -/
theorem sound_foldl {α : Type} {f : State → α → State} (hf : ∀ s x, s.sound → (f s x).sound) {s : State} (h : s.sound) (xs : List α) : (xs.foldl f s).sound := by
  induction xs generalizing s with
  | nil => exact h
  | cons x xs ih => exact ih (hf s x h)

/-- Operations one after another that carry a value beside the state. -/
theorem sound_foldl_fst {α β : Type} {f : State × β → α → State × β} (hf : ∀ r x, r.1.sound → (f r x).1.sound) {r : State × β} (h : r.1.sound) (xs : List α) : (xs.foldl f r).1.sound := by
  induction xs generalizing r with
  | nil => exact h
  | cons x xs ih => exact ih (hf r x h)

/-! Memory, dies, reports and units. -/

section
variable {s : State} (h : s.sound)
include h

theorem State.sound_wr (k n v : Nat) : (s.wr k n v).sound := ⟨State.wf_wr h.1, h.2⟩

theorem State.sound_wr8 (k v : Nat) : (s.wr8 k v).sound := ⟨State.wf_wr8 h.1, h.2⟩

theorem State.sound_zeroRange (a n : Nat) : (s.zeroRange a n).sound := ⟨State.wf_zeroRange h.1, h.2⟩

theorem State.sound_setDie (d : Nat) (x : Die) : (s.setDie d x).sound := h

theorem State.sound_report (rule arg : Nat) : (s.report rule arg).sound := h

theorem State.sound_sendPeer (dev : Nat) (keys : List Nat) : (s.sendPeer dev keys).sound := h

theorem State.sound_setMbx (m : Nat) (x : Mailbox) : (s.setMbx m x).sound := h

theorem State.sound_setLaunch (x : Launch) : (s.setLaunch x).sound := h

theorem State.sound_dropBarges (uid : Nat) : (s.dropBarges uid).sound := h

theorem State.sound_dropPending (uid : Nat) : (s.dropPending uid).sound := h

theorem State.sound_sluiceReturn (die n : Nat) : (s.sluiceReturn die n).sound := h

theorem State.sound_icacheUpdate (die : Nat) (keys : List Nat) : (s.icacheUpdate die keys).sound := h

theorem State.sound_reattach (keys : List Nat) : (s.reattach keys).sound := h

theorem State.sound_noFerry (hit : Nat → Nat → Bool) : (s.noFerry hit).sound := h

theorem State.sound_noImage (hit : Nat → Nat → Bool) : (s.noImage hit).sound := h

theorem State.sound_redescribed (s0 : State) (keys : List Nat) : (s0.redescribed keys s).sound := h

theorem State.sound_noteWalk (u : WorkUnit) (a : Nat) : (s.noteWalk u a).sound := by
  unfold State.noteWalk
  split
  · split
    · split
      · exact State.sound_report h _ _
      · exact h
    · exact h
  · exact h

theorem State.sound_onUnit (uid : Nat) (f : WorkUnit → WorkUnit) : (s.onUnit uid f).sound := by
  unfold State.onUnit
  split
  · exact State.sound_setUnit h _
  · exact h

theorem State.sound_onGroup (uid i : Nat) (f : Group → Group) : (s.onGroup uid i f).sound := State.sound_onUnit h uid _

/-! What wakes: saved units, threshold loads, fences, acquires. -/

theorem State.sound_rouse (uid : Nat) : (s.rouse uid).sound := by
  unfold State.rouse
  split
  · exact h
  · split
    · exact h
    · exact State.sound_setUnit h _

theorem State.sound_wakeThresholds : s.wakeThresholds.sound := by
  unfold State.wakeThresholds
  refine sound_foldl (fun t uid ht => State.sound_rouse ht uid) (State.sound_units h fun p hp => ?_) _
  dsimp only
  split <;> exact hp

theorem State.sound_hitFences (keys : List Nat) : (s.hitFences keys).sound := State.sound_units h fun _ hp => hp

theorem State.sound_cbPoll (n : Nat) (g : Group) : (State.cbPoll n s g).1.sound := by
  induction n generalizing s g with
  | zero => exact h
  | succ n ih =>
    unfold State.cbPoll
    split
    · exact h
    · split
      · exact h
      · exact ih (State.sound_wr8 h _ _) _

theorem State.sound_cbWakeUnit (keys : List Nat) (uid : Nat) : (State.cbWakeUnit keys s uid).sound := by
  unfold State.cbWakeUnit
  split
  · exact h
  · split
    · split
      · exact State.sound_rouse h uid
      · exact h
    · refine sound_foldl (fun t i ht => ?_) h _
      split
      · exact ht
      · split
        · exact State.sound_setUnit (State.sound_cbPoll ht _ _) _
        · exact ht

theorem State.sound_cbWake (keys : List Nat) : (s.cbWake keys).sound := sound_foldl (fun _ uid ht => State.sound_cbWakeUnit ht keys uid) h _

/-! Levels, stores that commit, the directory and translations. -/

theorem State.sound_memberDone (fuel i status : Nat) : (State.memberDone fuel i status s).sound := by
  induction fuel generalizing s i status with
  | zero => exact h
  | succ fuel ih =>
    unfold State.memberDone
    split
    · exact h
    · split
      · split
        · exact State.sound_report h _ _
        · exact h
      · dsimp only
        split
        · exact ih (State.sound_wr8 (State.sound_wr8 h _ _) _ _) _ _
        · exact State.sound_wr8 (State.sound_wr8 h _ _) _ _

theorem State.sound_levelStarts (s0 : State) (i : Nat) : (s0.levelStarts s i).sound := by
  unfold State.levelStarts
  dsimp only
  split
  · exact State.sound_memberDone (State.sound_wr8 h _ _) _ _ _
  · exact h

theorem State.sound_expose (die : Nat) (keys : List Nat) (bytes : List Byte) : (s.expose die keys bytes).sound := by
  have hw : State.sound { s.reattach keys with mem := Memory.writeAll s.mem keys ((keys.zip bytes).map (fun p => s.kept p.1 p.2)),
                                               hostLines := s.hostLines.filter (fun p => !(keys.any (fun k => k / 128 == p.1 % 2 ^ 45))) } := ⟨Memory.wf_writeAll h.1, h.2⟩
  exact sound_foldl (fun _ i ht => State.sound_levelStarts ht s i) (State.sound_cbWake (State.sound_wakeThresholds (State.sound_icacheUpdate (State.sound_redescribed hw s keys) die keys)) keys) _

theorem State.sound_joinCell (die lt : Nat) (keys : List Nat) (v : Nat) : (s.joinCell die lt keys v).sound := State.sound_expose h _ _ _

theorem State.sound_evictLine (line : Nat) : (s.evictLine line).sound := State.sound_hitFences (State.sound_of_eq (t := { s with dir := AMap.erase s.dir line }) h) _

theorem State.sound_makeRoom (line home : Nat) : (s.makeRoom line home).sound := by
  unfold State.makeRoom
  split
  · exact h
  · dsimp only
    split
    · exact h
    · split
      · exact State.sound_evictLine h _
      · exact h

theorem State.sound_entryFor (line home : Nat) : (s.entryFor line home).1.sound := by
  unfold State.entryFor
  split
  · exact h
  · exact State.sound_makeRoom h line home

theorem State.sound_setScope (r : Nat × Nat) (scope inst : Nat) : (s.setScope r scope inst).sound := State.sound_of_eq (State.sound_entryFor h r.1 r.2)

theorem State.sound_wrEntry (e : LinkEntry) (off v : Nat) : (s.wrEntry e off v).sound := State.sound_hitFences (sound_foldl (fun _ k ht => State.sound_wr8 ht k v) h _) _

theorem State.sound_entryState (e : LinkEntry) (st : Nat) : (s.entryState e st).sound := State.sound_wrEntry h e _ _

theorem State.sound_share (core : Nat) (lines : List (Nat × Nat)) : (s.share core lines).sound := by
  refine sound_foldl (fun t p ht => ?_) h _
  dsimp only
  split
  · exact ht
  · exact State.sound_of_eq (State.sound_entryFor ht p.1 p.2)

theorem State.sound_dropCopy (line die : Nat) (core : Option Nat) : (s.dropCopy line die core).sound := by
  unfold State.dropCopy
  exact sound_ite h h

theorem State.sound_ackUpdate (j core : Nat) : (s.ackUpdate j core).sound := by
  unfold State.ackUpdate
  split <;> exact h

theorem State.sound_keepCore (e : TlbEntry) : (s.keepCore e).sound := by
  unfold State.keepCore
  exact sound_ite h h

theorem State.sound_keepDie (e : TlbEntry) : (s.keepDie e).sound := by
  unfold State.keepDie
  split
  · exact h
  · dsimp only
    split
    · exact h
    · split <;> exact h

theorem State.sound_learn (t : Option TlbEntry) : (s.learn t).sound := by
  unfold State.learn
  split
  · exact State.sound_keepDie h _
  · exact h

theorem State.sound_learnAt (core : Nat) (t : Option TlbEntry) : (s.learnAt core t).sound := by
  unfold State.learnAt
  split
  · exact State.sound_keepCore (State.sound_keepDie h _) _
  · exact h

/-! Mailboxes, launches and the end of a unit. -/

theorem State.sound_setMbxField (m lo n v : Nat) : (s.setMbxField m lo n v).sound := State.sound_wr8 h _ _

theorem State.sound_park (m : Nat) (msg : List Byte) : (s.park m msg).sound := State.sound_setMbx h _ _

theorem State.sound_hold (m : Nat) (msg : List Byte) : (s.hold m msg).sound := by
  have hw : State.sound { s with mem := Memory.writeAll s.mem (upFrom (s.rd8 (s.mbxAddr m + 16) + 256 * (s.mbx m).next) msg.length) msg,
                                 hostLines := unhost s.hostLines (s.rd8 (s.mbxAddr m + 16) + 256 * (s.mbx m).next) msg.length } := ⟨Memory.wf_writeAll h.1, h.2⟩
  exact State.sound_setMbxField (State.sound_setMbx hw _ _) _ _ _ _

theorem State.sound_fire (m : Nat) (msg : List Byte) : (s.fire m msg).sound := by
  unfold State.fire
  exact sound_ite (State.sound_hold h m msg) (State.sound_park h m msg)

theorem State.sound_launchDone (l : Launch) : (s.launchDone l).sound := by
  unfold State.launchDone
  extract_lets s1 msg dm s2
  have h1 : s1.sound := State.sound_memberDone (State.sound_setLaunch h _) _ _ _
  have h2 : s2.sound := sound_ite h1 (sound_ite (State.sound_fire h1 _ _) (sound_ite (State.sound_park h1 _ _) h1))
  exact sound_ite (State.sound_setMbxField h2 _ _ _ _) h2

theorem State.sound_unitDone (uid status : Nat) : (s.unitDone uid status).sound := by
  unfold State.unitDone
  split
  · exact h
  · split
    · exact h
    · dsimp only
      have h1 (u : WorkUnit) (slots : List Slot) : State.sound { ((s.setUnit u).dropBarges uid).dropPending uid with slots := slots } :=
        State.sound_of_eq (State.sound_dropPending (State.sound_dropBarges (State.sound_setUnit h u) uid) uid)
      split
      · exact h1 _ _
      · split
        · exact State.sound_launchDone (h1 _ _) _
        · exact State.sound_setLaunch (h1 _ _) _

end

end Sys2Proof.Machine
end

section
/-! Soundness (O56), the layer of an issue: how a word ends, one that reads its registers first, and the accesses of lanes. -/

namespace Sys2Proof.Machine

/-- An outcome whose next state, where it has one, is sound. -/
def soundOut : Out → Prop
  | .next t => t.sound
  | _ => True

theorem soundOut_ite {c : Prop} [Decidable c] {a b : Out} (ha : soundOut a) (hb : soundOut b) : soundOut (if c then a else b) := by
  split
  · exact ha
  · exact hb

theorem State.sound_env {s : State} (h : s.sound) {e : Env} (he : s.env? = some e) : e.s.sound := by
  have hes : e.s = s := by
    unfold State.env? at he
    repeat' split at he
    all_goals cases he
    rfl
  rw [hes]
  exact h

/-- What an issue acts in comes from a sound state. -/
theorem State.sound_issue {s : State} (h : s.sound) {k : Env → Out} (hk : ∀ e : Env, e.s.sound → soundOut (k e)) : soundOut (s.issue k) := by
  unfold State.issue
  split
  next e he => exact soundOut_ite h (hk e (State.sound_env h he))
  · trivial

/-! How a word ends. -/

section
variable {e : Env} (he : e.s.sound)
include he

theorem Env.sound_out : e.out.sound := State.sound_setUnit he _

theorem Env.sound_stop {fs : List (Nat × LFault)} : (e.stop fs).s.sound := by
  unfold Env.stop
  dsimp only
  split <;> exact he

theorem Env.sound_close {outs : List (Nat × LaneOut)} : (e.close outs).s.sound := Env.sound_stop (by exact he)

theorem Env.sound_finish {outs : List (Nat × LaneOut)} : soundOut (e.finish outs) := Env.sound_out (Env.sound_close he)

theorem Env.sound_faultAll {f : LFault} : soundOut (e.faultAll f) := Env.sound_finish he

theorem Env.sound_illegal : soundOut e.illegal := Env.sound_finish he

theorem Env.sound_stall : soundOut e.stall := he

theorem Env.sound_groupTo {pc : Nat} : soundOut (e.groupTo pc) := Env.sound_out (by exact he)

theorem Env.sound_groupNext : soundOut e.groupNext := Env.sound_groupTo he

theorem Env.sound_groupFault {f : LFault} : soundOut (e.groupFault f) := Env.sound_out (Env.sound_stop (by exact he))

theorem Env.sound_groupIllegal : soundOut e.groupIllegal := Env.sound_groupFault he

theorem Env.sound_faultActive {gn : Nat} {f : LFault} : soundOut (e.faultActive gn f) := Env.sound_finish he

theorem Env.sound_wholeWait {ps : List (Nat × Nat)} : soundOut (e.wholeWait ps) := Env.sound_finish (by exact he)

/-! Words that read their registers first. -/

theorem Env.sound_run {gn : Nat} {xs : List Src} {f : View → Nat → Except LFault Writes} : soundOut (e.run gn xs f) := Env.sound_finish (by exact he)

theorem Env.sound_runX {gn : Nat} {pop xs : List Src} {reads : View → Nat → List (Nat × Src)} {f : View → Nat → Writes} {sw : View → Option (Nat × DWord)} {emp : Bool} :
    soundOut (e.runX gn pop xs reads f sw emp) := by
  unfold Env.runX
  exact soundOut_ite (Env.sound_finish he) (soundOut_ite (Env.sound_wholeWait he) (Env.sound_finish (by exact he)))

theorem Env.sound_whenFull {ss : List Nat} {k : Out} (hk : soundOut k) : soundOut (e.whenFull ss k) := by
  unfold Env.whenFull
  refine soundOut_ite (Env.sound_stall he) ?_
  split
  · exact Env.sound_groupFault he
  · exact hk

end

/-! Words that act lane by lane, or once. -/

/-- A lane's step that leaves a sound state sound. -/
abbrev soundLane {α : Type} (k : View → Env → Nat → α → Env × LaneOut) : Prop := ∀ w e l a, e.s.sound → (k w e l a).1.s.sound

section
variable {e : Env} (he : e.s.sound)
include he

theorem Env.sound_each {α : Type} {gn : Nat} {ss : Bool} {xs : Nat → List Src} {chk : View → Nat → Except LFault α} {waits : View → List (Nat × α) → Bool}
    {k : View → Env → Nat → α → Env × LaneOut} (hk : soundLane k) {after : Env → List (Nat × LaneOut) → Env} (hafter : ∀ e outs, e.s.sound → (after e outs).s.sound) :
    soundOut (e.each gn ss xs chk waits k after) := by
  have hfold (w : View) (ps : List (Nat × α)) : ∀ r : Env × List (Nat × LaneOut), r.1.s.sound → (ps.foldl (w.turn k) r).1.s.sound := by
    induction ps with
    | nil => exact fun r hr => hr
    | cons p ps ih => exact fun r hr => ih _ (hk w r.1 p.1 p.2 hr)
  unfold Env.each
  exact soundOut_ite (Env.sound_stall he) (Env.sound_finish (hafter _ _ (hfold _ _ _ (by exact he))))

theorem Env.sound_eachLane {gn : Nat} {xs : List Src} {k : View → Env → Nat → Env × LaneOut} (hk : ∀ w e l, e.s.sound → (k w e l).1.s.sound) : soundOut (e.eachLane gn xs k) :=
  Env.sound_each he (fun w e l _ h => hk w e l h) (fun _ _ h => h)

theorem Env.sound_once {α : Type} {gn : Nat} {ss : Bool} {xs : List Src} {chk : View → Nat → Except LFault α} {waits : List Nat → Nat → α → Bool}
    {k : View → Nat → α → Env × LaneOut} (hk : ∀ w l a, (k w l a).1.s.sound) : soundOut (e.once gn ss xs chk waits k) := by
  unfold Env.once
  dsimp only
  split
  · exact Env.sound_finish he
  · split
    · exact Env.sound_finish he
    · exact soundOut_ite (Env.sound_stall he) (Env.sound_finish (hk _ _ _))

end

/-! Accesses. -/

section
variable {e : Env} (he : e.s.sound)
include he

theorem Env.sound_touched (ls : List Nat) (a : Acc) (load : Bool) : (e.touched ls a load).s.sound := State.sound_share (State.sound_learnAt he _ _) _ _

theorem Env.sound_produce {p : Producer} : (e.produce p).s.sound := by
  unfold Env.produce
  split <;> exact he

theorem Env.sound_merge {n0 : Nat} : (e.merge n0).s.sound := he

theorem Env.sound_wrote {keys : List Nat} : (e.wrote keys).s.sound := by
  unfold Env.wrote
  split <;> exact he

theorem Env.sound_store {lane : Nat} {others : List Nat} {acc : Acc} {bytes : List Byte} {rel addr : Nat} : (e.store lane others acc bytes rel addr).s.sound := by
  have h1 : ((e.touched (lane :: others) acc false).wrote acc.keys).s.sound := Env.sound_wrote (Env.sound_touched he _ _ _)
  unfold Env.store
  dsimp only
  split <;> exact h1

theorem Env.sound_stored {n0 : Nat} : (e.stored n0).s.sound := by
  unfold Env.stored
  dsimp only
  split <;> exact he

end

theorem Env.sound_changed {e : Env} {s : State} (h : s.sound) {keys : List Nat} : (e.changed s keys).s.sound := State.sound_hitFences h keys

theorem State.sound_latticeStore {s : State} (h : s.sound) (die : Nat) (g : Seg) (seg off : Nat) (keys : List Nat) (bytes : List Byte) : (s.latticeStore die g seg off keys bytes).1.sound := by
  unfold State.latticeStore
  refine sound_foldl_fst (fun r i hr => ?_) h _
  dsimp only
  split
  · exact State.sound_expose hr _ _ _
  · exact hr

end Sys2Proof.Machine
end

section
/-! Soundness (O56), the lane words: what each step of a lane and each family of words leaves. -/

namespace Sys2Proof.Machine

/-! The streams' entries. -/

/-- A guarded answer that is given comes from the branch that gives it. -/
theorem ite_none_eq_some {α : Type} {c : Prop} [Decidable c] {x : Option α} {y : α} (h : (if c then none else x) = some y) : x = some y := by
  split at h
  · exact nomatch h
  · exact h

/-- What the reads of a pattern's entry leave behind: reports of malformed walks, and the lines shared. -/
theorem State.sound_entryRead {s : State} (h : s.sound) (u : WorkUnit) (b : Nat → Nat) (accs : List (Except Bad Acc × Nat)) :
    State.sound (accs.foldl (fun (s : State) a => match a.1 with
      | .ok acc => (s.learnAt u.core acc.tlb).share u.core acc.cached
      | .error _ => s.noteWalk u (b a.2)) s) := by
  refine sound_foldl (fun s a hs => ?_) h accs
  obtain ⟨e | acc, i⟩ := a
  · exact State.sound_noteWalk hs u _
  · exact State.sound_share (State.sound_learnAt hs _ _) _ _

theorem State.sound_streamEntry {s t : State} (h : s.sound) {u : WorkUnit} {grp : Nat} {g : Group} {b : Binding} {n : Nat} {ans : List PeerPart} {x : List Elem}
    (ht : s.streamEntry u grp g b n ans = some (x, t)) : t.sound := by
  unfold State.streamEntry at ht
  extract_lets p late accs blocked ans' elem seen at ht
  have hseen : seen.sound := State.sound_entryRead h u (fun i => addrNat (patAddr p n i)) accs.zipIdx
  clear_value seen
  have hsome := Option.some.inj (ite_none_eq_some (ite_none_eq_some (ite_none_eq_some ht)))
  rw [← (Prod.mk.inj hsome).2]
  exact State.sound_of_eq hseen

/-- A fold of answers keeps what every answer keeps. -/
theorem foldl_option_keeps {α β : Type} {P : β → Prop} {f : Option β → α → Option β} (hf : ∀ q x r, (∀ b, q = some b → P b) → f q x = some r → P r) (xs : List α) :
    ∀ q : Option β, (∀ b, q = some b → P b) → ∀ b, xs.foldl f q = some b → P b := by
  induction xs with
  | nil => exact fun q hq => hq
  | cons x xs ih => exact fun q hq => ih (f q x) (fun r hr => hf q x r hq hr)

theorem State.sound_popRows {s t : State} (h : s.sound) {u v : WorkUnit} {grp reg n : Nat} {es : List (List Elem)} (ht : s.popRows u grp reg n = some (es, t, v)) : t.sound := by
  unfold State.popRows at ht
  split at ht
  · exact nomatch ht
  split at ht
  · exact nomatch ht
  next g _ b _ =>
    obtain ⟨q, hq, hqt⟩ := Option.map_eq_some_iff.mp ht
    have hqs : q.2.sound := by
      refine foldl_option_keeps (P := fun q : List (List Elem) × State => q.2.sound) ?_ _ _ ?_ q hq
      · intro r i r' hr hr'
        split at hr'
        · exact nomatch hr'
        next _ es s1 =>
          have h1 : s1.sound := hr (es, s1) rfl
          split at hr'
          · rw [← Option.some.inj hr']
            exact h1
          · split at hr'
            next hentry =>
              rw [← Option.some.inj hr']
              exact State.sound_streamEntry h1 hentry
            · exact nomatch hr'
      · intro b hb
        rw [← Option.some.inj hb]
        exact h
    rw [← (Prod.mk.inj (Prod.mk.inj hqt).2).1]
    exact hqs

/-! Signing and the queues of the matrix set. -/

section
variable {s : State} (h : s.sound)
include h

theorem State.sound_ask (die prio : Nat) (who : Waiter) (demand : Nat) : (s.ask die prio who demand).sound := h

theorem State.sound_leaveEnds (die : Nat) (who : Waiter) : (s.leaveEnds die who).sound := by
  unfold State.leaveEnds
  dsimp only
  split <;> exact h

theorem State.sound_unask (die : Nat) (who : Waiter) : (s.unask die who).sound := h

theorem State.sound_beginMatrix {t : State} {u : WorkUnit} {o : HeavyOp} (ht : s.beginMatrix u o = some t) : t.sound := by
  unfold State.beginMatrix at ht
  dsimp only at ht
  split at ht
  · cases ht
  · split at ht
    · cases ht
      exact State.sound_setUnit h _
    · split at ht
      · cases ht
      · next hp =>
        split at ht <;> cases ht <;> exact State.sound_setUnit (State.sound_popRows h hp) _

end

/-- A state that an operation gives, or else another. -/
theorem sound_getD {x : Option State} {t : State} (hx : ∀ r, x = some r → r.sound) (ht : t.sound) : (x.getD t).sound := by
  cases x with
  | none => exact ht
  | some r => exact hx r rfl

theorem State.sound_matrixIssue {s : State} (h : s.sound) (u : WorkUnit) (n : Nat) : (s.matrixIssue u n).sound := by
  unfold State.matrixIssue
  extract_lets c ms
  refine sound_ite (State.sound_setUnit h _) ?_
  split
  · exact State.sound_setUnit h _
  split
  · exact State.sound_setUnit h _
  dsimp only
  split
  · exact State.sound_setUnit h _
  refine sound_ite (State.sound_setUnit h _) (sound_ite (sound_getD (fun r hr => ?_) (State.sound_setUnit h _)) (State.sound_ask (State.sound_setUnit h _) _ _ _ _))
  split at hr
  · exact State.sound_beginMatrix h hr
  · exact nomatch hr

theorem State.sound_convergenceTest {s : State} (h : s.sound) (uid : Nat) : (s.convergenceTest uid).sound := by
  refine sound_foldl (fun s n hs => ?_) h _
  split
  · exact sound_ite hs (State.sound_matrixIssue hs _ _)
  · exact hs

/-! The queues of tiles, accumulators and panels. -/

/-- What a turn in the queues leaves. -/
def soundTurn : Turn → Prop
  | .wait => True
  | .queue e => e.s.sound
  | .go e _ => e.s.sound

theorem Env.sound_turn {e : Env} (he : e.s.sound) (i : Instr) (heavy : Bool) (lanes : List Nat) : soundTurn (e.turn i heavy lanes) := by
  unfold Env.turn
  dsimp only
  split
  · split
    · trivial
    · exact he
  · split
    · exact he
    · exact he

/-- A word at its turn, or before it. -/
theorem Env.sound_inLine {e : Env} (he : e.s.sound) {i : Instr} {heavy : Bool} {lanes : List Nat} {k : Env → Nat → Out} (hk : ∀ e n, e.s.sound → soundOut (k e n)) :
    soundOut (e.inLine i heavy lanes k) := by
  have hturn := Env.sound_turn he i heavy lanes
  unfold Env.inLine
  cases hq : e.turn i heavy lanes with
  | wait => exact Env.sound_stall he
  | queue e1 => exact Env.sound_out (hq ▸ hturn : soundTurn (.queue e1))
  | go e1 n => exact hk e1 n (hq ▸ hturn : soundTurn (.go e1 n))

theorem Env.sound_inTurn {e : Env} (he : e.s.sound) {i : Instr} {lanes : List Nat} {k : Env → Out} (hk : ∀ e, e.s.sound → soundOut (k e)) : soundOut (e.inTurn i lanes k) :=
  Env.sound_inLine he (fun e _ h => hk e h)

/-! Matrix words, tiles and panels. -/

theorem Env.sound_tiles {e : Env} (he : e.s.sound) {i : Instr} {k : Env → Out} (hk : ∀ e, e.s.sound → soundOut (k e)) : soundOut (e.tiles i k) :=
  soundOut_ite (Env.sound_groupFault he) (Env.sound_inTurn he hk)

/-- What a read within a word's own step leaves. -/
def soundNow : Now → Prop
  | .wait e => e.s.sound
  | .fail _ => True
  | .got e _ => e.s.sound

theorem Env.sound_readNow {e : Env} (he : e.s.sound) (ls : List Nat) (acc : Acc) (addr : Nat) : soundNow (e.readNow ls acc addr) := by
  unfold Env.readNow
  split
  · split
    · exact he
    · trivial
    · exact he
    · split
      · exact he
      · exact State.sound_sendPeer he _ _
  · split
    · exact he
    · exact he

section
variable {s : State} (h : s.sound)
include h

theorem sound_matrixWord (f : LW) (stream : Bool) (pair : Slotd → Slotd → Bool) : soundOut (matrixWord f stream pair s) := by
  refine State.sound_issue h fun e he => ?_
  split
  · exact soundOut_ite (Env.sound_illegal he) (soundOut_ite (Env.sound_stall he) (State.sound_convergenceTest (Env.sound_out (Env.sound_close (by exact he))) _))
  · exact Env.sound_illegal he

theorem sound_execTld (f : LW) : soundOut (execTld f s) :=
  State.sound_issue h fun _ he => soundOut_ite (Env.sound_illegal he) (soundOut_ite (Env.sound_faultActive he) (Env.sound_inTurn he fun _ he =>
    Env.sound_each he (fun _ _ _ _ he => Env.sound_produce (Env.sound_touched he _ _ _)) fun _ _ he => Env.sound_merge he))

theorem sound_execTread (f : LW) : soundOut (execTread f s) :=
  State.sound_issue h fun _ he => soundOut_ite (Env.sound_illegal he) (soundOut_ite (Env.sound_faultActive he) (Env.sound_inTurn he fun _ he =>
    Env.sound_each he (fun _ _ _ _ he => Env.sound_produce (by exact he)) fun _ _ he => Env.sound_merge he))

theorem sound_execTwrite (f : LW) : soundOut (execTwrite f s) :=
  State.sound_issue h fun _ he => soundOut_ite (Env.sound_illegal he) (soundOut_ite (Env.sound_faultActive he) (Env.sound_inTurn he fun _ he =>
    Env.sound_each he (fun _ _ _ _ he => he) fun _ _ he => he))

theorem sound_execTzero (f : GW) : soundOut (execTzero f s) :=
  State.sound_issue h fun _ he => soundOut_ite (Env.sound_groupIllegal he) (Env.sound_tiles he fun _ he => Env.sound_groupNext (by exact he))

theorem sound_execTcvt (f : GW) : soundOut (execTcvt f s) := by
  refine State.sound_issue h fun e he => soundOut_ite (Env.sound_groupIllegal he) ?_
  split
  · exact Env.sound_groupIllegal he
  · exact soundOut_ite (Env.sound_groupIllegal he) (Env.sound_tiles he fun _ he => Env.sound_groupNext (by exact he))

theorem sound_execTtr (f : GW) : soundOut (execTtr f s) :=
  State.sound_issue h fun _ he => soundOut_ite (Env.sound_groupIllegal he) (Env.sound_tiles he fun _ he => Env.sound_groupNext (by exact he))

theorem sound_maskWord (f : GW) (put : WorkUnit → WorkUnit) : soundOut (maskWord f put s) :=
  State.sound_issue h fun _ he => soundOut_ite (Env.sound_groupIllegal he) (soundOut_ite (Env.sound_groupFault he) (Env.sound_whenFull he (Env.sound_groupNext (by exact he))))

theorem sound_execWbld (f : GW) : soundOut (execWbld f s) := by
  refine State.sound_issue h fun e he => soundOut_ite (Env.sound_groupIllegal he) ?_
  dsimp only
  split
  · exact Env.sound_groupIllegal he
  refine soundOut_ite (Env.sound_groupFault he) (Env.sound_whenFull he ?_)
  split
  · exact Env.sound_groupFault he
  next acc _ =>
    refine Env.sound_inTurn he fun e0 he0 => soundOut_ite (Env.sound_stall he) ?_
    have hnow := Env.sound_readNow he0 e0.g.liveLanes acc (addrNat (ofBase (e.g.getS f.a).toNat 0))
    split
    next e1 hr => exact Env.sound_out (e := { e1 with u := e.u }) (hr ▸ hnow : soundNow (.wait e1))
    · exact Env.sound_groupFault he0
    next e1 bs hr =>
      have he1 : e1.s.sound := (hr ▸ hnow : soundNow (.got e1 bs))
      have he2 : (e1.touched e.g.liveLanes acc true).s.sound := Env.sound_touched he1 _ _ _
      exact soundOut_ite (Env.sound_groupFault he0) (Env.sound_groupNext (by exact he2))

theorem sound_execWbfree (f : GW) : soundOut (execWbfree f s) :=
  State.sound_issue h fun _ he => soundOut_ite (Env.sound_groupIllegal he) (soundOut_ite (Env.sound_groupFault he) (Env.sound_inTurn he fun _ he => Env.sound_groupNext (by exact he)))

end

end Sys2Proof.Machine
end

section
/-! Soundness (O56), the memory words of lanes and the factor words. -/

namespace Sys2Proof.Machine

/-! One lane of a memory word. -/

theorem soundLane_loadLane (f : LW) (dests : List Nat) (kind : Nat → ProdKind) : soundLane (loadLane f dests kind) := by
  intro w e l acc he
  have h1 := Env.sound_touched he [l] acc true
  exact Env.sound_produce (by exact h1)

/-- A lane's store: into whole lattice cells, to a peer, or into the store buffer. -/
theorem soundLane_storeLane (f : LW) (scope : Nat) (data : View → Nat → List Byte × Nat) : soundLane (storeLane f scope data) := by
  intro w e l acc he
  unfold storeLane
  dsimp only
  split
  · exact Env.sound_changed (State.sound_latticeStore (by exact he) _ _ _ _ _ _)
  · exact Env.sound_store (by exact he)

theorem soundLane_stjLane (f : LW) : soundLane (stjLane f) := fun _ _ _ _ he => Env.sound_changed (State.sound_joinCell (Env.sound_touched he _ _ _) _ _ _ _)

theorem soundLane_ldjLane (f : LW) : soundLane (ldjLane f) := by
  intro w e l acc he
  have h1 := Env.sound_touched he [l] acc true
  unfold ldjLane
  extract_lets wide e1 c t g
  split
  · exact h1
  · exact h1

theorem soundLane_ldjNbLane (f : LW) : soundLane (ldjNbLane f) := fun _ _ l acc he => Env.sound_touched he [l] acc true

theorem soundLane_atomLane (f : LW) (n : Nat) (wide sgn : Bool) (op : Nat → AtomOp) : soundLane (atomLane f n wide sgn op) := by
  intro w e l acc he
  have h1 := Env.sound_touched he [l] acc false
  exact Env.sound_produce (by exact h1)

theorem sound_ldsStep (f : LW) {e : Env} (he : e.s.sound) (w : View) (l : Nat) (acc : Acc) : (ldsStep f e w l acc).1.s.sound := by
  have h1 := Env.sound_touched he w.act acc true
  exact Env.sound_merge (Env.sound_produce (by exact h1))

theorem sound_stsStep (f : LW) {e : Env} (he : e.s.sound) (w : View) (l : Nat) (acc : Acc) : (stsStep f e w l acc).1.s.sound := by
  unfold stsStep
  dsimp only
  split
  · exact Env.sound_changed (State.sound_latticeStore he _ _ _ _ _ _)
  · exact Env.sound_stored (Env.sound_store he)

theorem sound_ldlStep (f : LW) {e : Env} (he : e.s.sound) (w : View) (l : Nat) (acc : Acc) : (ldlStep f e w l acc).1.s.sound := by
  have h1 := Env.sound_touched he w.act acc true
  unfold ldlStep
  dsimp only
  split
  · exact h1
  split
  · exact Env.sound_merge (Env.sound_produce (by exact h1))
  · exact h1
  · exact State.sound_entryState h1 _ _

/-! The words. -/

section
variable {e : Env} (he : e.s.sound)
include he

theorem Env.sound_storeIn {f : LW} {n align scope : Nat} {xs : List Src} {pre : View → Nat → Except LFault Unit} {data : View → Nat → List Byte × Nat} :
    soundOut (e.storeIn f n align scope xs pre data) :=
  Env.sound_each he (soundLane_storeLane _ _ _) fun _ _ he => Env.sound_stored he

end

section
variable {s : State} (h : s.sound)
include h

theorem sound_loadWord {f : LW} {n align : Nat} {dests : List Nat} {kind : Nat → ProdKind} : soundOut (loadWord f n align dests kind s) :=
  State.sound_issue h fun _ he => Env.sound_each he (soundLane_loadLane f dests kind) fun _ _ he => Env.sound_merge he

theorem sound_storeWord {f : LW} {n align scope : Nat} {xs : List Src} {pre : View → Nat → Except LFault Unit} {data : View → Nat → List Byte × Nat} :
    soundOut (storeWord f n align scope xs pre data s) := State.sound_issue h fun _ he => Env.sound_storeIn he

theorem sound_execLd (f : LW) : soundOut (execLd f s) :=
  State.sound_issue h fun _ he => soundOut_ite (Env.sound_illegal he) (sound_loadWord h)

theorem sound_execLdv (f : LW) : soundOut (execLdv f s) :=
  State.sound_issue h fun _ he => soundOut_ite (Env.sound_illegal he) (sound_loadWord h)

theorem sound_execSt (f : LW) : soundOut (execSt f s) := State.sound_issue h fun _ he => soundOut_ite (Env.sound_illegal he) (sound_storeWord h)

theorem sound_execStv (f : LW) : soundOut (execStv f s) := State.sound_issue h fun _ he => soundOut_ite (Env.sound_illegal he) (sound_storeWord h)

theorem sound_execTst (f : LW) : soundOut (execTst f s) :=
  State.sound_issue h fun _ he => soundOut_ite (Env.sound_illegal he) (soundOut_ite (Env.sound_faultActive he) (Env.sound_inTurn he fun _ he => Env.sound_storeIn he))

theorem sound_execLds (f : LW) : soundOut (execLds f s) :=
  State.sound_issue h fun _ he => soundOut_ite (Env.sound_illegal he) (Env.sound_once he (sound_ldsStep f he))

theorem sound_execSts (f : LW) : soundOut (execSts f s) :=
  State.sound_issue h fun _ he => soundOut_ite (Env.sound_illegal he) (Env.sound_once he (sound_stsStep f he))

theorem sound_execLdl (f : LW) : soundOut (execLdl f s) :=
  State.sound_issue h fun _ he => soundOut_ite (Env.sound_illegal he) (Env.sound_once he (sound_ldlStep f he))

theorem sound_execStj (f : LW) : soundOut (execStj f s) :=
  State.sound_issue h fun _ he => soundOut_ite (Env.sound_illegal he) (Env.sound_each he (soundLane_stjLane f) fun _ _ he => he)

theorem sound_execLdj (f : LW) : soundOut (execLdj f s) :=
  State.sound_issue h fun _ he => soundOut_ite (Env.sound_illegal he) (Env.sound_each he (soundLane_ldjLane f) fun _ _ he => he)

theorem sound_execLdjNb (f : LW) : soundOut (execLdjNb f s) :=
  State.sound_issue h fun _ he => soundOut_ite (Env.sound_illegal he) (Env.sound_each he (soundLane_ldjNbLane f) fun _ _ he => he)

theorem sound_atomWord {f : LW} {n : Nat} {wide sgn exp : Bool} {use : LatUse} {op : Nat → AtomOp} : soundOut (atomWord f n wide sgn exp use op s) :=
  State.sound_issue h fun _ he => Env.sound_each he (soundLane_atomLane _ _ _ _ _) fun _ _ he => Env.sound_merge he

theorem sound_amoWord (f : LW) (use : LatUse) (exp : Bool) (op : Nat → AtomOp) : soundOut (amoWord f use exp op s) :=
  State.sound_issue h fun _ he => soundOut_ite (Env.sound_illegal he) (sound_atomWord h)

theorem sound_execAmof (f : LW) : soundOut (execAmof f s) := State.sound_issue h fun _ he => soundOut_ite (Env.sound_illegal he) (sound_atomWord h)

end

/-! Factor words. -/

section
variable {s : State} (h : s.sound)
include h

theorem State.sound_beginFactor (u : WorkUnit) (o : HeavyOp) : (s.beginFactor u o).1.sound := by
  unfold State.beginFactor
  dsimp only
  split
  · exact State.sound_setUnit h _
  · exact State.sound_setUnit h _

theorem State.sound_beginHeavy {t : State} {u : WorkUnit} {o : HeavyOp} (ht : s.beginHeavy u o = some t) : t.sound := by
  unfold State.beginHeavy at ht
  obtain ⟨r, hr, rfl⟩ := Option.map_eq_some_iff.mp (ite_none_eq_some ht)
  have hrs : r.sound := by
    split at hr
    · exact State.sound_beginMatrix h hr
    · rw [← Option.some.inj hr]
      exact State.sound_beginFactor h _ _
  exact sound_ite hrs (State.sound_leaveEnds hrs _ _)

theorem State.sound_giveLeave (u : WorkUnit) (o : HeavyOp) : (s.giveLeave u o).sound :=
  sound_getD (fun _ hr => State.sound_beginHeavy h hr) (State.sound_setUnit h _)

theorem Env.sound_heavyAsks (e : Env) (o : HeavyOp) (demand : Nat) : (e.heavyAsks o demand s).sound := by
  unfold Env.heavyAsks
  split
  · split
    · exact State.sound_giveLeave h _ _
    · exact h
  · exact State.sound_ask h _ _ _ _

theorem sound_execMatrixOperationComplete : soundOut (execMatrixOperationComplete s) := by
  unfold execMatrixOperationComplete
  split
  · exact h
  split
  · exact h
  refine soundOut_ite h (soundOut_ite ?_ ?_)
  · exact sound_ite (sound_getD (fun _ hr => State.sound_beginHeavy h hr) h) h
  · exact sound_ite (State.sound_setUnit h _) (State.sound_leaveEnds (State.sound_setUnit h _) _ _)

end

section
variable {e : Env} (he : e.s.sound)
include he

theorem Env.sound_factor {i : Instr} {heavy : Bool} {gn acc : Nat} {vec : Bool} {regs bound : List Nat} {k : Env → Nat → FactorAcc → List Nat → Out}
    (hk : ∀ e n a act, e.s.sound → soundOut (k e n a act)) : soundOut (e.factor i heavy gn acc vec regs bound k) :=
  soundOut_ite (Env.sound_finish he) (soundOut_ite (Env.sound_faultActive he) (Env.sound_inLine he fun _ _ he =>
    soundOut_ite (Env.sound_faultActive he) (soundOut_ite (Env.sound_illegal he) (soundOut_ite (Env.sound_faultActive he) (soundOut_ite (Env.sound_faultActive he) (hk _ _ _ _ he))))))

theorem Env.sound_heavyQueued {n : Nat} {o : HeavyOp} {act : List Nat} {f64 : Bool} {dest : Option Nat} {g : Group} : (e.heavyQueued n o act f64 dest g).s.sound := he

theorem sound_faldStep (f : LW) (w : View) (l : Nat) (acc : Acc) : (faldStep f e w l acc).1.s.sound := by
  have hnot (r : Now) (hr : soundNow r) : (e.notYet r).1.s.sound := by
    cases r with
    | wait e1 => exact hr
    | fail q => exact he
    | got e1 bs => exact hr
  unfold faldStep
  dsimp only
  split
  · split
    · exact he
    split
    · exact he
    next all _ =>
      split
      next e1 bs hr => exact Env.sound_touched (hr ▸ Env.sound_readNow he _ _ _ : soundNow (.got e1 bs)) w.act all true
      · exact hnot _ (Env.sound_readNow he _ _ _)
  · exact hnot _ (Env.sound_readNow he _ _ _)

theorem sound_fastStep (f : LW) (fa : FactorAcc) (w : View) (l : Nat) (acc : Acc) : (fastStep f fa e w l acc).1.s.sound := by
  unfold fastStep
  dsimp only
  split
  · exact Env.sound_changed (State.sound_latticeStore he _ _ _ _ _ _)
  · exact Env.sound_stored (Env.sound_store he)

end

/-- An issue that keeps its place where its lanes stay. -/
theorem Env.sound_keeping {e0 : Env} {r : Env × LaneOut} (hr : r.1.s.sound) : (e0.keeping r).1.s.sound := by
  unfold Env.keeping
  split
  · exact hr
  · exact hr

section
variable {s : State} (h : s.sound)
include h

theorem sound_heavyFactor (i : Instr) (f : LW) (ok : Bool) (acc : Nat) (dest : Option Nat) (xs : List (Nat × Bool)) : soundOut (heavyFactor i f ok acc dest xs s) := by
  refine State.sound_issue h fun e he => soundOut_ite (Env.sound_illegal he) (Env.sound_factor he fun e n a act he => soundOut_ite (Env.sound_stall he) ?_)
  split
  · exact Env.sound_stall he
  · exact Env.sound_faultActive he
  · exact soundOut_ite (Env.sound_faultActive he) (Env.sound_heavyAsks (Env.sound_out (Env.sound_close (Env.sound_heavyQueued he))) _ _ _)

theorem sound_execFadiag (f : LW) : soundOut (execFadiag f s) :=
  State.sound_issue h fun _ he => soundOut_ite (Env.sound_illegal he) (Env.sound_factor he fun _ _ _ _ he => soundOut_ite (Env.sound_stall he) (Env.sound_finish (Env.sound_produce (by exact he))))

theorem sound_execFald (f : LW) : soundOut (execFald f s) :=
  State.sound_issue h fun _ he => soundOut_ite (Env.sound_illegal he) (soundOut_ite (Env.sound_faultActive he) (Env.sound_inTurn he fun _ he =>
    Env.sound_once he fun _ _ _ => Env.sound_keeping (sound_faldStep he _ _ _ _)))

theorem sound_execFast (f : LW) : soundOut (execFast f s) :=
  State.sound_issue h fun _ he => soundOut_ite (Env.sound_illegal he) (soundOut_ite (Env.sound_faultActive he) (Env.sound_inTurn he fun _ he =>
    soundOut_ite (Env.sound_faultActive he) (Env.sound_once he (sound_fastStep he f _))))

theorem sound_faGroup (i : Instr) (f : GW) (k : Env → Option (FactorAcc × Nat)) : soundOut (faGroup i f k s) := by
  refine State.sound_issue h fun e he => soundOut_ite (Env.sound_groupIllegal he) (soundOut_ite (Env.sound_groupFault he) (Env.sound_whenFull he (Env.sound_inTurn he fun e he => ?_)))
  split
  · exact Env.sound_groupFault he
  · exact Env.sound_groupNext (by exact he)

end

end Sys2Proof.Machine
end

section
/-! Soundness (O56), stores on their way, control words, group words, and the operations of service. -/

namespace Sys2Proof.Machine

/-! Stores on their way. -/

section
variable {s : State} (h : s.sound)
include h

theorem State.sound_applyAt (uid grp i : Nat) : (s.applyAt uid grp i).sound := by
  unfold State.applyAt
  split
  · exact h
  next u g _ =>
    split
    · exact h
    next b _ =>
      have htaken := State.sound_setUnit h (u.setGroup grp { g with sbuf := g.sbuf.eraseIdx i })
      extract_lets taken fails s1 s2 p
      have h1 : s1.sound := State.sound_hitFences htaken _
      have h2 : s2.sound := sound_ite h1 (sound_foldl (fun _ k ht => State.sound_setScope ht k _ _) h1 _)
      clear_value s2
      refine sound_ite (State.sound_onUnit htaken _ _) (sound_ite (State.sound_onUnit htaken _ _) ?_)
      exact State.sound_of_eq h2

theorem State.sound_applyIssue (n uid grp seq : Nat) : (State.applyIssue n s uid grp seq).sound := by
  induction n generalizing s with
  | zero => exact h
  | succ n ih =>
    unfold State.applyIssue
    split
    · exact ih (State.sound_applyAt h _ _ _)
    · exact h

theorem State.sound_commitAt (j : Nat) : (s.commitAt j).sound := by
  unfold State.commitAt
  split
  · exact h
  · exact State.sound_expose (by exact h) _ _ _

theorem State.sound_commitAll (n : Nat) : (State.commitAll n s).sound := by
  induction n generalizing s with
  | zero => exact h
  | succ n ih => exact ih (State.sound_commitAt h 0)

theorem State.sound_drainGroup (uid grp : Nat) : (s.drainGroup uid grp).sound := by
  unfold State.drainGroup
  extract_lets s1 n s2
  have h2 : s2.sound := sound_foldl (fun _ _ ht => State.sound_applyAt ht _ _ _) (State.sound_onGroup h _ _ _) _
  exact sound_ite (State.sound_commitAll h2 _) h2

/-! Circular buffers. -/

theorem State.sound_cbPollGroup (uid grp : Nat) : (s.cbPollGroup uid grp).sound := by
  unfold State.cbPollGroup
  split
  · exact State.sound_setUnit (State.sound_cbPoll h _ _) _
  · exact h

theorem Env.sound_cbWoken (e : Env) (f : LW) : (e.cbWoken f s).sound := by
  unfold Env.cbWoken
  split
  · exact State.sound_cbWake h _
  · exact h

end

/-- The state of a sound outcome. -/
theorem sound_stateOf {s : State} (h : s.sound) {o : Out} (ho : soundOut o) : (stateOf s o).sound := by
  cases o with
  | next t => exact ho
  | fault c => exact h
  | refused c => exact h

/-! What an exit of lanes brings about. -/

section
variable {s : State} (h : s.sound)
include h

theorem State.sound_groupDone (uid grp : Nat) : (s.groupDone uid grp).sound := by
  unfold State.groupDone
  split
  · exact h
  next u g _ =>
    extract_lets s1 s2
    have h1 : s1.sound := State.sound_drainGroup h _ _
    have h2 : s2.sound := by
      show State.sound (match g.permit with | some p => s1.sluiceReturn u.die p.1 | none => s1)
      split
      · exact State.sound_sluiceReturn h1 _ _
      · exact h1
    exact sound_ite h (State.sound_onGroup h2 _ _ _)

theorem State.sound_afterExit (uid grp : Nat) : (s.afterExit uid grp).sound := by
  unfold State.afterExit
  extract_lets live s1 s2
  have h2 : s2.sound := State.sound_groupDone (State.sound_convergenceTest (State.sound_onUnit h _ _) _) _ _
  split
  · exact sound_ite (State.sound_unitDone h2 _ _) h2
  · exact h2

theorem Env.sound_exited (e : Env) (f : LW) : (e.exited f s).sound := sound_ite (State.sound_afterExit h _ _) h

end

/-! Return stacks. -/

section
variable {e : Env} (he : e.s.sound)
include he

theorem Env.sound_push {l ret : Nat} : (e.push l ret).s.sound := by
  unfold Env.push
  dsimp only
  split
  · exact he
  · exact State.sound_wr8 he _ _

theorem Env.sound_pushAll {ls : List Nat} : (e.pushAll ls).s.sound := by
  unfold Env.pushAll
  induction ls generalizing e with
  | nil => exact he
  | cons l ls ih => exact ih (Env.sound_push he)

theorem sound_brxLane (f : LW) (call : Bool) (w : View) (l : Nat) : (brxLane f call w e l).1.s.sound := by
  unfold brxLane
  dsimp only
  split
  · exact he
  · split
    · exact he
    · exact Env.sound_push he

theorem Env.sound_barClose {n : Nat} {arrived again : List (Nat × Nat)} {outs : List (Nat × LaneOut)} : soundOut (e.barClose n arrived again outs) :=
  State.sound_onUnit (Env.sound_out (Env.sound_close he)) _ _

end

/-! Control words. -/

theorem sound_cbrelStep (f : LW) {e : Env} (he : e.s.sound) (w : View) (l key : Nat) : (cbrelStep f e w l key).1.s.sound := by
  unfold cbrelStep
  split
  · exact he
  · exact State.sound_wr8 he _ _

section
variable {s : State} (h : s.sound)
include h

theorem sound_execNop (f : LW) : soundOut (execNop f s) := State.sound_issue h fun _ he => soundOut_ite (Env.sound_illegal he) (Env.sound_finish he)

theorem sound_execRegion (f : LW) : soundOut (execRegion f s) := State.sound_issue h fun _ he => soundOut_ite (Env.sound_illegal he) (Env.sound_finish (by exact he))

theorem sound_execBkpt (f : LW) : soundOut (execBkpt f s) := State.sound_issue h fun _ he => soundOut_ite (Env.sound_illegal he) (Env.sound_finish (by exact he))

theorem sound_execTrapu (f : LW) : soundOut (execTrapu f s) := State.sound_issue h fun _ he => soundOut_ite (Env.sound_illegal he) (Env.sound_finish (by exact he))

theorem sound_execOptionalOpcode (n : Nat) (f : LW) : soundOut (execOptionalOpcode n f s) := State.sound_issue h fun _ he => Env.sound_faultAll he

theorem sound_execIfence (f : LW) : soundOut (execIfence f s) := by
  refine State.sound_issue h fun e he => soundOut_ite (Env.sound_illegal he) ?_
  dsimp only
  split
  · exact Env.sound_finish he
  · exact Env.sound_finish (by exact he)

theorem sound_execWaittl (f : LW) : soundOut (execWaittl f s) := by
  refine State.sound_issue h fun e he => soundOut_ite (Env.sound_illegal he) ?_
  split
  · exact Env.sound_faultActive he
  · exact Env.sound_eachLane he fun _ _ _ he => he

theorem sound_execFence (f : LW) : soundOut (execFence f s) :=
  State.sound_issue h fun _ he => soundOut_ite (Env.sound_illegal he) (soundOut_ite (Env.sound_stall he) (Env.sound_finish (by exact he)))

theorem sound_execBar (f : LW) : soundOut (execBar f s) :=
  State.sound_issue h fun _ he => soundOut_ite (Env.sound_illegal he) (soundOut_ite (Env.sound_stall he) (Env.sound_barClose he))

theorem sound_execBarArrive (f : LW) : soundOut (execBarArrive f s) :=
  State.sound_issue h fun _ he => soundOut_ite (Env.sound_illegal he) (soundOut_ite (Env.sound_stall he) (Env.sound_barClose he))

theorem sound_execBarWait (f : LW) : soundOut (execBarWait f s) := State.sound_issue h fun _ he => soundOut_ite (Env.sound_illegal he) (Env.sound_finish he)

theorem sound_execCbacq (f : LW) : soundOut (execCbacq f s) :=
  State.sound_issue h fun _ he => soundOut_ite (Env.sound_illegal he) (soundOut_ite (Env.sound_stall he)
    (State.sound_cbPollGroup (sound_stateOf he (Env.sound_once he fun _ _ _ => he)) _ _))

theorem sound_execCbrel (f : LW) : soundOut (execCbrel f s) :=
  State.sound_issue h fun e he => soundOut_ite (Env.sound_illegal he) (soundOut_ite (Env.sound_stall he)
    (Env.sound_cbWoken (sound_stateOf he (Env.sound_once he (sound_cbrelStep f he))) e f))

theorem sound_execBr (f : LW) : soundOut (execBr f s) := State.sound_issue h fun _ he => soundOut_ite (Env.sound_illegal he) (Env.sound_finish he)

theorem sound_execJmp (f : LW) : soundOut (execJmp f s) := State.sound_issue h fun _ he => soundOut_ite (Env.sound_illegal he) (Env.sound_finish he)

theorem sound_execCall (f : LW) : soundOut (execCall f s) := State.sound_issue h fun _ he => soundOut_ite (Env.sound_illegal he) (Env.sound_finish (Env.sound_pushAll he))

theorem sound_brxWord (f : LW) (call : Bool) : soundOut (brxWord f call s) :=
  State.sound_issue h fun _ he => soundOut_ite (Env.sound_illegal he) (Env.sound_eachLane he fun w _ l he => sound_brxLane he f call w l)

theorem sound_execRet (f : LW) : soundOut (execRet f s) := State.sound_issue h fun _ he => soundOut_ite (Env.sound_illegal he) (Env.sound_finish (by exact he))

theorem sound_execExit (f : LW) : soundOut (execExit f s) :=
  State.sound_issue h fun e he => soundOut_ite (Env.sound_illegal he) (soundOut_ite (Env.sound_stall he) (Env.sound_exited (Env.sound_out (Env.sound_close he)) e f))

/-! Group words. -/

theorem sound_aluWord (f : GW) (k : GForm) (op : Nat → Nat → Nat) : soundOut (aluWord f k op s) :=
  State.sound_issue h fun _ he => soundOut_ite (Env.sound_groupIllegal he) (Env.sound_whenFull he (Env.sound_groupNext (by exact he)))

theorem sound_execSmov (f : GW) : soundOut (execSmov f s) :=
  State.sound_issue h fun _ he => soundOut_ite (Env.sound_groupIllegal he) (Env.sound_whenFull he (Env.sound_groupNext (by exact he)))

theorem sound_smoviWord (f : GW) (k : GForm) : soundOut (smoviWord f k s) :=
  State.sound_issue h fun _ he => soundOut_ite (Env.sound_groupIllegal he) (Env.sound_whenFull he (Env.sound_groupNext (by exact he)))

theorem sound_scmpWord (f : GW) (k : GForm) : soundOut (scmpWord f k s) :=
  State.sound_issue h fun _ he => soundOut_ite (Env.sound_groupIllegal he) (Env.sound_whenFull he (Env.sound_groupNext (by exact he)))

theorem sound_execSsel (f : GW) : soundOut (execSsel f s) :=
  State.sound_issue h fun _ he => soundOut_ite (Env.sound_groupIllegal he) (Env.sound_whenFull he (Env.sound_groupNext (by exact he)))

theorem sound_execSbr (f : GW) : soundOut (execSbr f s) := State.sound_issue h fun _ he => soundOut_ite (Env.sound_groupTo he) (Env.sound_groupNext he)

theorem sound_execSjmp (f : GW) : soundOut (execSjmp f s) := State.sound_issue h fun _ he => soundOut_ite (Env.sound_groupIllegal he) (Env.sound_groupTo he)

theorem sound_execScall (f : GW) : soundOut (execScall f s) := by
  refine State.sound_issue h fun e he => soundOut_ite (Env.sound_groupIllegal he) ?_
  split
  · exact Env.sound_groupFault he
  · exact Env.sound_groupTo (Env.sound_pushAll he)

theorem sound_execSret (f : GW) : soundOut (execSret f s) := by
  refine State.sound_issue h fun e he => soundOut_ite (Env.sound_groupIllegal he) ?_
  dsimp only
  split
  · exact Env.sound_groupFault he
  · exact soundOut_ite (Env.sound_groupFault he) (Env.sound_groupTo (by exact he))

theorem sound_execSld (f : GW) : soundOut (execSld f s) := by
  refine State.sound_issue h fun e he => Env.sound_whenFull he ?_
  dsimp only
  split
  · exact Env.sound_groupFault he
  next acc _ =>
    have h1 := Env.sound_touched he e.g.liveLanes acc true
    exact soundOut_ite (Env.sound_stall he) (Env.sound_groupNext (Env.sound_merge (Env.sound_produce (by exact h1))))

theorem sound_execSst (f : GW) : soundOut (execSst f s) := by
  refine State.sound_issue h fun e he => Env.sound_whenFull he ?_
  dsimp only
  split
  · exact Env.sound_groupFault he
  refine soundOut_ite (Env.sound_stall he) (soundOut_ite ?_ (Env.sound_groupNext (Env.sound_stored (Env.sound_store he))))
  next acc _ =>
    have h1 := State.sound_latticeStore he e.u.die acc.g (ofBase (e.g.getS f.a).toNat f.imm).seg acc.off acc.keys (leBytes 8 (e.g.getS f.d).toNat)
    split
    · exact Env.sound_groupFault (Env.sound_changed h1)
    · exact Env.sound_groupNext (Env.sound_changed h1)

theorem sound_cvsetWord (f : GW) (mask : Nat) (ok : Bool) : soundOut (cvsetWord f mask ok s) :=
  State.sound_issue h fun _ he => soundOut_ite (Env.sound_groupIllegal he) (soundOut_ite (Env.sound_groupFault he) (soundOut_ite (Env.sound_groupFault he) (Env.sound_groupNext (by exact he))))

theorem sound_execDqpush (f : GW) : soundOut (execDqpush f s) :=
  State.sound_issue h fun _ he => soundOut_ite (Env.sound_groupIllegal he) (Env.sound_whenFull he (soundOut_ite (Env.sound_groupFault he) (Env.sound_groupNext (by exact he))))

theorem sound_execDqpop (f : GW) : soundOut (execDqpop f s) := by
  refine State.sound_issue h fun e he => soundOut_ite (Env.sound_groupIllegal he) ?_
  split
  · exact Env.sound_groupFault he
  · exact soundOut_ite (Env.sound_whenFull he (Env.sound_groupNext (by exact he))) (soundOut_ite (Env.sound_stall he) (Env.sound_groupNext (by exact he)))

end

/-! Messages, and engine contexts that advance or fail. -/

section
variable {s : State} (h : s.sound)
include h

theorem State.sound_toSupervisor (part : Nat) (msg : List Byte) : (s.toSupervisor part msg).sound := by
  unfold State.toSupervisor
  exact sound_ite h (sound_ite (State.sound_fire h _ _) h)

theorem State.sound_deliverKept : s.deliverKept.sound := by
  refine sound_foldl (fun s o hs => ?_) h _
  cases o with
  | kept part msg => exact sound_ite (State.sound_fire (by exact hs) _ _) hs
  | _ => exact hs

theorem State.sound_setEngine (k : EngId) (x : Engine) : (s.setEngine k x).sound := h

theorem State.sound_wakeCtx (k : EngId) : (s.wakeCtx k).sound := by
  refine sound_foldl (fun s uid hs => ?_) h _
  dsimp only
  split
  · exact hs
  · exact sound_ite hs (sound_ite (State.sound_rouse hs _) (State.sound_setUnit hs _))

theorem State.sound_prune (k : EngId) : (s.prune k).sound := h

theorem State.sound_collOver (ctx key : Nat) : (s.collOver ctx key).sound := sound_ite h h

theorem State.sound_cmdDone (k : EngId) (c : Command) : (s.cmdDone k c).sound := by
  unfold State.cmdDone
  extract_lets x cmds tl s1 s2 die s3 s4
  have h3 : s3.sound := State.sound_leaveEnds (State.sound_onGroup (State.sound_setEngine h _ _) _ _ _) _ _
  have h4 : s4.sound := sound_ite (sound_foldl (fun _ _ ht => State.sound_prune ht _) (State.sound_collOver h3 _ _) _) (State.sound_prune h3 _)
  exact State.sound_wakeCtx h4 _

theorem State.sound_ctxFail (k : EngId) (num code addr : Nat) (ss : Bool) : (s.ctxFail k num code addr ss).sound := by
  unfold State.ctxFail
  extract_lets x die s1 s2
  have h2 : s2.sound := sound_foldl (fun _ _ ht => State.sound_unask ht _ _) (State.sound_setEngine h _ _) _
  exact State.sound_wakeCtx (State.sound_leaveEnds h2 _ _) _

theorem State.sound_toHarbour (slice : Nat) (msg : List Byte) : (s.toHarbour slice msg).sound := h

theorem State.sound_cmdRoute (k : EngId) (c : Command) (part code addr : Nat) (ss : Bool) : (s.cmdRoute k c part code addr ss).sound := by
  unfold State.cmdRoute
  extract_lets s1 msg
  have h1 : s1.sound := by
    show State.sound (match s.unit? c.uid with | some u => if code = 0x05 then s.noteWalk u addr else s | none => s)
    split
    · exact sound_ite (State.sound_noteWalk h _ _) h
    · exact h
  split
  · split
    · exact State.sound_toHarbour (State.sound_setEngine h1 _ _) _ _
    · exact State.sound_toSupervisor (State.sound_ctxFail h1 _ _ _ _ _) _ _
  · exact State.sound_toSupervisor (State.sound_ctxFail h1 _ _ _ _ _) _ _
  · exact State.sound_ctxFail h1 _ _ _ _ _

end

end Sys2Proof.Machine
end

section
/-! Soundness (O56), the words that read registers and write registers alone, and stream patterns. -/

namespace Sys2Proof.Machine

section
variable {s : State} (h : s.sound)
include h

/-- A word that faults where its fields are not legal, and else acts. -/
theorem legalWord {legal : Env → Bool} {k : Env → Out} (hk : ∀ e : Env, e.s.sound → soundOut (k e)) : soundOut (s.issue fun e => if !(legal e) then e.illegal else k e) :=
  State.sound_issue h fun e he => soundOut_ite (Env.sound_illegal he) (hk e he)

/-! Each lane by itself. -/

theorem sound_execMka (f : LW) : soundOut (execMka f s) := legalWord h fun _ he => Env.sound_run he

theorem sound_execSegno (f : LW) : soundOut (execSegno f s) := legalWord h fun _ he => Env.sound_run he

theorem sound_execSegof (f : LW) : soundOut (execSegof f s) := legalWord h fun _ he => Env.sound_run he

theorem sound_execPref (f : LW) : soundOut (execPref f s) := legalWord h fun _ he => Env.sound_run he

theorem sound_execChka (f : LW) : soundOut (execChka f s) := legalWord h fun _ he => Env.sound_run he

theorem sound_intWord (f : LW) (cSrc : Bool) (op : IntTy → Int → Int → Int → Int) : soundOut (intWord f cSrc op s) := legalWord h fun _ he => Env.sound_run he

theorem sound_descWord (f : LW) (cSrc : Bool) (op : IntTy → Nat → Nat → Nat → Int) : soundOut (descWord f cSrc op s) := legalWord h fun _ he => Env.sound_run he

theorem sound_unaryWord (f : LW) (signedOnly count : Bool) (op : IntTy → Nat → Int) : soundOut (unaryWord f signedOnly count op s) := legalWord h fun _ he => Env.sound_run he

theorem sound_execSel (f : LW) : soundOut (execSel f s) := legalWord h fun _ he => Env.sound_run he

theorem sound_execIcmp (f : LW) : soundOut (execIcmp f s) := legalWord h fun _ he => Env.sound_run he

theorem sound_execMov (f : LW) : soundOut (execMov f s) := legalWord h fun _ he => Env.sound_run he

theorem sound_execMovi (f : LW) : soundOut (execMovi f s) := legalWord h fun _ he => Env.sound_run he

theorem sound_execMoviH (f : LW) : soundOut (execMoviH f s) := legalWord h fun _ he => Env.sound_run he

theorem sound_fpWord (f : LW) (types : List Nat) (rounds cSrc : Bool) (op : Fmt → Nat → Nat → Nat → Nat → Nat × Nat) : soundOut (fpWord f types rounds cSrc op s) := legalWord h fun _ he => Env.sound_run he

theorem sound_execFscl (f : LW) : soundOut (execFscl f s) := legalWord h fun _ he => Env.sound_run he

theorem sound_execFcmp (f : LW) : soundOut (execFcmp f s) := legalWord h fun _ he => Env.sound_run he

theorem sound_fpUnary (f : LW) (types : List Nat) (rounds one : Bool) (op : Fmt → Nat → Nat → Nat × Nat) : soundOut (fpUnary f types rounds one op s) := legalWord h fun _ he => Env.sound_run he

theorem sound_execSincosT (f : LW) : soundOut (execSincosT f s) := legalWord h fun _ he => Env.sound_run he

/-! Across lanes. -/

theorem sound_shuffle (f : LW) (ok : Bool) (own : List Src) (idx : View → Nat → Int) : soundOut (shuffle f ok own idx s) := legalWord h fun _ he => Env.sound_runX he

theorem sound_execSwpPair (f : LW) : soundOut (execSwpPair f s) := legalWord h fun _ he => Env.sound_runX he

theorem sound_execRedu (f : LW) : soundOut (execRedu f s) := legalWord h fun _ he => Env.sound_runX he

theorem sound_execScan (f : LW) : soundOut (execScan f s) := legalWord h fun _ he => Env.sound_runX he

theorem sound_voteWord (f : LW) (kind : Nat) (result : List (Nat × Nat) → Nat) : soundOut (voteWord f kind result s) := legalWord h fun _ he => Env.sound_runX he

theorem sound_mcountWord (f : LW) (pre : Bool) : soundOut (mcountWord f pre s) := legalWord h fun _ he => Env.sound_runX he

theorem sound_execMatchI (f : LW) : soundOut (execMatchI f s) := legalWord h fun _ he => Env.sound_runX he

theorem sound_execMovs (f : LW) : soundOut (execMovs f s) := legalWord h fun _ he => soundOut_ite (Env.sound_runX he) (Env.sound_run he)

/-- A word under the slot that fs names. -/
theorem slotWord {n : Nat} {k : Env → Slotd → Out} (hk : ∀ e x, e.s.sound → soundOut (k e x)) :
    soundOut (s.issue fun e => match e.slot n with | none => e.illegal | some x => k e x) := by
  refine State.sound_issue h fun e he => ?_
  split
  · exact Env.sound_illegal he
  · exact hk e _ he

theorem sound_cvtWord (f : LW) (isInt : Bool) : soundOut (cvtWord f isInt s) :=
  slotWord h fun _ _ he => soundOut_ite (Env.sound_illegal he) (Env.sound_run he)

theorem sound_execQpack (f : LW) : soundOut (execQpack f s) := slotWord h fun _ _ he => soundOut_ite (Env.sound_illegal he) (Env.sound_runX he)

theorem sound_execQunpk (f : LW) : soundOut (execQunpk f s) :=
  slotWord h fun _ _ he => soundOut_ite (Env.sound_illegal he) (soundOut_ite (Env.sound_runX he) (Env.sound_run he))

theorem sound_execHad (f : LW) : soundOut (execHad f s) := slotWord h fun _ _ he => soundOut_ite (Env.sound_illegal he) (Env.sound_runX he)

/-! Stream patterns. -/

theorem sound_execSpbind (f : LW) : soundOut (execSpbind f s) :=
  legalWord h fun _ he => soundOut_ite (Env.sound_finish he) (soundOut_ite (Env.sound_faultActive he) (soundOut_ite (Env.sound_stall he) (Env.sound_finish (by exact he))))

theorem sound_execSprel (f : LW) : soundOut (execSprel f s) := legalWord h fun _ he => Env.sound_finish (by exact he)

theorem sound_execSpset (f : GW) : soundOut (execSpset f s) := by
  refine State.sound_issue h fun e he => soundOut_ite (Env.sound_groupIllegal he) (Env.sound_whenFull he ?_)
  dsimp only
  split
  · exact Env.sound_groupFault he
  next acc _ =>
    have hnow := Env.sound_readNow he e.g.liveLanes acc (addrNat (ofBase (e.g.getS f.a).toNat f.imm))
    split
    next e1 hr => exact Env.sound_out (hr ▸ hnow : soundNow (.wait e1))
    · exact Env.sound_groupFault he
    next e1 bs hr =>
      have h2 := Env.sound_touched (hr ▸ hnow : soundNow (.got e1 bs)) e.g.liveLanes acc true
      exact soundOut_ite (Env.sound_groupFault he) (Env.sound_groupNext (by exact h2))

theorem sound_execSploop (f : GW) : soundOut (execSploop f s) :=
  State.sound_issue h fun _ he => soundOut_ite (Env.sound_groupIllegal he) (Env.sound_whenFull he (soundOut_ite (Env.sound_groupFault he) (Env.sound_groupNext (by exact he))))

theorem sound_execStreamFetch : soundOut (execStreamFetch s) := by
  unfold execStreamFetch
  split
  · exact h
  split
  · exact h
  split
  · exact h
  refine soundOut_ite h ?_
  split
  · exact h
  next hentry => exact State.sound_onGroup (State.sound_streamEntry h hentry) _ _ _

end

end Sys2Proof.Machine
end

section
/-! Soundness (O56), engine commands: their reads and writes, how they run, their events and their issue. -/

namespace Sys2Proof.Machine

/-- The state of a pair that is known to be sound. -/
theorem sound_of_pair {α : Type} {r : State × α} {t : State} {x : α} (h : r.1.sound) (hr : r = (t, x)) : t.sound := by
  rw [hr] at h
  exact h

/-- Either of two pairs whose states are sound. -/
theorem sound_ite_fst {α : Type} {c : Prop} [Decidable c] {a b : State × α} (ha : a.1.sound) (hb : b.1.sound) : (if c then a else b).1.sound := by
  split
  · exact ha
  · exact hb

/-! Reading and writing for a command. -/

/-- What a read of a command leaves. -/
def soundRead : EngRead → Prop
  | .ok _ t => t.sound
  | _ => True

section
variable {s : State} (h : s.sound)
include h

theorem State.sound_engRead (u : WorkUnit) (c : Command) (a : Addr) (n align : Nat) (free : Bool) : soundRead (s.engRead u c a n align free) := by
  unfold State.engRead
  split
  · trivial
  · extract_lets late byte
    split
    · trivial
    split
    · trivial
    · exact State.sound_of_eq (State.sound_learn h _)

theorem State.sound_ofRead {u : WorkUnit} {c : Command} {a : Addr} {n align : Nat} {free : Bool} {bs : List Byte} {t : State} (ht : s.engRead u c a n align free = .ok bs t) : t.sound := by
  have hr := State.sound_engRead h u c a n align free
  rw [ht] at hr
  exact hr

theorem State.sound_writeNow (u : WorkUnit) (acc : Acc) (bs : List Byte) : (s.writeNow u acc bs).sound := by
  unfold State.writeNow
  extract_lets s1
  have h1 : s1.sound := State.sound_hitFences (State.sound_learn h _) _
  clear_value s1
  split
  · exact sound_foldl (fun _ i ht => State.sound_joinCell ht _ _ _ _) h1 _
  · exact State.sound_sendPeer h1 _ _
  · exact State.sound_expose h1 _ _ _

theorem State.sound_engWrite {u : WorkUnit} {c : Command} {a : Addr} {n align : Nat} {bs : List Byte} {r : State × Command} (hr : s.engWrite u c a n align bs = .ok r) : r.1.sound := by
  unfold State.engWrite at hr
  split at hr
  · exact nomatch hr
  · split at hr
    · exact nomatch hr
    · rw [← Except.ok.inj hr]
      exact State.sound_writeNow h _ _ _

/-! Copies. -/

theorem State.sound_slotTake (u : WorkUnit) (c : Command) (consumer : Bool) : (s.slotTake u c consumer).1.sound := by
  unfold State.slotTake
  extract_lets side
  refine sound_ite_fst h ?_
  split
  · exact h
  refine sound_ite_fst h ?_
  split
  · exact h
  · exact State.sound_wr8 h _ _

theorem State.sound_slotGive (u : WorkUnit) (c : Command) (consumer : Bool) (at_ : Nat) : (s.slotGive u c consumer at_).1.sound := by
  unfold State.slotGive
  extract_lets side
  split
  · exact h
  split
  · exact h
  split
  · exact h
  · exact State.sound_cbWake (State.sound_wr8 h _ _) _

theorem State.sound_bothSlots (c : Command) {k : State → Command → Bool → State × Command × Option RunEnd} (hk : ∀ s c side, s.sound → (k s c side).1.sound) : (s.bothSlots c k).1.sound := by
  unfold State.bothSlots
  extract_lets r
  have hr : r.1.sound := by
    show State.sound (if c.cbd then k s c false else (s, c, none)).1
    split
    · exact hk _ _ _ h
    · exact h
  split
  · exact hr
  · split
    · exact hk _ _ _ hr
    · exact hr

theorem State.sound_copyRun (u : WorkUnit) (srcs dsts : List Nat) (fuel : Nat) (c : Command) : (State.copyRun u srcs dsts fuel s c).1.sound := by
  induction fuel generalizing s c with
  | zero => exact h
  | succ n ih =>
    have htake := State.sound_bothSlots h c (k := fun s c side => s.slotTake u c side) fun _ _ _ hs => State.sound_slotTake hs _ _ _
    unfold State.copyRun
    split
    next hr => exact sound_of_pair htake hr
    next s1 c1 hr =>
      have h1 := sound_of_pair htake hr
      dsimp only
      split
      · exact h1
      split
      · exact h1
      split
      · exact h1
      · exact h1
      next hread =>
        have h2 := State.sound_ofRead h1 hread
        split
        · exact h1
        next s3 c3 hwrite =>
          have h3 : s3.sound := State.sound_engWrite h2 hwrite
          split
          next hg => exact sound_of_pair (State.sound_bothSlots h3 _ fun _ _ _ hs => State.sound_slotGive hs _ _ _ _) hg
          next hg => exact ih (sound_of_pair (State.sound_bothSlots h3 _ fun _ _ _ hs => State.sound_slotGive hs _ _ _ _) hg) _

theorem State.sound_fireAll (ms : List Nat) (msg : List Byte) : (ms.foldl (fun (s : State) m => s.fire m msg) s).sound := sound_foldl (fun _ _ ht => State.sound_fire ht _ _) h ms

theorem State.sound_runCopy (u : WorkUnit) (c : Command) (lim : Option Nat) : (s.runCopy u c lim).1.sound := by
  unfold State.runCopy
  extract_lets n ms srcs dsts r fired msg
  have hr : r.1.sound := State.sound_copyRun h _ _ _ _ _
  clear_value r
  split
  · split
    · exact hr
    · split
      · exact hr
      · exact State.sound_fireAll hr _ _
  · exact hr

theorem State.sound_runPost (u : WorkUnit) (c : Command) : (s.runPost u c).1.sound := by
  unfold State.runPost
  split
  · exact h
  · exact h
  next hread =>
    split
    · exact h
    · split
      · exact State.sound_fireAll (State.sound_ofRead h hread) _ _
      · exact h

theorem State.sound_runStl (u : WorkUnit) (c : Command) : (s.runStl u c).1.sound := by
  unfold State.runStl
  split
  · exact h
  split
  · exact h
  · exact h
  · split
    · exact h
    · exact h

/-! Chains. -/

theorem State.sound_chainRun (u : WorkUnit) (ws : List Nat) (k : Slotd) (G : Nat) (sec : Bool) (fuel : Nat) (c : Command) : (State.chainRun u ws k G sec fuel s c).1.sound := by
  induction fuel generalizing s c with
  | zero => exact h
  | succ n ih =>
    unfold State.chainRun
    dsimp only
    split
    · exact h
    · exact h
    next s1 hread =>
      have h1 := State.sound_ofRead h hread
      split
      · exact h
      · exact h
      next s2 hsec =>
        have h2 : s2.sound := by
          split at hsec
          · exact State.sound_ofRead h1 hsec
          · rw [← (EngRead.ok.inj hsec).2]
            exact h1
        split
        · exact h
        next hwrite => exact ih (State.sound_engWrite h2 hwrite) _

theorem State.sound_runChain (u : WorkUnit) (c : Command) (lim : Option Nat) : (s.runChain u c lim).1.sound := by
  have hdesc : soundRead (s.chainDesc u c) := by
    unfold State.chainDesc
    split
    · exact h
    · exact State.sound_engRead h _ _ _ _ _ _
  unfold State.runChain
  dsimp only
  split
  · exact h
  · exact h
  next bs s1 hd =>
    rw [hd] at hdesc
    have h1 : s1.sound := hdesc
    split
    · exact h
    · split
      · exact h
      · split
        next hr => exact sound_of_pair (State.sound_chainRun h1 _ _ _ _ _ _ _) hr
        · exact State.sound_chainRun h1 _ _ _ _ _ _ _

/-! Collectives. -/

theorem State.sound_collWrite (u : WorkUnit) (bs : List Byte) (n fuel : Nat) (c : Command) : (State.collWrite u bs n fuel s c).1.sound := by
  induction fuel generalizing s c with
  | zero => exact h
  | succ m ih =>
    unfold State.collWrite
    dsimp only
    split
    · exact h
    next hwrite => exact ih (State.sound_engWrite h hwrite) _

theorem State.sound_collRead (u : WorkUnit) (c : Command) (len : Nat) (lost : Option Nat) : (s.collRead u c len lost).s.sound := by
  unfold State.collRead
  extract_lets old from_ n cut k
  split
  · exact h
  split
  · exact h
  next hread => exact State.sound_ofRead h hread
  · extract_lets m
    split
    next hread => exact State.sound_noteWalk (State.sound_ofRead h hread) _ _
    · exact h

theorem State.sound_runColl (u : WorkUnit) (k : EngId) (c : Command) (lost : Option Nat) : (s.runColl u k c lost).1.sound := by
  unfold State.runColl
  extract_lets ms others lens len q n total mine c0 stop qs s0 byRank known r
  have hq : q.s.sound := State.sound_collRead h _ _ _ _
  have h0 : s0.sound := sound_ite hq hq
  clear_value s0
  split
  · exact h
  split
  · exact h
  split
  · exact h0
  split
  · exact h0
  split
  next hr => exact sound_of_pair (State.sound_collWrite h0 _ _ _ _ _) hr
  · exact State.sound_collWrite h0 _ _ _ _ _

theorem State.sound_collJoin (p : CollPeer) : (s.collJoin p).sound := sound_ite h h

/-! The events of a running command. -/

theorem State.sound_runUntil (u : WorkUnit) (k : EngId) (c : Command) (lim : Option Nat) : (s.runUntil u k c lim).1.sound := by
  unfold State.runUntil
  split
  · exact State.sound_runChain h _ _ _
  · exact State.sound_runColl h _ _ _ _
  · exact State.sound_runPost h _ _
  · exact State.sound_runStl h _ _
  · exact State.sound_runCopy h _ _ _

theorem State.sound_putCmd (k : EngId) (c : Command) : (s.putCmd k c).sound := h

theorem State.sound_askCmd (k : EngId) (c : Command) (prio : Nat) : (s.askCmd k c prio).sound :=
  sound_ite h (sound_ite (State.sound_ctxFail h _ _ _ _ _) (State.sound_ask h _ _ _ _))

theorem State.sound_askAfter {t : State} (ht : s.askAfter = some t) : t.sound := by
  unfold State.askAfter at ht
  dsimp only at ht
  split at ht
  · exact nomatch ht
  split at ht
  · exact nomatch ht
  · rw [← Option.some.inj (ite_none_eq_some ht)]
    exact State.sound_askCmd (State.sound_putCmd h _ _) _ _ _

theorem State.sound_sendFails (k : EngId) (c : Command) (e : Nat × Nat × Nat) : (s.sendFails k c e).sound := State.sound_cmdRoute (State.sound_putCmd h _ _) _ _ _ _ _ _

theorem sound_execEngineCommandComplete : soundOut (execEngineCommandComplete s) := by
  unfold execEngineCommandComplete
  split
  · exact sound_getD (fun _ hr => State.sound_askAfter h hr) h
  next u c _ =>
    have hrun : (s.runCmd u s.arg.eng c).1.sound := State.sound_runUntil h _ _ _ _
    split
    next hr => exact State.sound_cmdDone (sound_of_pair hrun hr) _ _
    next hr => exact State.sound_cmdDone (sound_of_pair hrun hr) _ _
    next hr => exact State.sound_putCmd (sound_of_pair hrun hr) _ _
    · exact h

theorem sound_execEngineCommandFault : soundOut (execEngineCommandFault s) := by
  unfold execEngineCommandFault
  split
  · exact h
  next u c _ =>
    extract_lets part r
    split
    · have hrun : r.1.sound := State.sound_runUntil h _ _ _ _
      clear_value r
      split
      · exact h
      · split
        · exact State.sound_cmdRoute (State.sound_putCmd hrun _ _) _ _ _ _ _ _
        · exact h
      · exact sound_ite (State.sound_cmdRoute h _ _ _ _ _ _) h
      · refine soundOut_ite (State.sound_cmdRoute h _ _ _ _ _ _) ?_
        split
        · exact soundOut_ite (State.sound_cmdRoute (State.sound_putCmd hrun _ _) _ _ _ _ _ _) h
        · exact h
    · have hrun : (s.runCmd u s.arg.eng c).1.sound := State.sound_runUntil h _ _ _ _
      split
      next hr => exact State.sound_cmdRoute (State.sound_putCmd (sound_of_pair hrun hr) _ _) _ _ _ _ _ _
      next hr => exact State.sound_ctxFail (State.sound_putCmd (sound_of_pair hrun hr) _ _) _ _ _ _ _
      · exact h

theorem sound_execEngineFaultRetry : soundOut (execEngineFaultRetry s) := h

theorem sound_execFailedContextClear : soundOut (execFailedContextClear s) := by
  unfold execFailedContextClear
  dsimp only
  split
  · exact h
  · exact h

end

/-! Issue, and permits. -/

theorem Env.sound_commandMade {e : Env} (he : e.s.sound) {f : GW} {k : EngId} {c : Command} : (e.commandMade f k c).s.sound := he

theorem Env.sound_command {e : Env} (he : e.s.sound) {f : GW} {i : Instr} {kind : Nat → Bool} {regs : List Nat} {ranges : List Range} {extra : EngId → Nat → Option LFault} {demand : Nat}
    {pat : List DWord} : soundOut (e.command f i kind regs ranges extra demand pat) := by
  refine Env.sound_whenFull he ?_
  split
  · exact Env.sound_groupFault he
  · exact Env.sound_groupFault he
  · exact soundOut_ite (Env.sound_stall he) (soundOut_ite (Env.sound_out (Env.sound_stop he))
      (State.sound_askCmd (sound_stateOf he (Env.sound_groupNext (Env.sound_commandMade he))) _ _ _))

section
variable {s : State} (h : s.sound)
include h

/-- A group word that faults where its fields are not legal, and else acts. -/
theorem legalGroupWord {legal : Env → Bool} {k : Env → Out} (hk : ∀ e : Env, e.s.sound → soundOut (k e)) : soundOut (s.issue fun e => if !(legal e) then e.groupIllegal else k e) :=
  State.sound_issue h fun e he => soundOut_ite (Env.sound_groupIllegal he) (hk e he)

theorem sound_execCpy (f : GW) : soundOut (execCpy f s) := legalGroupWord h fun _ he => Env.sound_command he

theorem sound_execCpy2d (f : GW) : soundOut (execCpy2d f s) := legalGroupWord h fun _ he => Env.sound_command he

theorem sound_execCpyg (f : GW) : soundOut (execCpyg f s) := legalGroupWord h fun _ he => Env.sound_command he

theorem sound_execChain (f : GW) : soundOut (execChain f s) := legalGroupWord h fun _ he => Env.sound_command he

theorem sound_execColl (f : GW) : soundOut (execColl f s) := legalGroupWord h fun _ he => Env.sound_command he

theorem sound_execPost (f : GW) : soundOut (execPost f s) := legalGroupWord h fun _ he => Env.sound_command he

theorem sound_execStl (f : GW) : soundOut (execStl f s) := legalGroupWord h fun _ he => Env.sound_command he

theorem sound_execPermit (f : GW) : soundOut (execPermit f s) := by
  refine legalGroupWord h fun e he => Env.sound_whenFull he ?_
  have hback : e.permitBack.sound := State.sound_sluiceReturn he _ _
  exact soundOut_ite (Env.sound_groupFault (by exact hback)) (soundOut_ite (Env.sound_groupNext (by exact hback)) (State.sound_ask (Env.sound_out (by exact hback)) _ _ _ _))

theorem sound_execPermq (f : GW) : soundOut (execPermq f s) := legalGroupWord h fun _ he => Env.sound_whenFull he (Env.sound_groupNext (by exact he))

end

end Sys2Proof.Machine
end

section
/-! Soundness (O56), what happens between issues: values, registers, stores, fences, the Ovoft Link, the sluice. -/

namespace Sys2Proof.Machine

section
variable {s : State} (h : s.sound)
include h

/-! Values. -/

theorem State.sound_perform (u : WorkUnit) (grp : Nat) (k : ProdKind) (p : Part) : (s.perform u grp k p).1.sound := by
  unfold State.perform
  extract_lets old s0
  have h0 : s0.sound := sound_ite h (sound_foldl (fun _ _ ht => State.sound_setScope ht _ _ _) h _)
  clear_value s0
  split
  · refine sound_ite_fst h0 ?_
    exact State.sound_of_eq (State.sound_expose (State.sound_hitFences h0 _) u.die _ _)
  · exact h0

theorem State.sound_arriveAll (uid grp i : Nat) (pr : Producer) : (s.arriveAll uid grp i pr).sound := by
  refine State.sound_onUnit (sound_foldl_fst (fun r p hr => ?_) h _) _ _
  unfold State.arrivePart
  split
  · exact hr
  · split
    · exact hr
    · exact State.sound_onUnit (State.sound_perform hr _ _ _ _) _ _

theorem sound_execLoadValueArrival : soundOut (execLoadValueArrival s) := by
  unfold execLoadValueArrival
  split
  · exact h
  split
  · exact h
  · exact soundOut_ite h (State.sound_arriveAll h _ _ _ _)

/-! Registers that move. -/

theorem State.sound_moveFault (u : WorkUnit) (grp : Nat) (g : Group) (r : RegRef) (spill : Bool) : (s.moveFault u grp g r spill).sound := State.sound_setUnit h _

theorem sound_execRegisterSpill : soundOut (execRegisterSpill s) := by
  unfold execRegisterSpill
  split
  · exact h
  · exact soundOut_ite h (soundOut_ite (State.sound_moveFault h _ _ _ _ _) (State.sound_onGroup h _ _ _))

theorem sound_execRegisterFill : soundOut (execRegisterFill s) := by
  unfold execRegisterFill
  split
  · exact h
  · exact soundOut_ite h (soundOut_ite (State.sound_onGroup (State.sound_moveFault h _ _ _ _ _) _ _ _) (State.sound_onGroup h _ _ _))

/-! Stores on their way. -/

theorem sound_execHomeApply : soundOut (execHomeApply s) := by
  unfold execHomeApply
  split
  · exact h
  split
  · exact h
  · exact soundOut_ite (State.sound_applyIssue h _ _ _ _) h

theorem sound_execStoreCommit : soundOut (execStoreCommit s) := by
  unfold execStoreCommit
  split
  · exact h
  · exact soundOut_ite h (State.sound_commitAt h _)

theorem sound_execReplicatedUpdate : soundOut (execReplicatedUpdate s) := by
  unfold execReplicatedUpdate
  split
  · exact h
  split
  · exact h
  · exact soundOut_ite h (State.sound_commitAt h _)

theorem sound_execDirectoryEviction : soundOut (execDirectoryEviction s) := sound_ite (State.sound_evictLine h _) h

/-! Fences. -/

theorem sound_execFenceCompletion : soundOut (execFenceCompletion s) := by
  unfold execFenceCompletion
  split
  · exact h
  split
  · exact h
  · exact soundOut_ite h (State.sound_setUnit h _)

theorem sound_execFenceRollback : soundOut (execFenceRollback s) := by
  unfold execFenceRollback
  split
  · exact h
  split
  · exact h
  refine soundOut_ite h ?_
  split
  · exact h
  · exact State.sound_onGroup h _ _ _

/-! The Ovoft Link. -/

theorem State.sound_deferTo (p : Posted) (reason : Nat) : (s.deferTo p reason).sound := State.sound_onGroup h _ _ _

theorem State.sound_sendAnswered (k : EngId) (num : Nat) (reason : Option Nat) : (s.sendAnswered k num reason).sound := by
  unfold State.sendAnswered
  split
  · exact h
  split
  · exact h
  · exact sound_ite (State.sound_sendFails h _ _ _) (State.sound_putCmd h _ _)

theorem sound_execPostedStoreAcknowledgement : soundOut (execPostedStoreAcknowledgement s) := by
  unfold execPostedStoreAcknowledgement
  refine soundOut_ite (State.sound_sendAnswered h _ _ _) ?_
  split
  · exact h
  · dsimp only
    split
    · exact h
    · exact State.sound_deferTo (by exact h) _ _

theorem State.sound_replied (uid grp i : Nat) (pr : Producer) (answers : List PeerPart) : (s.replied uid grp i pr answers).sound := State.sound_onUnit h _ _

theorem sound_execPeerReply : soundOut (execPeerReply s) := by
  unfold execPeerReply
  split
  · exact h
  split
  · dsimp only
    split
    · exact h
    · exact soundOut_ite h (State.sound_onGroup h _ _ _)
  · exact soundOut_ite h (State.sound_replied h _ _ _ _ _)

theorem State.sound_sendsTimeOut (dev : Nat) : (s.sendsTimeOut dev).sound := by
  refine sound_foldl (fun s p hs => sound_foldl (fun s c hs => ?_) hs _) h _
  split
  · exact sound_ite hs (State.sound_sendFails hs _ _ _)
  · exact hs

theorem sound_execRouteTimeout : soundOut (execRouteTimeout s) := by
  unfold execRouteTimeout
  extract_lets dev s1 waits
  have h1 : s1.sound := sound_foldl (fun _ _ ht => State.sound_deferTo ht _ _) (by exact h) _
  refine sound_foldl (fun s uid hs => ?_) (State.sound_sendsTimeOut h1 _) _
  split
  · exact hs
  refine sound_foldl (fun s i hs => ?_) hs _
  split
  · exact hs
  · exact sound_foldl (fun _ _ ht => State.sound_replied ht _ _ _ _ _) (State.sound_onGroup hs _ _ _) _

theorem State.sound_peerDoes (q : PeerReq) (keys : List Nat) : (s.peerDoes q keys).1.sound := by
  unfold State.peerDoes
  dsimp only
  split
  · exact h
  · exact State.sound_expose (State.sound_hitFences h _) _ _ _
  · exact State.sound_joinCell (State.sound_hitFences h _) _ _ _ _
  · exact sound_ite_fst h (State.sound_expose (State.sound_hitFences h _) _ _ _)

theorem sound_execPeerAccess : soundOut (execPeerAccess s) := by
  unfold execPeerAccess
  split
  · exact h
  refine soundOut_ite h ?_
  split
  · refine soundOut_ite h (soundOut_ite h ?_)
    exact State.sound_of_eq (State.sound_peerDoes (sound_ite h (sound_foldl (fun _ _ ht => State.sound_setScope ht _ _ _) h _)) _ _)
  · exact h

/-! The sluice. -/

theorem State.sound_takeHead (die prio : Nat) (r : SluiceReq) (granted : Bool) : (s.takeHead die prio r granted).sound := h

theorem State.sound_grantTo (die prio : Nat) (r : SluiceReq) : (s.grantTo die prio r).sound := by
  have h1 := State.sound_takeHead h die prio r true
  unfold State.grantTo
  dsimp only
  split
  · split
    · exact State.sound_leaveEnds h1 _ _
    · exact State.sound_giveLeave h1 _ _
  · exact State.sound_setEngine h1 _ _
  · exact State.sound_onGroup h1 _ _ _

theorem State.sound_refuse (die : Nat) (r : SluiceReq) : (s.refuse die r).sound := by
  have h1 := State.sound_unask h die r.who
  unfold State.refuse
  dsimp only
  split
  · exact State.sound_onUnit h1 _ _
  · exact State.sound_ctxFail h1 _ _ _ _ _
  · exact State.sound_onUnit h1 _ _

theorem sound_execSluiceGrant : soundOut (execSluiceGrant s) := by
  unfold execSluiceGrant
  dsimp only
  split
  · exact h
  · exact soundOut_ite (State.sound_refuse h _ _) (soundOut_ite (State.sound_grantTo h _ _ _) h)

theorem sound_execSluicePromotion : soundOut (execSluicePromotion s) := by
  unfold execSluicePromotion
  dsimp only
  split
  · exact h
  · exact soundOut_ite h (State.sound_setDie h _ _)

end

end Sys2Proof.Machine
end

section
/-! Soundness (O56), saving a unit and restoring it. -/

namespace Sys2Proof.Machine

/-- A fold that keeps a property which every step keeps. -/
theorem foldl_keeps {α β : Type} {P : β → Prop} {f : β → α → β} (hf : ∀ b x, P b → P (f b x)) {b : β} (h : P b) (xs : List α) : P (xs.foldl f b) := by
  induction xs generalizing b with
  | nil => exact h
  | cons x xs ih => exact ih (hf b x h)

section
variable {s : State} (h : s.sound)
include h

/-! What a save completes. -/

theorem State.sound_arriveGroup (uid grp n : Nat) : (s.arriveGroup uid grp n).sound := by
  induction n generalizing s with
  | zero => exact h
  | succ n ih =>
    unfold State.arriveGroup
    split
    · exact ih (State.sound_arriveAll h _ _ _ _)
    · exact h

theorem State.sound_finishOps (uid n : Nat) : (s.finishOps uid n).sound := by
  induction n generalizing s with
  | zero => exact h
  | succ n ih =>
    unfold State.finishOps
    split
    next i _ =>
      have h1 : State.sound { s with arg := { s.arg with a := uid, b := i } } := h
      exact ih (State.sound_of_eq (sound_stateOf h (sound_execMatrixOperationComplete h1)))
    · exact h

theorem State.sound_settle (uid : Nat) : (s.settle uid).sound := by
  unfold State.settle
  split
  · exact h
  · exact sound_foldl (fun _ _ ht => State.sound_drainGroup ht _ _)
      (State.sound_finishOps (sound_foldl (fun _ _ ht => State.sound_arriveGroup ht _ _ _) (State.sound_commitAll h _) _) _ _) _

theorem State.sound_returnLeave (u : WorkUnit) : (s.returnLeave u).sound := by
  unfold State.returnLeave
  extract_lets s1 d mine s2
  have h1 : s1.sound := by
    refine sound_foldl (fun s g hs => ?_) h _
    split
    · exact State.sound_sluiceReturn hs _ _
    · exact hs
  exact sound_foldl (fun _ _ ht => State.sound_leaveEnds ht _ _) (State.sound_setDie h1 _ _) _

/-! The image. -/

theorem State.sound_writeImage (addr : Nat) (m : SMap Byte) : (s.writeImage addr m).sound :=
  ⟨foldl_keeps (P := fun mem => Memory.wf mem = true) (fun _ _ hm => Memory.wf_write hm) (Memory.wf_clear h.1) m, h.2⟩

theorem State.sound_spillStacks (u : WorkUnit) : (s.spillStacks u).sound := by
  refine State.sound_mem h (foldl_keeps (P := fun mem => Memory.wf mem = true) (fun mem i hm => ?_) h.1 _)
  split
  · exact hm
  · refine foldl_keeps (P := fun mem => Memory.wf mem = true) (fun mem p hm => ?_) hm _
    dsimp only
    split
    · exact Memory.wf_writeAll hm
    · exact hm

theorem State.sound_saveUnit (uid addr kind : Nat) : (s.saveUnit uid addr kind).sound := by
  unfold State.saveUnit
  split
  · exact h
  · exact State.sound_setUnit (State.sound_writeImage (State.sound_spillStacks (State.sound_returnLeave h _) _) _ _) _

theorem State.sound_freeUnitSlot (uid : Nat) : (s.freeUnitSlot uid).sound := h

/-! The restore. -/

theorem State.sound_askOrRefuse (die prio : Nat) (who : Waiter) (demand : Nat) : (s.askOrRefuse die prio who demand).sound :=
  sound_ite (State.sound_refuse h _ _) (State.sound_ask h _ _ _ _)

theorem State.sound_askAgain (u : WorkUnit) : (s.askAgain u).sound := by
  unfold State.askAgain
  extract_lets s1
  have h1 : s1.sound := by
    refine sound_foldl (fun s i hs => ?_) h _
    split
    · exact State.sound_askOrRefuse hs _ _ _ _
    · exact hs
  exact sound_foldl (fun _ _ ht => State.sound_askOrRefuse ht _ _ _ _) h1 _

theorem State.sound_fillFaults (uid : Nat) : (s.fillFaults uid).sound := by
  unfold State.fillFaults
  split
  · exact h
  · refine sound_foldl (fun s p hs => sound_foldl (fun s r hs => ?_) hs _) h _
    split
    · exact hs
    · exact State.sound_moveFault hs _ _ _ _ _

theorem State.sound_restore (uid core : Nat) (threads : List Nat) (places : List (Nat × Nat)) : (s.restore uid core threads places).sound := by
  unfold State.restore
  split
  · exact h
  split
  · refine State.sound_fillFaults (sound_foldl (fun s i hs => ?_) (State.sound_askAgain (State.sound_setUnit (State.sound_freeUnitSlot h _) _) _) _) _
    split
    · exact State.sound_setUnit (State.sound_cbPoll hs _ _) _
    · exact hs
  · exact h

end

end Sys2Proof.Machine
end

section
/-! Soundness (O56), launches, barges, and what places them. -/

namespace Sys2Proof.Machine

section
variable {s : State} (h : s.sound)
include h

/-! Barges and queues. -/

theorem State.sound_setCore (c : Nat) (x : Core) : (s.setCore c x).sound := h

theorem State.sound_keepPending (u : WorkUnit) : (s.keepPending u).sound := State.sound_setMbx h _ _

theorem State.sound_enqueue (c : Nat) (b : Barge) (head : Bool) : (s.enqueue c b head).sound := by
  unfold State.enqueue
  dsimp only
  split
  · split
    · exact State.sound_keepPending h _
    · exact h
  · exact State.sound_setCore h _ _

theorem State.sound_nextCore (l : Launch) : (s.nextCore l).1.sound := by
  unfold State.nextCore
  split
  · exact h
  · exact State.sound_setLaunch h _

theorem State.sound_bargeCore (u : WorkUnit) : (s.bargeCore u).1.sound := by
  unfold State.bargeCore
  dsimp only
  split
  · exact h
  · exact sound_ite_fst (State.sound_nextCore h _) h

theorem State.sound_sendBarge (u : WorkUnit) : (s.sendBarge u).sound := State.sound_enqueue (State.sound_bargeCore h _) _ _ _

theorem State.sound_admitUnit (u : WorkUnit) : (s.admitUnit u).sound := sound_ite (State.sound_keepPending h _) (State.sound_sendBarge h _)

/-! Launches and firings. -/

theorem State.sound_addUnit (mbx seq idx : Nat) (record : List DWord) (msg : List Byte) : (s.addUnit mbx seq idx record msg).sound := by
  unfold State.addUnit
  extract_lets u bytes
  have h1 := State.sound_mem (State.sound_setUnit h u) (m := Memory.writeAll s.mem (upFrom (recordKey u.uid 0) bytes.length) bytes) (Memory.wf_writeAll h.1)
  exact State.sound_admitUnit (State.sound_of_eq h1) _

theorem State.sound_startLaunch (mbx seq : Nat) (record : List DWord) (msg : List Byte) : (s.startLaunch mbx seq record msg).sound :=
  sound_ite (State.sound_report h _ _) (sound_foldl (fun _ _ ht => State.sound_addUnit ht _ _ _ _ _) (by exact h) _)

theorem State.sound_reportStray (i : Nat) : (s.reportStray i).sound := sound_ite (State.sound_report h _ _) h

theorem State.sound_takeFiring (m : Nat) : (s.takeFiring m).sound := by
  unfold State.takeFiring
  dsimp only
  split
  · exact h
  next slot len rest _ =>
    have h1 : (((s.setMbx m { s.mbx m with held := rest }).setMbxField m 32 8 rest.length)).sound := State.sound_setMbxField (State.sound_setMbx h _ _) _ _ _ _
    exact sound_ite (State.sound_report (State.sound_reportStray h1 _) _ _)
      (sound_ite (State.sound_setMbxField h1 _ _ _ _) (State.sound_startLaunch (State.sound_setMbx (State.sound_setMbxField h1 _ _ _ _) _ _) _ _ _ _))

theorem State.sound_unpark (m : Nat) : (s.unpark m).sound := sound_foldl (fun _ _ ht => sound_ite (State.sound_hold (State.sound_setMbx ht _ _) _ _) ht) h _

theorem sound_execMailboxFiring : soundOut (execMailboxFiring s) := by
  unfold execMailboxFiring
  extract_lets m s1
  have h1 : s1.sound := sound_ite h (sound_ite (State.sound_fire h _ _) h)
  exact soundOut_ite h1 (State.sound_deliverKept (State.sound_unpark (State.sound_takeFiring h1 _) _))

/-! Placement. -/

theorem State.sound_vaultFor (c : Nat) (u : WorkUnit) : (s.vaultFor c u).sound := sound_ite h (sound_ite h (State.sound_setCore (State.sound_zeroRange h _ _) _ _))

theorem State.sound_startContexts (c : Nat) (u : WorkUnit) : (s.startContexts c u).sound := sound_foldl (fun _ _ ht => sound_ite ht (State.sound_setEngine ht _ _)) h _

theorem State.sound_admitPending (c : Nat) : (s.admitPending c).sound := by
  refine sound_foldl (fun s p hs => sound_foldl (fun s uid hs => ?_) hs _) h _
  split
  · exact hs
  · exact sound_ite (State.sound_sendBarge (State.sound_dropPending hs _) _) hs

theorem State.sound_halt (part : Nat) : (s.halt part).sound := by
  refine State.sound_of_eq (State.sound_units (State.sound_report h 334 part)
    (f := fun p => if s.partOf (recCtx p.2.record) = part then (p.1, { p.2 with stopAt := some (p.2.stopAt.getD s.cycle) }) else p) fun p hp => ?_)
  dsimp only
  split
  · exact hp
  · exact hp

theorem State.sound_escalate (u : WorkUnit) : (s.escalate u).sound := by
  unfold State.escalate
  dsimp only
  split
  · exact State.sound_halt h _
  · split
    · exact State.sound_toSupervisor h _ _
    · exact h

theorem State.sound_placeBarge (c : Nat) (u : WorkUnit) : (s.placeBarge c u).sound := by
  have h1 := State.sound_dropBarges h u.uid
  unfold State.placeBarge
  dsimp only
  refine State.sound_admitPending ?_ _
  split
  · exact sound_ite (State.sound_restore (State.sound_vaultFor h1 _ _) _ _ _ _) (State.sound_escalate (State.sound_setUnit h1 _) _)
  · exact State.sound_setUnit (State.sound_startContexts (State.sound_vaultFor h1 _ _) _ _) _

theorem sound_execBargePlacement : soundOut (execBargePlacement s) := by
  unfold execBargePlacement
  split
  · exact State.sound_admitPending h _
  split
  · exact h
  · exact soundOut_ite (State.sound_placeBarge h _ _) (State.sound_admitPending h _)

theorem sound_execIdleUnitSave : soundOut (execIdleUnitSave s) := by
  unfold execIdleUnitSave
  split
  · exact h
  next u _ =>
    refine soundOut_ite h ?_
    split
    · exact h
    next addr _ =>
      have h1 := State.sound_settle h u.uid
      exact soundOut_ite h1 (State.sound_enqueue (State.sound_of_eq (State.sound_saveUnit h1 u.uid addr 2)) _ _ _)

theorem sound_execEffectivePriorityRaise : soundOut (execEffectivePriorityRaise s) := by
  unfold execEffectivePriorityRaise
  split
  · exact h
  · exact soundOut_ite h (State.sound_onGroup h _ _ _)

/-! Levelling and the recovery queues. -/

theorem State.sound_pushTo (c n : Nat) (moved : List Nat) : (s.pushTo c n moved).1.sound := by
  unfold State.pushTo
  dsimp only
  split
  · exact h
  · exact sound_ite_fst h (State.sound_setCore (State.sound_setCore h _ _) _ _)

theorem sound_execLevellingExchange : soundOut (execLevellingExchange s) := by
  unfold execLevellingExchange
  refine soundOut_ite h (State.sound_admitPending (sound_foldl_fst (fun _ _ hr => State.sound_pushTo hr _ _ _) ?_ _) _)
  exact sound_foldl (fun _ _ ht => State.sound_setCore ht _ _) h _

theorem State.sound_qtake (i : Nat) : (s.qtake i).sound := by
  unfold State.qtake
  extract_lets a e rec_ s1 record m seq
  have h1 : s1.sound := State.sound_wr8 h _ _
  clear_value s1
  exact sound_ite (State.sound_report (sound_ite (State.sound_reportStray h1 _) h1) _ _) (State.sound_startLaunch h1 _ _ _ _)

theorem sound_execRecoveryQuantum : soundOut (execRecoveryQuantum s) := by
  unfold execRecoveryQuantum
  extract_lets slots
  refine soundOut_ite h (sound_foldl (fun s q hs => ?_) (by exact h) _)
  split
  · exact hs
  · exact sound_foldl (fun _ _ ht => State.sound_qtake ht _) hs _

end

end Sys2Proof.Machine
end

section
/-! Soundness (O56), system words and the privileged registers. -/

namespace Sys2Proof.Machine

/-- What a system word leaves. -/
def soundEnd : SysEnd → Prop
  | .done t _ => t.sound
  | .fault _ => True
  | .fail t _ => t.sound
  | .wait t => t.sound

theorem soundEnd_ite {c : Prop} [Decidable c] {a b : SysEnd} (ha : soundEnd a) (hb : soundEnd b) : soundEnd (if c then a else b) := by
  split
  · exact ha
  · exact hb

theorem soundEnd_okIf {s : State} (h : s.sound) (c : Bool) : soundEnd (okIf c s) := soundEnd_ite h trivial

theorem soundEnd_fault (code : Nat) : soundEnd (.fault code) := trivial

theorem SysEnd.sound_event {s : State} (h : s.sound) {x : SysEnd} (hx : soundEnd x) : soundOut (x.event s) := by
  cases x with
  | done t w => exact hx
  | fault code => exact h
  | fail t code => exact hx
  | wait t => exact hx

section
variable {s : State} (h : s.sound)
include h

theorem Env.sound_sysDone (e : Env) (w : Option (Nat × DWord)) : soundOut (e.sysDone s w) := by
  unfold Env.sysDone
  split
  · exact h
  next e1 he1 =>
    have h1 : e1.s.sound := State.sound_env (by exact h) he1
    refine soundOut_ite h ?_
    split
    · exact Env.sound_groupNext (by exact h1)
    · exact Env.sound_groupNext h1

/-- A system word, by what it comes to. -/
theorem sound_sysWord {ok : Bool} {regs : List Nat} {k : Env → SysEnd} (hk : ∀ e : Env, e.s.sound → soundEnd (k e)) : soundOut (sysWord ok regs k s) := by
  refine State.sound_issue h fun e he => soundOut_ite (Env.sound_groupFault he) (soundOut_ite (Env.sound_groupIllegal he) (Env.sound_whenFull he ?_))
  have hend := hk e he
  cases hx : k e with
  | done t w => exact Env.sound_sysDone (hx ▸ hend : soundEnd (.done t w)) e w
  | fault code => exact Env.sound_groupFault he
  | fail t code => exact Env.sound_groupFault (by exact (hx ▸ hend : soundEnd (.fail t code)))
  | wait t => exact (hx ▸ hend : soundEnd (.wait t))

theorem sound_execSysrd (f : GW) : soundOut (execSysrd f s) := by
  refine sound_sysWord h fun e he => ?_
  unfold Env.sysrdEnd
  split
  · exact sound_ite he he
  · trivial

/-! ZS_QSCHED and ZS_FLIP. -/

theorem State.sound_writeQsched {v : DWord} {t : State} (ht : s.writeQsched v = .ok t) : t.sound := by
  unfold State.writeQsched at ht
  split at ht
  · exact nomatch ht
  · rw [← Except.ok.inj ht]
    exact h

theorem State.sound_flipToHost (part : Nat) (v : DWord) : soundEnd (s.flipToHost part v) := by
  unfold State.flipToHost
  split
  · trivial
  · exact soundEnd_ite h h

theorem State.sound_flipToDevice (part : Nat) (v : DWord) : soundEnd (s.flipToDevice part v) := by
  unfold State.flipToDevice
  split
  · trivial
  · exact soundEnd_ite h h

/-! ZS_PARTAPPLY. -/

theorem State.sound_wakeParked (hit : WorkUnit → ThrWait → Bool) : (s.wakeParked hit).sound := by
  refine sound_foldl (fun _ _ ht => State.sound_rouse ht _) (State.sound_units h fun p hp => ?_) _
  split
  · exact hp
  · exact hp

theorem State.sound_zeroGranule (a : Nat) : (s.zeroGranule a).sound := State.sound_wakeParked (State.sound_of_eq (State.sound_zeroRange h a (2 ^ 26))) _

theorem State.sound_zeroResource (kind idx : Nat) : (s.zeroResource kind idx).sound :=
  sound_ite (State.sound_setCore (State.sound_zeroRange h _ _) _ _) (sound_ite (State.sound_zeroGranule h _) h)

theorem State.sound_partApply (v : DWord) : soundEnd (s.partApply v) := by
  unfold State.partApply
  dsimp only
  split
  · trivial
  · exact soundEnd_ite trivial (soundEnd_ite h (soundEnd_ite h (State.sound_of_eq (State.sound_zeroResource h _ _))))

/-! Writes. -/

theorem State.sound_sysWrite (part n : Nat) (v : DWord) : soundEnd (s.sysWrite part n v) := by
  unfold State.sysWrite
  dsimp only
  refine soundEnd_ite trivial (soundEnd_ite trivial (soundEnd_ite (soundEnd_ite trivial (soundEnd_okIf (by exact h) _)) ?_))
  split
  case h_2 => exact State.sound_of_eq (sound_ite (c := SMap.get 0 s.segbase (s.ctxsel.toNat % 2 ^ 16) = v) h (State.sound_noFerry h _))
  case h_8 =>
    split
    next ht => exact State.sound_writeQsched h ht
    · trivial
  case h_13 => exact soundEnd_ite trivial (State.sound_partApply h _)
  case h_14 => exact soundEnd_ite trivial (soundEnd_ite (State.sound_flipToHost h _ _) (State.sound_flipToDevice h _ _))
  case h_16 => exact soundEnd_okIf (State.sound_deliverKept (by exact h)) _
  case h_23 => trivial
  case h_10 | h_11 | h_18 | h_19 => exact h
  case h_5 | h_12 => exact soundEnd_ite trivial (soundEnd_okIf (by exact h) _)
  all_goals exact soundEnd_okIf (by exact h) _

theorem sound_execSyswr (f : GW) : soundOut (execSyswr f s) := sound_sysWord h fun _ he => State.sound_sysWrite he _ _ _

theorem sound_execZsQsched : soundOut (execZsQsched s) := by
  unfold execZsQsched
  split
  next ht => exact State.sound_writeQsched h ht
  · exact h

theorem sound_execZsFlipToHost : soundOut (execZsFlipToHost s) := soundOut_ite (SysEnd.sound_event h (State.sound_flipToHost h _ _)) h

theorem sound_execZsFlipToDevice : soundOut (execZsFlipToDevice s) := soundOut_ite (SysEnd.sound_event h (State.sound_flipToDevice h _ _)) h

theorem sound_execZsPartapply : soundOut (execZsPartapply s) := soundOut_ite (SysEnd.sound_event h (State.sound_partApply h _)) h

end

end Sys2Proof.Machine
end

section
/-! Soundness (O56), linkage and the ferry. -/

namespace Sys2Proof.Machine

section
variable {s : State} (h : s.sound)
include h

/-! Units that come back, units that end. -/

theorem State.sound_returnUnit (u : WorkUnit) : (s.returnUnit u).sound := by
  unfold State.returnUnit
  split
  · exact State.sound_sendBarge (State.sound_setUnit (State.sound_dropBarges h _) _) _
  · exact h

theorem State.sound_endUnit (uid result : Nat) : (s.endUnit uid result).sound := by
  unfold State.endUnit
  split
  · exact h
  · exact sound_ite h (State.sound_onUnit (State.sound_unitDone (State.sound_returnLeave (State.sound_settle h _) _) _ _) _ _)

theorem State.sound_cancelUnit (uid : Nat) : (s.cancelUnit uid).sound := State.sound_endUnit h _ _

/-! Binding. -/

theorem State.sound_reportBindings (ctx : Nat) : (s.reportBindings ctx).sound := sound_foldl (fun _ _ ht => State.sound_report ht _ _) h _

theorem State.sound_reports (rs : List (Nat × Nat)) : (s.reports rs).sound := sound_foldl (fun _ _ ht => State.sound_report ht _ _) h rs

/-- The four words of a record. -/
theorem State.sound_fourWords (k0 v0 k1 v1 k2 v2 k3 v3 : Nat) : ((((s.wr8 k0 v0).wr8 k1 v1).wr8 k2 v2).wr8 k3 v3).sound :=
  State.sound_wr8 (State.sound_wr8 (State.sound_wr8 (State.sound_wr8 h _ _) _ _) _ _) _ _

theorem State.sound_instantiate {ctx space xid off i addr : Nat} {desc : List DWord} {t : State} (ht : s.instantiate ctx space xid off desc = some (t, i, addr)) : t.sound := by
  unfold State.instantiate at ht
  have ht := ite_none_eq_some ht
  split at ht
  · rw [← (Prod.mk.inj (Option.some.inj (ite_none_eq_some ht))).1]
    exact State.sound_fourWords (State.sound_fourWords (State.sound_reattach (State.sound_noFerry h _) _) _ _ _ _ _ _ _ _) _ _ _ _ _ _ _ _
  · exact nomatch ht

theorem State.sound_wakeEntry (ctx key : Nat) : (s.wakeEntry ctx key).sound := by
  refine sound_foldl (fun _ _ ht => State.sound_rouse ht _) (State.sound_units h fun p hp => ?_) _
  split
  · exact hp
  · exact hp

theorem State.sound_snap (e : LinkEntry) (addr : Nat) (rec_ : Option Nat) : (s.snap e addr rec_).sound := by
  have h1 := State.sound_setScope (State.sound_wrEntry (State.sound_wrEntry h e 8 addr) e 0 (2 ^ 63 + (bits (s.rd8 e.key) 32 16 + 1) % 2 ^ 16 * 2 ^ 32 + s.rd8 e.key % 2 ^ 32)) e.line 5 0
  unfold State.snap
  dsimp only
  split
  · exact State.sound_wr8 h1 _ _
  · exact h1

theorem State.sound_bind (u : WorkUnit) (e : LinkEntry) (said : List (Nat × Nat)) : (s.bind u e said).s.sound := by
  unfold State.bind
  dsimp only
  split
  · exact State.sound_reports h _
  split
  · exact h
  split
  · exact State.sound_reports h _
  · exact State.sound_wakeEntry (State.sound_snap (State.sound_reports h _) _ _ _) _ _
  split
  · exact State.sound_reports h _
  split
  · exact State.sound_wakeEntry (State.sound_snap (State.sound_reportBindings (State.sound_reports h _) _) _ _ _) _ _
  split
  · exact State.sound_reportBindings (State.sound_reports h _) _
  next hi => exact State.sound_wakeEntry (State.sound_snap (State.sound_instantiate (State.sound_reportBindings (State.sound_reports h _) _) hi) _ _ _) _ _

theorem State.sound_bindStuck (i : Nat) (b : Binder) (u : WorkUnit) : (s.bindStuck i b u).sound := by
  unfold State.bindStuck
  dsimp only
  split
  · exact State.sound_escalate (by exact h) _
  · exact State.sound_report (by exact h) _ _

theorem sound_execBinderResolution : soundOut (execBinderResolution s) := by
  unfold execBinderResolution
  split
  · exact h
  refine soundOut_ite h ?_
  split
  · exact h
  next b _ _ u _ =>
    have hb := State.sound_bind h u b.entry b.said
    refine soundOut_ite h (soundOut_ite (State.sound_bindStuck h _ _ _) (soundOut_ite (State.sound_bindStuck hb _ _ _) ?_))
    dsimp only
    split
    · exact hb
    · exact soundOut_ite (State.sound_returnUnit (by exact hb) _) hb

theorem sound_execBindingSearchRepeat : soundOut (execBindingSearchRepeat s) := h

theorem sound_execBindingAbandon : soundOut (execBindingAbandon s) := by
  unfold execBindingAbandon
  split
  · exact h
  · exact State.sound_cancelUnit (State.sound_wakeEntry (State.sound_entryState (by exact h) _ _) _ _) _

/-! Revocation. -/

theorem State.sound_wakeSegments (ctx : Nat) (seg : Nat → Bool) : (s.wakeSegments ctx seg).sound := State.sound_wakeParked h _

theorem State.sound_revoke (ctx n : Nat) : (s.revoke ctx n).sound := by
  refine State.sound_wakeSegments ?_ _ _
  split
  · exact State.sound_wr8 (State.sound_wr8 h _ _) _ _
  · exact State.sound_wr8 h _ _

theorem State.sound_revokeEntries (ctx n : Nat) : (s.revokeEntries ctx n).sound := sound_foldl (fun _ _ ht => sound_ite (State.sound_entryState ht _ _) ht) h _

end

theorem Env.sound_segrevEnd (f : GW) {e : Env} (he : e.s.sound) : soundEnd (e.segrevEnd f) := by
  unfold Env.segrevEnd
  refine soundEnd_ite trivial ?_
  split
  · trivial
  · have h1 := State.sound_revokeEntries (sound_ite (c := e.s.descState (e.sB f) (e.sA f % 2 ^ 24) = 1) (State.sound_revoke he (e.sB f) (e.sA f % 2 ^ 24)) he) (e.sB f) (e.sA f % 2 ^ 24)
    exact soundEnd_ite h1 h1

theorem Env.sound_bindinvEnd (f : GW) {e : Env} (he : e.s.sound) : soundEnd (e.bindinvEnd f) := by
  unfold Env.bindinvEnd
  extract_lets n ctx a at_ ws s1
  have h1 : s1.sound := State.sound_of_eq (State.sound_wr8 (State.sound_noImage (State.sound_noFerry he at_) at_) a (e.s.rd8 a % 2 ^ 62))
  clear_value s1
  refine soundEnd_ite trivial ?_
  show State.sound _
  split
  · exact State.sound_wr8 h1 _ _
  · exact h1

section
variable {s : State} (h : s.sound)
include h

theorem sound_execSegrev (f : GW) : soundOut (execSegrev f s) := sound_sysWord h fun _ he => Env.sound_segrevEnd f he

theorem sound_execBindinv (f : GW) : soundOut (execBindinv f s) := sound_sysWord h fun _ he => Env.sound_bindinvEnd f he

theorem State.sound_countRevoked (uid : Nat) (p : Nat × Nat) : (s.countRevoked uid p).sound := by
  unfold State.countRevoked
  split
  · exact h
  · exact h

theorem State.sound_routeStop (u : WorkUnit) (addr : Nat) : (s.routeStop u addr).sound := by
  unfold State.routeStop
  dsimp only
  split
  · exact State.sound_endUnit h _ _
  · split
    · exact State.sound_toHarbour (sound_foldl (fun _ _ ht => State.sound_countRevoked ht _ _) h _) _ _
    · exact State.sound_escalate h _
  · exact State.sound_toSupervisor h _ _

theorem State.sound_rebind (u : WorkUnit) (grp seg : Nat) : (s.rebind u grp seg).sound := by
  unfold State.rebind
  dsimp only
  split
  · exact State.sound_reports h _
  · refine sound_foldl (fun s e hs => ?_) (State.sound_reports h _) _
    have hb := State.sound_bind (State.sound_entryState hs e.2 1) e.1 e.2 []
    exact sound_ite (sound_ite hb hb) hs

theorem sound_execRevokedSegmentService : soundOut (execRevokedSegmentService s) := by
  unfold execRevokedSegmentService
  split
  · exact h
  next u _ =>
    refine soundOut_ite h (soundOut_ite (State.sound_cancelUnit (State.sound_escalate h _) _) ?_)
    have h2 : State.sound ((revokedSegs u.stop).foldl (fun (s : State) p => if s.descState (recCtx u.record) p.2 = 2 then s.rebind u p.1 p.2 else s) s) :=
      sound_foldl (fun _ _ ht => sound_ite (State.sound_rebind ht _ _ _) ht) h _
    dsimp only
    split
    · exact h2
    · exact soundOut_ite (State.sound_escalate h2 _) (State.sound_returnUnit h2 _)

/-! The ferry. -/

theorem State.sound_joinBytes (ctx die : Nat) (g : Seg) (off : Nat) (bytes : List Byte) : (s.joinBytes ctx die g off bytes).sound :=
  sound_foldl (fun _ _ ht => sound_ite ht (State.sound_hitFences (State.sound_joinCell ht _ _ _ _) _)) h _

theorem State.sound_chunks (cs : List Chunk) : State.sound { s with chunks := cs } := h

theorem State.sound_setFerry (f : Ferry) : (s.setFerry f).sound := sound_ite h h

theorem State.sound_sendChunks (g : Seg) (f : Ferry) (d : Nat) (targets : List Nat) : (s.sendChunks g f d targets).1.sound := h

theorem State.sound_scatter (g : Seg) (f : Ferry) (d : Nat) : (s.scatter g f d).sound := sound_ite (State.sound_setFerry h _) (State.sound_setFerry (State.sound_sendChunks h _ _ _ _) _)

theorem State.sound_ferryWithout (g : Seg) (f : Ferry) (d : Nat) (gone : Nat → Bool) : (s.ferryWithout g f d gone).sound := by
  unfold State.ferryWithout
  extract_lets mine x lost s1 s2
  have h1 : s1.sound := h
  exact State.sound_scatter (sound_ite (State.sound_report h1 _ _) h1) _ _ _

theorem sound_execFerryRoundStart : soundOut (execFerryRoundStart s) := by
  unfold execFerryRoundStart
  dsimp only
  split
  · exact h
  · have h0 (c : Prop) [Decidable c] (rule arg : Nat) : (if c then s else s.report rule arg).sound := sound_ite h (State.sound_report h _ _)
    exact soundOut_ite h (soundOut_ite (State.sound_ferryWithout h _ _ _ _) (soundOut_ite (State.sound_scatter (h0 _ _ _) _ _ _) (State.sound_setFerry (State.sound_sendChunks (h0 _ _ _) _ _ _ _) _)))

theorem sound_execFerryChunkReceive : soundOut (execFerryChunkReceive s) := by
  unfold execFerryChunkReceive
  split
  · exact h
  split
  · exact h
  · exact soundOut_ite h (soundOut_ite h (State.sound_scatter (State.sound_joinBytes (by exact h) _ _ _ _ _) _ _ _))

theorem State.sound_joinRound (g : Seg) (ctx d r0 e : Nat) : (s.joinRound g ctx d r0 e).sound :=
  sound_ite h (sound_ite (State.sound_setFerry (State.sound_sendChunks h _ _ _ _) _) (State.sound_setFerry h _))

theorem State.sound_ferryReturn (d : Nat) : (s.ferryReturn d).sound := by
  refine sound_foldl (fun s f hs => ?_) h _
  split
  · exact hs
  dsimp only
  split
  · exact hs
  · refine sound_foldl (fun _ _ ht => State.sound_joinRound ht _ _ _ _ _) (State.sound_setFerry (State.sound_chunks ?_ _) _) _
    exact sound_foldl (fun _ _ ht => sound_ite (State.sound_ferryWithout ht _ _ _ _) ht) hs _

theorem sound_execDomainRound : soundOut (execDomainRound s) := by
  unfold execDomainRound
  split
  · exact h
  extract_lets f d set n L reach
  split
  · exact h
  · extract_lets from_ to_ s1 now cs s2
    have h1 : s1.sound := sound_ite h (sound_foldl (fun _ _ ht => State.sound_joinBytes ht _ _ _ _ _) h _)
    clear_value s1
    exact soundOut_ite h (State.sound_setFerry (by exact h1) _)

theorem sound_execOvoftLinkLoss : soundOut (execOvoftLinkLoss s) := soundOut_ite h h

theorem sound_execOvoftLinkReturn : soundOut (execOvoftLinkReturn s) := soundOut_ite h h

end

end Sys2Proof.Machine
end

section
/-! Soundness (O56), the other system words, stops and what ends a service. -/

namespace Sys2Proof.Machine

theorem Memory.wf_copyRun {m : SMap Byte} (h : Memory.wf m = true) (a b n : Nat) : Memory.wf (Memory.copyRun m a b n) = true :=
  foldl_keeps (P := fun x => Memory.wf x = true) (fun _ _ hx => Memory.wf_write hx) (Memory.wf_clear h) _

/-! Traps, translations, instruction caches. -/

theorem soundEnd_done {t : State} (ht : t.sound) (w : Option (Nat × DWord)) : soundEnd (.done t w) := ht

theorem soundEnd_wait {t : State} (ht : t.sound) : soundEnd (.wait t) := ht

section
variable {e : Env} (he : e.s.sound)
include he

theorem Env.sound_tlbinvEnd (f : GW) : soundEnd (e.tlbinvEnd f) := by
  unfold Env.tlbinvEnd
  have h1 (ctx : Nat) (tlb : List TlbEntry) (seg : Nat → Bool) : (State.wakeSegments { e.s with tlb := tlb } ctx seg).sound := State.sound_wakeSegments (by exact he) _ _
  exact soundEnd_ite trivial (soundEnd_ite he (soundEnd_ite (h1 _ _ _) (h1 _ _ _)))

theorem Env.sound_icinvEnd (f : GW) : soundEnd (e.icinvEnd f) := by
  unfold Env.icinvEnd
  refine soundEnd_ite trivial (State.sound_units (sound_foldl (fun _ _ ht => State.sound_setDie ht _ _) he _) fun p hp => ?_)
  split
  · exact hp
  · exact hp

end

/-! Units saved and loaded. -/

section
variable {s : State} (h : s.sound)
include h

theorem sound_execTrap (f : GW) : soundOut (execTrap f s) := sound_sysWord h fun _ he => he

theorem sound_execTlbinv (f : GW) : soundOut (execTlbinv f s) := sound_sysWord h fun _ he => Env.sound_tlbinvEnd he f

theorem sound_execIcinv (f : GW) : soundOut (execIcinv f s) := sound_sysWord h fun _ he => Env.sound_icinvEnd he f

theorem State.sound_slots (xs : List Slot) : State.sound { s with slots := xs } := h

theorem State.sound_saveAt (uid addr : Nat) : (s.saveAt uid addr).sound := by
  have h1 := State.sound_settle h uid
  unfold State.saveAt
  dsimp only
  split
  · exact h
  · exact sound_ite h1 (State.sound_slots (State.sound_saveUnit h1 _ _ _) _)

theorem State.sound_vacate (u : WorkUnit) : (s.vacate u).sound := by
  unfold State.vacate
  split
  · exact h
  next addr _ =>
    have h1 := State.sound_saveAt h u.uid addr
    dsimp only
    split
    · exact h1
    · split
      · exact State.sound_sendBarge (State.sound_setUnit h1 _) _
      · exact State.sound_routeStop h1 _ _
      · exact h1

theorem State.sound_moveQueued (l : Launch) (c : Nat) : (s.moveQueued l c).sound := by
  refine sound_foldl (fun s u hs => ?_) h _
  have h1 := State.sound_dropBarges hs u.uid
  refine State.sound_enqueue ?_ _ _ _
  split
  · exact State.sound_nextCore h1 _
  · exact h1

theorem State.sound_preempt (l : Launch) (chosen : List Nat) : (s.preempt l chosen).sound :=
  sound_foldl (fun _ _ ht => State.sound_moveQueued ht _ _) (sound_foldl (fun _ _ ht => State.sound_vacate ht _) (State.sound_setLaunch h _) _) _

/-! Cancels. -/

theorem State.sound_levelWord (a : Nat) : (s.levelWord a).sound := sound_ite (State.sound_reportStray h _) h

theorem State.sound_cancelLaunch (l : Launch) : (s.cancelLaunch l).sound := sound_foldl (fun _ _ ht => State.sound_cancelUnit ht _) h _

theorem State.sound_closeLevel (i : Nat) : (s.closeLevel i).sound := sound_ite (State.sound_memberDone (State.sound_wr8 h _ _) _ _ _) h

theorem State.sound_cancelLevel (fuel i : Nat) : (State.cancelLevel fuel i s).sound := by
  induction fuel generalizing s i with
  | zero => exact h
  | succ n ih =>
    refine State.sound_closeLevel (sound_foldl (fun _ _ ht => sound_ite (State.sound_setMbxField (State.sound_setMbx ht _ _) _ _ _ _) ht) ?_ _) _
    exact sound_foldl (fun _ _ ht => State.sound_cancelLaunch ht _) (sound_foldl (fun _ j ht => ih ht j) h _) _

/-! Buffers that are zeroed. -/

theorem State.sound_onResidents (c : Nat) {f : WorkUnit → WorkUnit} (hf : ∀ u, (f u).uid = u.uid) : (s.onResidents c f).sound := by
  refine State.sound_units h fun p hp => ?_
  split
  · exact (hf p.2).trans hp
  · exact hp

theorem State.sound_zeroBuf (c kind : Nat) : (s.zeroBuf c kind).sound := by
  unfold State.zeroBuf
  split
  · exact sound_foldl (fun _ _ ht => State.sound_zeroRange ht _ _) h _
  · exact State.sound_zeroRange h _ _
  · refine State.sound_onResidents h c fun u => ?_
    split
    · rfl
    · rfl
  all_goals exact State.sound_onResidents h c fun _ => rfl

/-! Warm reset of a die. -/

theorem State.sound_toStep (f : GW) (d n : Nat) : soundEnd (s.toStep f d n) := State.sound_setDie h _ _

theorem State.sound_resetLogic (d : Nat) : (s.resetLogic d).sound := by
  unfold State.resetLogic
  extract_lets x s1 own s2
  have h2 : s2.sound := State.sound_hitFences (State.sound_setDie h d x) _
  clear_value s2
  exact State.sound_of_eq h2

theorem State.sound_rehome (d old : Nat) : (s.rehome d old).sound :=
  sound_foldl (fun _ _ ht => sound_foldl (fun _ _ ht => State.sound_sendBarge ht _) (State.sound_setCore ht _ _) _) h _

theorem State.sound_searchAgain (d : Nat) : (s.searchAgain d).sound := h

theorem State.sound_setBudget (d n : Nat) : (s.setBudget d n).sound := sound_foldl (fun _ _ ht => State.sound_refuse ht _ _) (State.sound_setDie h _ _) _

theorem State.sound_bindMbx (m addr : Nat) (record : List DWord) : (s.bindMbx m addr record).sound := by
  unfold State.bindMbx
  extract_lets w x s1
  have h1 : s1.sound := State.sound_setMbx (State.sound_wr8 (State.sound_wr8 h _ _) _ _) _ _
  clear_value s1
  exact State.sound_deliverKept (State.sound_of_eq h1)

theorem State.sound_copyReplicas (d : Nat) : (s.copyReplicas d).sound := by
  unfold State.copyReplicas
  split
  · exact h
  · exact sound_foldl (fun _ l ht => State.sound_of_eq (State.sound_mem ht (Memory.wf_copyRun ht.1 _ _ _))) h _

/-! Units saved, loaded and vacated. -/

theorem sound_execUnitsave (f : GW) : soundOut (execUnitsave f s) := by
  refine sound_sysWord h fun e he => ?_
  unfold Env.unitsaveEnd
  refine soundEnd_ite (soundEnd_fault _) (soundEnd_ite (soundEnd_fault _) ?_)
  split
  · trivial
  next u _ =>
    refine soundEnd_ite he (soundEnd_ite ?_ ?_)
    · exact sound_ite (c := u.uid = e.c.uid) he (State.sound_setUnit he _)
    · exact soundEnd_ite (State.sound_saveAt (sound_stateOf he (Env.sound_sysDone he _ _)) _ _) (State.sound_saveAt he _ _)

theorem sound_execUnitload (f : GW) : soundOut (execUnitload f s) := by
  refine sound_sysWord h fun e he => ?_
  unfold Env.unitloadEnd
  refine soundEnd_ite (soundEnd_fault _) (soundEnd_ite (soundEnd_fault _) ?_)
  split
  · trivial
  · dsimp only
    split
    · refine soundEnd_ite trivial (soundEnd_ite (soundEnd_wait he) (soundEnd_done ?_ _))
      exact State.sound_enqueue (State.sound_slots (State.sound_setUnit (State.sound_dropBarges he _) _) _) _ _ _
    · trivial

theorem sound_execPreempt (f : GW) : soundOut (execPreempt f s) := by
  refine sound_sysWord h fun e he => ?_
  unfold Env.preemptEnd
  split
  · trivial
  · exact soundEnd_ite (soundEnd_wait he) (soundEnd_ite (soundEnd_wait (State.sound_preempt (sound_stateOf he (Env.sound_sysDone he _ _)) _ _))
      (soundEnd_done (State.sound_preempt he _ _) _))

theorem sound_execCancel (f : GW) : soundOut (execCancel f s) := by
  refine sound_sysWord h fun e he => ?_
  unfold Env.cancelEnd
  dsimp only
  split
  · split
    · exact State.sound_cancelUnit he _
    · trivial
  · split
    · exact State.sound_cancelLaunch he _
    · trivial
  · split
    · exact State.sound_cancelLevel he _ _
    · exact State.sound_levelWord he _

theorem sound_cntrdWord (f : GW) (st : Bool) : soundOut (cntrdWord f st s) := by
  refine sound_sysWord h fun e he => ?_
  unfold Env.cntrdEnd
  dsimp only
  split
  · exact he
  · exact sound_ite (State.sound_levelWord he _) he

theorem sound_execZerobuf (f : GW) : soundOut (execZerobuf f s) := sound_sysWord h fun _ he => soundEnd_ite (soundEnd_done (State.sound_zeroBuf he _ _) _) (soundEnd_fault _)

/-! Words that name a die. -/

theorem sound_dieWordAt (f : GW) (op : Nat) (ok writes : Bool) (step : Option Nat) {k : Nat → State → SysEnd} (hk : ∀ d t, t.sound → soundEnd (k d t)) :
    soundOut (dieWordAt f op ok writes step k s) := sound_sysWord h fun _ he => soundEnd_ite trivial (soundEnd_ite trivial (hk _ _ he))

theorem sound_execDiectlReadState (f : GW) : soundOut (execDiectlReadState f s) := sound_dieWordAt h f _ _ _ _ fun _ _ ht => ht

theorem sound_execDiectlWriteBack (f : GW) : soundOut (execDiectlWriteBack f s) := sound_dieWordAt h f _ _ _ _ fun _ _ ht => State.sound_toStep ht f _ _

theorem sound_execDiectlSelfRefreshEntry (f : GW) : soundOut (execDiectlSelfRefreshEntry f s) := sound_dieWordAt h f _ _ _ _ fun _ _ ht => State.sound_toStep ht f _ _

theorem sound_execDiectlSelfRefreshExit (f : GW) : soundOut (execDiectlSelfRefreshExit f s) := sound_dieWordAt h f _ _ _ _ fun _ _ ht => State.sound_toStep ht f _ _

theorem sound_execDiectlResetDieLogic (f : GW) : soundOut (execDiectlResetDieLogic f s) :=
  sound_dieWordAt h f _ _ _ _ fun d _ ht => State.sound_toStep (State.sound_resetLogic ht d) f _ _

theorem sound_execDiectlRetrainUcie (f : GW) : soundOut (execDiectlRetrainUcie f s) := sound_dieWordAt h f _ _ _ _ fun _ _ ht => State.sound_toStep ht f _ _

theorem sound_execQuiesce (f : GW) : soundOut (execQuiesce f s) := by
  refine sound_dieWordAt h f _ _ _ _ fun d t ht => soundEnd_ite trivial ?_
  dsimp only
  exact soundEnd_ite (State.sound_setDie ht _ _) (State.sound_setDie (State.sound_setDie ht _ _) _ _)

theorem sound_execAdmit (f : GW) : soundOut (execAdmit f s) := by
  refine sound_dieWordAt h f _ _ _ _ fun d t ht => ?_
  have h1 (x : Die) : State.sound { t.setDie d x with freeCtr := t.freeCtr + 4 } := ht
  exact sound_foldl (fun _ _ hr => State.sound_unpark hr _) (State.sound_searchAgain (State.sound_ferryReturn (State.sound_rehome (State.sound_copyReplicas (h1 _) d) _ _) _) _) _

/-! Budgets and mailboxes. -/

theorem sound_execSluiceset (f : GW) : soundOut (execSluiceset f s) := sound_sysWord h fun _ he => soundEnd_ite trivial (State.sound_setBudget he _ _)

/-- MBXBIND with no record: the mailbox is unbound, at once or once its launches have completed. -/
theorem State.sound_unbindMbx (m : Nat) : soundEnd (if s.mbxState m = 0 then .done s none else
    let s1 := if s.mbxState m = 2 then s else (((s.setMbx m { s.mbx m with held := [], parked := [] }).setMbxField m 32 8 0).setMbxField m 0 8 0).setMbxField m 62 2 2
    if s1.mbxBusy m then .wait s1 else .done (s1.setMbxField m 62 2 0) none) := by
  have h1 := sound_ite (c := s.mbxState m = 2) h
    (State.sound_setMbxField (State.sound_setMbxField (State.sound_setMbxField (State.sound_setMbx h m { s.mbx m with held := [], parked := [] }) m 32 8 0) m 0 8 0) m 62 2 2)
  exact soundEnd_ite h (soundEnd_ite h1 (State.sound_setMbxField h1 _ _ _ _))

theorem sound_execMbxbind (f : GW) : soundOut (execMbxbind f s) := by
  refine sound_sysWord h fun e he => soundEnd_ite trivial (soundEnd_ite (State.sound_unbindMbx he _) ?_)
  exact soundEnd_ite trivial (soundEnd_ite trivial (soundEnd_ite (State.sound_levelWord he _) (State.sound_bindMbx he _ _ _)))

/-! Stops and their services. -/

theorem sound_execStopSave : soundOut (execStopSave s) := by
  unfold execStopSave
  split
  · exact h
  next u _ =>
    refine soundOut_ite h ?_
    extract_lets part s1 s2
    have h1 : s1.sound := State.sound_settle h _
    have h2 : s2.sound := State.sound_onUnit h1 _ _
    clear_value s1 s2
    split
    · exact soundOut_ite h (State.sound_toSupervisor (State.sound_setUnit h _) _ _)
    next addr _ =>
      extract_lets s3
      have h3 : s3.sound := State.sound_saveUnit h2 _ _ _
      clear_value s3
      split
      · exact h3
      · exact State.sound_routeStop (State.sound_slots h3 _) _ _

theorem sound_execServiceReturn : soundOut (execServiceReturn s) := by
  refine soundOut_ite ?_ ?_
  · split
    · exact State.sound_putCmd h _ _
    · exact h
  · split
    · exact soundOut_ite (State.sound_returnUnit h _) h
    · exact h

theorem sound_execServiceAbandon : soundOut (execServiceAbandon s) := by
  refine soundOut_ite ?_ ?_
  · split
    · exact State.sound_ctxFail h _ _ _ _ _
    · exact h
  · split
    · exact soundOut_ite (State.sound_endUnit h _ _) h
    · exact h

theorem sound_execServiceEscalate : soundOut (execServiceEscalate s) := by
  refine soundOut_ite ?_ ?_
  · split
    · exact State.sound_toSupervisor (State.sound_ctxFail h _ _ _ _ _) _ _
    · exact h
  · split
    · exact soundOut_ite (State.sound_escalate h _) h
    · exact h

/-! Emulation. -/

theorem State.sound_imageEdit (addr grp lane n : Nat) (w : Word) : (s.imageEdit addr grp lane n w).sound :=
  sound_ite (State.sound_wr8 (State.sound_wr h _ _ _) _ _) (sound_ite (State.sound_wr8 h _ _) (sound_ite (State.sound_wr8 (State.sound_wr h _ _ _) _ _) h))

theorem State.sound_imageSkip (addr : Nat) (r : FaultRec) : (s.imageSkip addr r).sound := State.sound_wr8 h _ _

theorem State.sound_emulate (u : WorkUnit) (xs : List EmuAcc) {t : State} (ht : s.emulate u xs = .ok t) : t.sound := by
  induction xs generalizing s with
  | nil => exact Except.ok.inj ht ▸ h
  | cons x rest ih =>
    unfold State.emulate at ht
    split at ht
    · exact nomatch ht
    · refine ih ?_ ht
      split
      · exact State.sound_learn h _
      · exact State.sound_writeNow h _ _ _

/-- The results of an emulation, and the lanes of its records set past their instructions. -/
theorem State.sound_emulated (addr : Nat) (edits : List (Nat × Nat × Word)) (rs : List FaultRec) :
    (rs.foldl (fun (s : State) r => s.imageSkip addr r) (edits.foldl (fun (s : State) p => s.imageEdit addr (p.1 / 64) (p.1 % 64) p.2.1 p.2.2) s)).sound :=
  sound_foldl (fun _ _ ht => State.sound_imageSkip ht _ _) (sound_foldl (fun _ _ ht => State.sound_imageEdit ht _ _ _ _ _) h _) _

theorem sound_execOptionalEmulation : soundOut (execOptionalEmulation s) := by
  unfold execOptionalEmulation
  split
  · exact h
  next u _ =>
    split
    next addr _ =>
      extract_lets rs edits
      refine soundOut_ite h ?_
      split
      · exact State.sound_escalate (State.sound_reports h _) _
      next s0 h0 =>
        extract_lets s1 s2
        have h2 : s2.sound := State.sound_emulated (State.sound_emulate h _ _ h0) addr edits rs
        clear_value s2
        exact sound_ite (State.sound_returnUnit h2 _) h2
    · exact h

end

end Sys2Proof.Machine
end

section
/-! Soundness (O56), the host's links, power and bring-up. -/

namespace Sys2Proof.Machine

section
variable {s : State} (h : s.sound)
include h

/-! Writes and reads through BAR2. -/

theorem State.sound_inboundNote (fn off n : Nat) : (s.inboundNote fn off n).sound := by
  unfold State.inboundNote
  split
  · exact h
  · exact sound_ite (State.sound_noteWalk h _ _) (State.sound_noteWalk h _ _)

theorem State.sound_discard (port : Nat) : (s.discard port).sound := h

theorem State.sound_logWrite (port : Nat) (w : InWrite) : (s.logWrite port w).sound := h

theorem State.sound_setPop (port : Nat) (ws : List PopWrite) : (s.setPop port ws).sound := h

/-- A store on its way to its home, with the scope records of its lines set. -/
theorem State.sound_stageStore (repl : Bool) (keys : List Nat) (bytes : List Byte) (recs : List (Nat × Nat)) :
    (recs.foldl (fun (t : State) n => t.setScope n 7 0) (s.hitFences (s.landing repl keys bytes).1)).sound :=
  sound_foldl (fun _ _ ht => State.sound_setScope ht _ _ _) (State.sound_hitFences h _) _

theorem State.sound_forward (port : Nat) (u : WorkUnit) (acc : Acc) (bytes : List Byte) : (s.forward port u acc bytes).sound := by
  unfold State.forward
  dsimp only
  split
  · exact State.sound_sendPeer (by exact h) _ _
  · exact sound_foldl (fun _ _ ht => State.sound_joinCell ht _ _ _ _) h _
  · exact State.sound_of_eq (State.sound_stageStore h _ _ _ _)

theorem State.sound_passPop {port : Nat} {w : InWrite} {t : State} (ht : s.passPop port w = some t) : t.sound := by
  unfold State.passPop at ht
  split at ht
  · exact Option.some.inj ht ▸ State.sound_logWrite (State.sound_inboundNote h _ _ _) _ _
  next u acc _ =>
    have hf := State.sound_forward h port u acc w.data
    dsimp only at ht
    split at ht
    · exact Option.some.inj ht ▸ hf
    · split at ht
      · exact Option.some.inj ht ▸ State.sound_logWrite hf _ _
      · split at ht
        · exact Option.some.inj ht ▸ sound_foldl (fun _ _ hr => State.sound_fire hr _ _) hf _
        · exact nomatch ht

theorem sound_execInboundPostedWrite : soundOut (execInboundPostedWrite s) := by
  unfold execInboundPostedWrite
  refine soundOut_ite h ?_
  split
  · exact soundOut_ite h h
  · split
    · exact h
    next x t hx =>
      obtain ⟨y, _, hy⟩ := List.exists_of_findSome?_eq_some hx
      obtain ⟨r, hr, heq⟩ := Option.map_eq_some_iff.mp hy
      have ht : t.sound := (Prod.mk.inj heq).2 ▸ State.sound_passPop h hr
      exact State.sound_setPop ht _ _

theorem sound_execInboundRead : soundOut (execInboundRead s) := by
  unfold execInboundRead
  refine soundOut_ite h (soundOut_ite h (soundOut_ite h ?_))
  split
  · exact State.sound_discard (State.sound_inboundNote h _ _ _) _
  · exact soundOut_ite h h

/-! CXL, restart and link. -/

theorem sound_execCxlMemRequest : soundOut (execCxlMemRequest s) := by
  unfold execCxlMemRequest
  refine soundOut_ite h (soundOut_ite (State.sound_discard h _) (soundOut_ite h (soundOut_ite ?_ h)))
  exact State.sound_of_eq (State.sound_hitFences h (upFrom s.arg.a s.arg.b))

/-- A snooped line: lanes that have read it are told, and the device's copies are gone. -/
theorem State.sound_snooped (keys : List Nat) (d : AMap DirEntry) : State.sound { s.hitFences keys with dir := d } := State.sound_of_eq (State.sound_hitFences h keys)

theorem sound_execHostSnoop : soundOut (execHostSnoop s) := by
  unfold execHostSnoop
  refine soundOut_ite h (soundOut_ite h ?_)
  exact sound_ite (State.sound_snooped h _ _) (State.sound_expose (State.sound_snooped h _ _) _ _ _)

theorem sound_execHostWarmRestart : soundOut (execHostWarmRestart s) := soundOut_ite h h

theorem sound_execHostLinkReturn : soundOut (execHostLinkReturn s) := soundOut_ite h h

/-! Power. -/

theorem State.sound_unpowered : s.unpowered.sound := ⟨SMap.wf_filter _ h.1, fun _ hp => nomatch hp⟩

theorem State.sound_tested (b : BringUp) : (s.tested b).sound := State.sound_of_eq (State.sound_unpowered h)

theorem State.sound_bootRegs (rs : List (Nat × DWord)) : (rs.foldl (fun (t : State) r => match t.sysWrite 0 r.1 r.2 with
    | .done s2 _ => s2
    | .fault _ => t
    | .fail s2 _ => s2
    | .wait s2 => s2) s).sound := by
  refine sound_foldl (fun t r ht => ?_) h rs
  have hr := State.sound_sysWrite ht 0 r.1 r.2
  split
  next heq => exact (heq ▸ hr : soundEnd (.done _ _))
  · exact ht
  next heq => exact (heq ▸ hr : soundEnd (.fail _ _))
  next heq => exact (heq ▸ hr : soundEnd (.wait _))

theorem State.sound_booted (b : BringUp) : (s.booted b).sound := by
  refine State.sound_bootRegs (State.sound_mem h ?_) _
  refine foldl_keeps (P := fun m => Memory.wf m = true) (fun m p hm => ?_) h.1 _
  split
  · exact Memory.wf_write hm
  · exact hm

theorem State.sound_recovery (p : Power) (w : DWord) : State.sound { s with power := p, bar0 := w } := h

theorem State.sound_started (p : Power) (w : DWord) : State.sound { s with power := p, qsched := w } := h

theorem sound_execPowerUp : soundOut (execPowerUp s) := by
  unfold execPowerUp
  refine soundOut_ite h ?_
  split
  · exact State.sound_recovery (sound_ite (State.sound_of_eq (State.sound_unpowered h)) (State.sound_tested h _)) _ _
  · exact State.sound_started (State.sound_booted (State.sound_tested h _) _) _ _

theorem sound_execPowerDown : soundOut (execPowerDown s) := State.sound_unpowered h

theorem sound_execThermalShutdown : soundOut (execThermalShutdown s) := State.sound_unpowered h

theorem sound_execThermalLimit : soundOut (execThermalLimit s) := sound_foldl (fun _ _ ht => sound_ite (State.sound_setBudget ht _ _) ht) h _

end

end Sys2Proof.Machine
end

section
/-! Soundness (O56), what any instruction or event leaves. -/

namespace Sys2Proof.Machine

/-- Whatever executes, the state it leaves meets the invariant. -/
theorem sound_exec {s : State} (h : s.sound) (i : Instr) : soundOut (exec i s) := by
  cases i with
  | nop f => exact sound_execNop h f
  | ret f => exact sound_execRet h f
  | exit f => exact sound_execExit h f
  | region f => exact sound_execRegion h f
  | ifence f => exact sound_execIfence h f
  | bkpt f => exact sound_execBkpt h f
  | iadd f | isub f | imul f | imulh f | imad f | idiv f | irem f | imin f | imax f | andI f | orI f | xor f | shl f | shr f | sar f | rol f | isat f =>
    unfold exec
    exact sound_intWord h _ _ _
  | bfx f | bfi f =>
    unfold exec
    exact sound_descWord h _ _ _
  | sel f => exact sound_execSel h f
  | icmp f => exact sound_execIcmp h f
  | mov f => exact sound_execMov h f
  | movi f => exact sound_execMovi h f
  | moviH f => exact sound_execMoviH h f
  | movs f => exact sound_execMovs h f
  | ineg f | iabs f | notI f | popc f | clz f | ctz f | brev f =>
    unfold exec
    exact sound_unaryWord h _ _ _ _
  | fald f => exact sound_execFald h f
  | fast f => exact sound_execFast h f
  | faupd f | fadwd f | fasolvF f | fasolvB f | fasolvG f | fasolvLoo f | famul f | famulT f =>
    unfold exec
    exact sound_heavyFactor h _ _ _ _ _ _
  | fadiag f => exact sound_execFadiag h f
  | fadd f | fsub f | fmul f | ffma f | fmin f | fmax f | fdiv f =>
    unfold exec
    exact sound_fpWord h _ _ _ _ _
  | fcmp f => exact sound_execFcmp h f
  | fscl f => exact sound_execFscl h f
  | fabs f | fneg f | fsqrt f | frcp f | frsq f | fexp2 f | flog2 f | fclass f | frnd f | fgete f | sinT f | cosT f | fredT f =>
    unfold exec
    exact sound_fpUnary h _ _ _ _ _
  | sincosT f => exact sound_execSincosT h f
  | cvt f | cvti f =>
    unfold exec
    exact sound_cvtWord h _ _
  | qpack f => exact sound_execQpack h f
  | qunpk f => exact sound_execQunpk h f
  | had f => exact sound_execHad h f
  | shfl f | shflUp f | shflDn f | shflX f | perm f | bcast f =>
    unfold exec
    exact sound_shuffle h _ _ _ _
  | swpPair f => exact sound_execSwpPair h f
  | redu f => exact sound_execRedu h f
  | scan f => exact sound_execScan h f
  | vote f | voteAny f | voteAll f | voteUni f =>
    unfold exec
    exact sound_voteWord h _ _ _
  | mcount f | mcountPre f =>
    unfold exec
    exact sound_mcountWord h _ _
  | matchI f => exact sound_execMatchI h f
  | ld f => exact sound_execLd h f
  | st f => exact sound_execSt h f
  | lds f => exact sound_execLds h f
  | sts f => exact sound_execSts h f
  | ldv f => exact sound_execLdv h f
  | stv f => exact sound_execStv h f
  | ldj f => exact sound_execLdj h f
  | ldjNb f => exact sound_execLdjNb h f
  | stj f => exact sound_execStj h f
  | pref f => exact sound_execPref h f
  | mka f => exact sound_execMka h f
  | segno f => exact sound_execSegno h f
  | segof f => exact sound_execSegof h f
  | chka f => exact sound_execChka h f
  | ldl f => exact sound_execLdl h f
  | amoAdd f | amoMin f | amoMax f | amoAnd f | amoOr f | amoXor f | amoXchg f | amoJoin f | amoc f =>
    unfold exec
    exact sound_amoWord h _ _ _ _
  | amof f => exact sound_execAmof h f
  | fence f => exact sound_execFence h f
  | bar f => exact sound_execBar h f
  | barArrive f => exact sound_execBarArrive h f
  | barWait f => exact sound_execBarWait h f
  | cbacq f => exact sound_execCbacq h f
  | cbrel f => exact sound_execCbrel h f
  | waittl f => exact sound_execWaittl h f
  | br f => exact sound_execBr h f
  | jmp f => exact sound_execJmp h f
  | brx f | brxCall f =>
    unfold exec
    exact sound_brxWord h _ _
  | call f => exact sound_execCall h f
  | trapu f => exact sound_execTrapu h f
  | spbind f => exact sound_execSpbind h f
  | sprel f => exact sound_execSprel h f
  | mma f | mmaD f | mmai f =>
    unfold exec
    exact sound_matrixWord h _ _ _
  | tld f => exact sound_execTld h f
  | tst f => exact sound_execTst h f
  | tread f => exact sound_execTread h f
  | twrite f => exact sound_execTwrite h f
  | optionalOpcode n f => exact sound_execOptionalOpcode h n f
  | saddGr f | ssubGr f | smulGr f | sandGr f | sorGr f | sxorGr f | sshlGr f | sshrN64Gr f | sshrI64Gr f | sminI64Gr f | sminN64Gr f | smaxI64Gr f
    | smaxN64Gr f | saddGi f | ssubGi f | smulGi f | sandGi f | sorGi f | sxorGi f | sshlGi f | sshrN64Gi f | sshrI64Gi f | sminI64Gi f | sminN64Gi f
    | smaxI64Gi f | smaxN64Gi f | saddGl f | ssubGl f | smulGl f | sandGl f | sorGl f | sxorGl f | sshlGl f | sshrN64Gl f | sshrI64Gl f | sminI64Gl f
    | sminN64Gl f | smaxI64Gl f | smaxN64Gl f =>
    unfold exec
    exact sound_aluWord h _ _ _
  | smov f => exact sound_execSmov h f
  | smoviGi f | smoviGl f =>
    unfold exec
    exact sound_smoviWord h _ _
  | scmpGi f | scmpGl f | scmpGr f =>
    unfold exec
    exact sound_scmpWord h _ _
  | ssel f => exact sound_execSsel h f
  | sld f => exact sound_execSld h f
  | sst f => exact sound_execSst h f
  | sbr f => exact sound_execSbr h f
  | sjmp f => exact sound_execSjmp h f
  | scall f => exact sound_execScall h f
  | sret f => exact sound_execSret h f
  | cvsetGi f | cvsetGl f =>
    unfold exec
    exact sound_cvsetWord h _ _ _
  | dqpush f => exact sound_execDqpush h f
  | dqpop f => exact sound_execDqpop h f
  | cpy f => exact sound_execCpy h f
  | cpy2d f => exact sound_execCpy2d h f
  | cpyg f => exact sound_execCpyg h f
  | chain f => exact sound_execChain h f
  | coll f => exact sound_execColl h f
  | post f => exact sound_execPost h f
  | stl f => exact sound_execStl h f
  | permit f => exact sound_execPermit h f
  | permq f => exact sound_execPermq h f
  | sploop f => exact sound_execSploop h f
  | spset f => exact sound_execSpset h f
  | tzero f => exact sound_execTzero h f
  | tcvt f => exact sound_execTcvt h f
  | ttr f => exact sound_execTtr h f
  | fainit f | fascl f =>
    unfold exec
    exact sound_faGroup h _ _ _
  | ymset f | ymsetFirst f | xmset f | xmsetFirst f =>
    unfold exec
    exact sound_maskWord h _ _
  | wbld f => exact sound_execWbld h f
  | wbfree f => exact sound_execWbfree h f
  | sysrd f => exact sound_execSysrd h f
  | syswr f => exact sound_execSyswr h f
  | trap f => exact sound_execTrap h f
  | tlbinv f => exact sound_execTlbinv h f
  | icinv f => exact sound_execIcinv h f
  | bindinv f => exact sound_execBindinv h f
  | segrev f => exact sound_execSegrev h f
  | unitsave f => exact sound_execUnitsave h f
  | unitload f => exact sound_execUnitload h f
  | preempt f => exact sound_execPreempt h f
  | cancel f => exact sound_execCancel h f
  | cntrd f | cntrdSt f =>
    unfold exec
    exact sound_cntrdWord h _ _
  | zerobuf f => exact sound_execZerobuf h f
  | diectlReadState f => exact sound_execDiectlReadState h f
  | diectlWriteBack f => exact sound_execDiectlWriteBack h f
  | diectlSelfRefreshEntry f => exact sound_execDiectlSelfRefreshEntry h f
  | diectlSelfRefreshExit f => exact sound_execDiectlSelfRefreshExit h f
  | diectlResetDieLogic f => exact sound_execDiectlResetDieLogic h f
  | diectlRetrainUcie f => exact sound_execDiectlRetrainUcie h f
  | quiesce f => exact sound_execQuiesce h f
  | admitI f => exact sound_execAdmit h f
  | sluiceset f => exact sound_execSluiceset h f
  | mbxbind f => exact sound_execMbxbind h f
  | zsQsched => exact sound_execZsQsched h
  | zsFlipToHost => exact sound_execZsFlipToHost h
  | zsFlipToDevice => exact sound_execZsFlipToDevice h
  | zsPartapply => exact sound_execZsPartapply h
  | loadValueArrival => exact sound_execLoadValueArrival h
  | registerSpill => exact sound_execRegisterSpill h
  | registerFill => exact sound_execRegisterFill h
  | streamFetch => exact sound_execStreamFetch h
  | homeApply => exact sound_execHomeApply h
  | storeCommit => exact sound_execStoreCommit h
  | directoryEviction => exact sound_execDirectoryEviction h
  | fenceCompletion => exact sound_execFenceCompletion h
  | fenceRollback => exact sound_execFenceRollback h
  | postedStoreAcknowledgement => exact sound_execPostedStoreAcknowledgement h
  | peerReply => exact sound_execPeerReply h
  | peerAccess => exact sound_execPeerAccess h
  | routeTimeout => exact sound_execRouteTimeout h
  | ferryRoundStart => exact sound_execFerryRoundStart h
  | ferryChunkReceive => exact sound_execFerryChunkReceive h
  | domainRound =>
    unfold exec
    exact sound_execDomainRound h
  | replicatedUpdate => exact sound_execReplicatedUpdate h
  | engineCommandComplete => exact sound_execEngineCommandComplete h
  | engineCommandFault => exact sound_execEngineCommandFault h
  | engineFaultRetry => exact sound_execEngineFaultRetry h
  | sluiceGrant => exact sound_execSluiceGrant h
  | sluicePromotion => exact sound_execSluicePromotion h
  | matrixOperationComplete => exact sound_execMatrixOperationComplete h
  | mailboxFiring => exact sound_execMailboxFiring h
  | recoveryQuantum => exact sound_execRecoveryQuantum h
  | bargePlacement => exact sound_execBargePlacement h
  | idleUnitSave => exact sound_execIdleUnitSave h
  | effectivePriorityRaise => exact sound_execEffectivePriorityRaise h
  | levellingExchange => exact sound_execLevellingExchange h
  | stopSave => exact sound_execStopSave h
  | binderResolution => exact sound_execBinderResolution h
  | revokedSegmentService => exact sound_execRevokedSegmentService h
  | optionalEmulation => exact sound_execOptionalEmulation h
  | serviceReturn => exact sound_execServiceReturn h
  | serviceAbandon => exact sound_execServiceAbandon h
  | serviceEscalate => exact sound_execServiceEscalate h
  | inboundPostedWrite => exact sound_execInboundPostedWrite h
  | inboundRead => exact sound_execInboundRead h
  | cxlMemRequest => exact sound_execCxlMemRequest h
  | hostSnoop => exact sound_execHostSnoop h
  | hostWarmRestart => exact sound_execHostWarmRestart h
  | powerUp => exact sound_execPowerUp h
  | thermalLimit => exact sound_execThermalLimit h
  | thermalShutdown => exact sound_execThermalShutdown h
  | bindingSearchRepeat => exact sound_execBindingSearchRepeat h
  | bindingAbandon => exact sound_execBindingAbandon h
  | failedContextClear => exact sound_execFailedContextClear h
  | ovoftLinkLoss => exact sound_execOvoftLinkLoss h
  | ovoftLinkReturn => exact sound_execOvoftLinkReturn h
  | hostLinkReturn => exact sound_execHostLinkReturn h
  | powerDown => exact sound_execPowerDown h

end Sys2Proof.Machine
end

section
/-! Soundness (O56), fetches, issues and steps. -/

namespace Sys2Proof.Machine

/-! Words fetched. -/

/-- What fetching a word leaves. -/
def soundWords : Words → Prop
  | .wait => True
  | .fault _ => True
  | .short e _ _ => e.s.sound
  | .ok e _ => e.s.sound

/-- What an issue move comes to before `exec`. -/
def soundFetched : Fetched → Prop
  | .idle => True
  | .done t => t.sound
  | .run t _ => t.sound

theorem soundFetched_ite {c : Prop} [Decidable c] {a b : Fetched} (ha : soundFetched a) (hb : soundFetched b) : soundFetched (if c then a else b) := by
  split
  · exact ha
  · exact hb

section
variable {e : Env} (he : e.s.sound)
include he

theorem Env.sound_read (off : Nat) : soundWords (e.read off) := by
  unfold Env.read
  split
  · trivial
  next a0 _ =>
    extract_lets k0 d pending word fresh w0 keep s0
    have hkeep (t : State) (c : CodeWords) (ht : t.sound) : (keep t c).sound := State.sound_setDie ht _ _
    have h0 : s0.sound := State.sound_learnAt he _ _
    clear_value keep s0
    split
    · trivial
    · split
      · exact sound_ite (hkeep _ _ h0) h0
      · split
        · exact h0
        · dsimp only
          split
          · exact State.sound_learnAt h0 _ _
          · split
            · trivial
            · exact hkeep _ _ (State.sound_learnAt h0 _ _)

theorem Env.sound_nextWord : soundWords e.nextWord := by
  unfold Env.nextWord
  split
  · split
    · exact he
    · exact Env.sound_read he _
  · exact Env.sound_read he _

theorem Env.sound_fetchFault (ls : List Nat) (f : LFault) : soundFetched (e.fetchFault ls f) := sound_stateOf he (Env.sound_faultAll (by exact he))

theorem Env.sound_go : soundFetched e.go := by
  unfold Env.go
  split
  · exact Env.sound_out he
  · refine soundFetched_ite (soundFetched_ite (Env.sound_out he) (sound_stateOf he (soundOut_ite (Env.sound_groupFault he) (Env.sound_groupIllegal he)))) ?_
    exact sound_stateOf he (Env.sound_illegal he)

theorem Env.sound_meetError (bcast : Nat) : soundFetched (e.meetError bcast) := Env.sound_out (Env.sound_stop he)

theorem Env.sound_atWord {k : Env → Fetched} (hk : ∀ e : Env, e.s.sound → soundFetched (k e)) : soundFetched (e.atWord k) :=
  soundFetched_ite (Env.sound_out he) (soundFetched_ite (hk _ (by exact he)) (soundFetched_ite (Env.sound_meetError he _) (Env.sound_out he)))

end

/-! Issues. -/

section
variable {s : State} (h : s.sound)
include h

theorem Env.sound_broadcast (u : WorkUnit) (uid grp : Nat) (g0 : Group) : soundFetched (Env.broadcast s u uid grp g0) := by
  unfold Env.broadcast
  extract_lets bad g subs here e ls
  have he : e.s.sound := h
  clear_value e
  refine soundFetched_ite trivial ?_
  have hw := Env.sound_nextWord he
  split
  · trivial
  · exact Env.sound_fetchFault he _ _
  next e1 w0 f heq =>
    have h1 : e1.s.sound := (heq ▸ hw : soundWords (.short e1 w0 f))
    refine soundFetched_ite (Env.sound_atWord (by exact h1) fun e he => ?_) (Env.sound_fetchFault (by exact h1) _ _)
    exact sound_ite (sound_stateOf he (Env.sound_groupFault he)) (Env.sound_out he)
  next e1 w heq =>
    have h1 : e1.s.sound := (heq ▸ hw : soundWords (.ok e1 w))
    exact soundFetched_ite (Env.sound_atWord (by exact h1) fun _ he => Env.sound_go he) (soundFetched_ite (Env.sound_go (by exact h1)) (Env.sound_go (by exact h1)))

theorem Env.sound_alone (u : WorkUnit) (uid grp : Nat) (g : Group) (l : Nat) : soundFetched (Env.alone s u uid grp g l) := by
  unfold Env.alone
  extract_lets bad x at_ act e
  refine soundFetched_ite trivial ?_
  split
  · split
    · trivial
    · exact soundFetched_ite trivial (Env.sound_go (by exact h))
  · refine soundFetched_ite trivial ?_
    have he : e.s.sound := h
    clear_value e
    split
    · split
      · exact Env.sound_fetchFault he _ _
      · exact soundFetched_ite trivial (Env.sound_fetchFault he _ _)
      · trivial
    · split
      · trivial
      · refine soundFetched_ite ?_ (Env.sound_go (by exact he))
        exact soundFetched_ite (Env.sound_meetError (by exact he) _) (Env.sound_out (by exact he))

theorem State.sound_tick : s.tick.sound := h

theorem State.sound_sources (uid grp : Nat) : (s.sources uid grp).sound := sound_ite h (State.sound_onGroup h _ _ _)

theorem State.sound_issueMove (uid grp : Nat) (lane : Option Nat) (same : Bool) : soundFetched (s.issueMove uid grp lane same) := by
  unfold State.issueMove
  split
  · trivial
  · refine soundFetched_ite trivial ?_
    extract_lets s1
    have h1 : s1.sound := State.sound_sources (sound_ite h (State.sound_tick h)) _ _
    clear_value s1
    split
    · trivial
    next u1 g1 _ =>
      extract_lets r
      have hr : soundFetched r := by
        unfold r
        split
        · exact Env.sound_broadcast h1 _ _ _ _
        · exact Env.sound_alone h1 _ _ _ _ _
      clear_value r
      refine soundFetched_ite hr ?_
      split
      · exact soundFetched_ite hr trivial
      · trivial

/-! Words brought ahead. -/

theorem State.sound_fetcher {uid grp : Nat} {e : Env} (he : s.fetcher uid grp = some e) : e.s.sound := by
  unfold State.fetcher at he
  split at he
  · exact nomatch he
  · split at he
    · exact nomatch he
    · exact Option.some.inj he ▸ h

theorem State.sound_ahead (uid grp : Nat) : (s.ahead uid grp).sound := by
  unfold State.ahead
  split
  · exact h
  next e he =>
    refine sound_ite h ?_
    split
    next e1 w heq =>
      have h1 : e1.s.sound := (heq ▸ Env.sound_read (State.sound_fetcher h he) _ : soundWords (.ok e1 w))
      exact sound_ite h (Env.sound_out (by exact h1))
    · exact h

theorem State.sound_fill (uid grp l : Nat) : (s.fill uid grp l).sound := by
  unfold State.fill
  split
  · exact h
  next e he =>
    extract_lets x run put
    have hput (e1 : Env) (w : TowWord) (h1 : e1.s.sound) : (put e1 w).sound := Env.sound_out (by exact h1)
    clear_value put
    refine sound_ite h ?_
    split
    next e1 w heq => exact hput _ _ (heq ▸ Env.sound_read (State.sound_fetcher h he) _ : soundWords (.ok e1 w))
    next e1 w0 f heq => exact sound_ite (hput _ _ (heq ▸ Env.sound_read (State.sound_fetcher h he) _ : soundWords (.short e1 w0 f))) h
    · exact h

theorem State.sound_dropWord (uid grp off : Nat) : (s.dropWord uid grp off).sound := State.sound_onGroup h _ _ _

theorem State.sound_backLine (uid grp lane line : Nat) (present : Bool) : (s.backLine uid grp lane line present).sound := State.sound_onGroup h _ _ _

theorem State.sound_loadImage (xs : List ImgExport) : (s.loadImage xs).sound := h

theorem State.sound_blowFuses (slot : Nat) (digest : BitVec 384) (revoked : Bool) (versions : List DWord) : (s.blowFuses slot digest revoked versions).sound := h

theorem State.sound_configRead (port fn reg : Nat) : (s.configRead port fn reg).sound := sound_ite h h

/-! Shares and cycles. -/

theorem State.sound_inShare (at_ : Nat × Nat × Nat) : (s.inShare at_).sound := by
  unfold State.inShare
  extract_lets gs
  clear_value gs
  split
  · exact h
  · refine sound_ite h ?_
    exact sound_foldl_fst (fun _ _ hr => State.sound_onGroup hr _ _ _) h _

theorem State.sound_inShares : s.inShares.sound := sound_foldl (fun _ at_ ht => State.sound_inShare ht at_) h _

end

theorem sound_withinShares {o : Out} (ho : soundOut o) : soundOut (withinShares o) := by
  cases o with
  | next t => exact State.sound_inShares ho
  | fault f => exact ho
  | refused r => exact ho

section
variable {s : State} (h : s.sound)
include h

theorem State.sound_passOver : s.passOver.sound := by
  refine sound_foldl (fun t r ht => ?_) h _
  split
  · exact ht
  · exact sound_foldl (fun _ _ hr => sound_ite hr (State.sound_onGroup hr _ _ _)) ht _

theorem State.sound_idleCycles (n : Nat) : (s.idleCycles n).sound := sound_ite h (State.sound_of_eq (State.sound_passOver h))

/-! Moves and steps. -/

theorem State.sound_moveIssue (uid grp : Nat) (lane : Option Nat) (same : Bool) : soundOut (s.moveIssue uid grp lane same) := by
  unfold State.moveIssue
  extract_lets s0
  have h0 : s0.sound := sound_ite h (State.sound_passOver h)
  clear_value s0
  have hi := State.sound_issueMove h0 uid grp lane same
  split
  · exact h
  next s1 heq => exact soundOut_ite h (heq ▸ hi : soundFetched (.done s1))
  next s1 i heq => exact soundOut_ite h (sound_exec (heq ▸ hi : soundFetched (.run s1 i)) i)

theorem State.sound_doMove (m : Move) : soundOut (s.doMove m) := by
  cases m with
  | event e arg => exact sound_exec (s := { s with cur := none, arg := arg }) h e
  | issue uid grp lane same => exact State.sound_moveIssue h uid grp lane same
  | ahead uid grp => exact State.sound_ahead h uid grp
  | fill uid grp lane => exact State.sound_fill h uid grp lane
  | drop uid grp off => exact State.sound_dropWord h uid grp off
  | backing uid grp lane line present => exact State.sound_backLine h uid grp lane line present
  | cycles n => exact State.sound_idleCycles h n
  | image xs => exact State.sound_loadImage h xs
  | collective p => exact State.sound_collJoin h p
  | forget i => exact h
  | evict line die core => exact State.sound_dropCopy h line die core
  | ack j core => exact State.sound_ackUpdate h j core
  | fuse slot digest revoked versions => exact State.sound_blowFuses h slot digest revoked versions
  | config port fn reg => exact State.sound_configRead h port fn reg

theorem State.sound_move (m : Move) : soundOut (s.move m) := sound_withinShares (State.sound_doMove h m)

theorem State.sound_agenda (ms : List Move) : State.sound { s with agenda := ms } := h

theorem sound_step : soundOut (step s) := by
  unfold step
  split
  · exact State.sound_move (State.sound_agenda h _) _
  · split
    · exact State.sound_move h _
    · exact h
  · exact soundOut_ite (State.sound_move (State.sound_agenda h _) _) (State.sound_agenda h _)
  · exact h
  · exact soundOut_ite (State.sound_move (State.sound_agenda h _) _) trivial
  · trivial

end

/-- Settles O56: a step keeps the invariant, since each function that writes memory or units does. -/
theorem soundStep : Obligations.SoundStep := by
  unfold Obligations.SoundStep
  intro s t hs hst
  exact (hst ▸ sound_step hs : soundOut (.next t))

end Sys2Proof.Machine
end
